-- ==== Sys2Proof/Word.lean ====
section
/-! DEFINITION. The word types of the machine and their plainest arithmetic (00_scope.md R1: 57-bit virtual and 52-bit
physical addresses, 64-bit Stoker registers; 05_local_memory.md: byte memories). -/
namespace Sys2Proof

/-- A Stoker register (01_machine.md R6). -/
abbrev Word := BitVec 64

/-- One byte of memory. -/
abbrev Byte := BitVec 8

/-- One vector lane (09_vector_isa.md R182). -/
abbrev Lane := BitVec 32

/-- A register number, or a five-bit immediate in a register field (07_encoding.md R115). -/
abbrev Reg := BitVec 5

end Sys2Proof
end

