-- ==== Sys2Proof/Syntax.lean ====
section
/-! DEFINITION. The instructions of the machine: one constructor for each row of the opcode table. A row with an
encoding carries the fields of its word, under the table's letters; a row that is a step of an engine, of the device or
of the host carries what that step is given from outside (95_what_each_step_holds.md). -/
namespace Sys2Proof

/-- The agents of a core, numbered as `ytrapinfo`.AGENT (08_stoker_isa.md R154). -/
inductive Agent where
  | sk | vx | mx | cx | gx | fx | cl
  deriving DecidableEq, Repr

/-- AGENT codes of R154. -/
def Agent.code : Agent → Nat
  | .sk => 0 | .vx => 1 | .mx => 2 | .cx => 3 | .gx => 4 | .fx => 5 | .cl => 6

/-- Width and extension of a Stoker load; the last two load f registers (08_stoker_isa.md R149). -/
inductive LoadKind where
  | lb | lh | lw | ld | lbu | lhu | lwu | flw | fld
  deriving DecidableEq, Repr

/-- Width of a Stoker store; the last two store f registers. -/
inductive StoreKind where
  | sb | sh | sw | sd | fsw | fsd
  deriving DecidableEq, Repr

/-- The nine read-modify-write functions, of RISC-V AMOs and of ABUF atomics (07_encoding.md R118). -/
inductive AmoOp where
  | add | swap | xor | or | and | min | max | minu | maxu
  deriving DecidableEq, Repr

/-- CSR access functions: write, set, clear. -/
inductive CsrOp where
  | rw | rs | rc
  deriving DecidableEq, Repr

/-- Branch conditions. -/
inductive BrCond where
  | eq | ne | lt | ge | ltu | geu
  deriving DecidableEq, Repr

/-- Register-register operations of RV64IM, Zba and Zbb (07_encoding.md R121). -/
inductive AluOp where
  | add | sub | sll | slt | sltu | xor | srl | sra | or | and
  | mul | mulh | mulhsu | mulhu | div | divu | rem | remu
  | sh1add | sh2add | sh3add | andn | orn | xnor | max | maxu | min | minu | rol | ror
  | addw | subw | sllw | srlw | sraw | mulw | divw | divuw | remw | remuw
  | addUw | sh1addUw | sh2addUw | sh3addUw | rolw | rorw
  deriving DecidableEq, Repr

/-- Register-immediate operations with a 12-bit immediate. -/
inductive ImmOp where
  | addi | slti | sltiu | xori | ori | andi | addiw
  deriving DecidableEq, Repr

/-- Shifts by an immediate; the W forms take five bits. -/
inductive ShiftOp where
  | slli | srli | srai | rori | slliUw | slliw | srliw | sraiw | roriw
  deriving DecidableEq, Repr

/-- One-operand operations of Zbb. -/
inductive UnOp where
  | clz | ctz | cpop | clzw | ctzw | cpopw | sextB | sextH | zextH | orcB | rev8
  deriving DecidableEq, Repr

/-- Two-operand floating-point arithmetic with a rounding mode. -/
inductive FpArith where
  | fadd | fsub | fmul | fdiv
  deriving DecidableEq, Repr

/-- Fused multiply-add forms. -/
inductive FpFma where
  | fmadd | fmsub | fnmsub | fnmadd
  deriving DecidableEq, Repr

/-- Two-operand floating-point operations without a rounding mode that write an f register. -/
inductive FpSel where
  | fsgnj | fsgnjn | fsgnjx | fmin | fmax
  deriving DecidableEq, Repr

/-- Comparisons that write an x register. -/
inductive FpCmp where
  | feq | flt | fle
  deriving DecidableEq, Repr

/-- Integer types of the conversions. -/
inductive IntTy where
  | w | wu | l | lu
  deriving DecidableEq, Repr

/-- The computational, branch, jump and CSR-read instructions of RV64IMAFDC, Zba and Zbb (07_encoding.md R121): what
the row RV64_BASE_INSTRUCTION executes. `dbl` selects double precision; `rm` is the rounding-mode field. A compressed
word stands for the instruction it expands to. -/
inductive RvInstr where
  | lui (rd : Reg) (imm : BitVec 20)
  | auipc (rd : Reg) (imm : BitVec 20)
  | jal (rd : Reg) (imm : BitVec 20)
  | jalr (rd rs1 : Reg) (imm : BitVec 12)
  | branch (c : BrCond) (rs1 rs2 : Reg) (imm : BitVec 12)
  | alu (op : AluOp) (rd rs1 rs2 : Reg)
  | aluImm (op : ImmOp) (rd rs1 : Reg) (imm : BitVec 12)
  | shift (op : ShiftOp) (rd rs1 : Reg) (sh : BitVec 6)
  | unary (op : UnOp) (rd rs1 : Reg)
  | csrRead (op : CsrOp) (uimm : Bool) (rd : Reg) (csr : BitVec 12)
  | ecall
  | ebreak
  | mret
  | fpArith (op : FpArith) (dbl : Bool) (rm : BitVec 3) (rd rs1 rs2 : Reg)
  | fpSqrt (dbl : Bool) (rm : BitVec 3) (rd rs1 : Reg)
  | fpFma (op : FpFma) (dbl : Bool) (rm : BitVec 3) (rd rs1 rs2 rs3 : Reg)
  | fpSel (op : FpSel) (dbl : Bool) (rd rs1 rs2 : Reg)
  | fpCmp (op : FpCmp) (dbl : Bool) (rd rs1 rs2 : Reg)
  | fpClass (dbl : Bool) (rd rs1 : Reg)
  | fpToInt (ty : IntTy) (dbl : Bool) (rm : BitVec 3) (rd rs1 : Reg)
  | intToFp (ty : IntTy) (dbl : Bool) (rm : BitVec 3) (rd rs1 : Reg)
  | fpCvt (toDbl : Bool) (rm : BitVec 3) (rd rs1 : Reg)
  | fpMvToInt (dbl : Bool) (rd rs1 : Reg)
  | intMvToFp (dbl : Bool) (rd rs1 : Reg)
  deriving DecidableEq, Repr

/-- What bring-up and recovery learn of a firmware image (23_host_links_security.md R340-R342): whether both signatures
verify, its revision, security version and byte length, its measurement, the MODE and ELANES its link configuration record
names for the two ports, whether the 48 LP6 channels train (24_power_bringup.md R349), where it places the specialisation
cache's 16 MiB region (12_portable_form.md R260), and which service numbers from 0x0100 it serves
(16_system_state.md R281; DESIGN CHOICE, log 103). Its revision is 32 bits that come with it (DESIGN CHOICE, log 132). -/
structure FirmwareImage where
  edOk : Bool
  mlOk : Bool
  revision : BitVec 32
  svn : Nat
  length : Nat
  measured : Word
  mode0 : BitVec 2
  elanes0 : BitVec 2
  mode1 : BitVec 2
  elanes1 : BitVec 2
  lp6Trains : Bool
  cacheBase : BitVec 52
  serves : List Nat
  deriving DecidableEq, Repr

/-- One entry of a segment table: native offset or PC, cost and remaining-time estimate (02_notation.md R45). -/
structure SegEntry where
  pc : Nat
  cost : BitVec 24
  remain : BitVec 32
  deriving DecidableEq, Repr

/-- One entry of a residual's back-map (12_portable_form.md R262). -/
structure BackEntry where
  off : Nat
  opidx : BitVec 20
  iter : BitVec 12
  deriving DecidableEq, Repr

/-- What the Preheater builds (12_portable_form.md R258-R262): native code, entered at its first byte, its segment table and
its back-map. -/
structure Residual where
  code : List Byte
  segs : List SegEntry
  back : List BackEntry
  deriving DecidableEq, Repr

/-- How a host agent's access goes (23_host_links_security.md R333, R334): to its own memory, to LP6 over CXL.mem, or over
CXL.io through BAR 2. -/
inductive HostPath where
  | own | cxlMem | bar2
  deriving DecidableEq, Repr

/-- The instructions: one constructor for each row of opcode_table.json; the rows that carry nothing stand last. -/
inductive Instr where
  /-- VX_RUN (R155). Stoker pushes one VX block run, capturing its run record and registering its windows on the scoreboard. -/
  | vxRun (b : BitVec 5) (a : BitVec 5)
  /-- MX_RUN (R155). Stoker pushes one MX block run, capturing its run record, views, shapes and geometries. -/
  | mxRun (b : BitVec 5) (a : BitVec 5)
  /-- MX_PUSHW (R117). Stoker pushes the MX word held in rs1 with the address operand in rs2. -/
  | mxPushw (b : BitVec 5) (a : BitVec 5)
  /-- MX_MMA_INLINE (R117). Stoker pushes an mx.mma in immediate form with NEG and AD modifier bits. -/
  | mxMmaInline (n : BitVec 1) (d : BitVec 1) (b : BitVec 5) (a : BitVec 5) (c : BitVec 5)
  /-- MX_CLAIM_INLINE (R117). Stoker pushes an mx.claim of a slot in immediate form. -/
  | mxClaimInline (s : BitVec 5)
  /-- MX_RELEASE_INLINE (R117). Stoker pushes an mx.release of a slot in immediate form. -/
  | mxReleaseInline (s : BitVec 5)
  /-- MX_TINIT_INLINE (R117). Stoker pushes an mx.tinit of a tile in immediate form. -/
  | mxTinitInline (c : BitVec 5)
  /-- CX_COPY (R155). Stoker pushes a copy command and receives its completion token in rd. -/
  | cxCopy (a : BitVec 5) (d : BitVec 5)
  /-- CX_COPY2 (R155). Stoker pushes a two-dimensional copy command and receives its token. -/
  | cxCopy2 (a : BitVec 5) (d : BitVec 5)
  /-- CX_PEER (R155). Stoker pushes a copy into a team member's ABUF and receives its token. -/
  | cxPeer (a : BitVec 5) (d : BitVec 5)
  /-- CX_FILL (R155). Stoker pushes a pattern fill command and receives its token. -/
  | cxFill (a : BitVec 5) (d : BitVec 5)
  /-- CX_RING (R155). Stoker pushes a produce-into-ring command and receives its token. -/
  | cxRing (a : BitVec 5) (d : BitVec 5)
  /-- CX_PRETR (R155). Stoker pushes a translation-prefetch command and receives its token. -/
  | cxPretr (a : BitVec 5) (d : BitVec 5)
  /-- CX_FLUSH (R155). Stoker pushes a cache write-back command over a global range and receives its token. -/
  | cxFlush (a : BitVec 5) (d : BitVec 5)
  /-- CX_CANCEL (R237). Asks CX to cancel the copy named by a held token, stopping it at a granule boundary or unqueuing it. -/
  | cxCancel (a : BitVec 5)
  /-- CX_WAIT (R156). Blocks until a token ends, writes its end code, releases it and acquires on completion. -/
  | cxWait (a : BitVec 5) (d : BitVec 5)
  /-- CX_TEST (R156). Reports a token's state without blocking, releasing and acquiring when it has ended. -/
  | cxTest (a : BitVec 5) (d : BitVec 5)
  /-- GX_GATHER (R155). Stoker pushes a gather command. -/
  | gxGather (a : BitVec 5)
  /-- GX_BAG (R155). Stoker pushes a bag-sum command. -/
  | gxBag (a : BitVec 5)
  /-- GX_SCADD (R155). Stoker pushes a scatter-add command. -/
  | gxScadd (a : BitVec 5)
  /-- GX_COUNT (R155). Stoker pushes a count command. -/
  | gxCount (a : BitVec 5)
  /-- FX_PASS (R155). Stoker pushes a message-pass command. -/
  | fxPass (a : BitVec 5)
  /-- FX_CFG (R155). Stoker pushes a Flue configuration command. -/
  | fxCfg (a : BitVec 5)
  /-- CL_ALLRED (R155). Stoker pushes an all-reduce collective. -/
  | clAllred (a : BitVec 5)
  /-- CL_REDSC (R155). Stoker pushes a reduce-scatter collective. -/
  | clRedsc (a : BitVec 5)
  /-- CL_ALLGAT (R155). Stoker pushes an all-gather collective. -/
  | clAllgat (a : BitVec 5)
  /-- CL_BCAST (R155). Stoker pushes a broadcast collective. -/
  | clBcast (a : BitVec 5)
  /-- CL_BARRIER (R249). Stoker pushes a barrier that enters all class queues and waits for older work at its scope. -/
  | clBarrier (t : BitVec 1) (s : BitVec 3)
  /-- RING_TAKE (R170). Blocks while FILLED is zero, then takes slot TAIL as an acquire and returns its offset. -/
  | ringTake (n : BitVec 5) (d : BitVec 5)
  /-- RING_GIVE (R170). Returns the slot the Stoker holds on a ring, incrementing FREE as a release. -/
  | ringGive (n : BitVec 5)
  /-- RING_STAT (R170). Reads a ring's counters, HEAD, TAIL, HELD and CFGERR. -/
  | ringStat (n : BitVec 5) (d : BitVec 5)
  /-- SK_BUFFMT_A (R171). Pushes a tag write that sets FMT and GEO of every ABUF granule in a range. -/
  | skBuffmtA (f : BitVec 5) (b : BitVec 5) (a : BitVec 5) (g : BitVec 5)
  /-- SK_BUFFMT_W (R171). Pushes a tag write that sets FMT and GEO of every WBUF granule in a range. -/
  | skBuffmtW (f : BitVec 5) (b : BitVec 5) (a : BitVec 5) (g : BitVec 5)
  /-- SK_FENCE (R106). Class fence that orders older before younger accesses of the masked classes at the named scope, cumulatively. -/
  | skFence (m : BitVec 1) (c : BitVec 3) (e : BitVec 5) (d : BitVec 5) (k : BitVec 5)
  /-- SK_MARK (R157). Pushes marker n into every masked engine queue and arms a rendezvous register. -/
  | skMark (c : BitVec 1) (e : BitVec 5) (a : BitVec 5) (k : BitVec 5)
  /-- SK_RDVWAIT (R158). Blocks until a rendezvous register has fired, then acquires. -/
  | skRdvwait (k : BitVec 5)
  /-- SK_RDVTEST (R158). Reports whether a rendezvous register has fired, acquiring when it has. -/
  | skRdvtest (k : BitVec 5) (d : BitVec 5)
  /-- SK_WFE (R159). Waits until an armed event is latched, clears and reports the events, and acquires. -/
  | skWfe (d : BitVec 5)
  /-- SK_SEV (R160). Sets the SEV latch bit of a team member. -/
  | skSev (m : BitVec 5)
  /-- SK_SEND (R160). Appends a value to a member's receive queue, blocking while it is full, and sets its MSG bit. -/
  | skSend (a : BitVec 5) (m : BitVec 5)
  /-- SK_RECV (R160). Blocks while the own receive queue is empty, then removes the oldest entry as an acquire. -/
  | skRecv (d : BitVec 5)
  /-- DQ_PUSH (R164). Pushes a work word at the bottom of the own deque as a release, or reports refusal. -/
  | dqPush (a : BitVec 5) (d : BitVec 5)
  /-- DQ_POP (R164). Removes the bottom word of the own deque, or returns 0 when empty. -/
  | dqPop (d : BitVec 5)
  /-- DQ_STEAL (R18). Takes the top word of the first non-empty deque of the same kernel in the cluster, in round-robin order. -/
  | dqSteal (d : BitVec 5)
  /-- DQ_EXPORT (R164). Enables or disables export of the own deque. -/
  | dqExport (n : BitVec 5)
  /-- FEED_POP (R165). Removes the oldest feed record into ABUF and acquires, or reports the queue empty. -/
  | feedPop (a : BitVec 5) (d : BitVec 5)
  /-- SK_BUDGET (R167). Returns the island bucket, sign-extended. -/
  | skBudget (d : BitVec 5)
  /-- AB_AMOADD (R163). ABUF atomic add returning the old value. -/
  | abAmoadd (w : BitVec 1) (b : BitVec 5) (a : BitVec 5) (d : BitVec 5)
  /-- AB_AMOSWAP (R163). ABUF atomic swap returning the old value. -/
  | abAmoswap (w : BitVec 1) (b : BitVec 5) (a : BitVec 5) (d : BitVec 5)
  /-- AB_AMOXOR (R163). ABUF atomic xor returning the old value. -/
  | abAmoxor (w : BitVec 1) (b : BitVec 5) (a : BitVec 5) (d : BitVec 5)
  /-- AB_AMOOR (R163). ABUF atomic or returning the old value. -/
  | abAmoor (w : BitVec 1) (b : BitVec 5) (a : BitVec 5) (d : BitVec 5)
  /-- AB_AMOAND (R163). ABUF atomic and returning the old value. -/
  | abAmoand (w : BitVec 1) (b : BitVec 5) (a : BitVec 5) (d : BitVec 5)
  /-- AB_AMOMIN (R163). ABUF atomic signed minimum returning the old value. -/
  | abAmomin (w : BitVec 1) (b : BitVec 5) (a : BitVec 5) (d : BitVec 5)
  /-- AB_AMOMAX (R163). ABUF atomic signed maximum returning the old value. -/
  | abAmomax (w : BitVec 1) (b : BitVec 5) (a : BitVec 5) (d : BitVec 5)
  /-- AB_AMOMINU (R163). ABUF atomic unsigned minimum returning the old value. -/
  | abAmominu (w : BitVec 1) (b : BitVec 5) (a : BitVec 5) (d : BitVec 5)
  /-- AB_AMOMAXU (R163). ABUF atomic unsigned maximum returning the old value. -/
  | abAmomaxu (w : BitVec 1) (b : BitVec 5) (a : BitVec 5) (d : BitVec 5)
  /-- SK_SVC (R173). Passes a 64-byte service request record to the service cores as a class-15 access. -/
  | skSvc (a : BitVec 5) (d : BitVec 5)
  /-- SK_LEND (R174). Lends the page holding an address to the service cores, making it read-only to the lender. -/
  | skLend (a : BitVec 5) (d : BitVec 5)
  /-- AB_LOAD (R162). Typed load of bytes from A space, including the team window, in the instruction's class. -/
  | abLoad (c : BitVec 4) (u : BitVec 1) (b : BitVec 5) (a : BitVec 5) (w : BitVec 2) (d : BitVec 5)
  /-- AB_STORE (R162). Typed store of bytes to A space, including the team window, in the instruction's class. -/
  | abStore (c : BitVec 4) (b : BitVec 5) (a : BitVec 5) (w : BitVec 2)
  /-- WB_LOAD (R162). Typed load of bytes from W space. -/
  | wbLoad (c : BitVec 4) (u : BitVec 1) (b : BitVec 5) (a : BitVec 5) (w : BitVec 2) (d : BitVec 5)
  /-- WB_STORE (R162). Typed store of bytes to W space. -/
  | wbStore (c : BitVec 4) (b : BitVec 5) (a : BitVec 5) (w : BitVec 2)
  /-- SK_CL_LOAD (R162). Class-tagged load from global memory through translation. -/
  | skClLoad (c : BitVec 4) (u : BitVec 1) (b : BitVec 5) (a : BitVec 5) (w : BitVec 2) (d : BitVec 5)
  /-- SK_CS_STORE (R162). Class-tagged store to global memory through translation. -/
  | skCsStore (c : BitVec 4) (b : BitVec 5) (a : BitVec 5) (w : BitVec 2)
  /-- SK_SHAPE (R172). Pushes a shape record into the MX queue. -/
  | skShape (a : BitVec 5) (s : BitVec 5)
  /-- SK_VIEW (R172). Pushes a binding of an operand view to a slot and a shape into the MX queue. -/
  | skView (h : BitVec 5) (s : BitVec 5) (v : BitVec 5)
  /-- SK_TGEOM (R220). Pushes a tile geometry change into the MX queue, acting as mx.tcfg. -/
  | skTgeom (a : BitVec 5) (c : BitVec 5)
  /-- SK_RFCL (R184). Pushes a register-file cluster control into the VX queue as a one-bundle run. -/
  | skRfcl (n : BitVec 5)
  /-- RING_CFG (R169). Configures a ring of this core as consumer, or refuses and sets CFGERR. -/
  | ringCfg (b : BitVec 5) (a : BitVec 5) (n : BitVec 5)
  /-- SK_VARIANT (R168). Registers an alternative entry of lower class as the next variant, or reports refusal. -/
  | skVariant (c : BitVec 5) (a : BitVec 5) (d : BitVec 5)
  /-- FENCE (R107). RISC-V FENCE or FENCE.TSO acts as a full class fence at yscope when both sets are nonempty. -/
  | fence (fm pred succ : BitVec 4) (rs1 rd : Reg)
  /-- RV64_LOAD (R99). Base RISC-V load in class ycls.CLS through translation and the caches. -/
  | rv64Load (k : LoadKind) (rd rs1 : Reg) (imm : BitVec 12)
  /-- RV64_STORE (R99). Base RISC-V store in class ycls.CLS through translation and the caches. -/
  | rv64Store (k : StoreKind) (rs2 rs1 : Reg) (imm : BitVec 12)
  /-- AMO (R108). RISC-V AMO performed at yscope scope, with aq and rl ordering. -/
  | amo (op : AmoOp) (dbl aq rl : Bool) (rd rs1 rs2 : Reg)
  /-- LR (R108). Load-reserved placing a reservation at yscope scope. -/
  | lr (dbl aq rl : Bool) (rd rs1 : Reg)
  /-- SC (R108). Store-conditional that fails when a write visible in the scope joined the order after the LR. -/
  | sc (dbl aq rl : Bool) (rd rs1 rs2 : Reg)
  /-- SFENCE_VMA (R310). Drops matching entries from every TLB of the partition and completes when all have dropped them. -/
  | sfenceVma (rs1 rs2 : Reg)
  /-- CSR_WRITE (R152). Write to a CSR without behaviour of its own, trapping on RO or privilege violations. -/
  | csrWrite (op : CsrOp) (uimm : Bool) (rd rs1 : Reg) (csr : BitVec 12)
  /-- YEVENT_WRITE (R153). Writes the arm mask and clears latch bits written with 1. -/
  | yeventWrite (op : CsrOp) (uimm : Bool) (rd rs1 : Reg)
  /-- YWM_WRITE (R175). Writes queue watermarks, leaving a field unchanged when above its depth. -/
  | ywmWrite (op : CsrOp) (uimm : Bool) (rd rs1 : Reg)
  /-- YMXST_ACCESS (R209). Reads or writes ymxst after every older MX command has retired. -/
  | ymxstAccess (op : CsrOp) (uimm : Bool) (rd rs1 : Reg)
  /-- YDXST_ACCESS (R230). Reads or writes ydxst after older CX, GX and FX commands retire; clearing UEZ clears FIRST, FAGENT and ZLINES. -/
  | ydxstAccess (op : CsrOp) (uimm : Bool) (rd rs1 : Reg)
  /-- PENDING_REGISTER_WRITE (R149). The result of an asynchronous instruction arrives, is written and clears the pending mark. -/
  | pendingRegisterWrite (k : Nat)
  /-- TRAP_ENTRY (R273). A precise trap from a task enters S-mode, or M-mode for exceptions raised in S-mode. -/
  | trapEntry (cause : Nat) (tval : Word) (info : BitVec 32)
  /-- VX_MOVE_SHORT (R178). A short move carries a port value to a destination port, triggering operation 0 at a trigger port. -/
  | vxMoveShort (e : BitVec 1) (d : BitVec 6) (s : BitVec 6) (r : BitVec 2)
  /-- VX_MOVE_LONG (R178). A long move with direction, stage, index and operation fields carries a port value to a destination. -/
  | vxMoveLong (e : BitVec 1) (d : BitVec 6) (s : BitVec 6) (r : BitVec 2) (g : BitVec 4) (i : BitVec 4) (o : BitVec 8)
  /-- VX_NOP (R129). The short move zero -> null does nothing. -/
  | vxNop (e : BitVec 1) (r : BitVec 2)
  /-- VX_RFCL (R184). Control word setting clusters 0 to n-1 in use and gating the others. -/
  | vxRfcl (r : BitVec 2) (g : BitVec 4) (i : BitVec 4) (n : BitVec 3)
  /-- VA_ADD (R188). ALU adds operand and trigger, rounded or wrapping or saturating by type. -/
  | vaAdd (e : BitVec 1) (d : BitVec 6) (s : BitVec 6) (r : BitVec 2) (g : BitVec 4) (i : BitVec 4) (t : BitVec 3) (m : BitVec 3)
  /-- VA_SUB (R188). ALU subtracts trigger from operand. -/
  | vaSub (e : BitVec 1) (d : BitVec 6) (s : BitVec 6) (r : BitVec 2) (g : BitVec 4) (i : BitVec 4) (t : BitVec 3) (m : BitVec 3)
  /-- VA_MUL (R188). ALU multiplies operand and trigger. -/
  | vaMul (e : BitVec 1) (d : BitVec 6) (s : BitVec 6) (r : BitVec 2) (g : BitVec 4) (i : BitVec 4) (t : BitVec 3) (m : BitVec 3)
  /-- VA_MIN (R188). ALU minimum of operand and trigger. -/
  | vaMin (e : BitVec 1) (d : BitVec 6) (s : BitVec 6) (r : BitVec 2) (g : BitVec 4) (i : BitVec 4) (t : BitVec 3)
  /-- VA_MAX (R188). ALU maximum of operand and trigger. -/
  | vaMax (e : BitVec 1) (d : BitVec 6) (s : BitVec 6) (r : BitVec 2) (g : BitVec 4) (i : BitVec 4) (t : BitVec 3)
  /-- VA_ABS (R188). ALU absolute value of the trigger. -/
  | vaAbs (e : BitVec 1) (d : BitVec 6) (s : BitVec 6) (r : BitVec 2) (g : BitVec 4) (i : BitVec 4) (t : BitVec 3)
  /-- VA_NEG (R188). ALU negation of the trigger. -/
  | vaNeg (e : BitVec 1) (d : BitVec 6) (s : BitVec 6) (r : BitVec 2) (g : BitVec 4) (i : BitVec 4) (t : BitVec 3)
  /-- VA_CMPEQ (R188). ALU compares operand and trigger for equality. -/
  | vaCmpeq (e : BitVec 1) (d : BitVec 6) (s : BitVec 6) (r : BitVec 2) (g : BitVec 4) (i : BitVec 4) (t : BitVec 3)
  /-- VA_CMPLT (R188). ALU compares operand less than trigger. -/
  | vaCmplt (e : BitVec 1) (d : BitVec 6) (s : BitVec 6) (r : BitVec 2) (g : BitVec 4) (i : BitVec 4) (t : BitVec 3)
  /-- VA_CMPLE (R188). ALU compares operand less than or equal to trigger. -/
  | vaCmple (e : BitVec 1) (d : BitVec 6) (s : BitVec 6) (r : BitVec 2) (g : BitVec 4) (i : BitVec 4) (t : BitVec 3)
  /-- VA_MOV (R188). ALU passes the trigger to its result. -/
  | vaMov (e : BitVec 1) (d : BitVec 6) (s : BitVec 6) (r : BitVec 2) (g : BitVec 4) (i : BitVec 4) (t : BitVec 3)
  /-- VA_AND (R188). ALU bitwise and. -/
  | vaAnd (e : BitVec 1) (d : BitVec 6) (s : BitVec 6) (r : BitVec 2) (g : BitVec 4) (i : BitVec 4)
  /-- VA_OR (R188). ALU bitwise or. -/
  | vaOr (e : BitVec 1) (d : BitVec 6) (s : BitVec 6) (r : BitVec 2) (g : BitVec 4) (i : BitVec 4)
  /-- VA_XOR (R188). ALU bitwise xor. -/
  | vaXor (e : BitVec 1) (d : BitVec 6) (s : BitVec 6) (r : BitVec 2) (g : BitVec 4) (i : BitVec 4)
  /-- VA_ANDN (R188). ALU operand and not trigger. -/
  | vaAndn (e : BitVec 1) (d : BitVec 6) (s : BitVec 6) (r : BitVec 2) (g : BitVec 4) (i : BitVec 4)
  /-- VA_SHL (R188). ALU shift left by trigger mod 32. -/
  | vaShl (e : BitVec 1) (d : BitVec 6) (s : BitVec 6) (r : BitVec 2) (g : BitVec 4) (i : BitVec 4)
  /-- VA_SHR (R188). ALU logical shift right by trigger mod 32. -/
  | vaShr (e : BitVec 1) (d : BitVec 6) (s : BitVec 6) (r : BitVec 2) (g : BitVec 4) (i : BitVec 4)
  /-- VA_SRA (R188). ALU arithmetic shift right by trigger mod 32. -/
  | vaSra (e : BitVec 1) (d : BitVec 6) (s : BitVec 6) (r : BitVec 2) (g : BitVec 4) (i : BitVec 4)
  /-- VA_ROTL (R188). ALU rotate left by trigger mod 32. -/
  | vaRotl (e : BitVec 1) (d : BitVec 6) (s : BitVec 6) (r : BitVec 2) (g : BitVec 4) (i : BitVec 4)
  /-- VA_POPC (R188). ALU population count of the trigger. -/
  | vaPopc (e : BitVec 1) (d : BitVec 6) (s : BitVec 6) (r : BitVec 2) (g : BitVec 4) (i : BitVec 4)
  /-- VA_CLZ (R188). ALU count of leading zeros of the trigger. -/
  | vaClz (e : BitVec 1) (d : BitVec 6) (s : BitVec 6) (r : BitVec 2) (g : BitVec 4) (i : BitVec 4)
  /-- VF_FMA (R189). Fused A×B+T rounded once. -/
  | vfFma (e : BitVec 1) (s : BitVec 6) (r : BitVec 2) (g : BitVec 4) (i : BitVec 4) (t : BitVec 3) (m : BitVec 3)
  /-- VF_FMS (R189). Fused A×B−T rounded once. -/
  | vfFms (e : BitVec 1) (s : BitVec 6) (r : BitVec 2) (g : BitVec 4) (i : BitVec 4) (t : BitVec 3) (m : BitVec 3)
  /-- VF_NFMA (R189). Fused −(A×B)+T rounded once. -/
  | vfNfma (e : BitVec 1) (s : BitVec 6) (r : BitVec 2) (g : BitVec 4) (i : BitVec 4) (t : BitVec 3) (m : BitVec 3)
  /-- VF_NFMS (R189). Fused −(A×B)−T rounded once. -/
  | vfNfms (e : BitVec 1) (s : BitVec 6) (r : BitVec 2) (g : BitVec 4) (i : BitVec 4) (t : BitVec 3) (m : BitVec 3)
  /-- VS_EXP2 (R190). Special function 2^x in FP32. -/
  | vsExp2 (e : BitVec 1) (s : BitVec 6) (r : BitVec 2) (g : BitVec 4) (i : BitVec 4)
  /-- VS_LOG2 (R190). Special function log2 x in FP32. -/
  | vsLog2 (e : BitVec 1) (s : BitVec 6) (r : BitVec 2) (g : BitVec 4) (i : BitVec 4)
  /-- VS_RECIP (R190). Special function 1/x in FP32. -/
  | vsRecip (e : BitVec 1) (s : BitVec 6) (r : BitVec 2) (g : BitVec 4) (i : BitVec 4)
  /-- VS_RSQRT (R190). Special function 1/sqrt x in FP32. -/
  | vsRsqrt (e : BitVec 1) (s : BitVec 6) (r : BitVec 2) (g : BitVec 4) (i : BitVec 4)
  /-- VS_SQRT (R190). Special function sqrt x in FP32. -/
  | vsSqrt (e : BitVec 1) (s : BitVec 6) (r : BitVec 2) (g : BitVec 4) (i : BitVec 4)
  /-- VS_TANH (R190). Special function tanh x in FP32. -/
  | vsTanh (e : BitVec 1) (s : BitVec 6) (r : BitVec 2) (g : BitVec 4) (i : BitVec 4)
  /-- VS_SIGMOID (R190). Special function sigmoid in FP32. -/
  | vsSigmoid (e : BitVec 1) (s : BitVec 6) (r : BitVec 2) (g : BitVec 4) (i : BitVec 4)
  /-- VS_SILU (R190). Special function SiLU in FP32. -/
  | vsSilu (e : BitVec 1) (s : BitVec 6) (r : BitVec 2) (g : BitVec 4) (i : BitVec 4)
  /-- VS_GELU (R190). Special function GELU-tanh in FP32. -/
  | vsGelu (e : BitVec 1) (s : BitVec 6) (r : BitVec 2) (g : BitVec 4) (i : BitVec 4)
  /-- VS_SIN (R190). Special function sin(2πx) in FP32. -/
  | vsSin (e : BitVec 1) (s : BitVec 6) (r : BitVec 2) (g : BitVec 4) (i : BitVec 4)
  /-- VS_COS (R190). Special function cos(2πx) in FP32. -/
  | vsCos (e : BitVec 1) (s : BitVec 6) (r : BitVec 2) (g : BitVec 4) (i : BitVec 4)
  /-- VC_CVT (R191). Converts the trigger's elements to the VCC target format and packs them. -/
  | vcCvt (e : BitVec 1) (s : BitVec 6) (r : BitVec 2) (g : BitVec 4) (i : BitVec 4) (t : BitVec 3) (m : BitVec 3) (n : BitVec 1)
  /-- VC_PACK (R192). Packs the trigger's elements into MX blocks with chosen E8M0 scales. -/
  | vcPack (e : BitVec 1) (s : BitVec 6) (r : BitVec 2) (g : BitVec 4) (i : BitVec 4) (t : BitVec 3) (m : BitVec 3) (n : BitVec 1)
  /-- VC_WVCC (R193). Writes VCC and VXST from the trigger and returns their old values. -/
  | vcWvcc (e : BitVec 1) (s : BitVec 6) (r : BitVec 2) (g : BitVec 4) (i : BitVec 4)
  /-- VC_WPHASE (R193). Writes the convert dither phase and returns the old phase. -/
  | vcWphase (e : BitVec 1) (s : BitVec 6) (r : BitVec 2) (g : BitVec 4) (i : BitVec 4)
  /-- LD_VEC (R194). Loads and decodes consecutive elements of one granule from the own ABUF. -/
  | ldVec (e : BitVec 1) (s : BitVec 6) (r : BitVec 2) (g : BitVec 4) (i : BitVec 4) (t : BitVec 3)
  /-- LD_GATHER (R194). Loads each lane from its own ABUF address. -/
  | ldGather (e : BitVec 1) (s : BitVec 6) (r : BitVec 2) (g : BitVec 4) (i : BitVec 4) (t : BitVec 3)
  /-- LD_BCAST (R194). Loads one element into every lane. -/
  | ldBcast (e : BitVec 1) (s : BitVec 6) (r : BitVec 2) (g : BitVec 4) (i : BitVec 4) (t : BitVec 3)
  /-- LD_RING (R196). Loads from a ring slot, taking slot TAIL first when none is held and returning it at its last byte. -/
  | ldRing (e : BitVec 1) (s : BitVec 6) (r : BitVec 2) (g : BitVec 4) (i : BitVec 4) (t : BitVec 3)
  /-- LD_RAW (R194). Loads 256 raw bytes regardless of tags. -/
  | ldRaw (e : BitVec 1) (s : BitVec 6) (r : BitVec 2) (g : BitVec 4) (i : BitVec 4)
  /-- ST_VEC (R197). Stores 256 bytes of the trigger at one ABUF address. -/
  | stVec (e : BitVec 1) (s : BitVec 6) (r : BitVec 2) (g : BitVec 4) (i : BitVec 4) (t : BitVec 3)
  /-- ST_SCATTER (R197). Stores each lane at its own ABUF address. -/
  | stScatter (e : BitVec 1) (s : BitVec 6) (r : BitVec 2) (g : BitVec 4) (i : BitVec 4) (t : BitVec 3)
  /-- ST_SCALAR (R197). Stores lane 0 at one ABUF address. -/
  | stScalar (e : BitVec 1) (s : BitVec 6) (r : BitVec 2) (g : BitVec 4) (i : BitVec 4) (t : BitVec 3)
  /-- SW_PUSH (R198). Appends the lanes whose condition is nonzero to the switch queue after 5 cycles. -/
  | swPush (e : BitVec 1) (s : BitVec 6) (r : BitVec 2) (g : BitVec 4) (i : BitVec 4) (t : BitVec 3)
  /-- SW_PUSHN (R198). Appends the lanes whose condition is zero to the switch queue. -/
  | swPushn (e : BitVec 1) (s : BitVec 6) (r : BitVec 2) (g : BitVec 4) (i : BitVec 4) (t : BitVec 3)
  /-- SW_DRAIN (R198). Pads the switch queue with zero lanes to a multiple of 64. -/
  | swDrain (e : BitVec 1) (s : BitVec 6) (r : BitVec 2) (g : BitVec 4) (i : BitVec 4) (t : BitVec 3)
  /-- LRD_SUM (R199). Reduces the 64 lanes to an exact sum rounded once or saturated. -/
  | lrdSum (e : BitVec 1) (s : BitVec 6) (r : BitVec 2) (g : BitVec 4) (i : BitVec 4) (t : BitVec 3) (m : BitVec 3)
  /-- LRD_MAX (R199). Reduces the lanes to their maximum. -/
  | lrdMax (e : BitVec 1) (s : BitVec 6) (r : BitVec 2) (g : BitVec 4) (i : BitVec 4) (t : BitVec 3)
  /-- LRD_MIN (R199). Reduces the lanes to their minimum. -/
  | lrdMin (e : BitVec 1) (s : BitVec 6) (r : BitVec 2) (g : BitVec 4) (i : BitVec 4) (t : BitVec 3)
  /-- MX_MMA (R216). Multiplies two operand views into an accumulator tile through CsaAdd, clearing it first under AD. -/
  | mxMma (c : BitVec 5) (a : BitVec 5) (b : BitVec 5) (n : BitVec 1) (d : BitVec 1) (h : BitVec 1) (s : BitVec 3) (l : BitVec 3)
  /-- MX_FILL (R212). Decodes element data from ABUF or WBUF into an operand slot and builds its sideband. -/
  | mxFill (s : BitVec 5) (w : BitVec 1) (t : BitVec 2) (g : BitVec 2) (p : BitVec 15)
  /-- MX_FILL_RING (R214). Fills an operand slot from slot TAIL of a ring of this core, taking and returning it. -/
  | mxFillRing (s : BitVec 5) (t : BitVec 2) (k : BitVec 3)
  /-- MX_CLAIM (R211). Moves a Free slot to Claimed. -/
  | mxClaim (s : BitVec 5)
  /-- MX_RELEASE (R211). Returns a slot to Free once older readers have retired. -/
  | mxRelease (s : BitVec 5)
  /-- MX_RELEASE_SHORT (R225). Short-word form of mx.release. -/
  | mxReleaseShort (s : BitVec 5)
  /-- MX_TANCH (R218). Sets a tile's anchor mode and, in fixed mode, rescales to a new anchor. -/
  | mxTanch (c : BitVec 5) (m : BitVec 1) (a : BitVec 10)
  /-- MX_TINIT (R219). Zeros every element of a tile's geometry and makes it valid. -/
  | mxTinit (c : BitVec 5)
  /-- MX_TCFG (R220). Sets a tile's geometry and invalidates it, setting CFGLOST when it was valid. -/
  | mxTcfg (c : BitVec 5) (r : BitVec 6) (k : BitVec 6)
  /-- MX_RESOLVE_MFILE (R221). Rounds a tile once and writes it to an M-file tile. -/
  | mxResolveMfile (c : BitVec 5) (f : BitVec 3) (m : BitVec 3) (n : BitVec 1) (t : BitVec 3)
  /-- MX_RESOLVE_ABUF (R221). Rounds a tile once and writes it to ABUF, tagging the granules. -/
  | mxResolveAbuf (c : BitVec 5) (f : BitVec 3) (m : BitVec 3) (n : BitVec 1) (g : BitVec 2) (p : BitVec 10)
  /-- MX_RESOLVE_SELF (R72). Rounds a tile to FP32 and writes it back into itself in canonical form. -/
  | mxResolveSelf (c : BitVec 5) (m : BitVec 3) (n : BitVec 1)
  /-- MX_TCMP (R222). Compares two tiles exactly and writes a row predicate into a VX predicate register. -/
  | mxTcmp (a : BitVec 5) (b : BitVec 5) (r : BitVec 3) (p : BitVec 3) (g : BitVec 2) (s : BitVec 7)
  /-- MX_TCMP_THRESHOLD (R222). Compares a tile against a decoded threshold row and writes a row predicate. -/
  | mxTcmpThreshold (a : BitVec 5) (r : BitVec 3) (p : BitVec 3) (g : BitVec 2) (s : BitVec 7)
  /-- MX_SPILL (R223). Writes a tile's elements in canonical raw form to ABUF and tags the granules CSA-raw. -/
  | mxSpill (c : BitVec 5) (g : BitVec 2) (s : BitVec 15)
  /-- MX_RELOAD (R223). Reads CSA-raw granules into a tile, making it valid and dirty. -/
  | mxReload (c : BitVec 5) (g : BitVec 2) (s : BitVec 15)
  /-- MX_MARK (R225). Records n and the ec in the Soot trace once every older MX command has retired. -/
  | mxMark (n : BitVec 12)
  /-- MX_GATE (R208). Gates the masked sub-arrays once older commands using them leave the array. -/
  | mxGate (m : BitVec 4)
  /-- SUBARRAY_IDLE_GATE (R208). A sub-array idle for 16 × GATEIDLE ec is gated. -/
  | subarrayIdleGate (q : BitVec 2)
  /-- CX_COMMAND_END (R238). A CX command retires with its writes visible at scope, or ends cancelled, and its token ends. -/
  | cxCommandEnd (k : Nat)
  /-- ENGINE_COMMAND_RETIRE (R88). An engine command retires its scoreboard ranges, letting waiting commands start in queue order. -/
  | engineCommandRetire (a : Agent) (k : Nat)
  /-- MARKER_RETIRE (R94). A marker retires when every older command of its queue has retired. -/
  | markerRetire (a : Agent)
  /-- FAULT_ACTION_RESTART (R313). ACTION 1 resumes the faulting command at its progress point. -/
  | faultActionRestart (a : Agent)
  /-- FAULT_ACTION_DISCARD (R313). ACTION 2 retires the faulting command with no further effect. -/
  | faultActionDiscard (a : Agent)
  /-- FAULT_ACTION_FREEZE (R313). ACTION 3 freezes the team in place. -/
  | faultActionFreeze (a : Agent)
  /-- CORRECTED_ERROR (R320). A corrected memory error is counted and may make its line or row lasting. -/
  | correctedError (sram : Bool) (line : BitVec 52) (a : Agent)
  /-- PLACEMENT (R298). A Trivet places a Ready or Suspended team on free cores of its cluster and writes the team map. -/
  | placement (team : Nat) (chosen : List Nat)
  /-- PREEMPTION_DECISION (R301). A Trivet chooses victim teams for an outranking newcomer with no free placement. -/
  | preemptionDecision (newcomer : Nat)
  /-- SAVE_COMPLETE (R303). A context save completes and the team becomes Suspended. -/
  | saveComplete (team : Nat)
  /-- RESUME (R306). A Suspended team is moved, refilled and restored on free cores before any member issues. -/
  | resume (team : Nat)
  /-- ISLAND_RAMP_COMPLETE (R346). A started island reaches on 2 µs after its start. -/
  | islandRampComplete (i : Nat)
  /-- DROOP (R347). Supply below 94 % makes the island's stretcher suppress every second edge. -/
  | droop (i : Nat)
  /-- DROOP_STRETCH_END (R347). Stretching ends after 16 edges with the supply above 97 %. -/
  | droopStretchEnd (i : Nat)
  /-- OVER_CURRENT (R347). Current above the island limit runs its clock at one edge in four while it lasts. -/
  | overCurrent (i : Nat)
  /-- REGULATOR_PHASE_FAILURE (R348). A phase fails, derating the island's cap and notifying the owning partition. -/
  | regulatorPhaseFailure (i : Nat) (phase : BitVec 2)
  /-- REGULATOR_FAILURE (R348). A whole regulator fails, the island goes dark and its teams are killed or frozen. -/
  | regulatorFailure (i : Nat)
  /-- SERVICE_COMPLETION (R173). A service writes the DONE doubleword at system scope and sets the requester's SVC event. -/
  | serviceCompletion (k : Nat) (err : Bool) (value : BitVec 48) (data : List Byte)
  /-- LENT_PAGE_RETURN (R174). The service returns a lent page, making it writable and latching SVC. -/
  | lentPageReturn (part : Nat) (page : BitVec 57)
  /-- HOST_ACCESS (R113). A host agent accesses device memory over CXL at system scope, or its own memory. -/
  | hostAccess (write : Bool) (path : HostPath) (stream : Bool) (pa : BitVec 52) (bytes : List Byte)
  /-- PEER_ACCESS (R113). A peer-box agent accesses device memory over the Chimney link at fabric scope. -/
  | peerAccess (write : Bool) (pa : BitVec 52) (bytes : List Byte)
  /-- CHIMNEY_FLIT (R355). A flit is received or sent on a port in collective transport, replayed on CRC failure, and folded into the digest. -/
  | chimneyFlit (port : BitVec 1) (tx crcFails : Bool) (head : BitVec 64) (body : List Byte)
  /-- CHIMNEY_PORT_DOWN (R337). A Chimney port goes down, raising MSI-X 10 and stopping fabric collectives that need it. -/
  | chimneyPortDown (port : BitVec 1)
  /-- INTERFACE_ERROR (R336). A trusted interface leaves RUN or its session fails; requests stop, writes drop and the partition is frozen. -/
  | interfaceError (tdi : BitVec 8)
  /-- SESSION_EXPIRY (R335). No heartbeat arrives within twice the period and the SPDM session expires. -/
  | sessionExpiry (tdi : BitVec 8)
  /-- STOP_INTERFACE (R336). The host's STOP_INTERFACE zeroes the partition's resources and returns the interface to CONFIG_UNLOCKED. -/
  | stopInterface (tdi : BitVec 8)
  /-- START_INTERFACE (R335). After a lock, START_INTERFACE returns the interface to RUN. -/
  | startInterface (tdi : BitVec 8)
  /-- RESET_RELEASE (R349). Reset is released and the device performs bring-up: boot ROM, image check, firmware, LP6, Chimney and host port. -/
  | resetRelease (image : FirmwareImage)
  /-- QUEUE_TAIL_WRITE (R321). A host write of QTAIL is read as an acquire and lets the command processor fetch packets. -/
  | queueTailWrite (p q : Nat) (v : BitVec 32)
  /-- QUEUE_ENABLE (R321). Writing QCTL.EN enables or disables a host queue. -/
  | queueEnable (p q : Nat) (v : Word)
  /-- QUEUE_SKIP (R321). SKIP discards the packet at HEAD of a stopped queue and resumes it. -/
  | queueSkip (p q : Nat)
  /-- NOP (R322). NOP packet completes at once. -/
  | packetNop (p q : Nat)
  /-- LAUNCH (R323). LAUNCH packet checks the launch, rewrites re-run TCBs and makes tasks Ready. -/
  | packetLaunch (p q : Nat)
  /-- FEED (R322). FEED packet appends records to a resident kernel's feed queue, holding its queue while room lacks. -/
  | packetFeed (p q : Nat)
  /-- FEED_APPEND (R16). When room appears, held feed records are appended in order and feed events set. -/
  | feedAppend (p q : Nat)
  /-- PRED (R326). PRED packet reads a doubleword as an acquire and runs one of its two arms. -/
  | packetPred (p q : Nat)
  /-- GRAPH (R327). GRAPH packet checks and executes an array of node packets on the Grate. -/
  | packetGraph (p q : Nat)
  /-- SIGNAL (R322). SIGNAL packet writes a value at system scope and optionally raises MSI-X. -/
  | packetSignal (p q : Nat)
  /-- INVAL (R322). INVAL packet marks specialisation-cache entries invalid. -/
  | packetInval (p q : Nat)
  /-- LOOP (R327). LOOP node runs its body up to a count of iterations. -/
  | packetLoop (p q : Nat)
  /-- LOOP_ITERATION (R327). The next iteration of a graph loop begins after every node of the previous one completes. -/
  | loopIteration (p q : Nat)
  /-- BREAK (R327). BREAK node ends the innermost loop once older nodes complete. -/
  | packetBreak (p q : Nat)
  /-- PLACEMENT_ORDER (R328). The Grate sends a Ready team's placement order to a Trivet, spending a send permit. -/
  | placementOrder (team : Nat)
  /-- PARTITION_CONFIG_WRITE (R279). Writes a partition's configuration, refusing conflicts and draining Running teams on STATE 2 to 1. -/
  | partitionConfigWrite (p : Nat) (off : Nat) (v : Word)
  /-- TLB_INVALIDATE (R310). A host TLBINV write drops matching TLB entries of the partition; GO reads 1 until done. -/
  | tlbInvalidate (p : Nat) (v : Word)
  /-- FREEZE_RESUME (R316). FZCTL resume restarts a team frozen in place or returns a checkpoint-frozen team to Suspended. -/
  | freezeResume (p : Nat) (tcb : BitVec 57)
  /-- FREEZE_KILL (R316). FZCTL kill kills a frozen team regardless of its restartable mark. -/
  | freezeKill (p : Nat) (tcb : BitVec 57)
  /-- HALT_REQUEST (R278). A write of CORECTL.HALT requests a halt at the next segment end. -/
  | haltRequest (c : Nat) (v : Word)
  /-- SHADOW_BANK_READ (R278). A read of SBDATA returns a bank doubleword and advances SBPTR. -/
  | shadowBankRead (c : Nat)
  /-- TIMETABLE_ENTRY_WRITE (R299). Writes a timetable entry, ignored with WERR for the current entry of a running core or overlapping ranges. -/
  | timetableEntryWrite (c : Nat) (off : Nat) (v : Word)
  /-- REGISTER_WRITE (R278). Write to a BAR 0 register without behaviour of its own. -/
  | registerWrite (off : Nat) (v : Word)
  /-- CONTRACT_COMMIT (R284). COMMIT stages the contract and island table for the next interval step. -/
  | contractCommit (v : Word)
  /-- ISLAND_ON (R346). ISLPWR command on queues the island for a staged switch-on. -/
  | islandOn (i : Nat)
  /-- ISLAND_OFF (R345). ISLPWR command off removes logic power, or is refused with PERR. -/
  | islandOff (i : Nat)
  /-- ISLAND_RETAINED_OFF (R345). ISLPWR command retained-off stops the clock holding all state, or is refused. -/
  | islandRetainedOff (i : Nat)
  /-- ERRCFG_WRITE (R319). Writes the error counting window and threshold, keeping invalid fields unchanged. -/
  | errcfgWrite (v : Word)
  /-- ERROR_INJECT_ARM (R319). Arming INJk makes every read of a line meet the injected error. -/
  | errorInjectArm (k : Nat) (v : Word)
  /-- RECOVERY_GO (R342). GO halts every core, verifies the staged image and reboots into it, or refuses it. -/
  | recoveryGo (image : FirmwareImage)
  /-- CHIMNEY_MODE_WRITE (R338). A change of MODE takes the port down and retrains it, clearing the digests. -/
  | chimneyModeWrite (port : BitVec 1) (v : Word)
  /-- DIGCLR (R338). Sets DIGRX and DIGTX to zero. -/
  | digclr (port : BitVec 1)
  /-- BREAKPOINT_STOP (R352). A named entry reaching its queue head, or a Stoker reaching a PC, stops the team. -/
  | breakpointStop (k : Nat)
  /-- LATENCY_INJECT_ARM (R352). Arming LATINJk delays every read of a physical page range without changing values. -/
  | latencyInjectArm (k : Nat) (v : Word)
  /-- OVER_CURRENT_END (R347). The island's current falls back to its limit and the one-edge-in-four clock ends. -/
  | overCurrentEnd (i : Nat)
  /-- CHIMNEY_PORT_UP (R338). Training of a Chimney port ends, and LSTATE becomes up or failed with UPLANES set, raising MSI-X 10. -/
  | chimneyPortUp (port : BitVec 1) (ok : Bool) (lanes : BitVec 4)
  /-- LOCK_INTERFACE (R335). The host's TDISP lock request moves a trusted interface from CONFIG_UNLOCKED to CONFIG_LOCKED. -/
  | lockInterface (tdi : BitVec 8)
  /-- KEY_EXCHANGE (R335). The SPDM key exchange establishes the interface's session, its IDE keys and its heartbeat period. -/
  | keyExchange (tdi : BitVec 8) (period : Nat)
  /-- HEARTBEAT (R335). A session heartbeat arrives and restarts the expiry interval of twice the period. -/
  | heartbeat (tdi : BitVec 8)
  /-- MEASUREMENT_REPORT_REQUEST (R340). The SPDM responder answers a measurement request with a report signed by Ed25519 and ML-DSA-65 that carries firmware, SVN, STEP and CGEN. -/
  | measurementReportRequest (tdi : BitVec 8)
  /-- PREHEATER_BUILD_COMPLETE (R261). A Preheater build ends: the residual is stored and pinned, its launch proceeds, and launches that waited on the same key hit. -/
  | preheaterBuildComplete (p q : Nat) (picks : List Nat)
  /-- RV64_BASE_INSTRUCTION (R121). The Stoker executes an RV64IMAFDC, Zba or Zbb computational, branch, jump or CSR-read instruction. -/
  | rv64Base (i : RvInstr)
  /-- TAG_WRITE (R171). The core's tag writer starts a queued sk.buffmt when the scoreboard allows and retires it once all tags are written. -/
  | tagWrite
  /-- SK_SEGEND (R166). Ends a segment: loads yseg from the segment table, restarts the watchdog and allows a switch or drain. -/
  | skSegend
  /-- SK_SEGEND_TASK (R166). Ends the segment and the task, stopping issue and moving the task to Retiring. -/
  | skSegendTask
  /-- FENCE_I (R161). Orders instruction fetch after every older store of this Stoker. -/
  | fenceI
  /-- WFI (R151). Completes at once as a no-op in U-mode and S-mode. -/
  | wfi
  /-- SRET (R176). Returns from S-mode, clearing SVC and QLACT and releasing a held late-segment trap. -/
  | sret
  /-- INTERRUPT_TAKE (R311). A pending enabled S-mode interrupt is taken in the order engine fault, throttle warning, standard. -/
  | interruptTake
  /-- QUEUE_LOW_ENTRY (R176). A retirement lowers an enabled queue to its watermark during service code, entering yqlvec at the next boundary. -/
  | queueLowEntry
  /-- LATE_SEGMENT_TRAP (R314). A segment's count reaches twice its declared cost and the trap is raised. -/
  | lateSegmentTrap
  /-- WATCHDOG_FREEZE (R314). A segment's count reaches four times its cost; the team is frozen by checkpoint and reported. -/
  | watchdogFreeze
  /-- VX_RUN_START (R185). VX starts the block of the run at its queue head, executing its iterations and stage predicates. -/
  | vxRunStart
  /-- VX_RESULT_LAND (R180). A triggered unit operation's result lands in its result register after its latency. -/
  | vxResultLand
  /-- VX_CLUSTER_WAKE (R184). A cluster entering use becomes awake 24 cycles after the control word. -/
  | vxClusterWake
  /-- MX_NOP (R225). Does nothing. -/
  | mxNop
  /-- MX_RUN_START (R224). MX starts the block of an mx.run, bounding its words by the run record's windows and slot masks. -/
  | mxRunStart
  /-- CX_COPY_START (R234). CX starts a copy or copy2, reading its record and moving bytes, setting tags of buffer granules. -/
  | cxCopyStart
  /-- CX_PEER_START (R234). CX starts a copy into a team member's ABUF through the team window. -/
  | cxPeerStart
  /-- CX_FILL_START (R234). CX starts a pattern fill of its destination. -/
  | cxFillStart
  /-- CX_RING_START (R235). CX takes slot HEAD of a ring when FREE > 0, writes it and increments FILLED as a release. -/
  | cxRingStart
  /-- CX_PRETR_START (R236). CX walks and loads the translations of up to 256 pages of a range. -/
  | cxPretrStart
  /-- CX_FLUSH_START (R236). CX writes back every line of a range holding data newer than its memory. -/
  | cxFlushStart
  /-- GX_GATHER_START (R241). GX copies the indexed table rows to the destination rows. -/
  | gxGatherStart
  /-- GX_BAG_START (R242). GX decodes indexed rows and adds them into CSA-raw bag elements. -/
  | gxBagStart
  /-- GX_SCADD_START (R242). GX decodes table rows and adds them into indexed CSA-raw target rows. -/
  | gxScaddStart
  /-- GX_COUNT_START (R243). GX increments an unsigned saturating counter for each index. -/
  | gxCountStart
  /-- FX_CFG_START (R244). FX sets OUTW and CONCAT from its record. -/
  | fxCfgStart
  /-- FX_PASS_START (R245). FX streams edges, applies the edge network on a borrowed tile and commits messages per vertex. -/
  | fxPassStart
  /-- CL_ALLRED_START (R248). CL joins an all-reduce of CSA-raw buffers, waiting for all participants. -/
  | clAllredStart
  /-- CL_REDSC_START (R248). CL joins a reduce-scatter of CSA-raw buffers. -/
  | clRedscStart
  /-- CL_ALLGAT_START (R248). CL joins an all-gather of byte buffers. -/
  | clAllgatStart
  /-- CL_BCAST_START (R248). CL joins a broadcast from the root rank. -/
  | clBcastStart
  /-- CL_BARRIER_START (R249). At the CL head the barrier waits for older engine work and Stoker writes to widen, then for all participants. -/
  | clBarrierStart
  /-- COLLECTIVE_COMPLETION (R250). A collective or barrier completes at a participant, releasing its held writes at fabric scope. -/
  | collectiveCompletion
  /-- TASK_RETIREMENT (R11). A Retiring task whose commands have retired writes its joule counter and decrements each successor as a release. -/
  | taskRetirement
  /-- INTERVAL_STEP (R286). Every 10 µs the Damper settles metering, returns deposits, grants budget, throttles and admits teams. -/
  | intervalStep
  /-- BREACH_CLEAR (R285). Clearing BREACH restores the full grant from the following step. -/
  | breachClear
  /-- FWCOMMIT (R341). Sets anti-rollback fuse bits up to the running image's SVN. -/
  | fwcommit
  /-- SOOT_STOP (R351). STOP halts every running team of PMASK at a consistent cut and records its heads. -/
  | sootStop
  /-- SAMPLE_RECORD (R353). Every 65,536 ec Soot writes a sample record of every head position. -/
  | sampleRecord
  /-- HOST_PORT_DOWN (R333). The host port link goes down, after which HOST accesses raise the translation fault. -/
  | hostPortDown
  deriving DecidableEq, Repr

end Sys2Proof
end

