-- ==== Sys2Proof/WellFormed.lean ====
section
/-! DEFINITION. The checks of an instruction's fields: the limits 07_encoding.md states for each word (R115 to R135), as
one Boolean predicate. A word whose fields break them is no instruction and meets the fate of R148. -/
namespace Sys2Proof

/-- The FMT and GEO combinations a granule tag may hold (03_numbers.md R52). -/
def tagOk (fmt : BitVec 5) (geo : BitVec 3) : Bool :=
  let f := fmt.toNat
  let g := geo.toNat
  if f = 0 || f = 1 || f = 2 || f = 3 || f = 10 || f = 13 then g = 0
  else if (4 ≤ f && f ≤ 9) then g ≤ 2
  else if f = 11 || f = 12 then 3 ≤ g && g ≤ 5
  else false

/-- Ports with R access (07_encoding.md R127). -/
def portReads (p : BitVec 6) : Bool :=
  let n := p.toNat
  n ≤ 7 || n = 10 || n = 13 || n = 17 || n = 19 || n = 21 || n = 24 || n = 29 || n = 31 || (32 ≤ n && n ≤ 51)

/-- Ports that are triggers (07_encoding.md R127). -/
def portTriggers (p : BitVec 6) : Bool :=
  let n := p.toNat
  n = 9 || n = 12 || n = 16 || n = 18 || n = 20 || n = 23 || n = 26 || n = 28 || n = 30

/-- Ports with W access (07_encoding.md R127). -/
def portWrites (p : BitVec 6) : Bool :=
  let n := p.toNat
  portTriggers p || n ≤ 8 || n = 11 || n = 14 || n = 15 || n = 22 || n = 25 || n = 27 || (32 ≤ n && n ≤ 47) || n = 63

/-- A port access outside R127 raises the reserved-port fault (R128). -/
def portsOk (d s : BitVec 6) : Bool := portWrites d && portReads s

/-- Rounding-mode codes 0 to 4 are assigned (03_numbers.md R55). -/
def rmOk (m : BitVec 3) : Bool := m.toNat ≤ 4

/-- The floating types of R130: fp32, bf16x2, fp16x2. -/
def tyFloat (t : BitVec 3) : Bool := t.toNat ≤ 2

/-- The integer types of R130: int32, int16x2, int8x4. -/
def tyInt (t : BitVec 3) : Bool := 3 ≤ t.toNat && t.toNat ≤ 5

/-- Destinations of an ALU word: va0.t and va1.t (R130). -/
def vaPort (d : BitVec 6) : Bool := d.toNat = 9 || d.toNat = 12

/-- add, sub and mul of va: a rounding mode for the floating types, 0 wrapping or 1 saturating for the others (R130). -/
def vaArithOk (d s : BitVec 6) (t m : BitVec 3) : Bool :=
  vaPort d && portReads s && ((tyFloat t && rmOk m) || (tyInt t && m.toNat ≤ 1))

/-- min to cmple of va (R130). -/
def vaSelOk (d s : BitVec 6) (t : BitVec 3) : Bool := vaPort d && portReads s && t.toNat ≤ 5

/-- The bit32 operations of va (R130). -/
def vaBitOk (d s : BitVec 6) : Bool := vaPort d && portReads s

/-- vf: floating types with a rounding mode, int32 with op[2:0] = 000 (R131). -/
def vfOk (s : BitVec 6) (t m : BitVec 3) : Bool :=
  portReads s && ((tyFloat t && rmOk m) || (t.toNat = 3 && m.toNat = 0))

/-- vc convert and pack (R132). -/
def vcOk (s : BitVec 6) (t m : BitVec 3) : Bool := portReads s && t.toNat ≤ 5 && rmOk m

/-- Lane types a load delivers (R132). -/
def ldOk (s : BitVec 6) (t : BitVec 3) : Bool :=
  portReads s && (t.toNat ≤ 3 || t.toNat = 6)

/-- st and sw take all seven types (R132). -/
def anyTyOk (s : BitVec 6) (t : BitVec 3) : Bool := portReads s && t.toNat ≤ 6

/-- lrd sum (R132). -/
def lrdSumOk (s : BitVec 6) (t m : BitVec 3) : Bool := portReads s && t.toNat ≤ 5 && rmOk m

/-- An accumulator tile number fits 0 to 7 (R135). -/
def accOk (c : BitVec 5) : Bool := c.toNat ≤ 7

/-- KSTART + KLEN at most 8 (R135). -/
def kRangeOk (s l : BitVec 3) : Bool := l.toNat = 0 || s.toNat + l.toNat ≤ 8

/-- A load form of custom-2: U = 1 on a 64-bit load is reserved (R119). -/
def loadFormOk (u : BitVec 1) (w : BitVec 2) : Bool := !(u.toNat = 1 && w.toNat = 3)

/-- The CSRs whose accesses are rows of their own. -/
def csrRow (csr : BitVec 12) : Bool :=
  csr.toNat = 0x802 || csr.toNat = 0x803 || csr.toNat = 0x804 || csr.toNat = 0x805

/-- A CSR instruction writes unless it sets or clears with x0 or a zero immediate (RISC-V Zicsr). -/
def csrWrites (op : CsrOp) (rs1 : Reg) : Bool := op = .rw || rs1 ≠ 0

/-- Rounding modes 5 and 6 of an RV64 floating-point word are reserved (RISC-V F); 7 is dynamic. -/
def fpRmOk (m : BitVec 3) : Bool := m.toNat ≠ 5 && m.toNat ≠ 6

/-- W shifts take a five-bit amount. -/
def shiftOk (op : ShiftOp) (sh : BitVec 6) : Bool :=
  match op with
  | .slliw | .srliw | .sraiw | .roriw => sh.toNat < 32
  | _ => true

/-- Limits of the RV64 base instructions. -/
def RvInstr.wf : RvInstr → Bool
  | .shift op _ _ sh => shiftOk op sh
  | .csrRead op _ _ csr => op ≠ .rw && !(csr.toNat = 0x804 || csr.toNat = 0x805)
  | .fpArith _ _ rm _ _ _ => fpRmOk rm
  | .fpSqrt _ rm _ _ => fpRmOk rm
  | .fpFma _ _ rm _ _ _ _ => fpRmOk rm
  | .fpToInt _ _ rm _ _ => fpRmOk rm
  | .intToFp _ _ rm _ _ => fpRmOk rm
  | .fpCvt _ rm _ _ => fpRmOk rm
  | _ => true

/-- The limits of every instruction's fields. Rows without limits of their own are well formed as they stand. -/
def Instr.wf : Instr → Bool
  | .mxMmaInline _ _ _ _ c => accOk c
  | .mxTinitInline c => accOk c
  | .clBarrier _ s => 1 ≤ s.toNat && s.toNat ≤ 3
  | .ringTake n _ => accOk n
  | .ringGive n => accOk n
  | .ringStat n _ => accOk n
  | .skBuffmtA f _ _ g => g.toNat ≤ 7 && tagOk f (g.setWidth 3)
  | .skBuffmtW f _ _ g => g.toNat ≤ 7 && tagOk f (g.setWidth 3)
  | .skFence _ c _ _ _ => c.toNat ≤ 4
  | .skMark c e _ k => accOk k && !(c.toNat = 0 && e.toNat = 0)
  | .skRdvwait k => accOk k
  | .skRdvtest k _ => accOk k
  | .dqExport n => n.toNat ≤ 1
  | .abLoad _ u _ _ w _ => loadFormOk u w
  | .wbLoad _ u _ _ w _ => loadFormOk u w
  | .skClLoad _ u _ _ w _ => loadFormOk u w
  | .skShape _ s => s.toNat ≤ 15
  | .skView h _ _ => h.toNat ≤ 15
  | .skTgeom _ c => accOk c
  | .skRfcl n => n.toNat ≤ 4
  | .ringCfg _ _ n => accOk n
  | .skVariant c _ _ => c.toNat ≤ 6
  | .csrWrite op _ _ rs1 csr => csrWrites op rs1 && !csrRow csr
  | .yeventWrite op _ _ rs1 => csrWrites op rs1
  | .ywmWrite op _ _ rs1 => csrWrites op rs1
  | .rv64Base i => i.wf
  | .vxMoveShort _ d s _ => portsOk d s && !(d.toNat = 63 && s.toNat = 50)
  | .vxMoveLong _ d s _ _ _ o => portsOk d s && !portTriggers d && o.toNat = 0
  | .vxRfcl _ _ _ n => n.toNat ≤ 4
  | .vaAdd _ d s _ _ _ t m => vaArithOk d s t m
  | .vaSub _ d s _ _ _ t m => vaArithOk d s t m
  | .vaMul _ d s _ _ _ t m => vaArithOk d s t m
  | .vaMin _ d s _ _ _ t => vaSelOk d s t
  | .vaMax _ d s _ _ _ t => vaSelOk d s t
  | .vaAbs _ d s _ _ _ t => vaSelOk d s t
  | .vaNeg _ d s _ _ _ t => vaSelOk d s t
  | .vaCmpeq _ d s _ _ _ t => vaSelOk d s t
  | .vaCmplt _ d s _ _ _ t => vaSelOk d s t
  | .vaCmple _ d s _ _ _ t => vaSelOk d s t
  | .vaMov _ d s _ _ _ t => vaPort d && portReads s && t.toNat ≤ 6
  | .vaAnd _ d s _ _ _ => vaBitOk d s
  | .vaOr _ d s _ _ _ => vaBitOk d s
  | .vaXor _ d s _ _ _ => vaBitOk d s
  | .vaAndn _ d s _ _ _ => vaBitOk d s
  | .vaShl _ d s _ _ _ => vaBitOk d s
  | .vaShr _ d s _ _ _ => vaBitOk d s
  | .vaSra _ d s _ _ _ => vaBitOk d s
  | .vaRotl _ d s _ _ _ => vaBitOk d s
  | .vaPopc _ d s _ _ _ => vaBitOk d s
  | .vaClz _ d s _ _ _ => vaBitOk d s
  | .vfFma _ s _ _ _ t m => vfOk s t m
  | .vfFms _ s _ _ _ t m => vfOk s t m
  | .vfNfma _ s _ _ _ t m => vfOk s t m
  | .vfNfms _ s _ _ _ t m => vfOk s t m
  | .vsExp2 _ s _ _ _ => portReads s
  | .vsLog2 _ s _ _ _ => portReads s
  | .vsRecip _ s _ _ _ => portReads s
  | .vsRsqrt _ s _ _ _ => portReads s
  | .vsSqrt _ s _ _ _ => portReads s
  | .vsTanh _ s _ _ _ => portReads s
  | .vsSigmoid _ s _ _ _ => portReads s
  | .vsSilu _ s _ _ _ => portReads s
  | .vsGelu _ s _ _ _ => portReads s
  | .vsSin _ s _ _ _ => portReads s
  | .vsCos _ s _ _ _ => portReads s
  | .vcCvt _ s _ _ _ t m _ => vcOk s t m
  | .vcPack _ s _ _ _ t m _ => vcOk s t m
  | .vcWvcc _ s _ _ _ => portReads s
  | .vcWphase _ s _ _ _ => portReads s
  | .ldVec _ s _ _ _ t => ldOk s t
  | .ldGather _ s _ _ _ t => ldOk s t
  | .ldBcast _ s _ _ _ t => ldOk s t
  | .ldRing _ s _ _ _ t => ldOk s t
  | .ldRaw _ s _ _ _ => portReads s
  | .stVec _ s _ _ _ t => anyTyOk s t
  | .stScatter _ s _ _ _ t => anyTyOk s t
  | .stScalar _ s _ _ _ t => anyTyOk s t
  | .swPush _ s _ _ _ t => anyTyOk s t
  | .swPushn _ s _ _ _ t => anyTyOk s t
  | .swDrain _ s _ _ _ t => anyTyOk s t
  | .lrdSum _ s _ _ _ t m => lrdSumOk s t m
  | .lrdMax _ s _ _ _ t => portReads s && t.toNat ≤ 5
  | .lrdMin _ s _ _ _ t => portReads s && t.toNat ≤ 5
  | .mxMma c _ _ _ _ _ s l => accOk c && kRangeOk s l
  | .mxTanch c _ _ => accOk c
  | .mxTinit c => accOk c
  | .mxTcfg c _ _ => accOk c
  | .mxResolveMfile c f m _ _ => accOk c && f.toNat ≤ 4 && rmOk m
  | .mxResolveAbuf c f m _ _ _ => accOk c && f.toNat ≤ 4 && rmOk m
  | .mxResolveSelf c m _ => accOk c && rmOk m
  | .mxTcmp a b r _ _ _ => accOk a && accOk b && r.toNat ≤ 5
  | .mxTcmpThreshold a r _ _ _ => accOk a && r.toNat ≤ 5
  | .mxSpill c _ _ => accOk c
  | .mxReload c _ _ => accOk c
  | _ => true

end Sys2Proof
end

