-- ==== Sys2Proof/Decode.lean ====
section
/-! DEFINITION. From words to instructions and back (07_encoding.md). The decoder is total: every word gives an
instruction or the name of its fate under R148. The encoder stands after it, written from the same tables. -/
namespace Sys2Proof

/-- Why a word is no instruction (07_encoding.md R148). -/
inductive DecodeErr where
  /-- A reserved custom cell or funct7 (R114, R116 to R120): illegal-instruction trap. -/
  | reservedCell
  /-- A zero field that is not zero, or an immediate above its limit (R115): illegal-instruction trap. -/
  | fieldRange
  /-- No instruction of RV64IMAFDC, Zicsr, Zifencei, Zba, Zbb (R121): illegal-instruction trap. -/
  | notRv64
  /-- A VX or MX word that is illegal (R128 to R135): illegal-word fault. -/
  | illegalWord
  /-- A VX port access outside R127 (R128): reserved-port fault. -/
  | reservedPort
  /-- Fewer bytes than the word takes. -/
  | truncated
  deriving DecidableEq, Repr

/-! ### The R-type layout (R115) -/

/-- A word from its six R-type fields. -/
def rtype (f7 : BitVec 7) (rs2 rs1 : Reg) (f3 : BitVec 3) (rd : Reg) (op : BitVec 7) : BitVec 32 :=
  f7 ++ rs2 ++ rs1 ++ f3 ++ rd ++ op

def fOp (w : BitVec 32) : BitVec 7 := w.extractLsb' 0 7
def fRd (w : BitVec 32) : Reg := w.extractLsb' 7 5
def fF3 (w : BitVec 32) : BitVec 3 := w.extractLsb' 12 3
def fRs1 (w : BitVec 32) : Reg := w.extractLsb' 15 5
def fRs2 (w : BitVec 32) : Reg := w.extractLsb' 20 5
def fF7 (w : BitVec 32) : BitVec 7 := w.extractLsb' 25 7

/-- The 12-bit immediate of an I-type word. -/
def fImmI (w : BitVec 32) : BitVec 12 := w.extractLsb' 20 12

/-- The 12-bit immediate of an S-type word. -/
def fImmS (w : BitVec 32) : BitVec 12 := fF7 w ++ fRd w

/-- The branch offset divided by two. -/
def fImmB (w : BitVec 32) : BitVec 12 :=
  w.extractLsb' 31 1 ++ w.extractLsb' 7 1 ++ w.extractLsb' 25 6 ++ w.extractLsb' 8 4

/-- The jump offset divided by two. -/
def fImmJ (w : BitVec 32) : BitVec 20 :=
  w.extractLsb' 31 1 ++ w.extractLsb' 12 8 ++ w.extractLsb' 20 1 ++ w.extractLsb' 21 10

/-- Accept an instruction whose fields are in their limits. -/
def checked (e : DecodeErr) (i : Instr) : Except DecodeErr Instr :=
  if i.wf then .ok i else .error e

/-- A register-shaped field that must hold 0 (R115). -/
def zeroed (fields : List Reg) (i : Instr) : Except DecodeErr Instr :=
  if fields.all (· = 0) then checked .fieldRange i else .error .fieldRange

/-! ### The custom opcodes (R114 to R120) -/

/-- custom-0, funct3 001: the MX push group (R117). -/
def decodeMxPush (f7 : BitVec 7) (rs2 rs1 rd : Reg) : Except DecodeErr Instr :=
  if f7 = 0x7D#7 then zeroed [rd] (.mxRun rs2 rs1)
  else if f7 = 0x7C#7 then zeroed [rd] (.mxPushw rs2 rs1)
  else
    let op : BitVec 5 := f7.extractLsb' 2 5
    let n : BitVec 1 := f7.extractLsb' 1 1
    let d : BitVec 1 := f7.extractLsb' 0 1
    if op = 0#5 then checked .fieldRange (.mxMmaInline n d rs2 rs1 rd)
    else if n = 0#1 && d = 0#1 then
      if op = 2#5 then zeroed [rs2, rs1] (.mxClaimInline rd)
      else if op = 3#5 then zeroed [rs2, rs1] (.mxReleaseInline rd)
      else if op = 5#5 then zeroed [rs2, rs1] (.mxTinitInline rd)
      else .error .reservedCell
    else .error .reservedCell

/-- custom-0 (R116). -/
def decodeCustom0 (w : BitVec 32) : Except DecodeErr Instr :=
  let f7 := fF7 w
  let rs2 := fRs2 w
  let rs1 := fRs1 w
  let rd := fRd w
  match (fF3 w).toNat, f7.toNat with
  | 0, 0x00 => zeroed [rd] (.vxRun rs2 rs1)
  | 1, _ => decodeMxPush f7 rs2 rs1 rd
  | 2, 0x00 => zeroed [rs2] (.cxCopy rs1 rd)
  | 2, 0x01 => zeroed [rs2] (.cxCopy2 rs1 rd)
  | 2, 0x02 => zeroed [rs2] (.cxPeer rs1 rd)
  | 2, 0x03 => zeroed [rs2] (.cxFill rs1 rd)
  | 2, 0x04 => zeroed [rs2] (.cxRing rs1 rd)
  | 2, 0x05 => zeroed [rs2] (.cxPretr rs1 rd)
  | 2, 0x06 => zeroed [rs2, rd] (.cxCancel rs1)
  | 2, 0x07 => zeroed [rs2] (.cxFlush rs1 rd)
  | 2, 0x08 => zeroed [rs2] (.cxWait rs1 rd)
  | 2, 0x09 => zeroed [rs2] (.cxTest rs1 rd)
  | 3, 0x00 => zeroed [rs2, rd] (.gxGather rs1)
  | 3, 0x01 => zeroed [rs2, rd] (.gxBag rs1)
  | 3, 0x02 => zeroed [rs2, rd] (.gxScadd rs1)
  | 3, 0x03 => zeroed [rs2, rd] (.gxCount rs1)
  | 4, 0x00 => zeroed [rs2, rd] (.fxPass rs1)
  | 4, 0x01 => zeroed [rs2, rd] (.fxCfg rs1)
  | 5, 0x00 => zeroed [rs2, rd] (.clAllred rs1)
  | 5, 0x01 => zeroed [rs2, rd] (.clRedsc rs1)
  | 5, 0x02 => zeroed [rs2, rd] (.clAllgat rs1)
  | 5, 0x03 => zeroed [rs2, rd] (.clBcast rs1)
  | 5, 0x04 =>
    if rs2.extractLsb' 4 1 = 0#1 then zeroed [rs1, rd] (.clBarrier (rs2.extractLsb' 3 1) (rs2.extractLsb' 0 3))
    else .error .fieldRange
  | 6, 0x00 => zeroed [rs2] (.ringTake rs1 rd)
  | 6, 0x01 => zeroed [rs2, rd] (.ringGive rs1)
  | 6, 0x02 => zeroed [rs2] (.ringStat rs1 rd)
  | 6, _ =>
    if f7.extractLsb' 5 2 = 2#2 then checked .fieldRange (.skBuffmtA (f7.extractLsb' 0 5) rs2 rs1 rd)
    else if f7.extractLsb' 5 2 = 3#2 then checked .fieldRange (.skBuffmtW (f7.extractLsb' 0 5) rs2 rs1 rd)
    else .error .reservedCell
  | _, _ => .error .reservedCell

/-- The nine ABUF atomics (R118): AMO code, then 0, then the width bit. -/
def decodeAbAmo (f7 : BitVec 7) (b a d : Reg) : Except DecodeErr Instr :=
  let w : BitVec 1 := f7.extractLsb' 0 1
  if f7.extractLsb' 1 1 = 0#1 then
    match (f7.extractLsb' 2 5).toNat with
    | 0b00000 => .ok (.abAmoadd w b a d)
    | 0b00001 => .ok (.abAmoswap w b a d)
    | 0b00100 => .ok (.abAmoxor w b a d)
    | 0b01000 => .ok (.abAmoor w b a d)
    | 0b01100 => .ok (.abAmoand w b a d)
    | 0b10000 => .ok (.abAmomin w b a d)
    | 0b10100 => .ok (.abAmomax w b a d)
    | 0b11000 => .ok (.abAmominu w b a d)
    | 0b11100 => .ok (.abAmomaxu w b a d)
    | _ => .error .reservedCell
  else .error .reservedCell

/-- custom-1 (R106, R118). -/
def decodeCustom1 (w : BitVec 32) : Except DecodeErr Instr :=
  let f7 := fF7 w
  let rs2 := fRs2 w
  let rs1 := fRs1 w
  let rd := fRd w
  match (fF3 w).toNat, f7.toNat with
  | 0, _ =>
    if f7.extractLsb' 4 3 = 0#3 then checked .fieldRange (.skFence (f7.extractLsb' 3 1) (f7.extractLsb' 0 3) rs2 rs1 rd)
    else if f7.extractLsb' 1 6 = 0b001000#6 then checked .fieldRange (.skMark (f7.extractLsb' 0 1) rs2 rs1 rd)
    else .error .reservedCell
  | 1, 0x00 => zeroed [rs2, rd] (.skRdvwait rs1)
  | 1, 0x01 => zeroed [rs2] (.skRdvtest rs1 rd)
  | 1, 0x02 => zeroed [rs2, rs1] (.skWfe rd)
  | 1, 0x03 => zeroed [rs2, rd] (.skSev rs1)
  | 1, 0x04 => zeroed [rs2] (.skSend rs1 rd)
  | 1, 0x05 => zeroed [rs2, rs1] (.skRecv rd)
  | 2, 0x00 => zeroed [rs2] (.dqPush rs1 rd)
  | 2, 0x01 => zeroed [rs2, rs1] (.dqPop rd)
  | 2, 0x02 => zeroed [rs2, rs1] (.dqSteal rd)
  | 2, 0x03 => zeroed [rs2, rd] (.dqExport rs1)
  | 2, 0x04 => zeroed [rs2] (.feedPop rs1 rd)
  | 3, 0x00 =>
    if rs1 = 0#5 then zeroed [rs2, rd] .skSegend
    else if rs1 = 1#5 then zeroed [rs2, rd] .skSegendTask
    else .error .fieldRange
  | 3, 0x01 => zeroed [rs2, rs1] (.skBudget rd)
  | 4, _ => decodeAbAmo f7 rs2 rs1 rd
  | 5, 0x00 => zeroed [rs2] (.skSvc rs1 rd)
  | 5, 0x01 => zeroed [rs2] (.skLend rs1 rd)
  | _, _ => .error .reservedCell

/-- custom-2: typed-buffer and class-tagged accesses (R119). -/
def decodeCustom2 (w : BitVec 32) : Except DecodeErr Instr :=
  let f7 := fF7 w
  let rs2 := fRs2 w
  let rs1 := fRs1 w
  let rd := fRd w
  let c : BitVec 4 := f7.extractLsb' 1 4
  let u : BitVec 1 := f7.extractLsb' 0 1
  let wd : BitVec 2 := (fF3 w).extractLsb' 0 2
  if (fF3 w).extractLsb' 2 1 = 0#1 then
    match (f7.extractLsb' 5 2).toNat with
    | 0 => checked .reservedCell (.abLoad c u rs2 rs1 wd rd)
    | 1 => checked .reservedCell (.wbLoad c u rs2 rs1 wd rd)
    | 2 => checked .reservedCell (.skClLoad c u rs2 rs1 wd rd)
    | _ => .error .reservedCell
  else if u = 0#1 then
    match (f7.extractLsb' 5 2).toNat with
    | 0 => zeroed [rd] (.abStore c rs2 rs1 wd)
    | 1 => zeroed [rd] (.wbStore c rs2 rs1 wd)
    | 2 => zeroed [rd] (.skCsStore c rs2 rs1 wd)
    | _ => .error .reservedCell
  else .error .fieldRange

/-- custom-3: configuration (R120). -/
def decodeCustom3 (w : BitVec 32) : Except DecodeErr Instr :=
  let rs2 := fRs2 w
  let rs1 := fRs1 w
  let rd := fRd w
  if fF7 w = 0#7 then
    match (fF3 w).toNat with
    | 0 => zeroed [rs2] (.skShape rs1 rd)
    | 1 => checked .fieldRange (.skView rs2 rs1 rd)
    | 2 => zeroed [rs2] (.skTgeom rs1 rd)
    | 3 => zeroed [rs2, rd] (.skRfcl rs1)
    | 4 => checked .fieldRange (.ringCfg rs2 rs1 rd)
    | 5 => checked .fieldRange (.skVariant rs2 rs1 rd)
    | _ => .error .reservedCell
  else .error .reservedCell

/-! ### RV64 (R121) -/

/-- Encoding of a register-register operation: whether it is OP-32, funct7, funct3. -/
def AluOp.enc : AluOp → Bool × BitVec 7 × BitVec 3
  | .add => (false, 0x00#7, 0#3) | .sub => (false, 0x20#7, 0#3) | .sll => (false, 0x00#7, 1#3)
  | .slt => (false, 0x00#7, 2#3) | .sltu => (false, 0x00#7, 3#3) | .xor => (false, 0x00#7, 4#3)
  | .srl => (false, 0x00#7, 5#3) | .sra => (false, 0x20#7, 5#3) | .or => (false, 0x00#7, 6#3)
  | .and => (false, 0x00#7, 7#3) | .mul => (false, 0x01#7, 0#3) | .mulh => (false, 0x01#7, 1#3)
  | .mulhsu => (false, 0x01#7, 2#3) | .mulhu => (false, 0x01#7, 3#3) | .div => (false, 0x01#7, 4#3)
  | .divu => (false, 0x01#7, 5#3) | .rem => (false, 0x01#7, 6#3) | .remu => (false, 0x01#7, 7#3)
  | .sh1add => (false, 0x10#7, 2#3) | .sh2add => (false, 0x10#7, 4#3) | .sh3add => (false, 0x10#7, 6#3)
  | .andn => (false, 0x20#7, 7#3) | .orn => (false, 0x20#7, 6#3) | .xnor => (false, 0x20#7, 4#3)
  | .max => (false, 0x05#7, 6#3) | .maxu => (false, 0x05#7, 7#3) | .min => (false, 0x05#7, 4#3)
  | .minu => (false, 0x05#7, 5#3) | .rol => (false, 0x30#7, 1#3) | .ror => (false, 0x30#7, 5#3)
  | .addw => (true, 0x00#7, 0#3) | .subw => (true, 0x20#7, 0#3) | .sllw => (true, 0x00#7, 1#3)
  | .srlw => (true, 0x00#7, 5#3) | .sraw => (true, 0x20#7, 5#3) | .mulw => (true, 0x01#7, 0#3)
  | .divw => (true, 0x01#7, 4#3) | .divuw => (true, 0x01#7, 5#3) | .remw => (true, 0x01#7, 6#3)
  | .remuw => (true, 0x01#7, 7#3) | .addUw => (true, 0x04#7, 0#3) | .sh1addUw => (true, 0x10#7, 2#3)
  | .sh2addUw => (true, 0x10#7, 4#3) | .sh3addUw => (true, 0x10#7, 6#3) | .rolw => (true, 0x30#7, 1#3)
  | .rorw => (true, 0x30#7, 5#3)

def AluOp.all : List AluOp :=
  [.add, .sub, .sll, .slt, .sltu, .xor, .srl, .sra, .or, .and, .mul, .mulh, .mulhsu, .mulhu, .div, .divu, .rem, .remu,
   .sh1add, .sh2add, .sh3add, .andn, .orn, .xnor, .max, .maxu, .min, .minu, .rol, .ror] ++
  [.addw, .subw, .sllw, .srlw, .sraw, .mulw, .divw, .divuw, .remw, .remuw, .addUw, .sh1addUw, .sh2addUw, .sh3addUw,
   .rolw, .rorw]

/-- The operation an encoding names. -/
def AluOp.ofEnc (k : Bool × BitVec 7 × BitVec 3) : Option AluOp := AluOp.all.find? (fun op => op.enc = k)

/-- Encoding of an immediate operation: whether it is OP-IMM-32, funct3. -/
def ImmOp.enc : ImmOp → Bool × BitVec 3
  | .addi => (false, 0#3) | .slti => (false, 2#3) | .sltiu => (false, 3#3) | .xori => (false, 4#3)
  | .ori => (false, 6#3) | .andi => (false, 7#3) | .addiw => (true, 0#3)

def ImmOp.all : List ImmOp := [.addi, .slti, .sltiu, .xori, .ori, .andi, .addiw]

def ImmOp.ofEnc (k : Bool × BitVec 3) : Option ImmOp := ImmOp.all.find? (fun op => op.enc = k)

/-- Encoding of a shift: whether it is OP-IMM-32, the six bits above the amount, funct3. -/
def ShiftOp.enc : ShiftOp → Bool × BitVec 6 × BitVec 3
  | .slli => (false, 0x00#6, 1#3) | .srli => (false, 0x00#6, 5#3) | .srai => (false, 0x10#6, 5#3)
  | .rori => (false, 0x18#6, 5#3) | .slliUw => (true, 0x02#6, 1#3) | .slliw => (true, 0x00#6, 1#3)
  | .srliw => (true, 0x00#6, 5#3) | .sraiw => (true, 0x10#6, 5#3) | .roriw => (true, 0x18#6, 5#3)

def ShiftOp.all : List ShiftOp := [.slli, .srli, .srai, .rori, .slliUw, .slliw, .srliw, .sraiw, .roriw]

def ShiftOp.ofEnc (k : Bool × BitVec 6 × BitVec 3) : Option ShiftOp := ShiftOp.all.find? (fun op => op.enc = k)

/-- Encoding of a one-operand operation: opcode, the twelve bits above rs1, funct3. -/
def UnOp.enc : UnOp → BitVec 7 × BitVec 12 × BitVec 3
  | .clz => (0x13#7, 0x600#12, 1#3) | .ctz => (0x13#7, 0x601#12, 1#3) | .cpop => (0x13#7, 0x602#12, 1#3)
  | .sextB => (0x13#7, 0x604#12, 1#3) | .sextH => (0x13#7, 0x605#12, 1#3) | .orcB => (0x13#7, 0x287#12, 5#3)
  | .rev8 => (0x13#7, 0x6B8#12, 5#3) | .clzw => (0x1B#7, 0x600#12, 1#3) | .ctzw => (0x1B#7, 0x601#12, 1#3)
  | .cpopw => (0x1B#7, 0x602#12, 1#3) | .zextH => (0x3B#7, 0x080#12, 4#3)

def UnOp.all : List UnOp := [.clz, .ctz, .cpop, .clzw, .ctzw, .cpopw, .sextB, .sextH, .zextH, .orcB, .rev8]

def UnOp.ofEnc (k : BitVec 7 × BitVec 12 × BitVec 3) : Option UnOp := UnOp.all.find? (fun op => op.enc = k)

/-- AMO codes, in RISC-V and in R118 alike. -/
def AmoOp.code : AmoOp → BitVec 5
  | .add => 0b00000#5 | .swap => 0b00001#5 | .xor => 0b00100#5 | .or => 0b01000#5 | .and => 0b01100#5
  | .min => 0b10000#5 | .max => 0b10100#5 | .minu => 0b11000#5 | .maxu => 0b11100#5

def AmoOp.all : List AmoOp := [.add, .swap, .xor, .or, .and, .min, .max, .minu, .maxu]

def AmoOp.ofCode (c : BitVec 5) : Option AmoOp := AmoOp.all.find? (fun op => op.code = c)

def BrCond.code : BrCond → BitVec 3
  | .eq => 0#3 | .ne => 1#3 | .lt => 4#3 | .ge => 5#3 | .ltu => 6#3 | .geu => 7#3

def BrCond.all : List BrCond := [.eq, .ne, .lt, .ge, .ltu, .geu]

def BrCond.ofCode (c : BitVec 3) : Option BrCond := BrCond.all.find? (fun op => op.code = c)

/-- Load forms: whether the destination is an f register, funct3. -/
def LoadKind.enc : LoadKind → Bool × BitVec 3
  | .lb => (false, 0#3) | .lh => (false, 1#3) | .lw => (false, 2#3) | .ld => (false, 3#3) | .lbu => (false, 4#3)
  | .lhu => (false, 5#3) | .lwu => (false, 6#3) | .flw => (true, 2#3) | .fld => (true, 3#3)

def LoadKind.all : List LoadKind := [.lb, .lh, .lw, .ld, .lbu, .lhu, .lwu, .flw, .fld]

def LoadKind.ofEnc (k : Bool × BitVec 3) : Option LoadKind := LoadKind.all.find? (fun op => op.enc = k)

def StoreKind.enc : StoreKind → Bool × BitVec 3
  | .sb => (false, 0#3) | .sh => (false, 1#3) | .sw => (false, 2#3) | .sd => (false, 3#3)
  | .fsw => (true, 2#3) | .fsd => (true, 3#3)

def StoreKind.all : List StoreKind := [.sb, .sh, .sw, .sd, .fsw, .fsd]

def StoreKind.ofEnc (k : Bool × BitVec 3) : Option StoreKind := StoreKind.all.find? (fun op => op.enc = k)

def FpArith.code : FpArith → BitVec 5
  | .fadd => 0#5 | .fsub => 1#5 | .fmul => 2#5 | .fdiv => 3#5

def FpFma.op : FpFma → BitVec 7
  | .fmadd => 0x43#7 | .fmsub => 0x47#7 | .fnmsub => 0x4B#7 | .fnmadd => 0x4F#7

/-- funct5 and funct3 of the selecting operations. -/
def FpSel.enc : FpSel → BitVec 5 × BitVec 3
  | .fsgnj => (4#5, 0#3) | .fsgnjn => (4#5, 1#3) | .fsgnjx => (4#5, 2#3) | .fmin => (5#5, 0#3) | .fmax => (5#5, 1#3)

def FpSel.all : List FpSel := [.fsgnj, .fsgnjn, .fsgnjx, .fmin, .fmax]

def FpSel.ofEnc (k : BitVec 5 × BitVec 3) : Option FpSel := FpSel.all.find? (fun op => op.enc = k)

def FpCmp.code : FpCmp → BitVec 3
  | .fle => 0#3 | .flt => 1#3 | .feq => 2#3

def FpCmp.all : List FpCmp := [.feq, .flt, .fle]

def FpCmp.ofCode (c : BitVec 3) : Option FpCmp := FpCmp.all.find? (fun op => op.code = c)

def IntTy.code : IntTy → Reg
  | .w => 0#5 | .wu => 1#5 | .l => 2#5 | .lu => 3#5

def IntTy.all : List IntTy := [.w, .wu, .l, .lu]

def IntTy.ofCode (c : Reg) : Option IntTy := IntTy.all.find? (fun op => op.code = c)

/-- funct3 of a CSR instruction: the function, and whether the operand is an immediate. -/
def csrFunct3 (op : CsrOp) (uimm : Bool) : BitVec 3 :=
  match op, uimm with
  | .rw, false => 1#3 | .rs, false => 2#3 | .rc, false => 3#3
  | .rw, true => 5#3 | .rs, true => 6#3 | .rc, true => 7#3

/-- A CSR instruction is the row its CSR and its effect name (R152, R153, R175, R209, R230). -/
def csrInstr (op : CsrOp) (uimm : Bool) (rd rs1 : Reg) (csr : BitVec 12) : Instr :=
  if csr = 0x804#12 then .ymxstAccess op uimm rd rs1
  else if csr = 0x805#12 then .ydxstAccess op uimm rd rs1
  else if csrWrites op rs1 then
    if csr = 0x802#12 then .yeventWrite op uimm rd rs1
    else if csr = 0x803#12 then .ywmWrite op uimm rd rs1
    else .csrWrite op uimm rd rs1 csr
  else .rv64Base (.csrRead op uimm rd csr)

/-- Opcode SYSTEM. -/
def decodeSystem (w : BitVec 32) : Except DecodeErr Instr :=
  match (fF3 w).toNat with
  | 0 =>
    if w = 0x00000073#32 then .ok (.rv64Base .ecall)
    else if w = 0x00100073#32 then .ok (.rv64Base .ebreak)
    else if w = 0x10200073#32 then .ok .sret
    else if w = 0x30200073#32 then .ok (.rv64Base .mret)
    else if w = 0x10500073#32 then .ok .wfi
    else if fF7 w = 0x09#7 && fRd w = 0#5 then .ok (.sfenceVma (fRs1 w) (fRs2 w))
    else .error .notRv64
  | 1 => .ok (csrInstr .rw false (fRd w) (fRs1 w) (fImmI w))
  | 2 => .ok (csrInstr .rs false (fRd w) (fRs1 w) (fImmI w))
  | 3 => .ok (csrInstr .rc false (fRd w) (fRs1 w) (fImmI w))
  | 5 => .ok (csrInstr .rw true (fRd w) (fRs1 w) (fImmI w))
  | 6 => .ok (csrInstr .rs true (fRd w) (fRs1 w) (fImmI w))
  | 7 => .ok (csrInstr .rc true (fRd w) (fRs1 w) (fImmI w))
  | _ => .error .notRv64

/-- Opcode OP-FP. -/
def decodeFp (w : BitVec 32) : Except DecodeErr Instr :=
  let f5 : BitVec 5 := w.extractLsb' 27 5
  let rm := fF3 w
  let rd := fRd w
  let rs1 := fRs1 w
  let rs2 := fRs2 w
  if w.extractLsb' 26 1 = 0#1 then
    let dbl : Bool := w.extractLsb' 25 1 = 1#1
    let ok (i : RvInstr) : Except DecodeErr Instr := checked .notRv64 (.rv64Base i)
    match f5.toNat with
    | 0 => ok (.fpArith .fadd dbl rm rd rs1 rs2)
    | 1 => ok (.fpArith .fsub dbl rm rd rs1 rs2)
    | 2 => ok (.fpArith .fmul dbl rm rd rs1 rs2)
    | 3 => ok (.fpArith .fdiv dbl rm rd rs1 rs2)
    | 11 => if rs2 = 0#5 then ok (.fpSqrt dbl rm rd rs1) else .error .notRv64
    | 8 => if rs2 = (if dbl then 0#5 else 1#5) then ok (.fpCvt dbl rm rd rs1) else .error .notRv64
    | 20 =>
      match FpCmp.ofCode rm with
      | some op => ok (.fpCmp op dbl rd rs1 rs2)
      | none => .error .notRv64
    | 24 =>
      match IntTy.ofCode rs2 with
      | some ty => ok (.fpToInt ty dbl rm rd rs1)
      | none => .error .notRv64
    | 26 =>
      match IntTy.ofCode rs2 with
      | some ty => ok (.intToFp ty dbl rm rd rs1)
      | none => .error .notRv64
    | 28 =>
      if rs2 = 0#5 && rm = 0#3 then ok (.fpMvToInt dbl rd rs1)
      else if rs2 = 0#5 && rm = 1#3 then ok (.fpClass dbl rd rs1)
      else .error .notRv64
    | 30 => if rs2 = 0#5 && rm = 0#3 then ok (.intMvToFp dbl rd rs1) else .error .notRv64
    | _ =>
      match FpSel.ofEnc (f5, rm) with
      | some op => ok (.fpSel op dbl rd rs1 rs2)
      | none => .error .notRv64
  else .error .notRv64

/-- The four fused opcodes. -/
def decodeFma (op : FpFma) (w : BitVec 32) : Except DecodeErr Instr :=
  if w.extractLsb' 26 1 = 0#1 then
    checked .notRv64
      (.rv64Base (.fpFma op (w.extractLsb' 25 1 = 1#1) (fF3 w) (fRd w) (fRs1 w) (fRs2 w) (w.extractLsb' 27 5)))
  else .error .notRv64

/-- Opcode AMO. -/
def decodeAmo (w : BitVec 32) : Except DecodeErr Instr :=
  let f5 : BitVec 5 := w.extractLsb' 27 5
  let aq : Bool := w.extractLsb' 26 1 = 1#1
  let rl : Bool := w.extractLsb' 25 1 = 1#1
  if fF3 w = 2#3 || fF3 w = 3#3 then
    let dbl : Bool := fF3 w = 3#3
    if f5 = 2#5 then (if fRs2 w = 0#5 then .ok (.lr dbl aq rl (fRd w) (fRs1 w)) else .error .notRv64)
    else if f5 = 3#5 then .ok (.sc dbl aq rl (fRd w) (fRs1 w) (fRs2 w))
    else
      match AmoOp.ofCode f5 with
      | some op => .ok (.amo op dbl aq rl (fRd w) (fRs1 w) (fRs2 w))
      | none => .error .notRv64
  else .error .notRv64

/-- OP-IMM and OP-IMM-32: one-operand forms, then shifts, then the others. -/
def decodeOpImm (w32 : Bool) (w : BitVec 32) : Except DecodeErr Instr :=
  match UnOp.ofEnc (fOp w, fImmI w, fF3 w) with
  | some op => .ok (.rv64Base (.unary op (fRd w) (fRs1 w)))
  | none =>
    match ShiftOp.ofEnc (w32, w.extractLsb' 26 6, fF3 w) with
    | some op => checked .notRv64 (.rv64Base (.shift op (fRd w) (fRs1 w) (w.extractLsb' 20 6)))
    | none =>
      match ImmOp.ofEnc (w32, fF3 w) with
      | some op => .ok (.rv64Base (.aluImm op (fRd w) (fRs1 w) (fImmI w)))
      | none => .error .notRv64

/-- OP and OP-32. -/
def decodeOp (w32 : Bool) (w : BitVec 32) : Except DecodeErr Instr :=
  match UnOp.ofEnc (fOp w, fImmI w, fF3 w) with
  | some op => .ok (.rv64Base (.unary op (fRd w) (fRs1 w)))
  | none =>
    match AluOp.ofEnc (w32, fF7 w, fF3 w) with
    | some op => .ok (.rv64Base (.alu op (fRd w) (fRs1 w) (fRs2 w)))
    | none => .error .notRv64

def decodeLoad (fp : Bool) (w : BitVec 32) : Except DecodeErr Instr :=
  match LoadKind.ofEnc (fp, fF3 w) with
  | some k => .ok (.rv64Load k (fRd w) (fRs1 w) (fImmI w))
  | none => .error .notRv64

def decodeStore (fp : Bool) (w : BitVec 32) : Except DecodeErr Instr :=
  match StoreKind.ofEnc (fp, fF3 w) with
  | some k => .ok (.rv64Store k (fRs2 w) (fRs1 w) (fImmS w))
  | none => .error .notRv64

def decodeBranch (w : BitVec 32) : Except DecodeErr Instr :=
  match BrCond.ofCode (fF3 w) with
  | some c => .ok (.rv64Base (.branch c (fRs1 w) (fRs2 w) (fImmB w)))
  | none => .error .notRv64

def decodeMiscMem (w : BitVec 32) : Except DecodeErr Instr :=
  match (fF3 w).toNat with
  | 0 => .ok (.fence (w.extractLsb' 28 4) (w.extractLsb' 24 4) (w.extractLsb' 20 4) (fRs1 w) (fRd w))
  | 1 => .ok .fenceI
  | _ => .error .notRv64

/-- A 32-bit Stoker word (R114 to R121). -/
def decodeStoker (w : BitVec 32) : Except DecodeErr Instr :=
  match (fOp w).toNat with
  | 0x0B => decodeCustom0 w
  | 0x2B => decodeCustom1 w
  | 0x5B => decodeCustom2 w
  | 0x7B => decodeCustom3 w
  | 0x03 => decodeLoad false w
  | 0x07 => decodeLoad true w
  | 0x23 => decodeStore false w
  | 0x27 => decodeStore true w
  | 0x0F => decodeMiscMem w
  | 0x13 => decodeOpImm false w
  | 0x1B => decodeOpImm true w
  | 0x33 => decodeOp false w
  | 0x3B => decodeOp true w
  | 0x2F => decodeAmo w
  | 0x37 => .ok (.rv64Base (.lui (fRd w) (w.extractLsb' 12 20)))
  | 0x17 => .ok (.rv64Base (.auipc (fRd w) (w.extractLsb' 12 20)))
  | 0x6F => .ok (.rv64Base (.jal (fRd w) (fImmJ w)))
  | 0x67 => if fF3 w = 0#3 then .ok (.rv64Base (.jalr (fRd w) (fRs1 w) (fImmI w))) else .error .notRv64
  | 0x63 => decodeBranch w
  | 0x73 => decodeSystem w
  | 0x53 => decodeFp w
  | 0x43 => decodeFma .fmadd w
  | 0x47 => decodeFma .fmsub w
  | 0x4B => decodeFma .fnmsub w
  | 0x4F => decodeFma .fnmadd w
  | _ => .error .notRv64

/-! ### Compressed RV64DC words (R121), each expanded to the instruction it stands for -/

/-- The eight registers of a three-bit field. -/
def creg (r : BitVec 3) : Reg := 1#2 ++ r

def addi (rd rs1 : Reg) (imm : BitVec 12) : Instr := .rv64Base (.aluImm .addi rd rs1 imm)

/-- Quadrant 0. -/
def decodeC0 (w : BitVec 16) : Except DecodeErr Instr :=
  let rd := creg (w.extractLsb' 2 3)
  let rs1 := creg (w.extractLsb' 7 3)
  let uw : BitVec 12 := 0#5 ++ w.extractLsb' 5 1 ++ w.extractLsb' 10 3 ++ w.extractLsb' 6 1 ++ 0#2
  let ud : BitVec 12 := 0#4 ++ w.extractLsb' 5 2 ++ w.extractLsb' 10 3 ++ 0#3
  match (w.extractLsb' 13 3).toNat with
  | 0 =>
    let imm : BitVec 12 := 0#2 ++ w.extractLsb' 7 4 ++ w.extractLsb' 11 2 ++ w.extractLsb' 5 1 ++ w.extractLsb' 6 1 ++ 0#2
    if imm = 0#12 then .error .notRv64 else .ok (addi rd 2 imm)
  | 1 => .ok (.rv64Load .fld rd rs1 ud)
  | 2 => .ok (.rv64Load .lw rd rs1 uw)
  | 3 => .ok (.rv64Load .ld rd rs1 ud)
  | 5 => .ok (.rv64Store .fsd rd rs1 ud)
  | 6 => .ok (.rv64Store .sw rd rs1 uw)
  | 7 => .ok (.rv64Store .sd rd rs1 ud)
  | _ => .error .notRv64

/-- The register arithmetic of quadrant 1. -/
def decodeC1Alu (w : BitVec 16) : Except DecodeErr Instr :=
  let rd := creg (w.extractLsb' 7 3)
  let rs2 := creg (w.extractLsb' 2 3)
  let sh : BitVec 6 := w.extractLsb' 12 1 ++ w.extractLsb' 2 5
  let alu (op : AluOp) : Except DecodeErr Instr := .ok (.rv64Base (.alu op rd rd rs2))
  match (w.extractLsb' 10 2).toNat with
  | 0 => .ok (.rv64Base (.shift .srli rd rd sh))
  | 1 => .ok (.rv64Base (.shift .srai rd rd sh))
  | 2 => .ok (.rv64Base (.aluImm .andi rd rd (sh.signExtend 12)))
  | _ =>
    match (w.extractLsb' 12 1 ++ w.extractLsb' 5 2 : BitVec 3).toNat with
    | 0 => alu .sub
    | 1 => alu .xor
    | 2 => alu .or
    | 3 => alu .and
    | 4 => alu .subw
    | 5 => alu .addw
    | _ => .error .notRv64

/-- Quadrant 1. -/
def decodeC1 (w : BitVec 16) : Except DecodeErr Instr :=
  let rd : Reg := w.extractLsb' 7 5
  let imm6 : BitVec 6 := w.extractLsb' 12 1 ++ w.extractLsb' 2 5
  let br : BitVec 12 :=
    (w.extractLsb' 12 1 ++ w.extractLsb' 5 2 ++ w.extractLsb' 2 1 ++ w.extractLsb' 10 2 ++ w.extractLsb' 3 2 :
      BitVec 8).signExtend 12
  match (w.extractLsb' 13 3).toNat with
  | 0 => .ok (addi rd rd (imm6.signExtend 12))
  | 1 => if rd = 0#5 then .error .notRv64 else .ok (.rv64Base (.aluImm .addiw rd rd (imm6.signExtend 12)))
  | 2 => .ok (addi rd 0 (imm6.signExtend 12))
  | 3 =>
    if imm6 = 0#6 then .error .notRv64
    else if rd = 2#5 then
      .ok (addi 2 2
        ((w.extractLsb' 12 1 ++ w.extractLsb' 3 2 ++ w.extractLsb' 5 1 ++ w.extractLsb' 2 1 ++ w.extractLsb' 6 1 ++ 0#4 :
          BitVec 10).signExtend 12))
    else .ok (.rv64Base (.lui rd (imm6.signExtend 20)))
  | 4 => decodeC1Alu w
  | 5 =>
    .ok (.rv64Base (.jal 0
      ((w.extractLsb' 12 1 ++ w.extractLsb' 8 1 ++ w.extractLsb' 9 2 ++ w.extractLsb' 6 1 ++ w.extractLsb' 7 1 ++
        w.extractLsb' 2 1 ++ w.extractLsb' 11 1 ++ w.extractLsb' 3 3 : BitVec 11).signExtend 20)))
  | 6 => .ok (.rv64Base (.branch .eq (creg (w.extractLsb' 7 3)) 0 br))
  | _ => .ok (.rv64Base (.branch .ne (creg (w.extractLsb' 7 3)) 0 br))

/-- Quadrant 2. -/
def decodeC2 (w : BitVec 16) : Except DecodeErr Instr :=
  let rd : Reg := w.extractLsb' 7 5
  let rs2 : Reg := w.extractLsb' 2 5
  let ld : BitVec 12 := 0#3 ++ w.extractLsb' 2 3 ++ w.extractLsb' 12 1 ++ w.extractLsb' 5 2 ++ 0#3
  let lw : BitVec 12 := 0#4 ++ w.extractLsb' 2 2 ++ w.extractLsb' 12 1 ++ w.extractLsb' 4 3 ++ 0#2
  let sd : BitVec 12 := 0#3 ++ w.extractLsb' 7 3 ++ w.extractLsb' 10 3 ++ 0#3
  let sw : BitVec 12 := 0#4 ++ w.extractLsb' 7 2 ++ w.extractLsb' 9 4 ++ 0#2
  match (w.extractLsb' 13 3).toNat with
  | 0 => .ok (.rv64Base (.shift .slli rd rd (w.extractLsb' 12 1 ++ w.extractLsb' 2 5)))
  | 1 => .ok (.rv64Load .fld rd 2 ld)
  | 2 => if rd = 0#5 then .error .notRv64 else .ok (.rv64Load .lw rd 2 lw)
  | 3 => if rd = 0#5 then .error .notRv64 else .ok (.rv64Load .ld rd 2 ld)
  | 4 =>
    if w.extractLsb' 12 1 = 0#1 then
      if rs2 = 0#5 then (if rd = 0#5 then .error .notRv64 else .ok (.rv64Base (.jalr 0 rd 0)))
      else .ok (.rv64Base (.alu .add rd 0 rs2))
    else if rs2 = 0#5 then
      (if rd = 0#5 then .ok (.rv64Base .ebreak) else .ok (.rv64Base (.jalr 1 rd 0)))
    else .ok (.rv64Base (.alu .add rd rd rs2))
  | 5 => .ok (.rv64Store .fsd rs2 2 sd)
  | 6 => .ok (.rv64Store .sw rs2 2 sw)
  | _ => .ok (.rv64Store .sd rs2 2 sd)

/-- A 16-bit Stoker word: bits [1:0] other than 11. -/
def decodeCompressed (w : BitVec 16) : Except DecodeErr Instr :=
  match (w.extractLsb' 0 2).toNat with
  | 0 => decodeC0 w
  | 1 => decodeC1 w
  | 2 => decodeC2 w
  | _ => .error .notRv64

/-! ### VX words (R126 to R132) -/

/-- A long move from its fields (R126). -/
def vlong (e : BitVec 1) (d s : BitVec 6) (r : BitVec 2) (g i : BitVec 4) (o : BitVec 8) : BitVec 32 :=
  1#1 ++ e ++ d ++ s ++ r ++ g ++ i ++ o

/-- A short move from its fields (R126). -/
def vshort (e : BitVec 1) (d s : BitVec 6) (r : BitVec 2) : BitVec 16 := 0#1 ++ e ++ d ++ s ++ r

/-- The operation of va named by the operation byte t, op (R130). -/
def decodeVa (e : BitVec 1) (d s : BitVec 6) (r : BitVec 2) (g i : BitVec 4) (t : BitVec 3) (op : BitVec 5) :
    Except DecodeErr Instr :=
  let m : BitVec 3 := op.extractLsb' 0 3
  let ok (x : Instr) : Except DecodeErr Instr := checked .illegalWord x
  if t = 6#3 then
    match op.toNat with
    | 0 => ok (.vaAnd e d s r g i)
    | 1 => ok (.vaOr e d s r g i)
    | 2 => ok (.vaXor e d s r g i)
    | 3 => ok (.vaAndn e d s r g i)
    | 4 => ok (.vaShl e d s r g i)
    | 5 => ok (.vaShr e d s r g i)
    | 6 => ok (.vaSra e d s r g i)
    | 7 => ok (.vaRotl e d s r g i)
    | 8 => ok (.vaPopc e d s r g i)
    | 9 => ok (.vaClz e d s r g i)
    | 31 => ok (.vaMov e d s r g i t)
    | _ => .error .illegalWord
  else
    match (op.extractLsb' 3 2).toNat with
    | 0 => ok (.vaAdd e d s r g i t m)
    | 1 => ok (.vaSub e d s r g i t m)
    | 2 => ok (.vaMul e d s r g i t m)
    | _ =>
      match m.toNat with
      | 0 => ok (.vaMin e d s r g i t)
      | 1 => ok (.vaMax e d s r g i t)
      | 2 => ok (.vaAbs e d s r g i t)
      | 3 => ok (.vaNeg e d s r g i t)
      | 4 => ok (.vaCmpeq e d s r g i t)
      | 5 => ok (.vaCmplt e d s r g i t)
      | 6 => ok (.vaCmple e d s r g i t)
      | _ => ok (.vaMov e d s r g i t)

/-- The operation of vs (R131). -/
def decodeVs (e : BitVec 1) (s : BitVec 6) (r : BitVec 2) (g i : BitVec 4) (o : BitVec 8) : Except DecodeErr Instr :=
  let ok (x : Instr) : Except DecodeErr Instr := checked .illegalWord x
  match o.toNat with
  | 0 => ok (.vsExp2 e s r g i)
  | 1 => ok (.vsLog2 e s r g i)
  | 2 => ok (.vsRecip e s r g i)
  | 3 => ok (.vsRsqrt e s r g i)
  | 4 => ok (.vsSqrt e s r g i)
  | 5 => ok (.vsTanh e s r g i)
  | 6 => ok (.vsSigmoid e s r g i)
  | 7 => ok (.vsSilu e s r g i)
  | 8 => ok (.vsGelu e s r g i)
  | 9 => ok (.vsSin e s r g i)
  | 10 => ok (.vsCos e s r g i)
  | _ => .error .illegalWord

/-- The operations of the other trigger ports (R131, R132). -/
def decodeTrigger (e : BitVec 1) (d s : BitVec 6) (r : BitVec 2) (g i : BitVec 4) (t : BitVec 3) (op : BitVec 5) :
    Except DecodeErr Instr :=
  let m : BitVec 3 := op.extractLsb' 0 3
  let ok (x : Instr) : Except DecodeErr Instr := checked .illegalWord x
  match d.toNat with
  | 16 =>
    match (op.extractLsb' 3 2).toNat with
    | 0 => ok (.vfFma e s r g i t m)
    | 1 => ok (.vfFms e s r g i t m)
    | 2 => ok (.vfNfma e s r g i t m)
    | _ => ok (.vfNfms e s r g i t m)
  | 18 => decodeVs e s r g i (t ++ op)
  | 20 =>
    if t = 6#3 then
      if op = 0#5 then ok (.vcWvcc e s r g i)
      else if op = 1#5 then ok (.vcWphase e s r g i)
      else .error .illegalWord
    else if op.extractLsb' 0 1 = 0#1 then ok (.vcCvt e s r g i t (op.extractLsb' 2 3) (op.extractLsb' 1 1))
    else ok (.vcPack e s r g i t (op.extractLsb' 2 3) (op.extractLsb' 1 1))
  | 23 =>
    match op.toNat with
    | 0 => ok (.ldVec e s r g i t)
    | 1 => ok (.ldGather e s r g i t)
    | 2 => ok (.ldBcast e s r g i t)
    | 3 => ok (.ldRing e s r g i t)
    | 4 => if t = 6#3 then ok (.ldRaw e s r g i) else .error .illegalWord
    | _ => .error .illegalWord
  | 26 =>
    match op.toNat with
    | 0 => ok (.stVec e s r g i t)
    | 1 => ok (.stScatter e s r g i t)
    | 2 => ok (.stScalar e s r g i t)
    | _ => .error .illegalWord
  | 28 =>
    match op.toNat with
    | 0 => ok (.swPush e s r g i t)
    | 1 => ok (.swPushn e s r g i t)
    | 2 => ok (.swDrain e s r g i t)
    | _ => .error .illegalWord
  | 30 =>
    match (op.extractLsb' 3 2).toNat with
    | 0 => ok (.lrdSum e s r g i t m)
    | 1 => if m = 0#3 then ok (.lrdMax e s r g i t) else .error .illegalWord
    | 2 => if m = 0#3 then ok (.lrdMin e s r g i t) else .error .illegalWord
    | _ => .error .illegalWord
  | _ => .error .illegalWord

/-- A 32-bit VX word. -/
def decodeVxFull (w : BitVec 32) : Except DecodeErr Instr :=
  let e : BitVec 1 := w.extractLsb' 30 1
  let d : BitVec 6 := w.extractLsb' 24 6
  let s : BitVec 6 := w.extractLsb' 18 6
  let r : BitVec 2 := w.extractLsb' 16 2
  let g : BitVec 4 := w.extractLsb' 12 4
  let i : BitVec 4 := w.extractLsb' 8 4
  let t : BitVec 3 := w.extractLsb' 5 3
  let op : BitVec 5 := w.extractLsb' 0 5
  let o : BitVec 8 := w.extractLsb' 0 8
  if w.extractLsb' 31 1 = 0#1 then .error .illegalWord
  else if !portsOk d s then .error .reservedPort
  else if d.toNat = 9 || d.toNat = 12 then decodeVa e d s r g i t op
  else if portTriggers d then decodeTrigger e d s r g i t op
  else if o = 0#8 then checked .illegalWord (.vxMoveLong e d s r g i o)
  else if d = 63#6 && s = 50#6 && e = 1#1 && o.extractLsb' 3 5 = 2#5 then
    checked .illegalWord (.vxRfcl r g i (o.extractLsb' 0 3))
  else .error .illegalWord

/-- A 16-bit VX word. -/
def decodeVxHalf (w : BitVec 16) : Except DecodeErr Instr :=
  let e : BitVec 1 := w.extractLsb' 14 1
  let d : BitVec 6 := w.extractLsb' 8 6
  let s : BitVec 6 := w.extractLsb' 2 6
  let r : BitVec 2 := w.extractLsb' 0 2
  if w.extractLsb' 15 1 = 1#1 then .error .illegalWord
  else if d = 63#6 && s = 50#6 then .ok (.vxNop e r)
  else if !portsOk d s then .error .reservedPort
  else checked .illegalWord (.vxMoveShort e d s r)

/-! ### MX words (R133 to R135) -/

/-- A 32-bit MX word. -/
def decodeMxFull (w : BitVec 32) : Except DecodeErr Instr :=
  let x : BitVec 5 := w.extractLsb' 21 5
  let ok (i : Instr) : Except DecodeErr Instr := checked .illegalWord i
  let zero (z : Bool) (i : Instr) : Except DecodeErr Instr := if z then ok i else .error .illegalWord
  if w.extractLsb' 31 1 = 0#1 then .error .illegalWord
  else
    match (w.extractLsb' 26 5).toNat with
    | 0 => zero (w.extractLsb' 0 2 = 0#2)
        (.mxMma x (w.extractLsb' 16 5) (w.extractLsb' 11 5) (w.extractLsb' 10 1) (w.extractLsb' 9 1) (w.extractLsb' 8 1)
          (w.extractLsb' 5 3) (w.extractLsb' 2 3))
    | 1 =>
      if w.extractLsb' 20 1 = 0#1 then
        ok (.mxFill x (w.extractLsb' 19 1) (w.extractLsb' 17 2) (w.extractLsb' 15 2) (w.extractLsb' 0 15))
      else zero (w.extractLsb' 19 1 = 0#1 && w.extractLsb' 0 14 = 0#14)
        (.mxFillRing x (w.extractLsb' 17 2) (w.extractLsb' 14 3))
    | 2 => zero (w.extractLsb' 0 21 = 0#21) (.mxClaim x)
    | 3 => zero (w.extractLsb' 0 21 = 0#21) (.mxRelease x)
    | 4 => zero (w.extractLsb' 0 10 = 0#10) (.mxTanch x (w.extractLsb' 20 1) (w.extractLsb' 10 10))
    | 5 => zero (w.extractLsb' 0 21 = 0#21) (.mxTinit x)
    | 6 => zero (w.extractLsb' 0 9 = 0#9) (.mxTcfg x (w.extractLsb' 15 6) (w.extractLsb' 9 6))
    | 7 =>
      let f : BitVec 3 := w.extractLsb' 16 3
      let m : BitVec 3 := w.extractLsb' 13 3
      let n : BitVec 1 := w.extractLsb' 12 1
      match (w.extractLsb' 19 2).toNat with
      | 0 => zero (w.extractLsb' 0 9 = 0#9) (.mxResolveMfile x f m n (w.extractLsb' 9 3))
      | 1 => ok (.mxResolveAbuf x f m n (w.extractLsb' 10 2) (w.extractLsb' 0 10))
      | 2 => zero (f = 0#3 && w.extractLsb' 0 12 = 0#12) (.mxResolveSelf x m n)
      | _ => .error .illegalWord
    | 8 =>
      let b : BitVec 5 := w.extractLsb' 16 5
      let r : BitVec 3 := w.extractLsb' 12 3
      let p : BitVec 3 := w.extractLsb' 9 3
      let g : BitVec 2 := w.extractLsb' 7 2
      let s : BitVec 7 := w.extractLsb' 0 7
      if w.extractLsb' 15 1 = 0#1 then ok (.mxTcmp x b r p g s)
      else zero (b = 0#5) (.mxTcmpThreshold x r p g s)
    | 9 => zero (w.extractLsb' 17 4 = 0#4) (.mxSpill x (w.extractLsb' 15 2) (w.extractLsb' 0 15))
    | 10 => zero (w.extractLsb' 17 4 = 0#4) (.mxReload x (w.extractLsb' 15 2) (w.extractLsb' 0 15))
    | _ => .error .illegalWord

/-- A 16-bit MX word (R134). -/
def decodeMxHalf (w : BitVec 16) : Except DecodeErr Instr :=
  if w.extractLsb' 15 1 = 1#1 then .error .illegalWord
  else
    match (w.extractLsb' 12 3).toNat with
    | 0 => if w = 0#16 then .ok .mxNop else .error .illegalWord
    | 1 => if w.extractLsb' 0 7 = 0#7 then .ok (.mxReleaseShort (w.extractLsb' 7 5)) else .error .illegalWord
    | 2 => .ok (.mxMark (w.extractLsb' 0 12))
    | 3 => if w.extractLsb' 0 8 = 0#8 then .ok (.mxGate (w.extractLsb' 8 4)) else .error .illegalWord
    | _ => .error .illegalWord

/-! ### The whole decoder -/

/-- A word together with the stream it stands in. -/
inductive EncWord where
  | stoker (w : BitVec 32)
  | vxHalf (w : BitVec 16)
  | vxFull (w : BitVec 32)
  | mxHalf (w : BitVec 16)
  | mxFull (w : BitVec 32)
  deriving DecidableEq, Repr

/-- The instruction a word is, or the name of its fate. -/
def decodeWord : EncWord → Except DecodeErr Instr
  | .stoker w => decodeStoker w
  | .vxHalf w => decodeVxHalf w
  | .vxFull w => decodeVxFull w
  | .mxHalf w => decodeMxHalf w
  | .mxFull w => decodeMxFull w

/-- A 16-bit little-endian unit. -/
def halfOf (b0 b1 : Byte) : BitVec 16 := b1 ++ b0

/-- The Stoker's decoder on bytes: the instruction and its length in bytes. -/
def decodeBytes : List Byte → Except DecodeErr (Instr × Nat)
  | b0 :: b1 :: rest =>
    if (b0.extractLsb' 0 2 = 3#2) then
      match rest with
      | b2 :: b3 :: _ => (decodeStoker (b3 ++ b2 ++ b1 ++ b0)).map (fun i => (i, 4))
      | _ => .error .truncated
    else (decodeCompressed (halfOf b0 b1)).map (fun i => (i, 2))
  | _ => .error .truncated

/-- An engine stream on halfwords (R122): a halfword whose bit 15 is 1 is the upper half of a 32-bit word. The answer is
the word and how many halfwords it takes. -/
def decodeStream (mx : Bool) : List (BitVec 16) → Except DecodeErr (Instr × Nat)
  | h :: rest =>
    if h.extractLsb' 15 1 = 1#1 then
      match rest with
      | l :: _ => ((if mx then decodeMxFull else decodeVxFull) (h ++ l)).map (fun i => (i, 2))
      | _ => .error .truncated
    else ((if mx then decodeMxHalf else decodeVxHalf) h).map (fun i => (i, 1))
  | _ => .error .truncated

/-! ### The encoder -/

/-- The eight operation bits of a va, vf or lrd word with a three-bit low field. -/
def opByte (t : BitVec 3) (hi : BitVec 2) (m : BitVec 3) : BitVec 8 := t ++ hi ++ m

/-- RV64 base words. -/
def RvInstr.encode : RvInstr → BitVec 32
  | .lui rd imm => imm ++ rd ++ 0x37#7
  | .auipc rd imm => imm ++ rd ++ 0x17#7
  | .jal rd imm => imm.extractLsb' 19 1 ++ imm.extractLsb' 0 10 ++ imm.extractLsb' 10 1 ++ imm.extractLsb' 11 8 ++ rd ++ 0x6F#7
  | .jalr rd rs1 imm => imm ++ rs1 ++ 0#3 ++ rd ++ 0x67#7
  | .branch c rs1 rs2 imm =>
    imm.extractLsb' 11 1 ++ imm.extractLsb' 4 6 ++ rs2 ++ rs1 ++ c.code ++ imm.extractLsb' 0 4 ++ imm.extractLsb' 10 1 ++ 0x63#7
  | .alu op rd rs1 rs2 => rtype op.enc.2.1 rs2 rs1 op.enc.2.2 rd (if op.enc.1 then 0x3B#7 else 0x33#7)
  | .aluImm op rd rs1 imm => imm ++ rs1 ++ op.enc.2 ++ rd ++ (if op.enc.1 then 0x1B#7 else 0x13#7)
  | .shift op rd rs1 sh => op.enc.2.1 ++ sh ++ rs1 ++ op.enc.2.2 ++ rd ++ (if op.enc.1 then 0x1B#7 else 0x13#7)
  | .unary op rd rs1 => op.enc.2.1 ++ rs1 ++ op.enc.2.2 ++ rd ++ op.enc.1
  | .csrRead op uimm rd csr => csr ++ 0#5 ++ csrFunct3 op uimm ++ rd ++ 0x73#7
  | .ecall => 0x00000073#32
  | .ebreak => 0x00100073#32
  | .mret => 0x30200073#32
  | .fpArith op dbl rm rd rs1 rs2 => op.code ++ 0#1 ++ BitVec.ofBool dbl ++ rs2 ++ rs1 ++ rm ++ rd ++ 0x53#7
  | .fpSqrt dbl rm rd rs1 => 11#5 ++ 0#1 ++ BitVec.ofBool dbl ++ 0#5 ++ rs1 ++ rm ++ rd ++ 0x53#7
  | .fpFma op dbl rm rd rs1 rs2 rs3 => rs3 ++ 0#1 ++ BitVec.ofBool dbl ++ rs2 ++ rs1 ++ rm ++ rd ++ op.op
  | .fpSel op dbl rd rs1 rs2 => op.enc.1 ++ 0#1 ++ BitVec.ofBool dbl ++ rs2 ++ rs1 ++ op.enc.2 ++ rd ++ 0x53#7
  | .fpCmp op dbl rd rs1 rs2 => 20#5 ++ 0#1 ++ BitVec.ofBool dbl ++ rs2 ++ rs1 ++ op.code ++ rd ++ 0x53#7
  | .fpClass dbl rd rs1 => 28#5 ++ 0#1 ++ BitVec.ofBool dbl ++ 0#5 ++ rs1 ++ 1#3 ++ rd ++ 0x53#7
  | .fpToInt ty dbl rm rd rs1 => 24#5 ++ 0#1 ++ BitVec.ofBool dbl ++ ty.code ++ rs1 ++ rm ++ rd ++ 0x53#7
  | .intToFp ty dbl rm rd rs1 => 26#5 ++ 0#1 ++ BitVec.ofBool dbl ++ ty.code ++ rs1 ++ rm ++ rd ++ 0x53#7
  | .fpCvt toDbl rm rd rs1 =>
    8#5 ++ 0#1 ++ BitVec.ofBool toDbl ++ (if toDbl then 0#5 else 1#5) ++ rs1 ++ rm ++ rd ++ 0x53#7
  | .fpMvToInt dbl rd rs1 => 28#5 ++ 0#1 ++ BitVec.ofBool dbl ++ 0#5 ++ rs1 ++ 0#3 ++ rd ++ 0x53#7
  | .intMvToFp dbl rd rs1 => 30#5 ++ 0#1 ++ BitVec.ofBool dbl ++ 0#5 ++ rs1 ++ 0#3 ++ rd ++ 0x53#7

/-- A CSR word. -/
def csrWord (op : CsrOp) (uimm : Bool) (rd rs1 : Reg) (csr : BitVec 12) : BitVec 32 :=
  csr ++ rs1 ++ csrFunct3 op uimm ++ rd ++ 0x73#7

/-- custom-2 words (R119): space, class, U. -/
def custom2 (space : BitVec 2) (c : BitVec 4) (u : BitVec 1) (b a : Reg) (store : BitVec 1) (w : BitVec 2) (d : Reg) :
    BitVec 32 :=
  rtype (space ++ c ++ u) b a (store ++ w) d 0x5B#7

/-- The Stoker words. -/
def encodeStoker : Instr → Option (BitVec 32)
  | .vxRun b a => some (rtype 0x00#7 b a 0#3 0#5 0x0B#7)
  | .mxRun b a => some (rtype 0x7D#7 b a 1#3 0#5 0x0B#7)
  | .mxPushw b a => some (rtype 0x7C#7 b a 1#3 0#5 0x0B#7)
  | .mxMmaInline n d b a c => some (rtype (0#5 ++ n ++ d) b a 1#3 c 0x0B#7)
  | .mxClaimInline s => some (rtype 0x08#7 0#5 0#5 1#3 s 0x0B#7)
  | .mxReleaseInline s => some (rtype 0x0C#7 0#5 0#5 1#3 s 0x0B#7)
  | .mxTinitInline c => some (rtype 0x14#7 0#5 0#5 1#3 c 0x0B#7)
  | .cxCopy a d => some (rtype 0x00#7 0#5 a 2#3 d 0x0B#7)
  | .cxCopy2 a d => some (rtype 0x01#7 0#5 a 2#3 d 0x0B#7)
  | .cxPeer a d => some (rtype 0x02#7 0#5 a 2#3 d 0x0B#7)
  | .cxFill a d => some (rtype 0x03#7 0#5 a 2#3 d 0x0B#7)
  | .cxRing a d => some (rtype 0x04#7 0#5 a 2#3 d 0x0B#7)
  | .cxPretr a d => some (rtype 0x05#7 0#5 a 2#3 d 0x0B#7)
  | .cxCancel a => some (rtype 0x06#7 0#5 a 2#3 0#5 0x0B#7)
  | .cxFlush a d => some (rtype 0x07#7 0#5 a 2#3 d 0x0B#7)
  | .cxWait a d => some (rtype 0x08#7 0#5 a 2#3 d 0x0B#7)
  | .cxTest a d => some (rtype 0x09#7 0#5 a 2#3 d 0x0B#7)
  | .gxGather a => some (rtype 0x00#7 0#5 a 3#3 0#5 0x0B#7)
  | .gxBag a => some (rtype 0x01#7 0#5 a 3#3 0#5 0x0B#7)
  | .gxScadd a => some (rtype 0x02#7 0#5 a 3#3 0#5 0x0B#7)
  | .gxCount a => some (rtype 0x03#7 0#5 a 3#3 0#5 0x0B#7)
  | .fxPass a => some (rtype 0x00#7 0#5 a 4#3 0#5 0x0B#7)
  | .fxCfg a => some (rtype 0x01#7 0#5 a 4#3 0#5 0x0B#7)
  | .clAllred a => some (rtype 0x00#7 0#5 a 5#3 0#5 0x0B#7)
  | .clRedsc a => some (rtype 0x01#7 0#5 a 5#3 0#5 0x0B#7)
  | .clAllgat a => some (rtype 0x02#7 0#5 a 5#3 0#5 0x0B#7)
  | .clBcast a => some (rtype 0x03#7 0#5 a 5#3 0#5 0x0B#7)
  | .clBarrier t s => some (rtype 0x04#7 (0#1 ++ t ++ s) 0#5 5#3 0#5 0x0B#7)
  | .ringTake n d => some (rtype 0x00#7 0#5 n 6#3 d 0x0B#7)
  | .ringGive n => some (rtype 0x01#7 0#5 n 6#3 0#5 0x0B#7)
  | .ringStat n d => some (rtype 0x02#7 0#5 n 6#3 d 0x0B#7)
  | .skBuffmtA f b a g => some (rtype (2#2 ++ f) b a 6#3 g 0x0B#7)
  | .skBuffmtW f b a g => some (rtype (3#2 ++ f) b a 6#3 g 0x0B#7)
  | .skFence m c e d k => some (rtype (0#3 ++ m ++ c) e d 0#3 k 0x2B#7)
  | .skMark c e a k => some (rtype (0b001000#6 ++ c) e a 0#3 k 0x2B#7)
  | .skRdvwait k => some (rtype 0x00#7 0#5 k 1#3 0#5 0x2B#7)
  | .skRdvtest k d => some (rtype 0x01#7 0#5 k 1#3 d 0x2B#7)
  | .skWfe d => some (rtype 0x02#7 0#5 0#5 1#3 d 0x2B#7)
  | .skSev m => some (rtype 0x03#7 0#5 m 1#3 0#5 0x2B#7)
  | .skSend a m => some (rtype 0x04#7 0#5 a 1#3 m 0x2B#7)
  | .skRecv d => some (rtype 0x05#7 0#5 0#5 1#3 d 0x2B#7)
  | .dqPush a d => some (rtype 0x00#7 0#5 a 2#3 d 0x2B#7)
  | .dqPop d => some (rtype 0x01#7 0#5 0#5 2#3 d 0x2B#7)
  | .dqSteal d => some (rtype 0x02#7 0#5 0#5 2#3 d 0x2B#7)
  | .dqExport n => some (rtype 0x03#7 0#5 n 2#3 0#5 0x2B#7)
  | .feedPop a d => some (rtype 0x04#7 0#5 a 2#3 d 0x2B#7)
  | .skSegend => some 0x0000302B#32
  | .skSegendTask => some 0x0000B02B#32
  | .skBudget d => some (rtype 0x01#7 0#5 0#5 3#3 d 0x2B#7)
  | .abAmoadd w b a d => some (rtype (AmoOp.add.code ++ 0#1 ++ w) b a 4#3 d 0x2B#7)
  | .abAmoswap w b a d => some (rtype (AmoOp.swap.code ++ 0#1 ++ w) b a 4#3 d 0x2B#7)
  | .abAmoxor w b a d => some (rtype (AmoOp.xor.code ++ 0#1 ++ w) b a 4#3 d 0x2B#7)
  | .abAmoor w b a d => some (rtype (AmoOp.or.code ++ 0#1 ++ w) b a 4#3 d 0x2B#7)
  | .abAmoand w b a d => some (rtype (AmoOp.and.code ++ 0#1 ++ w) b a 4#3 d 0x2B#7)
  | .abAmomin w b a d => some (rtype (AmoOp.min.code ++ 0#1 ++ w) b a 4#3 d 0x2B#7)
  | .abAmomax w b a d => some (rtype (AmoOp.max.code ++ 0#1 ++ w) b a 4#3 d 0x2B#7)
  | .abAmominu w b a d => some (rtype (AmoOp.minu.code ++ 0#1 ++ w) b a 4#3 d 0x2B#7)
  | .abAmomaxu w b a d => some (rtype (AmoOp.maxu.code ++ 0#1 ++ w) b a 4#3 d 0x2B#7)
  | .skSvc a d => some (rtype 0x00#7 0#5 a 5#3 d 0x2B#7)
  | .skLend a d => some (rtype 0x01#7 0#5 a 5#3 d 0x2B#7)
  | .abLoad c u b a w d => some (custom2 0#2 c u b a 0#1 w d)
  | .abStore c b a w => some (custom2 0#2 c 0#1 b a 1#1 w 0#5)
  | .wbLoad c u b a w d => some (custom2 1#2 c u b a 0#1 w d)
  | .wbStore c b a w => some (custom2 1#2 c 0#1 b a 1#1 w 0#5)
  | .skClLoad c u b a w d => some (custom2 2#2 c u b a 0#1 w d)
  | .skCsStore c b a w => some (custom2 2#2 c 0#1 b a 1#1 w 0#5)
  | .skShape a s => some (rtype 0x00#7 0#5 a 0#3 s 0x7B#7)
  | .skView h s v => some (rtype 0x00#7 h s 1#3 v 0x7B#7)
  | .skTgeom a c => some (rtype 0x00#7 0#5 a 2#3 c 0x7B#7)
  | .skRfcl n => some (rtype 0x00#7 0#5 n 3#3 0#5 0x7B#7)
  | .ringCfg b a n => some (rtype 0x00#7 b a 4#3 n 0x7B#7)
  | .skVariant c a d => some (rtype 0x00#7 c a 5#3 d 0x7B#7)
  | .fence fm pred succ rs1 rd => some (fm ++ pred ++ succ ++ rs1 ++ 0#3 ++ rd ++ 0x0F#7)
  | .fenceI => some 0x0000100F#32
  | .wfi => some 0x10500073#32
  | .rv64Load k rd rs1 imm => some (imm ++ rs1 ++ k.enc.2 ++ rd ++ (if k.enc.1 then 0x07#7 else 0x03#7))
  | .rv64Store k rs2 rs1 imm =>
    some (imm.extractLsb' 5 7 ++ rs2 ++ rs1 ++ k.enc.2 ++ imm.extractLsb' 0 5 ++ (if k.enc.1 then 0x27#7 else 0x23#7))
  | .amo op dbl aq rl rd rs1 rs2 =>
    some (op.code ++ BitVec.ofBool aq ++ BitVec.ofBool rl ++ rs2 ++ rs1 ++ (if dbl then 3#3 else 2#3) ++ rd ++ 0x2F#7)
  | .lr dbl aq rl rd rs1 =>
    some (2#5 ++ BitVec.ofBool aq ++ BitVec.ofBool rl ++ 0#5 ++ rs1 ++ (if dbl then 3#3 else 2#3) ++ rd ++ 0x2F#7)
  | .sc dbl aq rl rd rs1 rs2 =>
    some (3#5 ++ BitVec.ofBool aq ++ BitVec.ofBool rl ++ rs2 ++ rs1 ++ (if dbl then 3#3 else 2#3) ++ rd ++ 0x2F#7)
  | .sret => some 0x10200073#32
  | .sfenceVma rs1 rs2 => some (rtype 0x09#7 rs2 rs1 0#3 0#5 0x73#7)
  | .csrWrite op uimm rd rs1 csr => some (csrWord op uimm rd rs1 csr)
  | .yeventWrite op uimm rd rs1 => some (csrWord op uimm rd rs1 0x802#12)
  | .ywmWrite op uimm rd rs1 => some (csrWord op uimm rd rs1 0x803#12)
  | .ymxstAccess op uimm rd rs1 => some (csrWord op uimm rd rs1 0x804#12)
  | .ydxstAccess op uimm rd rs1 => some (csrWord op uimm rd rs1 0x805#12)
  | .rv64Base i => some i.encode
  | _ => none

/-- The 32-bit VX words. -/
def encodeVx : Instr → Option (BitVec 32)
  | .vxMoveLong e d s r g i o => some (vlong e d s r g i o)
  | .vxRfcl r g i n => some (vlong 1#1 63#6 50#6 r g i (2#5 ++ n))
  | .vaAdd e d s r g i t m => some (vlong e d s r g i (opByte t 0#2 m))
  | .vaSub e d s r g i t m => some (vlong e d s r g i (opByte t 1#2 m))
  | .vaMul e d s r g i t m => some (vlong e d s r g i (opByte t 2#2 m))
  | .vaMin e d s r g i t => some (vlong e d s r g i (opByte t 3#2 0#3))
  | .vaMax e d s r g i t => some (vlong e d s r g i (opByte t 3#2 1#3))
  | .vaAbs e d s r g i t => some (vlong e d s r g i (opByte t 3#2 2#3))
  | .vaNeg e d s r g i t => some (vlong e d s r g i (opByte t 3#2 3#3))
  | .vaCmpeq e d s r g i t => some (vlong e d s r g i (opByte t 3#2 4#3))
  | .vaCmplt e d s r g i t => some (vlong e d s r g i (opByte t 3#2 5#3))
  | .vaCmple e d s r g i t => some (vlong e d s r g i (opByte t 3#2 6#3))
  | .vaMov e d s r g i t => some (vlong e d s r g i (opByte t 3#2 7#3))
  | .vaAnd e d s r g i => some (vlong e d s r g i 0xC0#8)
  | .vaOr e d s r g i => some (vlong e d s r g i 0xC1#8)
  | .vaXor e d s r g i => some (vlong e d s r g i 0xC2#8)
  | .vaAndn e d s r g i => some (vlong e d s r g i 0xC3#8)
  | .vaShl e d s r g i => some (vlong e d s r g i 0xC4#8)
  | .vaShr e d s r g i => some (vlong e d s r g i 0xC5#8)
  | .vaSra e d s r g i => some (vlong e d s r g i 0xC6#8)
  | .vaRotl e d s r g i => some (vlong e d s r g i 0xC7#8)
  | .vaPopc e d s r g i => some (vlong e d s r g i 0xC8#8)
  | .vaClz e d s r g i => some (vlong e d s r g i 0xC9#8)
  | .vfFma e s r g i t m => some (vlong e 16#6 s r g i (opByte t 0#2 m))
  | .vfFms e s r g i t m => some (vlong e 16#6 s r g i (opByte t 1#2 m))
  | .vfNfma e s r g i t m => some (vlong e 16#6 s r g i (opByte t 2#2 m))
  | .vfNfms e s r g i t m => some (vlong e 16#6 s r g i (opByte t 3#2 m))
  | .vsExp2 e s r g i => some (vlong e 18#6 s r g i 0#8)
  | .vsLog2 e s r g i => some (vlong e 18#6 s r g i 1#8)
  | .vsRecip e s r g i => some (vlong e 18#6 s r g i 2#8)
  | .vsRsqrt e s r g i => some (vlong e 18#6 s r g i 3#8)
  | .vsSqrt e s r g i => some (vlong e 18#6 s r g i 4#8)
  | .vsTanh e s r g i => some (vlong e 18#6 s r g i 5#8)
  | .vsSigmoid e s r g i => some (vlong e 18#6 s r g i 6#8)
  | .vsSilu e s r g i => some (vlong e 18#6 s r g i 7#8)
  | .vsGelu e s r g i => some (vlong e 18#6 s r g i 8#8)
  | .vsSin e s r g i => some (vlong e 18#6 s r g i 9#8)
  | .vsCos e s r g i => some (vlong e 18#6 s r g i 10#8)
  | .vcCvt e s r g i t m n => some (vlong e 20#6 s r g i (t ++ m ++ n ++ 0#1))
  | .vcPack e s r g i t m n => some (vlong e 20#6 s r g i (t ++ m ++ n ++ 1#1))
  | .vcWvcc e s r g i => some (vlong e 20#6 s r g i 0xC0#8)
  | .vcWphase e s r g i => some (vlong e 20#6 s r g i 0xC1#8)
  | .ldVec e s r g i t => some (vlong e 23#6 s r g i (t ++ 0#5))
  | .ldGather e s r g i t => some (vlong e 23#6 s r g i (t ++ 1#5))
  | .ldBcast e s r g i t => some (vlong e 23#6 s r g i (t ++ 2#5))
  | .ldRing e s r g i t => some (vlong e 23#6 s r g i (t ++ 3#5))
  | .ldRaw e s r g i => some (vlong e 23#6 s r g i 0xC4#8)
  | .stVec e s r g i t => some (vlong e 26#6 s r g i (t ++ 0#5))
  | .stScatter e s r g i t => some (vlong e 26#6 s r g i (t ++ 1#5))
  | .stScalar e s r g i t => some (vlong e 26#6 s r g i (t ++ 2#5))
  | .swPush e s r g i t => some (vlong e 28#6 s r g i (t ++ 0#5))
  | .swPushn e s r g i t => some (vlong e 28#6 s r g i (t ++ 1#5))
  | .swDrain e s r g i t => some (vlong e 28#6 s r g i (t ++ 2#5))
  | .lrdSum e s r g i t m => some (vlong e 30#6 s r g i (opByte t 0#2 m))
  | .lrdMax e s r g i t => some (vlong e 30#6 s r g i (opByte t 1#2 0#3))
  | .lrdMin e s r g i t => some (vlong e 30#6 s r g i (opByte t 2#2 0#3))
  | _ => none

/-- The 32-bit MX words. -/
def encodeMx : Instr → Option (BitVec 32)
  | .mxMma c a b n d h s l => some (1#1 ++ 0#5 ++ c ++ a ++ b ++ n ++ d ++ h ++ s ++ l ++ 0#2)
  | .mxFill s w t g p => some (1#1 ++ 1#5 ++ s ++ 0#1 ++ w ++ t ++ g ++ p)
  | .mxFillRing s t k => some (1#1 ++ 1#5 ++ s ++ 2#2 ++ t ++ k ++ 0#14)
  | .mxClaim s => some (1#1 ++ 2#5 ++ s ++ 0#21)
  | .mxRelease s => some (1#1 ++ 3#5 ++ s ++ 0#21)
  | .mxTanch c m a => some (1#1 ++ 4#5 ++ c ++ m ++ a ++ 0#10)
  | .mxTinit c => some (1#1 ++ 5#5 ++ c ++ 0#21)
  | .mxTcfg c r k => some (1#1 ++ 6#5 ++ c ++ r ++ k ++ 0#9)
  | .mxResolveMfile c f m n t => some (1#1 ++ 7#5 ++ c ++ 0#2 ++ f ++ m ++ n ++ t ++ 0#9)
  | .mxResolveAbuf c f m n g p => some (1#1 ++ 7#5 ++ c ++ 1#2 ++ f ++ m ++ n ++ g ++ p)
  | .mxResolveSelf c m n => some (1#1 ++ 7#5 ++ c ++ 2#2 ++ 0#3 ++ m ++ n ++ 0#12)
  | .mxTcmp a b r p g s => some (1#1 ++ 8#5 ++ a ++ b ++ 0#1 ++ r ++ p ++ g ++ s)
  | .mxTcmpThreshold a r p g s => some (1#1 ++ 8#5 ++ a ++ 0#5 ++ 1#1 ++ r ++ p ++ g ++ s)
  | .mxSpill c g s => some (1#1 ++ 9#5 ++ c ++ 0#4 ++ g ++ s)
  | .mxReload c g s => some (1#1 ++ 10#5 ++ c ++ 0#4 ++ g ++ s)
  | _ => none

/-- The word of an instruction, in its stream; none for a row that is a step and no word. -/
def encode (i : Instr) : Option EncWord :=
  match i with
  | .vxMoveShort e d s r => some (.vxHalf (vshort e d s r))
  | .vxNop e r => some (.vxHalf (vshort e 63#6 50#6 r))
  | .mxReleaseShort s => some (.mxHalf (1#4 ++ s ++ 0#7))
  | .mxNop => some (.mxHalf 0#16)
  | .mxMark n => some (.mxHalf (2#4 ++ n))
  | .mxGate m => some (.mxHalf (3#4 ++ m ++ 0#8))
  | _ =>
    match encodeStoker i with
    | some w => some (.stoker w)
    | none =>
      match encodeVx i with
      | some w => some (.vxFull w)
      | none => (encodeMx i).map .mxFull

/-! ### The table's words -/

/-- The instruction a decoded word is, when the decoder accepts it. -/
def accepted (r : Except DecodeErr Instr) : Option Instr :=
  match r with
  | .ok i => some i
  | .error _ => none

/-- A long word of no named stream: VX when it triggers a unit or is a control word, else MX, else VX. The table gives VX
and MX words no bit that tells them apart (DESIGN CHOICE, log 12). -/
def decodeEngineFull (w : BitVec 32) : Option Instr :=
  match accepted (decodeVxFull w), accepted (decodeMxFull w) with
  | some (.vxMoveLong e d s r g i o), none => some (.vxMoveLong e d s r g i o)
  | some (.vxMoveLong ..), some m => some m
  | some v, _ => some v
  | none, m => m

/-- A 16-bit word of no named stream: VX's no-op, else MX, else VX, else a compressed word (DESIGN CHOICE, log 12). -/
def decodeEngineHalf (w : BitVec 16) : Option Instr :=
  match accepted (decodeVxHalf w), accepted (decodeMxHalf w) with
  | some (.vxNop e r), _ => some (.vxNop e r)
  | _, some m => some m
  | some v, none => some v
  | none, none => accepted (decodeCompressed w)

/-- The instruction the decoder reads from a table word of nbits bits: a Stoker word when its bits [1:0] are 11 and it is
one, else an engine word. -/
def decodeTableWord (nbits w : Nat) : Option Instr :=
  if nbits = 32 then
    match accepted (decodeStoker (BitVec.ofNat 32 w)) with
    | some i => some i
    | none => decodeEngineFull (BitVec.ofNat 32 w)
  else if nbits = 16 then decodeEngineHalf (BitVec.ofNat 16 w)
  else none

end Sys2Proof
end

