-- ==== Sys2Proof/Config.lean ====
section
/-! DEFINITION. What the part fixes and the free values: a constant with no body stands for a value the spec leaves to
the die, the part or the moment (DESIGN CHOICE, logs 9 and 10); no proof can see what it is. -/
namespace Sys2Proof.Config

/-- `yident`.STEP, per die (00_scope.md R4). -/
opaque step : BitVec 8

/-- `yident`.CGEN, per die (00_scope.md R4). -/
opaque cgen : BitVec 8

/-- The calibrated cost of metering event q, before the limit of R288 (17_energy.md). -/
opaque calibrated : Nat → Nat

/-- INRUSH of island i, per part (24_power_bringup.md R343). -/
opaque inrush : Nat → BitVec 16

/-- PROC of island i, per die (24_power_bringup.md R343). -/
opaque proc : Nat → BitVec 16

/-- Current limit of zone z, per part (24_power_bringup.md R343). -/
opaque zoneLimit : Nat → BitVec 16

/-- Measured current of zone z at interval step n (24_power_bringup.md R343). -/
opaque zoneCurrent : Nat → Nat → BitVec 16

/-- Telemetry of island i at interval step n: power mW, temperature 1/8 degree, voltage mV (17_energy.md R285). -/
opaque telemetry : Nat → Nat → BitVec 16 × BitVec 16 × BitVec 16

/-- Measured board power in W in the interval that ends at interval step n (17_energy.md R285). -/
opaque boardPower : Nat → Nat

/-- The nth free 64-bit value: what the spec calls undefined, or leaves open, and a step still needs. -/
opaque freeWord : Nat → Word

/-- The firmware's own refusal codes of a staged image (23_host_links_security.md R342). -/
opaque refusalCode : Nat → BitVec 8

/-- The doubleword at offset o of a shadow bank image with identity n: the layout inside the bank is not architectural
(16_system_state.md R280). -/
opaque bankWord : Nat → Nat → Word

/-- The anti-rollback fuse row when the device leaves reset: 64 one-time bits (23_host_links_security.md R341). -/
opaque fusedBits : BitVec 64

/-- Whether the service core's queue has room for the nth request (08_stoker_isa.md R173). -/
opaque svcRoom : Nat → Bool

/-- Bytes of the saved image of a context with so many slots, accumulator tiles and M-file tiles in it: the layout inside
the bank is not architectural (16_system_state.md R280). -/
opaque imageBytes : Nat → Nat → Nat → Nat

/-- Byte o of what the nth save or spill writes into a spill area: the layout is not architectural (16_system_state.md
R280). -/
opaque spillByte : Nat → Nat → Byte

/-- Bytes of one segment-table entry beside a residual (12_portable_form.md R261). -/
opaque segEntryBytes : Nat

/-- VENDOR of `yident` (00_scope.md R4). -/
def vendor : BitVec 16 := 0x0B7C#16

/-- PART of `yident`: the IM-9W (00_scope.md R4). -/
def part : BitVec 16 := 0x0921#16

/-- `yident` (00_scope.md R4): ARCH 1, MEMC 4. -/
def yident : Word := vendor ++ part ++ 0x01#8 ++ step ++ cgen ++ 0x4#4 ++ 0x0#4

/-- `ymxcap` (10_matrix_isa.md R210). -/
def ymxcap : Word := 0x0000#16 ++ 48#8 ++ 12#8 ++ 72#8 ++ 4#8 ++ 8#8 ++ 32#8

/-- Cores, clusters and islands of the die (00_scope.md R1, 17_energy.md R282). -/
def nCores : Nat := 128
def nIslands : Nat := 140

/-- Bytes of LP6 (00_scope.md R1): 256 GB, MEMC 4 units of 64 GB, read as GiB (DEDUCED, log 14). -/
def lp6Bytes : Nat := 2 ^ 38

/-- Admission cost of class c in BU (08_stoker_isa.md R154). -/
def classCost (c : Nat) : Nat := [1, 2, 3, 5, 8, 13, 21, 34].getD c 0

/-- Nominal metering costs in 1/64 mBU, `ycost1` entry 0 first (17_energy.md R288). -/
def nominalCosts : List Nat :=
  [128, 192, 96, 144] ++ [256, 320, 448, 512] ++ [256, 288, 320, 333] ++ [8, 16, 8, 8] ++ [1, 1, 1, 64] ++
  [4, 6, 10, 8] ++ [4, 1, 16, 2]

/-- The nominal cost of event q. -/
def nominalCost (q : Nat) : Nat := nominalCosts.getD q 0

/-- The calibrated cost of event q, at most a factor of 2 from the nominal one either way (R288). -/
def calibratedCost (q : Nat) : Nat :=
  let n := nominalCost q
  max ((n + 1) / 2) (min (2 * n) (calibrated q))

end Sys2Proof.Config
end

