-- ==== Sys2Proof/Machine/State.lean ====
section
/-! DEFINITION. The state of the device as plain data: its cores with the contexts they run, its memories, and what the
Grate, the Trivets, the Damper, the host windows, Soot, the Chimney ports and the firmware hold. State.reset is the
device at reset. -/
namespace Sys2Proof.Machine

/-- A sparse table: keys strictly rising, no entry that holds what an absent key reads as. -/
abbrev Tbl (α : Type) := List (Nat × α)

/-- Byte memory: the canonical list of the host's cells. -/
abbrev Memory := List Host.Cell

/-- 64 lanes (09_vector_isa.md R182). -/
abbrev Lanes := List Lane

/-- Privilege modes (16_system_state.md R273). -/
inductive Mode where
  | u | s | m
  deriving DecidableEq, Repr

/-- A destination register of an asynchronous instruction (08_stoker_isa.md R149). -/
inductive Dest where
  | none
  | x (r : Reg)
  | f (r : Reg)
  deriving DecidableEq, Repr

/-- An agent of the ordering machine (06_ordering.md R97). -/
inductive Actor where
  | core (c : Nat) (a : Agent)
  | host
  | peer
  | service
  deriving DecidableEq, Repr

/-- Where an access lands: device or host physical memory, or a physical buffer byte of a core. -/
inductive Place where
  | dev (pa : Nat)
  | host (pa : Nat)
  | abuf (core off : Nat)
  | wbuf (core off : Nat)
  deriving DecidableEq, Repr

/-- A piece of a core's SRAM that can hold an uncorrectable error (20_translation_faults.md R318, R319): a 64-byte unit of
WBUF or ABUF, an operand slot, an accumulator tile, an M-file tile, a shadow bank, a row of a cache. -/
inductive Sram where
  | wbuf (core unit : Nat)
  | abuf (core unit : Nat)
  | slot (core n : Nat)
  | acc (core t : Nat)
  | mfile (core t : Nat)
  /-- The context that a shadow bank holds. -/
  | bank (core : Nat)
  /-- A row of the Stoker cache of a core (array 5), the cache of a cluster (6) or the system cache (7, unit 0), and the
  physical line it holds. -/
  | cache (array unit row line : Nat)
  deriving DecidableEq, Repr

/-- One entry of a Stoker's class queues (06_ordering.md R101, 08_stoker_isa.md R149). -/
inductive SqKind where
  /-- A load: size in bytes, sign extension, whether the page is UEZ, the virtual address for a late report. -/
  | load (p : Place) (size : Nat) (sext uez : Bool) (va : Word)
  | store (p : Place) (bytes : List Byte)
  | amo (op : AmoOp) (p : Place) (size : Nat) (operand : Word) (scope : Nat) (uez : Bool) (va : Word)
  | lr (p : Place) (size : Nat) (scope : Nat) (uez : Bool) (va : Word)
  /-- Store-conditional; `ev` is the line event a store meters (17_energy.md R288). -/
  | sc (p : Place) (size : Nat) (value : Word) (scope ev : Nat)
  /-- The push of the engine command with this identity (R105). -/
  | push (cmd : Nat)
  | fence (scope : Nat)
  | acquire
  /-- `sk.sev` of a team member (R160). -/
  | sev (member : Nat)
  /-- `sk.svc` (R173): where its request stands, and the metering event of reading it. -/
  | svc (p : Place) (size ev : Nat)
  /-- `sk.lend` of a page (R174). -/
  | lend (page size : Nat)
  /-- `dq.push` of a word (R164). -/
  | dqPush (v : Word)
  /-- A result that is known and still on its way (R149). -/
  | ready (v : Word)
  /-- The ACTION write of an agent's fault record (20_translation_faults.md R313). -/
  | action (a : Agent)
  deriving DecidableEq, Repr

structure SqEnt where
  classes : BitVec 16
  kind : SqKind
  dest : Dest
  /-- A typed-buffer access, before whose performing no younger push registers (05_local_memory.md R89). -/
  typed : Bool
  deriving DecidableEq, Repr

/-- A load reservation (06_ordering.md R108): `since` is the identity the next write gets when the LR reads. -/
structure Resv where
  place : Place
  size : Nat
  scope : Nat
  since : Nat
  broken : Bool
  deriving DecidableEq, Repr

/-- The RISC-V control and status registers of a Stoker (16_system_state.md R273; RISC-V privileged architecture). -/
structure Csrs where
  mstatus : Word
  mideleg : Word
  mie : Word
  mip : Word
  mtvec : Word
  mcounteren : Word
  menvcfg : Word
  mscratch : Word
  mepc : Word
  mcause : Word
  mtval : Word
  stvec : Word
  scounteren : Word
  senvcfg : Word
  sscratch : Word
  sepc : Word
  scause : Word
  stval : Word
  deriving DecidableEq, Repr

/-- `ywm` (08_stoker_isa.md R175). -/
structure Ywm where
  qlact : Bool
  parked : Bool
  svc : Bool
  cl : BitVec 5
  fx : BitVec 4
  gx : BitVec 6
  cx : BitVec 7
  mx : BitVec 6
  vx : BitVec 6
  deriving DecidableEq, Repr

/-- A rendezvous register (05_local_memory.md R94, R95): armed, the engines that still owe marker n. -/
structure Rv where
  armed : Bool
  owing : BitVec 6
  n : BitVec 16
  deriving DecidableEq, Repr

/-- A ring's state (05_local_memory.md R82; 08_stoker_isa.md R169, R170). -/
structure Ring where
  configured : Bool
  inW : Bool
  base : Nat
  slotB : Nat
  nSlot : Nat
  prod : Nat
  cons : Nat
  free : Nat
  filled : Nat
  head : Nat
  tail : Nat
  writing : Nat
  cfgErr : Bool
  heldSk : Option Nat
  heldVx : Option Nat
  heldMx : Option Nat
  deriving DecidableEq, Repr

/-- A token entry (11_data_engines_isa.md R233): the token's value and the code it ended with. -/
structure Token where
  value : Word
  ended : Option Nat
  deriving DecidableEq, Repr

/-- A range a scoreboard entry records, in the context's own offsets (05_local_memory.md R87). -/
inductive Rng where
  | a (lo hi : Nat)
  | w (lo hi : Nat)
  | slot (n : Nat)
  deriving DecidableEq, Repr

/-- A run record (07_encoding.md R125). `ok` is false when a field breaks R125. -/
structure RunRec where
  repeatN : Nat
  args : List Nat
  rdBase : Nat
  rdLen : Nat
  wrBase : Nat
  wrLen : Nat
  rdW : Bool
  slotWr : BitVec 32
  slotRd : BitVec 32
  ok : Bool
  deriving DecidableEq, Repr

/-- A shape record (08_stoker_isa.md R172). -/
structure Shape where
  rows : Nat
  t : Bool
  klen : Nat
  rstr : Nat
  estr : Nat
  eoff : Nat
  deriving DecidableEq, Repr

/-- A view binds a slot to a shape (10_matrix_isa.md R215). -/
structure View where
  slot : Nat
  sh : Nat
  deriving DecidableEq, Repr

/-- The geometry of a tile (10_matrix_isa.md R220). -/
structure Geom where
  rows : Nat
  cols : Nat
  deriving DecidableEq, Repr

/-- The bindings a command captures at its push (10_matrix_isa.md R206). -/
structure Binds where
  views : Tbl View
  shapes : Tbl Shape
  geoms : Tbl Geom
  deriving DecidableEq, Repr

/-- What an engine queue entry asks for. -/
inductive Cmd where
  | vxRun (code : Nat) (recOff : Nat) (r : RunRec)
  | vxRfcl (n : Nat)
  | mxRun (code : Nat) (recOff : Nat) (r : RunRec)
  /-- A pushed MX word with its address operand (07_encoding.md R117). -/
  | mxWord (w : BitVec 32) (addr : Nat)
  /-- `sk.shape` and `sk.view`, whose bindings were set at the push. -/
  | mxBind
  /-- A command with a parameter record: the pushing funct7 and the record's offset (R136). -/
  | record (funct7 : Nat) (off : Nat)
  | barrier (team : Bool) (scope : Nat)
  | marker (rv : Nat) (n : BitVec 16)
  /-- `sk.buffmt` (08_stoker_isa.md R171). -/
  | tag (inW : Bool) (tag : Byte) (off len : Nat)
  deriving DecidableEq, Repr

/-- One thing a running CX, GX or FX command has still to do in a buffer, in the order of its progress (05_local_memory.md
R88; DESIGN CHOICE, log 109). -/
inductive Todo where
  | bytes (p : Place) (bs : List Byte)
  /-- The tag of a granule, at its first byte (R81). -/
  | tag (p : Place) (tag : Nat)
  /-- The bytes of a buffer it reads here. -/
  | read (p : Place) (n : Nat)
  /-- One event that its bytes meter (17_energy.md R288). -/
  | meter (q : Nat)
  /-- The slot of a member's ring is filled (R83). -/
  | filled (member ring : Nat)
  deriving DecidableEq, Repr

/-- An engine queue entry, with its scoreboard ranges while it is not retired. -/
structure Entry where
  id : Nat
  qpos : Nat
  cmd : Cmd
  cls : BitVec 4
  binds : Binds
  rd : List Rng
  wr : List Rng
  scored : Bool
  /-- Its push has performed in the Stoker's class queue (08_stoker_isa.md R155). -/
  pushed : Bool
  started : Bool
  /-- It has started at least once: a stopped command has, and a copy whose group has not performed (06_ordering.md R101). -/
  begun : Bool
  /-- A started copy waits for the performing of its group; younger copies of other classes may pass it (R101). -/
  held : Bool
  /-- Its effect is complete and it may retire. -/
  complete : Bool
  /-- What a running command has still to do in the buffers, and the highest byte it has written (11_data_engines_isa.md
  R237). -/
  todo : List Todo
  top : Option Nat
  /-- Where a started or stopped command stands: bytes, rows, indices or batches done. -/
  prog : Nat
  /-- The token entry a CX command owes. -/
  token : Option Nat
  /-- How it ends: 0 complete, 1 cancelled, 2 discarded (11_data_engines_isa.md R238). -/
  code : Nat
  /-- Which collective of its scope and TEAM it is, counted by its pusher (R247). -/
  seq : Nat
  /-- Identities of its global writes, and the scope at which it retires (06_ordering.md R103). -/
  writes : List Nat
  scope : Nat
  /-- Lines and buffer units a running or stopped command has counted: event, memory, unit (17_energy.md R288). -/
  met : List (Nat × Nat × Nat)
  /-- Tagged granules of a stopped command and the highest address written into each (05_local_memory.md R81). -/
  tops : List (Place × Nat)
  /-- Tiles that are in flight for it: accumulator tile t as t, M-file tile t as 8 + t (R92). -/
  tiles : List Nat
  deriving DecidableEq, Repr

/-- A fault record (20_translation_faults.md R312). -/
structure FaultRec where
  fstat : Word
  prog : Word
  addr : Word
  cmd : Word
  fop : Word
  task : Word
  action : BitVec 2
  /-- The ACTION that waits to be carried out, or 0. -/
  todo : BitVec 2
  /-- VXST at a fault of VX (09_vector_isa.md R187; DESIGN CHOICE, log 129). -/
  vxst : BitVec 9
  deriving DecidableEq, Repr

/-- One element of an accumulator tile: V and the five flags (04_accumulators.md R65, R66). -/
structure Elem where
  v : Int
  nan : Bool
  ninf : Bool
  pinf : Bool
  rng : Bool
  inx : Bool
  deriving DecidableEq, Repr

/-- An accumulator tile (04_accumulators.md R65; 05_local_memory.md R92). Element (i, j) has key 64 i + j. -/
structure AccTile where
  els : Tbl Elem
  anchor : Int
  auto : Bool
  phase : BitVec 3
  valid : Bool
  dirty : Bool
  inflight : Option Agent
  deriving DecidableEq, Repr

/-- An M-file tile (05_local_memory.md R78, R92). Lane j of row i has key 64 i + j. -/
structure MTile where
  lanes : Tbl Lane
  valid : Bool
  dirty : Bool
  inflight : Option Agent
  deriving DecidableEq, Repr

inductive SlotState where
  | free | claimed | filled
  deriving DecidableEq, Repr

/-- An operand slot (05_local_memory.md R93; 10_matrix_isa.md R212). -/
structure Slot where
  state : SlotState
  fmt : BitVec 5
  geo : BitVec 3
  data : Memory
  side : Memory
  deriving DecidableEq, Repr

/-- A move of the open bundle, with its immediate where its source is `imm` (07_encoding.md R126, 09_vector_isa.md
R178). -/
structure Move where
  dst : Nat
  src : Nat
  dir : Nat
  idx : Nat
  op : BitVec 8
  stage : Nat
  imm : BitVec 16
  deriving DecidableEq, Repr

/-- What lands when an operation in flight is due. -/
inductive Landing where
  /-- A result register (port number) takes its lanes, and VXST the flags of the operation. -/
  | result (port : Nat) (v : Lanes) (fl : BitVec 9)
  /-- Lanes appended to the switch queue (R198). -/
  | append (v : Lanes)
  | drain
  /-- Bytes of the own ABUF, by context offset (R197, R201). -/
  | store (bytes : Memory)
  deriving DecidableEq, Repr

structure Flight where
  left : Nat
  what : Landing
  deriving DecidableEq, Repr

/-- The run VX executes (09_vector_isa.md R185): fetched halfwords after the header, iterations n, stages, position. -/
structure VxRun where
  entry : Nat
  hws : List (BitVec 16)
  code : Nat
  length : Nat
  count : Nat
  n : Nat
  stages : Nat
  rot : Bool
  k : Nat
  pos : Nat
  /-- Halfword at which the open bundle began. -/
  first : Nat
  st : BitVec 16
  bundle : List Move
  deriving DecidableEq, Repr

/-- The run MX executes (10_matrix_isa.md R224). -/
structure MxRun where
  entry : Nat
  hws : List (BitVec 16)
  code : Nat
  length : Nat
  n : Nat
  k : Nat
  pos : Nat
  deriving DecidableEq, Repr

/-- The VX part of a context (09_vector_isa.md R203). -/
structure Vx where
  tiles : Tbl MTile
  ix : Tbl Lane
  preds : Tbl (BitVec 64)
  /-- Operand, address and result registers, and sw.c, by port number. -/
  ports : Tbl Lanes
  q : Lanes
  flight : List Flight
  vcc : BitVec 32
  vxst : BitVec 9
  phase : BitVec 3
  /-- Clusters 0 to inUse - 1 are in use. -/
  inUse : Nat
  /-- Waking clusters and the VX cycles they still need (R184). -/
  waking : Tbl Nat
  run : Option VxRun
  deriving DecidableEq, Repr

/-- `ymxst` (10_matrix_isa.md R209). -/
structure Ymxst where
  cfglost : BitVec 8
  gateidle : BitVec 8
  nv : Bool
  of : Bool
  uf : Bool
  nx : Bool
  deriving DecidableEq, Repr

/-- The MX part of a context (10_matrix_isa.md R228). `binds` is what the next push captures. -/
structure Mx where
  slots : Tbl Slot
  binds : Binds
  tiles : Tbl AccTile
  st : Ymxst
  /-- Sub-arrays gated by `mx.gate`, and those gated by being idle (R208, 17_energy.md R288). -/
  gated : BitVec 4
  idleGated : BitVec 4
  /-- The ec of each sub-array's last array cycle. -/
  idle : Tbl Nat
  run : Option MxRun
  deriving DecidableEq, Repr

/-- `ydxst` (11_data_engines_isa.md R230). -/
structure Ydxst where
  first : BitVec 32
  fagent : BitVec 3
  zlines : BitVec 16
  csat : Bool
  uez : Bool
  deriving DecidableEq, Repr

/-- The collective port's part of a context (11_data_engines_isa.md R247, R252): how many collectives were pushed in each
(scope, TEAM), and the record of the command at the head that waits for the other participants. -/
structure Cl where
  counts : Tbl Nat
  record : List Byte
  deriving DecidableEq, Repr

/-- A wait in progress, for Soot (25_debug.md R353): who waits, at which position, on what, since when, and who ends it. -/
structure Wait where
  agent : Nat
  qpos : Nat
  flag : Nat
  num : BitVec 32
  since : Nat
  setter : Nat
  setterCore : Nat
  deriving DecidableEq, Repr

/-- A word of a deque, with the identities of the owner's older writes that were not yet visible at device scope at its
push (01_machine.md R17, 06_ordering.md R110). -/
structure DqWord where
  v : Word
  older : List Nat
  deriving DecidableEq, Repr

/-- A write a task performed on a core it has left: the agent of that core, its class and identity (DESIGN CHOICE, log 107). -/
structure Prior where
  agent : Agent
  cls : BitVec 4
  id : Nat
  deriving DecidableEq, Repr

/-- Everything a checkpoint saves of a task on its core (01_machine.md R23). -/
structure Ctx where
  x : Tbl Word
  f : Tbl Word
  pc : Word
  mode : Mode
  fflags : BitVec 5
  frm : BitVec 3
  csr : Csrs
  sq : List SqEnt
  /-- Registers that a load with an uncorrectable error wrote, and its address (08_stoker_isa.md R149). -/
  poison : List (Dest × Word)
  /-- Class and identity of the writes that reads returned (06_ordering.md R106). -/
  seen : List (BitVec 4 × Nat)
  /-- Writes it performed on a core it has left and that were not yet visible to every agent (R106, R110). -/
  priors : List Prior
  resv : Option Resv
  ycls : BitVec 4
  yscope : BitVec 3
  latch : BitVec 16
  arm : BitVec 16
  ywm : Ywm
  ytask : Word
  yteam : Word
  ystage : Word
  segCost : BitVec 24
  segRemain : BitVec 32
  segCount : Nat
  lateDone : Bool
  runCount : Nat
  yjoule : Word
  fa : Nat
  /-- Per island: energy metered there, and the part already settled (17_energy.md R286, R288). -/
  fai : Tbl Nat
  ji : Tbl Nat
  dep : Nat
  depi : Nat
  ytrapinfo : Word
  yfop : Word
  ydxst : Ydxst
  yqlvec : Word
  yqlepc : Word
  /-- A queue-low entry has fired and is not yet taken (08_stoker_isa.md R176). -/
  queueLow : Bool
  cycle : Nat
  instret : Nat
  rv : Tbl Rv
  recvq : List Word
  deque : List DqWord
  exported : Bool
  rings : Tbl Ring
  /-- Rings the kernel's object declares (07_encoding.md R135). -/
  ringDecl : BitVec 8
  tokens : Tbl Token
  cxPushes : Nat
  nextCmd : Nat
  vxq : List Entry
  mxq : List Entry
  cxq : List Entry
  gxq : List Entry
  fxq : List Entry
  /-- The held copy whose group performs next (R101; DESIGN CHOICE, log 110). -/
  cxFocus : Option Nat
  clq : List Entry
  tagq : List Entry
  /-- Pushes of each engine since task start (20_translation_faults.md R312). -/
  qpos : Tbl Nat
  faults : Tbl FaultRec
  vx : Vx
  mx : Mx
  fxOutw : Nat
  fxConcat : Nat
  cl : Cl
  waits : List Wait
  deriving DecidableEq, Repr

/-- The binding registers of a core (16_system_state.md R274, R275): what a timetable entry gives a context. -/
structure Binding where
  part : BitVec 3
  tmap : Word
  aBase : Nat
  aLimit : Nat
  wBase : Nat
  wLimit : Nat
  codebase : Word
  tcb : Word
  deriving DecidableEq, Repr

/-- A timetable entry (19_scheduling.md R299). -/
structure TtEnt where
  v : Bool
  b : Binding
  deriving DecidableEq, Repr

/-- Why a core does not issue. -/
inductive Hold where
  | none
  /-- Frozen in place (01_machine.md R10). -/
  | frozen
  /-- Halting for a checkpoint (19_scheduling.md R303). -/
  | checkpoint
  /-- Task end executed (08_stoker_isa.md R166). -/
  | retiring
  /-- Halted by a Soot stop or breakpoint (25_debug.md R351). -/
  | stopped
  /-- Draining before the exchange of a timetable switch (19_scheduling.md R300). -/
  | switching
  deriving DecidableEq, Repr

/-- An entry of a forwarding table (05_local_memory.md R91): whose granule it is, of ABUF or WBUF, its number in the
footprint, the physical granule a refill brings it to (none while a spill takes it out), its bytes and its tag. -/
structure FwdEnt where
  team : Nat
  member : Nat
  inW : Bool
  granule : Nat
  into : Option Nat
  bytes : Memory
  tag : Byte
  deriving DecidableEq, Repr

/-- One tile core. -/
structure Core where
  ctx : Ctx
  /-- Bytes of the instruction being executed. -/
  ilen : Nat
  b : Binding
  aBytes : Memory
  wBytes : Memory
  aTags : Tbl Byte
  wTags : Tbl Byte
  halted : Bool
  haltReq : Bool
  werr : Bool
  sbptr : Nat
  hold : Hold
  /-- A drain ends at the next segment end (19_scheduling.md R302). -/
  drain : Bool
  /-- The team and member whose context the core holds. -/
  task : Option (Nat × Nat)
  /-- A throttle warning that is pending on the island's Stoker, with its projection (17_energy.md R290). -/
  throttle : Option (BitVec 32)
  /-- Words that retired tasks left in the core's deque, with their launches, top first (01_machine.md R17; DEDUCED, log 130). -/
  left : List (Nat × DqWord)
  /-- The forwarding table: granules in transit between the buffers and memory (05_local_memory.md R91). -/
  fwd : List FwdEnt
  ent0 : TtEnt
  ent1 : TtEnt
  cur : Nat
  ttWerr : Bool
  loadec : Nat
  deriving DecidableEq, Repr

/-- A context that no Stoker holds (16_system_state.md R280, 19_scheduling.md R300, R303): whose it is, the core it was
saved from, WHERE, whether it takes the shadow bank of that core, its binding, its footprint's residence and, when spilled,
its bytes and tags. -/
structure Image where
  team : Nat
  member : Nat
  ctx : Ctx
  pcore : Nat
  wher : Nat
  bank : Bool
  b : Binding
  resident : Bool
  aBytes : Memory
  wBytes : Memory
  aTags : Tbl Byte
  wTags : Tbl Byte
  lost : Bool
  /-- A stop has halted the member while it was switched out (25_debug.md R351). -/
  stopped : Bool
  deriving DecidableEq, Repr

/-- A performed write of cached locations that is not yet part of memory for every agent (06_ordering.md R101). The writes
of one access, and of one command's group, share their identity and widen together (R103). -/
structure Wr where
  id : Nat
  actor : Actor
  cls : BitVec 4
  scope : Nat
  inHost : Bool
  /-- The partition of the core that wrote it, or 8. -/
  part : Nat
  cells : Memory
  deriving DecidableEq, Repr

/-- A TLB: the Stoker's and the engines' of a core, and a cluster's (20_translation_faults.md R309). -/
inductive Tlb where
  | sk (c : Nat)
  | engine (c : Nat)
  | cluster (k : Nat)
  deriving DecidableEq, Repr

/-- A TLB entry: which TLB holds it, partition, page, size in bytes, leaf doublewords (R309). -/
structure TlbEnt where
  tlb : Tlb
  part : Nat
  va : Nat
  size : Nat
  pte : Word
  attr : Word
  deriving DecidableEq, Repr

/-- A ring a kernel declares: its number, buffer, offset, bytes of a slot and slots (02_notation.md R41). -/
structure RingDecl where
  ring : Fin 8
  inW : Bool
  base : Nat
  slotB : Nat
  nSlot : Nat
  deriving DecidableEq, Repr

/-- A uniform's declared width and mark (02_notation.md R41). -/
structure Uniform where
  bytes : Nat
  mark : BitVec 2
  deriving DecidableEq, Repr

/-- A kernel record as a loader sees it (02_notation.md R45), with the ARCH of its object, footprints in bytes, the code
image header of its native code or 0 (07_encoding.md R146), and its operation list when it is in Flaja form (DESIGN CHOICE, log 31; DESIGN CHOICE, log 104). -/
structure KernelRec where
  /-- Bytes of the record. -/
  bytes : Nat
  arch : Nat
  flaja : Bool
  /-- Offsets from the record and sizes of the `sk`, `vx`, `mx` and data sections; of the operation list, first, and the data
  in Flaja form. -/
  sections : List (Nat × Nat)
  abuf : Nat
  wbuf : Nat
  codebase : Nat
  uniforms : List Uniform
  rings : List RingDecl
  segs : List SegEntry
  /-- The variant table: entry and class. -/
  variants : List (Nat × Nat)
  /-- FMT and GEO of the data granules. -/
  granules : List (BitVec 5 × BitVec 3)
  /-- The operation list, once the command processor has read it (21_command_processor.md R321); a record in memory has none. -/
  body : List Word
  deriving DecidableEq, Repr

/-- A task of a team: its TCB address and the core and timetable entry it is placed on. -/
structure Member where
  tcb : Nat
  core : Nat
  ent : Nat
  deriving DecidableEq, Repr

/-- Task states (01_machine.md R10), held for a whole team; Retiring and Retired are per task, in its TCB. A Suspended
team passes through `moving` (on cores again) and `restored` (19_scheduling.md R306) to its admission. -/
inductive TeamState where
  | waiting | ready | placed | running | suspending | suspended | moving | restored | frozenHere | frozenSaved | retired
  deriving DecidableEq, Repr

/-- A team: its launch, members, state, order stamps, effective priority when admitted, Trivet. -/
structure Team where
  part : Nat
  launch : Nat
  teamNo : Nat
  members : List Member
  state : TeamState
  stamp : Nat
  prio : Nat
  cluster : Option Nat
  /-- The Trivet has taken the team's order from the link. -/
  ordered : Bool
  /-- Members that have retired. -/
  done : List Nat
  /-- Order stamp of its admission. -/
  admittedAt : Nat
  /-- Members that have reached a drain's segment end. -/
  drained : List Nat
  lostImage : Bool
  deriving DecidableEq, Repr

/-- A launch in progress (21_command_processor.md R323 to R325); footprints are in granules. -/
structure Launch where
  part : Nat
  queue : Nat
  number : Nat
  size : Nat
  count : Nat
  uniforms : List Word
  segs : List SegEntry
  abuf : Nat
  wbuf : Nat
  rings : BitVec 8
  codebase : Nat
  /-- The kernel record as the command processor read it, with the operation list (21_command_processor.md R325). -/
  kernel : KernelRec
  /-- Where the residual stands, the residual, and the specialisation-cache entry it pins. -/
  residual : Option (Nat × Residual)
  /-- Its code is there: no order is sent before (21_command_processor.md R325). -/
  built : Bool
  cacheKey : Option Nat
  feedK : Nat
  /-- The feed queue's memory (21_command_processor.md R323), and the records appended to it and removed from it. -/
  feedAt : Nat
  feedIn : Nat
  feedOut : Nat
  deriving DecidableEq, Repr

/-- A packet in progress. -/
inductive Busy where
  | launch (l : Nat)
  /-- Launch l of a Flaja kernel that waits for its build or for room: its packet's place in the ring and doublewords. -/
  | build (l : Nat) (at' : BitVec 32) (dw : List Nat)
  | feed (l : Nat) (recs : List (List Byte))
  deriving DecidableEq, Repr

/-- A loop of a graph in execution: first body node, length, iterations left. -/
structure Loop where
  first : Nat
  len : Nat
  left : Nat
  deriving DecidableEq, Repr

/-- Where a packet stream stands inside a graph or a PRED arm. -/
structure GraphRun where
  /-- The place of its GRAPH packet in the ring. -/
  at' : BitVec 32
  base : Nat
  count : Nat
  pos : Nat
  loops : List Loop
  busy : List Busy
  /-- Packets to discard first, packets of a taken arm still to run, and packets to discard after them. -/
  pre : Nat
  arm : Nat
  skip : Nat
  deriving DecidableEq, Repr

/-- A host queue (21_command_processor.md R321). -/
structure HostQueue where
  base : Nat
  log2n : Nat
  en : Bool
  tail : BitVec 32
  /-- The next packet to begin. -/
  head : BitVec 32
  err : BitVec 8
  stop : Bool
  /-- The packet a stopped queue rests at, and the operation index a Preheater refusal names (07_encoding.md R145). -/
  stopAt : BitVec 32
  errOp : Nat
  busy : List Busy
  pre : Nat
  arm : Nat
  skip : Nat
  graphs : List GraphRun
  deriving DecidableEq, Repr

/-- A partition's window (16_system_state.md R279). -/
structure Part where
  clmask : BitVec 8
  state : BitVec 2
  tdi : BitVec 8
  root : Nat
  nqAddr : Nat
  pwbase : Nat
  pwlim : Nat
  wref : Bool
  nqdrop : Bool
  resref : Bool
  nqcnt : Nat
  nqack : Nat
  fzctl : Word
  tlbinv : Word
  queues : Tbl HostQueue
  deriving DecidableEq, Repr

/-- A command link (19_scheduling.md R299): orders sent, permits, queue of team orders. -/
structure Link where
  orders : Nat
  permits : Nat
  queue : List Nat
  deriving DecidableEq, Repr

/-- A specialisation-cache entry (12_portable_form.md R260), with the partition whose launch built it. -/
structure CacheEnt where
  key : Nat
  part : Nat
  khash : Nat
  udigest : Nat
  bodyLen : Nat
  ubytes : List Byte
  res : Residual
  addr : Nat
  pins : Nat
  valid : Bool
  /-- An INVAL reached it while it was pinned (12_portable_form.md R261). -/
  doomed : Bool
  used : Nat
  deriving DecidableEq, Repr

/-- Contract fields (17_energy.md R283). -/
structure Contract where
  psust : BitVec 16
  window : BitVec 16
  tceil : BitVec 8
  thscale : BitVec 4
  strk : BitVec 2
  costsel : Bool
  deriving DecidableEq, Repr

/-- An island (17_energy.md R282 to R285, R290; 24_power_bringup.md R343, R347). -/
structure Island where
  capS : BitVec 8
  grantS : BitVec 8
  cap : BitVec 8
  grant : BitVec 8
  derate : Bool
  /-- DERATE as the latest step applied it. -/
  derated : Bool
  bucket : Int
  /-- The bucket before the latest step. -/
  was : Int
  /-- Steps since the warning episode opened. -/
  episode : Option Nat
  stretched : Bool
  /-- Energy metered here by agents that are no task, in 1/64 mBU, and the part already settled. -/
  uncoreFa : Nat
  uncoreJ : Nat
  /-- Deposits of tasks that left Running, to be returned at the next step, and energy still to be debited. -/
  deposits : Nat
  owed : Nat
  /-- The same of the tasks that left in ec `lateEc`: a step in that ec leaves them to the next (R291). -/
  lateEc : Nat
  lateDeposits : Nat
  lateOwed : Nat
  cmd : BitVec 2
  pstate : Nat
  perr : Bool
  regf : Bool
  phase : BitVec 4
  defer : Nat
  waitOn : Bool
  droop : Bool
  overCur : Bool
  deriving DecidableEq, Repr

/-- Staged values as they stood at a moment: the contract, and CAP and GRANT of each island (17_energy.md R283). -/
structure Staged where
  contract : Contract
  table : List (BitVec 8 × BitVec 8)
  deriving DecidableEq, Repr

/-- The Damper outside the islands (17_energy.md R283). -/
structure Damper where
  staged : Contract
  applied : Contract
  pend : Bool
  /-- The ec of the COMMIT write, and of the latest step, plus 1 (R284, R286). -/
  pendEc : Nat
  /-- What a commit of an earlier ec, pending too, had staged before the latest one (R284, R291). -/
  pendOld : Option Staged
  stepEc : Nat
  cerr : Bool
  breach : Bool
  steps : Nat
  pset : BitVec 4
  pcur : BitVec 4
  deriving DecidableEq, Repr

/-- A tracked line or row (20_translation_faults.md R320). -/
structure Tracked where
  sram : Bool
  line : BitVec 52
  times : List Nat
  lasting : Bool
  deriving DecidableEq, Repr

/-- The error block (20_translation_faults.md R319): configuration, log and injection. -/
structure ErrBlock where
  window : BitVec 16
  thresh : BitVec 4
  logovf : Bool
  elcnt : Nat
  elack : Nat
  log : Tbl (List Word)
  inj : Tbl Word
  tracked : List Tracked
  deriving DecidableEq, Repr

/-- The Soot window (25_debug.md R352). -/
structure Soot where
  ctl : Word
  trbase : Word
  trcnt : Nat
  track : Nat
  drop : Nat
  brk : Tbl Word
  brkpc : Tbl Word
  /-- The ec of the latest write of BRKk, plus 1 (R352). -/
  brkEc : Tbl Nat
  latinj : Tbl Word
  latlen : Tbl Word
  /-- The period of 65,536 ec in which the latest sample was taken, or in which sampling was turned on (R352, R353; DEDUCED,
  log 52). -/
  sampled : Nat
  deriving DecidableEq, Repr

/-- A Chimney port (23_host_links_security.md R338, 25_debug.md R355). -/
structure Chimney where
  crcerr : BitVec 32
  uplanes : BitVec 4
  lstate : BitVec 2
  elanes : BitVec 2
  mode : BitVec 2
  digrx : Word
  digtx : Word
  deriving DecidableEq, Repr

/-- Firmware and recovery (23_host_links_security.md R341, R342). -/
structure Firmware where
  rstage : Word
  rstate : BitVec 2
  code : BitVec 8
  fuse : BitVec 64
  image : Option FirmwareImage
  deriving DecidableEq, Repr

/-- TDISP states (23_host_links_security.md R335). -/
inductive TdiState where
  | unlocked | locked | run | error
  deriving DecidableEq, Repr

/-- What a measurement report carries (R340, 00_scope.md R5): the image's measurement, the running firmware revision and its
security version, the anti-rollback counter's value, STEP and CGEN. -/
structure Report where
  measured : Word
  revision : BitVec 32
  svn : Nat
  fuse : Nat
  step : BitVec 8
  cgen : BitVec 8
  deriving DecidableEq, Repr

/-- A TDISP interface and its SPDM session (R335). -/
structure Tdi where
  state : TdiState
  session : Bool
  period : Nat
  lastBeat : Nat
  /-- The last measurement report, and reports made. -/
  report : Option Report
  reports : Nat
  deriving DecidableEq, Repr

/-- A service request on its way (08_stoker_isa.md R173). -/
structure Request where
  part : Nat
  team : Nat
  member : Nat
  bytes : List Byte
  /-- The payload, once a service core has read it (06_ordering.md R112). -/
  payload : Option (List Byte)
  /-- The service core it is routed to (16_system_state.md R281). -/
  core : Nat
  deriving DecidableEq, Repr

/-- A lent page (08_stoker_isa.md R174): partition, page address, size, lender. -/
structure Lent where
  part : Nat
  page : Nat
  size : Nat
  team : Nat
  member : Nat
  deriving DecidableEq, Repr

/-- What moves next, or what arrives from outside: one entry of the plan (DESIGN CHOICE, log 5). -/
inductive Turn where
  /-- The Stoker of a core executes one instruction. -/
  | stoker (c : Nat)
  /-- VX or MX of a core executes one word. -/
  | vx (c : Nat)
  | mx (c : Nat)
  /-- A step of an engine, of the device or of the host, at a core. -/
  | event (c : Nat) (i : Instr)
  /-- Entry k of a Stoker's class queues performs or retires (06_ordering.md R101). -/
  | perform (c k : Nat)
  /-- Write k widens by one scope (R101). -/
  | widen (k : Nat)
  /-- A core receives ec engine cycles (01_machine.md R19). -/
  | elapse (c ec : Nat)
  /-- The device counts ec engine cycles and n units of 10 ns (08_stoker_isa.md R357). -/
  | tick (ec n : Nat)
  /-- A running command goes on with n things of its list (05_local_memory.md R88). -/
  | drain (c : Nat) (a : Agent) (id n : Nat)
  /-- A copy starts and its group performs later; a held copy's group performs (06_ordering.md R101). -/
  | begin (c : Nat)
  | group (c id : Nat)
  /-- TLB entry k is dropped (20_translation_faults.md R309). -/
  | evict (k : Nat)
  /-- A service core reads the payload of request k (06_ordering.md R112, 23_host_links_security.md R339). -/
  | payload (k : Nat)
  /-- A piece of SRAM meets an uncorrectable error (20_translation_faults.md R318). -/
  | sramError (x : Sram)
  /-- The host assigns a handle to a partition (23_host_links_security.md R339). -/
  | handle (h part : Nat)
  /-- System software gives HDM decoder p a range of LP6 (R333). -/
  | hdm (p base bytes : Nat)
  /-- A granule in core c's forwarding table is written back (05_local_memory.md R91). -/
  | writeBack (c : Nat)
  deriving DecidableEq, Repr

/-- The whole device. -/
structure State where
  cores : Tbl Core
  mem : Memory
  hmem : Memory
  /-- SRAM that reads as uncorrectable, until it is written whole (R318). -/
  bad : List Sram
  pend : List Wr
  nextId : Nat
  tlb : List TlbEnt
  parts : Tbl Part
  kernels : Tbl KernelRec
  launches : Tbl Launch
  teams : Tbl Team
  images : List Image
  links : Tbl Link
  cache : List CacheEnt
  damper : Damper
  islands : Tbl Island
  err : ErrBlock
  soot : Soot
  chimney : Tbl Chimney
  fw : Firmware
  tdis : Tbl Tdi
  requests : List Request
  /-- The partition of each assigned handle, plus 1 (23_host_links_security.md R339), and the payloads sent or stored, by
  service and handle. -/
  handles : Tbl Nat
  sent : List (Nat × Nat × List Byte)
  /-- The LP6 range of each HDM decoder: base and bytes (23_host_links_security.md R333). -/
  hdm : Tbl (Nat × Nat)
  lent : List Lent
  msix : List Nat
  hostUp : Bool
  /-- What the last host or peer read returned, and IDE traffic dropped (23_host_links_security.md R335). -/
  hostRead : List Byte
  ideDropped : Nat
  /-- Reset has been released and bring-up is done (24_power_bringup.md R349). -/
  up : Bool
  ec : Nat
  time : Nat
  /-- Order stamp of the next team that becomes Ready, Placed or admitted. -/
  stamp : Nat
  plan : List Turn
  cur : Nat
  free : Nat
  deriving DecidableEq, Repr

/-- Where a step stops without a next state. -/
inductive Fault where
  /-- A physical address that is neither LP6, peer-box nor host memory: the spec gives no memory there. Raised by every
  global access. Safe. -/
  | noSuchMemory
  deriving DecidableEq, Repr

/-- Why an instruction has no meaning. -/
inductive Refusal where
  /-- An instruction this model has not reached, by its mnemonic in the opcode table. Raised by its arm of exec. Safe. -/
  | notModelled (mnemonic : String)
  deriving DecidableEq, Repr

/-! ### Reset -/

/-- 64 zero lanes. -/
def zeroLanes : Lanes := List.replicate 64 0

/-- mstatus after reset: MPP = M, UXL = SXL = 64 bit, FS and SD fixed at dirty (PRESUMED, log 19). -/
def Csrs.reset : Csrs where
  mstatus := 0x8000000A00007800
  mideleg := 0
  mie := 0
  mip := 0
  mtvec := 0
  mcounteren := 0
  menvcfg := 0
  mscratch := 0
  mepc := 0
  mcause := 0
  mtval := 0
  stvec := 0
  scounteren := 0
  senvcfg := 0
  sscratch := 0
  sepc := 0
  scause := 0
  stval := 0

def Ywm.reset : Ywm :=
  { qlact := false, parked := false, svc := false, cl := 2, fx := 1, gx := 4, cx := 8, mx := 4, vx := 4 }

def Rv.idle : Rv := { armed := false, owing := 0, n := 0 }

/-- An unconfigured ring (05_local_memory.md R82). -/
def Ring.none : Ring where
  configured := false
  inW := false
  base := 0
  slotB := 0
  nSlot := 0
  prod := 0
  cons := 0
  free := 0
  filled := 0
  head := 0
  tail := 0
  writing := 0
  cfgErr := false
  heldSk := Option.none
  heldVx := Option.none
  heldMx := Option.none

def FaultRec.none : FaultRec where
  fstat := 0
  prog := 0
  addr := 0
  cmd := 0
  fop := 0
  task := 0
  action := 0
  todo := 0
  vxst := 0

/-- An element with V = 0 and all flags clear. -/
def Elem.zero : Elem := { v := 0, nan := false, ninf := false, pinf := false, rng := false, inx := false }

/-- A tile at task start: auto mode, anchor 0, phase 0 (10_matrix_isa.md R218). -/
def AccTile.reset : AccTile where
  els := []
  anchor := 0
  auto := true
  phase := 0
  valid := false
  dirty := false
  inflight := Option.none

def MTile.reset : MTile := { lanes := [], valid := false, dirty := false, inflight := Option.none }

def Slot.reset : Slot := { state := .free, fmt := 0, geo := 0, data := [], side := [] }

def Shape.reset : Shape := { rows := 0, t := false, klen := 0, rstr := 0, estr := 0, eoff := 0 }

def View.reset : View := { slot := 0, sh := 0 }

/-- Each tile is 64 x 64 at task start (10_matrix_isa.md R220). -/
def Geom.reset : Geom := { rows := 64, cols := 64 }

def Binds.reset : Binds := { views := [], shapes := [], geoms := [] }

def Vx.reset : Vx where
  tiles := []
  ix := []
  preds := []
  ports := []
  q := []
  flight := []
  vcc := 0
  vxst := 0
  phase := 0
  inUse := 4
  waking := []
  run := Option.none

def Ymxst.reset : Ymxst := { cfglost := 0, gateidle := 16, nv := false, of := false, uf := false, nx := false }

def Mx.reset : Mx where
  slots := []
  binds := Binds.reset
  tiles := []
  st := Ymxst.reset
  gated := 0
  idleGated := 0
  idle := []
  run := Option.none

def Ydxst.reset : Ydxst := { first := 0, fagent := 0, zlines := 0, csat := false, uez := false }

/-- A context before any task (01_machine.md R11, 08_stoker_isa.md R152; DESIGN CHOICE/PRESUMED, logs 1, 3, 4 and 19). -/
def Ctx.reset : Ctx where
  x := []
  f := []
  pc := 0
  mode := .m
  fflags := 0
  frm := 0
  csr := Csrs.reset
  sq := []
  poison := []
  seen := []
  priors := []
  resv := Option.none
  ycls := 0
  yscope := 2
  latch := 0
  arm := 0
  ywm := Ywm.reset
  ytask := 0
  yteam := 0
  ystage := 0
  segCost := 0
  segRemain := 0
  segCount := 0
  lateDone := false
  runCount := 0
  yjoule := 0
  fa := 0
  fai := []
  ji := []
  dep := 0
  depi := 0
  ytrapinfo := 0
  yfop := 0
  ydxst := Ydxst.reset
  yqlvec := 0
  yqlepc := 0
  queueLow := false
  cycle := 0
  instret := 0
  rv := []
  recvq := []
  deque := []
  exported := false
  rings := []
  ringDecl := 0
  tokens := []
  cxPushes := 0
  nextCmd := 0
  vxq := []
  mxq := []
  cxq := []
  gxq := []
  fxq := []
  cxFocus := Option.none
  clq := []
  tagq := []
  qpos := []
  faults := []
  vx := Vx.reset
  mx := Mx.reset
  fxOutw := 64
  fxConcat := 0
  cl := { counts := [], record := [] }
  waits := []

def Binding.reset : Binding :=
  { part := 0, tmap := 0, aBase := 0, aLimit := 0, wBase := 0, wLimit := 0, codebase := 0, tcb := 0 }

def TtEnt.reset : TtEnt := { v := false, b := Binding.reset }

/-- A core at reset: halted (16_system_state.md R278). -/
def Core.reset : Core where
  ctx := Ctx.reset
  ilen := 4
  b := Binding.reset
  aBytes := []
  wBytes := []
  aTags := []
  wTags := []
  halted := true
  haltReq := true
  werr := false
  sbptr := 0
  hold := .none
  drain := false
  task := Option.none
  throttle := Option.none
  left := []
  fwd := []
  ent0 := TtEnt.reset
  ent1 := TtEnt.reset
  cur := 0
  ttWerr := false
  loadec := 0

def HostQueue.reset : HostQueue where
  base := 0
  log2n := 4
  en := false
  tail := 0
  head := 0
  err := 0
  stop := false
  stopAt := 0
  errOp := 0
  busy := []
  pre := 0
  arm := 0
  skip := 0
  graphs := []

def Part.reset : Part where
  clmask := 0
  state := 0
  tdi := 0
  root := 0
  nqAddr := 0
  pwbase := 0
  pwlim := 0
  wref := false
  nqdrop := false
  resref := false
  nqcnt := 0
  nqack := 0
  fzctl := 0
  tlbinv := 0
  queues := []

def Link.reset : Link := { orders := 0, permits := 16, queue := [] }

/-- The reset contract (17_energy.md R283). -/
def Contract.reset : Contract := { psust := 150, window := 100, tceil := 95, thscale := 7, strk := 1, costsel := false }

/-- An island at reset: core islands off, uncore islands on (24_power_bringup.md R343). -/
def Island.reset (i : Nat) : Island where
  capS := 0
  grantS := 0
  cap := 0
  grant := 0
  derate := false
  derated := false
  bucket := 0
  was := 0
  episode := Option.none
  stretched := false
  uncoreFa := 0
  uncoreJ := 0
  deposits := 0
  owed := 0
  lateEc := 0
  lateDeposits := 0
  lateOwed := 0
  cmd := if i < 128 then 0 else 1
  pstate := if i < 128 then 0 else 2
  perr := false
  regf := false
  phase := 0xF
  defer := 0
  waitOn := false
  droop := false
  overCur := false

def Damper.reset : Damper where
  staged := Contract.reset
  applied := Contract.reset
  pend := false
  pendEc := 0
  pendOld := none
  stepEc := 0
  cerr := false
  breach := false
  steps := 0
  pset := 0
  pcur := 0

def ErrBlock.reset : ErrBlock :=
  { window := 1000, thresh := 4, logovf := false, elcnt := 0, elack := 0, log := [], inj := [], tracked := [] }

def Soot.reset : Soot :=
  { ctl := 0, trbase := 0, trcnt := 0, track := 0, drop := 0, brk := [], brkpc := [], brkEc := [], latinj := [], latlen := [], sampled := 0 }

def Chimney.reset : Chimney :=
  { crcerr := 0, uplanes := 0, lstate := 0, elanes := 3, mode := 0, digrx := 0, digtx := 0 }

def Tdi.reset : Tdi := { state := .unlocked, session := false, period := 0, lastBeat := 0,
                         report := Option.none, reports := 0 }

/-- The device at reset: every field at the value the spec states, and at the value the log names where it states none. -/
def State.reset : State where
  cores := []
  mem := []
  hmem := []
  bad := []
  pend := []
  nextId := 0
  tlb := []
  parts := []
  kernels := []
  launches := []
  teams := []
  images := []
  links := []
  cache := []
  damper := Damper.reset
  islands := []
  err := ErrBlock.reset
  soot := Soot.reset
  chimney := []
  fw := { rstage := 0, rstate := 0, code := 0, fuse := Config.fusedBits, image := Option.none }
  tdis := []
  requests := []
  handles := []
  sent := []
  hdm := []
  lent := []
  msix := []
  hostUp := false
  hostRead := []
  ideDropped := 0
  up := false
  ec := 0
  time := 0
  stamp := 0
  plan := []
  cur := 0
  free := 0

end Sys2Proof.Machine
end

