-- ==== Sys2Proof/Machine/Tbl.lean ====
section
/-! DEFINITION. Sparse tables and byte memories: reading, writing in canonical form, and little-endian byte order
(03_numbers.md R48; 05_local_memory.md). -/
namespace Sys2Proof.Machine

/-- The entry at key n, `d` where none is listed. -/
def Tbl.get {α : Type} (d : α) : Tbl α → Nat → α
  | [], _ => d
  | (k, v) :: t, n => if n = k then v else Tbl.get d t n

/-- Whether an entry is listed at key n. -/
def Tbl.has {α : Type} (t : Tbl α) (n : Nat) : Bool := t.any (fun e => e.1 == n)

/-- The table without the entry at key n. -/
def Tbl.del {α : Type} (t : Tbl α) (n : Nat) : Tbl α := t.filter (fun e => e.1 != n)

/-- The entry at key n, if one is listed. -/
def Tbl.get? {α : Type} (t : Tbl α) (n : Nat) : Option α := (t.find? (fun e => e.1 == n)).map (·.2)

/-- The table with one more entry, before the first of a higher key. -/
def Tbl.ins {α : Type} : Tbl α → Nat → α → Tbl α
  | [], n, v => [(n, v)]
  | (k, w) :: t, n, v => if n < k then (n, v) :: (k, w) :: t else (k, w) :: Tbl.ins t n v

/-- The table with key n holding v, where no value is a default. -/
def Tbl.set {α : Type} (t : Tbl α) (n : Nat) (v : α) : Tbl α := (t.del n).ins n v

/-- The table with key n holding v; an entry equal to the default `d` is not listed. -/
def Tbl.put {α : Type} [DecidableEq α] (d : α) (t : Tbl α) (n : Nat) (v : α) : Tbl α :=
  if v = d then t.del n else t.set n v

/-- The keys rise strictly from `lo` on and no entry holds the default. -/
def Tbl.wfFrom {α : Type} [DecidableEq α] (d : α) : Nat → Tbl α → Bool
  | _, [] => true
  | lo, (k, v) :: t => decide (lo ≤ k) && !decide (v = d) && Tbl.wfFrom d (k + 1) t

/-- What a byte of memory that nothing has written reads as (DESIGN CHOICE, log 2). -/
def unlisted : Byte := 0

/-- The canonical form of a memory: addresses strictly rising, no entry equal to what an unlisted address reads as. -/
def Memory.wf (m : Memory) : Bool := Tbl.wfFrom unlisted 0 m

/-- The byte at address a. -/
def Memory.read (m : Memory) (a : Nat) : Byte := Tbl.get unlisted m a

/-- The memory with byte b at address a. -/
def Memory.write (m : Memory) (a : Nat) (b : Byte) : Memory := Tbl.put unlisted m a b

/-- The n bytes from address a on. -/
def Memory.readN (m : Memory) (a n : Nat) : List Byte := (List.range n).map (fun i => m.read (a + i))

/-- The memory with the bytes of bs stored from address a on. -/
def Memory.writeN (m : Memory) : Nat → List Byte → Memory
  | _, [] => m
  | a, b :: bs => Memory.writeN (m.write a b) (a + 1) bs

/-- The memory with each listed byte stored at its address. -/
def Memory.writeAll (m : Memory) : Memory → Memory
  | [] => m
  | (a, b) :: t => Memory.writeAll (m.write a b) t

/-- The bytes of bs as cells from address a on. -/
def cellsAt : Nat → List Byte → Memory
  | _, [] => []
  | a, b :: bs => (a, b) :: cellsAt (a + 1) bs

/-- The number whose little-endian bytes are bs (R48). -/
def leNat : List Byte → Nat
  | [] => 0
  | b :: bs => b.toNat + 256 * leNat bs

/-- The n little-endian bytes of v (R48). -/
def leBytes : Nat → Nat → List Byte
  | 0, _ => []
  | n + 1, v => BitVec.ofNat 8 v :: leBytes n (v / 256)

/-- Bits hi down to lo of v, as a number. -/
def bitsNat (v hi lo : Nat) : Nat := v / 2 ^ lo % 2 ^ (hi + 1 - lo)

/-- Bit i of v. -/
def bitNat (v i : Nat) : Bool := v / 2 ^ i % 2 == 1

/-- The n-bit two's complement value of v. -/
def sextNat (n v : Nat) : Int :=
  let u := v % 2 ^ n
  if u < 2 ^ (n - 1) then (u : Int) else (u : Int) - (2 ^ n : Nat)

/-- The n-bit two's complement code of x. -/
def codeInt (n : Nat) (x : Int) : Nat := (x % (2 ^ n : Nat)).toNat

/-- Replaces the entry at position k of a list. -/
def setAt {α : Type} : List α → Nat → α → List α
  | [], _, _ => []
  | _ :: t, 0, v => v :: t
  | a :: t, k + 1, v => a :: setAt t k v

/-- The list without its entry at position k. -/
def dropAt {α : Type} : List α → Nat → List α
  | [], _ => []
  | _ :: t, 0 => t
  | a :: t, k + 1 => a :: dropAt t k

/-- Whether the ranges [a, a + n) and [b, b + m) share an address. -/
def overlapR (a n b m : Nat) : Bool := decide (a < b + m) && decide (b < a + n) && decide (0 < n) && decide (0 < m)

end Sys2Proof.Machine
end

