-- ==== Sys2Proof/Machine/Flags.lean ====
section
/-! DEFINITION. The floating-point exception flags and the registers that hold them sticky (03_numbers.md R61;
09_vector_isa.md R193; 10_matrix_isa.md R209; the RISC-V fflags of 16_system_state.md R273). -/
namespace Sys2Proof.Machine

/-- The flags one operation raises (R61). -/
structure Fl where
  nv : Bool
  dz : Bool
  of : Bool
  uf : Bool
  nx : Bool
  deriving DecidableEq, Repr

/-- No flag. -/
def Fl.none : Fl := { nv := false, dz := false, of := false, uf := false, nx := false }

/-- NV alone. -/
def Fl.invalid : Fl := { Fl.none with nv := true }

/-- DZ alone. -/
def Fl.divZero : Fl := { Fl.none with dz := true }

/-- NX alone. -/
def Fl.inexact : Fl := { Fl.none with nx := true }

/-- OF and NX (R59). -/
def Fl.overflow : Fl := { Fl.none with of := true, nx := true }

/-- The flags of two operations together. -/
def Fl.or (a b : Fl) : Fl :=
  { nv := a.nv || b.nv, dz := a.dz || b.dz, of := a.of || b.of, uf := a.uf || b.uf, nx := a.nx || b.nx }

/-- The flags of a list of operations together. -/
def Fl.all : List Fl → Fl
  | [] => Fl.none
  | a :: t => a.or (Fl.all t)

/-- NV if p. -/
def Fl.nvIf (p : Bool) : Fl := if p then Fl.invalid else Fl.none

/-- The RISC-V order of the flags: NV, DZ, OF, UF, NX from bit 4 down. -/
def Fl.bits (a : Fl) : BitVec 5 :=
  BitVec.ofBool a.nv ++ BitVec.ofBool a.dz ++ BitVec.ofBool a.of ++ BitVec.ofBool a.uf ++ BitVec.ofBool a.nx

/-- `ymxst` with the flags a of a resolve added (04_accumulators.md R71, 10_matrix_isa.md R209). -/
def Ymxst.raise (st : Ymxst) (a : Fl) : Ymxst :=
  { st with nv := st.nv || a.nv, of := st.of || a.of, uf := st.uf || a.uf, nx := st.nx || a.nx }

end Sys2Proof.Machine
end

