-- ==== Sys2Proof/Machine/Num.lean ====
section
/-! DEFINITION. The number formats, scale records, decoding and rounding of 03_numbers.md (R47 to R63) and the exact
element arithmetic of 04_accumulators.md (R66 to R72). -/
namespace Sys2Proof.Machine

/-- An exact value: a NaN (signalling or quiet), an infinity, or the binary number (-1)^neg * m * 2^e (R51). -/
inductive Val where
  | nan (sig : Bool)
  | inf (neg : Bool)
  | fin (neg : Bool) (m : Nat) (e : Int)
  deriving DecidableEq, Repr

/-- The element formats (R47). -/
inductive Fmt where
  | fp32 | bf16 | fp16 | e4m3 | e5m2 | e2m3 | e3m2 | e2m1 | int32 | int16 | int8 | int4 | u8 | u4 | fp64
  deriving DecidableEq, Repr

/-- The format an FMT code names; raw, CSA-raw and reserved codes name none (R52). -/
def Fmt.ofCode (c : Nat) : Option Fmt :=
  match c with
  | 1 => some .fp32
  | 2 => some .bf16
  | 3 => some .fp16
  | 4 => some .e4m3
  | 5 => some .e5m2
  | 6 => some .e2m3
  | 7 => some .e3m2
  | 8 => some .e2m1
  | 9 => some .int8
  | 10 => some .int4
  | 11 => some .u8
  | 12 => some .u4
  | _ => none

/-- Width in bits (R47). -/
def Fmt.bits : Fmt → Nat
  | .fp32 | .int32 => 32
  | .bf16 | .fp16 | .int16 => 16
  | .e4m3 | .e5m2 | .int8 | .u8 => 8
  | .e2m3 | .e3m2 => 6
  | .e2m1 | .int4 | .u4 => 4
  | .fp64 => 64

/-- Exponent field width, mantissa width and bias (R47). -/
def Fmt.ebits : Fmt → Nat
  | .fp32 | .bf16 => 8
  | .fp16 | .e5m2 => 5
  | .e4m3 => 4
  | .e3m2 => 3
  | .e2m3 | .e2m1 => 2
  | .fp64 => 11
  | _ => 0

def Fmt.mbits : Fmt → Nat
  | .fp32 => 23
  | .bf16 => 7
  | .fp16 => 10
  | .e4m3 | .e2m3 => 3
  | .e5m2 | .e3m2 => 2
  | .e2m1 => 1
  | .fp64 => 52
  | _ => 0

def Fmt.bias : Fmt → Nat
  | .fp32 | .bf16 => 127
  | .fp16 | .e5m2 => 15
  | .e4m3 => 7
  | .e3m2 => 3
  | .e2m3 | .e2m1 => 1
  | .fp64 => 1023
  | _ => 0

/-- Whether the format is a two's complement integer, an asymmetric one, or floating. -/
def Fmt.isInt : Fmt → Bool
  | .int32 | .int16 | .int8 | .int4 => true
  | _ => false

def Fmt.isAsym : Fmt → Bool
  | .u8 | .u4 => true
  | _ => false

/-- Whether the format encodes infinities (R47). -/
def Fmt.hasInf : Fmt → Bool
  | .fp32 | .bf16 | .fp16 | .e5m2 | .fp64 => true
  | _ => false

/-- The code of the largest finite magnitude (R47). -/
def Fmt.maxCode : Fmt → Nat
  | .fp32 => 0x7F7FFFFF
  | .bf16 => 0x7F7F
  | .fp16 => 0x7BFF
  | .e4m3 => 0x7E
  | .e5m2 => 0x7B
  | .e2m3 | .e3m2 => 0x1F
  | .e2m1 => 0x7
  | .fp64 => 0x7FEFFFFFFFFFFFFF
  | .int32 => 2 ^ 31 - 1
  | .int16 => 2 ^ 15 - 1
  | .int8 => 2 ^ 7 - 1
  | .int4 => 2 ^ 3 - 1
  | .u8 => 255
  | .u4 => 15

/-- The canonical NaN of a floating format; the formats without one give +0 (R60). -/
def Fmt.nanCode : Fmt → Nat
  | .fp32 => 0x7FC00000
  | .bf16 => 0x7FC0
  | .fp16 => 0x7E00
  | .e5m2 => 0x7E
  | .e4m3 => 0x7F
  | .fp64 => 0x7FF8000000000000
  | _ => 0

/-- The exponent of the smallest normal (R47, R56). -/
def Fmt.emin (f : Fmt) : Int := 1 - (f.bias : Int)

/-- The sign bit of a floating format, if s. -/
def Fmt.signed (f : Fmt) (s : Bool) (c : Nat) : Nat := if s then 2 ^ (f.bits - 1) + c else c

/-- Decode (R51): the exact value of one element before any scale. -/
def decodeEl (f : Fmt) (b : Nat) : Val :=
  let b := b % 2 ^ f.bits
  if f.isInt then
    let v := sextNat f.bits b
    .fin (v < 0) v.natAbs 0
  else if f.isAsym then .fin false b 0
  else
    let m := b % 2 ^ f.mbits
    let e := b / 2 ^ f.mbits % 2 ^ f.ebits
    let s := bitNat b (f.bits - 1)
    let ones := 2 ^ f.ebits - 1
    if e = ones ∧ f.hasInf then
      if m = 0 then .inf s else .nan (!bitNat m (f.mbits - 1))
    else if f = .e4m3 ∧ e = ones ∧ m = 7 then .nan false
    else if e = 0 then .fin s m (1 - (f.bias : Int) - f.mbits)
    else .fin s (2 ^ f.mbits + m) ((e : Int) - f.bias - f.mbits)

/-- The value of an E8M0 code (R50). -/
def e8m0 (c : Nat) : Val := if c = 0xFF then .nan false else .fin false 1 ((c : Int) - 127)

/-! ### Exact arithmetic -/

/-- Whether a value is zero, a NaN, an infinity, signalling. -/
def Val.isZero : Val → Bool
  | .fin _ m _ => m == 0
  | _ => false

def Val.isNan : Val → Bool
  | .nan _ => true
  | _ => false

def Val.isInf : Val → Bool
  | .inf _ => true
  | _ => false

def Val.isSig : Val → Bool
  | .nan s => s
  | _ => false

/-- The sign of a value; a NaN has none. -/
def Val.neg? : Val → Bool
  | .nan _ => false
  | .inf s => s
  | .fin s _ _ => s

/-- The negation of a value. -/
def Val.negate : Val → Val
  | .nan s => .nan s
  | .inf s => .inf (!s)
  | .fin s m e => .fin (!s) m e

/-- The value with sign s. -/
def Val.withSign (s : Bool) : Val → Val
  | .nan q => .nan q
  | .inf _ => .inf s
  | .fin _ m e => .fin s m e

/-- The exact product; infinity times zero is a NaN (R67). -/
def Val.mul : Val → Val → Val
  | .nan _, _ => .nan false
  | _, .nan _ => .nan false
  | .inf s, .inf t => .inf (s != t)
  | .inf s, .fin t m _ => if m = 0 then .nan false else .inf (s != t)
  | .fin s m _, .inf t => if m = 0 then .nan false else .inf (s != t)
  | .fin s m e, .fin t n d => .fin (s != t) (m * n) (e + d)

/-- The value times 2^k. -/
def Val.scale (k : Int) : Val → Val
  | .fin s m e => .fin s m (e + k)
  | v => v

/-- Signed integer of a finite value at exponent e0 ≤ e. -/
def Val.intAt (e0 : Int) : Val → Int
  | .fin s m e => let v : Int := ((m * 2 ^ (e - e0).toNat : Nat) : Int); if s then -v else v
  | _ => 0

/-- The exponent of a finite value. -/
def Val.exp : Val → Int
  | .fin _ _ e => e
  | _ => 0

/-- The integer n times 2^e. -/
def Val.ofInt (n : Int) (e : Int) : Val := .fin (n < 0) n.natAbs e

/-- The exact sum; opposite infinities give a NaN. An exact zero is +0, or -0 if `down`; two zeros of equal sign keep
it (09_vector_isa.md R186). -/
def Val.add (down : Bool) : Val → Val → Val
  | .nan _, _ => .nan false
  | _, .nan _ => .nan false
  | .inf s, .inf t => if s = t then .inf s else .nan false
  | .inf s, .fin _ _ _ => .inf s
  | .fin _ _ _, .inf t => .inf t
  | .fin s m e, .fin t n d =>
    let e0 := min e d
    let v := (Val.fin s m e).intAt e0 + (Val.fin t n d).intAt e0
    if v = 0 then .fin (if m = 0 ∧ n = 0 ∧ s = t then s else down) 0 0 else Val.ofInt v e0

/-- Exact comparison: less, equal, greater; none when a value is a NaN. Zeros of either sign are equal. -/
def Val.cmp (a b : Val) : Option Ordering :=
  match a, b with
  | .nan _, _ => none
  | _, .nan _ => none
  | .inf s, .inf t => some (if s = t then .eq else if s then .lt else .gt)
  | .inf s, .fin _ _ _ => some (if s then .lt else .gt)
  | .fin _ _ _, .inf t => some (if t then .gt else .lt)
  | .fin s m e, .fin t n d =>
    let e0 := min e d
    let v := (Val.fin s m e).intAt e0 - (Val.fin t n d).intAt e0
    some (if v < 0 then .lt else if v = 0 then .eq else .gt)

/-- The floor of v * 2^-k for a finite v, and whether bits were lost. -/
def Val.floorAt (k : Int) (v : Val) : Int × Bool :=
  match v with
  | .fin s m e =>
    let n : Int := if s then -(m : Int) else (m : Int)
    if k ≤ e then (n * (2 ^ (e - k).toNat : Nat), false)
    else let d : Nat := 2 ^ (k - e).toNat
         (n / (d : Int), m % d != 0)
  | _ => (0, false)

/-! ### Rounding -/

/-- The rounding modes of R55, DITH with its threshold in eighths (R57), and the RISC-V mode RMM (to nearest, ties away). -/
inductive Rm where
  | rne | rtz | rdn | rup
  | dith (thr : Nat)
  | rmm
  deriving DecidableEq, Repr

/-- The dither thresholds P in eighths (R57). -/
def ditherP (k : Nat) : Nat := [0, 4, 2, 6, 1, 5, 3, 7].getD (k % 8) 0

/-- The mode a field names at position j under a phase (R55, R57). -/
def Rm.ofField (m : BitVec 3) (j phase : Nat) : Rm :=
  match m.toNat with
  | 1 => .rtz
  | 2 => .rdn
  | 3 => .rup
  | 4 => .dith (ditherP (j + phase))
  | _ => .rne

/-- Whether an exact zero difference is -0 (09_vector_isa.md R186). -/
def Rm.down : Rm → Bool
  | .rdn => true
  | _ => false

/-- The magnitude of the integer that t = (-1)^neg * num / den rounds to. -/
def roundMag (mode : Rm) (neg : Bool) (num den : Nat) : Nat :=
  let f := num / den
  let r := num % den
  match mode with
  | .rne => if 2 * r > den ∨ (2 * r = den ∧ f % 2 = 1) then f + 1 else f
  | .rmm => if 2 * r ≥ den then f + 1 else f
  | .rtz => f
  | .rdn => if neg ∧ r ≠ 0 then f + 1 else f
  | .rup => if ¬neg ∧ r ≠ 0 then f + 1 else f
  | .dith thr =>
    if neg then (8 * num - thr * den + 8 * den - 1) / (8 * den)
    else (8 * num + thr * den) / (8 * den)

/-- floor(log2(num / den)) of a positive quotient. -/
def log2Q (num den : Nat) : Int :=
  let k : Int := (Nat.log2 num : Int) - (Nat.log2 den : Int)
  let lt : Bool := if 0 ≤ k then num < den * 2 ^ k.toNat else num * 2 ^ (-k).toNat < den
  if lt then k - 1 else k

/-- The quotient num / den times 2^k, as a quotient. -/
def shiftQ (num den : Nat) (k : Int) : Nat × Nat :=
  if 0 ≤ k then (num * 2 ^ k.toNat, den) else (num, den * 2 ^ (-k).toNat)

/-- Zero (R58). -/
def zeroOf (f : Fmt) (s : Bool) : Nat := if f.isInt || f.isAsym then 0 else f.signed s 0

/-- What an overflow gives for a floating format (R59). -/
def overflowOf (f : Fmt) (mode : Rm) (novf s : Bool) : Nat × Fl :=
  let code :=
    if f.hasInf then
      let inf := f.signed s (2 ^ (f.ebits + f.mbits) - 2 ^ f.mbits)
      let top := f.signed s f.maxCode
      match mode with
      | .rtz => top
      | .rdn => if s then inf else top
      | .rup => if s then top else inf
      | _ => inf
    else if f = .e4m3 ∧ novf then f.signed s 0x7F
    else f.signed s f.maxCode
  (code, Fl.overflow)

/-- InfConvert (R60): an infinity into E4M3 under NOVF gives the NaN of R59, with its flags (DEDUCED, log 25). -/
def infConvert (f : Fmt) (novf s : Bool) : Nat × Fl :=
  if f.isInt then (if s then 2 ^ (f.bits - 1) else f.maxCode, Fl.invalid)
  else if f.hasInf then (f.signed s (2 ^ (f.ebits + f.mbits) - 2 ^ f.mbits), Fl.none)
  else overflowOf f .rne novf s

/-- What a NaN converts to (R60). -/
def nanConvert (f : Fmt) (sig : Bool) : Nat × Fl :=
  match f with
  | .fp32 | .bf16 | .fp16 | .e5m2 | .e4m3 | .fp64 => (f.nanCode, Fl.nvIf sig)
  | _ => (0, Fl.invalid)

/-- The code a nonzero quotient rounds to in a floating or integer format (R56, R59). -/
def roundQ (f : Fmt) (mode : Rm) (novf s : Bool) (num den : Nat) : Nat × Fl :=
  if f.isInt then
    let q := roundMag mode s num den
    let lim := if s then 2 ^ (f.bits - 1) else 2 ^ (f.bits - 1) - 1
    if q > lim then (if s then 2 ^ (f.bits - 1) else f.maxCode, Fl.invalid)
    else (codeInt f.bits (if s then -(q : Int) else q), if q * den = num then Fl.none else Fl.inexact)
  else
    let ex := max (log2Q num den) f.emin
    let t := shiftQ num den ((f.mbits : Int) - ex)
    let q := roundMag mode s t.1 t.2
    let code := (ex - f.emin).toNat * 2 ^ f.mbits + q
    if code > f.maxCode then overflowOf f mode novf s
    else
      let exact := q * t.2 = t.1
      (if q = 0 then zeroOf f s else f.signed s code,
        if exact then Fl.none else { Fl.inexact with uf := log2Q num den < f.emin })

/-- RoundTo (R56) for a floating or integer format: the code and the flags. -/
def roundTo (f : Fmt) (mode : Rm) (novf : Bool) (v : Val) : Nat × Fl :=
  match v with
  | .nan sig => nanConvert f sig
  | .inf s => infConvert f novf s
  | .fin s m e =>
    if m = 0 then (zeroOf f s, Fl.none)
    else let t := shiftQ m 1 e; roundQ f mode novf s t.1 t.2

/-- Conversion into an asymmetric format with scale code sc and zero point z (R63, R60; DEDUCED, log 91). -/
def roundAsym (f : Fmt) (mode : Rm) (sc z : Nat) (v : Val) : Nat × Fl :=
  let qmax := f.maxCode
  match decodeEl .fp16 sc with
  | .fin false sm se =>
    if sm < 2 ^ 10 then (z, Fl.invalid)
    else
      match v with
      | .nan _ => (z, Fl.invalid)
      | .inf s => (if s then 0 else qmax, Fl.invalid)
      | .fin s m e =>
        if m = 0 then (z, Fl.none)
        else
          let t := shiftQ m sm (e - se)
          let r := roundMag mode s t.1 t.2
          let q : Int := (z : Int) + (if s then -(r : Int) else r)
          if q < 0 then (0, Fl.invalid) else if q > qmax then (qmax, Fl.invalid)
          else (q.toNat, if r * t.2 = t.1 then Fl.none else Fl.inexact)
  | _ => (z, Fl.invalid)

/-! ### Scales and geometries -/

/-- Whether FMT and GEO form a combination that decodes elements (R52); raw and CSA-raw do not. -/
def tagDecodes (fmt geo : Nat) : Bool :=
  (fmt == 1 || fmt == 2 || fmt == 3 || fmt == 10) && geo == 0
  || (4 ≤ fmt && fmt ≤ 9) && geo ≤ 2
  || (fmt == 11 || fmt == 12) && 3 ≤ geo && geo ≤ 5

/-- Whether FMT and GEO form a combination of the table of R52. -/
def tagAllowed (fmt geo : Nat) : Bool := tagDecodes fmt geo || (fmt == 0 || fmt == 13) && geo == 0

/-- Elements of a block or group under a GEO code; 0 where there is none. -/
def geoBlock (geo : Nat) : Nat :=
  match geo with
  | 1 => 8
  | 2 => 32
  | 3 => 32
  | 4 => 64
  | 5 => 128
  | _ => 0

/-- Bytes of a scale record (R53). -/
def geoRecord (geo : Nat) : Nat := if geo = 1 ∨ geo = 2 then 1 else if 3 ≤ geo ∧ geo ≤ 5 then 3 else 0

/-- Elements of one granule, and the offset of its scale records (R53). -/
def granuleElems (f : Fmt) (geo : Nat) : Nat :=
  let n := geoBlock geo
  if n = 0 then 4096 * 8 / f.bits else 4096 / (n * f.bits / 8 + geoRecord geo) * n

def granuleScales (f : Fmt) (geo : Nat) : Nat := granuleElems f geo * f.bits / 8

/-- DecodeScaled (R54). `r` is the scale record as a number. Where d = 0 the zero has the sign of sc, and a NaN scale, quiet or
signalling, decodes to a quiet NaN (DESIGN CHOICE, log 134). -/
def decodeScaled (f : Fmt) (geo b r : Nat) : Val :=
  if geo = 1 ∨ geo = 2 then
    if r % 256 = 0xFF then .nan false
    else
      let v := decodeEl f b
      let v := if f = .int8 then v.scale (-6) else v
      v.scale ((r % 256 : Nat) - 127)
  else if 3 ≤ geo ∧ geo ≤ 5 then
    let z := if f = .u4 then bitsNat r 19 16 else bitsNat r 23 16
    let d : Int := (b % 2 ^ f.bits : Nat) - (z : Int)
    match decodeEl .fp16 (r % 65536) with
    | .nan _ => .nan false
    | .inf s => if d = 0 then .nan false else .inf (s != decide (d < 0))
    | .fin s m e => .fin (s != decide (d < 0)) (m * d.natAbs) e
  else decodeEl f b

/-- EMAX of PackScale (R62). -/
def packEmax : Fmt → Int
  | .e4m3 => 8
  | .e5m2 => 15
  | .e2m3 => 2
  | .e3m2 => 4
  | .e2m1 => 2
  | _ => 0

/-- floor(log2 |v|) of a nonzero finite value. -/
def Val.log2 : Val → Int
  | .fin _ m e => (Nat.log2 m : Int) + e
  | _ => 0

/-- PackScale (R62). -/
def packScale (f : Fmt) (xs : List Val) : Nat :=
  if xs.any (fun v => v.isNan || v.isInf) then 0xFF
  else
    let ys := xs.filter (fun v => !v.isZero)
    match ys with
    | [] => 0
    | y :: t =>
      let x := (t.foldl (fun a v => max a v.log2) y.log2) - packEmax f
      (min (max x (-127)) 127 + 127).toNat

/-- Packs codes of b bits each, element 0 in the low bits (R48, 09_vector_isa.md R191). -/
def packCodes (b : Nat) : List Nat → Nat
  | [] => 0
  | c :: t => c % 2 ^ b + 2 ^ b * packCodes b t

/-! ### Accumulator elements (04_accumulators.md) -/

/-- x modulo 2^66 as a two's complement number (R66). -/
def wrap66 (x : Int) : Int := sextNat 66 (codeInt 66 x)

/-- Whether x lies outside the window (R67). -/
def outWindow (x : Int) : Bool := decide (x < -(2 ^ 65 : Nat)) || decide (x ≥ (2 ^ 65 : Nat))

/-- Product (R67). -/
def product (a b : Val) (neg : Bool) : Val := let p := a.mul b; if neg then p.negate else p

/-- CsaAdd (R67): element e of a tile with anchor A, with p added. -/
def csaAdd (anchor : Int) (e : Elem) (p : Val) : Elem :=
  match p with
  | .nan _ => { e with nan := true }
  | .inf s => if s then { e with ninf := true } else { e with pinf := true }
  | .fin s m x =>
    let k := (Val.fin s m x).floorAt (anchor - 48)
    let y := e.v + k.1
    { e with v := wrap66 y, inx := e.inx || k.2, rng := e.rng || outWindow y }

/-- An element rescaled from anchor A to anchor A' (R70). -/
def rescaleElem (a a' : Int) (e : Elem) : Elem :=
  let k := (Val.ofInt e.v 0).floorAt (a' - a)
  { e with v := wrap66 k.1, inx := e.inx || k.2, rng := e.rng || outWindow k.1 }

/-- The sum of two elements of a collective reduction (R76). -/
def addElem (a b : Elem) : Elem :=
  { v := a.v + b.v, nan := a.nan || b.nan, ninf := a.ninf || b.ninf, pinf := a.pinf || b.pinf,
    rng := a.rng || b.rng, inx := a.inx || b.inx }

/-- A reduced element brought into the window (R76). -/
def settleElem (a : Elem) : Elem := { a with v := wrap66 a.v, rng := a.rng || outWindow a.v }

/-- The exact value a resolve rounds (R71): NaN for NAN, RNG or both infinities. -/
def elemVal (anchor : Int) (e : Elem) : Val :=
  if e.nan || (e.pinf && e.ninf) || e.rng then .nan false
  else if e.pinf then .inf false
  else if e.ninf then .inf true
  else Val.ofInt e.v (anchor - 48)

/-- Resolve (R71): the code and the flags. -/
def resolveElem (anchor : Int) (f : Fmt) (mode : Rm) (novf : Bool) (e : Elem) : Nat × Fl :=
  if e.nan || (e.pinf && e.ninf) then (f.nanCode, Fl.invalid)
  else if e.rng then (f.nanCode, { Fl.invalid with of := true })
  else if e.pinf then infConvert f novf false
  else if e.ninf then infConvert f novf true
  else
    let r := roundTo f mode novf (Val.ofInt e.v (anchor - 48))
    (r.1, if e.inx then r.2.or Fl.inexact else r.2)

/-- Resolve to self (R72): the element written back, and the flags. A result that is no multiple of the resolution, as the
largest finite value under RTZ, RDN or RUP at a large anchor, leaves its floor (DESIGN CHOICE, log 136). -/
def resolveSelf (anchor : Int) (mode : Rm) (e : Elem) : Elem × Fl :=
  let r := resolveElem anchor .fp32 mode false e
  let inx := e.inx || r.2.nx
  match decodeEl .fp32 r.1 with
  | .nan _ => ({ Elem.zero with nan := true, inx := inx }, r.2)
  | .inf s => ({ Elem.zero with ninf := s, pinf := !s, inx := inx }, r.2)
  | v =>
    let k := v.floorAt (anchor - 48)
    ({ Elem.zero with v := wrap66 k.1, rng := outWindow k.1, inx := inx }, r.2)

/-- The 18 bytes of an element in canonical raw form (R65, R66). -/
def elemBytes (e : Elem) : List Byte :=
  let b := fun (p : Bool) (k : Nat) => if p then 2 ^ k else 0
  leBytes 18 (codeInt 66 e.v + b e.inx 132 + b e.rng 133 + b e.pinf 134 + b e.ninf 135 + b e.nan 136)

/-- The element that 18 bytes hold; any split of V between S and C is read (R65, R66). -/
def elemOf (bs : List Byte) : Elem :=
  let w := leNat bs
  { v := wrap66 (((bitsNat w 65 0 + bitsNat w 131 66 : Nat)) : Int), inx := bitNat w 132, rng := bitNat w 133,
    pinf := bitNat w 134, ninf := bitNat w 135, nan := bitNat w 136 }

end Sys2Proof.Machine
end

