-- ==== Sys2Proof/Machine/Base.lean ====
section
/-! DEFINITION. Reading and updating the parts of the state: cores, contexts, registers, engine queues, islands and
partitions. Every register has one reader and one writer here. -/
namespace Sys2Proof.Machine

/-- What a step answers. -/
abbrev Res := Host.Outcome State Fault Refusal

/-- A write by the host to a BAR 0 window has the effect t once bring-up is done; before, the windows are not exposed
(23_host_links_security.md R342, 24_power_bringup.md R349). -/
def State.atHost (s t : State) : Res := if s.up then .next t else .next s

/-! ### Cores and contexts -/

def State.core (s : State) (c : Nat) : Core := Tbl.get Core.reset s.cores c

def State.setCore (s : State) (c : Nat) (k : Core) : State := { s with cores := Tbl.put Core.reset s.cores c k }

def State.modCore (s : State) (c : Nat) (f : Core → Core) : State := s.setCore c (f (s.core c))

/-- The engines and the Stoker's accesses of a core advance (01_machine.md R10, 19_scheduling.md R303). -/
def Core.enginesRun (k : Core) : Bool := !k.halted && (k.hold == .none || k.hold == .retiring || k.hold == .switching)

/-- The context on core c. -/
def State.ctx (s : State) (c : Nat) : Ctx := (s.core c).ctx

def State.modCtx (s : State) (c : Nat) (f : Ctx → Ctx) : State := s.modCore c fun k => { k with ctx := f k.ctx }

/-- The core that acts. -/
def State.me (s : State) : Core := s.core s.cur

/-- The context that acts. -/
def State.my (s : State) : Ctx := s.me.ctx

def State.upd (s : State) (f : Ctx → Ctx) : State := s.modCtx s.cur f

/-! ### Registers -/

/-- x0 reads zero. -/
def Ctx.getX (c : Ctx) (r : Reg) : Word := if r = 0 then 0 else Tbl.get 0 c.x r.toNat

/-- A write of x0 is discarded; a write lifts the mark of an earlier uncorrectable load. -/
def Ctx.setX (c : Ctx) (r : Reg) (v : Word) : Ctx :=
  if r = 0 then c
  else { c with x := Tbl.put 0 c.x r.toNat v, poison := c.poison.filter (fun p => p.1 != .x r) }

def Ctx.getF (c : Ctx) (r : Reg) : Word := Tbl.get 0 c.f r.toNat

def Ctx.setF (c : Ctx) (r : Reg) (v : Word) : Ctx :=
  { c with f := Tbl.put 0 c.f r.toNat v, poison := c.poison.filter (fun p => p.1 != .f r) }

/-- An x register as a destination: none for x0. -/
def destX (r : Reg) : Dest := if r = 0 then .none else .x r

/-- The value v written to a destination (08_stoker_isa.md R149). -/
def Ctx.land (c : Ctx) (d : Dest) (v : Word) : Ctx :=
  match d with
  | .none => c
  | .x r => c.setX r v
  | .f r => c.setF r v

/-- Whether an asynchronous instruction still owes the register (R149). -/
def Ctx.pending (c : Ctx) (d : Dest) : Bool :=
  match d with
  | .none => false
  | _ => c.sq.any (fun e => e.dest == d)

/-- The address a register's uncorrectable load left, if it has one (R149; DEDUCED, log 32). -/
def Ctx.poisoned (c : Ctx) (d : Dest) : Option Word := (c.poison.find? (fun p => p.1 == d)).map (·.2)

/-! ### Identity (01_machine.md R8) -/

def Ctx.taskNo (c : Ctx) : Nat := bitsNat c.ytask.toNat 19 0

def Ctx.member (c : Ctx) : Nat := bitsNat c.yteam.toNat 3 0

def Ctx.teamSize (c : Ctx) : Nat := 2 ^ bitsNat c.yteam.toNat 6 4

/-- The core of member m under a team map (16_system_state.md R274). -/
def mapCore (tmap : Word) (cluster m : Nat) : Nat := 16 * cluster + bitsNat tmap.toNat (4 * m + 3) (4 * m)

/-! ### Engine queues (01_machine.md R6) -/

/-- The queue of an engine; the tag writer's under `sk`. -/
def Ctx.queue (c : Ctx) (a : Agent) : List Entry :=
  match a with
  | .sk => c.tagq
  | .vx => c.vxq
  | .mx => c.mxq
  | .cx => c.cxq
  | .gx => c.gxq
  | .fx => c.fxq
  | .cl => c.clq

def Ctx.setQueue (c : Ctx) (a : Agent) (q : List Entry) : Ctx :=
  match a with
  | .sk => { c with tagq := q }
  | .vx => { c with vxq := q }
  | .mx => { c with mxq := q }
  | .cx => { c with cxq := q }
  | .gx => { c with gxq := q }
  | .fx => { c with fxq := q }
  | .cl => { c with clq := q }

/-- Queue depths (R6); the tag writer has none. -/
def queueDepth (a : Agent) : Nat :=
  match a with
  | .sk => 64
  | .vx => 32
  | .mx => 32
  | .cx => 64
  | .gx => 32
  | .fx => 8
  | .cl => 16

def allAgents : List Agent := [.sk, .vx, .mx, .cx, .gx, .fx, .cl]

/-- Every engine entry that has not retired. -/
def Ctx.entries (c : Ctx) : List Entry := c.vxq ++ c.mxq ++ c.cxq ++ c.gxq ++ c.fxq ++ c.clq ++ c.tagq

/-- The entry with this identity, and its queue. -/
def Ctx.entry? (c : Ctx) (a : Agent) (id : Nat) : Option Entry := (c.queue a).find? (fun e => e.id == id)

/-- The entry with this identity replaced. -/
def Ctx.modEntry (c : Ctx) (a : Agent) (id : Nat) (f : Entry → Entry) : Ctx :=
  c.setQueue a ((c.queue a).map fun e => if e.id = id then f e else e)

/-- Scoreboard entries held (05_local_memory.md R87). -/
def Ctx.scored (c : Ctx) : Nat := (c.entries.filter (·.scored)).length

/-- The fault record of an agent, and whether it is valid (20_translation_faults.md R312). -/
def Ctx.fault (c : Ctx) (a : Agent) : FaultRec := Tbl.get FaultRec.none c.faults a.code

def FaultRec.valid (r : FaultRec) : Bool := r.fstat.getLsbD 63

/-- Whether an agent is stopped by a fault, whose action has not been carried out. -/
def Ctx.stopped (c : Ctx) (a : Agent) : Bool := (c.fault a).valid || (c.fault a).todo != 0

def Ctx.setFault (c : Ctx) (a : Agent) (r : FaultRec) : Ctx :=
  { c with faults := Tbl.put FaultRec.none c.faults a.code r }

def Ctx.ring (c : Ctx) (n : Nat) : Ring := Tbl.get Ring.none c.rings n

def Ctx.setRing (c : Ctx) (n : Nat) (r : Ring) : Ctx := { c with rings := Tbl.put Ring.none c.rings n r }

/-- An event latch bit set (08_stoker_isa.md R153). -/
def Ctx.event (c : Ctx) (k : Nat) : Ctx := { c with latch := c.latch ||| BitVec.ofNat 16 (2 ^ k) }

/-! ### Device parts -/

def State.part (s : State) (p : Nat) : Part := Tbl.get Part.reset s.parts p

def State.modPart (s : State) (p : Nat) (f : Part → Part) : State :=
  { s with parts := Tbl.put Part.reset s.parts p (f (s.part p)) }

def State.island (s : State) (i : Nat) : Island := Tbl.get (Island.reset i) s.islands i

def State.modIsland (s : State) (i : Nat) (f : Island → Island) : State :=
  { s with islands := Tbl.put (Island.reset i) s.islands i (f (s.island i)) }

def State.port (s : State) (n : Nat) : Chimney := Tbl.get Chimney.reset s.chimney n

def State.modPort (s : State) (n : Nat) (f : Chimney → Chimney) : State :=
  { s with chimney := Tbl.put Chimney.reset s.chimney n (f (s.port n)) }

def State.tdi (s : State) (n : Nat) : Tdi := Tbl.get Tdi.reset s.tdis n

def State.modTdi (s : State) (n : Nat) (f : Tdi → Tdi) : State :=
  { s with tdis := Tbl.put Tdi.reset s.tdis n (f (s.tdi n)) }

def State.link (s : State) (k : Nat) : Link := Tbl.get Link.reset s.links k

def State.modLink (s : State) (k : Nat) (f : Link → Link) : State :=
  { s with links := Tbl.put Link.reset s.links k (f (s.link k)) }

/-- A team's entry replaced, where it exists. -/
def State.modTeam (s : State) (t : Nat) (f : Team → Team) : State :=
  match Tbl.get? s.teams t with
  | some x => { s with teams := Tbl.set s.teams t (f x) }
  | none => s

/-- A launch's entry replaced, where it exists. -/
def State.modLaunch (s : State) (l : Nat) (f : Launch → Launch) : State :=
  match Tbl.get? s.launches l with
  | some x => { s with launches := Tbl.set s.launches l (f x) }
  | none => s

def State.queue (s : State) (p q : Nat) : HostQueue := Tbl.get HostQueue.reset (s.part p).queues q

def State.modQueue (s : State) (p q : Nat) (f : HostQueue → HostQueue) : State :=
  s.modPart p fun x => { x with queues := Tbl.put HostQueue.reset x.queues q (f (Tbl.get HostQueue.reset x.queues q)) }

/-- A port carries the fabric: collective transport, and up (23_host_links_security.md R337). -/
def State.fabricUp (s : State) : Bool := [0, 1].any fun n => (s.port n).mode == 1 && (s.port n).lstate == 2

/-- A write of a partition's window is refused (16_system_state.md R279). -/
def State.refusePart (s : State) (p : Nat) : State := s.modPart p fun x => { x with wref := true }

/-- Whether the partition's interface refuses every write of its window (23_host_links_security.md R335). -/
def State.windowLocked (s : State) (p : Nat) : Bool :=
  (s.part p).tdi != 0 && (s.tdi (s.part p).tdi.toNat).state == .locked

/-- A write of partition p's window with the effect t, unless its interface refuses it. -/
def State.atWindow (s : State) (p : Nat) (t : State) : Res := s.atHost (if s.windowLocked p then s.refusePart p else t)

/-- A message-signalled interrupt raised (DESIGN CHOICE, log 98). -/
def State.raiseMsix (s : State) (v : Nat) : State := { s with msix := s.msix ++ [v] }

/-- The next free value (DESIGN CHOICE, log 10). -/
def State.takeFree (s : State) : Word × State := (Config.freeWord s.free, { s with free := s.free + 1 })

/-! ### Metering (17_energy.md R288, R289) -/

/-- The cost in force of event q, in 1/64 mBU. -/
def State.cost (s : State) (q : Nat) : Nat :=
  if s.damper.applied.costsel then Config.nominalCost q else Config.calibratedCost q

/-- e units of energy, metered on island i. -/
def Ctx.charge (x : Ctx) (i e : Nat) : Ctx := { x with fa := x.fa + e, fai := Tbl.put 0 x.fai i (Tbl.get 0 x.fai i + e) }

/-- n events of kind q charged to the task on core c, on that core's island; a core without a task meters nothing (DEDUCED, log 56). -/
def State.meter (s : State) (c q n : Nat) : State :=
  if (s.core c).task.isNone || n == 0 then s
  else s.modCtx c fun x => x.charge c (n * s.cost q)

/-- Energy of service cores, Preheater and Soot, charged to an uncore island. -/
def State.meterUncore (s : State) (i q n : Nat) : State :=
  s.modIsland i fun x => { x with uncoreFa := x.uncoreFa + n * s.cost q }

/-- The entry is a marker of `sk.mark` (05_local_memory.md R94). -/
def Entry.isMarker (e : Entry) : Bool :=
  match e.cmd with
  | .marker _ _ => true
  | _ => false

/-- The position of an agent (25_debug.md R350, R351): RETIRED for the Stoker, else the QPOS of its queue's head, the first
entry that has not started; a held copy and a command that stopped have (06_ordering.md R101; 20_translation_faults.md
R313). -/
def Ctx.position (x : Ctx) (a : Agent) : Nat :=
  match a with
  | .sk => x.instret % 2 ^ 32
  | _ =>
    match (x.queue a).find? (fun e => !e.started && !e.begun) with
    | some e => e.qpos
    | none => Tbl.get 0 x.qpos a.code

/-- The position of the entry, or instruction, with which an agent waits: VX and MX also wait inside a run they have
started (R353). -/
def Ctx.waiter (x : Ctx) (a : Agent) : Nat :=
  let run := ((x.queue a).find? fun e => !e.complete && !e.isMarker).map (·.qpos)
  match a with
  | .vx => run.getD (x.position a)
  | .mx => run.getD (x.position a)
  | _ => x.position a

/-- Agent a waits at position `at'` on a flag that an agent of a core is to set; kept for Soot from its first ec on
(25_debug.md R353; DEDUCED, log 40). -/
def State.noteWaitAt (s : State) (c : Nat) (a : Agent) (at' flag : Nat) (num : BitVec 32) (setter setterCore : Nat) : State :=
  let old := (s.ctx c).waits.find? fun w => w.agent == a.code
  let w : Wait := { agent := a.code, qpos := at', flag := flag, num := num, since := (old.map (·.since)).getD s.ec,
                    setter := setter, setterCore := setterCore }
  s.modCtx c fun x => { x with waits := (x.waits.filter fun y => y.agent != a.code) ++ [w] }

/-- The Stoker, VX or MX waits where it stands. -/
def State.noteWait (s : State) (c : Nat) (a : Agent) (flag : Nat) (num : BitVec 32) (setter setterCore : Nat) : State :=
  s.noteWaitAt c a ((s.ctx c).waiter a) flag num setter setterCore

/-- The flag number a record holds: none is given for a full queue or scoreboard, whose wait keeps the engine pushed to
(R353). -/
def Wait.number (w : Wait) : Nat := if w.flag = 10 then 0 else w.num.toNat

end Sys2Proof.Machine
end

