-- ==== Sys2Proof/Machine/Ops.lean ====
section
/-! DEFINITION. The named operations over memory, ordering, translation, errors and traps, which the meanings of the
instructions share: the ordering machine of 06_ordering.md (R97 to R113), translation (20_translation_faults.md R307 to
R310, R315), error logging (R318 to R320), notifications (R317), taking an exception and returning from one
(16_system_state.md R273). -/
namespace Sys2Proof.Machine

/-! ### The ordering machine: agents, scopes, visibility -/

/-- The narrowest scope two agents share, as a code (R98). -/
def sharedScope : Actor → Actor → Nat
  | .host, _ => 4
  | _, .host => 4
  | .peer, _ => 3
  | _, .peer => 3
  | .service, _ => 2
  | _, .service => 2
  | .core c _, .core d _ => if c = d then 0 else if c / 16 = d / 16 then 1 else 2

/-- A write is visible to an agent when it is visible at the narrowest scope they share (R102). -/
def Wr.visibleTo (w : Wr) (q : Actor) : Bool := decide (sharedScope q w.actor ≤ w.scope)

/-- A write is visible to every agent of the s-domain around q. -/
def Wr.visibleAt (w : Wr) (q : Actor) (sc : Nat) : Bool := decide (max sc (sharedScope q w.actor) ≤ w.scope)

/-- The byte a list of cells holds for an address. -/
def cellAt (m : Memory) (a : Nat) : Option Byte := (m.find? (fun e => e.1 == a)).map (·.2)

/-- The write a read of a byte by q returns: the latest in coherence order among those visible at `need` (R102). -/
def State.writeSeen (s : State) (q : Actor) (need : Nat) (inHost : Bool) (a : Nat) : Option Wr :=
  (s.pend.filter fun w => w.inHost == inHost && w.visibleAt q need && (cellAt w.cells a).isSome).getLast?

/-- The byte a read by q at `need` returns (R102). -/
def State.readByte (s : State) (q : Actor) (need : Nat) (inHost : Bool) (a : Nat) : Byte :=
  match s.writeSeen q need inHost a with
  | some w => (cellAt w.cells a).getD 0
  | none => if inHost then s.hmem.read a else s.mem.read a

def State.readGlobal (s : State) (q : Actor) (need : Nat) (inHost : Bool) (a n : Nat) : List Byte :=
  (List.range n).map fun i => s.readByte q need inHost (a + i)

/-- The identities of the writes a read returns that are not yet visible to every agent. -/
def State.readIds (s : State) (q : Actor) (need : Nat) (inHost : Bool) (a n : Nat) : List Nat :=
  ((List.range n).filterMap fun i => (s.writeSeen q need inHost (a + i)).map (·.id)).eraseDups

/-! ### Buffers, with the granules in transit (05_local_memory.md R91) -/

/-- Bytes n from o of a physical buffer, by offset from there. -/
def cutBytes (m : Memory) (o n : Nat) : Memory :=
  (m.filter fun e => decide (o ≤ e.1) && decide (e.1 < o + n)).map fun e => (e.1 - o, e.2)

/-- n bytes from o of a physical buffer replaced by those of a footprint. -/
def pasteBytes (m : Memory) (o n : Nat) (f : Memory) : Memory :=
  (m.filter fun e => decide (e.1 < o)) ++ f.map (fun e => (e.1 + o, e.2)) ++ m.filter fun e => decide (o + n ≤ e.1)

/-- Bytes of ABUF, or of WBUF. -/
def Core.bytes (k : Core) (inW : Bool) : Memory := if inW then k.wBytes else k.aBytes

/-- A buffer as typed accesses see it: a granule that a refill still has in the forwarding table is served from there. -/
def Core.buf (k : Core) (inW : Bool) : Memory :=
  k.fwd.foldl (fun m e => match e.into with
    | some g => if e.inW = inW then pasteBytes m (4096 * g) 4096 e.bytes else m
    | none => m) (k.bytes inW)

/-- A buffer becomes m, and so does each granule of it in the forwarding table. -/
def Core.setBuf (k : Core) (inW : Bool) (m : Memory) : Core :=
  let k := if inW then { k with wBytes := m } else { k with aBytes := m }
  { k with fwd := k.fwd.map fun e => match e.into with
    | some g => if e.inW = inW then { e with bytes := cutBytes m (4096 * g) 4096 } else e
    | none => e }

/-- The tag of a physical granule. -/
def Core.tag (k : Core) (inW : Bool) (g : Nat) : Byte :=
  match k.fwd.find? (fun e => e.inW == inW && e.into == some g) with
  | some e => e.tag
  | none => Tbl.get 0 (if inW then k.wTags else k.aTags) g

/-- A physical granule takes a tag. -/
def Core.setTag (k : Core) (inW : Bool) (g : Nat) (tag : Byte) : Core :=
  let k := if inW then { k with wTags := Tbl.put 0 k.wTags g tag } else { k with aTags := Tbl.put 0 k.aTags g tag }
  { k with fwd := k.fwd.map fun e => if e.inW = inW ∧ e.into = some g then { e with tag := tag } else e }

/-- The bytes at a place, as agent q reads them. A single-copy location has one copy (R97). -/
def State.readPlace (s : State) (q : Actor) (p : Place) (n : Nat) : List Byte :=
  match p with
  | .dev a => s.readGlobal q 0 false a n
  | .host a => s.readGlobal q 0 true a n
  | .abuf c o => ((s.core c).buf false).readN o n
  | .wbuf c o => ((s.core c).buf true).readN o n

/-- Whether two places share a byte. -/
def overlapPlace (p : Place) (n : Nat) (p' : Place) (m : Nat) : Bool :=
  match p, p' with
  | .dev a, .dev b => overlapR a n b m
  | .host a, .host b => overlapR a n b m
  | .abuf c a, .abuf d b => c == d && overlapR a n b m
  | .wbuf c a, .wbuf d b => c == d && overlapR a n b m
  | _, _ => false

/-- Writes that are visible to every agent leave the front of the coherence order and become memory. -/
def mergeHeads : List Wr → Memory → Memory → List Wr × Memory × Memory
  | [], m, h => ([], m, h)
  | w :: t, m, h =>
    if 4 ≤ w.scope then
      if w.inHost then mergeHeads t m (h.writeAll w.cells) else mergeHeads t (m.writeAll w.cells) h
    else (w :: t, m, h)

def State.settle (s : State) : State :=
  let r := mergeHeads s.pend s.mem s.hmem
  { s with pend := r.1, mem := r.2.1, hmem := r.2.2 }

/-- A reservation breaks when a write that joined the order after its LR is visible in its domain (R108). -/
def breaksResv (c : Nat) (w : Wr) (r : Resv) : Bool :=
  decide (r.since ≤ w.id) && w.visibleAt (.core c .sk) r.scope &&
  w.cells.any fun e => overlapPlace r.place r.size (if w.inHost then .host e.1 else .dev e.1) 1

/-- A context at core c loses its reservation to the write w. -/
def Ctx.breakResv (c : Nat) (w : Wr) (x : Ctx) : Ctx :=
  match x.resv with
  | some r => if breaksResv c w r then { x with resv := some { r with broken := true } } else x
  | none => x

/-- The reservations of contexts on cores break, and those of saved contexts, whose agent is the hart they left. -/
def State.breakResvs (s : State) (w : Wr) : State :=
  { s with
    cores := s.cores.map fun e => (e.1, { e.2 with ctx := e.2.ctx.breakResv e.1 w })
    images := s.images.map fun g => { g with ctx := g.ctx.breakResv g.pcore w } }

/-- A row of a cache reads well again when the line it holds is written whole (DESIGN CHOICE, log 113). -/
def State.mendLines (s : State) (cells : Memory) : State :=
  if s.bad.isEmpty then s
  else { s with bad := s.bad.filter fun x => match x with
    | .cache _ _ _ l => !(List.range 64).all fun i => (cellAt cells (l + i)).isSome
    | _ => true }

/-- Writes of one unit join the coherence order, each just before the write that stands at its position, and share an
identity (R101, R103). -/
def State.addWrites (s : State) (q : Actor) (scope : Nat) (parts : List (Nat × BitVec 4 × Bool × Memory)) : State :=
  let by' := match q with
    | .core c _ => (s.core c).b.part.toNat
    | _ => 8
  let wr := fun (p : Nat × BitVec 4 × Bool × Memory) =>
    ({ id := s.nextId, actor := q, cls := p.2.1, scope := scope, inHost := p.2.2.1, part := by', cells := p.2.2.2 } : Wr)
  let pend := (List.range (s.pend.length + 1)).flatMap fun k =>
    (parts.filter (·.1 == k)).map wr ++ (s.pend[k]?).toList
  let s := (s.mendLines (parts.flatMap fun p => if p.2.2.1 then [] else p.2.2.2))
  let s := { s with pend := pend, nextId := s.nextId + 1 }
  (parts.foldl (fun s p => s.breakResvs (wr p)) s).settle

/-- A write joins the coherence order at its end, with a scope (R101). -/
def State.addWrite (s : State) (q : Actor) (cls : BitVec 4) (scope : Nat) (inHost : Bool) (cells : Memory) : State :=
  s.addWrites q scope [(s.pend.length, cls, inHost, cells)]

/-- The 64-byte units of a buffer that n bytes at an offset touch, or fill whole. -/
def unitsOf (whole : Bool) (o n : Nat) : List Nat :=
  let lo := if whole then (o + 63) / 64 else o / 64
  let hi := if whole then (o + n) / 64 else (o + n + 63) / 64
  (List.range (hi - lo)).map (lo + ·)

/-- The SRAM that n bytes at a place lie in. -/
def Place.sram (p : Place) (whole : Bool) (n : Nat) : List Sram :=
  match p with
  | .abuf c o => (unitsOf whole o n).map (Sram.abuf c)
  | .wbuf c o => (unitsOf whole o n).map (Sram.wbuf c)
  | _ => []

/-- Pieces of SRAM that are written whole read well again (DESIGN CHOICE, log 113). -/
def State.mend (s : State) (l : List Sram) : State :=
  if s.bad.isEmpty then s else { s with bad := s.bad.filter fun x => !l.contains x }

/-- The bytes of bs written at a place; a write of a single-copy location is visible at once (R101). -/
def State.writePlace (s : State) (q : Actor) (cls : BitVec 4) (scope : Nat) (p : Place) (bs : List Byte) : State :=
  match p with
  | .dev a => s.addWrite q cls scope false (cellsAt a bs)
  | .host a => s.addWrite q cls scope true (cellsAt a bs)
  | .abuf c o => (s.mend (p.sram true bs.length)).modCore c fun k => k.setBuf false ((k.buf false).writeN o bs)
  | .wbuf c o => (s.mend (p.sram true bs.length)).modCore c fun k => k.setBuf true ((k.buf true).writeN o bs)

/-- Position just after the last write of a byte that is visible at `sc` around q (R108). -/
def State.afterSeen (s : State) (q : Actor) (sc : Nat) (inHost : Bool) (a : Nat) : Nat :=
  let hits := (List.range s.pend.length).filter fun i =>
    match s.pend[i]? with
    | some w => w.inHost == inHost && w.visibleAt q sc && (cellAt w.cells a).isSome
    | none => false
  match hits.getLast? with
  | some i => i + 1
  | none => 0

/-- A read of a byte at `sc` may return a write no earlier than the last one q has performed or read: one of those from it
on is visible there (R102, R108). `known` holds what q has read. -/
def State.caughtUpByte (s : State) (q : Actor) (known : List Nat) (sc : Nat) (inHost : Bool) (a : Nat) : Bool :=
  let ws := (s.pend.filter fun w => w.inHost == inHost && (cellAt w.cells a).isSome).reverse
  let mine := fun (w : Wr) => w.actor == q || known.contains w.id
  !ws.any mine || (ws.takeWhile fun w => !mine w).any (·.visibleAt q sc) ||
    ((ws.find? mine).map fun w => w.visibleAt q sc).getD true

/-- An atomic of n bytes at a place can read at `sc` (R108; DEDUCED, log 26). -/
def State.caughtUp (s : State) (q : Actor) (known : List Nat) (sc : Nat) (p : Place) (n : Nat) : Bool :=
  match p with
  | .dev a => (List.range n).all fun i => s.caughtUpByte q known sc false (a + i)
  | .host a => (List.range n).all fun i => s.caughtUpByte q known sc true (a + i)
  | _ => true

/-- The bytes an atomic of q reads at `sc` (R108). -/
def State.readAtomic (s : State) (q : Actor) (sc : Nat) (p : Place) (n : Nat) : List Byte :=
  match p with
  | .dev a => s.readGlobal q sc false a n
  | .host a => s.readGlobal q sc true a n
  | _ => s.readPlace q p n

/-- The cells of an atomic update with their positions: each byte directly after the write that was read (R108). -/
def State.atomicParts (s : State) (q : Actor) (cls : BitVec 4) (sc : Nat) (inHost : Bool) (a : Nat) (bs : List Byte) :
    List (Nat × BitVec 4 × Bool × Memory) :=
  let cs := (cellsAt a bs).map fun e => (s.afterSeen q sc inHost e.1, e)
  (cs.map (·.1)).eraseDups.map fun k => (k, cls, inHost, (cs.filter (·.1 == k)).map (·.2))

/-- An atomic update: bs takes the place of what was read, directly after it, visible at `sc` at once (R108). -/
def State.atomicWrite (s : State) (q : Actor) (cls : BitVec 4) (sc : Nat) (p : Place) (bs : List Byte) : State :=
  match p with
  | .dev a => s.addWrites q sc (s.atomicParts q cls sc false a bs)
  | .host a => s.addWrites q sc (s.atomicParts q cls sc true a bs)
  | .abuf _ _ => s.writePlace q cls sc p bs
  | .wbuf _ _ => s.writePlace q cls sc p bs

/-- Every older write of the class of w by its agent is visible at the next wider scope (R101, R103). -/
def State.mayWiden (s : State) (w : Wr) : Bool :=
  s.pend.all fun o => !(o.actor == w.actor && o.cls == w.cls && decide (o.id < w.id)) || decide (w.scope < o.scope)

/-- Write k widens by one scope, with the writes of its unit, when every older write of their classes by its agent is
visible there (R101, R103; DEDUCED, log 44). -/
def State.widen (s : State) (k : Nat) : State :=
  match s.pend[k]? with
  | none => s
  | some w =>
    let unit := s.pend.filter (·.id == w.id)
    if 4 ≤ w.scope || !unit.all s.mayWiden then s
    else
      let wider := fun (o : Wr) => { o with scope := w.scope + 1 }
      let s' : State := { s with pend := s.pend.map fun o => if o.id = w.id then wider o else o }
      (unit.foldl (fun s o => s.breakResvs (wider o)) s').settle

/-- Whether the writes with these identities are visible at `sc` to every agent of the domain around q. -/
def State.allVisible (s : State) (q : Actor) (sc : Nat) (ids : List Nat) : Bool :=
  s.pend.all fun w => !ids.contains w.id || w.visibleAt q sc

/-! ### Hardware's own accesses: walkers, Trivets, command processor, service cores -/

/-- A number in device memory as it is visible at device scope. -/
def State.hwRead (s : State) (pa n : Nat) : Nat := leNat (s.readGlobal .service 2 false pa n)

/-- A write by the device, visible at scope `sc` at once. -/
def State.hwWrite (s : State) (sc pa : Nat) (bs : List Byte) : State :=
  s.atomicWrite .service 0 sc (.dev pa) bs

/-- An atomic update of an n-byte number in device memory at device scope. -/
def State.hwUpdate (s : State) (pa n : Nat) (f : Nat → Nat) : State :=
  let v := s.hwRead pa n
  if f v = v then s else s.hwWrite 2 pa (leBytes n (f v))

/-- The number v with bits hi down to lo replaced by x. -/
def putBits (v hi lo x : Nat) : Nat := v - bitsNat v hi lo * 2 ^ lo + x % 2 ^ (hi + 1 - lo) * 2 ^ lo

/-! ### Physical addresses -/

/-- Peer-box memory has PA[51] = 1 (23_host_links_security.md R337). -/
def isPeer (pa : Nat) : Bool := bitNat pa 51

/-- Device physical memory exists at pa: LP6 or peer-box memory (DEDUCED, log 14). -/
def physExists (pa : Nat) : Bool := decide (pa < Config.lp6Bytes) || isPeer pa

/-- The firmware-protected range: the specialisation cache's region (12_portable_form.md R260, R315). -/
def State.protected (s : State) (pa : Nat) : Bool :=
  match s.fw.image with
  | some i => decide (i.cacheBase.toNat ≤ pa) && decide (pa < i.cacheBase.toNat + 2 ^ 24)
  | none => false

/-- The partition's interface is in ERROR: no traffic of it goes (23_host_links_security.md R335). -/
def State.inError (s : State) (p : Nat) : Bool := (s.part p).tdi != 0 && (s.tdi (s.part p).tdi.toNat).state == .error

/-- Whether the page of pa lies outside the partition's physical window (R315). -/
def Part.outside (p : Part) (pa : Nat) : Bool :=
  decide (pa / 4096 * 4096 < p.pwbase) || decide (p.pwlim ≤ pa / 4096 * 4096)

/-! ### Errors (R318 to R320) -/

/-- The error injected on the line of pa: 0 none, 1 correctable, 2 uncorrectable (R319; DEDUCED, log 81). -/
def State.injKind (s : State) (pa : Nat) : Nat :=
  let hit := s.err.inj.filter fun e =>
    bitNat e.2.toNat 0 && bitsNat e.2.toNat 51 6 == bitsNat pa 51 6 && bitsNat e.2.toNat 2 1 != 0
  if hit.any (fun e => bitsNat e.2.toNat 2 1 == 2) then 2 else if hit.any (fun e => bitsNat e.2.toNat 2 1 == 1) then 1 else 0

/-- A log entry is written, or dropped when 64 wait (R319). -/
def State.logError (s : State) (dws : List Word) : State :=
  let e := s.err
  if 64 ≤ (e.elcnt + 2 ^ 64 - e.elack) % 2 ^ 64 then { s with err := { e with logovf := true } }
  else
    { s with err := { e with log := Tbl.put [] e.log (e.elcnt % 64) dws, elcnt := (e.elcnt + 1) % 2 ^ 64 } }.raiseMsix 8

/-- The first two doublewords of a log entry. -/
def errDws (s : State) (kind part events agent : Nat) (inj : Bool) (line : Nat) : List Word :=
  [BitVec.ofNat 64 (kind * 2 ^ 56 + (if inj then 2 ^ 55 else 0) + part % 8 * 2 ^ 52 + line % 2 ^ 52),
   BitVec.ofNat 64 (s.damper.steps % 2 ^ 32 * 2 ^ 32 + events % 65536 * 65536 + agent * 256)]

/-- Events of a line or row in the counting window that ends now, in units of 10 ms (R319, R320). -/
def State.eventsOf (s : State) (t : Tracked) : List Nat :=
  t.times.filter fun x => decide (s.time ≤ x + s.err.window.toNat * 1000000)

/-- A corrected event is counted; at THRESH the line becomes lasting and is logged once (R320). -/
def State.corrected (s : State) (sram inj : Bool) (line : Nat) (part agent tcb va : Nat) : State :=
  let key := BitVec.ofNat 52 line
  let old := (s.err.tracked.find? (fun t => t.sram == sram && t.line == key)).getD
    { sram := sram, line := key, times := [], lasting := false }
  let now := s.eventsOf { old with times := old.times ++ [s.time] }
  let lasting := decide (s.err.thresh.toNat ≤ now.length)
  let others := s.err.tracked.filter fun t => !(t.sram == sram && t.line == key)
  let room :=
    if others.length < 64 then others
    else
      let oldest := others.foldl (fun m t => min m (t.times.getLast?.getD 0)) s.time
      match others.findIdx? (fun t => t.times.getLast?.getD 0 == oldest) with
      | some i => dropAt others i
      | none => others.drop 1
  let s' := { s with err := { s.err with
    tracked := room ++ [{ old with times := now, lasting := old.lasting || lasting }] } }
  if lasting && !old.lasting then
    s'.logError (errDws s (if sram then 5 else 4) part now.length agent inj line ++
      [BitVec.ofNat 64 tcb, BitVec.ofNat 64 va])
  else s'

/-- An uncorrectable event is logged: KIND 2 when the read returned zeros, 3 when it faulted (R319). -/
def State.uncorrectable (s : State) (zeroed inj : Bool) (line : Nat) (part agent tcb va : Nat) : State :=
  let n := match s.err.tracked.find? (fun t => !t.sram && t.line == BitVec.ofNat 52 line) with
    | some t => (s.eventsOf t).length
    | none => 0
  s.logError (errDws s (if zeroed then 2 else 3) part n agent inj line ++ [BitVec.ofNat 64 tcb, BitVec.ofNat 64 va])

/-! ### Translation -/

/-- What an access is for. -/
inductive Acc where
  | read | write | fetch
  deriving DecidableEq, Repr

/-- What a walk or a translation answers. -/
inductive Tr where
  | ok (p : Place) (attr : Nat)
  | fault
  | violation
  | hole
  deriving DecidableEq, Repr

/-- A leaf a walk found: where its entry lies, and the entry. -/
inductive Walk where
  | leaf (entry pte attr size : Nat)
  | fault
  | violation
  | hole
  deriving DecidableEq, Repr

/-- Page size of a SIZE code (R307). -/
def pageSize (c : Nat) : Nat := 2 ^ [12, 14, 16, 18, 21, 24, 27, 30].getD c 12

/-- Whether a level holds leaves of a SIZE code (R307). -/
def sizeOk (level c : Nat) : Bool :=
  match level with
  | 2 => c == 7
  | 3 => c == 4 || c == 5 || c == 6
  | 4 => decide (c ≤ 3)
  | _ => false

/-- Index position and width of each level (R307). -/
def levelShift (level : Nat) : Nat := 44 - 8 * level

def levelBits (level : Nat) : Nat := if level = 0 then 13 else 8

/-- The zero fields and combinations a leaf must meet (R308). -/
def leafOk (level pte attr : Nat) : Bool :=
  let size := bitsNat pte 10 8
  sizeOk level size && bitsNat attr 63 20 == 0 && !(bitNat attr 4 && bitNat attr 16) &&
  bitsNat pte 51 12 * 4096 % pageSize size == 0

/-- A cache's row that holds the line of pa and reads as uncorrectable, for an agent whose reads the cache serves: the Stoker
cache a core's Stoker, the cluster cache the agents of its cores, the system cache every agent (R319; DESIGN CHOICE, log 113). -/
def State.badRow (s : State) (via : Actor) (pa : Nat) : Option Sram :=
  s.bad.find? fun x => match x, via with
    | .cache 5 u _ l, .core c .sk => l == pa / 64 * 64 && u == c
    | .cache 6 u _ l, .core c _ => l == pa / 64 * 64 && u == c / 16
    | .cache 7 _ _ l, _ => l == pa / 64 * 64
    | _, _ => false

/-- The error that a read by an agent meets on the line of pa: 0 none, 1 correctable, 2 uncorrectable. -/
def State.lineKind (s : State) (via : Actor) (pa : Nat) : Nat := if (s.badRow via pa).isSome then 2 else s.injKind pa

/-- The number n bytes long that a walker reads in a table; an uncorrectable line reads as zeros (DESIGN CHOICE, log 112). -/
def State.tableRead (s : State) (pa n : Nat) : Nat := if s.lineKind .service pa = 2 then 0 else s.hwRead pa n

/-- A walk from a table at a level on (R307, R308). `pick` chooses among replicas that differ (DESIGN CHOICE, log 23; DEDUCED, log 100). -/
def State.walk (s : State) (p : Part) (va pick : Nat) : (fuel level table : Nat) → Walk
  | 0, _, _ => .fault
  | fuel + 1, level, table =>
    let idx := va / 2 ^ levelShift level % 2 ^ levelBits level
    let at' := table + 16 * idx
    if p.outside at' || s.protected at' then .violation
    else if !physExists at' then .hole
    else
      let pte := s.tableRead at' 8
      let attr := s.tableRead (at' + 8) 8
      if !bitNat pte 0 || bitsNat pte 63 52 != 0 || bitNat pte 11 || (bitNat pte 2 && !bitNat pte 1) then .fault
      else if bitsNat pte 3 1 = 0 then
        if attr ≠ 0 then .fault else s.walk p va pick fuel (level + 1) (bitsNat pte 51 12 * 4096)
      else if !leafOk level pte attr then .fault
      else
        let size := pageSize (bitsNat pte 10 8)
        let n := size / 2 ^ levelShift level
        if n ≤ 1 then .leaf at' pte attr size
        else
        let first := table + 16 * (idx / n * n)
        let other := first + 16 * (pick % n)
        let pte' := s.tableRead other 8
        let attr' := s.tableRead (other + 8) 8
        if !p.outside other && bitNat pte' 0 && bitsNat pte' 3 1 != 0 && leafOk level pte' attr'
            && bitsNat pte' 10 8 == bitsNat pte 10 8
        then .leaf other pte' attr' size
        else .leaf at' pte attr size

/-- The root table of a partition, whose bits [16:12] are ignored (R307). -/
def Part.table (x : Part) : Nat := x.root / 2 ^ 17 * 2 ^ 17

/-- The walk of a partition's tables, from its root. -/
def State.walkPart (s : State) (p va pick : Nat) : Walk := s.walk (s.part p) va pick 5 0 (s.part p).table

/-- The entries a walk reads, from a table at a level on. -/
def State.walkTrail (s : State) (va : Nat) : (fuel level table : Nat) → List Nat
  | 0, _, _ => []
  | fuel + 1, level, table =>
    let at' := table + 16 * (va / 2 ^ levelShift level % 2 ^ levelBits level)
    let pte := s.tableRead at' 8
    at' :: (if bitNat pte 0 && bitsNat pte 3 1 == 0 then s.walkTrail va fuel (level + 1) (bitsNat pte 51 12 * 4096) else [])

/-- Whether R, W, X and U permit an access (R308). S-mode may use any page (DESIGN CHOICE, log 22). -/
def permits (acc : Acc) (user : Bool) (pte : Nat) : Bool :=
  (match acc with
    | .read => bitNat pte 1
    | .write => bitNat pte 2
    | .fetch => bitNat pte 3) && (!user || bitNat pte 4)

/-- The place a leaf gives for va, checked against the window and the protected range (R315). A HOST page is reached only
while the host port is up and the partition's interface is not in ERROR, and peer-box memory through a port in collective transport that is up (23_host_links_security.md
R333, R337; DESIGN CHOICE, log 117). -/
def State.leafPlace (s : State) (p : Nat) (acc : Acc) (va pte attr size : Nat) : Tr :=
  let pa := bitsNat pte 51 12 * 4096 + va % size
  if bitNat attr 4 then (if s.hostUp && !s.inError p then .ok (.host pa) attr else .fault)
  else if (s.part p).outside pa || (s.protected pa && acc != .fetch) then .violation
  else if isPeer pa && !s.fabricUp then .fault
  else if !physExists pa then .hole
  else .ok (.dev pa) attr

/-- Sets A, and D for a write, in the leaf entry (R308). -/
def touchLeaf (acc : Acc) (pte : Nat) : Nat :=
  putBits (if acc = .write then putBits pte 7 7 1 else pte) 6 6 1

/-! ### TLBs (R309) -/

/-- Entries of a TLB. -/
def tlbRoom : Tlb → Nat
  | .sk _ => 64
  | .engine _ => 256
  | .cluster _ => 4096

/-- The TLBs an agent's access looks in, nearest first; the agents outside the cores have none (DEDUCED, log 15). -/
def Actor.tlbs : Actor → List Tlb
  | .core c .sk => [.sk c, .cluster (c / 16)]
  | .core c _ => [.engine c, .cluster (c / 16)]
  | _ => []

def TlbEnt.covers (e : TlbEnt) (p va : Nat) : Bool := e.part == p && decide (e.va ≤ va) && decide (va < e.va + e.size)

/-- The entry of the agent's TLBs that serves an address. -/
def State.tlbHit (s : State) (q : Actor) (p va : Nat) : Option TlbEnt :=
  q.tlbs.findSome? fun t => s.tlb.find? fun e => e.tlb == t && e.covers p va

/-- Entry k of a TLB's own entries leaves. -/
def dropTlb (t : Tlb) : Nat → List TlbEnt → List TlbEnt
  | _, [] => []
  | k, e :: l => if e.tlb = t then (if k = 0 then l else e :: dropTlb t (k - 1) l) else e :: dropTlb t k l

/-- An entry takes its place in its TLB: that of the entries of its page, or, when the TLB is full, of any one entry
(DESIGN CHOICE, log 15). -/
def State.tlbPut (s : State) (e : TlbEnt) : State :=
  let rest := s.tlb.filter fun x => !(x.tlb == e.tlb && x.part == e.part && overlapR x.va x.size e.va e.size)
  let n := (rest.filter (·.tlb == e.tlb)).length
  if n < tlbRoom e.tlb then { s with tlb := e :: rest }
  else
    let f := s.takeFree
    { f.2 with tlb := e :: dropTlb e.tlb (f.1.toNat % n) rest }

/-- An entry is loaded into the TLBs of an agent. -/
def State.tlbFill (s : State) (q : Actor) (e : TlbEnt) : State := q.tlbs.foldl (fun s t => s.tlbPut { e with tlb := t }) s

/-- The partition, agent and TCB that an error met by an agent is logged with. -/
def State.errOf (s : State) (q : Actor) (p : Nat) : Nat × Nat × Nat :=
  match q with
  | .core c a => (p, a.code, (s.core c).b.tcb.toNat)
  | _ => (p, 10, 0)

/-- The core a piece of SRAM belongs to. -/
def Sram.core : Sram → Nat
  | .wbuf c _ => c
  | .abuf c _ => c
  | .slot c _ => c
  | .acc c _ => c
  | .mfile c _ => c
  | .bank c => c
  | .cache _ u _ _ => u

/-- The log's name of a piece of SRAM: array, core, row (R319; DESIGN CHOICE, log 113). -/
def Sram.line : Sram → Nat
  | .wbuf c u => c * 2 ^ 32 + u
  | .abuf c u => 2 ^ 40 + c * 2 ^ 32 + u
  | .slot c n => 2 * 2 ^ 40 + c * 2 ^ 32 + n
  | .acc c t => 3 * 2 ^ 40 + c * 2 ^ 32 + t
  | .mfile c t => 4 * 2 ^ 40 + c * 2 ^ 32 + t
  | .bank c => 8 * 2 ^ 40 + c * 2 ^ 32
  | .cache a u r _ => a * 2 ^ 40 + u * 2 ^ 32 + r

/-- The error that a read for q meets on the line of pa, through the caches that serve `via`, is counted or logged; the
answer says whether it is uncorrectable (R318, R319). -/
def State.lineErrorVia (s : State) (q via : Actor) (p : Nat) (zeroed : Bool) (pa va : Nat) : State × Bool :=
  let w := s.errOf q p
  match s.badRow via pa with
  | some x => (s.uncorrectable zeroed false x.line w.1 w.2.1 w.2.2 va, true)
  | none =>
    match s.injKind pa with
    | 1 => (s.corrected false true (pa / 64 * 64) w.1 w.2.1 w.2.2 va, false)
    | 2 => (s.uncorrectable zeroed true (pa / 64 * 64) w.1 w.2.1 w.2.2 va, true)
    | _ => (s, false)

/-- The error that a read by q meets on the line of pa (R318, R319). -/
def State.lineError (s : State) (q : Actor) (p : Nat) (zeroed : Bool) (pa va : Nat) : State × Bool :=
  s.lineErrorVia q q p zeroed pa va

/-- The uncorrectable errors that a read of SRAM by q meets are logged; the answer says whether there is one (R318, R319). -/
def State.sramErrors (s : State) (q : Actor) (p : Nat) (l : List Sram) : State × Bool :=
  let hit := s.bad.filter l.contains
  let w := s.errOf q p
  (hit.foldl (fun s x => s.logError (errDws s 3 w.1 0 w.2.1 false x.line ++ [BitVec.ofNat 64 w.2.2, 0])) s, !hit.isEmpty)

/-- The errors that a read of n bytes at a place meets, line by line; host memory has none of the device's. -/
def State.readErrors (s : State) (q : Actor) (p : Nat) (zeroed : Bool) (pl : Place) (n va : Nat) : State × Bool :=
  match pl with
  | .dev pa =>
    ((List.range ((pa % 64 + n + 63) / 64)).map fun i => pa / 64 * 64 + 64 * i).foldl
      (fun r l =>
        let t := r.1.lineError q p zeroed l va
        (t.1, r.2 || t.2)) (s, false)
  | .host _ => (s, false)
  | pl => s.sramErrors q p (pl.sram false n)

/-- The errors that a walk for va meets in its tables (R319). -/
def State.walkErrors (s : State) (q : Actor) (p va : Nat) : State :=
  if s.err.inj.isEmpty && s.bad.isEmpty then s
  else (s.walkTrail va 5 0 (s.part p).table).foldl (fun s a => (s.lineErrorVia q .service p true a va).1) s

/-- A walk for an access: A and D are set, the TLBs filled (R308, R309). -/
def State.translateWalk (s : State) (q : Actor) (p : Nat) (acc : Acc) (user : Bool) (va : Nat) : Tr × State :=
  let f := s.takeFree
  let s := f.2.walkErrors q p va
  match s.walkPart p va f.1.toNat with
  | .leaf at' pte attr size =>
    if permits acc user pte then
      let s := s.hwUpdate at' 8 (touchLeaf acc)
      (s.leafPlace p acc va pte attr size,
       s.tlbFill q { tlb := .sk 0, part := p, va := va / size * size, size := size,
                     pte := BitVec.ofNat 64 (touchLeaf acc pte), attr := BitVec.ofNat 64 attr })
    else (.fault, s)
  | .fault => (.fault, s)
  | .violation => (.violation, s)
  | .hole => (.hole, s)

/-- The translation of a global access by agent q in partition p (R307 to R309, R315). An entry of its TLBs serves it until
it is dropped, once A and, for a write, D are set; otherwise a walk does (DESIGN CHOICE, log 15; DEDUCED, log 34). -/
def State.translate (s : State) (q : Actor) (p : Nat) (acc : Acc) (user : Bool) (va : Nat) : Tr × State :=
  if 2 ^ 57 ≤ va then (.fault, s)
  else
    match s.tlbHit q p va with
    | some e =>
      if !permits acc user e.pte.toNat then (.fault, s)
      else if !bitNat e.pte.toNat 6 || (acc == .write && !bitNat e.pte.toNat 7) then s.translateWalk q p acc user va
      else
        (s.leafPlace p acc va e.pte.toNat e.attr.toNat e.size,
         match q.tlbs with
         | t :: _ => if e.tlb = t then s else s.tlbPut { e with tlb := t }
         | [] => s)
    | none => s.translateWalk q p acc user va

/-- The translation of the page at va is loaded into the engine TLB and the cluster TLB of core c, with no access; the next
page's address, or none where it cannot be translated (11_data_engines_isa.md R236). -/
def State.loadPage (s : State) (c va : Nat) : State × Option Nat :=
  let q := Actor.core c .cx
  let p := (s.core c).b.part.toNat
  match s.tlbHit q p va with
  | some e => (s.tlbFill q e, some (e.va + e.size))
  | none =>
    let f := s.takeFree
    let s := f.2.walkErrors q p va
    match s.walkPart p va f.1.toNat with
    | .leaf _ pte attr size =>
      (s.tlbFill q { tlb := .engine c, part := p, va := va / size * size, size := size, pte := BitVec.ofNat 64 pte,
                     attr := BitVec.ofNat 64 attr }, some (va / size * size + size))
    | _ => (s, none)

/-! ### Accesses of the Trivets and the command processor to Task Control Blocks (16_system_state.md R276) -/

/-- Line events of a global access (17_energy.md R288): the kind of its page, read or written. -/
def lineEvent (p : Place) (attr : Nat) (write : Bool) : Nat :=
  let w := if write then 1 else 0
  match p with
  | .host _ => 4 + w
  | .dev a => if isPeer a then 6 + w else if bitNat attr 16 then 2 + w else w
  | _ => w

/-- The team in partition p one of whose members has a TCB at the address. -/
def State.teamOfTcb (s : State) (p tcb : Nat) : Option Nat :=
  (s.teams.find? fun e => e.2.part == p && e.2.state != .retired && e.2.members.any (·.tcb == tcb)).map (·.1)

/-- The uncore island an access to a TCB is metered on: that of the team's Trivet, or the Grate's (17_energy.md R282; DEDUCED,
log 56). -/
def State.tcbIsland (s : State) (p tcb : Nat) : Nat :=
  (((s.teamOfTcb p tcb).bind (Tbl.get? s.teams ·)).bind (·.cluster)).elim 136 (128 + ·)

/-- What the device's own hardware finds for an address of partition p: where its leaf entry lies, and the place. It has no
TLB. -/
def State.hwWalk (s : State) (p : Nat) (acc : Acc) (va : Nat) : Nat × Tr :=
  match s.walkPart p va (Config.freeWord s.free).toNat with
  | .leaf at' pte attr size => (at', if permits acc false pte then s.leafPlace p acc va pte attr size else .fault)
  | .fault => (0, .fault)
  | .violation => (0, .violation)
  | .hole => (0, .hole)

/-- Bytes at a place as they are visible at device scope. -/
def State.hwBytes (s : State) (pl : Place) (n : Nat) : List Byte :=
  match pl with
  | .dev a => s.readGlobal .service 2 false a n
  | .host a => s.readGlobal .service 2 true a n
  | _ => []

/-- The physical address of device memory at a code address of partition p, where there is one. -/
def State.hwAddr (s : State) (p va : Nat) : Option Nat :=
  match (s.hwWalk p .fetch va).2 with
  | .ok (.dev pa) _ => some pa
  | _ => none

/-- Doubleword i of the TCB at an address; 0 where the access cannot be made or meets an uncorrectable error (DEDUCED, log 83; DESIGN
CHOICE, log 112). -/
def State.tcbGet (s : State) (p tcb i : Nat) : Nat :=
  match (s.hwWalk p .read (tcb + 8 * i)).2 with
  | .ok (.dev a) _ => if s.lineKind .service a = 2 then 0 else leNat (s.hwBytes (.dev a) 8)
  | .ok pl _ => leNat (s.hwBytes pl 8)
  | _ => 0

/-- Sets A in the leaf entry of a TCB's page, logs the errors its lines meet and meters the access: what a read of it by
the hardware does besides (R308, R319, 17_energy.md R282). -/
def State.tcbSeen (s : State) (p tcb : Nat) : State :=
  match s.hwWalk p .read tcb with
  | (at', .ok pl attr) =>
    ((((s.walkErrors .service p tcb).hwUpdate at' 8 (touchLeaf .read)).readErrors .service p false pl 128 tcb).1).meterUncore
      (s.tcbIsland p tcb) (lineEvent pl attr false) 2
  | _ => s

/-- Doubleword i of a TCB updated; A and D are set first, and its line is metered as written. An access that cannot be made
is dropped. -/
def State.tcbPut (s : State) (p tcb i : Nat) (f : Nat → Nat) : State :=
  match s.hwWalk p .write (tcb + 8 * i) with
  | (at', .ok pl attr) =>
    let s := (s.hwUpdate at' 8 (touchLeaf .write)).meterUncore (s.tcbIsland p tcb) (lineEvent pl attr true) 1
    let v := leNat (s.hwBytes pl 8)
    if f v = v then s else s.atomicWrite .service 0 2 pl (leBytes 8 (f v))
  | _ => s

/-! ### Notifications and freezes -/

/-- The device uncore island a service core is metered on: two cores each (17_energy.md R282, R289; DESIGN CHOICE, log 114). -/
def svcIsland (core : Nat) : Nat := 136 + core / 2

/-- A notification of a partition, written by service core 5, or NQDROP when its queue is full (R317, 16_system_state.md R281,
17_energy.md R282). -/
def State.notify (s : State) (p kind tcb dw2 dw3 : Nat) : State :=
  let x := s.part p
  if 256 ≤ (x.nqcnt + 2 ^ 64 - x.nqack) % 2 ^ 64 then s.modPart p fun y => { y with nqdrop := true }
  else
    let bs := leBytes 8 (kind * 2 ^ 56) ++ leBytes 8 tcb ++ leBytes 8 dw2 ++ leBytes 8 dw3 ++
      leBytes 8 (s.damper.steps % 2 ^ 32) ++ leBytes 24 0
    let s := (s.hwWrite 4 (x.nqAddr + 64 * (x.nqcnt % 256)) bs).meterUncore (svcIsland 5) 1 1
    (s.modPart p fun y => { y with nqcnt := (y.nqcnt + 1) % 2 ^ 64 }).raiseMsix p

/-- A member's core stops issuing (R316); it stays HALTED with its state readable. -/
def holdCore (h : Hold) (k : Core) : Core := { k with hold := h, halted := true }

/-- FRZ of a TCB. -/
def State.setFrz (s : State) (p tcb : Nat) (v : Bool) : State :=
  s.tcbPut p tcb 15 fun x => putBits x 61 61 (if v then 1 else 0)

/-- Energy to be debited and a deposit to be returned, of a task that leaves Running in ec `ec`: they wait for the first step
after it (17_energy.md R291). -/
def Island.later (y : Island) (ec owed deposit : Nat) : Island :=
  if y.lateEc = ec then { y with lateOwed := y.lateOwed + owed, lateDeposits := y.lateDeposits + deposit }
  else
    { y with
      owed := y.owed + y.lateOwed, deposits := y.deposits + y.lateDeposits
      lateEc := ec, lateOwed := owed, lateDeposits := deposit }

/-- What task x metered since the last settlement is debited to its islands, a deposit first (17_energy.md R286); `late`: the
task leaves Running. -/
def State.settle1 (s : State) (late : Bool) (x : Ctx) (i f : Nat) : State × Ctx :=
  let j := f / 64
  let m := j - Tbl.get 0 x.ji i
  let take := if x.depi = i then min m x.dep else 0
  (s.modIsland i fun y => if late then y.later s.ec (m - take) 0 else { y with owed := y.owed + (m - take) },
   { x with ji := Tbl.put 0 x.ji i j, dep := x.dep - take })

/-- The settlement of a task on every island it metered on (R286, R289). -/
def State.settleTask (s : State) (late : Bool) (x : Ctx) : State × Ctx :=
  x.fai.foldl (fun r e => r.1.settle1 late r.2 e.1 e.2) (s, x)

/-- A task leaves Running: its energy is settled and the rest of its deposit returns at the next step (R287; DEDUCED, log 89). -/
def State.leave (s : State) (x : Ctx) : State × Ctx :=
  let r := s.settleTask true x
  (if r.2.dep = 0 then r.1 else r.1.modIsland r.2.depi fun y => y.later s.ec 0 r.2.dep, { r.2 with dep := 0 })

/-- The task on core c leaves Running. -/
def State.leaveCore (s : State) (c : Nat) : State :=
  let r := s.leave (s.ctx c)
  r.1.modCtx c fun _ => r.2

/-- The tasks of a team that have not retired, with their member numbers. -/
def Team.live (x : Team) : List (Member × Nat) := x.members.zipIdx.filter fun m => !x.done.contains m.2

/-- The saved context of member i of team t, by its position in the list. -/
def State.imageOf (s : State) (t i : Nat) : Option Nat := s.images.findIdx? fun g => g.team == t && g.member == i

def State.modImage (s : State) (k : Nat) (f : Image → Image) : State :=
  match s.images[k]? with
  | some g => { s with images := setAt s.images k (f g) }
  | none => s

/-- Partition and address of the TCB that hardware writes for member m of team t: the one its core's `ytcbp` names while
it is loaded there (16_system_state.md R278). -/
def State.tcbOf (s : State) (p t : Nat) (m : Member × Nat) : Nat × Nat :=
  let k := s.core m.1.core
  if k.task == some (t, m.2) then (k.b.part.toNat, k.b.tcb.toNat) else (p, m.1.tcb)

/-- One member stops at a freeze in place: its core is held, if its context holds one, and FRZ is set (R316; DEDUCED, log 42). -/
def State.freezeMember (s : State) (p t : Nat) (m : Member × Nat) : State :=
  let tcb := s.tcbOf p t m
  let s :=
    if (s.core m.1.core).task == some (t, m.2) then (s.leaveCore m.1.core).modCore m.1.core (holdCore .frozen)
    else
      match s.imageOf t m.2 with
      | some k =>
        match s.images[k]? with
        | some g =>
          let r := s.leave g.ctx
          r.1.modImage k fun g => { g with ctx := r.2 }
        | none => s
      | none => s
  s.setFrz tcb.1 tcb.2 true

/-- A team is frozen in place at one cut (R26, R316). -/
def State.freezeQuiet (s : State) (t : Nat) : State :=
  match Tbl.get? s.teams t with
  | none => s
  | some x => (x.live.foldl (fun s m => s.freezeMember x.part t m) s).modTeam t fun y => { y with state := .frozenHere }

/-- A team is frozen in place, and its partition is notified (R316, R317). -/
def State.freezeTeam (s : State) (t kind tcb dw2 dw3 : Nat) : State :=
  match Tbl.get? s.teams t with
  | none => s
  | some x => (s.freezeQuiet t).notify x.part kind tcb dw2 dw3

/-- The team of the task on core c is frozen in place; a core that runs no task stops alone. -/
def State.freezeCore (s : State) (c kind dw2 dw3 : Nat) : State :=
  match (s.core c).task with
  | some (t, _) => s.freezeTeam t kind (s.core c).b.tcb.toNat dw2 dw3
  | none => s.modCore c (holdCore .frozen)

/-- Doubleword i of a TCB updated by the hardware; where the access breaks isolation it does not perform, and the team that
owns the TCB is frozen in place (R315). -/
def State.tcbUpd (s : State) (p tcb i : Nat) (f : Nat → Nat) : State :=
  match (s.hwWalk p .write (tcb + 8 * i)).2, s.teamOfTcb p tcb with
  | .violation, some t =>
    if (Tbl.get? s.teams t).any (·.state == .frozenHere) then s else s.freezeTeam t 2 tcb 0 0
  | _, _ => s.tcbPut p tcb i f

/-- The hardware looks at a TCB or an overflow block for team t: what a read of it does besides; where the read breaks
isolation, that team is frozen in place (R315). -/
def State.tcbLookFor (s : State) (t : Option Nat) (p tcb : Nat) : State :=
  match (s.hwWalk p .read tcb).2, t with
  | .violation, some t =>
    if (Tbl.get? s.teams t).any (·.state == .frozenHere) then s else s.freezeTeam t 2 tcb 0 0
  | _, _ => s.tcbSeen p tcb

/-- The hardware looks at a TCB, for the team that owns it. -/
def State.tcbLook (s : State) (p tcb : Nat) : State := s.tcbLookFor (s.teamOfTcb p tcb) p tcb

/-- A read of the TCB breaks isolation. -/
def State.tcbBreaks (s : State) (p tcb : Nat) : Bool :=
  match (s.hwWalk p .read tcb).2 with
  | .violation => true
  | _ => false

/-! ### Soot records (25_debug.md R353) -/

def State.sootOn (s : State) (c : Nat) : Bool :=
  bitNat s.soot.ctl.toNat 0 && bitNat s.soot.ctl.toNat (8 + (s.core c).b.part.toNat)

/-- A 32-byte record is written at system scope, or dropped when the ring is full. -/
def State.sootRecord (s : State) (dw0 dw2 dw3 : Nat) : State :=
  let o := s.soot
  let log2r := bitsNat o.trbase.toNat 5 0
  if 2 ^ log2r ≤ (o.trcnt + 2 ^ 64 - o.track) % 2 ^ 64 then { s with soot := { o with drop := min (o.drop + 1) (2 ^ 64 - 1) } }
  else
    let pa := bitsNat o.trbase.toNat 51 12 * 4096 + 32 * (o.trcnt % 2 ^ log2r)
    let s := s.hwWrite 4 pa (leBytes 8 dw0 ++ leBytes 8 s.ec ++ leBytes 8 dw2 ++ leBytes 8 dw3)
    ({ s with soot := { s.soot with trcnt := (s.soot.trcnt + 1) % 2 ^ 64 } }).meterUncore 136 1 1

/-- BRKk has been written in this ec (25_debug.md R352). -/
def State.brkFresh (s : State) (k : Nat) : Bool := Tbl.get 0 s.soot.brkEc k == s.ec + 1

/-- Doubleword 0 of a record about agent a of core c. -/
def sootDw0 (kind a c num : Nat) : Nat := kind * 2 ^ 56 + a * 2 ^ 40 + c * 2 ^ 32 + num % 2 ^ 32

/-- The launch number of the task on core c. -/
def State.launchNo (s : State) (c : Nat) : Nat :=
  match (s.core c).task with
  | some (t, _) =>
    match Tbl.get? s.teams t with
    | some x => ((Tbl.get? s.launches x.launch).map (·.number)).getD 0
    | none => 0
  | none => 0

/-- A wait of agent a on core c ends: its record names the setter (R353). -/
def State.endWait (s : State) (c : Nat) (a : Agent) : State :=
  match (s.ctx c).waits.find? (fun w => w.agent == a.code) with
  | none => s
  | some w =>
    let s' := s.modCtx c fun x => { x with waits := x.waits.filter fun y => y.agent != a.code }
    if s.sootOn c && bitNat s.soot.ctl.toNat 1 then
      s'.sootRecord (sootDw0 1 a.code c w.qpos)
        (w.flag * 2 ^ 56 + w.setter * 2 ^ 48 + w.setterCore * 2 ^ 40 + w.number)
        (s.launchNo c * 2 ^ 32 + min (s.ec - w.since) (2 ^ 32 - 1))
    else s'

/-- The flag that agent a of core c waits for is set by an agent: the wait ends, and its record names the setter
(08_stoker_isa.md R151). -/
def State.endedBy (s : State) (c : Nat) (a : Agent) (flag : Nat) (num : BitVec 32) (setter setterCore : Nat) : State :=
  let mine := fun (w : Wait) => w.agent == a.code && w.flag == flag && w.num == num
  let name := fun (w : Wait) => if mine w then { w with setter := setter, setterCore := setterCore } else w
  if (s.ctx c).waits.any mine then (s.modCtx c fun x => { x with waits := x.waits.map name }).endWait c a else s

/-- A wait of agent a for the flag ends, if that is what it waits on. -/
def State.endWaitOf (s : State) (c : Nat) (a : Agent) (flag : Nat) : State :=
  if (s.ctx c).waits.any (fun w => w.agent == a.code && w.flag == flag) then s.endWait c a else s

/-- The Stoker of a context waits in `sk.wfe`: its reported bits are not yet known. -/
def Ctx.inWfe (x : Ctx) : Bool := x.waits.any fun w => w.agent == 0 && w.flag == 6 && w.num == 0

/-- FLAG and flag number of a wait for events: feed or budget where one of these alone is waited for or reported
(25_debug.md R353; DEDUCED, log 40). -/
def wfeFlag (bits : BitVec 16) : Nat × BitVec 32 :=
  if bits = 0x400 then (7, 0) else if bits = 0x1000 then (8, 0) else (6, bits.setWidth 32)

/-- Latch bit k of core c is set by an agent; a wait in `sk.wfe` for it ends, and MSG names who ends a wait in `sk.recv`
(08_stoker_isa.md R151, R153, R159). -/
def State.latchEvent (s : State) (c k setter setterCore : Nat) : State :=
  let s := s.modCtx c fun x => x.event k
  let x := s.ctx c
  if x.arm.getLsbD k && x.inWfe then
    (s.modCtx c fun y => { y with waits := y.waits.map fun w =>
      if w.agent = 0 then
        { w with flag := (wfeFlag (x.latch &&& x.arm)).1, num := (wfeFlag (x.latch &&& x.arm)).2, setter := setter,
                 setterCore := setterCore }
      else w }).endWait c .sk
  else if k = 9 then s.endedBy c .sk 6 0x200 setter setterCore
  else s

/-! ### The members of a team (01_machine.md R14, R23) -/

/-- Where a member's context is: on a core, in a saved image, or nowhere any more. -/
inductive Home where
  | core (c : Nat)
  | image (i : Nat)
  | gone
  deriving DecidableEq, Repr

/-- The home of member m of the team of the task on core c: a member that has retired has one until another context takes
its core (DESIGN CHOICE, log 115). -/
def State.home (s : State) (c m : Nat) : Home :=
  let k := s.core c
  let d := mapCore k.b.tmap (c / 16) m
  if m = k.ctx.member then .core c
  else
    match k.task with
    | none => .core d
    | some (t, _) =>
      if (s.core d).task == some (t, m) then .core d
      else
        match s.images.findIdx? (fun i => i.team == t && i.member == m) with
        | some i => .image i
        | none => if (s.core d).task.isNone then .core d else .gone

def State.homeCtx (s : State) (h : Home) : Ctx :=
  match h with
  | .core d => s.ctx d
  | .image i => ((s.images[i]?).map (·.ctx)).getD Ctx.reset
  | .gone => Ctx.reset

def State.modHome (s : State) (h : Home) (f : Ctx → Ctx) : State :=
  match h with
  | .core d => s.modCtx d f
  | .image i =>
    match s.images[i]? with
    | some x => { s with images := setAt s.images i { x with ctx := f x.ctx } }
    | none => s
  | .gone => s

/-- Event k of a member: latched on its core, or in its saved context (08_stoker_isa.md R153). -/
def State.eventAt (s : State) (h : Home) (k setter setterCore : Nat) : State :=
  match h with
  | .core d => s.latchEvent d k setter setterCore
  | _ => s.modHome h fun x => x.event k

/-! ### Completing an instruction -/

/-- The instruction is counted, outside M-mode, and the next one stands at pc. -/
def Ctx.goTo (x : Ctx) (pc : Word) : Ctx := { x with pc := pc, instret := if x.mode = .m then x.instret else x.instret + 1 }

/-- The instruction retires and the next one stands at pc (08_stoker_isa.md R357, 17_energy.md R288), and a wait of it
ends. -/
def State.retireAt (s : State) (pc : Word) : State :=
  ((s.upd fun x => x.goTo pc).meter s.cur 16 1).endWait s.cur .sk

/-- The address of the next instruction. -/
def State.nextPc (s : State) : Word := s.my.pc + BitVec.ofNat 64 s.me.ilen

/-- The instruction retires and the next one in sequence follows. -/
def State.finish (s : State) : Res := .next (s.retireAt s.nextPc)

/-- The instruction waits: nothing of it is performed (08_stoker_isa.md R150, R151). -/
def State.wait (s : State) : Res := .next s

/-! ### Taking an exception and returning from one (16_system_state.md R273; DEDUCED, log 8 and PRESUMED, log 20) -/

/-- Bits of mstatus: SIE 1, MIE 3, SPIE 5, MPIE 7, SPP 8, MPP [12:11]. -/
def putBit (w : Word) (i : Nat) (v : Bool) : Word :=
  if v then w ||| BitVec.ofNat 64 (2 ^ i) else w &&& ~~~(BitVec.ofNat 64 (2 ^ i))

/-- The address a trap vector gives: the base, or base + 4 × cause for an interrupt in vectored mode. -/
def vectorOf (tvec : Word) (cause : Nat) (intr : Bool) : Word :=
  let base := tvec &&& ~~~(3#64)
  if intr && tvec.getLsbD 0 then base + BitVec.ofNat 64 (4 * cause) else base

/-- `yfop` for a code address (12_portable_form.md R262, R263): the back-map entry that covers it. -/
def State.fopOf (s : State) (c : Nat) (pc : Word) : Word :=
  match (s.core c).task with
  | none => 0
  | some (t, _) =>
    match Tbl.get? s.teams t with
    | none => 0
    | some x =>
      match (Tbl.get? s.launches x.launch).bind (·.residual) with
      | none => 0
      | some (base, r) =>
        if pc.toNat < base ∨ base + r.code.length ≤ pc.toNat then 0
        else
          match (r.back.filter fun e => decide (e.off ≤ pc.toNat - base)).getLast? with
          | some e => BitVec.ofNat 64 (2 ^ 63 + e.iter.toNat * 2 ^ 32 + e.opidx.toNat)
          | none => 0

/-- Entry to S-mode: sepc, scause and stval, the status stacked, `ytrapinfo`, `yfop` for a trap from the task, and SVC
(R273, R154, R263, 08_stoker_isa.md R176). -/
def enterS (cause : Nat) (intr : Bool) (tval : Word) (info agent sub : Nat) (fop : Word) (x : Ctx) : Ctx :=
  let st := putBit (putBit (putBit x.csr.mstatus 8 (x.mode == .s)) 5 (x.csr.mstatus.getLsbD 1)) 1 false
  { x with
    csr := { x.csr with
      mstatus := st, sepc := x.pc, stval := tval,
      scause := BitVec.ofNat 64 ((if intr then 2 ^ 63 else 0) + cause) }
    mode := .s
    pc := vectorOf x.csr.stvec cause intr
    ytrapinfo := BitVec.ofNat 64 (info % 2 ^ 32 * 2 ^ 32 + agent * 256 + sub)
    yfop := if x.mode = .u then fop else x.yfop
    ywm := if x.mode = .u then { x.ywm with svc := true } else x.ywm }

/-- Entry to M-mode: mepc, mcause and mtval, and the status stacked. -/
def enterM (cause : Nat) (tval : Word) (x : Ctx) : Ctx :=
  let mpp : Nat := match x.mode with
    | .u => 0
    | .s => 1
    | .m => 3
  let st := putBit (putBit x.csr.mstatus 7 (x.csr.mstatus.getLsbD 3)) 3 false
  { x with
    csr := { x.csr with
      mstatus := BitVec.ofNat 64 (putBits st.toNat 12 11 mpp), mepc := x.pc, mtval := tval,
      mcause := BitVec.ofNat 64 cause }
    mode := .m
    pc := vectorOf x.csr.mtvec cause false }

/-- Takes a precise exception: U-mode traps to S-mode; S-mode's own goes to M-mode, whose
firmware freezes the team and reports it; M-mode's own stays in M-mode (R273). -/
def State.takeTrap (s : State) (cause : Nat) (tval : Word) (info : Nat) : State :=
  match s.my.mode with
  | .u => s.upd (enterS cause false tval info 0 0 (s.fopOf s.cur s.my.pc))
  | .s => (s.upd (enterM cause tval)).freezeCore s.cur 3 0 0
  | .m => s.upd (enterM cause tval)

/-- The instruction raises a precise exception. -/
def State.trap (s : State) (cause : Nat) (tval : Word) (info : Nat) : Res := .next (s.takeTrap cause tval info)

/-- Takes a precise exception whose stval no rule states: stval is a free value (DESIGN CHOICE, log 106). -/
def State.takeTrapFree (s : State) (cause info : Nat) : State :=
  let w := s.takeFree
  w.2.takeTrap cause w.1 info

/-- The instruction raises a precise exception whose stval no rule states. -/
def State.trapFree (s : State) (cause info : Nat) : Res := .next (s.takeTrapFree cause info)

/-- The precise illegal-instruction trap. -/
def State.illegal (s : State) : Res := s.trapFree 2 0

/-- Return from S-mode: pc := sepc, the mode and interrupt enable restored (RISC-V SRET). -/
def leaveS (x : Ctx) : Ctx :=
  let st := x.csr.mstatus
  { x with
    csr := { x.csr with mstatus := putBit (putBit (putBit st 1 (st.getLsbD 5)) 5 true) 8 false }
    mode := if st.getLsbD 8 then .s else .u
    pc := x.csr.sepc }

/-- Return from M-mode: pc := mepc, the mode and interrupt enable restored (RISC-V MRET). -/
def leaveM (x : Ctx) : Ctx :=
  let st := x.csr.mstatus
  { x with
    csr := { x.csr with
      mstatus := BitVec.ofNat 64 (putBits (putBit (putBit st 3 (st.getLsbD 7)) 7 true).toNat 12 11 0) }
    mode := match bitsNat st.toNat 12 11 with
      | 0 => .u
      | 1 => .s
      | _ => .m
    pc := x.csr.mepc }

/-! ### Violations -/

/-- A Stoker access that breaks isolation does not perform; the team is frozen in place (R315). -/
def State.violate (s : State) : Res := .next (s.freezeCore s.cur 2 0 0)

end Sys2Proof.Machine
end

