-- ==== Sys2Proof/Machine/Operands.lean ====
section
/-! DEFINITION. The operand forms of the Stoker: registers that may be pending, typed-buffer addresses with the team
window (05_local_memory.md R79, 01_machine.md R14), the scoreboard test of a typed access (R86 to R89), global addresses
and the entry of an access into its class queue (08_stoker_isa.md R149, R150, R162). -/
namespace Sys2Proof.Machine

/-! ### Registers -/

/-- Runs k when no named register is pending; a source an uncorrectable load wrote raises cause 5 (R149, R150). -/
def State.withRegs (s : State) (srcs dsts : List Dest) (k : Res) : Res :=
  if srcs.any s.my.pending || dsts.any s.my.pending then s.wait
  else
    match srcs.findSome? s.my.poisoned with
    | some a => s.trap 5 a 0
    | none => k

/-- An x register's value. -/
def State.rx (s : State) (r : Reg) : Word := s.my.getX r

/-- Writes rd and retires (a synchronous result). -/
def State.setRd (s : State) (rd : Reg) (v : Word) : Res := (s.upd fun x => x.setX rd v).finish

/-! ### Class queues -/

def classBit (c : BitVec 4) : BitVec 16 := BitVec.ofNat 16 (2 ^ c.toNat)

def allClasses : BitVec 16 := 0xFFFF#16

/-- An entry joins the tail of its class queues (06_ordering.md R101). -/
def State.enqueue (s : State) (e : SqEnt) : State := s.upd fun x => { x with sq := x.sq ++ [e] }

/-- An acquire: an entry in all sixteen queues (R110). -/
def acquireEnt : SqEnt := { classes := allClasses, kind := .acquire, dest := .none, typed := false }

def State.acquire (s : State) : State := s.enqueue acquireEnt

/-- A class fence of a mask at a scope; a mask of 0 has no effect (R106). -/
def State.fence (s : State) (mask : BitVec 16) (scope : Nat) : State :=
  if mask = 0 then s else s.enqueue { classes := mask, kind := .fence scope, dest := .none, typed := false }

/-- A result that is known and still on its way to rd (R149). -/
def State.owe (s : State) (rd : Reg) (v : Word) : State :=
  if rd = 0 then s else s.enqueue { classes := 0, kind := .ready v, dest := destX rd, typed := false }

/-! ### Typed-buffer addresses -/

/-- Where a typed access lands, or the trap it meets. -/
inductive Typed where
  /-- Own buffer: the range in the context's own offsets, and the physical place. -/
  | own (lo : Nat) (p : Place)
  | team (p : Place)
  | bound (off : Nat)
  | badMember (m : Nat)
  deriving DecidableEq, Repr

/-- The core of a team member and the binding of the member's context there (01_machine.md R14); none of its buffers is in
reach once it has retired and others hold the core (DESIGN CHOICE, log 115). -/
def State.memberBind (s : State) (c m : Nat) : Nat × Binding :=
  let k := s.core c
  let d := mapCore k.b.tmap (c / 16) m
  let j := s.core d
  let same : Bool := match k.task, j.task with
    | some (t, _), some (t', _) => t == t'
    | _, _ => true
  let tcb := (k.task.bind fun a => (Tbl.get? s.teams a.1).bind fun x => x.members[m]?).map (·.tcb)
  let other := if j.cur = 0 then j.ent1.b else j.ent0.b
  (d, if same then j.b else if tcb = some other.tcb.toNat then other else Binding.reset)

/-- n bytes of A space from offset a (R78, R79, R14). -/
def State.aSpace (s : State) (c a n : Nat) : Typed :=
  let k := s.core c
  let own := fun (o : Nat) =>
    let lim := 4096 * k.b.aLimit
    if o + n ≤ lim then Typed.own o (.abuf c (4096 * k.b.aBase + o)) else Typed.bound (a - o + max o lim)
  if a < 0x100000 then own a
  else if a < 0x1000000 ∨ 0x2000000 ≤ a then .bound a
  else
    let m := (a - 0x1000000) / 0x100000
    let o := (a - 0x1000000) % 0x100000
    if k.ctx.teamSize ≤ m then .badMember m
    else if m = k.ctx.member then own o
    else
      let d := s.memberBind c m
      let lim := 4096 * d.2.aLimit
      if o + n ≤ lim then .team (.abuf d.1 (4096 * d.2.aBase + o)) else .bound (a - o + max o lim)

/-- n bytes of W space from offset a. -/
def State.wSpace (s : State) (c a n : Nat) : Typed :=
  let b := (s.core c).b
  let lim := 4096 * b.wLimit
  if a + n ≤ lim then .own a (.wbuf c (4096 * b.wBase + a)) else .bound (max a lim)

/-! ### The scoreboard (05_local_memory.md R86 to R89) -/

/-- The configured ring regions of a buffer (R86). -/
def Ctx.regions (x : Ctx) (inW : Bool) : List (Nat × Nat) :=
  (x.rings.filter fun r => r.2.configured && r.2.inW == inW).map fun r => (r.2.base, r.2.base + r.2.slotB * r.2.nSlot)

/-- The parts of intervals outside a region. -/
def minusRegion (ivs : List (Nat × Nat)) (r : Nat × Nat) : List (Nat × Nat) :=
  (ivs.flatMap fun i => [(i.1, min i.2 r.1), (max i.1 r.2, i.2)]).filter fun i => decide (i.1 < i.2)

/-- Whether [lo, hi) holds a byte outside every ring region. -/
def Ctx.exposed (x : Ctx) (inW : Bool) (lo hi : Nat) : Bool :=
  !((x.regions inW).foldl minusRegion (if lo < hi then [(lo, hi)] else [])).isEmpty

/-- Whether two ranges share a slot or a byte the scoreboard orders. -/
def Ctx.hits (x : Ctx) (p q : Rng) : Bool :=
  match p, q with
  | .a l h, .a l' h' => x.exposed false (max l l') (min h h')
  | .w l h, .w l' h' => x.exposed true (max l l') (min h h')
  | .slot m, .slot n => m == n
  | _, _ => false

/-- The older entries (identity below `id`) that an access of the given ranges waits on (R88, R89). -/
def Ctx.holders (x : Ctx) (id : Nat) (rd wr : List Rng) : List Entry :=
  x.entries.filter fun e =>
    e.scored && decide (e.id < id) &&
    (rd.any (fun p => e.wr.any (x.hits p)) || wr.any (fun p => e.rd.any (x.hits p) || e.wr.any (x.hits p)))

/-- The engine whose queue holds the entry with this identity, in the codes of R154; 15 for the tag writer. -/
def Ctx.engineOf (x : Ctx) (id : Nat) : Nat :=
  match (allAgents.drop 1).find? (fun a => (x.queue a).any (·.id == id)) with
  | some a => a.code
  | none => 15

/-- The range of a typed access to an own buffer, as the scoreboard sees it. -/
def typedRange (inW : Bool) (lo n : Nat) : Rng := if inW then .w lo (lo + n) else .a lo (lo + n)

/-- Runs k with the place of a typed access, after its traps and after R89 lets it go (R162). -/
def State.withTyped (s : State) (inW : Bool) (t : Typed) (n : Nat) (write : Bool) (k : Place → Res) : Res :=
  match t with
  | .bound off => s.trapFree 24 off
  | .badMember m => s.trapFree 25 m
  | .team p => k p
  | .own lo p =>
    let r := typedRange inW lo n
    match s.my.holders s.my.nextCmd (if write then [] else [r]) (if write then [r] else []) with
    | [] => k p
    | e :: _ => .next (s.noteWait s.cur .sk 5 (BitVec.ofNat 32 e.qpos) (s.my.engineOf e.id) s.cur)

/-! ### Global addresses -/

/-- Runs k with the place and the page attributes of a global access by the Stoker. M-mode addresses are physical. -/
def State.withGlobal (s : State) (acc : Acc) (va : Word) (k : State → Place → Nat → Res) : Res :=
  let fault : State → Res := fun s => s.trap (match acc with
    | .read => 13
    | .write => 15
    | .fetch => 12) va 0
  if s.my.mode = .m then
    if physExists va.toNat then k s (.dev va.toNat) 0 else .fault .noSuchMemory
  else
    match s.translate (.core s.cur .sk) s.me.b.part.toNat acc (s.my.mode == .u) va.toNat with
    | (.ok p attr, s) => k s p attr
    | (.fault, s) => fault s
    | (.violation, s) => s.violate
    | (.hole, _) => .fault .noSuchMemory

/-- The page of a virtual address is lent by this task's partition (08_stoker_isa.md R174). -/
def State.isLent (s : State) (part va : Nat) : Bool :=
  s.lent.any fun l => l.part == part && decide (l.page ≤ va) && decide (va < l.page + l.size)

/-- The page-offset bits of an address in a lent page, at the size at which it was lent (R174, R177). -/
def State.lentOffset (s : State) (part va : Nat) : Nat :=
  match s.lent.find? fun l => l.part == part && decide (l.page ≤ va) && decide (va < l.page + l.size) with
  | some l => va % l.size
  | none => 0

/-- The size in bytes of a width code. -/
def widthBytes (w : BitVec 2) : Nat := 2 ^ w.toNat

/-- The low n bytes of a value, sign- or zero-extended. -/
def extend (n : Nat) (sext : Bool) (v : Nat) : Word :=
  if sext then BitVec.ofInt 64 (sextNat (8 * n) v) else BitVec.ofNat 64 (v % 2 ^ (8 * n))

end Sys2Proof.Machine
end

