-- ==== Sys2Proof/Machine/Fetch.lean ====
section
/-! DEFINITION. Instruction fetch: directly from memory, or from a compressed code image (07_encoding.md R122, R124, R146,
R147). -/
namespace Sys2Proof.Machine

/-- What a fetch answers: bytes; a translation fault; a malformed image; an uncorrectable error; a violation; or an
address where no memory is. -/
inductive Fetch where
  | ok (bs : List Byte) (s : State)
  | page (s : State)
  | image (s : State)
  | error (s : State)
  | violation (s : State)
  | hole
  deriving DecidableEq, Repr

/-- The fetched bytes handed on. -/
def Fetch.bind (r : Fetch) (k : List Byte → State → Fetch) : Fetch :=
  match r with
  | .ok bs s => k bs s
  | .page s => .page s
  | .image s => .image s
  | .error s => .error s
  | .violation s => .violation s
  | .hole => .hole

/-- n bytes at va, all in one page, read for execution by agent a of core c. -/
def State.fetchPage (s : State) (c : Nat) (a : Agent) (user : Bool) (va n : Nat) : Fetch :=
  match s.translate (.core c a) (s.core c).b.part.toNat .fetch user va with
  | (.ok p _, s) =>
    let r := s.readErrors (.core c a) (s.core c).b.part.toNat false p n va
    if r.2 then .error r.1 else .ok (r.1.readPlace (.core c a) p n) r.1
  | (.fault, s) => .page s
  | (.violation, s) => .violation s
  | (.hole, _) => .hole

/-- n bytes at va, at most one page boundary among them. -/
def State.fetchRaw (s : State) (c : Nat) (a : Agent) (user : Bool) (va n : Nat) : Fetch :=
  let k := 4096 - va % 4096
  if n ≤ k then s.fetchPage c a user va n
  else
    (s.fetchPage c a user va k).bind fun b1 s =>
      (s.fetchPage c a user (va + k) (n - k)).bind fun b2 s => .ok (b1 ++ b2) s

/-- The halfwords of a compressed line: bitmap h, items from byte list bs on (R147). -/
def expandLine (dict : List Byte) (h : Nat) : Nat → List Byte → List Byte
  | 0, _ => []
  | n + 1, bs =>
    if bitNat h (31 - n) then
      let d := (bs.head?.getD 0).toNat
      (dict.drop (2 * d)).take 2 ++ expandLine dict h n (bs.drop 1)
    else bs.take 2 ++ expandLine dict h n (bs.drop 2)

/-- Length in halfwords of a compressed line with bitmap h (R147). -/
def lineHalves (h : Nat) : Nat :=
  let ones := ((List.range 32).filter (bitNat h)).length
  (4 + ones + 2 * (32 - ones) + 1) / 2

/-- The 64 native bytes of line i of the image whose header stands at `hdr` (R146, R147). An image page that cannot be
fetched lies outside the image. -/
def State.imageLine (s : State) (c : Nat) (a : Agent) (user : Bool) (hdr latt dict i : Nat) : Fetch :=
  let out : Fetch → Fetch := fun r => match r with
    | .page s => .image s
    | r => r
  out ((s.fetchRaw c a user (hdr + latt + 4 * i) 4).bind fun e s =>
    let ent := leNat e
    let at' := hdr + 2 * bitsNat ent 24 0
    if bitNat ent 31 then s.fetchRaw c a user at' 64
    else
      (s.fetchRaw c a user at' 4).bind fun hb s =>
        let h := leNat hb
        let n := lineHalves h
        if bitsNat ent 30 25 ≠ n ∨ 32 < n then .image s
        else
          (s.fetchRaw c a user (at' + 4) (2 * n - 4)).bind fun body s =>
            (s.fetchRaw c a user (hdr + dict) 512).bind fun d s => .ok (expandLine d h 32 body) s)

/-- n bytes at a native address, at most one line or page boundary among them, by agent a of core c (R146; DEDUCED, log 46). -/
def State.fetchCode (s : State) (c : Nat) (a : Agent) (user : Bool) (va n : Nat) : Fetch :=
  let hdr := (s.core c).b.codebase.toNat
  if hdr = 0 then s.fetchRaw c a user va n
  else
    (s.fetchRaw c a user hdr 64).bind fun h s =>
      let f := fun (i n : Nat) => leNat ((h.drop i).take n)
      let nbase := f 8 8
      let nline := f 4 4
      if f 0 4 ≠ 0x4D494359 ∨ f 24 40 ≠ 0 ∨ nbase % 64 ≠ 0 then .image s
      else if va < nbase ∨ nbase + 64 * nline ≤ va then s.fetchRaw c a user va n
      else
        let k := 64 - va % 64
        let line := fun (s : State) (v m : Nat) =>
          (s.imageLine c a user hdr (f 16 4) (f 20 4) ((v - nbase) / 64)).bind fun bs s =>
            .ok ((bs.drop (v % 64)).take m) s
        if n ≤ k then line s va n
        else
          (line s va k).bind fun b1 s =>
            let v := va + k
            (if nbase + 64 * nline ≤ v then s.fetchRaw c a user v (n - k) else line s v (n - k)).bind fun b2 s =>
              .ok (b1 ++ b2) s

/-- n halfwords of a stream from va on. -/
def State.fetchHalves (s : State) (c : Nat) (a : Agent) (va : Nat) : Nat → Fetch
  | 0 => .ok [] s
  | n + 1 =>
    (s.fetchHalves c a va n).bind fun bs s =>
      (s.fetchCode c a true (va + 2 * n) 2).bind fun b s => .ok (bs ++ b) s

/-- Bytes as halfwords (R122). -/
def halves : List Byte → List (BitVec 16)
  | b0 :: b1 :: t => (b1 ++ b0) :: halves t
  | _ => []

end Sys2Proof.Machine
end

