-- ==== Sys2Proof/Machine/Csr.lean ====
section
/-! DEFINITION. The control and status registers: what each reads and what a write of each does
(08_stoker_isa.md R152 to R154, R357; 16_system_state.md R273, R274; 20_translation_faults.md R312, R313; the standard
RISC-V registers, PRESUMED, log 19). -/
namespace Sys2Proof.Machine

/-- The agent numbered k in R154; the Stoker above 6. -/
def agentOf (k : Nat) : Agent :=
  match k with
  | 1 => .vx
  | 2 => .mx
  | 3 => .cx
  | 4 => .gx
  | 5 => .fx
  | 6 => .cl
  | _ => .sk

/-- Doubleword d of a fault record (R312); the last holds VXST for VX (09_vector_isa.md R187; DESIGN CHOICE, log 129). -/
def FaultRec.dword (r : FaultRec) (d : Nat) : Word :=
  match d with
  | 0 => r.fstat
  | 1 => r.prog
  | 2 => r.addr
  | 3 => r.cmd
  | 4 => r.fop
  | 5 => r.task
  | 6 => r.action.setWidth 64
  | _ => r.vxst.setWidth 64

/-- Whether interrupt 18 is pending: a valid record whose ACTION is 0 (R311); a violation's record, with FRZ set, delivers
nothing to S-mode (R315). -/
def Ctx.engineFault (x : Ctx) : Bool := x.faults.any fun r => r.2.valid && r.2.todo == 0 && !r.2.fstat.getLsbD 62

/-- Pending S-mode interrupts, as sip shows them: the throttle warning is the core's (17_energy.md R290). -/
def Core.sip (k : Core) : Word :=
  putBit (putBit (k.ctx.csr.mip &&& 0x222#64) 18 k.ctx.engineFault) 17 k.throttle.isSome

/-- The bits of mstatus that sstatus shows, and those each may write; FS and SD are fixed (PRESUMED, log 19). -/
def sstatusMask : Word := 0x80000003000DE762#64

def sstatusWrite : Word := 0x00000000000C0122#64

def mstatusWrite : Word := 0x00000000007C19AA#64

/-- The exceptions and interrupts whose delegation software cannot clear (R273). -/
def medelegFixed : Word := 0x00000000FF00B1FF#64

def midelegFixed : Word := 0x0000000000060000#64

/-- The new value of a register that writes only the bits of a mask. -/
def maskWrite (old mask v : Word) : Word := (old &&& ~~~mask) ||| (v &&& mask)

/-- mstatus after a write; MPP keeps its value on a write of the mode code 2, which names none. -/
def newMstatus (old v : Word) : Word :=
  if bitsNat v.toNat 12 11 = 2 then maskWrite old (mstatusWrite &&& ~~~(0x1800#64)) v else maskWrite old mstatusWrite v

/-- `ywm` as a word (R175). -/
def Ywm.word (w : Ywm) : Word :=
  BitVec.ofNat 64 ((if w.qlact then 2 ^ 63 else 0) + (if w.parked then 2 ^ 62 else 0) + (if w.svc then 2 ^ 61 else 0) +
    w.cl.toNat * 2 ^ 40 + w.fx.toNat * 2 ^ 32 + w.gx.toNat * 2 ^ 24 + w.cx.toNat * 2 ^ 16 + w.mx.toNat * 2 ^ 8 +
    w.vx.toNat)

/-- The applied cap and grant of an island, derated as of its latest step (17_energy.md R284, 24_power_bringup.md R348). -/
def Island.capOf (i : Island) : Nat := if i.derated then 3 * i.cap.toNat / 4 else i.cap.toNat

def Island.grantOf (i : Island) : Nat := min i.grant.toNat i.capOf

/-- `ybudget` (R154): CAP and GRANT as the latest step applied them to the island (DESIGN CHOICE, log 125). -/
def State.ybudget (s : State) (c : Nat) : Word :=
  let i := s.island c
  BitVec.ofNat 64 (i.capOf * 2 ^ 40 + i.grantOf * 2 ^ 32 + codeInt 24 i.bucket)

/-- `ycostN` (R154, 17_energy.md R288). -/
def State.ycost (s : State) (n : Nat) : Word :=
  if n = 0 then BitVec.ofNat 64 (leNat ((List.range 8).map fun c => BitVec.ofNat 8 (Config.classCost c)))
  else if n ≤ 7 then
    BitVec.ofNat 64 ((List.range 4).foldr (fun q a => s.cost (4 * (n - 1) + q) % 65536 + 65536 * a) 0)
  else 0

/-- Binding registers as words (16_system_state.md R274, R275). -/
def bufWord (base limit : Nat) : Word := BitVec.ofNat 64 (limit * 2 ^ 32 + base)

/-- `ypcore`. -/
def ypcoreWord (c : Nat) : Word := BitVec.ofNat 64 (c * 256 + c / 16 * 16 + c % 16)

/-- What a CSR reads; none where no CSR has the number. -/
def State.csrRead (s : State) (n : Nat) : Option Word :=
  let x := s.my
  let k := s.me
  if 0x5D0 ≤ n ∧ n < 0x600 then
    some ((x.fault (agentOf ((n - 0x5D0) / 8 + 1))).dword (n % 8))
  else if 0xCD0 ≤ n ∧ n ≤ 0xCDF then some (s.ycost (n - 0xCD0))
  else if 0xC03 ≤ n ∧ n ≤ 0xC1F then some 0
  else
    match n with
    | 0x001 => some (x.fflags.setWidth 64)
    | 0x002 => some (x.frm.setWidth 64)
    | 0x003 => some ((x.frm ++ x.fflags).setWidth 64)
    | 0x800 => some (x.ycls.setWidth 64)
    | 0x801 => some (x.yscope.setWidth 64)
    | 0x802 => some ((x.arm.setWidth 64 <<< 32) ||| x.latch.setWidth 64)
    | 0x803 => some x.ywm.word
    | 0x80F => some Config.yident
    | 0xC00 => some (BitVec.ofNat 64 x.cycle)
    | 0xC01 => some (BitVec.ofNat 64 s.time)
    | 0xC02 => some (BitVec.ofNat 64 x.instret)
    | 0xCC0 => some x.ytask
    | 0xCC1 => some x.yteam
    | 0xCC2 => some x.ystage
    | 0xCC3 => some ((x.segCost.setWidth 64 <<< 32) ||| x.segRemain.setWidth 64)
    | 0xCC4 => some (s.ybudget s.cur)
    | 0xCC5 => some x.yjoule
    | 0xCC6 => some x.ytrapinfo
    | 0xCC7 => some Config.ymxcap
    | 0xCC8 => some x.yfop
    | 0x5C0 => some x.yqlvec
    | 0x5C1 => some x.yqlepc
    | 0x5C2 => some (ypcoreWord s.cur)
    | 0x5C3 => some k.b.tmap
    | 0x5C4 => some (bufWord k.b.aBase k.b.aLimit)
    | 0x5C5 => some (bufWord k.b.wBase k.b.wLimit)
    | 0x5C6 => some k.b.codebase
    | 0x5C7 => some k.b.tcb
    | 0x5C8 => some (k.b.part.setWidth 64)
    | 0x100 => some (x.csr.mstatus &&& sstatusMask)
    | 0x104 => some (x.csr.mie &&& 0x60222#64)
    | 0x105 => some x.csr.stvec
    | 0x106 => some x.csr.scounteren
    | 0x10A => some x.csr.senvcfg
    | 0x140 => some x.csr.sscratch
    | 0x141 => some x.csr.sepc
    | 0x142 => some x.csr.scause
    | 0x143 => some x.csr.stval
    | 0x144 => some s.me.sip
    | 0x180 => some 0
    | 0x300 => some x.csr.mstatus
    | 0x301 => some 0x800000000014112D#64
    | 0x302 => some medelegFixed
    | 0x303 => some (x.csr.mideleg ||| midelegFixed)
    | 0x304 => some x.csr.mie
    | 0x305 => some x.csr.mtvec
    | 0x306 => some x.csr.mcounteren
    | 0x30A => some x.csr.menvcfg
    | 0x340 => some x.csr.mscratch
    | 0x341 => some x.csr.mepc
    | 0x342 => some x.csr.mcause
    | 0x343 => some x.csr.mtval
    | 0x344 => some (x.csr.mip ||| s.me.sip)
    | 0xB00 => some (BitVec.ofNat 64 x.cycle)
    | 0xB02 => some (BitVec.ofNat 64 x.instret)
    | 0xF11 => some 0
    | 0xF12 => some 0
    | 0xF13 => some 0
    | 0xF14 => some (BitVec.ofNat 64 s.cur)
    | 0xF15 => some 0
    | _ => none

/-- Whether a mode may access a CSR number at all. -/
def csrMode (md : Mode) (n : Nat) : Bool :=
  match md with
  | .u => bitsNat n 9 8 == 0
  | .s => decide (bitsNat n 9 8 ≤ 1)
  | .m => true

/-- The ACTION of agent a's record is written: it acts after a full fence at device scope (R313). -/
def State.writeAction (s : State) (a : Agent) (v : BitVec 2) : State :=
  let ok := (s.my.fault a).valid
  let s := s.upd fun x => let r := x.fault a; x.setFault a { r with action := v, todo := if ok then v else r.todo }
  if ok && v != 0 then
    (s.fence allClasses 2).enqueue { classes := allClasses, kind := .action a, dest := .none, typed := false }
  else s

/-- What a write of a CSR does; none where the number is read-only, illegal to write, or no CSR. -/
def State.csrWrite (s : State) (n : Nat) (v : Word) : Option State :=
  let c := fun (f : Csrs → Csrs) => some (s.upd fun x => { x with csr := f x.csr })
  if 0x5D0 ≤ n ∧ n < 0x600 then
    if n % 8 = 6 then some (s.writeAction (agentOf ((n - 0x5D0) / 8 + 1)) (v.setWidth 2)) else none
  else
    match n with
    | 0x001 => some (s.upd fun x => { x with fflags := v.setWidth 5 })
    | 0x002 => some (s.upd fun x => { x with frm := v.setWidth 3 })
    | 0x003 => some (s.upd fun x => { x with fflags := v.setWidth 5, frm := v.extractLsb' 5 3 })
    | 0x800 => some (s.upd fun x => { x with ycls := v.setWidth 4 })
    | 0x801 => some (s.upd fun x => { x with yscope := if (v.setWidth 3).toNat ≤ 4 then v.setWidth 3 else x.yscope })
    | 0x80F => some s
    | 0x5C0 => some (s.upd fun x => { x with yqlvec := v &&& ~~~(3#64) })
    | 0x5C1 => some (s.upd fun x => { x with yqlepc := v })
    | 0x100 => c fun r => { r with mstatus := maskWrite r.mstatus sstatusWrite v }
    | 0x104 => c fun r => { r with mie := maskWrite r.mie 0x60222#64 v }
    | 0x105 => c fun r => { r with stvec := v &&& ~~~(2#64) }
    | 0x106 => c fun r => { r with scounteren := v &&& 0xFFFFFFFF#64 }
    | 0x10A => c fun r => { r with senvcfg := v &&& 1#64 }
    | 0x140 => c fun r => { r with sscratch := v }
    | 0x141 => c fun r => { r with sepc := v &&& ~~~(1#64) }
    | 0x142 => c fun r => { r with scause := v }
    | 0x143 => c fun r => { r with stval := v }
    | 0x144 => c fun r => { r with mip := maskWrite r.mip 2#64 v }
    | 0x180 => some s
    | 0x300 => c fun r => { r with mstatus := newMstatus r.mstatus v }
    | 0x301 => some s
    | 0x302 => some s
    | 0x303 => c fun r => { r with mideleg := v &&& 0x222#64 }
    | 0x304 => c fun r => { r with mie := v &&& 0x60AAA#64 }
    | 0x305 => c fun r => { r with mtvec := v &&& ~~~(2#64) }
    | 0x306 => c fun r => { r with mcounteren := v &&& 0xFFFFFFFF#64 }
    | 0x30A => c fun r => { r with menvcfg := v &&& 1#64 }
    | 0x340 => c fun r => { r with mscratch := v }
    | 0x341 => c fun r => { r with mepc := v &&& ~~~(1#64) }
    | 0x342 => c fun r => { r with mcause := v }
    | 0x343 => c fun r => { r with mtval := v }
    | 0x344 => c fun r => { r with mip := v &&& 0x222#64 }
    | 0xB00 => some (s.upd fun x => { x with cycle := v.toNat })
    | 0xB02 => some (s.upd fun x => { x with instret := v.toNat })
    | _ => none

/-- The value a CSR function makes of the old value and its operand. -/
def csrNew (op : CsrOp) (old v : Word) : Word :=
  match op with
  | .rw => v
  | .rs => old ||| v
  | .rc => old &&& ~~~v

/-- The operand of a CSR instruction: a register, or a five-bit immediate. -/
def State.csrArg (s : State) (uimm : Bool) (rs1 : Reg) : Word := if uimm then rs1.setWidth 64 else s.rx rs1

/-- The registers a CSR instruction reads. -/
def csrSrcs (uimm : Bool) (rs1 : Reg) : List Dest := if uimm then [] else [destX rs1]

end Sys2Proof.Machine
end

