-- ==== Sys2Proof/Machine/Special.lean ====
section
/-! DEFINITION. The special functions of the VX special-function unit (03_numbers.md R64): the correctly rounded FP32
results. Exact results are found by arithmetic; every other result lies strictly between two bounds, computed in fixed
point with p fraction bits and an error radius, and the precision is raised until both bounds round alike (DEDUCED, log 11). -/
namespace Sys2Proof.Machine

/-- The integer square root, bit by bit from 2^i down. -/
def isqrtFrom (n : Nat) : Nat → Nat → Nat
  | 0, r => if (r + 1) * (r + 1) ≤ n then r + 1 else r
  | i + 1, r =>
    let s := r + 2 ^ (i + 1)
    isqrtFrom n i (if s * s ≤ n then s else r)

/-- floor of the square root of n. -/
def isqrt (n : Nat) : Nat := isqrtFrom n (Nat.log2 n / 2 + 1) 0

/-- Sum of the series t0, t1, … where the next term is `next k t`, until a term is 0 or the fuel ends. -/
def series (next : Nat → Int → Int) : Nat → Nat → Int → Int
  | 0, _, _ => 0
  | f + 1, k, t => if t = 0 then 0 else t + series next f (k + 1) (next k t)

/-- atanh(1/n) with p fraction bits: the sum of 1 / ((2k + 1) n^(2k + 1)). -/
def atanhInv (p n : Nat) : Nat → Nat → Nat → Nat
  | 0, _, _ => 0
  | f + 1, k, t => if t = 0 then 0 else t / (2 * k + 1) + atanhInv p n f (k + 1) (t / (n * n))

/-- atan(1/n) with p fraction bits. -/
def atanInv (p n : Nat) : Nat → Nat → Int → Int
  | 0, _, _ => 0
  | f + 1, k, t => if t = 0 then 0 else t / ((2 * k + 1 : Nat) : Int) + atanInv p n f (k + 1) (-t / ((n * n : Nat) : Int))

/-- ln 2 = 2 atanh(1/3). -/
def ln2Fix (p : Nat) : Nat := 2 * atanhInv p 3 p 0 (2 ^ p / 3)

/-- π = 16 atan(1/5) - 4 atan(1/239). -/
def piFix (p : Nat) : Nat :=
  (16 * atanInv p 5 p 0 ((2 ^ p / 5 : Nat) : Int) - 4 * atanInv p 239 p 0 ((2 ^ p / 239 : Nat) : Int)).toNat

/-- e^(-y) for 0 ≤ y < 1 with p fraction bits. -/
def expNegSmall (p : Nat) (y : Nat) : Int :=
  series (fun k t => -(t * (y : Int) / ((2 ^ p : Nat) : Int)) / ((k + 1 : Nat) : Int)) p 0 ((2 ^ p : Nat) : Int)

/-- e^(-y) for y ≥ 0 with p fraction bits. -/
def expNeg (p y : Nat) : Nat :=
  if y ≥ p * 2 ^ p then 0
  else
    let l := ln2Fix p
    let k := y / l
    (expNegSmall p (y - k * l)).toNat / 2 ^ k

/-- 2^f for 0 ≤ f < 1 with p fraction bits: 2 e^(-(1 - f) ln 2). -/
def exp2Frac (p f : Nat) : Nat := 2 * (expNegSmall p ((2 ^ p - f) * ln2Fix p / 2 ^ p)).toNat

/-- ln y for 1 ≤ y < 2 with p fraction bits: 2 atanh((y - 1) / (y + 1)). -/
def lnFix (p y : Nat) : Nat :=
  let z := (y - 2 ^ p) * 2 ^ p / (y + 2 ^ p)
  let z2 := z * z / 2 ^ p
  let rec go : Nat → Nat → Nat → Nat
    | 0, _, _ => 0
    | f + 1, k, t => if t = 0 then 0 else t / (2 * k + 1) + go f (k + 1) (t * z2 / 2 ^ p)
  2 * go p 0 z

/-- sin θ and cos θ for 0 ≤ θ < 2 with p fraction bits. -/
def sinFix (p t : Nat) : Int :=
  let q : Int := ((t * t / 2 ^ p : Nat) : Int)
  series (fun k u => -(u * q / ((2 ^ p : Nat) : Int)) / (((2 * k + 2) * (2 * k + 3) : Nat) : Int)) p 0 (t : Int)

def cosFix (p t : Nat) : Int :=
  let q : Int := ((t * t / 2 ^ p : Nat) : Int)
  series (fun k u => -(u * q / ((2 ^ p : Nat) : Int)) / (((2 * k + 1) * (2 * k + 2) : Nat) : Int)) p 0 ((2 ^ p : Nat) : Int)

/-- A magnitude between lo * 2^e and hi * 2^e. -/
structure Bounds where
  lo : Nat
  hi : Nat
  e : Int
  deriving DecidableEq, Repr

/-- The error radius, in units of the last fraction bit, that covers every fixed-point computation of this file. -/
def errRadius : Nat := 2 ^ 48

/-- The bounds around a fixed-point value with p fraction bits, times 2^e. -/
def Bounds.around (p : Nat) (v : Int) (e : Int) : Bounds :=
  { lo := (v - errRadius).toNat, hi := (v + errRadius).toNat, e := e - p }

/-- The bounds multiplied by m * 2^e. -/
def Bounds.times (b : Bounds) (m : Nat) (e : Int) : Bounds := { lo := b.lo * m, hi := b.hi * m, e := b.e + e }

/-- A magnitude below 2^-300. -/
def Bounds.tiny : Bounds := { lo := 0, hi := 1, e := -300 }

/-- The FP32 code, RNE, of a magnitude, and whether it lies below the smallest normal. -/
def fp32Code (n : Nat) (e : Int) : Nat × Bool :=
  if n = 0 then (0, true)
  else let t := shiftQ n 1 e; ((roundQ .fp32 .rne false false t.1 t.2).1, log2Q t.1 t.2 < -126)

/-- The code both bounds round to, at the first precision of p, 2p, 4p at which they do. -/
def ziv (b : Nat → Bounds) : Nat → Nat → Nat × Bool
  | 0, p => let x := b p; fp32Code x.lo x.e
  | f + 1, p =>
    let x := b p
    let lo := fp32Code x.lo x.e
    if lo = fp32Code x.hi x.e then lo else ziv b f (2 * p)

/-- The result of an inexact function value with sign s, given its bounds at each precision. -/
def inexactResult (s : Bool) (b : Nat → Bounds) : Nat × Fl :=
  let r := ziv b 2 464
  (Fmt.fp32.signed s r.1, { Fl.inexact with of := r.1 == 0x7F800000, uf := r.2 })

/-- The number m * 2^e as a fixed-point value with p fraction bits. -/
def toFix (p m : Nat) (e : Int) : Nat := let t := shiftQ m 1 (e + p); t.1 / t.2

/-- An exact value, or one that a sticky bit below it makes inexact, rounded to FP32 RNE. -/
def stickyRound (s : Bool) (n : Nat) (exact : Bool) (e : Int) : Nat × Fl :=
  roundTo .fp32 .rne false (if exact then .fin s n e else .fin s (2 * n + 1) (e - 1))

/-- 2^x (R64). -/
def fnExp2 (s : Bool) (m : Nat) (e : Int) : Nat × Fl :=
  let i := (Val.fin s m e).floorAt 0
  if i.1 > 200 then overflowOf .fp32 .rne false false
  else if i.1 < -200 then (0, { Fl.inexact with uf := true })
  else if !i.2 then roundTo .fp32 .rne false (.fin false 1 i.1)
  else
    inexactResult false fun p =>
      let x : Int := if s then -(toFix p m e : Int) else (toFix p m e : Int)
      Bounds.around p (exp2Frac p (x - i.1 * ((2 ^ p : Nat) : Int)).toNat : Nat) i.1

/-- log2 x of a positive x (R64). -/
def fnLog2 (m : Nat) (e : Int) : Nat × Fl :=
  let k := Nat.log2 m
  let n : Int := (k : Int) + e
  if m = 2 ^ k then roundTo .fp32 .rne false (Val.ofInt n 0)
  else
    inexactResult (n < 0) fun p =>
      let y := toFix p m (-(k : Int))
      let f := lnFix p y * 2 ^ p / ln2Fix p
      Bounds.around p (n * ((2 ^ p : Nat) : Int) + (f : Int)).natAbs 0

/-- 1/x of a nonzero x (R64). -/
def fnRecip (s : Bool) (m : Nat) (e : Int) : Nat × Fl :=
  let t := shiftQ 1 m (-e)
  roundQ .fp32 .rne false s t.1 t.2

/-- The square root of a positive x (R64). -/
def fnSqrt (m : Nat) (e : Int) : Nat × Fl :=
  let odd : Nat := (e % 2).toNat
  let n := m * 2 ^ (odd + 80)
  let r := isqrt n
  stickyRound false r (r * r = n) ((e - odd - 80) / 2)

/-- 1/√x of a positive x (R64). -/
def fnRsqrt (m : Nat) (e : Int) : Nat × Fl :=
  let odd : Nat := (e % 2).toNat
  let n := 2 ^ (160 + odd)
  let r := isqrt (n / m)
  stickyRound false r (r * r * m = n) (-(e + odd + 160) / 2)

/-- The logistic function of (-1)^s y for a fixed-point y ≥ 0 with p fraction bits. -/
def logisticFix (p : Nat) (s : Bool) (y : Nat) : Nat :=
  let ex := expNeg p y
  (if s then ex else 2 ^ p) * 2 ^ p / (2 ^ p + ex)

/-- tanh x of a nonzero x (R64). -/
def fnTanh (s : Bool) (m : Nat) (e : Int) : Nat × Fl :=
  inexactResult s fun p =>
    if log2Q m 1 + e > 12 then Bounds.around p ((2 ^ p : Nat) - errRadius : Int) 0
    else
      let ex := expNeg p (2 * toFix p m e)
      Bounds.around p (((2 ^ p - ex) * 2 ^ p / (2 ^ p + ex) : Nat)) 0

/-- 1/(1 + e^-x) of a nonzero x (R64). -/
def fnSigmoid (s : Bool) (m : Nat) (e : Int) : Nat × Fl :=
  inexactResult false fun p =>
    if log2Q m 1 + e > 12 then (if s then Bounds.tiny else Bounds.around p ((2 ^ p : Nat) - errRadius : Int) 0)
    else Bounds.around p (logisticFix p s (toFix p m e)) 0

/-- x/(1 + e^-x) of a nonzero x (R64). -/
def fnSilu (s : Bool) (m : Nat) (e : Int) : Nat × Fl :=
  inexactResult s fun p =>
    if log2Q m 1 + e > 12 then
      (if s then Bounds.tiny else (Bounds.around p ((2 ^ p : Nat) - errRadius : Int) 0).times m e)
    else (Bounds.around p (logisticFix p s (toFix p m e)) 0).times m e

/-- x times the logistic function of 2√(2/π)(x + 0.044715 x³), which is GELU-tanh, of a nonzero x (R64). -/
def fnGelu (s : Bool) (m : Nat) (e : Int) : Nat × Fl :=
  inexactResult s fun p =>
    if log2Q m 1 + e > 6 then
      (if s then Bounds.tiny else (Bounds.around p ((2 ^ p : Nat) - errRadius : Int) 0).times m e)
    else
      let c := isqrt (2 * 2 ^ (3 * p) / piFix p)
      let x := toFix p m e
      let x3 := toFix p (m * m * m) (3 * e)
      let w := 2 * c * (x + 44715 * x3 / 1000000) / 2 ^ p
      (Bounds.around p (logisticFix p s w) 0).times m e

/-- sin or cos of a quarter turn times q + r, where r is the fraction: the quadrant's function, and the sign. -/
def fnTurn (cosine : Bool) (s : Bool) (m : Nat) (e : Int) : Nat × Fl :=
  let t := (Val.fin false m (e + 2)).floorAt 0
  let q := (t.1 % 4).toNat
  let odd := q % 2 = 1
  let useCos : Bool := cosine != decide (odd)
  let negq : Bool := if cosine then q == 1 || q == 2 else q == 2 || q == 3
  let sgn : Bool := if cosine then negq else negq != s
  if !t.2 then
    if useCos then roundTo .fp32 .rne false (.fin sgn 1 0)
    else (zeroOf .fp32 (if cosine then false else s), Fl.none)
  else
    inexactResult sgn fun p =>
      let r := toFix p m (e + 2) % 2 ^ p
      let th := r * piFix p / 2 ^ (p + 1)
      Bounds.around p (if useCos then cosFix p th else sinFix p th) 0

/-- F(x) of R64, by the code of 09_vector_isa.md R190. -/
def specialFn (code : Nat) (x : Val) : Nat × Fl :=
  let nan := Fmt.fp32.nanCode
  let inf := fun (s : Bool) => Fmt.fp32.signed s 0x7F800000
  let zero := fun (s : Bool) => Fmt.fp32.signed s 0
  let one := fun (s : Bool) => Fmt.fp32.signed s 0x3F800000
  match x with
  | .nan sig => (nan, Fl.nvIf sig)
  | .inf s =>
    match code with
    | 0 => (if s then zero false else inf false, Fl.none)
    | 1 => if s then (nan, Fl.invalid) else (inf false, Fl.none)
    | 2 => (zero s, Fl.none)
    | 3 => if s then (nan, Fl.invalid) else (zero false, Fl.none)
    | 4 => if s then (nan, Fl.invalid) else (inf false, Fl.none)
    | 5 => (one s, Fl.none)
    | 6 => (if s then zero false else one false, Fl.none)
    | 7 => (if s then zero true else inf false, Fl.none)
    | 8 => (if s then zero true else inf false, Fl.none)
    | _ => (nan, Fl.invalid)
  | .fin s m e =>
    if m = 0 then
      match code with
      | 0 => (one false, Fl.none)
      | 1 => (inf true, Fl.divZero)
      | 2 => (inf s, Fl.divZero)
      | 3 => (inf s, Fl.divZero)
      | 4 => (zero s, Fl.none)
      | 5 => (zero s, Fl.none)
      | 6 => (0x3F000000, Fl.none)
      | 7 => (zero s, Fl.none)
      | 8 => (zero s, Fl.none)
      | 9 => (zero s, Fl.none)
      | _ => (one false, Fl.none)
    else
      match code with
      | 0 => fnExp2 s m e
      | 1 => if s then (nan, Fl.invalid) else fnLog2 m e
      | 2 => fnRecip s m e
      | 3 => if s then (nan, Fl.invalid) else fnRsqrt m e
      | 4 => if s then (nan, Fl.invalid) else fnSqrt m e
      | 5 => fnTanh s m e
      | 6 => fnSigmoid s m e
      | 7 => fnSilu s m e
      | 8 => fnGelu s m e
      | 9 => fnTurn false s m e
      | _ => fnTurn true s m e

end Sys2Proof.Machine
end

