-- ==== Sys2Proof/Machine/Float.lean ====
section
/-! DEFINITION. The floating-point arithmetic of the Stoker's F and D instructions, as the RISC-V unprivileged
specification gives it (07_encoding.md R121; PRESUMED, log 20). An f register holds 64 bits; a single-precision value is
NaN-boxed in it. -/
namespace Sys2Proof.Machine

/-- The format of a single- or double-precision operation. -/
def rvFmt (dbl : Bool) : Fmt := if dbl then .fp64 else .fp32

/-- The value an operation reads from a register's bits; a single that is not NaN-boxed reads as the canonical NaN. -/
def rvVal (dbl : Bool) (v : Word) : Val :=
  if dbl then decodeEl .fp64 v.toNat
  else if bitsNat v.toNat 63 32 = 0xFFFFFFFF then decodeEl .fp32 v.toNat else .nan false

/-- The code of a single-precision register, the canonical NaN where it is not NaN-boxed. -/
def rvCode (dbl : Bool) (v : Word) : Nat :=
  if dbl then v.toNat else if bitsNat v.toNat 63 32 = 0xFFFFFFFF then v.toNat % 2 ^ 32 else Fmt.fp32.nanCode

/-- A result as register bits: a single is NaN-boxed. -/
def rvBox (dbl : Bool) (c : Nat) : Word :=
  if dbl then BitVec.ofNat 64 c else BitVec.ofNat 64 (0xFFFFFFFF * 2 ^ 32 + c % 2 ^ 32)

/-- The rounding mode of an effective rm field; codes 5 and 6 are illegal. -/
def rvRm (rm frm : BitVec 3) : Option Rm :=
  let m := if rm = 7 then frm else rm
  match m.toNat with
  | 0 => some .rne
  | 1 => some .rtz
  | 2 => some .rdn
  | 3 => some .rup
  | 4 => some .rmm
  | _ => none

/-- A nonzero quotient rounded, with underflow detected after rounding. -/
def rvRoundQ (f : Fmt) (mode : Rm) (s : Bool) (num den : Nat) : Nat × Fl :=
  let r := roundQ f mode false s num den
  let ex := log2Q num den
  if r.2.uf && decide (ex = f.emin - 1) then
    let t := shiftQ num den ((f.mbits : Int) - ex)
    (r.1, { r.2 with uf := roundMag mode s t.1 t.2 < 2 ^ (f.mbits + 1) })
  else r

/-- An exact value rounded. -/
def rvRound (f : Fmt) (mode : Rm) (v : Val) : Nat × Fl :=
  match v with
  | .nan _ => (f.nanCode, Fl.none)
  | .inf s => infConvert f false s
  | .fin s m e => if m = 0 then (zeroOf f s, Fl.none) else let t := shiftQ m 1 e; rvRoundQ f mode s t.1 t.2

/-- A sum or product: NaN inputs and invalid combinations give the canonical NaN. -/
def rvFinish (f : Fmt) (mode : Rm) (ins : List Val) (v : Val) : Nat × Fl :=
  if v.isNan then (f.nanCode, Fl.nvIf (ins.any Val.isSig || ins.all (fun x => !x.isNan)))
  else rvRound f mode v

/-- fadd, fsub, fmul, fdiv. -/
def rvArith (op : FpArith) (f : Fmt) (mode : Rm) (a b : Val) : Nat × Fl :=
  match op with
  | .fadd => rvFinish f mode [a, b] (a.add mode.down b)
  | .fsub => rvFinish f mode [a, b] (a.add mode.down b.negate)
  | .fmul => rvFinish f mode [a, b] (a.mul b)
  | .fdiv =>
    match a, b with
    | .nan _, _ => (f.nanCode, Fl.nvIf (a.isSig || b.isSig))
    | _, .nan _ => (f.nanCode, Fl.nvIf (a.isSig || b.isSig))
    | .inf _, .inf _ => (f.nanCode, Fl.invalid)
    | .inf s, .fin t _ _ => infConvert f false (s != t)
    | .fin s _ _, .inf t => (zeroOf f (s != t), Fl.none)
    | .fin s m e, .fin t n d =>
      if n = 0 then (if m = 0 then (f.nanCode, Fl.invalid) else ((infConvert f false (s != t)).1, Fl.divZero))
      else if m = 0 then (zeroOf f (s != t), Fl.none)
      else let q := shiftQ m n (e - d); rvRoundQ f mode (s != t) q.1 q.2

/-- fsqrt. -/
def rvSqrt (f : Fmt) (mode : Rm) (a : Val) : Nat × Fl :=
  match a with
  | .nan s => (f.nanCode, Fl.nvIf s)
  | .inf s => if s then (f.nanCode, Fl.invalid) else infConvert f false false
  | .fin s m e =>
    if m = 0 then (zeroOf f s, Fl.none)
    else if s then (f.nanCode, Fl.invalid)
    else
      let odd : Nat := (e % 2).toNat
      let n := m * 2 ^ (odd + 140)
      let r := isqrt n
      let x := (e - odd - 140) / 2
      rvRound f mode (if r * r = n then .fin false r x else .fin false (2 * r + 1) (x - 1))

/-- The fused forms: the product, negated by fnmsub and fnmadd, plus or minus the addend; one rounding. -/
def rvFma (op : FpFma) (f : Fmt) (mode : Rm) (a b c : Val) : Nat × Fl :=
  let p := a.mul b
  let np := op = .fnmsub ∨ op = .fnmadd
  let nc := op = .fmsub ∨ op = .fnmadd
  let p' := if np then p.negate else p
  let c' := if nc then c.negate else c
  if p.isNan ∧ ¬a.isNan ∧ ¬b.isNan then (f.nanCode, Fl.invalid)
  else rvFinish f mode [a, b, c] (p'.add mode.down c')

/-- The number that is less (greater if `mx`), -0 below +0; which operand it is, or none when both are NaN. -/
def pickMin (mx : Bool) (a b : Val) : Option Bool :=
  match a.isNan, b.isNan with
  | true, true => none
  | true, false => some true
  | false, true => some false
  | false, false =>
    let lt : Bool := match a.cmp b with
      | some .lt => true
      | some .gt => false
      | _ => a.neg?
    some (if mx then lt else !lt)

/-- fsgnj, fsgnjn, fsgnjx, fmin and fmax on codes. -/
def rvSel (op : FpSel) (f : Fmt) (a b : Nat) : Nat × Fl :=
  let top := 2 ^ (f.bits - 1)
  let sa := bitNat a (f.bits - 1)
  let sb := bitNat b (f.bits - 1)
  let mag := a % top
  let va := decodeEl f a
  let vb := decodeEl f b
  let pick := fun (mx : Bool) =>
    ((match pickMin mx va vb with
      | none => f.nanCode
      | some second => if second then b else a), Fl.nvIf (va.isSig || vb.isSig))
  match op with
  | .fsgnj => (f.signed sb mag, Fl.none)
  | .fsgnjn => (f.signed (!sb) mag, Fl.none)
  | .fsgnjx => (f.signed (sa != sb) mag, Fl.none)
  | .fmin => pick false
  | .fmax => pick true

/-- feq is quiet; flt and fle raise NV for every NaN. -/
def rvCmp (op : FpCmp) (a b : Val) : Bool × Fl :=
  let c := a.cmp b
  let nan := a.isNan || b.isNan
  match op with
  | .feq => (c == some .eq, Fl.nvIf (a.isSig || b.isSig))
  | .flt => (c == some .lt, Fl.nvIf nan)
  | .fle => (c == some .lt || c == some .eq, Fl.nvIf nan)

/-- fclass. -/
def rvClass (f : Fmt) (a : Val) : Nat :=
  match a with
  | .nan s => if s then 2 ^ 8 else 2 ^ 9
  | .inf s => if s then 1 else 2 ^ 7
  | .fin s m e =>
    if m = 0 then (if s then 2 ^ 3 else 2 ^ 4)
    else
      let sub : Bool := (Nat.log2 m : Int) + e < f.emin
      if s then (if sub then 2 ^ 2 else 2 ^ 1) else (if sub then 2 ^ 5 else 2 ^ 6)

/-- Width and signedness of an integer type of the conversions. -/
def intTyBits : IntTy → Nat
  | .w | .wu => 32
  | .l | .lu => 64

def intTyUnsigned : IntTy → Bool
  | .wu | .lu => true
  | _ => false

/-- The integer a value converts to; NaN and values out of range saturate and raise NV. -/
def rvToInt (ty : IntTy) (mode : Rm) (a : Val) : Word × Fl :=
  let n := intTyBits ty
  let hi : Int := if intTyUnsigned ty then ((2 ^ n - 1 : Nat) : Int) else ((2 ^ (n - 1) - 1 : Nat) : Int)
  let lo : Int := if intTyUnsigned ty then 0 else -((2 ^ (n - 1) : Nat) : Int)
  let out : Int → Word := fun x => BitVec.ofInt 64 (sextNat n (codeInt n x))
  match a with
  | .nan _ => (out hi, Fl.invalid)
  | .inf s => (out (if s then lo else hi), Fl.invalid)
  | .fin s m e =>
    let t := shiftQ m 1 e
    let q := roundMag mode s t.1 t.2
    let v : Int := if s then -(q : Int) else q
    if v > hi then (out hi, Fl.invalid) else if v < lo then (out lo, Fl.invalid)
    else (out v, if q * t.2 = t.1 then Fl.none else Fl.inexact)

/-- An integer register converted to floating point. -/
def rvOfInt (ty : IntTy) (f : Fmt) (mode : Rm) (x : Word) : Nat × Fl :=
  let n := intTyBits ty
  let v : Int := if intTyUnsigned ty then ((x.toNat % 2 ^ n : Nat) : Int) else sextNat n x.toNat
  rvRound f mode (Val.ofInt v 0)

/-- Conversion between the precisions. -/
def rvCvt (dst : Fmt) (mode : Rm) (a : Val) : Nat × Fl :=
  match a with
  | .nan s => (dst.nanCode, Fl.nvIf s)
  | v => rvRound dst mode v

end Sys2Proof.Machine
end

