-- ==== Sys2Proof/Machine/RvAlu.lean ====
section
/-! DEFINITION. The integer operations of RV64IM, Zba and Zbb (07_encoding.md R121; the RISC-V unprivileged
specification, PRESUMED, log 20). -/
namespace Sys2Proof.Machine

/-- The low 32 bits, sign-extended. -/
def sext32 (v : Word) : Word := (v.setWidth 32).signExtend 64

/-- The low 32 bits, zero-extended. -/
def zext32 (v : Word) : Word := (v.setWidth 32).setWidth 64

/-- Ones among the low n bits. -/
def popCount : Nat → Nat → Nat
  | 0, _ => 0
  | n + 1, v => v % 2 + popCount n (v / 2)

/-- Leading zeros of an n-bit number. -/
def leadingZeros : Nat → Nat → Nat
  | 0, _ => 0
  | n + 1, v => if v / 2 ^ n % 2 = 1 then 0 else 1 + leadingZeros n v

/-- Trailing zeros of an n-bit number. -/
def trailingZeros : Nat → Nat → Nat
  | 0, _ => 0
  | n + 1, v => if v % 2 = 1 then 0 else 1 + trailingZeros n (v / 2)

/-- Signed division rounding towards zero; by zero -1; the most negative number by -1 is itself. -/
def sdivW {w : Nat} (a b : BitVec w) : BitVec w := if b = 0 then BitVec.allOnes w else a.sdiv b

def sremW {w : Nat} (a b : BitVec w) : BitVec w := if b = 0 then a else a.srem b

def udivW {w : Nat} (a b : BitVec w) : BitVec w := if b = 0 then BitVec.allOnes w else a / b

def uremW {w : Nat} (a b : BitVec w) : BitVec w := if b = 0 then a else a % b

/-- The upper half of a product of integers. -/
def mulHigh (x y : Int) : Word := BitVec.ofInt 64 (x * y / ((2 ^ 64 : Nat) : Int))

/-- A 32-bit operation on the low halves, its result sign-extended. -/
def onLow (f : BitVec 32 → BitVec 32 → BitVec 32) (a b : Word) : Word :=
  (f (a.setWidth 32) (b.setWidth 32)).signExtend 64

/-- Register-register operations. -/
def aluVal (op : AluOp) (a b : Word) : Word :=
  let k := b.toNat % 64
  let k32 := b.toNat % 32
  match op with
  | .add => a + b
  | .sub => a - b
  | .sll => a <<< k
  | .slt => if a.slt b then 1 else 0
  | .sltu => if a.ult b then 1 else 0
  | .xor => a ^^^ b
  | .srl => a >>> k
  | .sra => a.sshiftRight k
  | .or => a ||| b
  | .and => a &&& b
  | .mul => a * b
  | .mulh => mulHigh a.toInt b.toInt
  | .mulhsu => mulHigh a.toInt b.toNat
  | .mulhu => mulHigh a.toNat b.toNat
  | .div => sdivW a b
  | .divu => udivW a b
  | .rem => sremW a b
  | .remu => uremW a b
  | .sh1add => b + (a <<< 1)
  | .sh2add => b + (a <<< 2)
  | .sh3add => b + (a <<< 3)
  | .andn => a &&& ~~~b
  | .orn => a ||| ~~~b
  | .xnor => ~~~(a ^^^ b)
  | .max => if a.slt b then b else a
  | .maxu => if a.ult b then b else a
  | .min => if a.slt b then a else b
  | .minu => if a.ult b then a else b
  | .rol => a.rotateLeft k
  | .ror => a.rotateRight k
  | .addw => sext32 (a + b)
  | .subw => sext32 (a - b)
  | .sllw => onLow (fun x _ => x <<< k32) a b
  | .srlw => onLow (fun x _ => x >>> k32) a b
  | .sraw => onLow (fun x _ => x.sshiftRight k32) a b
  | .mulw => sext32 (a * b)
  | .divw => onLow sdivW a b
  | .divuw => onLow udivW a b
  | .remw => onLow sremW a b
  | .remuw => onLow uremW a b
  | .addUw => b + zext32 a
  | .sh1addUw => b + (zext32 a <<< 1)
  | .sh2addUw => b + (zext32 a <<< 2)
  | .sh3addUw => b + (zext32 a <<< 3)
  | .rolw => onLow (fun x _ => x.rotateLeft k32) a b
  | .rorw => onLow (fun x _ => x.rotateRight k32) a b

/-- Register-immediate operations; the immediate is sign-extended. -/
def immVal (op : ImmOp) (a : Word) (imm : BitVec 12) : Word :=
  let b := imm.signExtend 64
  match op with
  | .addi => a + b
  | .slti => if a.slt b then 1 else 0
  | .sltiu => if a.ult b then 1 else 0
  | .xori => a ^^^ b
  | .ori => a ||| b
  | .andi => a &&& b
  | .addiw => sext32 (a + b)

/-- Shifts by an immediate. -/
def shiftVal (op : ShiftOp) (a : Word) (sh : BitVec 6) : Word :=
  let k := sh.toNat
  match op with
  | .slli => a <<< k
  | .srli => a >>> k
  | .srai => a.sshiftRight k
  | .rori => a.rotateRight k
  | .slliUw => zext32 a <<< k
  | .slliw => onLow (fun x _ => x <<< k) a 0
  | .srliw => onLow (fun x _ => x >>> k) a 0
  | .sraiw => onLow (fun x _ => x.sshiftRight k) a 0
  | .roriw => onLow (fun x _ => x.rotateRight k) a 0

/-- One-operand operations of Zbb. -/
def unVal (op : UnOp) (a : Word) : Word :=
  let v := a.toNat
  let bytes := leBytes 8 v
  match op with
  | .clz => BitVec.ofNat 64 (leadingZeros 64 v)
  | .ctz => BitVec.ofNat 64 (trailingZeros 64 v)
  | .cpop => BitVec.ofNat 64 (popCount 64 v)
  | .clzw => BitVec.ofNat 64 (leadingZeros 32 (v % 2 ^ 32))
  | .ctzw => BitVec.ofNat 64 (trailingZeros 32 v)
  | .cpopw => BitVec.ofNat 64 (popCount 32 v)
  | .sextB => extend 1 true v
  | .sextH => extend 2 true v
  | .zextH => extend 2 false v
  | .orcB => BitVec.ofNat 64 (leNat (bytes.map fun b => if b = 0 then 0 else 0xFF#8))
  | .rev8 => BitVec.ofNat 64 (leNat bytes.reverse)

/-- Branch conditions. -/
def condVal (c : BrCond) (a b : Word) : Bool :=
  match c with
  | .eq => a == b
  | .ne => a != b
  | .lt => a.slt b
  | .ge => !a.slt b
  | .ltu => a.ult b
  | .geu => !a.ult b

/-- The value an atomic function writes; min and max are signed (08_stoker_isa.md R163). `n` is the width in bytes. -/
def amoVal (op : AmoOp) (n : Nat) (old v : Nat) : Nat :=
  let w := 2 ^ (8 * n)
  let a := old % w
  let b := v % w
  let lt : Bool := decide (sextNat (8 * n) a < sextNat (8 * n) b)
  match op with
  | .add => (a + b) % w
  | .swap => b
  | .xor => a ^^^ b
  | .or => a ||| b
  | .and => a &&& b
  | .min => if lt then a else b
  | .max => if lt then b else a
  | .minu => if a < b then a else b
  | .maxu => if a < b then b else a

end Sys2Proof.Machine
end

