-- ==== Sys2Proof/Machine/Queue.lean ====
section
/-! DEFINITION. The Perform and Retire steps of a Stoker's class queues (06_ordering.md R101, R105, R106, R108 to R110,
R112; 08_stoker_isa.md R149). -/
namespace Sys2Proof.Machine

/-- The bytes an entry accesses. -/
def SqKind.place (k : SqKind) : Option (Place × Nat) :=
  match k with
  | .load p n _ _ _ => some (p, n)
  | .store p bs => some (p, bs.length)
  | .amo _ p n _ _ _ _ => some (p, n)
  | .lr p n _ _ _ => some (p, n)
  | .sc p n _ _ _ => some (p, n)
  | .svc p n _ => some (p, n)
  | _ => none

/-- Whether two entries access a common byte. -/
def overlapEnt (a b : SqKind) : Bool :=
  match a.place, b.place with
  | some (p, n), some (q, m) => overlapPlace p n q m
  | _, _ => false

/-- Entry k is at the head of every queue it occupies, and no older access overlaps it (R101; DEDUCED, log 79). -/
def Ctx.atHead (x : Ctx) (k : Nat) (e : SqEnt) : Bool :=
  (x.sq.take k).all fun o => o.classes &&& e.classes == 0 && !overlapEnt o.kind e.kind

/-- Writes of a unit w that the Stoker performed on a core its task has left (DESIGN CHOICE, log 107). -/
def Ctx.wroteBefore (x : Ctx) (mask : BitVec 16) (w : Wr) : Bool :=
  x.priors.any fun b => b.agent == .sk && b.id == w.id && mask.getLsbD b.cls.toNat

/-- The Stoker's performed writes of the masked classes are visible at the scope, those it performed on a core its task has
left among them (DESIGN CHOICE, log 107). -/
def State.ownVisible (s : State) (c : Nat) (mask : BitVec 16) (scope : Nat) : Bool :=
  s.pend.all fun w => !(w.actor == .core c .sk && mask.getLsbD w.cls.toNat || (s.ctx c).wroteBefore mask w) ||
    w.visibleAt (.core c .sk) scope

/-- The identities of the writes the Stoker's reads returned. -/
def Ctx.known (x : Ctx) : List Nat := x.seen.map (·.2)

/-- Identities of the Stoker's performed writes of the masked classes that are not yet visible at device scope. -/
def State.ownNarrow (s : State) (c : Nat) (mask : BitVec 16) : List Nat :=
  (s.pend.filter fun w => (w.actor == .core c .sk && mask.getLsbD w.cls.toNat || (s.ctx c).wroteBefore mask w) &&
    !w.visibleAt (.core c .sk) 2).map (·.id)

/-- A fence's condition: the agent's older writes of the masked classes, and the writes its reads of those classes
returned, are visible at the scope (R106). -/
def State.fenceDone (s : State) (c : Nat) (mask : BitVec 16) (scope : Nat) : Bool :=
  s.ownVisible c mask scope && s.allVisible (.core c .sk) scope (((s.ctx c).seen.filter fun e => mask.getLsbD e.1.toNat).map (·.2))

/-- The class of an entry that has one. -/
def SqEnt.cls (e : SqEnt) : BitVec 4 := BitVec.ofNat 4 (Nat.log2 e.classes.toNat)

/-- Entry k leaves the queues, and its result lands in its destination. -/
def State.landAt (s : State) (c k : Nat) (v : Word) : State :=
  s.modCtx c fun x =>
    match x.sq[k]? with
    | some e => { x with sq := dropAt x.sq k }.land e.dest v
    | none => x

/-- The register value of loaded bytes; a single lands NaN-boxed in an f register. -/
def loadedValue (d : Dest) (n : Nat) (sext : Bool) (bs : List Byte) : Word :=
  match d with
  | .f _ => if n = 4 then rvBox false (leNat bs) else BitVec.ofNat 64 (leNat bs)
  | _ => extend n sext (leNat bs)

/-- The writes a read returned join what a later fence must wait for (R106). -/
def State.noteSeen (s : State) (c : Nat) (cls : BitVec 4) (need : Nat) (p : Place) (n : Nat) : State :=
  let ids := match p with
    | .dev a => s.readIds (.core c .sk) need false a n
    | .host a => s.readIds (.core c .sk) need true a n
    | _ => []
  s.modCtx c fun x => { x with
    seen := (x.seen.filter fun e => s.pend.any (·.id == e.2)) ++ ids.map fun i => (cls, i) }

/-- An injected error met by a Stoker read of a place: the state with the error counted or logged, and whether the read
is uncorrectable (20_translation_faults.md R318, R319). -/
def State.readError (s : State) (c : Nat) (p : Place) (n : Nat) (uez : Bool) (va : Word) : State × Bool :=
  s.readErrors (.core c .sk) (s.core c).b.part.toNat uez p n va.toNat

/-- The destination of entry k is marked as holding an uncorrectable load (R149). -/
def State.poisonAt (s : State) (c k : Nat) (d : Dest) (va : Word) : State :=
  (s.landAt c k 0).modCtx c fun x => if d = .none then x else { x with poison := x.poison ++ [(d, va)] }

/-- The status a service core answers a request record with (R173): malformed, unknown, full, or accepted. -/
def State.svcStatus (s : State) (r : List Byte) : Nat :=
  let f := fun (lo n : Nat) => leNat ((r.drop lo).take n)
  let svc := f 0 2
  let socket : Bool := svc == 1 || svc == 2
  if f 2 2 ≠ 0 ∨ f 40 24 ≠ 0 ∨ f 32 8 % 8 ≠ 0 ∨ (socket ∧ f 24 8 ≠ 0) then 2
  else if !(decide (1 ≤ svc) && decide (svc ≤ 4) || decide (0x100 ≤ svc) && (s.fw.image.map (·.serves)).any (·.contains svc)) then 3
  else if Config.svcRoom s.nextId then 0 else 1

/-- The request record that a service core reads at a place, at system scope, and the errors it meets; a line with an
uncorrectable error reads as zeros (20_translation_faults.md R319; DESIGN CHOICE, log 112). -/
def State.svcRecord (s : State) (part : Nat) (p : Place) (n : Nat) : List Byte × State :=
  let e := s.readErrors .service part true p n 0
  (if e.2 then List.replicate n 0
   else match p with
    | .dev a => e.1.readGlobal .service 4 false a n
    | .host a => e.1.readGlobal .service 4 true a n
    | _ => [], e.1)

/-- The service core that serves a service number: one of a pair, which one is free (16_system_state.md R281; DESIGN CHOICE,
log 114). -/
def State.svcCore (s : State) (svc : Nat) : Nat × State :=
  let f := s.takeFree
  ((if svc ≤ 2 then 0 else if svc ≤ 4 then 2 else 6) + f.1.toNat % 2, f.2)

/-- The pages a member of a team has lent and that have not come back (R174): a kill returns none. -/
def State.lentBy (s : State) (who : Nat × Nat) : List Lent := s.lent.filter fun l => l.team == who.1 && l.member == who.2

/-- The deque holds its 64 entries (R17). -/
def dequeFull (x : Ctx) : Bool := decide (64 ≤ x.deque.length)

/-- The Perform or Retire step of entry k of core c's class queues, where its condition holds; otherwise nothing (DEDUCED, log
77). A push of 0 onto a full deque reports 2, and `sk.lend` of a lent page while the table is full reports 1 (DESIGN CHOICE, log
139). -/
def State.performEntry (s : State) (c k : Nat) : State :=
  let x := s.ctx c
  let q := Actor.core c .sk
  match x.sq[k]? with
  | none => s
  | some e =>
    if !(s.core c).enginesRun || !x.atHead k e then s
    else
      match e.kind with
      | .ready v => s.landAt c k v
      | .acquire => s.landAt c k 0
      | .fence scope => if s.fenceDone c e.classes scope then s.landAt c k 0 else s
      | .load p n sext uez va =>
        let r := s.readError c p n uez va
        if r.2 then
          (if uez then r.1.landAt c k (loadedValue e.dest n sext (List.replicate n 0)) else r.1.poisonAt c k e.dest va)
        else (r.1.noteSeen c e.cls 0 p n).landAt c k (loadedValue e.dest n sext (r.1.readPlace q p n))
      | .store p bs => (s.writePlace q e.cls 0 p bs).landAt c k 0
      | .amo op p n v sc uez va =>
        if !s.caughtUp q x.known sc p n then s
        else
          let r := s.readError c p n uez va
          if r.2 && !uez then r.1.poisonAt c k e.dest va
          else
            let old := if r.2 then 0 else leNat (r.1.readAtomic q sc p n)
            ((r.1.noteSeen c e.cls sc p n).atomicWrite q e.cls sc p (leBytes n (amoVal op n old v.toNat))).landAt c k
              (extend n true old)
      | .lr p n sc uez va =>
        if !s.caughtUp q x.known sc p n then s
        else
          let r := s.readError c p n uez va
          if r.2 && !uez then r.1.poisonAt c k e.dest va
          else
            let v := if r.2 then 0 else leNat (r.1.readAtomic q sc p n)
            ((r.1.noteSeen c e.cls sc p n).landAt c k (extend n true v)).modCtx c fun y =>
              { y with resv := some { place := p, size := n, scope := sc, since := r.1.nextId, broken := false } }
      | .sc p n v sc ev =>
        if !s.caughtUp q x.known sc p n then s
        else
          match x.resv with
          | some r =>
            let s' := s.modCtx c fun y => { y with resv := none }
            if r.place = p ∧ r.size = n ∧ !r.broken then
              (((s'.atomicWrite q e.cls sc p (leBytes n v.toNat)).landAt c k 0).meter c ev 1)
            else s'.landAt c k 1
          | none => s.landAt c k 1
      | .push id =>
        (allAgents.foldl (fun s a => s.modCtx c fun y => y.modEntry a id fun t => { t with pushed := true }) s).landAt c k 0
      | .sev m => (s.eventAt (s.home c m) 8 0 c).landAt c k 0
      | .svc p n ev =>
        if !s.ownVisible c e.classes 4 then s
        else
        let k' := s.core c
        let who := k'.task.getD (0, 0)
        let r := s.svcRecord k'.b.part.toNat p n
        let st := r.2.svcStatus r.1
        let v := r.2.svcCore (leNat (r.1.take 2))
        let s := v.2.meterUncore (svcIsland v.1) ev 1
        let s' : State :=
          if st = 0 then
            { s with requests := s.requests ++
              [{ part := k'.b.part.toNat, team := who.1, member := who.2, bytes := r.1, payload := none, core := v.1 }] }
          else s
        s'.landAt c k (BitVec.ofNat 64 st)
      | .lend page size =>
        let k' := s.core c
        let who := k'.task.getD (0, 0)
        let mine := s.lentBy who
        if !s.ownVisible c e.classes 4 then s
        else if mine.any (·.page == page) then s.landAt c k 1
        else if 16 ≤ mine.length then s.landAt c k 2
        else
          let s' : State := { s with lent := s.lent ++
            [{ part := k'.b.part.toNat, page := page, size := size, team := who.1, member := who.2 }] }
          s'.landAt c k 0
      | .dqPush v =>
        let scope := if x.exported then 2 else 1
        if v = 0 then s.landAt c k 2
        else if !s.ownVisible c e.classes scope then s
        else if dequeFull x then s.landAt c k 1
        else
          let w : DqWord := { v := v, older := s.ownNarrow c e.classes }
          (s.modCtx c fun y => { y with deque := y.deque ++ [w] }).landAt c k 0
      | .action a =>
        (s.modCtx c fun y =>
          let r := y.fault a
          if r.todo = 0 then y else y.setFault a { r with fstat := putBit r.fstat 63 false }).landAt c k 0

/-- PENDING_REGISTER_WRITE (R149): the result of an asynchronous instruction arrives in its register. -/
def execPendingRegisterWrite (k : Nat) (s : State) : Res := .next (s.performEntry s.cur k)

end Sys2Proof.Machine
end

