-- ==== Sys2Proof/Machine/Rv64.lean ====
section
/-! DEFINITION. The RV64 base instructions of the Stoker: computation, control flow, CSR access, loads, stores, atomics,
fences and returns (07_encoding.md R121; 06_ordering.md R99, R107, R108; 08_stoker_isa.md R149 to R153, R161, R162, R175,
R176; 16_system_state.md R273; RISC-V, PRESUMED, log 20). -/
namespace Sys2Proof.Machine

/-! ### Computation, branches, jumps, CSR reads -/

/-- rd takes a floating-point result, and its flags are kept (RISC-V F). -/
def State.setFd (s : State) (dbl : Bool) (rd : Reg) (r : Nat × Fl) : Res :=
  (s.upd fun x => { x.setF rd (rvBox dbl r.1) with fflags := x.fflags ||| r.2.bits }).finish

/-- An integer result of a floating-point operation, and its flags. -/
def State.setXd (s : State) (rd : Reg) (v : Word) (fl : Fl) : Res :=
  (s.upd fun x => { x.setX rd v with fflags := x.fflags ||| fl.bits }).finish

/-- Runs k under the effective rounding mode; a reserved one is illegal. -/
def State.withRm (s : State) (rm : BitVec 3) (k : Rm → Res) : Res :=
  match rvRm rm s.my.frm with
  | some m => k m
  | none => s.illegal

/-- An f register's value. -/
def State.rf (s : State) (r : Reg) : Word := s.my.getF r

/-- A read of a CSR into rd. -/
def State.readCsr (s : State) (rd : Reg) (n : Nat) : Res :=
  if !csrMode s.my.mode n then s.illegal
  else
    match s.csrRead n with
    | some v => s.withRegs [] [destX rd] (s.setRd rd v)
    | none => s.illegal

/-- A jump to an address, with the return address in rd (DEDUCED, log 43). -/
def State.jump (s : State) (rd : Reg) (target : Word) : Res :=
  let link := s.nextPc
  .next ((s.upd fun x => x.setX rd link).retireAt (target &&& ~~~(1#64)))

/-- RV64_BASE_INSTRUCTION (07_encoding.md R121). -/
def execRv64Base (i : RvInstr) (s : State) : Res :=
  let pc := s.my.pc
  match i with
  | .lui rd imm => s.withRegs [] [destX rd] (s.setRd rd ((imm ++ 0#12).signExtend 64))
  | .auipc rd imm => s.withRegs [] [destX rd] (s.setRd rd (pc + (imm ++ 0#12).signExtend 64))
  | .jal rd imm => s.withRegs [] [destX rd] (s.jump rd (pc + (imm ++ 0#1).signExtend 64))
  | .jalr rd rs1 imm => s.withRegs [destX rs1] [destX rd] (s.jump rd (s.rx rs1 + imm.signExtend 64))
  | .branch c rs1 rs2 imm =>
    s.withRegs [destX rs1, destX rs2] [] (
      if condVal c (s.rx rs1) (s.rx rs2) then .next (s.retireAt (pc + (imm ++ 0#1).signExtend 64)) else s.finish)
  | .alu op rd rs1 rs2 =>
    s.withRegs [destX rs1, destX rs2] [destX rd] (s.setRd rd (aluVal op (s.rx rs1) (s.rx rs2)))
  | .aluImm op rd rs1 imm => s.withRegs [destX rs1] [destX rd] (s.setRd rd (immVal op (s.rx rs1) imm))
  | .shift op rd rs1 sh => s.withRegs [destX rs1] [destX rd] (s.setRd rd (shiftVal op (s.rx rs1) sh))
  | .unary op rd rs1 => s.withRegs [destX rs1] [destX rd] (s.setRd rd (unVal op (s.rx rs1)))
  | .csrRead _ _ rd csr => s.readCsr rd csr.toNat
  | .ecall => s.trap (match s.my.mode with
      | .u => 8
      | .s => 9
      | .m => 11) 0 0
  | .ebreak => s.trap 3 pc 0
  | .mret => if s.my.mode = .m then .next ((s.retireAt s.nextPc).upd leaveM) else s.illegal
  | .fpArith op dbl rm rd rs1 rs2 =>
    s.withRm rm fun m => s.withRegs [.f rs1, .f rs2] [.f rd] (
      s.setFd dbl rd (rvArith op (rvFmt dbl) m (rvVal dbl (s.rf rs1)) (rvVal dbl (s.rf rs2))))
  | .fpSqrt dbl rm rd rs1 =>
    s.withRm rm fun m => s.withRegs [.f rs1] [.f rd] (s.setFd dbl rd (rvSqrt (rvFmt dbl) m (rvVal dbl (s.rf rs1))))
  | .fpFma op dbl rm rd rs1 rs2 rs3 =>
    s.withRm rm fun m => s.withRegs [.f rs1, .f rs2, .f rs3] [.f rd] (
      s.setFd dbl rd
        (rvFma op (rvFmt dbl) m (rvVal dbl (s.rf rs1)) (rvVal dbl (s.rf rs2)) (rvVal dbl (s.rf rs3))))
  | .fpSel op dbl rd rs1 rs2 =>
    s.withRegs [.f rs1, .f rs2] [.f rd] (
      s.setFd dbl rd (rvSel op (rvFmt dbl) (rvCode dbl (s.rf rs1)) (rvCode dbl (s.rf rs2))))
  | .fpCmp op dbl rd rs1 rs2 =>
    s.withRegs [.f rs1, .f rs2] [destX rd] (
      let r := rvCmp op (rvVal dbl (s.rf rs1)) (rvVal dbl (s.rf rs2))
      s.setXd rd (if r.1 then 1 else 0) r.2)
  | .fpClass dbl rd rs1 =>
    s.withRegs [.f rs1] [destX rd] (
      s.setRd rd (BitVec.ofNat 64 (rvClass (rvFmt dbl) (rvVal dbl (s.rf rs1)))))
  | .fpToInt ty dbl rm rd rs1 =>
    s.withRm rm fun m => s.withRegs [.f rs1] [destX rd] (
      let r := rvToInt ty m (rvVal dbl (s.rf rs1))
      s.setXd rd r.1 r.2)
  | .intToFp ty dbl rm rd rs1 =>
    s.withRm rm fun m => s.withRegs [destX rs1] [.f rd] (s.setFd dbl rd (rvOfInt ty (rvFmt dbl) m (s.rx rs1)))
  | .fpCvt toDbl rm rd rs1 =>
    s.withRm rm fun m => s.withRegs [.f rs1] [.f rd] (
      s.setFd toDbl rd (rvCvt (rvFmt toDbl) m (rvVal (!toDbl) (s.rf rs1))))
  | .fpMvToInt dbl rd rs1 =>
    s.withRegs [.f rs1] [destX rd] (
      s.setRd rd (if dbl then s.rf rs1 else sext32 (s.rf rs1)))
  | .intMvToFp dbl rd rs1 =>
    s.withRegs [destX rs1] [.f rd] (
      (s.upd fun x => x.setF rd (rvBox dbl (s.rx rs1).toNat)).finish)

/-! ### Loads, stores and atomics -/

/-- Width, sign extension and register file of a load. -/
def loadForm (k : LoadKind) : Nat × Bool × Bool :=
  match k with
  | .lb => (1, true, false)
  | .lh => (2, true, false)
  | .lw => (4, true, false)
  | .ld => (8, true, false)
  | .lbu => (1, false, false)
  | .lhu => (2, false, false)
  | .lwu => (4, false, false)
  | .flw => (4, false, true)
  | .fld => (8, false, true)

/-- Width and register file of a store. -/
def storeForm (k : StoreKind) : Nat × Bool :=
  match k with
  | .sb => (1, false)
  | .sh => (2, false)
  | .sw => (4, false)
  | .sd => (8, false)
  | .fsw => (4, true)
  | .fsd => (8, true)

/-- A global load of n bytes issues in a class (R99, R149). -/
def State.issueLoad (s : State) (cls : BitVec 4) (d : Dest) (n : Nat) (sext : Bool) (va : Word) : Res :=
  if va.toNat % n ≠ 0 then s.trap 4 va 0
  else
    s.withGlobal .read va fun s p attr =>
      ((s.enqueue { classes := classBit cls, kind := .load p n sext (bitNat attr 5) va, dest := d, typed := false }).meter
        s.cur (lineEvent p attr false) 1).finish

/-- A global store of bytes issues in a class; a lent page faults (R174). -/
def State.issueStore (s : State) (cls : BitVec 4) (bs : List Byte) (va : Word) : Res :=
  if va.toNat % bs.length ≠ 0 then s.trap 6 va 0
  else
    s.withGlobal .write va fun s p attr =>
      if s.my.mode != .m && s.isLent s.me.b.part.toNat va.toNat then s.trapFree 27 (s.lentOffset s.me.b.part.toNat va.toNat)
      else
        ((s.enqueue { classes := classBit cls, kind := .store p bs, dest := .none, typed := false }).meter
          s.cur (lineEvent p attr true) 1).finish

/-- RV64_LOAD (06_ordering.md R99): class `ycls`.CLS. -/
def execRv64Load (k : LoadKind) (rd rs1 : Reg) (imm : BitVec 12) (s : State) : Res :=
  let f := loadForm k
  let d := if f.2.2 then Dest.f rd else destX rd
  s.withRegs [destX rs1] [d] (s.issueLoad s.my.ycls d f.1 f.2.1 (s.rx rs1 + imm.signExtend 64))

/-- RV64_STORE (06_ordering.md R99): class `ycls`.CLS. -/
def execRv64Store (k : StoreKind) (rs2 rs1 : Reg) (imm : BitVec 12) (s : State) : Res :=
  let f := storeForm k
  let src := if f.2 then Dest.f rs2 else destX rs2
  let v := if f.2 then s.rf rs2 else s.rx rs2
  s.withRegs [destX rs1, src] [] (s.issueStore s.my.ycls (leBytes f.1 v.toNat) (s.rx rs1 + imm.signExtend 64))

/-- The scope of RISC-V AMOs, LR/SC and FENCE (06_ordering.md R100). -/
def State.amoScope (s : State) : Nat := s.my.yscope.toNat

/-- An acquire entry behind an access with aq set (R107); behind SC too (DESIGN CHOICE, log 119). -/
def State.acquireIf (s : State) (aq : Bool) : State := if aq then s.acquire else s

/-- The fence before an access with rl set (R107). -/
def State.releaseIf (s : State) (rl : Bool) : State := if rl then s.fence allClasses s.amoScope else s

/-- AMO (R108). -/
def execAmo (op : AmoOp) (dbl aq rl : Bool) (rd rs1 rs2 : Reg) (s : State) : Res :=
  let n := if dbl then 8 else 4
  let va := s.rx rs1
  s.withRegs [destX rs1, destX rs2] [destX rd] (
    if va.toNat % n ≠ 0 then s.trap 6 va 0
    else
      s.withGlobal .write va fun s p attr =>
        if s.my.mode != .m && s.isLent s.me.b.part.toNat va.toNat then s.trapFree 27 (s.lentOffset s.me.b.part.toNat va.toNat)
        else
          let e : SqEnt := { classes := classBit s.my.ycls,
                             kind := .amo op p n (s.rx rs2) s.amoScope (bitNat attr 5) va, dest := destX rd, typed := false }
          (((((s.releaseIf rl).enqueue e).acquireIf aq).meter s.cur (lineEvent p attr false) 1).meter
            s.cur (lineEvent p attr true) 1).finish)

/-- LR (R108). -/
def execLr (dbl aq rl : Bool) (rd rs1 : Reg) (s : State) : Res :=
  let n := if dbl then 8 else 4
  let va := s.rx rs1
  let _ := rl
  s.withRegs [destX rs1] [destX rd] (
    if va.toNat % n ≠ 0 then s.trap 4 va 0
    else
      s.withGlobal .read va fun s p attr =>
        let e : SqEnt := { classes := classBit s.my.ycls, kind := .lr p n s.amoScope (bitNat attr 5) va,
                           dest := destX rd, typed := false }
        (((s.enqueue e).acquireIf aq).meter s.cur (lineEvent p attr false) 1).finish)

/-- SC (R108): rd takes 0 when it stored, 1 when the reservation was broken or absent. aq puts an acquire entry behind it, as
behind AMO and LR (DESIGN CHOICE, log 119). -/
def execSc (dbl aq rl : Bool) (rd rs1 rs2 : Reg) (s : State) : Res :=
  let n := if dbl then 8 else 4
  let va := s.rx rs1
  s.withRegs [destX rs1, destX rs2] [destX rd] (
    if va.toNat % n ≠ 0 then s.trap 6 va 0
    else
      s.withGlobal .write va fun s p attr =>
        if s.my.mode != .m && s.isLent s.me.b.part.toNat va.toNat then s.trapFree 27 (s.lentOffset s.me.b.part.toNat va.toNat)
        else
          let e : SqEnt := { classes := classBit s.my.ycls,
                             kind := .sc p n (s.rx rs2) s.amoScope (lineEvent p attr true), dest := destX rd, typed := false }
          (((s.releaseIf rl).enqueue e).acquireIf aq).finish)

/-! ### Fences -/

/-- FENCE and FENCE.TSO (R107): a full class fence at `yscope` when both sets are nonempty. -/
def execFence (fm pred succ : BitVec 4) (rs1 rd : Reg) (s : State) : Res :=
  let _ := (fm, rs1, rd)
  (if pred ≠ 0 ∧ succ ≠ 0 then s.fence allClasses s.amoScope else s).finish

/-- FENCE.I (08_stoker_isa.md R161): fetch resumes only after every older access of this Stoker has performed. -/
def execFenceI (s : State) : Res := if s.my.sq.any (fun e => e.classes != 0) then s.wait else s.finish

/-- SFENCE.VMA (20_translation_faults.md R310): drops the matching entries of every TLB of the partition; with an
address-space operand, entries with G stay. -/
def execSfenceVma (rs1 rs2 : Reg) (s : State) : Res :=
  if s.my.mode = .u ∨ (s.my.mode = .s ∧ s.my.csr.mstatus.getLsbD 20) then s.illegal
  else
    s.withRegs [destX rs1, destX rs2] [] (
      let va := (s.rx rs1).toNat
      let part := s.me.b.part.toNat
      let drops := fun (e : TlbEnt) =>
        e.part == part && (rs1 == 0 || (decide (e.va ≤ va) && decide (va < e.va + e.size))) &&
        (rs2 == 0 || !e.pte.getLsbD 5)
      State.finish { s with tlb := s.tlb.filter fun e => !drops e })

/-! ### System instructions -/

/-- WFI (08_stoker_isa.md R151): completes at once as a no-op. -/
def execWfi (s : State) : Res := s.finish

/-- SRET (08_stoker_isa.md R176): returns from S-mode and clears SVC and QLACT. -/
def execSret (s : State) : Res :=
  if s.my.mode = .u ∨ (s.my.mode = .s ∧ s.my.csr.mstatus.getLsbD 22) then s.illegal
  else
    .next ((s.retireAt s.nextPc).upd fun x =>
      let y := leaveS x
      { y with ywm := { y.ywm with svc := false, qlact := false } })

/-- CSR_WRITE (08_stoker_isa.md R152). -/
def execCsrWrite (op : CsrOp) (uimm : Bool) (rd rs1 : Reg) (csr : BitVec 12) (s : State) : Res :=
  s.withRegs (csrSrcs uimm rs1) [destX rd] (
    if !csrMode s.my.mode csr.toNat then s.illegal
    else
      match s.csrRead csr.toNat with
      | none => s.illegal
      | some old =>
        match s.csrWrite csr.toNat (csrNew op old (s.csrArg uimm rs1)) with
        | none => s.illegal
        | some s' => s'.setRd rd old)

/-- YEVENT_WRITE (08_stoker_isa.md R153): ARM is written, and latch bits written with 1 are cleared (DEDUCED, log 27). -/
def execYeventWrite (op : CsrOp) (uimm : Bool) (rd rs1 : Reg) (s : State) : Res :=
  s.withRegs (csrSrcs uimm rs1) [destX rd] (
    let old := (s.my.arm.setWidth 64 <<< 32) ||| s.my.latch.setWidth 64
    let v := csrNew op old (s.csrArg uimm rs1)
    (s.upd fun x => { x with arm := v.extractLsb' 32 16, latch := x.latch &&& ~~~(v.setWidth 16) }).setRd rd old)

/-- `ywm` after a write of v (08_stoker_isa.md R175): a watermark above its depth leaves its field. -/
def ywmSet (w : Ywm) (md : Mode) (v : Word) : Ywm :=
  let keep := fun {n : Nat} (old new : BitVec n) (top : Nat) => if new.toNat ≤ top then new else old
  { qlact := if md = .u then w.qlact else v.getLsbD 63
    parked := if md = .u then w.parked else v.getLsbD 62
    svc := if md = .u then w.svc else v.getLsbD 61
    cl := keep w.cl (v.extractLsb' 40 5) 16
    fx := keep w.fx (v.extractLsb' 32 4) 8
    gx := keep w.gx (v.extractLsb' 24 6) 32
    cx := keep w.cx (v.extractLsb' 16 7) 64
    mx := keep w.mx (v.extractLsb' 8 6) 32
    vx := keep w.vx (v.extractLsb' 0 6) 32 }

/-- YWM_WRITE (08_stoker_isa.md R175). -/
def execYwmWrite (op : CsrOp) (uimm : Bool) (rd rs1 : Reg) (s : State) : Res :=
  s.withRegs (csrSrcs uimm rs1) [destX rd] (
    let old := s.my.ywm.word
    (s.upd fun x => { x with ywm := ywmSet x.ywm x.mode (csrNew op old (s.csrArg uimm rs1)) }).setRd rd old)

/-- TRAP_ENTRY (16_system_state.md R273): a precise trap is taken. -/
def execTrapEntry (cause : Nat) (tval : Word) (info : BitVec 32) (s : State) : Res := s.trap cause tval info.toNat

end Sys2Proof.Machine
end

