-- ==== Sys2Proof/Machine/Push.lean ====
section
/-! DEFINITION. Pushes: what a Stoker instruction puts into an engine queue, with the scoreboard ranges it takes
(08_stoker_isa.md R155 to R157, R171, R172; 05_local_memory.md R87, R89, R90, R94; 07_encoding.md R117, R125, R136 to
R141; 10_matrix_isa.md R206; 11_data_engines_isa.md R233, R247). -/
namespace Sys2Proof.Machine

/-! ### Records and places (07_encoding.md R125, R137) -/

/-- The n-byte little-endian field of a record at byte i. -/
def fld (r : List Byte) (i n : Nat) : Nat := leNat ((r.drop i).take n)

/-- A signed field. -/
def sfld (r : List Byte) (i n : Nat) : Int := sextNat (8 * n) (fld r i n)

def recCls (r : List Byte) : BitVec 4 := BitVec.ofNat 4 (bitsNat (fld r 0 8) 3 0)

def recPdef (r : List Byte) : Bool := bitNat (fld r 0 8) 4

def recScope (r : List Byte) : Nat := bitsNat (fld r 0 8) 7 5

def recKind (r : List Byte) : Nat := bitsNat (fld r 0 8) 15 8

def recFlags (r : List Byte) : Nat := bitsNat (fld r 0 8) 31 16

/-- A record's place (R137); `bad` breaks its zero fields or names space 11. -/
inductive RPlace where
  | glob (va : Nat)
  | a (off : Nat)
  | w (off : Nat)
  | bad
  deriving DecidableEq, Repr

def rplace (v : Nat) : RPlace :=
  match bitsNat v 63 62 with
  | 0 => if bitsNat v 61 57 = 0 then .glob (bitsNat v 56 0) else .bad
  | 1 => if bitsNat v 61 32 = 0 then .a (bitsNat v 31 0) else .bad
  | 2 => if bitsNat v 61 32 = 0 then .w (bitsNat v 31 0) else .bad
  | _ => .bad

/-- The own offset an A-space address names, directly or through the own window (01_machine.md R14). -/
def Ctx.aOwn (x : Ctx) (off : Nat) : Option Nat :=
  let base := 0x1000000 + x.member * 0x100000
  if off < 0x100000 then some off
  else if base ≤ off ∧ off < base + 0x100000 then some (off - base)
  else none

/-- A run record (R125); a window outside the footprint breaks it too. -/
def runRec (mx : Bool) (aLim wLim : Nat) (r : List Byte) : RunRec :=
  let rdW := bitNat (fld r 36 1) 0
  let rb := fld r 20 4
  let rl := fld r 24 4
  let wb := fld r 28 4
  let wl := fld r 32 4
  { repeatN := fld r 0 4, args := [fld r 4 4, fld r 8 4, fld r 12 4, fld r 16 4],
    rdBase := rb, rdLen := rl, wrBase := wb, wrLen := wl, rdW := rdW,
    slotWr := BitVec.ofNat 32 (fld r 40 4), slotRd := BitVec.ofNat 32 (fld r 44 4),
    ok := fld r 36 1 / 2 == 0 && fld r 37 3 == 0 && fld r 48 16 == 0 &&
      rb % 64 == 0 && rl % 64 == 0 && wb % 64 == 0 && wl % 64 == 0 &&
      (rl == 0 || decide (rb + rl ≤ if rdW then wLim else aLim)) && (wl == 0 || decide (wb + wl ≤ aLim)) &&
      (mx || (!rdW && fld r 40 8 == 0)) }

/-! ### Scoreboard ranges (05_local_memory.md R87) -/

/-- [lo, hi) in 64-byte units, clipped to a limit. -/
def bufRng (inW : Bool) (limit : Nat) (lo hi : Int) : List Rng :=
  let l := lo.toNat / 64 * 64
  let h := min ((hi.toNat + 63) / 64 * 64) limit
  if lo < hi ∧ l < h then [if inW then .w l h else .a l h] else []

/-- The own-buffer range [off + lo, off + hi) of an A-space address. -/
def Core.aRng (k : Core) (off : Nat) (lo hi : Int) : List Rng :=
  match k.ctx.aOwn off with
  | some o => bufRng false (4096 * k.b.aLimit) (o + lo) (o + hi)
  | none => []

def Core.wRng (k : Core) (off : Nat) (lo hi : Int) : List Rng := bufRng true (4096 * k.b.wLimit) (off + lo) (off + hi)

/-- The range of a record's place. -/
def Core.placeRng (k : Core) (p : RPlace) (lo hi : Int) : List Rng :=
  match p with
  | .a o => k.aRng o lo hi
  | .w o => k.wRng o lo hi
  | _ => []

/-- First and last byte offsets of rows at a signed stride. -/
def rowsSpan (rows len : Nat) (stride : Int) : Int × Int :=
  let d := (rows - 1 : Int) * stride
  if len = 0 ∨ rows = 0 then (0, 0) else (min 0 d, max 0 d + len)

/-- Granules that the first n CSA-raw elements fill, in bytes (03_numbers.md R53). -/
def rawSpan (n : Nat) : Nat := (n + 226) / 227 * 4096

/-- Participants of a collective (11_data_engines_isa.md R247). -/
def State.participants (s : State) (c : Nat) (team : Bool) : Nat :=
  let x := s.ctx c
  if team then x.teamSize
  else
    match (s.core c).task with
    | some (t, _) =>
      match Tbl.get? s.teams t with
      | some y => match Tbl.get? s.launches y.launch with
        | some l => l.count
        | none => x.teamSize
      | none => x.teamSize
    | none => x.teamSize

/-- A range whose granules take tags: a tag is a write to its whole granule, as far as the footprint goes (R81). -/
def Core.tagged (k : Core) (r : Rng) : Rng :=
  match r with
  | .a lo hi => .a (lo / 4096 * 4096) (min ((hi + 4095) / 4096 * 4096) (4096 * k.b.aLimit))
  | .w lo hi => .w (lo / 4096 * 4096) (min ((hi + 4095) / 4096 * 4096) (4096 * k.b.wLimit))
  | .slot n => .slot n

/-- Read and write ranges of a record command (DEDUCED, log 37). -/
def State.recordRanges (s : State) (c : Nat) (a : Agent) (funct7 off : Nat) (r : List Byte) : List Rng × List Rng :=
  let k := s.core c
  let own := k.aRng off 0 64
  let none' : Int × Int := (0, 0)
  match a, funct7 with
  | .cx, 3 =>
    let d := rowsSpan 1 (fld r 24 4) 0
    (own, k.placeRng (rplace (fld r 16 8)) d.1 d.2)
  | .cx, f =>
    let rows := if f = 1 then fld r 28 4 else 1
    let sp := if f = 5 ∨ f = 7 then none' else rowsSpan rows (fld r 24 4) (sfld r 32 4)
    let dp := if f ≤ 1 then rowsSpan rows (fld r 24 4) (sfld r 36 4) else none'
    (own ++ k.placeRng (rplace (fld r 8 8)) sp.1 sp.2, (k.placeRng (rplace (fld r 16 8)) dp.1 dp.2).map (k.tagged ·))
  | .gx, f =>
    let nidx := fld r 20 4
    let rowb := fld r 16 4
    let nrows := fld r 44 4
    let idx := k.aRng (fld r 24 4) 0 (nidx * fld r 28 1)
    let src := if f = 3 then [] else k.placeRng (rplace (fld r 8 8)) 0 ((if f = 2 then nidx else nrows) * rowb)
    let wmax := min 64 (2 * rowb)
    let dlen := match f with
      | 0 => nidx * rowb
      | 1 => rawSpan (nidx / fld r 40 4 * wmax)
      | 2 => rawSpan (nrows * wmax)
      | _ => 4 * nrows
    (own ++ idx ++ src, k.placeRng (rplace (fld r 32 8)) 0 dlen)
  | .fx, 0 =>
    let nv := fld r 20 4
    let view := Tbl.get View.reset k.ctx.mx.binds.views (fld r 40 1)
    (own ++ k.placeRng (rplace (fld r 8 8)) 0 (8 * fld r 16 4) ++ k.placeRng (rplace (fld r 24 8)) 0 (nv * fld r 32 4),
      k.aRng (fld r 36 4) 0 (rawSpan (nv * 64)) ++ [.slot view.slot])
  | .cl, f =>
    let len := fld r 16 4
    let p := s.participants c (bitNat (recFlags r) 0 && recScope r == 1)
    let dlen := match f with
      | 1 => len / p
      | 2 => len * p
      | _ => len
    (own ++ k.placeRng (rplace (fld r 8 8)) 0 len, k.placeRng (rplace (fld r 24 8)) 0 dlen)
  | _, _ => (own, [])

/-- Byte width of a resolve format (10_matrix_isa.md R221). -/
def resolveWidth (f : BitVec 3) : Nat := [4, 2, 2, 1, 1].getD f.toNat 1

def Binds.view (b : Binds) (v : Nat) : View := Tbl.get View.reset b.views v

def Binds.shape (b : Binds) (v : Nat) : Shape := Tbl.get Shape.reset b.shapes (b.view v).sh

def Binds.geom (b : Binds) (t : Nat) : Geom := Tbl.get Geom.reset b.geoms t

/-- Read and write ranges of one MX word with its address operand (DEDUCED, log 94). -/
def Core.mxRanges (k : Core) (b : Binds) (addr : Nat) (i : Instr) : List Rng × List Rng :=
  match i with
  | .mxFill s w _ _ _ =>
    let hi : Int := (addr / 4096 + 9) * 4096 - addr
    (if w = 1 then k.wRng addr 0 hi else k.aRng addr 0 hi, [.slot s.toNat])
  | .mxFillRing s _ _ => ([], [.slot s.toNat])
  | .mxClaim s => ([], [.slot s.toNat])
  | .mxRelease s => ([], [.slot s.toNat])
  | .mxMma _ va vb _ _ _ _ _ => ([.slot (b.view va.toNat).slot, .slot (b.view vb.toNat).slot], [])
  | .mxTcmpThreshold _ _ _ _ _ => (k.aRng (addr / 4096 * 4096) 0 4096, [])
  | .mxSpill c _ _ => ([], (k.aRng addr 0 (rawSpan ((b.geom c.toNat).rows * (b.geom c.toNat).cols))).map (k.tagged ·))
  | .mxReload c _ _ => (k.aRng addr 0 (rawSpan ((b.geom c.toNat).rows * (b.geom c.toNat).cols)), [])
  | .mxResolveAbuf c f _ _ _ _ =>
    ([], (k.aRng addr 0 ((b.geom c.toNat).rows * (b.geom c.toNat).cols * resolveWidth f)).map (k.tagged ·))
  | _ => ([], [])

/-! ### The push itself -/

/-- An entry appended to its engine queue, counted in QPOS (20_translation_faults.md R312; DEDUCED, log 85). -/
def Ctx.append (x : Ctx) (a : Agent) (e : Entry) : Ctx :=
  let n := Tbl.get 0 x.qpos a.code
  let y := x.setQueue a (x.queue a ++ [{ e with qpos := n % 2 ^ 32 }])
  if a = .sk then y else { y with qpos := Tbl.put 0 y.qpos a.code (n + 1) }

/-- What a push asks for. -/
structure PushReq where
  agent : Agent
  cmd : Cmd
  cls : BitVec 4
  /-- The class queues its entry occupies. -/
  classes : BitVec 16
  rd : List Rng
  wr : List Rng
  scope : Nat
  token : Option Nat
  seq : Nat
  deriving DecidableEq, Repr

/-- Whether the command takes a scoreboard entry (R87). -/
def PushReq.scored (r : PushReq) : Bool := !(r.rd.isEmpty && r.wr.isEmpty)

/-- The entry a push makes. -/
def PushReq.entry (r : PushReq) (x : Ctx) : Entry where
  id := x.nextCmd
  qpos := 0
  cmd := r.cmd
  cls := r.cls
  binds := x.mx.binds
  rd := r.rd
  wr := r.wr
  scored := r.scored
  pushed := false
  started := false
  begun := false
  held := false
  complete := false
  todo := []
  top := none
  prog := 0
  token := r.token
  code := 0
  seq := r.seq
  writes := []
  scope := r.scope
  met := []
  tops := []
  tiles := []

/-- The push registers: a queue entry, a scoreboard entry, and an entry in the Stoker's class queues (R155). -/
def State.register (s : State) (r : PushReq) : State :=
  let id := s.my.nextCmd
  (s.upd fun x => { x.append r.agent (r.entry x) with nextCmd := x.nextCmd + 1 }).enqueue
    { classes := r.classes, kind := .push id, dest := .none, typed := false }

/-- Records that the Stoker's push of a command meters: those of runs; a parameter record is metered once, at its engine's
reading of it (R155, 17_energy.md R288, 18_program_energy.md R294). -/
def Cmd.recordsRead (c : Cmd) : Nat :=
  match c with
  | .vxRun _ _ _ | .mxRun _ _ _ => 1
  | _ => 0

/-- The queue has no room. -/
def Ctx.full (x : Ctx) (a : Agent) : Bool := a != .sk && decide (queueDepth a ≤ (x.queue a).length)

/-- The wait of a push that finds no room (R90): a full queue of engine a or a full scoreboard. It keeps a, until the engine
that makes room is known. -/
def State.stall (s : State) (a : Agent) : Res := .next (s.noteWait s.cur .sk 10 (BitVec.ofNat 32 a.code) a.code s.cur)

/-- Entry e leaves engine a's queue: a wait for room there, or on the scoreboard, has engine a as its setter (08_stoker_isa.md
R151, 25_debug.md R353). -/
def State.roomBy (s : State) (c : Nat) (a : Agent) (e : Entry) : State :=
  let x := s.ctx c
  let board := e.scored && decide (64 ≤ x.scored)
  if !board && !x.full a then s
  else s.modCtx c fun y => { y with waits := y.waits.map fun w =>
    if w.agent = 0 ∧ w.flag = 10 ∧ (board ∨ w.num.toNat = a.code) then { w with setter := a.code, setterCore := c } else w }

/-- The loss-of-decoupling stall of a push behind a typed access, which the Stoker itself ends (05_local_memory.md R89,
25_debug.md R353). -/
def State.undecoupled (s : State) : Res :=
  .next (s.noteWait s.cur .sk 5 (BitVec.ofNat 32 (s.my.position .sk)) 0 s.cur)

/-- The push registers and the Stoker goes on, or stalls: older typed accesses perform first (R89), and a full queue or
scoreboard holds it (R90). `k` runs on the state after the registration. -/
def State.push (s : State) (r : PushReq) (k : State → Res) : Res :=
  if s.my.sq.any (·.typed) then s.undecoupled
  else if s.my.full r.agent || (r.scored && decide (64 ≤ s.my.scored)) then s.stall r.agent
  else k ((s.register r).meter s.cur 24 r.cmd.recordsRead)

/-- The typed read of a record at push (R155): it performs at the head of its class queue. An uncorrectable error of the
buffer raises the access fault (20_translation_faults.md R318). -/
def State.withRecord (s : State) (off : Nat) (k : List Byte → Res) : Res :=
  s.withTyped false (s.aSpace s.cur off 64) 64 false fun p =>
    let q := Actor.core s.cur .sk
    let e := s.sramErrors q s.me.b.part.toNat (p.sram false 64)
    if s.my.sq.any (fun e => e.typed || e.classes &&& classBit s.my.ycls != 0) then s.undecoupled
    else if e.2 then e.1.trapFree 5 0
    else k (s.readPlace q p 64)

/-- The push of a run (R155, R125). -/
def State.pushRun (s : State) (mx : Bool) (code off : Reg) : Res :=
  s.withRegs [destX code, destX off] [] (
    let c := s.rx code
    let o := (s.rx off).toNat
    if o % 64 ≠ 0 then s.illegal
    else
      s.withRecord o fun bytes =>
        let k := s.me
        let r := runRec mx (4096 * k.b.aLimit) (4096 * k.b.wLimit) bytes
        let slots := fun (m : BitVec 32) => ((List.range 32).filter m.getLsbD).map Rng.slot
        let rd := (if r.rdW then k.wRng r.rdBase 0 r.rdLen else bufRng false (4096 * k.b.aLimit) r.rdBase (r.rdBase + r.rdLen))
        let wr := bufRng false (4096 * k.b.aLimit) r.wrBase (r.wrBase + r.wrLen)
        s.push { agent := if mx then .mx else .vx,
                 cmd := if mx then .mxRun c.toNat o r else .vxRun c.toNat o r,
                 cls := s.my.ycls, classes := classBit s.my.ycls,
                 rd := rd ++ (if mx then slots r.slotRd else []), wr := wr ++ (if mx then slots r.slotWr else []),
                 scope := 2, token := none, seq := 0 } State.finish)

/-- The push of one MX word with its address operand (R117). A word that changes a geometry changes what later pushes
capture (10_matrix_isa.md R220). -/
def State.pushMx (s : State) (w : BitVec 32) (addr : Nat) : Res :=
  let i := accepted (decodeMxFull w)
  let r := match i with
    | some i => s.me.mxRanges s.my.mx.binds addr i
    | none => ([], [])
  s.push { agent := .mx, cmd := .mxWord w addr, cls := s.my.ycls, classes := classBit s.my.ycls,
           rd := r.1, wr := r.2, scope := 2, token := none, seq := 0 } fun s =>
    match i with
    | some (.mxTcfg c rows cols) =>
      (s.upd fun x => { x with mx := { x.mx with binds := { x.mx.binds with
        geoms := Tbl.put Geom.reset x.mx.binds.geoms c.toNat
          { rows := rows.toNat + 1, cols := cols.toNat + 1 } } } }).finish
    | _ => s.finish

/-- The push of a configuration entry without a range. -/
def State.pushPlain (s : State) (a : Agent) (cmd : Cmd) (k : State → State) : Res :=
  s.push { agent := a, cmd := cmd, cls := s.my.ycls, classes := classBit s.my.ycls, rd := [], wr := [], scope := 2,
           token := none, seq := 0 } fun s => (k s).finish

/-- The restartable mark of this task is cleared (01_machine.md R25). -/
def State.clearRstbl (s : State) : State :=
  if s.me.task.isNone then s
  else s.tcbUpd s.me.b.part.toNat s.me.b.tcb.toNat 0 fun v => putBits v 44 44 0

/-- The push of a command with a parameter record (R136, R155): class and scope from the record's header. `k` runs on the
state after the registration. -/
def State.pushRecord (s : State) (a : Agent) (funct7 off : Nat) (token : Option Nat) (k : State → Res) : Res :=
  if off % 64 ≠ 0 then s.illegal
  else
    s.withRecord off fun bytes =>
      let r := s.recordRanges s.cur a funct7 off bytes
      let key := 2 * recScope bytes + bitsNat (recFlags bytes) 0 0
      let n := Tbl.get 0 s.my.cl.counts key
      s.push { agent := a, cmd := .record funct7 off, cls := recCls bytes, classes := classBit (recCls bytes),
               rd := r.1, wr := r.2, scope := recScope bytes, token := token, seq := n } fun s =>
        if a = .cl then
          k (s.clearRstbl.upd fun x => { x with cl := { x.cl with counts := Tbl.put 0 x.cl.counts key (n + 1) } })
        else k s

/-! ### VX and MX pushes -/

/-- VX_RUN (R155). -/
def execVxRun (b a : BitVec 5) (s : State) : Res := s.pushRun false a b

/-- MX_RUN (R155). -/
def execMxRun (b a : BitVec 5) (s : State) : Res := s.pushRun true a b

/-- MX_PUSHW (R117). -/
def execMxPushw (b a : BitVec 5) (s : State) : Res :=
  s.withRegs [destX a, destX b] [] (
    let w := (s.rx a).setWidth 32
    if !w.getLsbD 31 || w.extractLsb' 26 5 == 31#5 then s.illegal
    else s.pushMx w ((s.rx b).setWidth 32).toNat)

/-- The word an immediate form pushes: {1, op, F} (R117; DEDUCED, log 33). -/
def inlineWord (op rd rs1 rs2 : BitVec 5) (m : BitVec 2) : BitVec 32 := 1#1 ++ op ++ rd ++ rs1 ++ rs2 ++ m ++ 0#9

/-- MX_MMA_INLINE (R117). -/
def execMxMmaInline (n d : BitVec 1) (b a c : BitVec 5) (s : State) : Res := s.pushMx (inlineWord 0 c a b (n ++ d)) 0

/-- MX_CLAIM_INLINE (R117). -/
def execMxClaimInline (sl : BitVec 5) (s : State) : Res := s.pushMx (inlineWord 2 sl 0 0 0) 0

/-- MX_RELEASE_INLINE (R117). -/
def execMxReleaseInline (sl : BitVec 5) (s : State) : Res := s.pushMx (inlineWord 3 sl 0 0 0) 0

/-- MX_TINIT_INLINE (R117). -/
def execMxTinitInline (c : BitVec 5) (s : State) : Res := s.pushMx (inlineWord 5 c 0 0 0) 0

/-- A packed shape record (R172), or none where a field is out of range. -/
def shapeOf (v : Nat) : Option Shape :=
  let rows := bitsNat v 6 0
  let klen := bitsNat v 17 8
  let rstr := bitsNat v 32 18
  if bitsNat v 63 39 = 0 ∧ 1 ≤ rows ∧ rows ≤ 64 ∧ 1 ≤ klen ∧ klen ≤ 768 ∧ rstr % 16 = 0 ∧ rstr ≤ 24576 then
    some { rows := rows, t := bitNat v 7, klen := klen, rstr := rstr, estr := bitsNat v 35 33, eoff := bitsNat v 38 36 }
  else none

/-- SK_SHAPE (R172). -/
def execSkShape (a sh : BitVec 5) (s : State) : Res :=
  s.withRegs [destX a] [] (
    match shapeOf (s.rx a).toNat with
    | none => s.illegal
    | some r => s.pushPlain .mx .mxBind fun s => s.upd fun x => { x with mx := { x.mx with binds := { x.mx.binds with
        shapes := Tbl.put Shape.reset x.mx.binds.shapes sh.toNat r } } })

/-- SK_VIEW (R172). -/
def execSkView (h sl v : BitVec 5) (s : State) : Res :=
  s.pushPlain .mx .mxBind fun s => s.upd fun x => { x with mx := { x.mx with binds := { x.mx.binds with
    views := Tbl.put View.reset x.mx.binds.views v.toNat { slot := sl.toNat, sh := h.toNat } } } }

/-- SK_TGEOM (R172, 10_matrix_isa.md R220): pushed as `mx.tcfg`. -/
def execSkTgeom (a c : BitVec 5) (s : State) : Res :=
  s.withRegs [destX a] [] (
    let v := s.rx a
    if bitsNat v.toNat 63 14 ≠ 0 ∨ bitsNat v.toNat 7 6 ≠ 0 then s.illegal
    else s.pushMx (1#1 ++ 6#5 ++ c ++ v.extractLsb' 0 6 ++ v.extractLsb' 8 6 ++ 0#9) 0)

/-- SK_RFCL (R172, 09_vector_isa.md R184). -/
def execSkRfcl (n : BitVec 5) (s : State) : Res := s.pushPlain .vx (.vxRfcl n.toNat) id

/-! ### CX pushes and tokens (R156, 11_data_engines_isa.md R233) -/

/-- The lowest free token entry. -/
def Ctx.freeToken (x : Ctx) : Option Nat := (List.range 64).find? fun n => (Tbl.get? x.tokens n).isNone

/-- SEQ of the next CX push: 26 bits, 0 skipped. -/
def Ctx.nextSeq (x : Ctx) : Nat := if (x.cxPushes + 1) % 2 ^ 26 = 0 then 1 else (x.cxPushes + 1) % 2 ^ 26

/-- A CX push: rd takes its token at once. -/
def State.pushCx (s : State) (funct7 : Nat) (a d : Reg) : Res :=
  s.withRegs [destX a] [destX d] (
    let off := (s.rx a).toNat
    if off % 64 ≠ 0 then s.illegal
    else
      match s.my.freeToken with
      | none => s.trapFree 29 0
      | some n =>
        let seq := s.my.nextSeq
        let v := BitVec.ofNat 64 (64 * seq + n)
        s.pushRecord .cx funct7 off (some n) fun s =>
          (s.upd fun x => { x with tokens := Tbl.set x.tokens n { value := v, ended := none }, cxPushes := seq }).setRd d v)

/-- CX_COPY (R155). -/
def execCxCopy (a d : BitVec 5) (s : State) : Res := s.pushCx 0 a d

/-- CX_COPY2 (R155). -/
def execCxCopy2 (a d : BitVec 5) (s : State) : Res := s.pushCx 1 a d

/-- CX_PEER (R155). -/
def execCxPeer (a d : BitVec 5) (s : State) : Res := s.pushCx 2 a d

/-- CX_FILL (R155). -/
def execCxFill (a d : BitVec 5) (s : State) : Res := s.pushCx 3 a d

/-- CX_RING (R155). -/
def execCxRing (a d : BitVec 5) (s : State) : Res := s.pushCx 4 a d

/-- CX_PRETR (R155). -/
def execCxPretr (a d : BitVec 5) (s : State) : Res := s.pushCx 5 a d

/-- CX_FLUSH (R155). -/
def execCxFlush (a d : BitVec 5) (s : State) : Res := s.pushCx 7 a d

/-- The token entry that holds a value. -/
def Ctx.tokenAt (x : Ctx) (v : Word) : Option (Nat × Token) := x.tokens.find? fun t => t.2.value == v

/-- A token entry ends with a code: a wait for it ends, and TOKEN is latched (08_stoker_isa.md R153, R156). -/
def State.endToken (s : State) (c n code : Nat) : State :=
  match Tbl.get? (s.ctx c).tokens n with
  | some t =>
    let s := s.modCtx c fun x => { x with tokens := Tbl.set x.tokens n { t with ended := some code } }
    (s.endedBy c .sk 2 (t.value.setWidth 32) 3 c).latchEvent c 13 3 c
  | none => s.latchEvent c 13 3 c

/-- The offset of a buffer place. -/
def Place.off : Place → Nat
  | .dev a => a
  | .host a => a
  | .abuf _ o => o
  | .wbuf _ o => o

/-- What a cancelled copy still does: the bytes below the granule boundary at or above every byte it has written, and the
filling of the slot it has taken; nothing more where it has written none (R237). -/
def Entry.cancelRest (e : Entry) : List Todo :=
  let kept := match e.top with
    | none => []
    | some t => e.todo.takeWhile fun o => match o with
      | .bytes p _ => decide (p.off < (t + 4096) / 4096 * 4096)
      | .tag p _ => decide (p.off < (t + 4096) / 4096 * 4096)
      | _ => true
  kept ++ (e.todo.drop kept.length).filter fun o => match o with
    | .filled _ _ => true
    | _ => false

/-- The slot a copy has taken, when its filling is not among what it has still to do: bit 63 of its progress says it took
one (R83). -/
def State.ownSlot (s : State) (c : Nat) (e : Entry) : List Todo :=
  if e.prog < 2 ^ 63 ∨ e.started then []
  else
    match e.cmd with
    | .record _ off =>
      match s.aSpace c off 64 with
      | .own _ p =>
        let r := s.readPlace (.core c .cx) p 64
        [.filled (fld r 49 1) (fld r 48 1)]
      | _ => []
    | _ => []

/-- CX_CANCEL (11_data_engines_isa.md R237): a copy not started leaves its queue; a started one stops at the next granule
boundary; one that has ended is left alone. -/
def execCxCancel (a : BitVec 5) (s : State) : Res :=
  s.withRegs [destX a] [] (
    match s.my.tokenAt (s.rx a) with
    | none => s.finish
    | some (n, t) =>
      match s.my.cxq.find? (fun e => e.token == some n) with
      | none => s.finish
      | some e =>
        if t.ended.isSome then s.finish
        else if e.begun then
          let rest := e.cancelRest ++ s.ownSlot s.cur e
          (s.upd fun x => x.modEntry .cx e.id fun y =>
            { y with started := true, held := false, code := 1, todo := rest, complete := rest.isEmpty }).finish
        else ((s.upd fun x => { x with cxq := x.cxq.filter (fun y => y.id != e.id) }).endToken s.cur n 1).finish)

/-- The code `cx.wait` and `cx.test` report for a value (R156); a held token that has not ended reports 3. -/
def Ctx.tokenCode (x : Ctx) (v : Word) : Nat :=
  match x.tokenAt v with
  | none => 4
  | some (_, t) => t.ended.getD 3

/-- A reported end releases the token, and code 0 acquires (R156). -/
def State.report (s : State) (v : Word) (code : Nat) : State :=
  if 3 ≤ code then s
  else
    let s := s.upd fun x => { x with tokens := x.tokens.filter fun t => t.2.value != v }
    if code = 0 then s.acquire else s

/-- CX_WAIT (R156). -/
def execCxWait (a d : BitVec 5) (s : State) : Res :=
  s.withRegs [destX a] [destX d] (
    let v := s.rx a
    let code := s.my.tokenCode v
    if code = 3 then .next (s.noteWait s.cur .sk 2 (v.setWidth 32) 3 s.cur)
    else (s.report v code).setRd d (BitVec.ofNat 64 code))

/-- CX_TEST (R156). -/
def execCxTest (a d : BitVec 5) (s : State) : Res :=
  s.withRegs [destX a] [destX d] (
    let v := s.rx a
    let code := s.my.tokenCode v
    ((s.report v code).owe d (BitVec.ofNat 64 code)).finish)

/-! ### GX, FX and CL pushes -/

/-- A push of a record command without a token. -/
def State.pushRec (s : State) (a : Agent) (funct7 : Nat) (r : Reg) : Res :=
  s.withRegs [destX r] [] (s.pushRecord a funct7 (s.rx r).toNat none State.finish)

/-- GX_GATHER (R155). -/
def execGxGather (a : BitVec 5) (s : State) : Res := s.pushRec .gx 0 a

/-- GX_BAG (R155). -/
def execGxBag (a : BitVec 5) (s : State) : Res := s.pushRec .gx 1 a

/-- GX_SCADD (R155). -/
def execGxScadd (a : BitVec 5) (s : State) : Res := s.pushRec .gx 2 a

/-- GX_COUNT (R155). -/
def execGxCount (a : BitVec 5) (s : State) : Res := s.pushRec .gx 3 a

/-- FX_PASS (R155). -/
def execFxPass (a : BitVec 5) (s : State) : Res := s.pushRec .fx 0 a

/-- FX_CFG (R155). -/
def execFxCfg (a : BitVec 5) (s : State) : Res := s.pushRec .fx 1 a

/-- CL_ALLRED (R155). -/
def execClAllred (a : BitVec 5) (s : State) : Res := s.pushRec .cl 0 a

/-- CL_REDSC (R155). -/
def execClRedsc (a : BitVec 5) (s : State) : Res := s.pushRec .cl 1 a

/-- CL_ALLGAT (R155). -/
def execClAllgat (a : BitVec 5) (s : State) : Res := s.pushRec .cl 2 a

/-- CL_BCAST (R155). -/
def execClBcast (a : BitVec 5) (s : State) : Res := s.pushRec .cl 3 a

/-- CL_BARRIER (11_data_engines_isa.md R249): an entry in all sixteen class queues. -/
def execClBarrier (t : BitVec 1) (sc : BitVec 3) (s : State) : Res :=
  let key := 2 * sc.toNat + t.toNat
  let n := Tbl.get 0 s.my.cl.counts key
  s.push { agent := .cl, cmd := .barrier (t == 1) sc.toNat, cls := s.my.ycls, classes := allClasses, rd := [], wr := [],
           scope := sc.toNat, token := none, seq := n } fun s =>
    (s.clearRstbl.upd fun x => { x with cl := { x.cl with counts := Tbl.put 0 x.cl.counts key (n + 1) } }).finish

/-! ### Tags and markers -/

/-- The push of a tag write (R171); the tag writer has no queue position and no depth. -/
def State.pushTag (s : State) (inW : Bool) (f : BitVec 5) (g : BitVec 3) (a b : Reg) : Res :=
  s.withRegs [destX a, destX b] [] (
    let off := (s.rx a).toNat
    let len := (s.rx b).toNat
    let k := s.me
    let lim := 4096 * (if inW then k.b.wLimit else k.b.aLimit)
    if off % 4096 ≠ 0 ∨ len = 0 ∨ len % 4096 ≠ 0 ∨ lim < off + len then s.illegal
    else
      s.push { agent := .sk, cmd := .tag inW (f ++ g) off len, cls := s.my.ycls, classes := classBit s.my.ycls, rd := [],
               wr := bufRng inW lim off (off + len), scope := 2, token := none, seq := 0 } State.finish)

/-- SK_BUFFMT_A (R171). -/
def execSkBuffmtA (f b a g : BitVec 5) (s : State) : Res := s.pushTag false f (g.setWidth 3) a b

/-- SK_BUFFMT_W (R171). -/
def execSkBuffmtW (f b a g : BitVec 5) (s : State) : Res := s.pushTag true f (g.setWidth 3) a b

/-- The engines of a marker mask, from bit 0 upward (07_encoding.md R118). -/
def maskAgents (m : BitVec 6) : List Agent :=
  ([(0, Agent.vx), (1, .mx), (2, .cx), (3, .gx), (4, .fx), (5, .cl)].filter fun e => m.getLsbD e.1).map (·.2)

/-- A rendezvous register has fired, or is idle (08_stoker_isa.md R158). -/
def Rv.fired (r : Rv) : Bool := !r.armed || r.owing == 0

def Ctx.rvAt (x : Ctx) (k : Nat) : Rv := Tbl.get Rv.idle x.rv k

/-- The lowest engine that still owes a marker, as a setter. -/
def Rv.owes (r : Rv) : Nat := ((maskAgents r.owing).head?.map (·.code)).getD 15

/-- The wait for a rendezvous. -/
def State.waitRv (s : State) (k : Nat) : Res :=
  let r := s.my.rvAt k
  .next (s.noteWait s.cur .sk 1 (BitVec.ofNat 32 (r.n.toNat * 65536 + k)) r.owes s.cur)

/-- Marker n enters a queue. -/
def markEntry (k : Nat) (n : BitVec 16) (x : Ctx) : Entry :=
  PushReq.entry { agent := .vx, cmd := .marker k n, cls := x.ycls, classes := allClasses, rd := [], wr := [], scope := 2,
                  token := none, seq := 0 } x

/-- SK_MARK (R157, 05_local_memory.md R94). -/
def execSkMark (c : BitVec 1) (e a k : BitVec 5) (s : State) : Res :=
  s.withRegs [destX a] [] (
    let n : BitVec 16 := (s.rx a).setWidth 16
    let m : BitVec 6 := c ++ e
    let agents := maskAgents m
    if !(s.my.rvAt k.toNat).fired then s.waitRv k.toNat
    else if s.my.sq.any (·.typed) then s.undecoupled
    else
      match agents.find? s.my.full with
      | some g => s.stall g
      | none =>
        let id := s.my.nextCmd
        let s := s.upd fun x =>
          { (agents.foldl (fun y g => y.append g (markEntry k.toNat n x)) x) with
            nextCmd := x.nextCmd + 1, rv := Tbl.put Rv.idle x.rv k.toNat { armed := true, owing := m, n := n } }
        (s.enqueue { classes := allClasses, kind := .push id, dest := .none, typed := false }).finish)

end Sys2Proof.Machine
end

