-- ==== Sys2Proof/Machine/Stoker.lean ====
section
/-! DEFINITION. The Stoker's other extension instructions: fences, rendezvous, events and messages, rings, deques and
feeds, typed and class-tagged accesses, ABUF atomics, service requests and lending, variants and the MX and data-engine
status registers (08_stoker_isa.md R149 to R174; 05_local_memory.md R82 to R86, R94, R95; 06_ordering.md R106, R109,
R110, R112). -/
namespace Sys2Proof.Machine

/-! ### Fences, rendezvous, events, messages -/

/-- SK_FENCE (06_ordering.md R106). -/
def execSkFence (m : BitVec 1) (c : BitVec 3) (e d k : BitVec 5) (s : State) : Res :=
  (s.fence (m ++ e ++ d ++ k) c.toNat).finish

/-- SK_RDVWAIT (R158). -/
def execSkRdvwait (k : BitVec 5) (s : State) : Res :=
  if (s.my.rvAt k.toNat).fired then s.acquire.finish else s.waitRv k.toNat

/-- SK_RDVTEST (R158). -/
def execSkRdvtest (k d : BitVec 5) (s : State) : Res :=
  s.withRegs [] [destX d] (
    if (s.my.rvAt k.toNat).fired then (s.acquire.owe d 1).finish else (s.owe d 0).finish)

/-- SK_WFE (R159). -/
def execSkWfe (d : BitVec 5) (s : State) : Res :=
  s.withRegs [] [destX d] (
    let ev := s.my.latch &&& s.my.arm
    if s.my.arm = 0 then s.setRd d 0
    else if ev = 0 then .next (s.noteWait s.cur .sk 6 0 15 s.cur)
    else ((s.upd fun x => { x with latch := x.latch &&& ~~~ev }).acquire).setRd d (ev.setWidth 64))

/-- The member index is at or above the team size (R160). -/
def State.withMember (s : State) (m : Nat) (k : Res) : Res :=
  if s.my.teamSize ≤ m then s.trapFree 25 m else k

/-- An entry of class `ycls` with no result. -/
def plainEnt (cls : BitVec 4) (k : SqKind) : SqEnt := { classes := classBit cls, kind := k, dest := .none, typed := false }

/-- SK_SEV (R160). -/
def execSkSev (m : BitVec 5) (s : State) : Res :=
  s.withMember m.toNat ((s.enqueue (plainEnt s.my.ycls (.sev m.toNat))).finish)

/-- No entry of the classes is on its way: an access of them that issues now performs at once (06_ordering.md R101). -/
def Ctx.classQuiet (x : Ctx) (classes : BitVec 16) : Bool := x.sq.all fun e => e.classes &&& classes == 0

/-- The core of a home: where it is, or the core c for a saved context. -/
def Home.coreOr (h : Home) (c : Nat) : Nat :=
  match h with
  | .core d => d
  | _ => c

/-- SK_SEND (R160): blocks while the member's receive queue is full, and then appends in the step in which it completes
(R151). It is a write of class `ycls`, so the older accesses of that class have performed (06_ordering.md R101; DEDUCED,
log 108). -/
def execSkSend (a m : BitVec 5) (s : State) : Res :=
  s.withRegs [destX a] [] (
    s.withMember m.toNat (
      let h := s.home s.cur m.toNat
      if !s.my.classQuiet (classBit s.my.ycls) then s.undecoupled
      else if 8 ≤ (s.homeCtx h).recvq.length then .next (s.noteWait s.cur .sk 10 15 0 (h.coreOr s.cur))
      else ((s.modHome h fun y => { y with recvq := y.recvq ++ [s.rx a] }).eventAt h 9 0 s.cur).finish))

/-- SK_RECV (R160): blocks while the own receive queue is empty; an acquire. -/
def execSkRecv (d : BitVec 5) (s : State) : Res :=
  s.withRegs [] [destX d] (
    match s.my.recvq with
    | [] => .next (s.noteWait s.cur .sk 6 0x200 0 s.cur)
    | v :: rest => ((s.upd fun x => { x with recvq := rest }).acquire).setRd d v)

/-! ### Rings (R169, R170; 05_local_memory.md R82 to R86) -/

/-- Slots held by a writer or a reader. -/
def Ring.held (r : Ring) : Bool := r.heldSk.isSome || r.heldVx.isSome || r.heldMx.isSome || decide (0 < r.writing)

/-- The offset of a slot. -/
def Ring.slotOff (r : Ring) (i : Nat) : Nat := r.base + r.slotB * i

/-- The ring after slot TAIL is taken (R84). -/
def Ring.take (r : Ring) : Ring := { r with filled := r.filled - 1, tail := (r.tail + 1) % r.nSlot }

/-- The slot that agent a of core c holds on ring n is returned; FREE rises, and the producer's RING event is set
(R84, R85). -/
def State.ringReturn (s : State) (c n : Nat) (a : Agent) : State :=
  let r := (s.ctx c).ring n
  let r' := match a with
    | .vx => { r with heldVx := none }
    | .mx => { r with heldMx := none }
    | _ => { r with heldSk := none }
  let h := s.home c r.prod
  ((s.modCtx c fun x => x.setRing n { r' with free := r.free + 1 }).endedBy (h.coreOr c) .cx 3 (BitVec.ofNat 32 n) a.code
    c).eventAt h 15 a.code c

/-- The wait of an agent for a ring (25_debug.md R353). -/
def State.noteRing (s : State) (c : Nat) (a : Agent) (n : Nat) : State :=
  s.noteWait c a 3 (BitVec.ofNat 32 n) 3 ((s.home c ((s.ctx c).ring n).prod).coreOr c)

/-- The ring fault of a Stoker instruction (R170). -/
def State.ringFault (s : State) (n : Nat) : Res := s.trapFree 26 n

/-- RING_TAKE (R170). -/
def execRingTake (n d : BitVec 5) (s : State) : Res :=
  s.withRegs [] [destX d] (
    let r := s.my.ring n.toNat
    if !r.configured || r.heldSk.isSome then s.ringFault n.toNat
    else if r.filled = 0 then .next (s.noteRing s.cur .sk n.toNat)
    else
      ((s.upd fun x => x.setRing n.toNat { r.take with heldSk := some r.tail }).acquire).setRd d
        (BitVec.ofNat 64 (r.slotOff r.tail)))

/-- RING_GIVE (R170): a release; the Stoker's own reads of the slot have performed (06_ordering.md R110; DEDUCED, log 36). -/
def execRingGive (n : BitVec 5) (s : State) : Res :=
  let r := s.my.ring n.toNat
  if !r.configured || r.heldSk.isNone then s.ringFault n.toNat
  else if s.my.sq.any (·.typed) then s.wait
  else (s.ringReturn s.cur n.toNat .sk).finish

/-- The result of `ring.stat` (R170). -/
def Ring.word (r : Ring) : Word :=
  BitVec.ofNat 64 ((if r.cfgErr then 2 ^ 49 else 0) + (if r.heldSk.isSome then 2 ^ 48 else 0) + r.tail * 2 ^ 40 +
    r.head * 2 ^ 32 + r.filled * 2 ^ 16 + r.free)

/-- RING_STAT (R170; DEDUCED, log 96). -/
def execRingStat (n d : BitVec 5) (s : State) : Res :=
  s.withRegs [] [destX d] (
    let r := s.my.ring n.toNat
    if !r.configured then s.ringFault n.toNat else (s.owe d r.word).finish)

/-- A configuration of ring n is refused (R169, R82). -/
def Core.ringRefused (k : Core) (n : Nat) (v w : Nat) : Bool :=
  let x := k.ctx
  let r := x.ring n
  let inW := bitNat v 21
  let base := bitsNat v 20 0
  let prod := bitsNat w 28 25
  let nslot := bitsNat w 24 16
  let slotu := bitsNat w 15 0
  let hi := base + 64 * slotu * nslot
  bitsNat v 63 22 != 0 || bitsNat w 63 29 != 0 || base % 64 != 0 || nslot == 0 || decide (256 < nslot) ||
  slotu == 0 || decide (32768 < slotu) || decide (x.teamSize ≤ prod) ||
  decide (4096 * (if inW then k.b.wLimit else k.b.aLimit) < hi) ||
  x.rings.any (fun e => e.1 != n && e.2.configured && e.2.inW == inW &&
    overlapR base (hi - base) e.2.base (e.2.slotB * e.2.nSlot)) ||
  (r.configured && (r.free != r.nSlot || r.filled != 0 || r.held))

/-- RING_CFG (R169). That FREE becomes NSLOT is no RING event of the producer (DESIGN CHOICE, log 124). -/
def execRingCfg (b a n : BitVec 5) (s : State) : Res :=
  s.withRegs [destX a, destX b] [] (
    let v := (s.rx a).toNat
    let w := (s.rx b).toNat
    let ring := n.toNat
    if s.me.ringRefused ring v w then (s.upd fun x => x.setRing ring { x.ring ring with cfgErr := true }).finish
    else
      (s.upd fun x => x.setRing ring { Ring.none with
        configured := true, inW := bitNat v 21, base := bitsNat v 20 0, slotB := 64 * bitsNat w 15 0,
        nSlot := bitsNat w 24 16, prod := bitsNat w 28 25, cons := x.member, free := bitsNat w 24 16 }).finish)

/-! ### Deques and feeds (R164, R165; 01_machine.md R16 to R18) -/

/-- No unperformed push of this deque is on its way. -/
def Ctx.dequeQuiet (x : Ctx) : Bool := !(x.sq.any fun e => match e.kind with
  | .dqPush _ => true
  | _ => false)

/-- DQ_PUSH (R164): a release in class `ycls`. -/
def execDqPush (a d : BitVec 5) (s : State) : Res :=
  s.withRegs [destX a] [destX d] (
    (s.clearRstbl.enqueue { classes := classBit s.my.ycls, kind := .dqPush (s.rx a), dest := destX d,
                            typed := false }).finish)

/-- A word or 0 for rd; an acquire when nonzero. -/
def State.giveWord (s : State) (d : Reg) (v : Word) : Res :=
  ((if v = 0 then s else s.acquire).owe d v).finish

/-- The launch whose task core c holds. -/
def State.launchOf (s : State) (c : Nat) : Option Nat :=
  match (s.core c).task with
  | some (t, _) => (Tbl.get? s.teams t).map (·.launch)
  | none => none

/-- The words that retired tasks of launch l left in core c's deque, top first, and those of the task it runs, where that is
of the launch (01_machine.md R17; DEDUCED, log 130). -/
def State.leftOf (s : State) (c l : Nat) : List DqWord := ((s.core c).left.filter (·.1 == l)).map (·.2)

def State.dequeOf (s : State) (c l : Nat) : List DqWord :=
  s.leftOf c l ++ (if s.launchOf c = some l then (s.ctx c).deque else [])

/-- Core c's words of launch l become `ws`: those beyond the number the running task holds are the left ones. -/
def State.setDeque (s : State) (c l : Nat) (own : Nat) (ws : List DqWord) : State :=
  let n := ws.length - min (if s.launchOf c = some l then own else 0) ws.length
  (s.modCore c fun k => { k with left := k.left.filter (·.1 != l) ++ (ws.take n).map fun w => (l, w) }).modCtx c fun x =>
    if s.launchOf c = some l then { x with deque := ws.drop n } else x

/-- DQ_POP (R164): the bottom word; the own task's come before those that retired tasks of its launch left. -/
def execDqPop (d : BitVec 5) (s : State) : Res :=
  s.withRegs [] [destX d] (
    if !s.my.dequeQuiet then s.wait
    else
      match s.launchOf s.cur with
      | some l =>
        let ws := s.dequeOf s.cur l
        (s.clearRstbl.setDeque s.cur l (s.my.deque.length - 1) ws.dropLast).giveWord d ((ws.getLast?.map (·.v)).getD 0)
      | none =>
        (s.clearRstbl.upd fun x => { x with deque := x.deque.dropLast }).giveWord d ((s.my.deque.getLast?.map (·.v)).getD 0))

/-- The first core after c in its cluster whose deque holds a word of the same kernel (01_machine.md R18; DEDUCED, log 102). -/
def State.victim (s : State) (c : Nat) : Option Nat :=
  match s.launchOf c with
  | none => none
  | some l => ((List.range 15).map fun i => c / 16 * 16 + (c % 16 + 1 + i) % 16).find? fun d => !(s.dequeOf d l).isEmpty

/-- DQ_STEAL (01_machine.md R18): the top word. -/
def execDqSteal (d : BitVec 5) (s : State) : Res :=
  s.withRegs [] [destX d] (
    if !s.my.dequeQuiet then s.wait
    else
      match s.launchOf s.cur, s.victim s.cur with
      | some l, some v =>
        let ws := s.dequeOf v l
        (s.clearRstbl.setDeque v l (s.ctx v).deque.length (ws.drop 1)).giveWord d ((ws.head?.map (·.v)).getD 0)
      | _, _ => s.clearRstbl.giveWord d 0)

/-- DQ_EXPORT (R164). -/
def execDqExport (n : BitVec 5) (s : State) : Res := (s.upd fun x => { x with exported := n == 1 }).finish

/-- Where record n of a feed queue lies (21_command_processor.md R323). -/
def Launch.feedSlot (l : Launch) (n : Nat) : Nat := l.feedAt + 64 * (n % 2 ^ l.feedK)

/-- Runs k on the oldest record of a feed queue, which the Stoker reads in the queue's memory as a global read that U does not
bar (R165, 21_command_processor.md R323; DESIGN CHOICE, log 131). -/
def State.withFeed (s : State) (l : Launch) (k : State → List Byte → Res) : Res :=
  let q := Actor.core s.cur .sk
  let va := l.feedSlot l.feedOut
  match s.translate q l.part .read false va with
  | (.ok p attr, s) =>
    let e := s.readErrors q l.part (bitNat attr 5) p 64 va
    if e.2 && !bitNat attr 5 then e.1.trap 5 (BitVec.ofNat 64 va) 0
    else k (e.1.meter e.1.cur (lineEvent p attr false) 1) (if e.2 then List.replicate 64 0 else e.1.readPlace q p 64)
  | (.fault, s) => s.trap 13 (BitVec.ofNat 64 va) 0
  | (.violation, s) => s.violate
  | (.hole, _) => .fault .noSuchMemory

/-- FEED_POP (R165). -/
def execFeedPop (a d : BitVec 5) (s : State) : Res :=
  s.withRegs [destX a] [destX d] (
    let off := (s.rx a).toNat
    match (s.launchOf s.cur).bind (Tbl.get? s.launches ·) with
    | none => s.illegal
    | some l =>
      if l.feedK = 0 then s.illegal
      else if off % 64 ≠ 0 then s.trap 6 (s.rx a) 0
      else
        if l.feedIn = l.feedOut then (s.clearRstbl.owe d 0).finish
        else
          s.withTyped false (s.aSpace s.cur off 64) 64 true fun p =>
            if s.my.sq.any (fun e => e.typed || e.classes &&& classBit s.my.ycls != 0) then s.wait
            else s.withFeed l fun s r =>
              let id := (s.launchOf s.cur).getD 0
              let s := ((s.clearRstbl.modLaunch id fun y => { y with feedOut := y.feedOut + 1 }).writePlace (.core s.cur .sk)
                s.my.ycls 4 p r).meter s.cur 24 1
              (s.acquire.owe d 1).finish)

/-! ### Budget and variants -/

/-- SK_BUDGET (R167): the bucket, sign-extended. -/
def execSkBudget (d : BitVec 5) (s : State) : Res :=
  s.withRegs [] [destX d] (
    let i := s.island s.cur
    (s.owe d (BitVec.ofInt 64 (if s.damper.stepEc = s.ec + 1 then i.was else i.bucket))).finish)

/-- The status of a registration and the TCB slot it takes (R168). -/
def State.variantStatus (s : State) (entry : Word) (cls : Nat) : Nat × Nat :=
  let p := s.me.b.part.toNat
  let tcb := s.me.b.tcb.toNat
  let segs := (((s.launchOf s.cur).bind (Tbl.get? s.launches ·)).map (·.segs)).getD []
  let main := bitsNat (s.tcbGet p tcb 0) 41 39
  let free := (List.range 3).find? fun i => !bitNat (s.tcbGet p tcb (4 + i)) 60
  if entry.toNat % 2 ≠ 0 then (3, 0)
  else if !segs.any (fun e => e.pc == entry.toNat) then (4, 0)
  else if main ≤ cls then (1, 0)
  else
    match free with
    | none => (2, 0)
    | some i => (0, 4 + i)

/-- SK_VARIANT (R168). -/
def execSkVariant (c a d : BitVec 5) (s : State) : Res :=
  s.withRegs [destX a] [destX d] (
    let r := s.variantStatus (s.rx a) c.toNat
    let s' := if r.1 = 0 then
        s.tcbUpd s.me.b.part.toNat s.me.b.tcb.toNat r.2 fun _ => c.toNat * 2 ^ 61 + 2 ^ 60 + (s.rx a).toNat % 2 ^ 57
      else s
    (s'.owe d (BitVec.ofNat 64 r.1)).finish)

/-! ### Typed-buffer and class-tagged accesses (R162) -/

/-- A typed load of n bytes from a place joins its class queue and meters one unit. -/
def State.loadTyped (s : State) (inW : Bool) (c : BitVec 4) (u : BitVec 1) (b a : Reg) (w : BitVec 2) (d : Reg) : Res :=
  s.withRegs [destX a, destX b] [destX d] (
    let va := s.rx a + s.rx b
    let n := widthBytes w
    if va.toNat % n ≠ 0 then s.trap 4 va 0
    else
      s.withTyped inW (if inW then s.wSpace s.cur va.toNat n else s.aSpace s.cur va.toNat n) n false fun p =>
        ((s.enqueue { classes := classBit c, kind := .load p n (u == 0) false va, dest := destX d,
                      typed := true }).meter s.cur 24 1).finish)

/-- A typed store of n bytes. -/
def State.storeTyped (s : State) (inW : Bool) (c : BitVec 4) (b a : Reg) (w : BitVec 2) : Res :=
  s.withRegs [destX a, destX b] [] (
    let va := s.rx a
    let n := widthBytes w
    if va.toNat % n ≠ 0 then s.trap 6 va 0
    else
      s.withTyped inW (if inW then s.wSpace s.cur va.toNat n else s.aSpace s.cur va.toNat n) n true fun p =>
        ((s.enqueue { classes := classBit c, kind := .store p (leBytes n (s.rx b).toNat), dest := .none,
                      typed := true }).meter s.cur 24 1).finish)

/-- AB_LOAD (R162). -/
def execAbLoad (c : BitVec 4) (u : BitVec 1) (b a : BitVec 5) (w : BitVec 2) (d : BitVec 5) (s : State) : Res :=
  s.loadTyped false c u b a w d

/-- AB_STORE (R162). -/
def execAbStore (c : BitVec 4) (b a : BitVec 5) (w : BitVec 2) (s : State) : Res := s.storeTyped false c b a w

/-- WB_LOAD (R162). -/
def execWbLoad (c : BitVec 4) (u : BitVec 1) (b a : BitVec 5) (w : BitVec 2) (d : BitVec 5) (s : State) : Res :=
  s.loadTyped true c u b a w d

/-- WB_STORE (R162). -/
def execWbStore (c : BitVec 4) (b a : BitVec 5) (w : BitVec 2) (s : State) : Res := s.storeTyped true c b a w

/-- SK_CL_LOAD (R162). -/
def execSkClLoad (c : BitVec 4) (u : BitVec 1) (b a : BitVec 5) (w : BitVec 2) (d : BitVec 5) (s : State) : Res :=
  s.withRegs [destX a, destX b] [destX d] (s.issueLoad c (destX d) (widthBytes w) (u == 0) (s.rx a + s.rx b))

/-- SK_CS_STORE (R162). -/
def execSkCsStore (c : BitVec 4) (b a : BitVec 5) (w : BitVec 2) (s : State) : Res :=
  s.withRegs [destX a, destX b] [] (s.issueStore c (leBytes (widthBytes w) (s.rx b).toNat) (s.rx a))

/-- An ABUF atomic (R163, 06_ordering.md R109): class `ycls`, core scope, or cluster scope through the window. -/
def State.abAmo (s : State) (op : AmoOp) (w : BitVec 1) (b a d : Reg) : Res :=
  s.withRegs [destX a, destX b] [destX d] (
    let va := s.rx a
    let n := if w = 1 then 8 else 4
    if va.toNat % n ≠ 0 then s.trap 6 va 0
    else
      let t := s.aSpace s.cur va.toNat n
      let scope := match t with
        | .team _ => 1
        | _ => 0
      s.withTyped false t n true fun p =>
        ((s.enqueue { classes := classBit s.my.ycls, kind := .amo op p n (s.rx b) scope false va, dest := destX d,
                      typed := true }).meter s.cur 24 1).finish)

/-- AB_AMOADD (R163). -/
def execAbAmoadd (w : BitVec 1) (b a d : BitVec 5) (s : State) : Res := s.abAmo .add w b a d

/-- AB_AMOSWAP (R163). -/
def execAbAmoswap (w : BitVec 1) (b a d : BitVec 5) (s : State) : Res := s.abAmo .swap w b a d

/-- AB_AMOXOR (R163). -/
def execAbAmoxor (w : BitVec 1) (b a d : BitVec 5) (s : State) : Res := s.abAmo .xor w b a d

/-- AB_AMOOR (R163). -/
def execAbAmoor (w : BitVec 1) (b a d : BitVec 5) (s : State) : Res := s.abAmo .or w b a d

/-- AB_AMOAND (R163). -/
def execAbAmoand (w : BitVec 1) (b a d : BitVec 5) (s : State) : Res := s.abAmo .and w b a d

/-- AB_AMOMIN (R163). -/
def execAbAmomin (w : BitVec 1) (b a d : BitVec 5) (s : State) : Res := s.abAmo .min w b a d

/-- AB_AMOMAX (R163). -/
def execAbAmomax (w : BitVec 1) (b a d : BitVec 5) (s : State) : Res := s.abAmo .max w b a d

/-- AB_AMOMINU (R163). -/
def execAbAmominu (w : BitVec 1) (b a d : BitVec 5) (s : State) : Res := s.abAmo .minu w b a d

/-- AB_AMOMAXU (R163). -/
def execAbAmomaxu (w : BitVec 1) (b a d : BitVec 5) (s : State) : Res := s.abAmo .maxu w b a d

/-! ### Service requests and lending (R173, R174; 06_ordering.md R112) -/

/-- SK_SVC (R173): a class-15 access; a misaligned record address gives status 2. -/
def execSkSvc (a d : BitVec 5) (s : State) : Res :=
  s.withRegs [destX a] [destX d] (
    let va := s.rx a
    if va.toNat % 64 ≠ 0 then (s.clearRstbl.owe d 2).finish
    else
      s.withGlobal .read va fun s p attr =>
        (s.clearRstbl.enqueue { classes := classBit 15, kind := .svc p 64 (lineEvent p attr false), dest := destX d, typed := false }).finish)

/-- The page that holds a virtual address, at its mapped size. -/
def State.pageOf (s : State) (c part va : Nat) : Nat × Nat :=
  match s.tlbHit (.core c .sk) part va with
  | some e => (e.va, e.size)
  | none => (va / 4096 * 4096, 4096)

/-- SK_LEND (R174): a class-15 access. -/
def execSkLend (a d : BitVec 5) (s : State) : Res :=
  s.withRegs [destX a] [destX d] (
    s.withGlobal .read (s.rx a) fun s _ _ =>
      let p := s.pageOf s.cur s.me.b.part.toNat (s.rx a).toNat
      (s.clearRstbl.enqueue { classes := classBit 15, kind := .lend p.1 p.2, dest := destX d, typed := false }).finish)

/-! ### The sticky registers of the engines -/

/-- `ymxst` as a word (10_matrix_isa.md R209). -/
def Ymxst.word (y : Ymxst) : Word :=
  BitVec.ofNat 64 (y.cfglost.toNat * 2 ^ 24 + y.gateidle.toNat * 2 ^ 16 + (if y.nv then 8 else 0) + (if y.of then 4 else 0) +
    (if y.uf then 2 else 0) + (if y.nx then 1 else 0))

/-- `ymxst` after a write: CFGLOST clears where the word holds 1. -/
def Ymxst.write (y : Ymxst) (v : Word) : Ymxst :=
  { cfglost := y.cfglost &&& ~~~(v.extractLsb' 24 8), gateidle := v.extractLsb' 16 8, nv := v.getLsbD 3, of := v.getLsbD 2,
    uf := v.getLsbD 1, nx := v.getLsbD 0 }

/-- Whether a CSR function writes: set and clear with x0 or a zero immediate do not (RISC-V Zicsr). -/
def csrDoesWrite (op : CsrOp) (rs1 : Reg) : Bool := op == .rw || rs1 != 0

/-- The wait of the Stoker until the engines named have retired all they hold. -/
def State.drainWait (s : State) (a : Agent) : Res :=
  .next (s.noteWait s.cur .sk 5 (BitVec.ofNat 32 (((s.my.queue a).getLast?.map (·.qpos)).getD 0)) a.code s.cur)

/-- YMXST_ACCESS (10_matrix_isa.md R209). -/
def execYmxstAccess (op : CsrOp) (uimm : Bool) (rd rs1 : Reg) (s : State) : Res :=
  s.withRegs (csrSrcs uimm rs1) [destX rd] (
    if !s.my.mxq.isEmpty then s.drainWait .mx
    else
      let old := s.my.mx.st.word
      let v := csrNew op old (s.csrArg uimm rs1)
      (if csrDoesWrite op rs1 then s.upd fun x => { x with mx := { x.mx with st := x.mx.st.write v } } else s).setRd rd old)

/-- `ydxst` as a word (11_data_engines_isa.md R230). -/
def Ydxst.word (y : Ydxst) : Word :=
  BitVec.ofNat 64 (y.first.toNat * 2 ^ 32 + y.fagent.toNat * 2 ^ 24 + y.zlines.toNat * 2 ^ 8 + (if y.csat then 2 else 0) +
    (if y.uez then 1 else 0))

/-- `ydxst` after a write: clearing UEZ clears what it recorded. -/
def Ydxst.write (y : Ydxst) (v : Word) : Ydxst :=
  let z := if v.getLsbD 0 then { Ydxst.reset with csat := y.csat } else y
  { z with csat := y.csat && !v.getLsbD 1 }

/-- YDXST_ACCESS (11_data_engines_isa.md R230). -/
def execYdxstAccess (op : CsrOp) (uimm : Bool) (rd rs1 : Reg) (s : State) : Res :=
  s.withRegs (csrSrcs uimm rs1) [destX rd] (
    match [Agent.cx, .gx, .fx].find? (fun a => !(s.my.queue a).isEmpty) with
    | some a => s.drainWait a
    | none =>
      let old := s.my.ydxst.word
      let v := csrNew op old (s.csrArg uimm rs1)
      (if csrDoesWrite op rs1 then s.upd fun x => { x with ydxst := x.ydxst.write v } else s).setRd rd old)

end Sys2Proof.Machine
end

