-- ==== Sys2Proof/Machine/Engine.lean ====
section
/-! DEFINITION. What the engines share: starting the entry a queue comes to, reading and writing memory for a command with
its metering and its errors, fault records, retiring (01_machine.md R6; 05_local_memory.md R79 to R81, R88, R94, R95;
06_ordering.md R103; 11_data_engines_isa.md R229 to R231; 17_energy.md R288; 20_translation_faults.md R311 to R313). -/
namespace Sys2Proof.Machine

/-! ### Faults (R311, R312) -/

/-- The faults of R311. -/
inductive FaultSub where
  | illegalWord | reservedPort | window | misaligned | format | ring | fetch | translation | slot | record | bufferBound
  | teamWindow | pageLending | uncorrectable | index | collective | fabric | violation
  deriving DecidableEq, Repr

/-- The code in FSTAT.SUB. -/
def FaultSub.code : FaultSub → Nat
  | .illegalWord => 1
  | .reservedPort => 2
  | .window => 3
  | .misaligned => 4
  | .format => 5
  | .ring => 6
  | .fetch => 7
  | .translation => 8
  | .slot => 9
  | .record => 10
  | .bufferBound => 11
  | .teamWindow => 12
  | .pageLending => 13
  | .uncorrectable => 14
  | .index => 15
  | .collective => 16
  | .fabric => 17
  | .violation => 18

/-- A fault an engine meets: its sub-cause, the access (0 read, 1 write, 2 fetch; DEDUCED, log 86), and the address or
buffer offset where the fault has one. -/
structure EFault where
  sub : FaultSub
  acc : Nat
  addr : Option Nat
  deriving DecidableEq, Repr

/-- The address or offset of a fault that has one. -/
def EFault.offset (f : EFault) : Nat := f.addr.getD 0

/-- ADDR of a fault record; a free value where the fault has neither an address nor an offset (R312; DESIGN CHOICE, log 105). -/
def State.faultAddr (s : State) (f : EFault) : Word × State :=
  match f.addr with
  | some a => (BitVec.ofNat 64 a, s)
  | none => s.takeFree

/-- CMD of a fault record: the code address of a run, the offset of a record. -/
def Cmd.word : Cmd → Nat
  | .vxRun code _ _ => code
  | .mxRun code _ _ => code
  | .record _ off => off
  | _ => 0

/-- FOP of a fault record: the back-map entry of a run's code address (R312, 12_portable_form.md R263; DEDUCED, log 48). -/
def State.fopCmd (s : State) (c : Nat) (cmd : Cmd) : Word :=
  match cmd with
  | .vxRun code _ _ => s.fopOf c (BitVec.ofNat 64 code)
  | .mxRun code _ _ => s.fopOf c (BitVec.ofNat 64 code)
  | _ => 0

/-- FSTAT of a fault (R312). -/
def EFault.fstat (f : EFault) (e : Entry) : Nat :=
  2 ^ 63 + (if f.sub = .violation then 2 ^ 62 else 0) + f.acc * 2 ^ 60 + f.sub.code * 2 ^ 40 + e.qpos

/-- The fault record of a command that stops (R312; VXST in it DESIGN CHOICE, log 129). -/
def State.faultRec (s : State) (e : Entry) (f : EFault) (progress : Nat) (fop task : Word) (vxst : BitVec 9) :
    FaultRec × State :=
  let w := s.faultAddr f
  ({ fstat := BitVec.ofNat 64 (f.fstat e), prog := BitVec.ofNat 64 progress, addr := w.1,
     cmd := BitVec.ofNat 64 e.cmd.word, fop := fop, task := task, action := 0, todo := 0, vxst := vxst }, w.2)

/-- Engine a of core c stops at an entry: its record becomes valid, interrupt 18 pends, and a violation freezes the team
in place (R312, R315). -/
def State.engineFault (s : State) (c : Nat) (a : Agent) (e : Entry) (f : EFault) (progress : Nat) : State :=
  let r := s.faultRec e f progress (s.fopCmd c e.cmd) (s.core c).b.tcb (if a = .vx then (s.ctx c).vx.vxst else 0)
  let s := r.2.modCtx c fun x => x.setFault a r.1
  if f.sub = .violation then s.freezeCore c 2 (f.fstat e) f.offset else s

/-! ### Starting -/

/-- An enabled breakpoint names the entry, which has not started; one written in this ec does not hold back what starts in
it (25_debug.md R352). -/
def State.broken (s : State) (c : Nat) (a : Agent) (e : Entry) : Bool :=
  bitNat s.soot.ctl.toNat 0 && !e.begun && s.soot.brk.any fun b =>
    !s.brkFresh b.1 && bitNat b.2.toNat 63 && bitsNat b.2.toNat 62 56 == c && bitsNat b.2.toNat 55 52 == a.code && a != .sk &&
    bitsNat b.2.toNat 31 0 == e.qpos

/-- Engines that run one command at a time (11_data_engines_isa.md R229, 09_vector_isa.md R181). CL starts none while a barrier
waits (DESIGN CHOICE, log 123). -/
def oneAtATime (a : Agent) : Bool := a == .vx || a == .gx || a == .fx || a == .cl

/-- The entry engine a starts next: the oldest that has not started, once its push has performed and no younger one of
this engine may pass (R229, 10_matrix_isa.md R205; DEDUCED, log 39). -/
def Ctx.nextEntry (x : Ctx) (a : Agent) : Option Entry :=
  match (x.queue a).find? (fun e => !e.started && !e.isMarker &&
      if a = .cx ∧ x.cxFocus.isSome then x.cxFocus == some e.id else !e.held) with
  | some e =>
    if e.pushed && !(oneAtATime a && (x.queue a).any (fun o => o.started && !o.isMarker)) then some e else none
  | none => none

/-- Runs k on the entry engine a of core c starts now, where its command is one of `want`; otherwise the engine waits
(R88). While a fault of CX stands, a copy that is already running still performs its group (11_data_engines_isa.md R238). -/
def State.startEntry (s : State) (a : Agent) (want : Cmd → Bool) (k : State → Entry → Res) : Res :=
  let c := s.cur
  if !s.me.enginesRun || (s.my.stopped a && !(a == .cx && s.my.cxFocus.isSome)) then .next s
  else
    match s.my.nextEntry a with
    | none => .next s
    | some e =>
      if !want e.cmd || s.broken c a e then .next s
      else
        match s.my.holders e.id e.rd e.wr with
        | [] => k (s.endWaitOf c a 5) e
        | o :: _ => .next (s.noteWaitAt c a e.qpos 5 (BitVec.ofNat 32 o.qpos) (s.my.engineOf o.id) c)

/-- Whether a command is a record command of the funct7 f. -/
def Cmd.isRecord (f : Nat) (cmd : Cmd) : Bool :=
  match cmd with
  | .record g _ => g == f
  | _ => false

/-- The record offset of a record command. -/
def Cmd.recOff (cmd : Cmd) : Nat :=
  match cmd with
  | .record _ off => off
  | _ => 0

/-! ### Memory accesses of a command -/

/-- A command being carried out: the state it began in, what it has metered, its global writes so far, one list per class
and memory, and what it does in the buffers, the last first. -/
structure Job where
  s0 : State
  s : State
  c : Nat
  a : Agent
  cls : BitVec 4
  pdef : Bool
  /-- Event, memory and line or unit already metered: each is counted once per command (17_energy.md R288). -/
  met : List (Nat × Nat × Nat)
  out : List (BitVec 4 × Bool × Memory)
  /-- Tagged granules and the highest address written into each (05_local_memory.md R81). -/
  tops : List (Place × Nat)
  log : List Todo
  deriving DecidableEq, Repr

/-- What an access answers: a value; a fault; or an address where no memory is. -/
inductive Got (α : Type) where
  | ok (v : α) (j : Job)
  | stop (f : EFault) (j : Job)
  | hole

def Got.bind {α β : Type} (r : Got α) (k : α → Job → Got β) : Got β :=
  match r with
  | .ok v j => k v j
  | .stop f j => .stop f j
  | .hole => .hole

/-- A job with nothing done. -/
def State.job (s : State) (c : Nat) (a : Agent) (cls : BitVec 4) (pdef : Bool) : Job :=
  { s0 := s, s := s, c := c, a := a, cls := cls, pdef := pdef, met := [], out := [], tops := [], log := [] }

/-- Whether the event has been metered, and the job with it metered. -/
def Job.once (j : Job) (q mem unit : Nat) : Bool × Job :=
  if j.met.contains (q, mem, unit) then (false, j)
  else (true, { j with s := j.s.meter j.c q 1, met := (q, mem, unit) :: j.met })

/-- A note of what the command does in a buffer. -/
def Job.note (j : Job) (t : Todo) : Job := { j with log := t :: j.log }

/-- One 64-byte unit of a local buffer read. -/
def Job.unit (j : Job) (p : Place) : Job :=
  match p with
  | .abuf d o => (j.once 24 (8 * d) (o / 64)).2
  | .wbuf d o => (j.once 24 (8 * d + 2) (o / 64)).2
  | _ => j

/-- One 64-byte unit of a local buffer written: it is metered when its bytes are. -/
def Job.unitW (j : Job) (p : Place) : Job :=
  let key := match p with
    | .abuf d o => (24, 8 * d + 1, o / 64)
    | .wbuf d o => (24, 8 * d + 3, o / 64)
    | _ => (0, 0, 0)
  if key.1 = 0 ∨ j.met.contains key then j else { j with met := key :: j.met }.note (.meter 24)

/-- The tag of the granule at a physical buffer place (05_local_memory.md R80). -/
def State.tagOf (s : State) (p : Place) : Nat :=
  match p with
  | .abuf d o => ((s.core d).tag false (o / 4096)).toNat
  | .wbuf d o => ((s.core d).tag true (o / 4096)).toNat
  | _ => 0

/-- The granule at a place takes a tag. -/
def State.setTag (s : State) (p : Place) (tag : Nat) : State :=
  match p with
  | .abuf d o => s.modCore d fun k => k.setTag false (o / 4096) (BitVec.ofNat 8 tag)
  | .wbuf d o => s.modCore d fun k => k.setTag true (o / 4096) (BitVec.ofNat 8 tag)
  | _ => s

/-- FMT of a tag, and GEO. -/
def tagFmt (t : Nat) : Nat := t / 8 % 32

def tagGeo (t : Nat) : Nat := t % 8

/-- The physical place of a range of an own or team buffer, or its fault (R79, R14). -/
def Typed.place (t : Typed) (acc a : Nat) : Except EFault Place :=
  match t with
  | .own _ p => .ok p
  | .team p => .ok p
  | .bound o => .error { sub := .bufferBound, acc := acc, addr := some o }
  | .badMember _ => .error { sub := .teamWindow, acc := acc, addr := some a }

/-- `ydxst` after a zeroed line (11_data_engines_isa.md R230; DEDUCED, log 49). -/
def Ydxst.zeroed (y : Ydxst) (a : Agent) (first : Nat) : Ydxst :=
  { y with
    uez := true
    first := if y.uez then y.first else BitVec.ofNat 32 first
    fagent := if y.uez then y.fagent else BitVec.ofNat 3 a.code
    zlines := if y.zlines = 0xFFFF#16 then y.zlines else y.zlines + 1 }

/-- A read of n bytes within one line at a global address; `first` is what FIRST takes (R231). -/
def Job.readGlob (j : Job) (first va n : Nat) : Got (List Byte × Nat) :=
  let k := j.s.core j.c
  match j.s.translate (.core j.c j.a) k.b.part.toNat .read true va with
  | (.fault, s) => .stop { sub := .translation, acc := 0, addr := some va } { j with s := s }
  | (.violation, s) => .stop { sub := .violation, acc := 0, addr := some va } { j with s := s }
  | (.hole, _) => .hole
  | (.ok p attr, s) =>
    let mem := match p with
      | .host _ => 1
      | _ => 0
    let pa := match p with
      | .host a => a
      | .dev a => a
      | _ => 0
    let m := ({ j with s := s }).once (lineEvent p attr false) mem (pa / 64)
    let j := m.2
    let tag := bitsNat attr 13 6
    let kind := if mem = 0 then j.s.lineKind (.core j.c j.a) pa else 0
    let uez : Bool := bitNat attr 5 && (j.a == .cx || j.a == .gx || j.a == .fx)
    let met := fun (z : Bool) => (j.s.lineError (.core j.c j.a) k.b.part.toNat z pa va).1
    if kind = 2 then
      let s := if m.1 || !uez then met uez else j.s
      if uez then
        let s := if m.1 then s.modCtx j.c fun x => { x with ydxst := x.ydxst.zeroed j.a first } else s
        .ok (List.replicate n 0, tag) { j with s := s }
      else .stop { sub := .uncorrectable, acc := 0, addr := some va } { j with s := s }
    else
      let s := if kind = 1 ∧ m.1 then met false else j.s
      .ok (s.readPlace (.core j.c j.a) p n, tag) { j with s := s }

/-- A read of n bytes within one 64-byte unit of a local buffer. -/
def Job.readBuf (j : Job) (t : Typed) (a n : Nat) : Got (List Byte × Nat) :=
  match t.place 0 a with
  | .error f => .stop f j
  | .ok p =>
    let e := j.s.sramErrors (.core j.c j.a) (j.s.core j.c).b.part.toNat (p.sram false n)
    if e.2 then .stop { sub := .uncorrectable, acc := 0, addr := some a } { j with s := e.1 }
    else .ok (j.s.readPlace (.core j.c j.a) p n, j.s.tagOf p) ((j.unit p).note (.read p n))

/-- A read of n bytes within one line or unit: the bytes and the tag they lie under. -/
def Job.readChunk (j : Job) (first : Nat) (p : RPlace) (n : Nat) : Got (List Byte × Nat) :=
  match p with
  | .glob va => j.readGlob first va n
  | .a o => j.readBuf (j.s.aSpace j.c o n) o n
  | .w o => j.readBuf (j.s.wSpace j.c o n) o n
  | .bad => .stop { sub := .record, acc := 0, addr := none } j

/-- Bytes written at the place the job writes, joined to its group of a class and memory. -/
def addOut (out : List (BitVec 4 × Bool × Memory)) (cls : BitVec 4) (host : Bool) (cells : Memory) :
    List (BitVec 4 × Bool × Memory) :=
  match out with
  | [] => [(cls, host, cells)]
  | (k, h, m) :: t =>
    if k = cls ∧ h = host then (k, h, cells.foldl (fun m e => Tbl.set m e.1 e.2) m) :: t
    else (k, h, m) :: addOut t cls host cells

/-- A write of bytes within one line at a global address. -/
def Job.writeGlob (j : Job) (va : Nat) (bs : List Byte) : Got Place :=
  let part := (j.s.core j.c).b.part.toNat
  match j.s.translate (.core j.c j.a) part .write true va with
  | (.fault, s) => .stop { sub := .translation, acc := 1, addr := some va } { j with s := s }
  | (.violation, s) => .stop { sub := .violation, acc := 1, addr := some va } { j with s := s }
  | (.hole, _) => .hole
  | (.ok p attr, s) =>
    if s.isLent part va then .stop { sub := .pageLending, acc := 1, addr := some va } { j with s := s }
    else
      let host : Bool := match p with
        | .host _ => true
        | _ => false
      let pa := match p with
        | .host a => a
        | .dev a => a
        | _ => 0
      let j := (({ j with s := s }).once (lineEvent p attr true) (if host then 1 else 0) (pa / 64)).2
      let cls := if j.pdef then BitVec.ofNat 4 (bitsNat attr 3 0) else j.cls
      .ok p { j with out := addOut j.out cls host (cellsAt pa bs) }

/-- A write of bytes at a place of a buffer, at once for this command's own reads (R104). -/
def Job.put (j : Job) (p : Place) (bs : List Byte) : Job :=
  (({ j with s := j.s.writePlace (.core j.c j.a) 0 4 p bs }).unitW p).note (.bytes p bs)

/-- A write of bytes within one unit of a local buffer. -/
def Job.writeBuf (j : Job) (t : Typed) (a : Nat) (bs : List Byte) : Got Place :=
  match t.place 1 a with
  | .error f => .stop f j
  | .ok p => .ok p (j.put p bs)

/-- A write of bytes within one line or unit. -/
def Job.writeChunk (j : Job) (p : RPlace) (bs : List Byte) : Got Place :=
  match p with
  | .glob va => j.writeGlob va bs
  | .a o => j.writeBuf (j.s.aSpace j.c o bs.length) o bs
  | .w o => j.writeBuf (j.s.wSpace j.c o bs.length) o bs
  | .bad => .stop { sub := .record, acc := 1, addr := none } j

/-- The granule at p takes the tag that comes with its highest-addressed byte so far (R81). -/
def Job.tagChunk (j : Job) (p : Place) (n tag : Nat) : Job :=
  let key : Place × Nat := match p with
    | .abuf d o => (.abuf d (o / 4096), o + n)
    | .wbuf d o => (.wbuf d (o / 4096), o + n)
    | p => (p, 0)
  match p with
  | .dev _ => j
  | .host _ => j
  | _ =>
    match j.tops.find? (fun t => t.1 == key.1) with
    | some t =>
      if key.2 < t.2 then j
      else { j with s := j.s.setTag p tag, tops := key :: j.tops.filter (fun t => t.1 != key.1) }.note (.tag p tag)
    | none => { j with s := j.s.setTag p tag, tops := key :: j.tops }.note (.tag p tag)

/-- The address of a place. -/
def RPlace.addr : RPlace → Nat
  | .glob va => va
  | .a o => o
  | .w o => o
  | .bad => 0

/-- A place moved by a signed distance; buffer offsets are 32-bit and addresses 64-bit. -/
def RPlace.shift (p : RPlace) (d : Int) : RPlace :=
  match p with
  | .glob va => .glob (codeInt 64 (va + d))
  | .a o => .a (codeInt 32 (o + d))
  | .w o => .w (codeInt 32 (o + d))
  | .bad => .bad

/-- Bytes to the end of the 64-byte line that holds the address. -/
def toLine (a : Nat) : Nat := 64 - a % 64

/-- Reads n bytes from p on, each with the tag it lies under. -/
def Job.read (j : Job) (first : Nat) (p : RPlace) : (fuel n : Nat) → Got (List (Byte × Nat))
  | 0, _ => .ok [] j
  | fuel + 1, n =>
    if n = 0 then .ok [] j
    else
      let m := min n (toLine p.addr)
      (j.readChunk first p m).bind fun r j =>
        (j.read first (p.shift m) fuel (n - m)).bind fun rest j => .ok (r.1.map (fun b => (b, r.2)) ++ rest) j

/-- Reads n bytes as bytes. -/
def Job.readBytes (j : Job) (first : Nat) (p : RPlace) (n : Nat) : Got (List Byte) :=
  (j.read first p n n).bind fun r j => .ok (r.map (·.1)) j

/-- Writes bytes from p on. -/
def Job.write (j : Job) (p : RPlace) : (fuel : Nat) → List Byte → Got Unit
  | 0, _ => .ok () j
  | fuel + 1, bs =>
    if bs.isEmpty then .ok () j
    else
      let m := min bs.length (toLine p.addr)
      (j.writeChunk p (bs.take m)).bind fun _ j => j.write (p.shift m) fuel (bs.drop m)

/-- Writes bytes. -/
def Job.writeBytes (j : Job) (p : RPlace) (bs : List Byte) : Got Unit := j.write p bs.length bs

/-- A granule's tag at an own or team buffer offset, or its fault. -/
def Job.tagAt (j : Job) (acc o : Nat) : Got Nat :=
  match (j.s.aSpace j.c o 1).place acc o with
  | .error f => .stop f j
  | .ok p => .ok (j.s.tagOf p) j

/-! ### Ending a command -/

/-- The job's global writes join the coherence order as one group; the answer names it (R103). -/
def Job.flush (j : Job) : State × List Nat :=
  if j.out.isEmpty then (j.s, [])
  else (j.s.addWrites (.core j.c j.a) 0 (j.out.map fun g => (j.s.pend.length, g.1, g.2.1, g.2.2)), [j.s.nextId])

/-- Whether a thing to do changes anything but energy. -/
def Todo.acts : Todo → Bool
  | .bytes _ _ => true
  | .tag _ _ => true
  | .read _ _ => false
  | .meter _ => true
  | .filled _ _ => true

/-- The granule of a buffer place. -/
def Place.granule : Place → Place
  | .abuf d o => .abuf d (o / 4096)
  | .wbuf d o => .wbuf d (o / 4096)
  | p => p

/-- Each granule's last tag stands at its first byte (05_local_memory.md R81); `done` holds the granules already tagged. -/
def tagsFirst (all : List Todo) : List Place → List Todo → List Todo
  | _, [] => []
  | done, .tag _ _ :: t => tagsFirst all done t
  | done, .bytes p bs :: t =>
    let g := p.granule
    let tags := all.filterMap fun o => match o with
      | .tag q v => if q.granule = g then some v else none
      | _ => none
    match tags.getLast? with
    | some v =>
      if done.contains g then .bytes p bs :: tagsFirst all done t
      else .tag p v :: .bytes p bs :: tagsFirst all (g :: done) t
    | none => .bytes p bs :: tagsFirst all done t
  | done, o :: t => o :: tagsFirst all done t

/-- The buffers of core d as they were in s0. -/
def State.buffersFrom (s s0 : State) (d : Nat) : State :=
  let k := s0.core d
  s.modCore d fun x => { x with aBytes := k.aBytes, wBytes := k.wBytes, aTags := k.aTags, wTags := k.wTags, fwd := k.fwd }

/-- The cores whose buffers a list of things to do changes. -/
def todoCores (l : List Todo) : List Nat :=
  (l.filterMap fun o => match o with
    | .bytes (.abuf d _) _ => some d
    | .bytes (.wbuf d _) _ => some d
    | _ => none).eraseDups

/-- The engines whose commands go on after their start and pass granules one by one (R88). -/
def goesOn (a : Agent) : Bool := a == .cx || a == .gx || a == .fx

/-- The energy that the noted things meter. -/
def State.meterNoted (s : State) (c : Nat) (l : List Todo) : State :=
  l.foldl (fun s o => match o with
    | .meter q => s.meter c q 1
    | _ => s) s

/-- A command of CX, GX or FX that has passed its last granule keeps its slots only (R88). -/
def Entry.passed (e : Entry) : Entry :=
  { e with rd := [], wr := e.wr.filter fun r => match r with
    | .slot _ => true
    | _ => false }

/-- The state after a command has started: its global group is in order, and what it does in the buffers is still to be
done by CX, GX and FX (R88), and done for the others; its engine's wait ends. -/
def Job.ended (j : Job) (e : Entry) : State :=
  let r := j.flush
  let log := j.log.reverse
  let todo := if goesOn j.a && log.any Todo.acts then tagsFirst log [] log else []
  let s := if todo.isEmpty then r.1.meterNoted j.c log
    else (todoCores todo).foldl (fun s d => s.buffersFrom j.s0 d) r.1
  (s.modCtx j.c fun x => x.modEntry j.a e.id fun y =>
    { (if todo.isEmpty && goesOn j.a then y.passed else y) with
        started := true, begun := true, held := false, complete := todo.isEmpty, todo := todo, top := none,
        met := if todo.isEmpty then y.met else j.met
        writes := y.writes ++ r.2 }).endWait j.c j.a

/-- The command has started. -/
def Job.finish (j : Job) (e : Entry) : Res := .next (j.ended e)

/-- The own-buffer offset of a place, in the context of core c: with true for WBUF. -/
def Core.ownOff (k : Core) (c : Nat) (p : Place) : Option (Bool × Nat) :=
  match p with
  | .abuf d o => if d = c ∧ 4096 * k.b.aBase ≤ o then some (false, o - 4096 * k.b.aBase) else none
  | .wbuf d o => if d = c ∧ 4096 * k.b.wBase ≤ o then some (true, o - 4096 * k.b.wBase) else none
  | _ => none

/-- What is left of a range when the lowest offset still to be touched in it is known: granules below are passed (R88). -/
def Rng.from (r : Rng) (offs : List (Bool × Nat)) : List Rng :=
  let low := fun (w : Bool) (lo hi : Nat) =>
    ((offs.filter fun o => o.1 == w && decide (lo ≤ o.2) && decide (o.2 < hi)).map (·.2)).min?
  match r with
  | .slot n => [.slot n]
  | .a lo hi => match low false lo hi with
    | some m => [.a (max lo (m / 4096 * 4096)) hi]
    | none => []
  | .w lo hi => match low true lo hi with
    | some m => [.w (max lo (m / 4096 * 4096)) hi]
    | none => []

/-- The entry keeps the granules that what it has still to do touches, and the higher ones. -/
def Core.trim (k : Core) (c : Nat) (e : Entry) : Entry :=
  let writes := e.todo.filterMap fun o => match o with
    | .bytes p _ => k.ownOff c p
    | _ => none
  let reads := e.todo.filterMap fun o => match o with
    | .read p _ => k.ownOff c p
    | _ => none
  { e with wr := e.wr.flatMap (·.from writes), rd := e.rd.flatMap (·.from reads) }

/-- The waits for a filled slot of ring n on core d end: CX of core c has filled one (R84). -/
def State.ringFilled (s : State) (d n c : Nat) : State :=
  [Agent.sk, .vx, .mx].foldl (fun s a => s.endedBy d a 3 (BitVec.ofNat 32 n) 3 c) s

/-- One thing a running command does. -/
def State.doTodo (s : State) (c : Nat) (a : Agent) (t : Todo) : State :=
  match t with
  | .bytes p bs => s.writePlace (.core c a) 0 4 p bs
  | .tag p v => s.setTag p v
  | .read _ _ => s
  | .meter q => s.meter c q 1
  | .filled m n =>
    let h := s.home c m
    ((s.modHome h fun x =>
      let r := x.ring n
      x.setRing n { r with filled := r.filled + 1, writing := r.writing - 1 }).ringFilled (h.coreOr c) n c).eventAt h 15 3 c

/-- The highest byte written, after things done. -/
def topOf (t : Option Nat) (l : List Todo) : Option Nat :=
  l.foldl (fun t o => match o with
    | .bytes p bs => some (max (t.getD 0) (p.off + bs.length - 1))
    | _ => t) t

/-- The slots that entry e of the CX queue has taken and not filled yet. -/
def State.toFill (s : State) (c : Nat) (e : Entry) : List Todo :=
  s.ownSlot c e ++ e.todo.filter fun t => match t with
    | .filled _ _ => true
    | _ => false

/-- An older copy still has to fill a slot of the same ring: slots are filled in HEAD order (R83). -/
def State.olderFills (s : State) (c id : Nat) (t : Todo) : Bool :=
  (s.ctx c).cxq.any fun o => decide (o.id < id) && !o.complete && (s.toFill c o).contains t

/-- The next things of a list that may be done now: a slot is filled only after the older ones of its ring. -/
def State.ready (s : State) (c id : Nat) (l : List Todo) : List Todo :=
  l.takeWhile fun t => match t with
    | .filled m n => !s.olderFills c id (.filled m n)
    | _ => true

/-- A running command of engine a does the next n things of its list (R88); with the last of them its effect is complete. -/
def State.drain (s : State) (c : Nat) (a : Agent) (id n : Nat) : State :=
  match (s.ctx c).entry? a id with
  | none => s
  | some e =>
    if !e.started || e.complete || !(s.core c).enginesRun then s
    else
      let now := s.ready c id (e.todo.take n)
      let s := now.foldl (fun s t => s.doTodo c a t) s
      let rest := e.todo.drop now.length
      let e' := { e with todo := rest, top := topOf e.top now }
      let k := s.core c
      s.modCtx c fun x => x.modEntry a id fun _ =>
        if rest.any Todo.acts then k.trim c e' else { e'.passed with todo := [], complete := true }

/-- The command stops at a fault with PROGRESS p and is to go on from `from'` (R312, R313); of its ranges it keeps those
that `left` gives for its read and write ranges (R88). -/
def Job.stopKeep (j : Job) (e : Entry) (f : EFault) (p from' : Nat) (left : List Rng × List Rng) : Res :=
  let r := j.flush
  .next (((r.1.meterNoted j.c j.log.reverse).modCtx j.c fun x => x.modEntry j.a e.id fun y =>
    { y with started := false, begun := true, held := false, prog := from', writes := y.writes ++ r.2, met := j.met,
             tops := j.tops, rd := left.1, wr := left.2 }).engineFault j.c j.a e f p)

/-- The command stops at a fault and keeps its ranges. -/
def Job.stopAt (j : Job) (e : Entry) (f : EFault) (p from' : Nat) : Res := j.stopKeep e f p from' (e.rd, e.wr)

/-- The job a command starts with: what it counted before it stopped is not counted again (17_energy.md R288), and the
granules it tagged keep their tags' standing (05_local_memory.md R81). -/
def State.cmdJob (s : State) (a : Agent) (e : Entry) : Job := { s.job s.cur a 0 false with met := e.met, tops := e.tops }

/-- Reads the record of a command at its start (07_encoding.md R136); a fault leaves the command unstarted. -/
def State.withCmdRecord (s : State) (a : Agent) (e : Entry) (k : Job → List Byte → Res) : Res :=
  match (s.cmdJob a e).readBytes 0 (.a e.cmd.recOff) 64 with
  | .ok r j => k { j with cls := recCls r, pdef := recPdef r } r
  | .stop f j => j.stopAt e f (if f.sub = .bufferBound ∨ f.sub = .teamWindow then f.offset else 0) e.prog
  | .hole => .fault .noSuchMemory

/-- The record fault (R142). -/
def Job.badRecord (j : Job) (e : Entry) : Res :=
  j.stopAt e { sub := .record, acc := 0, addr := none } 0 0

/-- All bytes of a record's range are zero. -/
def zeroBytes (r : List Byte) (i n : Nat) : Bool := ((r.drop i).take n).all (· == 0)

/-- The header meets R137 and R142: KIND, SCOPE, and the allowed FLAGS. -/
def headerOk (r : List Byte) (funct7 flags : Nat) : Bool :=
  zeroBytes r 4 4 && recKind r == funct7 && decide (recScope r ≤ 4) && (recFlags r == 0 || recFlags r == flags)

/-! ### Retiring (R88, R94, R95; 08_stoker_isa.md R176) -/

/-- The watermark of an engine queue (R175). -/
def Ywm.mark (w : Ywm) (a : Agent) : Nat :=
  match a with
  | .sk => 0
  | .vx => w.vx.toNat
  | .mx => w.mx.toNat
  | .cx => w.cx.toNat
  | .gx => w.gx.toNat
  | .fx => w.fx.toNat
  | .cl => w.cl.toNat

/-- A queue of length n loses an entry: the queue-low entry fires when service code runs (R176). -/
def Ctx.lowered (x : Ctx) (a : Agent) (n : Nat) : Ctx :=
  let w := x.ywm.mark a
  if a != .sk && x.ywm.svc && !x.ywm.qlact && decide (0 < w) && n == w + 1 then { x with queueLow := true } else x

/-- The entry leaves its queue, and makes room there. -/
def State.dropEntry (s : State) (c : Nat) (a : Agent) (e : Entry) : State :=
  (s.roomBy c a e).modCtx c fun x =>
    let n := (x.queue a).length
    (x.setQueue a ((x.queue a).filter fun y => y.id != e.id)).lowered a n

/-- The tiles an MX word writes: accumulator tile t as t, M-file tile t as 8 + t (05_local_memory.md R92). -/
def Instr.mxTiles (i : Instr) : List Nat :=
  match i with
  | .mxMma c _ _ _ _ _ _ _ => [c.toNat]
  | .mxTanch c _ _ => [c.toNat]
  | .mxTinit c => [c.toNat]
  | .mxReload c _ _ => [c.toNat]
  | .mxResolveSelf c _ _ => [c.toNat]
  | .mxResolveMfile _ _ _ _ m => [8 + m.toNat]
  | _ => []

/-- Clears INFLIGHT of the tiles that a retired command of engine a wrote, where no other command of it holds them (R92). -/
def Ctx.landTiles (x : Ctx) (a : Agent) (e : Entry) : Ctx :=
  let others := (x.queue a).flatMap (·.tiles)
  let mine := fun (n : Nat) => e.tiles.contains n && !others.contains n
  { x with
    mx := { x.mx with tiles := x.mx.tiles.map fun t =>
      if t.2.inflight = some a ∧ mine t.1 then (t.1, { t.2 with inflight := none }) else t }
    vx := { x.vx with tiles := x.vx.tiles.map fun t =>
      if t.2.inflight = some a ∧ mine (8 + t.1) then (t.1, { t.2 with inflight := none }) else t } }

/-- The completed entry retires once its writes are visible at its scope (R103); a CX command's token ends with a code. A
running command first does the rest of its list. -/
def State.retireEntry (s : State) (c : Nat) (a : Agent) (e : Entry) : State :=
  let s := if e.started && !e.complete && goesOn a then s.drain c a e.id e.todo.length else s
  if !(((s.ctx c).entry? a e.id).any (·.complete)) || !s.allVisible (.core c a) e.scope e.writes then s
  else
    let e := ((s.ctx c).entry? a e.id).getD e
    let s := (s.dropEntry c a e).modCtx c fun x => x.landTiles a e
    match e.token with
    | some n => s.endToken c n e.code
    | none => s

/-- Whether entry e may retire now: engines that retire in order wait for older entries (R229), and a run of VX for its
operations in flight (09_vector_isa.md R181). -/
def Ctx.mayRetire (x : Ctx) (a : Agent) (e : Entry) : Bool :=
  !(a == .vx && !x.vx.flight.isEmpty) &&
  (a == .cx || a == .mx || a == .sk || (x.queue a).all (fun o => decide (e.id ≤ o.id) || o.isMarker))

/-- ENGINE_COMMAND_RETIRE (R88): entry k of engine a's queue retires its ranges. -/
def execEngineCommandRetire (a : Agent) (k : Nat) (s : State) : Res :=
  match (s.my.queue a)[k]? with
  | some e =>
    if s.me.enginesRun && !e.isMarker && s.my.mayRetire a e then
      .next (s.retireEntry s.cur a e)
    else .next s
  | none => .next s

/-- CX_COMMAND_END (11_data_engines_isa.md R238): entry k of the CX queue retires and its token ends, with code 1 where it
was cancelled (R237) and 2 where it was discarded. -/
def execCxCommandEnd (k : Nat) (s : State) : Res :=
  match s.my.cxq[k]? with
  | some e =>
    if s.me.enginesRun && !e.isMarker then .next (s.retireEntry s.cur .cx e) else .next s
  | none => .next s

/-- The bit of an engine in a marker mask. -/
def markBit (a : Agent) : BitVec 6 := BitVec.ofNat 6 (2 ^ (a.code - 1))

/-- MARKER_RETIRE (R94, R95): the marker at the head of engine a's queue retires; when every masked engine has retired it,
its rendezvous register fires. -/
def execMarkerRetire (a : Agent) (s : State) : Res :=
  match (s.my.queue a).head? with
  | some e =>
    match e.cmd with
    | .marker k n =>
      if !s.me.enginesRun || !e.pushed || s.broken s.cur a e then .next s
      else
        let c := s.cur
        let r := s.my.rvAt k
        let owing := if r.armed && r.n == n then r.owing &&& ~~~(markBit a) else r.owing
        let s := (s.dropEntry c a e).modCtx c fun x => { x with rv := Tbl.put Rv.idle x.rv k { r with owing := owing } }
        if r.armed && r.owing != 0 && owing == 0 then
          .next ((s.endedBy c .sk 1 (BitVec.ofNat 32 (n.toNat * 65536 + k)) a.code c).latchEvent c k a.code c)
        else .next s
    | _ => .next s
  | none => .next s

/-! ### The tag writer (08_stoker_isa.md R171) -/

/-- The granules of a range take a tag. -/
def State.tagRange (s : State) (c : Nat) (inW : Bool) (tag : Nat) (off : Nat) : Nat → State
  | 0 => s
  | n + 1 =>
    let o := off + 4096 * n
    let t := if inW then s.wSpace c o 1 else s.aSpace c o 1
    match t.place 1 o with
    | .ok p => (s.tagRange c inW tag off n).setTag p tag
    | .error _ => s.tagRange c inW tag off n

/-- TAG_WRITE (R171): the oldest `sk.buffmt` writes its tags and retires. -/
def execTagWrite (s : State) : Res :=
  s.startEntry .sk (fun _ => true) fun s e =>
    match e.cmd with
    | .tag inW tag off len => .next ((s.tagRange s.cur inW tag.toNat off (len / 4096)).dropEntry s.cur .sk e)
    | _ => .next s

/-! ### What follows a fault (R313) -/

/-- The action of an agent's record takes effect once the fence before it has retired and V is clear. -/
def State.withAction (s : State) (a : Agent) (n : Nat) (k : State → Res) : Res :=
  let r := s.my.fault a
  if r.valid || r.todo.toNat ≠ n then .next s else k s

/-- The record is done with. -/
def State.clearAction (s : State) (a : Agent) : State :=
  s.upd fun x => x.setFault a { x.fault a with todo := 0 }

/-- FAULT_ACTION_RESTART (R313): the command goes on from its progress point (DEDUCED, log 21). -/
def execFaultActionRestart (a : Agent) (s : State) : Res := s.withAction a 1 fun s => .next (s.clearAction a)

/-- The entry engine a stopped at: the one whose QPOS its record holds. -/
def Ctx.stoppedEntry (x : Ctx) (a : Agent) : Option Entry :=
  (x.queue a).find? fun e => e.qpos == bitsNat (x.fault a).fstat.toNat 31 0 && !e.isMarker && !e.complete

/-- The run of entry `id`, if engine a is in one, ends. -/
def Ctx.dropRun (x : Ctx) (a : Agent) (id : Nat) : Ctx :=
  match a, x.mx.run with
  | .vx, _ => { x with vx := { x.vx with run := none } }
  | .mx, some r => if r.entry = id then { x with mx := { x.mx with run := none } } else x
  | _, _ => x

/-- The slots of rings that an engine holds for a command that ends: MX returns what its fill read, so that FREE, FILLED and
the held slots still make NSLOT (05_local_memory.md R84; DEDUCED, log 111). VX keeps a slot across runs, until a load reads its
last byte (09_vector_isa.md R196). -/
def State.freeSlots (s : State) (c : Nat) (a : Agent) : State :=
  match a with
  | .mx => ((List.range 8).filter fun n => (((s.ctx c).ring n).heldMx).isSome).foldl (fun s n => s.ringReturn c n .mx) s
  | _ => s

/-- FAULT_ACTION_DISCARD (R313): the command has no further effect; a run ends, and the command retires as others do, once
its writes are visible at its scope (06_ordering.md R103). A copy still fills the slot it has taken, in HEAD order
(05_local_memory.md R83; DEDUCED, log 111). Its token then ends with code 2. -/
def execFaultActionDiscard (a : Agent) (s : State) : Res :=
  s.withAction a 2 fun s =>
    let s' := s.clearAction a
    match s.my.stoppedEntry a with
    | none => .next s'
    | some e =>
      let slot := if a = .cx then s'.ownSlot s'.cur e else []
      let s' := (s'.upd fun x => x.dropRun a e.id).freeSlots s'.cur a
      .next (s'.upd fun x => x.modEntry a e.id fun y =>
        { y with started := true, held := false, complete := slot.isEmpty, todo := slot, rd := [], wr := [], code := 2 })

/-- FAULT_ACTION_FREEZE (R313, R316): the team is frozen in place (DEDUCED, log 87). -/
def execFaultActionFreeze (a : Agent) (s : State) : Res :=
  s.withAction a 3 fun s =>
    let r := s.my.fault a
    .next ((s.clearAction a).freezeCore s.cur 5 r.fstat.toNat r.addr.toNat)

/-- CORRECTED_ERROR (20_translation_faults.md R320): a corrected error of a line, or of an SRAM row, is counted against
the agent that met it. -/
def execCorrectedError (sram : Bool) (line : BitVec 52) (a : Agent) (s : State) : Res :=
  let k := s.me
  .next (s.corrected sram false line.toNat k.b.part.toNat a.code k.b.tcb.toNat 0)

end Sys2Proof.Machine
end

