-- ==== Sys2Proof/Machine/Copy.lean ====
section
/-! DEFINITION. The copy engine CX (11_data_engines_isa.md R232 to R238; 07_encoding.md R138; 05_local_memory.md R81, R83,
R85). -/
namespace Sys2Proof.Machine

/-! ### Records (R138, R234 to R236) -/

/-- An A-space place in the team window. -/
def inWindow (o : Nat) : Bool := decide (0x1000000 ≤ o) && decide (o < 0x2000000)

/-- A place that `cx.copy` and its kin accept: global, own A or own W. A team-window address is no place of own A, whatever
member it names (DEDUCED, log 28). -/
def RPlace.own (p : RPlace) : Bool :=
  match p with
  | .glob _ => true
  | .a o => !inWindow o
  | .w _ => true
  | .bad => false

/-- A place of the own ABUF (07_encoding.md R140, R141). -/
def RPlace.ownA : RPlace → Bool
  | .a o => !inWindow o
  | _ => false

def RPlace.isGlob : RPlace → Bool
  | .glob _ => true
  | _ => false

def RPlace.isWindow : RPlace → Bool
  | .a o => inWindow o
  | _ => false

/-- Fields every CX record must leave zero, and ROWS. -/
def cxCommon (r : List Byte) (funct7 : Nat) : Bool :=
  headerOk r funct7 0 && zeroBytes r 50 14 &&
  (if funct7 = 1 then decide (1 ≤ fld r 28 4) && decide (fld r 28 4 ≤ 2 ^ 20) else fld r 28 4 == 1)

/-- Own-buffer spans [lo, hi) of two places overlap: a copy within one local buffer (R234). -/
def Ctx.localOverlap (x : Ctx) (src dst : RPlace) (s d : Int × Int) : Bool :=
  let hit := fun (a b : Nat) => decide ((a : Int) + s.1 < b + d.2) && decide ((b : Int) + d.1 < a + s.2)
  match src, dst with
  | .a o, .a p =>
    match x.aOwn o, x.aOwn p with
    | some o, some p => hit o p
    | _, _ => false
  | .w o, .w p => hit o p
  | _, _ => false

/-- The record of `cx.copy` (funct7 0) or `cx.copy2` (1) is well formed. -/
def Ctx.copyOk (x : Ctx) (r : List Byte) (funct7 : Nat) : Bool :=
  let src := rplace (fld r 8 8)
  let dst := rplace (fld r 16 8)
  let len := fld r 24 4
  let rows := fld r 28 4
  cxCommon r funct7 && src.own && dst.own && zeroBytes r 40 10 && (funct7 == 1 || zeroBytes r 32 8) &&
  (len == 0 || !x.localOverlap src dst (rowsSpan rows len (sfld r 32 4)) (rowsSpan rows len (sfld r 36 4)))

/-- The record of `cx.peer` is well formed. -/
def peerOk (r : List Byte) : Bool :=
  cxCommon r 2 && (rplace (fld r 8 8)).own && (rplace (fld r 16 8)).isWindow && zeroBytes r 32 18

/-- The record of `cx.fill` is well formed. -/
def fillOk (r : List Byte) : Bool :=
  cxCommon r 3 && (rplace (fld r 16 8)).own && zeroBytes r 8 8 && zeroBytes r 32 8 && zeroBytes r 48 2

/-- The record of `cx.ring` is well formed; a MEMBER at or above the team size breaks it (DESIGN CHOICE, log 137). -/
def Ctx.ringOk (x : Ctx) (r : List Byte) : Bool :=
  cxCommon r 4 && (rplace (fld r 8 8)).own && zeroBytes r 16 8 && zeroBytes r 32 16 && decide (fld r 48 1 < 8) &&
  decide (fld r 49 1 < x.teamSize)

/-- The record of `cx.pretr` (5) or `cx.flush` (7) is well formed. -/
def rangeOk (r : List Byte) (funct7 : Nat) : Bool :=
  cxCommon r funct7 && (rplace (fld r 8 8)).isGlob && zeroBytes r 16 8 && zeroBytes r 32 18

/-! ### Moving bytes (R234) -/

/-- What a command moves: a source, or the eight pattern bytes of a fill, and a destination, in rows. -/
structure Move2 where
  src : Option RPlace
  pattern : List Byte
  dst : RPlace
  len : Nat
  rows : Nat
  sstride : Int
  dstride : Int
  deriving DecidableEq, Repr

/-- Byte k of a pattern, n bytes long. -/
def patternBytes (pattern : List Byte) (k n : Nat) : List Byte :=
  (List.range n).map fun i => pattern.getD ((k + i) % 8) 0

/-- Where a move ended: done, or at a fault with the row and byte reached. -/
inductive Moved where
  | done (j : Job)
  | stop (f : EFault) (row byte : Nat) (j : Job)
  | hole

/-- Moves the bytes of row r from byte k on (R234, R81). -/
def Job.moveRow (j : Job) (m : Move2) (r : Nat) : (fuel k : Nat) → Moved
  | 0, _ => .done j
  | fuel + 1, k =>
    if m.len ≤ k then .done j
    else
      let d := m.dst.shift (r * m.dstride + k)
      let go := fun (n : Nat) (got : Got (List Byte × Option Nat)) =>
        match got.bind fun v j => (j.writeChunk d v.1).bind fun p j =>
            .ok () (match v.2 with
              | some tag => j.tagChunk p n tag
              | none => j) with
        | .ok _ j => j.moveRow m r fuel (k + n)
        | .stop f j => Moved.stop f r k j
        | .hole => .hole
      match m.src with
      | none =>
        let n := min (m.len - k) (toLine d.addr)
        go n (.ok (patternBytes m.pattern k n, none) j)
      | some src =>
        let s := src.shift (r * m.sstride + k)
        let n := min (m.len - k) (min (toLine s.addr) (toLine d.addr))
        go n ((j.readChunk (r * m.len + k) s n).bind fun v j => .ok (v.1, some v.2) j)

/-- Moves rows r on; the first of them from byte k on. -/
def Job.moveRows (j : Job) (m : Move2) : (fuel r k : Nat) → Moved
  | 0, _, _ => .done j
  | fuel + 1, r, k =>
    if m.rows ≤ r then .done j
    else
      match j.moveRow m r (m.len + 1) k with
      | .done j => j.moveRows m fuel (r + 1) 0
      | o => o

/-- The lowest places from row r, byte k on: those rows start at `p + i * stride` (R234). -/
def lowestFrom (p : RPlace) (rows : Nat) (stride : Int) (r k : Nat) : List RPlace :=
  p.shift (r * stride + k) :: (if r + 1 < rows then [p.shift ((r + 1 : Nat) * stride), p.shift ((rows - 1 : Nat) * stride)] else [])

/-- What a stopped move keeps of its ranges: the granules it has not passed, and its record (05_local_memory.md R88). -/
def Job.moveLeft (j : Job) (e : Entry) (m : Move2) (r k : Nat) : List Rng × List Rng :=
  let x := j.s.ctx j.c
  let own := fun (p : RPlace) => match p with
    | .a o => (x.aOwn o).map fun o => (false, o)
    | .w o => some (true, o)
    | _ => none
  let src := (m.src.map fun p => (lowestFrom p m.rows m.sstride r k).filterMap own).getD []
  let dst := (lowestFrom m.dst m.rows m.dstride r k).filterMap own
  (e.rd.flatMap (·.from ((own (.a e.cmd.recOff)).toList ++ src)), e.wr.flatMap (·.from dst))

/-- A move from the command's progress point on, and the command's end: PROGRESS holds row and byte (R312). -/
def Job.move (j : Job) (e : Entry) (m : Move2) : Res :=
  match j.moveRows m (m.rows + 1) (e.prog / 2 ^ 32 % 2 ^ 31) (e.prog % 2 ^ 32) with
  | .done j => j.finish e
  | .stop f r k j => j.stopKeep e f (r * 2 ^ 32 + k) (r * 2 ^ 32 + k) (j.moveLeft e m r k)
  | .hole => .fault .noSuchMemory

/-- The bytes [lo, hi) of global memory that a copy's record names, by virtual address. -/
def copySpans (r : List Byte) (f : Nat) : List (Int × Int) :=
  let span := fun (p : RPlace) (stride : Int) =>
    let d := rowsSpan (if f = 1 then fld r 28 4 else 1) (fld r 24 4) stride
    match p with
    | .glob va => [((va : Int) + d.1, (va : Int) + d.2)]
    | _ => []
  (if f = 3 then [] else span (rplace (fld r 8 8)) (sfld r 32 4)) ++
  (if f = 2 ∨ f = 4 then [] else span (rplace (fld r 16 8)) (sfld r 36 4))

/-- The record of a CX entry of core c, as the engine finds it now. -/
def State.cxRecord (s : State) (c : Nat) (e : Entry) : List Byte :=
  match s.aSpace c e.cmd.recOff 64 with
  | .own _ p => s.readPlace (.core c .cx) p 64
  | .team p => s.readPlace (.core c .cx) p 64
  | _ => []

/-- The number of a CX command. -/
def Cmd.funct7 (cmd : Cmd) : Nat :=
  match cmd with
  | .record f _ => f
  | _ => 0

/-- No older copy whose group has not performed shares a class or a byte of global memory with entry e (06_ordering.md R101,
R103). A copy of the page default's classes shares one with every copy (DESIGN CHOICE, log 110). -/
def State.mayPass (s : State) (c : Nat) (e : Entry) : Bool :=
  let r := s.cxRecord c e
  ((s.ctx c).cxq.filter fun o => o.held && decide (o.id < e.id)).all fun o =>
    let q := s.cxRecord c o
    let apart := (copySpans q o.cmd.funct7).all fun a => (copySpans r e.cmd.funct7).all fun b =>
      decide (a.2 ≤ b.1) || decide (b.2 ≤ a.1)
    recCls r != recCls q && !recPdef r && !recPdef q && apart

/-- The copy CX starts now, or whose group performs now: no older one that it may not pass is held (06_ordering.md R101,
R103). -/
def State.startCopy (s : State) (want : Cmd → Bool) (k : Entry → Job → List Byte → Res) : Res :=
  s.startEntry .cx want fun s e => if s.mayPass s.cur e then s.withCmdRecord .cx e (k e) else .next s

/-- The rows of a copy record; DSTRIDE is LEN when there is one row. -/
def copyMove (r : List Byte) (src : Option RPlace) (funct7 : Nat) : Move2 :=
  let len := fld r 24 4
  let one : Bool := funct7 != 1 || fld r 28 4 == 1
  { src := src, pattern := (r.drop 40).take 8, dst := rplace (fld r 16 8), len := len, rows := fld r 28 4,
    sstride := if one then len else sfld r 32 4, dstride := if one then len else sfld r 36 4 }

/-- CX_COPY_START (R234): `cx.copy` and `cx.copy2`. -/
def execCxCopyStart (s : State) : Res :=
  s.startCopy (fun c => c.isRecord 0 || c.isRecord 1) fun e j r =>
    let f := if e.cmd.isRecord 1 then 1 else 0
    if !j.s.my.copyOk r f then j.badRecord e
    else j.move e (copyMove r (some (rplace (fld r 8 8))) f)

/-- CX_PEER_START (R234). -/
def execCxPeerStart (s : State) : Res :=
  s.startCopy (fun c => c.isRecord 2) fun e j r =>
    if !peerOk r then j.badRecord e else j.move e (copyMove r (some (rplace (fld r 8 8))) 2)

/-- CX_FILL_START (R234): tags are unchanged. -/
def execCxFillStart (s : State) : Res :=
  s.startCopy (fun c => c.isRecord 3) fun e j r =>
    if !fillOk r then j.badRecord e else j.move e (copyMove r none 3)

/-! ### Produce into a ring (R235, R83, R85) -/

/-- Slot HEAD is taken for writing. -/
def Ring.fillHead (r : Ring) : Ring :=
  { r with free := r.free - 1, head := (r.head + 1) % r.nSlot, writing := r.writing + 1 }

/-- The A-space or W-space place of byte 0 of the slot being written in member m's ring, seen from core c. A WBUF ring of
another member is written through the ring path, which alone reaches it. -/
def State.slotPlace (s : State) (c m slot : Nat) (r : Ring) : Place :=
  let d := s.memberBind c m
  let o := r.slotOff slot
  if r.inW then .wbuf d.1 (4096 * d.2.wBase + o) else .abuf d.1 (4096 * d.2.aBase + o)

/-- A place moved on by n bytes. -/
def Place.add (p : Place) (n : Nat) : Place :=
  match p with
  | .dev a => .dev (a + n)
  | .host a => .host (a + n)
  | .abuf c o => .abuf c (o + n)
  | .wbuf c o => .wbuf c (o + n)

/-- Moves bytes from k on into a ring slot; they bring the tags of their source, as a copy's do (05_local_memory.md R81, R83;
DEDUCED, log 41). -/
def Job.moveSlot (j : Job) (src : RPlace) (slot : Place) (len : Nat) : (fuel k : Nat) → Moved
  | 0, _ => .done j
  | fuel + 1, k =>
    if len ≤ k then .done j
    else
      let s := src.shift k
      let p := slot.add k
      let off := match p with
        | .abuf _ o => o
        | .wbuf _ o => o
        | _ => 0
      let n := min (len - k) (min (toLine s.addr) (toLine off))
      match j.readChunk k s n with
      | .ok v j =>
        ((j.put p v.1).tagChunk p n v.2).moveSlot src slot len fuel (k + n)
      | .stop f j => .stop f 0 k j
      | .hole => .hole

/-- What a stopped `cx.ring` keeps of its read ranges: its record, and the source from byte k on (05_local_memory.md R88). -/
def Job.ringLeft (j : Job) (e : Entry) (src : RPlace) (k : Nat) : List Rng × List Rng :=
  j.moveLeft e { src := some src, pattern := [], dst := .bad, len := 0, rows := 1, sstride := 0, dstride := 0 } 0 k

/-- CX_RING_START (R235): the queue waits while FREE = 0; FILLED rises after the last byte. The slot a command took is part of
its progress: bit 63, and the slot's number in bits [40:32]. -/
def execCxRingStart (s : State) : Res :=
  s.startCopy (fun c => c.isRecord 4) fun e j r =>
      let n := fld r 48 1
      let m := fld r 49 1
      let len := fld r 24 4
      let c := j.c
      if !j.s.my.ringOk r then j.badRecord e
      else
        let h := j.s.home c m
        let ring := (j.s.homeCtx h).ring n
        let taken : Bool := decide (2 ^ 63 ≤ e.prog)
        if !ring.configured ∨ ring.prod ≠ j.s.my.member then j.stopAt e { sub := .ring, acc := 1, addr := none } 0 e.prog
        else if ring.slotB < len then j.stopAt e { sub := .window, acc := 1, addr := none } ring.slotB e.prog
        else if !taken && ring.free == 0 then .next (j.s0.noteWaitAt c .cx e.qpos 3 (BitVec.ofNat 32 n) 15 c)
        else
          let slot := if taken then e.prog / 2 ^ 32 % 2 ^ 9 else ring.head
          let j : Job := if taken then j else { j with s := j.s.modHome h fun x => x.setRing n ring.fillHead }
          let src := rplace (fld r 8 8)
          match j.moveSlot src (j.s.slotPlace c m slot ring) len (len + 1) (e.prog % 2 ^ 32) with
          | .done j => (j.note (.filled m n)).finish e
          | .stop f _ k j => j.stopKeep e f k (2 ^ 63 + slot * 2 ^ 32 + k) (j.ringLeft e src k)
          | .hole => .fault .noSuchMemory

/-- A copy starts and its group is to perform later: it is the oldest that has not started, no entry it overlaps is held, and
a `cx.ring` takes its slot (06_ordering.md R101; DESIGN CHOICE, log 110). -/
def State.holdCopy (s : State) (c : Nat) : State :=
  let x := s.ctx c
  match x.nextEntry .cx with
  | none => s
  | some e =>
    let free := (x.holders e.id e.rd e.wr).isEmpty && (s.core c).enginesRun && !x.stopped .cx && !s.broken c .cx e
    let mark := fun (s : State) (p : Nat) => s.modCtx c fun x => x.modEntry .cx e.id fun y =>
      { y with begun := true, held := true, prog := p }
    if !free ∨ e.begun then s
    else if e.cmd.isRecord 0 ∨ e.cmd.isRecord 1 ∨ e.cmd.isRecord 2 ∨ e.cmd.isRecord 3 then mark s e.prog
    else if e.cmd.isRecord 4 then
      let r := s.cxRecord c e
      let n := fld r 48 1
      let h := s.home c (fld r 49 1)
      let ring := (s.homeCtx h).ring n
      if x.ringOk r && ring.configured && ring.prod == x.member && decide (fld r 24 4 ≤ ring.slotB) && decide (0 < ring.free)
      then mark (s.modHome h fun x => x.setRing n ring.fillHead) (2 ^ 63 + ring.head * 2 ^ 32)
      else s
    else s

/-! ### Translations and lines (R236) -/

/-- Walks the pages of [va, hi) and loads their translations until `left` have been loaded; one that cannot be translated
is skipped. -/
def State.preload (s : State) (c : Nat) (hi : Nat) : (fuel left va : Nat) → State
  | 0, _, _ => s
  | fuel + 1, left, va =>
    if hi ≤ va ∨ left = 0 then s
    else
      match s.loadPage c va with
      | (s, some next) => s.preload c hi fuel (left - 1) next
      | (s, none) => s.preload c hi fuel left (va / 4096 * 4096 + 4096)

/-- CX_PRETR_START (R236; DEDUCED, log 50): time only. -/
def execCxPretrStart (s : State) : Res :=
  s.startEntry .cx (fun c => c.isRecord 5) fun s e =>
    s.withCmdRecord .cx e fun j r =>
      if !rangeOk r 5 then j.badRecord e
      else
        let va := (rplace (fld r 8 8)).addr
        ({ j with s := j.s.preload j.c (va + fld r 24 4) (fld r 24 4 / 4096 + 2) 256 va }).finish e

/-- CX_FLUSH_START (R236): lines are written back to the memory behind the caches, whose place no read can tell. -/
def execCxFlushStart (s : State) : Res :=
  s.startEntry .cx (fun c => c.isRecord 7) fun s e =>
    s.withCmdRecord .cx e fun j r => if !rangeOk r 7 then j.badRecord e else j.finish e

end Sys2Proof.Machine
end

