-- ==== Sys2Proof/Machine/Gather.lean ====
section
/-! DEFINITION. The gather engine GX (11_data_engines_isa.md R239 to R243; 07_encoding.md R139). -/
namespace Sys2Proof.Machine

/-- The fields of a GX record (R139). -/
structure GxRec where
  funct7 : Nat
  table : RPlace
  rowb : Nat
  nidx : Nat
  idxoff : Nat
  idxw : Nat
  anchor : Int
  dst : RPlace
  bag : Nat
  nrows : Nat
  acc : Bool
  deriving DecidableEq, Repr

def gxRec (r : List Byte) (funct7 : Nat) : GxRec :=
  { funct7 := funct7, table := rplace (fld r 8 8), rowb := fld r 16 4, nidx := fld r 20 4, idxoff := fld r 24 4,
    idxw := fld r 28 1, anchor := sextNat 10 (fld r 30 2), dst := rplace (fld r 32 8), bag := fld r 40 4,
    nrows := fld r 44 4, acc := bitNat (recFlags r) 0 }

/-- A destination in the own A space, or in either own buffer. -/
def RPlace.gxDst (p : RPlace) (w : Bool) : Bool :=
  match p with
  | .a _ => p.ownA
  | .w _ => w
  | _ => false

/-- The record meets R139, R142 and the table of R239. -/
def gxOk (r : List Byte) (f : Nat) : Bool :=
  let g := gxRec r f
  let anchored : Bool := f == 1 || f == 2
  headerOk r f (if f = 1 then 1 else 0) && zeroBytes r 29 1 && zeroBytes r 48 16 && !inWindow g.idxoff &&
  (g.idxw == 4 || g.idxw == 8) && g.idxoff % g.idxw == 0 &&
  (if anchored then decide (fld r 30 2 < 1024) else fld r 30 2 == 0) &&
  (if f = 3 then zeroBytes r 8 12 else g.table != .bad && decide (4 ≤ g.rowb) && decide (g.rowb ≤ 4096)) &&
  g.dst.gxDst (!anchored) &&
  (if f = 1 then decide (1 ≤ g.bag) && decide (g.bag ≤ 64) && g.nidx % g.bag == 0 else g.bag == 0)

/-- How a command goes on: to its next index, or to a fault with its PROGRESS. -/
inductive Gx where
  | next (j : Job)
  | stop (f : EFault) (p : Nat) (j : Job)
  | hole

/-- A fault's PROGRESS at index i: the first byte outside for a bound fault, else i (R251; DEDUCED, log 51). -/
def gxProgress (f : EFault) (i : Nat) : Nat := if f.sub = .bufferBound ∨ f.sub = .teamWindow then f.offset else i

def Got.gx {α : Type} (r : Got α) (i : Nat) (k : α → Job → Gx) : Gx :=
  match r with
  | .ok v j => k v j
  | .stop f j => .stop f (gxProgress f i) j
  | .hole => .hole

/-- Runs k on index i, read in the own ABUF and checked against NROWS (R239; DEDUCED, log 97). -/
def Job.gxIndex (j : Job) (g : GxRec) (i : Nat) (k : Nat → Job → Gx) : Gx :=
  (j.readBytes i (.a (g.idxoff + i * g.idxw)) g.idxw).gx i fun bs j =>
    let v := leNat bs
    if g.nrows ≤ v then .stop { sub := .index, acc := 0, addr := none } i j else k v j

/-- Applies `step` to indices i on, in ascending order (R240). -/
def gxLoop (step : Job → Nat → Gx) (n : Nat) : (fuel i : Nat) → Job → Gx × Nat
  | 0, i, j => (.next j, i)
  | fuel + 1, i, j =>
    if n ≤ i then (.next j, i)
    else
      match step j i with
      | .next j => gxLoop step n fuel (i + 1) j
      | o => (o, i)

/-- The offset of CSA-raw element n (04_accumulators.md R75). -/
def rawOff (n : Nat) : Nat := n / 227 * 4096 + n % 227 * 18

/-- What a command that stopped at index i keeps of its ranges. `low` is the lowest destination byte, from DST on, that the
index and the later ones can write, so that granules below it are passed (05_local_memory.md R88, R240). -/
def GxRec.left (g : GxRec) (e : Entry) (low i : Nat) : List Rng × List Rng :=
  let dst := match g.dst with
    | .w o => [(true, o + low)]
    | p => [(false, p.addr + low)]
  let idx := (false, g.idxoff + i * g.idxw)
  let pass := fun (r : Rng) => match r with
    | .a lo hi => if lo ≤ g.idxoff ∧ g.idxoff < hi then r.from [idx] else [r]
    | r => [r]
  (e.rd.flatMap pass, e.wr.flatMap (·.from dst))

/-- The command from its progress index on, to its end or its fault. -/
def Job.gxRun (j : Job) (e : Entry) (g : GxRec) (low : Nat → Nat) (step : Job → Nat → Gx) : Res :=
  match gxLoop step g.nidx (g.nidx + 1) e.prog j with
  | (.next j, _) => j.finish e
  | (.stop f p j, i) => j.stopKeep e f p i (g.left e (low i) i)
  | (.hole, _) => .fault .noSuchMemory

/-- Starts a GX command on a well-formed record. -/
def State.startGx (s : State) (f : Nat) (k : Job → Entry → GxRec → Res) : Res :=
  s.startEntry .gx (fun c => c.isRecord f) fun s e =>
    s.withCmdRecord .gx e fun j r =>
      if !gxOk r f then j.badRecord e
      else if fld r 20 4 = 0 then j.finish e
      else k j e (gxRec r f)

/-- GX_GATHER_START (R241). -/
def execGxGatherStart (s : State) : Res :=
  s.startGx 0 fun j e g =>
    j.gxRun e g (fun i => i * g.rowb) fun j i =>
      j.gxIndex g i fun x j =>
        (j.readBytes i (g.table.shift (x * g.rowb)) g.rowb).gx i fun row j =>
          (j.writeBytes (g.dst.shift (i * g.rowb)) row).gx i fun _ j => .next j

/-! ### Decoding and adding (R242) -/

/-- The format of a table tag: GEO 0 and FMT 1 to 10. -/
def tableFmt (tag : Nat) : Option Fmt :=
  if tagGeo tag = 0 ∧ tagFmt tag ≤ 10 then Fmt.ofCode (tagFmt tag) else none

/-- Elements of a row under a format, where the width rule of R242 holds. -/
def rowWidth (f : Fmt) (rowb : Nat) : Option Nat :=
  let w := rowb * 8 / f.bits
  if rowb * 8 % f.bits = 0 ∧ 1 ≤ w ∧ w ≤ 64 then some w else none

/-- The values of a row, each element decoded through the tag of the granule it begins in; none for a tag or width that
faults. -/
def decodeRow (row : List (Byte × Nat)) : Option (List Val) :=
  let bits := leNat (row.map (·.1))
  match (row.head?).bind fun b => tableFmt b.2 with
  | none => none
  | some f =>
    match rowWidth f row.length with
    | none => none
    | some w =>
      (List.range w).mapM fun k =>
        match ((row.drop (k * f.bits / 8)).head?).bind fun b => tableFmt b.2 with
        | some f' => if f'.bits = f.bits then some (decodeEl f' (bits / 2 ^ (k * f.bits))) else none
        | none => none

/-- The destination granules that elements n to n + w - 1 touch, from 0 on. -/
def rawGranules (n w : Nat) : List Nat := (List.range ((n + w - 1) / 227 + 1 - n / 227)).map (n / 227 + ·)

/-- Every listed destination granule carries FMT 13, whose only GEO is 0 (03_numbers.md R52); otherwise the format fault at that granule. -/
def Job.rawTagged (j : Job) (dst : Nat) : List Nat → Got Unit
  | [] => .ok () j
  | g :: t =>
    (j.tagAt 1 (dst + 4096 * g)).bind fun tag j =>
      if tag = 8 * 13 then j.rawTagged dst t
      else .stop { sub := .format, acc := 1, addr := some (dst + 4096 * g) } j

/-- Reads CSA-raw elements n on, w of them. -/
def Job.readRaw (j : Job) (first dst n : Nat) : (w : Nat) → Got (List Elem)
  | 0 => .ok [] j
  | w + 1 =>
    (j.readRaw first dst n w).bind fun es j =>
      (j.readBytes first (.a (dst + rawOff (n + w))) 18).bind fun bs j => .ok (es ++ [elemOf bs]) j

/-- Writes CSA-raw elements from n on, in canonical form (R66). -/
def Job.writeRaw (j : Job) (dst : Nat) : Nat → List Elem → Got Unit
  | _, [] => .ok () j
  | n, e :: t => (j.writeBytes (.a (dst + rawOff n)) (elemBytes e)).bind fun _ j => j.writeRaw dst (n + 1) t

/-- The row's values added into elements n on under an anchor; each is one element decoded and added (R67, R242). -/
def Job.addRow (j : Job) (i : Nat) (g : GxRec) (n : Nat) (vs : List Val) : Gx :=
  let dst := g.dst.addr
  let granule := fun (f : EFault) => if f.sub = .format then (f.offset - dst) / 4096 else gxProgress f i
  match j.rawTagged dst (rawGranules n vs.length) with
  | .stop f j => .stop f (granule f) j
  | .hole => .hole
  | .ok _ j =>
    (j.readRaw i dst n vs.length).gx i fun es j =>
      (j.writeRaw dst n ((es.zip vs).map fun e => csaAdd g.anchor e.1 e.2)).gx i fun _ j =>
        .next { j with s := j.s.meter j.c 25 vs.length }

/-- The tag at a place, with no data read. -/
def Job.tagPlace (j : Job) (p : RPlace) : Got Nat :=
  match p with
  | .a o => j.tagAt 0 o
  | .w o => (match (j.s.wSpace j.c o 1).place 0 o with
    | .ok q => .ok (j.s.tagOf q) j
    | .error f => .stop f j)
  | .bad => .stop { sub := .record, acc := 0, addr := none } j
  | .glob va =>
    match j.s.translate (.core j.c j.a) (j.s.core j.c).b.part.toNat .read true va with
    | (.ok _ attr, s) => .ok (bitsNat attr 13 6) { j with s := s }
    | (.fault, s) => .stop { sub := .translation, acc := 0, addr := some va } { j with s := s }
    | (.violation, s) => .stop { sub := .violation, acc := 0, addr := some va } { j with s := s }
    | (.hole, _) => .hole

/-- Runs k with W, the elements of a row under the table's tag; otherwise the format fault. -/
def Job.withWidth (j : Job) (i : Nat) (g : GxRec) (k : Nat → Job → Gx) : Gx :=
  (j.tagPlace g.table).gx i fun tag j =>
    match (tableFmt tag).bind fun f => rowWidth f g.rowb with
    | some w => k w j
    | none => .stop { sub := .format, acc := 0, addr := some g.table.addr } i j

/-- Row number r of the table, decoded into w values; the format fault where a tag or the width is not allowed. -/
def Job.tableRow (j : Job) (i : Nat) (g : GxRec) (w r : Nat) (k : List Val → Job → Gx) : Gx :=
  let p := g.table.shift (r * g.rowb)
  (j.read i p g.rowb g.rowb).gx i fun row j =>
    match decodeRow row with
    | none => .stop { sub := .format, acc := 0, addr := some p.addr } i j
    | some vs => if vs.length = w then k vs j else .stop { sub := .format, acc := 0, addr := some p.addr } i j

/-- The bags' elements set to V = 0 with flags clear, before the first index. -/
def Job.clearBags (j : Job) (g : GxRec) (w : Nat) : Gx :=
  let n := g.nidx / g.bag * w
  let dst := g.dst.addr
  match j.rawTagged dst (rawGranules 0 n) with
  | .stop f j => .stop f (if f.sub = .format then (f.offset - dst) / 4096 else gxProgress f 0) j
  | .hole => .hole
  | .ok _ j => (j.writeRaw dst 0 (List.replicate n Elem.zero)).gx 0 fun _ j => .next j

/-- Elements of a row, or 0 while the table's tag gives none. -/
def Job.bagWidth (j : Job) (g : GxRec) : Nat :=
  match j.tagPlace g.table with
  | .ok tag _ => ((tableFmt tag).bind fun f => rowWidth f g.rowb).getD 0
  | _ => 0

/-- One lookup of a bag sum. -/
def bagStep (g : GxRec) (j : Job) (i : Nat) : Gx :=
  j.withWidth i g fun w j =>
    let add := fun (j : Job) =>
      j.gxIndex g i fun x j => j.tableRow i g w x fun vs j => j.addRow i g (i / g.bag * w) vs
    if i = 0 ∧ !g.acc then
      match j.clearBags g w with
      | .next j => add j
      | o => o
    else add j

/-- One source row of a scatter-add. -/
def scaddStep (g : GxRec) (j : Job) (i : Nat) : Gx :=
  j.withWidth i g fun w j =>
    j.gxIndex g i fun x j => j.tableRow i g w i fun vs j => j.addRow i g (x * w) vs

/-- GX_BAG_START (R242). -/
def execGxBagStart (s : State) : Res :=
  s.startGx 1 fun j e g =>
    if g.dst.addr % 4096 ≠ 0 then j.stopAt e { sub := .misaligned, acc := 1, addr := some g.dst.addr } 0 e.prog
    else j.gxRun e g (fun i => rawOff (i / g.bag * j.bagWidth g)) (bagStep g)

/-- GX_SCADD_START (R242). -/
def execGxScaddStart (s : State) : Res :=
  s.startGx 2 fun j e g =>
    if g.dst.addr % 4096 ≠ 0 then j.stopAt e { sub := .misaligned, acc := 1, addr := some g.dst.addr } 0 e.prog
    else j.gxRun e g (fun _ => 0) (scaddStep g)

/-- One index of a count (R243): the counter saturates and sets CSAT. -/
def countStep (g : GxRec) (j : Job) (i : Nat) : Gx :=
  j.gxIndex g i fun x j =>
    let p := g.dst.shift (4 * x)
    (j.readBytes i p 4).gx i fun bs j =>
      let v := leNat bs
      if v = 2 ^ 32 - 1 then
        .next { j with s := j.s.modCtx j.c fun y => { y with ydxst := { y.ydxst with csat := true } } }
      else (j.writeBytes p (leBytes 4 (v + 1))).gx i fun _ j => .next j

/-- GX_COUNT_START (R243). -/
def execGxCountStart (s : State) : Res :=
  s.startGx 3 fun j e g =>
    if g.dst.addr % 4 ≠ 0 then j.stopAt e { sub := .misaligned, acc := 1, addr := some g.dst.addr } 0 e.prog
    else j.gxRun e g (fun _ => 0) (countStep g)

end Sys2Proof.Machine
end

