-- ==== Sys2Proof/Machine/Stream.lean ====
section
/-! DEFINITION. The blocks VX and MX execute: headers, framing, fetching and the start of a run (07_encoding.md R122 to
R125; 09_vector_isa.md R185; 10_matrix_isa.md R224). -/
namespace Sys2Proof.Machine

/-- A block header (R123). -/
structure BlockHdr where
  length : Nat
  reps : Nat
  stages : Nat
  rot : Bool
  deriving DecidableEq, Repr

/-- The header in two halfwords; none where R123 makes it illegal. -/
def blockHdr (mx : Bool) (h0 h1 : BitVec 16) : Option BlockHdr :=
  let n := (h0.extractLsb' 0 12).toNat
  let st := (h1.extractLsb' 2 4).toNat
  let md := (h1.extractLsb' 0 2).toNat
  if h0.extractLsb' 12 4 = 11#4 ∧ n ≠ 0 ∧ md ≤ 1 ∧ (st = 0 ∨ md = 1) ∧ !(mx && (st != 0 || md != 0)) then
    some { length := n, reps := (h1.extractLsb' 6 10).toNat, stages := st, rot := md == 1 }
  else none

/-- Halfwords a word takes, with the immediate of a VX move whose source is `imm` (R122). -/
def wordHalves (mx : Bool) (h : BitVec 16) : Nat :=
  (if h.getLsbD 15 then 2 else 1) + (if !mx && h.extractLsb' 2 6 == 48#6 then 1 else 0)

/-- A body is framed: no word is cut off, and the last VX move has E = 1 (R123). -/
def framed (mx : Bool) : (fuel : Nat) → List (BitVec 16) → Bool
  | 0, _ => false
  | fuel + 1, hws =>
    match hws with
    | [] => true
    | h :: _ =>
      let n := wordHalves mx h
      if hws.length < n then false
      else if hws.length = n then mx || h.getLsbD 14
      else framed mx fuel (hws.drop n)

/-- What fetching halfwords of a block answers. -/
inductive Block where
  | ok (hws : List (BitVec 16)) (s : State)
  | stop (f : EFault) (h : Nat) (s : State)
  | hole

/-- Fetches n halfwords of the block at `code`, from halfword h on (R124; DEDUCED, log 47). -/
def State.fetchBlock (s : State) (c : Nat) (a : Agent) (code : Nat) : (n h : Nat) → List (BitVec 16) → Block
  | 0, _, acc => .ok acc s
  | n + 1, h, acc =>
    let va := code + 2 * h
    match s.fetchCode c a true va 2 with
    | .ok bs s => s.fetchBlock c a code n (h + 1) (acc ++ halves bs)
    | .page s => .stop { sub := .translation, acc := 2, addr := some va } h s
    | .image s => .stop { sub := .fetch, acc := 2, addr := some va } h s
    | .error s => .stop { sub := .uncorrectable, acc := 2, addr := some va } h s
    | .violation s => .stop { sub := .violation, acc := 2, addr := some va } h s
    | .hole => .hole

/-- PROGRESS of a stream: iteration, the word's own progress point, halfword (20_translation_faults.md R312). The header is
halfwords 0 and 1 (DEDUCED, log 84). -/
def streamProgress (k own h : Nat) : Nat := k * 2 ^ 32 + own % 2 ^ 20 * 2 ^ 12 + h % 2 ^ 12

/-- A run stops before its first word. -/
def State.runStop (s : State) (c : Nat) (a : Agent) (e : Entry) (f : EFault) (h : Nat) : Res :=
  .next (s.engineFault c a e f (streamProgress 0 0 h))

/-- Starts the run of an entry: record, header and body are checked and the block is fetched; `k` gets the body, the
header and the iteration count (R123 to R125). A run of no iteration is checked and fetched like another, and may fault there
(DESIGN CHOICE, log 120). -/
def State.startRun (s : State) (c : Nat) (a : Agent) (e : Entry) (code : Nat) (r : RunRec)
    (k : State → List (BitVec 16) → BlockHdr → Nat → State) : Res :=
  let mx : Bool := a == .mx
  if !r.ok then s.runStop c a e { sub := .record, acc := 0, addr := none } 0
  else
    match s.fetchBlock c a code 2 0 [] with
    | .hole => .fault .noSuchMemory
    | .stop f h s => s.runStop c a e f h
    | .ok hh s =>
      match blockHdr mx (hh.getD 0 0) (hh.getD 1 0) with
      | none => s.runStop c a e { sub := .illegalWord, acc := 2, addr := none } 0
      | some hdr =>
        match s.fetchBlock c a code hdr.length 2 [] with
        | .hole => .fault .noSuchMemory
        | .stop f h s => s.runStop c a e f h
        | .ok body s =>
          if !framed mx (hdr.length + 1) body then s.runStop c a e { sub := .illegalWord, acc := 2, addr := none } 0
          else
            let count := if hdr.reps = 0 then r.repeatN else hdr.reps
            let started := fun (done : Bool) (y : Entry) => { y with started := true, begun := true, complete := done }
            if count = 0 then .next (s.modCtx c fun x => x.modEntry a e.id (started true))
            else .next (k (s.modCtx c fun x => x.modEntry a e.id (started false)) body hdr count)

/-- Bytes of the loop buffer (R124). -/
def loopBytes (mx : Bool) : Nat := if mx then 512 else 2048

/-- Whether a block of n halfwords after its header is fetched afresh for each iteration (DEDUCED, log 80). -/
def refetches (mx : Bool) (n : Nat) : Bool := decide (loopBytes mx < 2 * (n + 2))

end Sys2Proof.Machine
end

