-- ==== Sys2Proof/Machine/Matrix.lean ====
section
/-! DEFINITION. The matrix engine MX (10_matrix_isa.md R205 to R227; 04_accumulators.md R66 to R75; 05_local_memory.md R92,
R93): its words, inline or in a run. A word's effect is made when it starts (DESIGN CHOICE, log 7). -/
namespace Sys2Proof.Machine

/-! ### Tiles and slots -/

def Ctx.acc (x : Ctx) (t : Nat) : AccTile := Tbl.get AccTile.reset x.mx.tiles t

def Ctx.setAcc (x : Ctx) (t : Nat) (v : AccTile) : Ctx :=
  { x with mx := { x.mx with tiles := Tbl.put AccTile.reset x.mx.tiles t v } }

def Ctx.mtile (x : Ctx) (t : Nat) : MTile := Tbl.get MTile.reset x.vx.tiles t

def Ctx.setMtile (x : Ctx) (t : Nat) (v : MTile) : Ctx :=
  { x with vx := { x.vx with tiles := Tbl.put MTile.reset x.vx.tiles t v } }

def Ctx.slot (x : Ctx) (n : Nat) : Slot := Tbl.get Slot.reset x.mx.slots n

def Ctx.setSlot (x : Ctx) (n : Nat) (v : Slot) : Ctx :=
  { x with mx := { x.mx with slots := Tbl.put Slot.reset x.mx.slots n v } }

/-- Element (i, j) of a tile. -/
def AccTile.el (t : AccTile) (i j : Nat) : Elem := Tbl.get Elem.zero t.els (64 * i + j)

def AccTile.setEl (t : AccTile) (i j : Nat) (e : Elem) : AccTile :=
  { t with els := Tbl.put Elem.zero t.els (64 * i + j) e }

/-- The tile with each element (i, j), i < rows and j < cols, replaced. -/
def AccTile.mapRegion (t : AccTile) (rows cols : Nat) (f : Nat → Nat → Elem → Elem) : AccTile :=
  (List.range rows).foldl (fun t i => (List.range cols).foldl (fun t j => t.setEl i j (f i j (t.el i j))) t) t

/-- A new anchor; the elements of a valid tile are rescaled (R70). -/
def AccTile.moveAnchor (t : AccTile) (a : Int) : AccTile :=
  if t.valid && decide (t.anchor ≠ a) then
    { t with anchor := a, els := t.els.map (fun e => (e.1, rescaleElem t.anchor a e.2)), dirty := true }
  else { t with anchor := a }

/-! ### The word being executed -/

/-- An MX word that executes: its queue entry, and the run it stands in. -/
structure MxAt where
  e : Entry
  run : Option MxRun
  deriving DecidableEq, Repr

/-- The run record that bounds the word (R224). -/
def MxAt.rec? (m : MxAt) : Option RunRec :=
  match m.e.cmd with
  | .mxRun _ _ r => some r
  | _ => none

/-- The address operand (07_encoding.md R133, R117): ARG[a] + k × step × 64, or the pushed operand. -/
def MxAt.addr (m : MxAt) (a : BitVec 2) (step : Nat) : Nat :=
  match m.e.cmd, m.run with
  | .mxRun _ _ r, some u => (r.args.getD a.toNat 0 + u.k * step * 64) % 2 ^ 32
  | .mxWord _ addr, _ => addr
  | _, _ => 0

def Cmd.isMxWord (cmd : Cmd) : Bool :=
  match cmd with
  | .mxWord _ _ => true
  | _ => false

/-- The slots and accumulator tiles that an MX word reads. -/
def Instr.mxReads (c : Nat) (b : Binds) (i : Instr) : List Sram :=
  match i with
  | .mxMma t va vb _ d _ _ _ => [Sram.slot c (b.view va.toNat).slot, .slot c (b.view vb.toNat).slot] ++
      if d = 1 then [] else [.acc c t.toNat]
  | .mxTcmp a t _ _ _ _ => [.acc c a.toNat, .acc c t.toNat]
  | .mxTcmpThreshold a _ _ _ _ => [.acc c a.toNat]
  | .mxSpill t _ _ => [.acc c t.toNat]
  | .mxResolveAbuf t _ _ _ _ _ => [.acc c t.toNat]
  | .mxResolveMfile t _ _ _ _ => [.acc c t.toNat]
  | .mxResolveSelf t _ _ => [.acc c t.toNat]
  | _ => []

/-- The run after n halfwords: the next word, the next iteration, or its end. -/
def MxRun.advance (r : MxRun) (n : Nat) : Option MxRun :=
  if r.pos + n < r.length then some { r with pos := r.pos + n }
  else if r.k + 1 < r.n then
    some { r with pos := 0, k := r.k + 1, hws := if refetches true r.length then [] else r.hws }
  else none

/-- Tiles are in flight for engine a until the command `id` retires (05_local_memory.md R92). -/
def Ctx.flyTiles (x : Ctx) (a : Agent) (id : Nat) (tiles : List Nat) : Ctx :=
  tiles.foldl (fun x t =>
    let y := x.modEntry a id fun e => if e.tiles.contains t then e else { e with tiles := e.tiles ++ [t] }
    if t < 8 then y.setAcc t { y.acc t with inflight := some a }
    else y.setMtile (t - 8) { y.mtile (t - 8) with inflight := some a }) x

/-- The word being executed, decoded. -/
def MxAt.instr (m : MxAt) : Option Instr :=
  match m.e.cmd, m.run with
  | .mxWord w _, _ => accepted (decodeMxFull w)
  | _, some r =>
    match decodeStream true (r.hws.drop r.pos) with
    | .ok (i, _) => some i
    | .error _ => none
  | _, none => none

/-- The tiles that the word being executed writes. -/
def MxAt.tiles (m : MxAt) : List Nat := (m.instr.map Instr.mxTiles).getD []

/-- A word of a run is a command that retires with its completion: the tiles it wrote are in flight for it no longer
(05_local_memory.md R92, R218, R220). -/
def Ctx.landWord (x : Ctx) (id : Nat) (tiles : List Nat) : Ctx :=
  match x.entry? .mx id with
  | some e => (x.modEntry .mx id fun y => { y with tiles := y.tiles.filter fun t => !tiles.contains t }).landTiles .mx
      { e with tiles := tiles }
  | none => x

/-- The state after a complete word: an inline word waits to retire, and a run goes on (R205, R224). -/
def State.mxNext (s : State) (m : MxAt) : State :=
  let s := s.endWait s.cur .mx
  match m.run with
  | none => s.upd fun x => (x.modEntry .mx m.e.id fun y =>
      { y with started := true, begun := true, complete := true, prog := 0 }).flyTiles .mx m.e.id m.tiles
  | some r =>
    let next := r.advance (wordHalves true (r.hws.getD r.pos 0))
    s.upd fun x =>
      let y := (x.modEntry .mx m.e.id fun y => { y with prog := 0, complete := next.isNone }).landWord m.e.id m.tiles
      { y with mx := { y.mx with run := next } }

/-- The word is complete. -/
def State.mxDone (s : State) (m : MxAt) : Res := .next (s.mxNext m)

/-- The word waits on a flag (25_debug.md R353). -/
def State.mxWait (s : State) (flag num setter : Nat) : Res :=
  .next (s.noteWait s.cur .mx flag (BitVec.ofNat 32 num) setter s.cur)

/-- MX stops at the word. `own` is its own progress point, from which it goes on (R227, 20_translation_faults.md R312); the
tiles of a word that has done a part of its work stay in flight (05_local_memory.md R92). -/
def State.mxFault (s : State) (m : MxAt) (f : EFault) (own : Nat) : Res :=
  let progress := match m.run with
    | some r => streamProgress r.k own (r.pos + 2)
    | none => own
  .next ((s.upd fun x => (x.modEntry .mx m.e.id fun y =>
      { y with prog := own, begun := true, started := m.run.isSome }).flyTiles .mx m.e.id (if own = 0 then [] else m.tiles)).engineFault
    s.cur .mx m.e f progress)

/-- Runs k on a word whose slots and tiles hold no uncorrectable error; otherwise MX stops (20_translation_faults.md R318). -/
def State.withSram (s : State) (m : MxAt) (k : State → MxAt → Res) : Res :=
  if s.bad.isEmpty then k s m
  else
    let e := s.sramErrors (.core s.cur .mx) s.me.b.part.toNat ((m.instr.map (Instr.mxReads s.cur m.e.binds)).getD [])
    if e.2 then e.1.mxFault m { sub := .uncorrectable, acc := 0, addr := none } 0 else k s m

/-- Runs k on the MX word that stands at MX: the word of the run in progress, or the next inline word, once the scoreboard
lets it start (R205, 05_local_memory.md R88). -/
def State.withMx (s : State) (k : State → MxAt → Res) : Res :=
  match s.my.mx.run with
  | some r =>
    if !s.me.enginesRun || s.my.stopped .mx then .next s
    else
      match s.my.entry? .mx r.entry with
      | some e => s.withSram { e := e, run := some r } k
      | none => .next s
  | none => s.startEntry .mx Cmd.isMxWord fun s e => s.withSram { e := e, run := none } k

/-- The illegal-word fault of a word that decodes to nothing (07_encoding.md R135). -/
def State.mxIllegal (s : State) : Res :=
  s.withMx fun s m => s.mxFault m { sub := .illegalWord, acc := 2, addr := none } 0

def slotFault : EFault := { sub := .slot, acc := 0, addr := none }

def windowFault (acc a : Nat) : EFault := { sub := .window, acc := acc, addr := some a }

/-- Runs k unless a mask of the run leaves out the slot (R224). -/
def State.withSlot (s : State) (m : MxAt) (mask : RunRec → BitVec 32) (n : Nat) (k : Res) : Res :=
  match m.rec? with
  | some r => if (mask r).getLsbD n then k else s.mxFault m { sub := .window, acc := 0, addr := none } 0
  | none => k

/-- Runs k on an accumulator tile that is not FX's, and is valid where `valid` asks for it (05_local_memory.md R92; DEDUCED, log 55). -/
def State.withAcc (s : State) (t : Nat) (valid : Bool) (k : AccTile → Res) : Res :=
  let a := s.my.acc t
  if a.inflight = some .fx then s.mxWait 4 t Agent.fx.code
  else if valid && !a.valid then s.mxWait 4 t 15
  else k a

/-- The first byte of [a, a + n) outside [lo, hi). -/
def firstOut (lo hi a n : Nat) : Option Nat :=
  if n = 0 then none else if a < lo then some a else if hi < a + n then some (max a hi) else none

/-- The first byte of ranges, in their order, that a run's window leaves out; the window is of the W space where `rdW` says
so (R224). -/
def MxAt.outside (m : MxAt) (inW : Bool) (ranges : List (Nat × Nat)) : Option Nat :=
  m.rec?.bind fun r =>
    if r.rdW != inW then (ranges.head?).map (·.1) else ranges.findSome? fun p => firstOut r.rdBase (r.rdBase + r.rdLen) p.1 p.2

/-- Runs k when the ranges lie in a window of the run, which is in the W space where `inW`; otherwise the window fault at
the first byte outside, counted from the operand (R224, R227). -/
def State.withWindow (s : State) (m : MxAt) (write inW : Bool) (a : Nat) (ranges : List (Nat × Nat)) (k : Res) : Res :=
  match m.rec? with
  | none => k
  | some r =>
    let lo := if write then r.wrBase else r.rdBase
    let hi := lo + (if write then r.wrLen else r.rdLen)
    let acc := if write then 1 else 0
    if !write && r.rdW != inW then s.mxFault m (windowFault acc a) 0
    else
      match ranges.findSome? (fun p => firstOut lo hi p.1 p.2) with
      | some o => s.mxFault m (windowFault acc o) (o - a)
      | none => k

/-! ### Claims and releases (R211, 05_local_memory.md R93) -/

/-- MX_CLAIM (R211). -/
def execMxClaim (sl : BitVec 5) (s : State) : Res :=
  s.withMx fun s m => s.withSlot m (·.slotWr) sl.toNat (
    let v := s.my.slot sl.toNat
    if v.state = .free then (s.upd fun x => x.setSlot sl.toNat { v with state := .claimed }).mxDone m
    else s.mxFault m slotFault 0)

/-- A release: older readers have retired, since the release registers the slot as written (R211). -/
def State.mxFree (s : State) (n : Nat) : Res :=
  s.withMx fun s m => s.withSlot m (·.slotWr) n (
    let v := s.my.slot n
    if v.state = .free then s.mxFault m slotFault 0
    else (s.upd fun x => x.setSlot n { v with state := .free }).mxDone m)

/-- MX_RELEASE (R211). -/
def execMxRelease (sl : BitVec 5) (s : State) : Res := s.mxFree sl.toNat

/-- MX_RELEASE_SHORT (R225). -/
def execMxReleaseShort (sl : BitVec 5) (s : State) : Res := s.mxFree sl.toNat

/-! ### Fills (R212 to R214) -/

/-- A granule's part of a fill: element bytes and scale records. -/
structure Span where
  area : Nat
  len : Nat
  recs : Nat
  recLen : Nat
  deriving DecidableEq, Repr

/-- The parts from address a on that hold `left` bytes of elements (R212; DEDUCED, log 53). -/
def fillSpans (f : Fmt) (geo : Nat) : (fuel a left : Nat) → List Span
  | 0, _, _ => []
  | fuel + 1, a, left =>
    if left = 0 then []
    else
      let o := a % 4096
      let g := a - o
      if geo = 0 then
        let n := min left (4096 - o)
        { area := a, len := n, recs := a, recLen := 0 } :: fillSpans f geo fuel (g + 4096) (left - n)
      else
        let top := granuleScales f geo
        let n := min left (top - o)
        let blk := geoBlock geo * f.bits / 8
        { area := a, len := n, recs := g + top + o / blk * geoRecord geo, recLen := n / blk * geoRecord geo } ::
          fillSpans f geo fuel (g + 4096) (left - n)

/-- The ranges a fill reads. -/
def Span.ranges (p : Span) : List (Nat × Nat) := [(p.area, p.len), (p.recs, p.recLen)]

/-- The end of a part, its records included. -/
def Span.stop (p : Span) : Nat := max (p.area + p.len) (p.recs + p.recLen)

/-- Listed bytes at a physical buffer place, by their distance from it. -/
def State.bytesAt (s : State) (p : Place) (n : Nat) : Memory :=
  let pick := fun (m : Memory) (o : Nat) =>
    (m.filter fun e => decide (o ≤ e.1) && decide (e.1 < o + n)).map fun e => (e.1 - o, e.2)
  match p with
  | .abuf c o => pick ((s.core c).buf false) o
  | .wbuf c o => pick ((s.core c).buf true) o
  | _ => []

/-- Where byte p of the source goes in the slot under transpose unit u, 0 for none (R213). -/
def slotIndex (u p : Nat) : Nat := if u = 0 then p else p % (64 * u) / u * 384 + p / (64 * u) * u + p % u

/-- The source byte that slot byte d comes from. -/
def slotSource (u d : Nat) : Nat := if u = 0 then d else d % 384 / u * (64 * u) + d / 384 * u + d % u

/-- Sideband bytes that byte r of the records from block blk on is written to (R212). -/
def sideIndex (geo blk r : Nat) : List Nat :=
  match geo with
  | 1 => [blk + r]
  | 2 => [4 * (blk + r), 4 * (blk + r) + 1, 4 * (blk + r) + 2, 4 * (blk + r) + 3]
  | _ => [3 * blk + r]

/-- The slot with the element bytes and records of one part written: `done` element bytes and `blk` blocks precede it. -/
def Slot.load (sl : Slot) (geo u done blk len recLen : Nat) (data recs : Memory) : Slot :=
  let kept := sl.data.filter fun e => !(decide (done ≤ slotSource u e.1) && decide (slotSource u e.1 < done + len))
  let sides := (List.range recLen).flatMap (sideIndex geo blk)
  { sl with
    data := data.foldr (fun e m => m.write (slotIndex u (done + e.1)) e.2) kept
    side := recs.foldr (fun e m => (sideIndex geo blk e.1).foldl (fun m i => m.write i e.2) m)
      (sl.side.filter fun e => !sides.contains e.1) }

/-- Where a fill ends. -/
inductive Filled where
  | done (sl : Slot)
  | stop (f : EFault) (own : Nat) (sl : Slot)

/-- A buffer range of either space. -/
def State.space (s : State) (inW : Bool) (a n : Nat) : Typed :=
  if inW then s.wSpace s.cur a n else s.aSpace s.cur a n

/-- Element bytes of the parts that end within distance n from the address: what a fill that stopped there has loaded. -/
def filledBytes (spans : List Span) (a n : Nat) : Nat :=
  ((spans.filter fun p => decide (p.stop - a ≤ n)).map (·.len)).foldl (· + ·) 0

/-- The SRAM of a buffer range, where it lies in the footprint. -/
def State.spaceSram (s : State) (inW : Bool) (a n : Nat) : List Sram :=
  match (s.space inW a n).place 0 a with
  | .ok p => p.sram false n
  | .error _ => []

/-- The errors of the granule that a word has met in a buffer are logged (20_translation_faults.md R318). -/
def State.logBuffer (s : State) (inW : Bool) (f : EFault) : State :=
  if f.sub == .uncorrectable then
    (s.sramErrors (.core s.cur .mx) s.me.b.part.toNat (s.spaceSram inW f.offset (4096 - f.offset % 4096))).1
  else s

/-- Fills the slot from its parts in order, skipping those done up to `from'`; `out` finds the first byte of a part outside
its window, at which the fill stops with the parts before it done (R212, R227). -/
def State.fillLoop (s : State) (out : List (Nat × Nat) → Option Nat) (inW : Bool) (a tag geo blkB u from' : Nat) :
    List Span → (done blk : Nat) → Slot → Filled
  | [], _, _, sl => .done sl
  | p :: t, done, blk, sl =>
    let done' := done + p.len
    let blk' := blk + (if geo = 0 then 0 else p.len / blkB)
    if p.stop - a ≤ from' then s.fillLoop out inW a tag geo blkB u from' t done' blk' sl
    else
    match out p.ranges, (s.space inW p.area p.len).place 0 p.area with
    | some o, _ => .stop (windowFault 0 o) (o - a) sl
    | none, .error f => .stop f (f.offset - a) sl
    | none, .ok q =>
      if s.bad.any (q.sram false p.len ++ s.spaceSram inW p.recs p.recLen).contains then
        .stop { sub := .uncorrectable, acc := 0, addr := some p.area } (p.area - a) sl
      else if s.tagOf q ≠ tag then .stop { sub := .format, acc := 0, addr := some (p.area / 4096 * 4096) } (p.area / 4096 * 4096 - a) sl
      else
        let recs := match (s.space inW p.recs p.recLen).place 0 p.recs with
          | .ok r => s.bytesAt r p.recLen
          | .error _ => []
        s.fillLoop out inW a tag geo blkB u from' t done' blk' (sl.load geo u done blk p.len p.recLen (s.bytesAt q p.len) recs)

/-- Formats an operand slot holds (R212). -/
def slotFmt (tag : Nat) : Option Fmt :=
  if tagDecodes (tagFmt tag) (tagGeo tag) ∧ tagFmt tag ≠ 1 then Fmt.ofCode (tagFmt tag) else none

/-- The unit of a transpose code (R133). -/
def transposeUnit (t : BitVec 2) : Nat := if t = 0 then 0 else 2 ^ (t.toNat - 1)

/-- A fill from address a of a buffer into slot n. `out` bounds the parts it reads, and `atEnd` follows the completed
fill. -/
def State.fillFrom (s : State) (m : MxAt) (n : Nat) (inW : Bool) (a : Nat) (t : BitVec 2)
    (out : List (Nat × Nat) → Option Nat) (atEnd : State → State) : Res :=
  let v := s.my.slot n
  let bad := fun (sub : FaultSub) => s.mxFault m { sub := sub, acc := 0, addr := some a } 0
  match (s.space inW a 1).place 0 a with
  | .error f => s.mxFault m f (f.offset - a)
  | .ok p =>
    let tag := s.tagOf p
    let geo := tagGeo tag
    match slotFmt tag with
    | none => bad .format
    | some f =>
      let u := transposeUnit t
      let o := a % 4096
      let blkB := geoBlock geo * f.bits / 8
      if u ≠ 0 ∧ (geo ≠ 0 ∨ 8 * u % f.bits ≠ 0) then bad .format
      else if 8 * o % f.bits ≠ 0 ∨ (geo ≠ 0 ∧ (o % blkB ≠ 0 ∨ granuleScales f geo ≤ o)) then bad .misaligned
      else
        let spans := fillSpans f geo 16 a 24576
        let start := if m.e.prog = 0 then { v with side := [] } else v
        match s.fillLoop out inW a tag geo blkB u m.e.prog spans 0 0 start with
        | .stop f own sl =>
          (((s.logBuffer inW f).upd fun x => x.setSlot n sl).meter s.cur 12
            (filledBytes spans a own / 1024 - filledBytes spans a m.e.prog / 1024)).mxFault m f own
        | .done sl =>
          (atEnd (((s.mend [.slot s.cur n]).upd fun x => x.setSlot n { sl with
            state := .filled, fmt := BitVec.ofNat 5 (tagFmt tag), geo := BitVec.ofNat 3 geo }).meter s.cur 12
              (24 - filledBytes spans a m.e.prog / 1024))).mxDone m

/-- MX_FILL (R212, R213). -/
def execMxFill (sl : BitVec 5) (w : BitVec 1) (t g : BitVec 2) (p : BitVec 15) (s : State) : Res :=
  s.withMx fun s m => s.withSlot m (·.slotWr) sl.toNat (
    let inW : Bool := w == 1
    let a := m.addr g p.toNat
    if (s.my.slot sl.toNat).state = .free then s.mxFault m slotFault 0
    else s.fillFrom m sl.toNat inW a t (m.outside inW) id)

/-- MX_FILL_RING (R214): takes slot TAIL, reads from its first byte, and returns it. -/
def execMxFillRing (sl : BitVec 5) (t : BitVec 2) (k : BitVec 3) (s : State) : Res :=
  s.withMx fun s m =>
    let n := k.toNat
    let r := s.my.ring n
    if !s.my.ringDecl.getLsbD n then s.mxFault m { sub := .illegalWord, acc := 2, addr := none } 0
    else s.withSlot m (·.slotWr) sl.toNat (
    if (s.my.slot sl.toNat).state = .free then s.mxFault m slotFault 0
    else if !r.configured then s.mxFault m { sub := .ring, acc := 0, addr := none } 0
    else if r.heldMx.isNone && r.filled == 0 then .next (s.noteRing s.cur .mx n)
    else
      let i := r.heldMx.getD r.tail
      let s := if r.heldMx.isNone then s.upd fun x => x.setRing n { r.take with heldMx := some r.tail } else s
      let a := r.slotOff i
      s.fillFrom m sl.toNat r.inW a t
        (fun ranges => ranges.findSome? fun p => firstOut a (a + r.slotB) p.1 p.2)
        (fun s => s.ringReturn s.cur n .mx))

/-! ### Operand views and the multiply-accumulate (R215 to R217) -/

/-- The width class of a slot's format: 16-, 8-, 6- and 4-bit (R217). -/
def widthClass (fmt : Nat) : Nat :=
  match fmt with
  | 2 => 0
  | 3 => 0
  | 6 => 2
  | 7 => 2
  | 8 => 3
  | 10 => 3
  | 12 => 3
  | _ => 1

/-- The element width of a class. -/
def classBits (c : Nat) : Nat := [16, 8, 6, 4].getD c 8

/-- The slot element of operand element (i, k) (R215). -/
def Shape.index (sh : Shape) (b i k : Nat) : Nat :=
  if sh.t then k * sh.rstr * 8 / b + sh.eoff + i * (sh.estr + 1) else i * sh.rstr * 8 / b + sh.eoff + k * (sh.estr + 1)

/-- The code of element n of a slot. -/
def Slot.code (sl : Slot) (b n : Nat) : Nat :=
  leNat (sl.data.readN (n * b / 8) ((n * b % 8 + b + 7) / 8)) / 2 ^ (n * b % 8) % 2 ^ b

/-- The scale record of element n (R215); under GEO 0 every sideband byte reads as 0x7F (R212). -/
def Slot.scale (sl : Slot) (n : Nat) : Nat :=
  match sl.geo.toNat with
  | 0 => 0x7F
  | 1 => (sl.side.read (n / 8)).toNat
  | 2 => (sl.side.read (n / 8)).toNat
  | g => leNat (sl.side.readN (3 * (n / geoBlock g)) 3)

/-- An operand of an mma: its slot, its shape, its element width. -/
structure Operand where
  sl : Slot
  sh : Shape
  b : Nat
  deriving DecidableEq, Repr

def Operand.fmt (o : Operand) : Fmt := (Fmt.ofCode o.sl.fmt.toNat).getD .int8

/-- The exact value of operand element (i, k). -/
def Operand.val (o : Operand) (i k : Nat) : Val :=
  let n := o.sh.index o.b i k
  decodeScaled o.fmt o.sl.geo.toNat (o.sl.code o.b n) (o.sl.scale n)

/-- An element of rows < n and k0 ≤ k < k1 lies beyond the slot (R215). -/
def Operand.beyond (o : Operand) (n k0 k1 : Nat) : Bool :=
  decide (0 < n) && decide (k0 < k1) && decide (196608 / o.b ≤ o.sh.index o.b (n - 1) (k1 - 1))

/-- The scale records of the elements read. -/
def Operand.scales (o : Operand) (n k0 k1 : Nat) : List Nat :=
  (List.range n).flatMap fun i => (List.range (k1 - k0)).map fun k => o.sl.scale (o.sh.index o.b i (k0 + k))

/-- The larger of two magnitudes. -/
def maxVal (a b : Val) : Val := if a.cmp b = some .lt then b else a

/-- MaxMag of an operand over the elements read; none where no block or group contributes (04_accumulators.md R69). -/
def Operand.maxMag (o : Operand) (n k0 k1 : Nat) : Option Val :=
  let f := o.fmt
  let g := o.sl.geo.toNat
  if g = 0 then
    some (if f.isInt then .fin false (2 ^ (f.bits - 1)) 0 else decodeEl f f.maxCode)
  else if g ≤ 2 then
    match (o.scales n k0 k1).filter (· ≠ 0xFF) with
    | [] => none
    | c :: t => some ((if f = .int8 then Val.fin false 2 0 else decodeEl f f.maxCode).scale ((t.foldl max c : Nat) - 127))
  else
    (o.scales n k0 k1).foldl (fun acc r =>
      match decodeEl .fp16 (r % 65536) with
      | .fin _ sm se =>
        if sm = 0 then acc
        else
          let z := if f = .u4 then bitsNat r 19 16 else bitsNat r 23 16
          let v : Val := .fin false (sm * max z (f.maxCode - z)) se
          some (match acc with
            | some a => maxVal a v
            | none => v)
      | _ => acc) none

/-- The anchor of the auto rule; none where it sets nothing (R69). -/
def autoAnchor (a b : Option Val) : Option Int :=
  match a, b with
  | some a, some b =>
    let p := a.mul b
    if p.isZero then none else some (min 511 (max (-512) (p.log2 + 8)))
  | _, _ => none

/-- The tile after the accumulation of R216. Where the auto rule sets nothing, the anchor and AMODE keep their values, ANCH or
not (04_accumulators.md R69; DEDUCED, log 54). The products of an element are added in ascending k (DESIGN CHOICE, log 135). -/
def AccTile.mma (t : AccTile) (a b : Operand) (neg ad anch : Bool) (ra cb k0 k1 : Nat) : AccTile :=
  let t :=
    if ad && (t.auto || anch) then
      match autoAnchor (a.maxMag ra k0 k1) (b.maxMag cb k0 k1) with
      | some x => { t.moveAnchor x with auto := t.auto && !anch }
      | none => t
    else t
  let ks := (List.range (k1 - k0)).map (k0 + ·)
  let rowsA := (List.range ra).map fun i => ks.map (a.val i)
  let rowsB := (List.range cb).map fun j => ks.map (b.val j)
  let t' := t.mapRegion ra cb fun i j e =>
    ((rowsA.getD i []).zip (rowsB.getD j [])).foldl (fun e p => csaAdd t.anchor e (product p.1 p.2 neg))
      (if ad then Elem.zero else e)
  { t' with valid := true, dirty := true }

/-- The sub-arrays that a region meets (R208). -/
def subArrays (ra cb : Nat) : List Nat :=
  [0, 1, 2, 3].filter fun q => decide (32 * (q / 2) < ra) && decide (32 * (q % 2) < cb)

/-- The array runs an mma of a width class and K units over a region: metering, wakes and idle times (R208, 17_energy.md
R288). -/
def State.arrayRun (s : State) (cls units ra cb : Nat) : State :=
  let c := s.cur
  let qs := subArrays ra cb
  let woken := (qs.filter fun q => s.my.mx.gated.getLsbD q).length
  let used : BitVec 4 := qs.foldl (fun b q => b ||| BitVec.ofNat 4 (2 ^ q)) 0
  ((s.meter c (8 + cls) (qs.length * units)).meter c 19 woken).upd fun x =>
    { x with mx := { x.mx with
      gated := x.mx.gated &&& ~~~used, idleGated := x.mx.idleGated &&& ~~~used
      idle := qs.foldl (fun t q => Tbl.put 0 t q s.ec) x.mx.idle } }

/-- An older FX pass holds its turn at the array (R205). -/
def Ctx.fxBefore (x : Ctx) (id : Nat) : Bool := x.fxq.any fun e => decide (e.id < id) && e.cmd.isRecord 0

/-- MX_MMA (R216, R217). Of several faults the masks' windows come first, then the slots' states, the formats, and the bytes
beyond a slot (DESIGN CHOICE, log 122). -/
def execMxMma (c a b : BitVec 5) (n d h : BitVec 1) (ks l : BitVec 3) (s : State) : Res :=
  s.withMx fun s m =>
    let va := (m.e.binds.view a.toNat).slot
    let vb := (m.e.binds.view b.toNat).slot
    let reads := fun (r : RunRec) => r.slotRd ||| r.slotWr
    s.withSlot m reads va (s.withSlot m reads vb (
      let sa := s.my.slot va
      let sb := s.my.slot vb
      let cls := widthClass sa.fmt.toNat
      let bits := classBits cls
      let oa : Operand := { sl := sa, sh := m.e.binds.shape a.toNat, b := bits }
      let ob : Operand := { sl := sb, sh := m.e.binds.shape b.toNat, b := bits }
      let g := m.e.binds.geom c.toNat
      let ra := min g.rows oa.sh.rows
      let cb := min g.cols ob.sh.rows
      let u := 384 / bits
      let k0 := ks.toNat * u
      let k1 := min (if l = 0 then 3072 / bits else (ks.toNat + l.toNat) * u) (min oa.sh.klen ob.sh.klen)
      if sa.state ≠ .filled ∨ sb.state ≠ .filled then s.mxFault m slotFault 0
      else if cls ≠ widthClass sb.fmt.toNat ∨ (bits = 6 ∧ (oa.sh.rstr % 48 ≠ 0 ∨ ob.sh.rstr % 48 ≠ 0)) then
        s.mxFault m { sub := .format, acc := 0, addr := none } 0
      else if oa.beyond ra k0 k1 || ob.beyond cb k0 k1 then s.mxFault m slotFault 0
      else if s.my.fxBefore m.e.id then s.mxWait 4 c.toNat Agent.fx.code
      else
        s.withAcc c.toNat (d == 0) fun t =>
          let units := if l = 0 then 8 - ks.toNat else l.toNat
          ((s.arrayRun cls units ra cb).upd fun x =>
            x.setAcc c.toNat (t.mma oa ob (n == 1) (d == 1) (h == 1) ra cb k0 k1)).mxDone m))

/-! ### Tile operations (R218 to R220) -/

/-- Runs k on a tile that no engine has in flight (R218, R220). -/
def State.withStillAcc (s : State) (t : Nat) (k : AccTile → Res) : Res :=
  match (s.my.acc t).inflight with
  | some a => s.mxWait 4 t a.code
  | none => k (s.my.acc t)

/-- MX_TANCH (R218). -/
def execMxTanch (c : BitVec 5) (mode : BitVec 1) (a : BitVec 10) (s : State) : Res :=
  s.withMx fun s m => s.withStillAcc c.toNat fun t =>
    let t' := if mode = 1 then { t with auto := true } else { t.moveAnchor a.toInt with auto := false }
    (s.upd fun x => x.setAcc c.toNat t').mxDone m

/-- MX_TINIT (R219). -/
def execMxTinit (c : BitVec 5) (s : State) : Res :=
  s.withMx fun s m => s.withAcc c.toNat false fun t =>
    let g := m.e.binds.geom c.toNat
    (((s.mend [.acc s.cur c.toNat]).upd fun x => x.setAcc c.toNat
      { t.mapRegion g.rows g.cols (fun _ _ _ => Elem.zero) with valid := true, dirty := true }).meter s.cur 15 g.rows).mxDone m

/-- MX_TCFG (R220, R206): in a run it changes the run's own copy of the geometry. -/
def execMxTcfg (c : BitVec 5) (r k : BitVec 6) (s : State) : Res :=
  s.withMx fun s m => s.withStillAcc c.toNat fun t =>
    let s := if t.valid then s.upd fun x =>
        let y := x.setAcc c.toNat { t with valid := false }
        { y with mx := { y.mx with st := { y.mx.st with
          cfglost := y.mx.st.cfglost ||| BitVec.ofNat 8 (2 ^ c.toNat) } } }
      else s
    let g : Geom := { rows := r.toNat + 1, cols := k.toNat + 1 }
    let s := if m.run.isSome then s.upd fun x => x.modEntry .mx m.e.id fun y =>
        { y with binds := { y.binds with geoms := Tbl.put Geom.reset y.binds.geoms c.toNat g } }
      else s
    s.mxDone m

/-! ### Resolves (R221, 04_accumulators.md R71, R72) -/

/-- The target formats in code order. -/
def resolveFmt (f : BitVec 3) : Fmt := [Fmt.fp32, .bf16, .fp16, .e4m3, .e5m2].getD f.toNat .fp32

/-- The rounding mode of column j (03_numbers.md R57). -/
def AccTile.rm (t : AccTile) (m : BitVec 3) (j : Nat) : Rm := Rm.ofField m j t.phase.toNat

/-- The resolved row i: codes and flags. -/
def AccTile.resolveRow (t : AccTile) (f : Fmt) (m : BitVec 3) (novf : Bool) (cols i : Nat) : List (Nat × Fl) :=
  (List.range cols).map fun j => resolveElem t.anchor f (t.rm m j) novf (t.el i j)

/-- The flags of all rows. -/
def AccTile.resolveFlags (t : AccTile) (f : Fmt) (m : BitVec 3) (novf : Bool) (rows cols : Nat) : Fl :=
  Fl.all ((List.range rows).flatMap fun i => (t.resolveRow f m novf cols i).map (·.2))

/-- A resolve completes: flags, the tile's dither phase, rows metered. -/
def State.resolved (s : State) (c : Nat) (m : BitVec 3) (fl : Fl) (rows : Nat) : State :=
  (s.upd fun x =>
    let t := x.acc c
    let y := if m = 4 then x.setAcc c { t with phase := t.phase + 1 } else x
    { y with mx := { y.mx with st := y.mx.st.raise fl } }).meter s.cur 13 rows

/-- Whether an M-file tile's cluster is awake (09_vector_isa.md R184). -/
def Vx.awake (v : Vx) (tile : Nat) : Bool := decide (tile / 2 < v.inUse) && !Tbl.has v.waking (tile / 2)

/-- MX_RESOLVE_MFILE (R221). -/
def execMxResolveMfile (c : BitVec 5) (f m : BitVec 3) (n : BitVec 1) (t : BitVec 3) (s : State) : Res :=
  s.withMx fun s a => s.withAcc c.toNat true fun v =>
    if !s.my.vx.awake t.toNat || (s.my.mtile t.toNat).inflight == some .vx then s.mxWait 4 (8 + t.toNat) Agent.vx.code
    else
      let g := a.e.binds.geom c.toNat
      let fmt := resolveFmt f
      let rows := (List.range g.rows).map fun i => v.resolveRow fmt m (n == 1) g.cols i
      let mt := s.my.mtile t.toNat
      let lanes := (List.range g.rows).foldl (fun l i => (List.range g.cols).foldl (fun l j =>
        Tbl.put 0 l (64 * i + j) (BitVec.ofNat 32 (((rows.getD i []).getD j (0, Fl.none)).1))) l) mt.lanes
      ((((s.mend [.mfile s.cur t.toNat]).upd fun x => x.setMtile t.toNat { mt with lanes := lanes, valid := true, dirty := true }).resolved c.toNat m
        (Fl.all (rows.flatten.map (·.2))) g.rows)).mxDone a

/-- The n bytes at a physical buffer place replaced by the listed ones, and zero elsewhere. -/
def State.putBytes (s : State) (p : Place) (n : Nat) (cells : Memory) : State :=
  let put : Memory → Nat → Memory := fun m o =>
    cells.foldr (fun e m => Memory.write m (o + e.1) e.2) (m.filter fun e => !(decide (o ≤ e.1) && decide (e.1 < o + n)))
  match p with
  | .abuf c o => (s.mend (p.sram true n)).modCore c fun k => k.setBuf false (put (k.buf false) o)
  | .wbuf c o => (s.mend (p.sram true n)).modCore c fun k => k.setBuf true (put (k.buf true) o)
  | _ => s

/-- The granules of n bytes at a place take a tag. -/
def State.tagSpan (s : State) (p : Place) (n tag : Nat) : State :=
  let go := fun (mk : Nat → Place) (o : Nat) =>
    (List.range ((o + n - 1) / 4096 + 1 - o / 4096)).foldl (fun s i => s.setTag (mk (4096 * (o / 4096 + i))) tag) s
  match p with
  | .abuf c o => go (.abuf c) o
  | .wbuf c o => go (.wbuf c) o
  | _ => s

/-- Writes resolved rows i on to ABUF, in ascending order; the fault of a row stops there (R221). -/
def State.resolveOut (s : State) (a len tag : Nat) (bad : Nat → Option EFault) (row : Nat → List Byte) :
    (fuel i : Nat) → State × Option (EFault × Nat)
  | 0, _ => (s, none)
  | fuel + 1, i =>
    match bad i, (s.aSpace s.cur (a + i * len) len).place 1 (a + i * len) with
    | some f, _ => (s, some (f, i))
    | none, .error f => (s, some (f, i))
    | none, .ok p => ((s.putBytes p len (cellsAt 0 (row i))).tagSpan p len tag).resolveOut a len tag bad row fuel (i + 1)

/-- The window fault of n bytes at a that a run writes, where they leave its write window (R224). -/
def MxAt.writeFault (m : MxAt) (a n : Nat) : Option EFault :=
  match m.rec? with
  | some r => (firstOut r.wrBase (r.wrBase + r.wrLen) a n).map (windowFault 1)
  | none => none

/-- MX_RESOLVE_ABUF (R221; DEDUCED, log 92). -/
def execMxResolveAbuf (c : BitVec 5) (f m : BitVec 3) (n : BitVec 1) (g : BitVec 2) (p : BitVec 10) (s : State) : Res :=
  s.withMx fun s a => s.withAcc c.toNat true fun v =>
    let at' := a.addr g p.toNat
    let geom := a.e.binds.geom c.toNat
    let fmt := resolveFmt f
    let w := resolveWidth f
    let len := geom.cols * w
    if at' % 64 ≠ 0 then s.mxFault a { sub := .misaligned, acc := 1, addr := some at' } 0
    else
      let row := fun (i : Nat) => ((v.resolveRow fmt m (n == 1) geom.cols i).map fun r => leBytes w r.1).flatten
      let bad := fun (i : Nat) => a.writeFault (at' + i * len) len
      match s.resolveOut at' len (8 * (f.toNat + 1)) bad row (geom.rows - a.e.prog) a.e.prog with
      | (s, some (flt, i)) =>
        let fl := v.resolveFlags fmt m (n == 1) i geom.cols
        ((s.upd fun x => { x with mx := { x.mx with st := x.mx.st.raise fl } }).meter s.cur 13 (i - a.e.prog)).mxFault a flt i
      | (s, none) =>
        (s.resolved c.toNat m (v.resolveFlags fmt m (n == 1) geom.rows geom.cols) (geom.rows - a.e.prog)).mxDone a

/-- MX_RESOLVE_SELF (04_accumulators.md R72). -/
def execMxResolveSelf (c : BitVec 5) (m : BitVec 3) (_ : BitVec 1) (s : State) : Res :=
  s.withMx fun s a => s.withAcc c.toNat true fun v =>
    let g := a.e.binds.geom c.toNat
    let v' := v.mapRegion g.rows g.cols fun _ j e => (resolveSelf v.anchor (v.rm m j) e).1
    ((s.upd fun x => x.setAcc c.toNat { v' with dirty := true }).resolved c.toNat m
      (v.resolveFlags .fp32 m false g.rows g.cols) g.rows).mxDone a

/-! ### Compares (R222, 04_accumulators.md R73) -/

/-- Whether a relation holds: eq, ne, lt, le, gt, ge (R204). -/
def relHolds (r : Nat) (o : Option Ordering) : Bool :=
  match r, o with
  | 0, some .eq => true
  | 1, some .eq => false
  | 1, _ => true
  | 2, some .lt => true
  | 3, some .lt => true
  | 3, some .eq => true
  | 4, some .gt => true
  | 5, some .gt => true
  | 5, some .eq => true
  | _, _ => false

/-- The predicate of rows whose every column meets the relation. -/
def rowPred (rows cols : Nat) (ok : Nat → Nat → Bool) : BitVec 64 :=
  (List.range rows).foldl (fun b i => if (List.range cols).all (ok i) then b ||| BitVec.ofNat 64 (2 ^ i) else b) 0

/-- The predicate register takes the outcome of a compare. -/
def State.compared (s : State) (p : Nat) (v : BitVec 64) (rows : Nat) : State :=
  (s.upd fun x => { x with vx := { x.vx with preds := Tbl.put 0 x.vx.preds p v } }).meter s.cur 14 rows

/-- MX_TCMP (R222). -/
def execMxTcmp (a b : BitVec 5) (r p : BitVec 3) (_ : BitVec 2) (_ : BitVec 7) (s : State) : Res :=
  s.withMx fun s m => s.withAcc a.toNat true fun ta => s.withAcc b.toNat true fun tb =>
    let g := m.e.binds.geom a.toNat
    (s.compared p.toNat (rowPred g.rows g.cols fun i j =>
      relHolds r.toNat ((elemVal ta.anchor (ta.el i j)).cmp (elemVal tb.anchor (tb.el i j)))) g.rows).mxDone m

/-- The exact value of element n of a granule, whose byte i is `get i` (03_numbers.md R53, R54). -/
def granuleVal (get : Nat → Byte) (f : Fmt) (geo n : Nat) : Val :=
  let b := f.bits
  let bytes := fun (o k : Nat) => leNat ((List.range k).map fun i => get (o + i))
  let code := bytes (n * b / 8) ((n * b % 8 + b + 7) / 8) / 2 ^ (n * b % 8)
  let r := if geo = 0 then 0 else bytes (granuleScales f geo + n / geoBlock geo * geoRecord geo) (geoRecord geo)
  decodeScaled f geo code r

/-- The bytes of elements n to n + k - 1 of a granule, and of their scale records, as ranges of the granule. -/
def granuleRanges (f : Fmt) (geo n k : Nat) : List (Nat × Nat) :=
  let b := f.bits
  let lo := n * b / 8
  let hi := ((n + k) * b + 7) / 8
  if geo = 0 then [(lo, hi - lo)]
  else
    let blk := geoBlock geo
    let r := geoRecord geo
    let first := n / blk
    let last := (n + k - 1) / blk
    [(lo, hi - lo), (granuleScales f geo + first * r, (last + 1 - first) * r)]

/-- The byte of a buffer at distance i from a physical place. -/
def State.bufByte (s : State) (p : Place) (i : Nat) : Byte :=
  match p with
  | .abuf c o => ((s.core c).buf false).read (o + i)
  | .wbuf c o => ((s.core c).buf true).read (o + i)
  | _ => 0

/-- MX_TCMP_THRESHOLD (R222): accA against a decoded row of ABUF. -/
def execMxTcmpThreshold (a : BitVec 5) (r p : BitVec 3) (g : BitVec 2) (st : BitVec 7) (s : State) : Res :=
  s.withMx fun s m => s.withAcc a.toNat true fun ta =>
    let at' := m.addr g st.toNat
    let o := at' % 4096
    let base := at' - o
    let bad := fun (sub : FaultSub) => s.mxFault m { sub := sub, acc := 0, addr := some at' } 0
    match (s.aSpace s.cur base 4096).place 0 at' with
    | .error f => s.mxFault m f (f.offset - at')
    | .ok q =>
      let tag := s.tagOf q
      let geo := tagGeo tag
      match if tagDecodes (tagFmt tag) geo then Fmt.ofCode (tagFmt tag) else none with
      | none => bad .format
      | some f =>
        let n := o / f.bits * 8
        if o % f.bits ≠ 0 then bad .misaligned
        else if granuleElems f geo < n + 64 then bad .format
        else
          let ranges := (granuleRanges f geo n 64).map fun x => (base + x.1, x.2)
          let flt : EFault := { sub := .uncorrectable, acc := 0, addr := some at' }
          s.withWindow m false false at' ranges (
            if s.bad.any (ranges.flatMap fun x => s.spaceSram false x.1 x.2).contains then
              (s.logBuffer false { flt with addr := some base }).mxFault m flt 0
            else
            let gm := m.e.binds.geom a.toNat
            let row := (List.range gm.cols).map fun j => granuleVal (s.bufByte q) f geo (n + j)
            (s.compared p.toNat (rowPred gm.rows gm.cols fun i j =>
              relHolds r.toNat ((elemVal ta.anchor (ta.el i j)).cmp (row.getD j (.nan false)))) gm.rows).mxDone m)

/-! ### Spill and reload (R223, 04_accumulators.md R75) -/

/-- The elements of granule g of a spilled tile, as element numbers. -/
def spillPart (total g : Nat) : List Nat := (List.range (min 227 (total - 227 * g))).map (227 * g + ·)

/-- Rows whose elements all lie in the first g granules of a spilled tile. -/
def spilledRows (cols g : Nat) : Nat := 227 * g / cols

/-- Writes the granules of a spill from granule g on; `out` gives the window fault of one that leaves the write window. -/
def State.spillLoop (s : State) (out : Nat → Option EFault) (a : Nat) (t : AccTile) (cols total : Nat) :
    (fuel g : Nat) → State × Option (EFault × Nat)
  | 0, _ => (s, none)
  | fuel + 1, g =>
    match out (a + 4096 * g), (s.aSpace s.cur (a + 4096 * g) 4096).place 1 (a + 4096 * g) with
    | some f, _ => (s, some (f, f.offset - a))
    | none, .error f => (s, some (f, f.offset - a))
    | none, .ok p =>
      let cells := (spillPart total g).flatMap fun n =>
        cellsAt (18 * (n % 227)) (elemBytes (t.el (n / cols) (n % cols)))
      ((s.putBytes p 4096 cells).setTag p (8 * 13)).spillLoop out a t cols total fuel (g + 1)

/-- MX_SPILL (R223). -/
def execMxSpill (c : BitVec 5) (g : BitVec 2) (st : BitVec 15) (s : State) : Res :=
  s.withMx fun s m => s.withAcc c.toNat true fun t =>
    let a := m.addr g st.toNat
    let gm := m.e.binds.geom c.toNat
    let total := gm.rows * gm.cols
    let n := rawSpan total
    if a % 4096 ≠ 0 then s.mxFault m { sub := .misaligned, acc := 1, addr := some a } 0
    else
      match s.spillLoop (m.writeFault · 4096) a t gm.cols total (n / 4096 - m.e.prog / 4096) (m.e.prog / 4096) with
      | (s, some (f, o)) =>
        (s.meter s.cur 15 (spilledRows gm.cols (o / 4096) - spilledRows gm.cols (m.e.prog / 4096))).mxFault m f o
      | (s, none) => (s.meter s.cur 15 (gm.rows - spilledRows gm.cols (m.e.prog / 4096))).mxDone m

/-- Reads the granules of a reload from granule g on; `out` finds the first byte of one outside the read window. -/
def State.reloadLoop (s : State) (out : List (Nat × Nat) → Option Nat) (a cols total : Nat) :
    (fuel g : Nat) → AccTile → AccTile × Option (EFault × Nat)
  | 0, _, t => (t, none)
  | fuel + 1, g, t =>
    match out [(a + 4096 * g, 4096)], (s.aSpace s.cur (a + 4096 * g) 4096).place 0 (a + 4096 * g) with
    | some o, _ => (t, some (windowFault 0 o, o - a))
    | none, .error f => (t, some (f, f.offset - a))
    | none, .ok p =>
      if s.bad.any (p.sram false (18 * (spillPart total g).length)).contains then
        (t, some ({ sub := .uncorrectable, acc := 0, addr := some (a + 4096 * g) }, 4096 * g))
      else if tagFmt (s.tagOf p) ≠ 13 ∨ tagGeo (s.tagOf p) ≠ 0 then
        (t, some ({ sub := .format, acc := 0, addr := some (a + 4096 * g) }, 4096 * g))
      else
        let t' := (spillPart total g).foldl (fun t n => t.setEl (n / cols) (n % cols)
          (elemOf ((List.range 18).map fun i => s.bufByte p (18 * (n % 227) + i)))) t
        s.reloadLoop out a cols total fuel (g + 1) t'

/-- MX_RELOAD (R223). -/
def execMxReload (c : BitVec 5) (g : BitVec 2) (st : BitVec 15) (s : State) : Res :=
  s.withMx fun s m => s.withAcc c.toNat false fun t =>
    let a := m.addr g st.toNat
    let gm := m.e.binds.geom c.toNat
    let total := gm.rows * gm.cols
    let n := rawSpan total
    if a % 4096 ≠ 0 then s.mxFault m { sub := .misaligned, acc := 0, addr := some a } 0
    else
      match s.reloadLoop (m.outside false) a gm.cols total (n / 4096 - m.e.prog / 4096) (m.e.prog / 4096) t with
      | (t, some (f, o)) =>
        (((s.logBuffer false f).upd fun x => x.setAcc c.toNat { t with dirty := true }).meter s.cur 15
          (spilledRows gm.cols (o / 4096) - spilledRows gm.cols (m.e.prog / 4096))).mxFault m f o
      | (t, none) =>
        (((s.mend [.acc s.cur c.toNat]).upd fun x =>
          x.setAcc c.toNat { t with valid := true, dirty := true }).meter s.cur 15
          (gm.rows - spilledRows gm.cols (m.e.prog / 4096))).mxDone m

/-! ### Runs, marks and gates (R208, R224, R225) -/

/-- MX_RUN_START (R224). -/
def execMxRunStart (s : State) : Res :=
  if s.my.mx.run.isSome then .next s
  else
    s.startEntry .mx (fun c => match c with | .mxRun _ _ _ => true | _ => false) fun s e =>
      match e.cmd with
      | .mxRun code _ r =>
        s.startRun s.cur .mx e code r fun s body hdr n =>
          let r : MxRun := { entry := e.id, hws := body, code := code, length := hdr.length, n := n, k := 0, pos := 0 }
          s.upd fun x => { x with mx := { x.mx with run := some r } }
      | _ => .next s

/-- An entry of `sk.shape` or `sk.view` starts; its binding was set at the push (08_stoker_isa.md R172). -/
def State.mxBindStart (s : State) : Res :=
  if s.my.mx.run.isSome then .next s
  else
    s.startEntry .mx (· == .mxBind) fun s e =>
      .next (s.upd fun x => x.modEntry .mx e.id fun y => { y with started := true, begun := true, complete := true })

/-- MX_NOP (R225). -/
def execMxNop (s : State) : Res := s.withMx fun s m => s.mxDone m

/-- MX_MARK (R225): recorded once every older MX command has retired. -/
def execMxMark (n : BitVec 12) (s : State) : Res :=
  s.withMx fun s m =>
    if s.my.mxq.any fun e => decide (e.id < m.e.id) then .next s
    else
      let c := s.cur
      let s := if s.sootOn c then
          s.sootRecord (sootDw0 5 Agent.mx.code c m.e.qpos) n.toNat (s.launchNo c * 2 ^ 32)
        else s
      s.mxDone m

/-- MX_GATE (R208). -/
def execMxGate (mask : BitVec 4) (s : State) : Res :=
  s.withMx fun s m => (s.upd fun x => { x with mx := { x.mx with gated := x.mx.gated ||| mask } }).mxDone m

/-- SUBARRAY_IDLE_GATE (R208): sub-array q has done no array cycle for 16 × GATEIDLE ec. -/
def execSubarrayIdleGate (q : BitVec 2) (s : State) : Res :=
  let x := s.my.mx
  let gi := x.st.gateidle.toNat
  if gi ≠ 0 ∧ Tbl.get 0 x.idle q.toNat + 16 * gi ≤ s.ec then
    .next (s.upd fun y => { y with mx := { y.mx with idleGated := y.mx.idleGated ||| BitVec.ofNat 4 (2 ^ q.toNat) } })
  else .next s

end Sys2Proof.Machine
end

