-- ==== Sys2Proof/Machine/Collective.lean ====
section
/-! DEFINITION. The collective port CL (11_data_engines_isa.md R247 to R250; 07_encoding.md R141; 06_ordering.md R111). A
participant starts at the head of its CL queue and waits; when all have started, the collective completes. -/
namespace Sys2Proof.Machine

/-! ### Participants (R247) -/

/-- Every member of a team, with the core that holds its context; none where one is on no core. -/
def State.teamCores (s : State) (t : Nat) (x : Team) : Option (List Nat) :=
  (x.members.zipIdx).mapM fun m => if (s.core m.1.core).task == some (t, m.2) then some m.1.core else none

/-- The cores of the participants, in rank order; none while one is on no core. A core without a task is alone. Tasks in
another box are no part of this device (R247; DESIGN CHOICE, log 128). -/
def State.clCores (s : State) (c : Nat) (team : Bool) : Option (List Nat) :=
  match (s.core c).task with
  | none => some [c]
  | some (t, _) =>
    match Tbl.get? s.teams t with
    | none => some [c]
    | some x =>
      if team then s.teamCores t x
      else
        let ts := s.teams.filter fun y => y.2.launch == x.launch
        match ts.mapM fun y => s.teamCores y.1 y.2 with
        | none => none
        | some l =>
          let all := l.flatten
          let size := s.participants c false
          let rank := fun (n : Nat) => all.find? fun d => (s.ctx d).taskNo == n
          if all.length < size then none else (List.range size).mapM rank

/-- TEAM restricts a cluster-scope collective to the team. -/
def clTeam (scope : Nat) (team : Bool) : Bool := team && scope == 1

/-- The participants lie inside the scope's domain: a launch-wide collective at cluster scope needs every task of the
launch in one cluster (R247). A team that has no cluster yet lies in none. -/
def State.clDomain (s : State) (c scope : Nat) (team : Bool) : Bool :=
  if scope = 1 ∧ !team then
    match (s.core c).task with
    | none => true
    | some (t, _) =>
      match Tbl.get? s.teams t with
      | none => true
      | some x => s.teams.all fun y => y.2.launch != x.launch || y.2.cluster.all (· == c / 16)
  else true

/-- The rank of a core's task. -/
def State.clRank (s : State) (c : Nat) (team : Bool) : Nat := if team then (s.ctx c).member else (s.ctx c).taskNo

/-! ### Records (R141, R248) -/

/-- A collective: funct7, BUF, DST, LEN, FMT, ROOT, scope and TEAM. -/
structure ClRec where
  f : Nat
  buf : Nat
  dst : Nat
  len : Nat
  fmt : Nat
  root : Nat
  scope : Nat
  team : Bool
  deriving DecidableEq, Repr

def clRec (f : Nat) (r : List Byte) : ClRec :=
  { f := f, buf := (rplace (fld r 8 8)).addr, dst := (rplace (fld r 24 8)).addr, len := fld r 16 4, fmt := fld r 20 1,
    root := fld r 21 1, scope := recScope r, team := clTeam (recScope r) (bitNat (recFlags r) 0) }

/-- Bytes of DST under P participants. -/
def ClRec.dstLen (g : ClRec) (p : Nat) : Nat :=
  match g.f with
  | 1 => g.len / p
  | 2 => g.len * p
  | _ => g.len

/-- A reduction. -/
def ClRec.reduces (g : ClRec) : Bool := decide (g.f ≤ 1)

/-- Whether the participant of rank q reads its BUF. -/
def ClRec.readsBuf (g : ClRec) (q : Nat) : Bool := g.f != 3 || g.root == q

/-- The record meets R141, R142, R247 and R248. -/
def State.clOk (s : State) (c : Nat) (r : List Byte) (f : Nat) : Bool :=
  let g := clRec f r
  let p := s.participants c g.team
  let apart := !overlapR g.buf g.len g.dst (g.dstLen p) || (g.f != 2 && g.buf == g.dst)
  headerOk r f 1 && decide (1 ≤ g.scope) && decide (g.scope ≤ 3) && zeroBytes r 22 2 && zeroBytes r 32 32 &&
  (rplace (fld r 8 8)).ownA && (rplace (fld r 24 8)).ownA && decide (g.fmt < 32) &&
  s.clDomain c g.scope g.team && apart &&
  (match f with
    | 0 => g.fmt == 13 && g.buf % 4096 == 0 && g.dst % 4096 == 0 && g.len % 4096 == 0
    | 1 => g.fmt == 13 && g.len % p == 0 && g.len / p % 4096 == 0
    | 2 => g.buf % 64 == 0 && g.dst % 64 == 0 && g.len % 64 == 0
    | _ => g.buf % 64 == 0 && g.dst % 64 == 0 && g.len % 64 == 0 && decide (g.root < p))

/-- The first fault of a range of the own ABUF: outside the footprint, or for a reduction a granule without FMT 13, whose
only GEO is 0 (03_numbers.md R52). -/
def State.clRange (s : State) (c : Nat) (raw : Bool) (acc a n : Nat) : Option EFault :=
  if n = 0 then none
  else
    match (s.aSpace c a n).place acc a with
    | .error f => some f
    | .ok _ =>
      if raw then
        let at' := fun (i : Nat) => max a (a / 4096 * 4096 + 4096 * i)
        ((List.range ((a + n - 1) / 4096 + 1 - a / 4096)).find? fun i => match (s.aSpace c (at' i) 1).place acc a with
          | .ok p => s.tagOf p != 8 * 13
          | .error _ => false).map fun i => { sub := .format, acc := acc, addr := some (at' i) }
      else none

/-- The command at which CL waited goes back to its place, faulted. -/
def Ctx.clStop (x : Ctx) (id : Nat) : Ctx :=
  let y := x.modEntry .cl id fun y => { y with started := false, begun := true }
  { y with cl := { y.cl with record := [] } }

/-- CL of core c stops at the command at which it waited (R251). -/
def State.clFault (s : State) (c : Nat) (e : Entry) (f : EFault) (progress : Nat) : State :=
  (s.modCtx c (·.clStop e.id)).engineFault c .cl e f progress

/-- The fault of a command whose participants do not lie in the scope's domain, or whose fabric is down (R247, R251). -/
def State.clScopeFault (s : State) (c scope : Nat) (team : Bool) : Option EFault :=
  if !s.clDomain c scope team then some { sub := .record, acc := 0, addr := none }
  else if scope = 3 ∧ !s.fabricUp then some { sub := .fabric, acc := 0, addr := none }
  else none

/-- CL of core c waits at a command for its match, whose count the log of waits keeps (25_debug.md R353). -/
def State.clWait (s : State) (c : Nat) (e : Entry) : Res :=
  .next (s.noteWaitAt c .cl e.qpos 9 (BitVec.ofNat 32 e.seq) 15 c)

/-- Starts a collective: its record is checked, and it waits for the other participants. -/
def State.startCl (s : State) (f : Nat) : Res :=
  s.startEntry .cl (fun c => c.isRecord f) fun s e =>
    s.withCmdRecord .cl e fun j r =>
      let c := j.c
      let g := clRec f r
      let p := j.s.participants c g.team
      if !j.s.clOk c r f then j.badRecord e
      else if g.scope = 3 ∧ !j.s.fabricUp then j.stopAt e { sub := .fabric, acc := 0, addr := none } 0 0
      else
        let bad := (if g.readsBuf (j.s.clRank c g.team) then j.s.clRange c g.reduces 0 g.buf g.len else none).or
          (j.s.clRange c g.reduces 1 g.dst (g.dstLen p))
        match bad with
        | some flt => j.stopAt e flt (if flt.sub = .format then 0 else flt.offset) 0
        | none =>
          .next (j.s.modCtx c fun x =>
            let y := x.modEntry .cl e.id fun y => { y with started := true }
            { y with cl := { y.cl with record := r } })

/-- CL_ALLRED_START (R248). -/
def execClAllredStart (s : State) : Res := s.startCl 0

/-- CL_REDSC_START (R248). -/
def execClRedscStart (s : State) : Res := s.startCl 1

/-- CL_ALLGAT_START (R248). -/
def execClAllgatStart (s : State) : Res := s.startCl 2

/-- CL_BCAST_START (R248). -/
def execClBcastStart (s : State) : Res := s.startCl 3

/-- CL_BARRIER_START (R249): older engine commands have retired, and older Stoker writes are visible at the scope. -/
def execClBarrierStart (s : State) : Res :=
  s.startEntry .cl (fun c => match c with | .barrier _ _ => true | _ => false) fun s e =>
    match e.cmd with
    | .barrier team scope =>
      match s.clScopeFault s.cur scope (clTeam scope team) with
      | some f => .next (s.clFault s.cur e f 0)
      | none =>
      if (s.my.entries.any fun o => decide (o.id < e.id)) || !s.fenceDone s.cur allClasses scope then s.clWait s.cur e
      else .next (s.upd fun x => x.modEntry .cl e.id fun y => { y with started := true })
    | _ => .next s

/-! ### Completion (R247, R250) -/

/-- The command at which CL of a core waits for the others. -/
def Ctx.clHead (x : Ctx) : Option Entry := x.clq.find? fun e => e.started && !e.complete && !e.isMarker

/-- What matching commands must agree in: scope, TEAM and count name the match; KIND, LEN, FMT and ROOT are compared. -/
def Ctx.clKey (x : Ctx) (e : Entry) : Nat × Bool × Nat :=
  match e.cmd with
  | .barrier team scope => (scope, team, e.seq)
  | _ => (recScope x.cl.record, bitNat (recFlags x.cl.record) 0, e.seq)

def Ctx.clForm (x : Ctx) (e : Entry) : Nat × Nat × Nat × Nat :=
  match e.cmd with
  | .record f _ => let g := clRec f x.cl.record; (f, g.len, g.fmt, g.root)
  | _ => (4, 0, 0, 0)

/-- The own-ABUF place of an offset. -/
def State.aPlace (s : State) (c o : Nat) : Place := .abuf c (4096 * (s.core c).b.aBase + o)

/-- Element n of granule g of the own ABUF from offset a on. -/
def State.rawEl (s : State) (c a g n : Nat) : Elem :=
  elemOf ((List.range 18).map fun i => s.bufByte (s.aPlace c a) (4096 * g + 18 * n + i))

/-- The cells of one granule of a reduction: element-wise exact sums in canonical form (04_accumulators.md R76). -/
def State.sumGranule (s : State) (bufs : List (Nat × Nat)) (g : Nat) : Memory :=
  (List.range 227).flatMap fun n =>
    cellsAt (18 * n) (elemBytes (settleElem ((bufs.map fun b => s.rawEl b.1 b.2 g n).foldl addElem Elem.zero)))

/-- What the participant of rank q writes from its DST on: bytes and their length (R248). -/
def State.clResult (s : State) (g : ClRec) (bufs : List (Nat × Nat)) (q : Nat) : Nat × Memory :=
  let sum := fun (g0 n : Nat) => (List.range n).flatMap fun i =>
    (s.sumGranule bufs (g0 + i)).map fun e => (4096 * i + e.1, e.2)
  let take := fun (b : Nat × Nat) => s.bytesAt (s.aPlace b.1 b.2) g.len
  match g.f with
  | 0 => (g.len, sum 0 (g.len / 4096))
  | 1 =>
    let part := g.len / bufs.length
    (part, sum (q * (part / 4096)) (part / 4096))
  | 2 => (g.len * bufs.length, (bufs.zipIdx).flatMap fun b => (take b.1).map fun e => (b.2 * g.len + e.1, e.2))
  | _ => (g.len, take (bufs.getD g.root (0, 0)))

/-- Metering of one participant: 64-byte units read and written, and elements added (17_energy.md R288, R289). -/
def State.clMeter (s : State) (c q p : Nat) (g : ClRec) : State :=
  let read := if g.readsBuf q then g.len / 64 else 0
  let s := s.meter c 24 (read + g.dstLen p / 64)
  if g.reduces then s.meter c 27 (p * 227 * (g.dstLen p / 4096)) else s

/-- The command at a core's CL head is complete. -/
def State.clEnd (s : State) (c : Nat) (e : Entry) : State :=
  (s.modCtx c fun x =>
    let y := x.modEntry .cl e.id fun y => { y with complete := true }
    { y with cl := { y.cl with record := [] } }).endWait c .cl

/-- The collective at core c's CL head takes effect at every participant. -/
def State.clComplete (s : State) (cores : List Nat) : State :=
  let heads := cores.filterMap fun d => ((s.ctx d).clHead).map fun e => (d, e)
  match heads.head? with
  | none => s
  | some (c0, e0) =>
    let s' :=
      match e0.cmd with
      | .record f _ =>
        let g := clRec f (s.ctx c0).cl.record
        let bufs := heads.map fun h => (h.1, (clRec f (s.ctx h.1).cl.record).buf)
        let outs := (heads.zipIdx).map fun h => (h.1.1, h.2, clRec f (s.ctx h.1.1).cl.record, s.clResult g bufs h.2)
        outs.foldl (fun s o =>
          (s.putBytes (s.aPlace o.1 o.2.2.1.dst) o.2.2.2.1 o.2.2.2.2).clMeter o.1 o.2.1 bufs.length g) s
      | _ => s
    heads.foldl (fun s h => s.clEnd h.1 h.2) s'

/-- Every participant stops at its mismatched command (R247). -/
def State.clMismatch (s : State) (cores : List Nat) : State :=
  cores.foldl (fun s d =>
    match (s.ctx d).clHead with
    | none => s
    | some e => s.clFault d e { sub := .collective, acc := 0, addr := none } 0) s

/-- The first granule of a participant's BUF, counted from its beginning, that holds an uncorrectable error, and the SRAM
lines there (20_translation_faults.md R318). -/
def State.clBadGranule (s : State) (d : Nat) (g : ClRec) : Option (Nat × List Sram) :=
  if s.bad.isEmpty then none
  else
    ((List.range ((g.len + 4095) / 4096)).map fun i =>
      (i, (s.aPlace d (g.buf + 4096 * i)).sram false (min 4096 (g.len - 4096 * i)))).find? fun x => s.bad.any x.2.contains

/-- CL of a participant reads its BUF: it stops at a granule with an uncorrectable error, which is logged (R251,
20_translation_faults.md R318). The answer says whether it stopped. -/
def State.clReads (s : State) (d : Nat) : State × Bool :=
  match (s.ctx d).clHead with
  | none => (s, false)
  | some e =>
    match e.cmd with
    | .record f _ =>
      let g := clRec f (s.ctx d).cl.record
      match if g.readsBuf (s.clRank d g.team) then s.clBadGranule d g else none with
      | some x =>
        ((s.sramErrors (.core d .cl) (s.core d).b.part.toNat x.2).1.clFault d e
          { sub := .uncorrectable, acc := 0, addr := some (g.buf + 4096 * x.1) } x.1, true)
      | none => (s, false)
    | _ => (s, false)

/-- The participants read their BUFs; the collective takes effect unless one of them stops there. -/
def State.clMeet (s : State) (cores : List Nat) : State :=
  let r := cores.foldl (fun r d =>
    let t := r.1.clReads d
    (t.1, r.2 || t.2)) (s, false)
  if r.2 then r.1 else s.clComplete cores

/-- Every participant waits at a command of the match. -/
def State.clReady (s : State) (cores : List Nat) (key : Nat × Bool × Nat) : Bool :=
  cores.all fun d => (s.core d).enginesRun && !(s.ctx d).stopped .cl &&
    match (s.ctx d).clHead with
    | some h => (s.ctx d).clKey h == key
    | none => false

/-- The participants' commands have the form given. -/
def State.clAgree (s : State) (cores : List Nat) (form : Nat × Nat × Nat × Nat) : Bool :=
  (cores.filterMap fun d => ((s.ctx d).clHead).map (s.ctx d).clForm).all (· == form)

/-- COLLECTIVE_COMPLETION (R247, R250): once every participant has reached its matching command. While it waits, a
participant that comes to lie outside the domain, or the fabric's end, stops it. -/
def execCollectiveCompletion (s : State) : Res :=
  let c := s.cur
  match s.my.clHead with
  | none => .next s
  | some e =>
    if !s.me.enginesRun || s.my.stopped .cl then .next s
    else
      let key := s.my.clKey e
      let team := clTeam key.1 key.2.1
      match s.clScopeFault c key.1 team, s.clCores c team with
      | some f, _ => .next (s.clFault c e f 0)
      | none, none => s.clWait c e
      | none, some cores =>
        if !s.clReady cores key then s.clWait c e
        else if s.clAgree cores (s.my.clForm e) then .next (s.clMeet cores)
        else .next (s.clMismatch cores)

end Sys2Proof.Machine
end

