-- ==== Sys2Proof/Machine/Portable.lean ====
section
/-! DEFINITION. The portable form: the structural checks the Preheater makes of a body (07_encoding.md R143 to R145;
12_portable_form.md R253, R254, R257) and the specialisation cache (R260, R261). -/
namespace Sys2Proof.Machine

/-! ### Operation words (R143) -/

/-- The fields of an operation word. -/
structure OpWord where
  op : Nat
  mark : Nat
  group : Nat
  a : Nat
  b : Nat
  c : Nat
  imm : Nat
  deriving DecidableEq, Repr

def OpWord.of (w : Word) : OpWord :=
  let v := w.toNat
  { op := bitsNat v 63 54, mark := bitsNat v 53 52, group := bitsNat v 51 48, a := bitsNat v 47 36, b := bitsNat v 35 24,
    c := bitsNat v 23 12, imm := bitsNat v 11 0 }

/-- A control code of group 0 (R144). -/
def OpWord.control (w : OpWord) (code : Nat) : Bool := w.group == 0 && w.op == code

/-- A BLK of group 6 or 7. -/
def OpWord.block (w : OpWord) : Bool := w.group == 6 || w.group == 7

/-- How many literal words follow. -/
def OpWord.literals (w : OpWord) : Nat := if w.control 6 then 1 else if w.block then w.imm else 0

/-- Marks from earliest to latest binding: 00, 01, 11, 10 (R254). -/
def markRank (m : Nat) : Nat :=
  match m with
  | 0 => 0
  | 1 => 1
  | 3 => 2
  | _ => 3

/-! ### The native instruction of a word (R143; 07_encoding.md R115 to R121) -/

/-- Where an operand goes: a register field of the native instruction, read as an integer or a floating-point register, or
a field that holds an immediate. -/
inductive OpSlot where
  | int (f : Fin 4)
  | fp (f : Fin 4)
  | imm (f : Fin 4)
  deriving DecidableEq, Repr

/-- The field: 0 rs1, 1 rs2, 2 rd, 3 rs3. -/
def OpSlot.field : OpSlot → Fin 4
  | .int f => f
  | .fp f => f
  | .imm f => f

def OpSlot.isImm : OpSlot → Bool
  | .imm _ => true
  | _ => false

/-- Slots of an OP-FP word, by its funct5. -/
def fpSlots (f5 : Nat) : List OpSlot :=
  match f5 with
  | 0x08 | 0x0B | 0x18 | 0x1C => [.fp 0, .imm 1]
  | 0x1A | 0x1E => [.int 0, .imm 1]
  | _ => [.fp 0, .fp 1]

/-- Slots of a group 1 word. The register selector of a conversion is an immediate field. -/
def baseSlots (w : OpWord) : List OpSlot :=
  match w.op / 32 with
  | 0x08 => [.int 0, .int 1]
  | 0x09 => [.int 0, .fp 1]
  | 0x0B | 0x0C | 0x0E => [.int 0, .int 1]
  | 0x10 | 0x11 | 0x12 | 0x13 => [.fp 0, .fp 1, .fp 3]
  | 0x14 => fpSlots (w.imm / 4)
  | 0x03 => []
  | 0x1C => if w.op / 4 % 8 = 0 then (if w.imm = 9 then [.int 0, .int 1] else []) else if w.op / 4 % 8 < 4 then [.int 0] else [.imm 0]
  | _ => [.int 0]

/-- The operands of a word in the order A, B, C: registers rs1, rs2, then immediate fields (R115 to R120, R143; DEDUCED,
log 30). -/
def OpWord.slots (w : OpWord) : List OpSlot :=
  let f3 := w.op / 128
  let f7 := w.op % 128
  match w.group, f3 with
  | 1, _ => baseSlots w
  | 2, 1 => if 0x7C ≤ f7 then [.int 0, .int 1] else [.imm 0, .imm 1, .imm 2]
  | 2, 0 => [.int 0, .int 1]
  | 2, 5 => if f7 = 4 then [.imm 1] else [.int 0]
  | 2, 6 => if f7 < 0x40 then [.imm 0] else [.int 0, .int 1, .imm 2]
  | 2, _ => [.int 0]
  | 3, 0 => if f7 < 16 then [.imm 0, .imm 1, .imm 2] else [.int 0, .imm 1, .imm 2]
  | 3, 1 => if f7 ≤ 1 ∨ f7 = 3 then [.imm 0] else if f7 = 4 then [.int 0, .imm 2] else []
  | 3, 2 => if f7 = 3 then [.imm 0] else if f7 = 1 ∨ f7 = 2 then [] else [.int 0]
  | 3, 4 => [.int 0, .int 1]
  | 3, 5 => [.int 0]
  | 4, _ => [.int 0, .int 1]
  | 5, 0 => [.int 0, .imm 2]
  | 5, 1 => [.imm 0, .imm 1, .imm 2]
  | 5, 2 => [.int 0, .imm 2]
  | 5, 3 => [.imm 0]
  | 5, 4 => [.int 0, .int 1, .imm 2]
  | 5, 5 => [.int 0, .imm 1]
  | _, _ => []

/-- What a word writes to rd: nothing, an integer register (some false) or a floating-point one (some true). -/
def OpWord.dest (w : OpWord) : Option Bool :=
  let f3 := w.op / 128
  let f7 := w.op % 128
  let int := fun (b : Bool) => if b then some false else none
  match w.group, f3 with
  | 1, _ =>
    match w.op / 32 with
    | 0x01 | 0x10 | 0x11 | 0x12 | 0x13 => some true
    | 0x14 => some !([0x14, 0x18, 0x1C].contains (w.imm / 4))
    | 0x03 | 0x08 | 0x09 => none
    | 0x1C => int (w.op / 4 % 8 != 0)
    | _ => some false
  | 2, 2 => int (f7 != 6)
  | 2, 6 => int (f7 == 0 || f7 == 2)
  | 3, 1 => int (f7 == 1 || f7 == 2 || f7 == 5)
  | 3, 2 => int (f7 != 3)
  | 3, 3 => some false
  | 3, 4 => some false
  | 3, 5 => some false
  | 4, _ => int (decide (f3 < 4))
  | 5, 5 => some false
  | _, _ => none

/-- The native word under the numbers of its fields rs1, rs2, rd, rs3. -/
def OpWord.native (w : OpWord) (f : Fin 4 → Nat) : BitVec 32 :=
  let r := fun (i : Fin 4) => BitVec.ofNat 5 (f i)
  if w.group = 1 then
    let o := w.op / 32
    let f3 := BitVec.ofNat 3 (w.op / 4)
    let op : BitVec 7 := BitVec.ofNat 5 o ++ 3#2
    let imm := BitVec.ofNat 12 w.imm
    if o = 0x08 ∨ o = 0x09 then imm.extractLsb' 5 7 ++ r 1 ++ r 0 ++ f3 ++ imm.extractLsb' 0 5 ++ op
    else if 0x10 ≤ o ∧ o ≤ 0x13 then r 3 ++ imm.extractLsb' 0 2 ++ r 1 ++ r 0 ++ f3 ++ r 2 ++ op
    else if o = 0x0B ∨ o = 0x0C ∨ o = 0x0E ∨ o = 0x14 ∨ (o = 0x1C ∧ f3 = 0 ∧ w.imm = 9) then
      imm.extractLsb' 0 7 ++ r 1 ++ r 0 ++ f3 ++ r 2 ++ op
    else imm ++ r 0 ++ f3 ++ r 2 ++ op
  else
    let op : BitVec 7 := [0x0B#7, 0x2B#7, 0x5B#7, 0x7B#7].getD (w.group - 2) 0
    rtype (BitVec.ofNat 7 w.op) (r 1) (r 0) (BitVec.ofNat 3 (w.op / 128)) (r 2) op

/-- The immediate field holds nothing beyond what the table gives it: zero in groups 2 to 5, funct7 alone in an R-type word,
and its two low bits in one with a third operand. -/
def OpWord.tight (w : OpWord) : Bool :=
  if w.group = 1 then
    let o := w.op / 32
    w.op % 4 == 0 && (if o = 0x0B ∨ o = 0x0C ∨ o = 0x0E ∨ o = 0x14 then decide (w.imm < 128)
      else if 0x10 ≤ o ∧ o ≤ 0x13 then decide (w.imm < 4) else true)
  else w.imm == 0

/-- Opcodes a group 1 word may not have: BRANCH, JALR, JAL, LUI, AUIPC, and the four custom ones (R145). -/
def OpWord.barred (w : OpWord) : Bool :=
  (w.group == 1 && [0x18, 0x19, 0x1B, 0x0D, 0x05, 0x02, 0x0A, 0x16, 0x1E].contains (w.op / 32)) ||
  (w.group == 3 && w.op == 0x180)

/-- The values of the word's immediate operands, by field: 0 for an operand that is absent. -/
def OpWord.operandAt (w : OpWord) (xs : List Nat) (f : Fin 4) : Nat :=
  ((w.slots.zip xs).find? fun e => e.1.field == f).elim 0 (·.2)

/-- A word of groups 1 to 5 is one native instruction, its register operands anything and its immediate operands xs. -/
def OpWord.assigned (w : OpWord) (xs : List Nat) : Bool :=
  w.tight && !w.barred &&
  ((accepted (decodeStoker (w.native fun f => if f = 2 ∧ w.dest.isSome then 5 else w.operandAt xs f))).isSome)

/-- A group 1 word that may be folded: the opcodes OP, OP-IMM, OP-32 and OP-IMM-32 (R255). -/
def OpWord.foldable (w : OpWord) : Bool := w.group == 1 && [0x04, 0x0C, 0x06, 0x0E].contains (w.op / 32)

/-- The value a foldable word's instruction writes, from those of rs1 and rs2 (R255). -/
def OpWord.fold (w : OpWord) (x y : Word) : Word :=
  match accepted (decodeStoker (w.native fun _ => 0)) with
  | some (.rv64Base (.alu op _ _ _)) => aluVal op x y
  | some (.rv64Base (.aluImm op _ _ imm)) => immVal op x imm
  | some (.rv64Base (.shift op _ _ sh)) => shiftVal op x sh
  | some (.rv64Base (.unary op _ _)) => unVal op x
  | _ => 0

/-! ### The checks of a body (R145, R253, R254, R257) -/

/-- One operation word that has been read: whether it has a value, its rank of binding time, the regions it lies in, and
for a LOOP the region it opens, inside which alone it has its value. -/
structure PWord where
  value : Bool
  rank : Nat
  path : List Nat
  loop : Option Nat
  /-- The value of an IMM, EXT or UNI with mark 00 or 01. -/
  known : Option Word
  deriving DecidableEq, Repr

/-- A scan of a body: words read (newest first), open regions with their kind (true: an IF whose ELSE may come), and the
next region's number. -/
structure PScan where
  words : List PWord
  open' : List (Nat × Bool)
  next : Nat
  deriving DecidableEq, Repr

/-- The ranks of an operand at distance d, or none where it names no readable value (R145, R253). -/
def PScan.operand (z : PScan) (d : Nat) : Option (List Nat) :=
  if d = 0 then some []
  else
    match z.words[d - 1]? with
    | none => none
    | some w =>
      let here := z.open'.map (·.1)
      let inside := w.path.all here.contains && (match w.loop with
        | some r => here.contains r
        | none => true)
      if w.value && inside then some [w.rank] else none

/-- The operands of a word, in one list of ranks. -/
def PScan.operands (z : PScan) (ds : List Nat) : Option (List Nat) := (ds.mapM z.operand).map List.flatten

/-- The regions that are open. -/
def PScan.path (z : PScan) : List Nat := z.open'.map (·.1)

def PScan.add (z : PScan) (w : PWord) : PScan := { z with words := w :: z.words }

/-- A word without a value. -/
def PScan.plain (z : PScan) : PScan := z.add { value := false, rank := 0, path := z.path, loop := none, known := none }

/-- The values a word's operand slots take while it is checked: a register operand is register 6, an immediate one its
known value, an absent one 0; none where an immediate operand is not known or does not fit its five bits (R143, R145). -/
def PScan.slotValues (z : PScan) (ss : List OpSlot) (ds : List Nat) : Option (List Nat) :=
  (ss.zip ds).mapM fun e =>
    if e.2 = 0 then some 0
    else if e.1.isImm then
      match (z.words[e.2 - 1]?).bind (·.known) with
      | some v => if v.toNat < 32 then some v.toNat else none
      | none => none
    else some 6

/-- Literal words form one valid block, with zero halfwords after it (R143, R145, R123). -/
def literalBlock (mx : Bool) (lits : List Word) : Bool :=
  match lits.flatMap fun w => (List.range 4).map fun i => w.extractLsb' (16 * i) 16 with
  | h0 :: h1 :: hs =>
    match blockHdr mx h0 h1 with
    | some b =>
      decide (lits.length = (b.length + 5) / 4) && decide (b.length ≤ hs.length) && (hs.drop b.length).all (· == 0) &&
      framed mx (b.length + 1) (hs.take b.length)
    | none => false
  | _ => false

/-- A control word (R144), its latest operand of rank `late`; none where it is refused. -/
def PScan.control (z : PScan) (marks : List (BitVec 2)) (us : List Word) (w : OpWord) (late : Nat) (rest : List Word) :
    Option PScan :=
  let rank := markRank w.mark
  let word : PWord := { value := true, rank := rank, path := z.path, loop := none, known := none }
  let opens := decide (w.a ≠ 0) && z.operand w.a == some [rank] && decide (late ≤ rank) && decide (z.open'.length < 16)
  let fixed := fun (z : PScan) => if w.mark = 0 ∧ late = 0 then some z else none
  match w.op with
  | 1 =>
    if !opens then none
    else
      let z' := z.add { word with rank := 2, loop := some z.next }
      some { z' with open' := (z.next, false) :: z.open', next := z.next + 1 }
  | 2 => if !opens then none else some { z.plain with open' := (z.next, true) :: z.open', next := z.next + 1 }
  | 3 =>
    match z.open' with
    | (_, true) :: rest => fixed { z.plain with open' := (z.next, false) :: rest, next := z.next + 1 }
    | _ => none
  | 4 =>
    match z.open' with
    | _ :: rest => fixed { z.plain with open' := rest }
    | [] => none
  | 5 => if 0x800 < w.imm then none else fixed z.plain
  | 6 => if rest.isEmpty then none else fixed (z.add { word with known := rest.head? })
  | 7 => fixed z.plain
  | 8 =>
    match marks[w.imm]? with
    | none => none
    | some m =>
      if rank < markRank m.toNat ∨ rank < late then none
      else some (z.add { word with known := if w.mark ≤ 1 then us[w.imm]? else none })
  | 9 => fixed (z.add { word with known := some (BitVec.ofInt 64 (sextNat 12 w.imm)) })
  | _ => none

/-- One word read, before the words `rest`; none where the body is refused. Uniforms are given by their marks and values. -/
def PScan.step (z : PScan) (marks : List (BitVec 2)) (us : List Word) (w : OpWord) (rest : List Word) : Option PScan :=
  match z.operands [w.a, w.b, w.c] with
  | none => none
  | some ranks =>
    let late := ranks.foldl max 0
    let rank := markRank w.mark
    let word : PWord := { value := w.dest.isSome, rank := rank, path := z.path, loop := none, known := none }
    if w.group = 0 then z.control marks us w late rest
    else if w.block then
      if w.op ≠ 0 ∨ w.imm = 0 ∨ w.mark ≠ 1 ∨ 1 < late ∨ rest.length < w.imm ∨ !literalBlock (w.group == 7) (rest.take w.imm) then none
      else some (z.add { word with value := true })
    else if 7 < w.group then none
    else
      match z.slotValues w.slots [w.a, w.b, w.c] with
      | none => none
      | some xs =>
        if !w.assigned xs ∨ rank < late ∨ (!w.foldable ∧ rank < 2) then none else some (z.add word)

/-- A body read to its end, its literal words skipped: none when it passes, else the index of the operation refused (the
body's length when a region is still open there). -/
def PScan.run (marks : List (BitVec 2)) (us : List Word) : List Word → (i skip : Nat) → PScan → Option Nat
  | [], i, _, z => if z.open'.isEmpty then none else some i
  | _ :: ws, i, skip + 1, z => PScan.run marks us ws (i + 1) skip z
  | w :: ws, i, 0, z =>
    match z.step marks us (OpWord.of w) ws with
    | none => some i
    | some z => PScan.run marks us ws (i + 1) (OpWord.of w).literals z

/-- The operation index that a launch error of the body's form names, under the uniforms us; none where the body passes the
checks of R145, R253, R254 and R257. -/
def KernelRec.bodyError (k : KernelRec) (us : List Word) : Option Nat :=
  if 2 ^ 20 < k.body.length then some (2 ^ 20)
  else PScan.run (k.uniforms.map (·.mark)) us k.body 0 0 { words := [], open' := [], next := 0 }

/-! ### The key (R260) -/

/-- 64-bit FNV-1a. -/
def fnv1a (bs : List Byte) : Nat :=
  bs.foldl (fun h b => (h ^^^ b.toNat) * 0x100000001B3 % 2 ^ 64) 0xCBF29CE484222325

def KernelRec.bodyBytes (k : KernelRec) : List Byte := k.body.flatMap fun w => leBytes 8 w.toNat

/-- The exact bytes of the uniforms marked 00 or 01, in declaration order. -/
def KernelRec.keyBytes (k : KernelRec) (us : List Word) : List Byte :=
  (k.uniforms.zip us).flatMap fun u => if u.1.mark.toNat ≤ 1 then leBytes u.1.bytes u.2.toNat else []

/-- A launch of kernel k with uniforms us hits the entry: key, body length and uniform bytes are equal. Every entry was
built under the part's own CGEN. -/
def CacheEnt.hit (e : CacheEnt) (k : KernelRec) (us : List Word) : Bool :=
  e.valid && e.khash == fnv1a k.bodyBytes && e.udigest == fnv1a (k.keyBytes us) && e.bodyLen == k.body.length &&
  e.ubytes == k.keyBytes us

/-! ### Room in the cache (R261) -/

/-- An entry of the back-map table (R262): [51:40] ITER, [39:20] OPIDX, [19:0] OFF. -/
def backWord (b : BackEntry) : Nat := b.iter.toNat * 2 ^ 40 + b.opidx.toNat * 2 ^ 20 + b.off % 2 ^ 20

/-- A residual as it stands in memory: its code, and from the next multiple of 8 on its back-map table (R262; DESIGN CHOICE, log 142). -/
def residualBytes (r : Residual) : List Byte :=
  r.code ++ List.replicate ((8 - r.code.length % 8) % 8) 0 ++ r.back.flatMap fun b => leBytes 8 (backWord b)

/-- Bytes of a residual with its segment and back-map tables. -/
def residualSize (r : Residual) : Nat := ((residualBytes r).length + Config.segEntryBytes * r.segs.length + 7) / 8 * 8

/-- The size of the cache's region. -/
def cacheBytes : Nat := 2 ^ 24

/-- The lowest start of a free range of n units below `room`, beside the used ranges. -/
def firstFit (room : Nat) (used : List (Nat × Nat)) (n : Nat) : Option Nat :=
  let fits := fun (b : Nat) => decide (b + n ≤ room) && used.all fun u => !overlapR b n u.1 u.2
  ((0 :: used.map fun u => u.1 + u.2).filter fits).foldl (fun m b => match m with
    | some x => some (min x b)
    | none => some b) none

/-- The cache's entries after unpinned ones, least recently used first, made room for n bytes, and where the n bytes go;
none where pinned entries leave no room. -/
def makeRoom : (fuel : Nat) → List CacheEnt → Nat → Option (List CacheEnt × Nat)
  | 0, _, _ => none
  | fuel + 1, es, n =>
    match firstFit cacheBytes (es.map fun e => (e.addr, residualSize e.res)) n with
    | some a => some (es, a)
    | none =>
      let free := es.filter (·.pins == 0)
      match free.head? with
      | none => none
      | some e =>
        let old := free.foldl (fun (m : CacheEnt) x => if x.used < m.used then x else m) e
        makeRoom fuel (es.filter (·.key != old.key)) n

/-- A launch pins entry `key`. -/
def State.pin (s : State) (key : Nat) : State :=
  { s with stamp := s.stamp + 1, cache := s.cache.map fun e =>
      if e.key = key then { e with pins := e.pins + 1, used := s.stamp } else e }

/-- A launch that used entry `key` has ended; an entry an INVAL reached goes with its last pin. -/
def State.unpin (s : State) (key : Nat) : State :=
  { s with cache := (s.cache.map fun e => if e.key = key then { e with pins := e.pins - 1 } else e).filter fun e =>
      !(e.pins == 0 && e.doomed) }

/-- INVAL: entries of a body, or all, are invalid at once when unpinned, and when their last task ends when pinned. -/
def State.invalidate (s : State) (all : Bool) (khash : Nat) : State :=
  let named := fun (e : CacheEnt) => all || e.khash == khash
  { s with cache := (s.cache.filter fun e => !(named e && e.pins == 0)).map fun e =>
      if named e then { e with doomed := true } else e }

end Sys2Proof.Machine
end

