-- ==== Sys2Proof/Machine/Preheater.lean ====
section
/-! DEFINITION. The Preheater: what a Flaja body's launch specialises to (12_portable_form.md R255 to R259, R262).
Instruction selection, register assignment and the materialisation of constants are not architectural (R258): the ones here
are the model's (DESIGN CHOICE, log 17), and the registers of values follow a list of preferences that arrives from outside. -/
namespace Sys2Proof.Machine

/-! ### The body as a tree -/

/-- A body's words, its regions nested. Each word has its number among the operation words and its index in the body; a
region keeps the index of its END and of its ELSE. -/
inductive PNode where
  | op (n i : Nat) (w : OpWord) (lits : List Word)
  | loop (n i : Nat) (w : OpWord) (body : List PNode) (fin : Nat)
  | cond (n i : Nat) (w : OpWord) (thn els : List PNode) (mid : Option Nat) (fin : Nat)

/-- A region that is still open: the word that opened it, its nodes (newest first), and its first arm once ELSE has closed it. -/
structure PFrame where
  head : Option (Nat × Nat × OpWord)
  acc : List PNode
  thn : Option (List PNode × Nat)

def PFrame.top : PFrame := { head := none, acc := [], thn := none }

/-- The region that END at index `fin` closes. -/
def PFrame.close (f : PFrame) (fin : Nat) : Option PNode :=
  match f.head, f.thn with
  | none, _ => none
  | some (n, i, w), some (t, mid) => some (.cond n i w t f.acc.reverse (some mid) fin)
  | some (n, i, w), none => some (if w.op = 1 then .loop n i w f.acc.reverse fin else .cond n i w f.acc.reverse [] none fin)

/-- The tree of a body that passes the checks. -/
def bodyTree : List Word → (i n skip : Nat) → List PFrame → List PNode
  | [], _, _, _, fs => fs.getLast?.elim [] fun f => f.acc.reverse
  | _ :: ws, i, n, skip + 1, fs => bodyTree ws (i + 1) n skip fs
  | w :: ws, i, n, 0, fs =>
    let o := OpWord.of w
    let go := bodyTree ws (i + 1) (n + 1) o.literals
    match fs with
    | [] => []
    | f :: fs =>
      if o.control 1 || o.control 2 then go ({ head := some (n, i, o), acc := [], thn := none } :: f :: fs)
      else if o.control 3 then go ({ f with acc := [], thn := some (f.acc.reverse, i) } :: fs)
      else if o.control 4 then
        match f.close i, fs with
        | some x, g :: fs => go ({ g with acc := x :: g.acc } :: fs)
        | _, _ => []
      else go ({ f with acc := .op n i o (ws.take o.literals) :: f.acc } :: fs)

/-! ### Constants in registers -/

def nativeAddi (rd rs : Nat) (imm : BitVec 12) : BitVec 32 :=
  (RvInstr.aluImm .addi (BitVec.ofNat 5 rd) (BitVec.ofNat 5 rs) imm).encode

/-- The instructions that load a constant into register rd. -/
def loadConst : (fuel : Nat) → (rd : Nat) → Word → List (BitVec 32)
  | 0, _, _ => []
  | fuel + 1, rd, v =>
    let r := BitVec.ofNat 5 rd
    let lo : BitVec 12 := v.extractLsb' 0 12
    let hi : Word := (v - lo.signExtend 64).sshiftRight 12
    if v = lo.signExtend 64 then [nativeAddi rd 0 lo]
    else if v = sext32 v then
      (RvInstr.lui r (hi.extractLsb' 0 20)).encode :: if lo = 0 then [] else [(RvInstr.aluImm .addiw r r lo).encode]
    else
      loadConst fuel rd hi ++ (RvInstr.shift .slli r r 12).encode :: if lo = 0 then [] else [nativeAddi rd rd lo]

/-! ### Specialisation (R255, R256) -/

/-- A value in the residual: that of an absent operand; known at specialisation, with the index and copy of its word; the
result of an emitted word, by its number, in a floating-point register or not; uniform k, in the register the task finds it
in (21_command_processor.md R325); the address of a block; or what a folded word forms of such addresses, known once the
residual's place is. -/
inductive RVal where
  | absent
  | known (v : Word) (i m : Nat)
  | val (id : Nat) (fp : Bool)
  | arg (k : Nat)
  | blk (id i m : Nat)
  | form (w : OpWord) (a b : RVal) (i m : Nat)
  deriving DecidableEq, Repr

/-- A value that is known once block `id` stands at `addr id`. -/
def RVal.eval (addr : Nat → Word) : RVal → Word
  | .known v _ _ => v
  | .blk id _ _ => addr id
  | .form w a b _ _ => w.fold (a.eval addr) (b.eval addr)
  | .absent | .val _ _ | .arg _ => 0

/-- Known at specialisation: the address of a block is, though its number comes with the residual's place (R255). -/
def RVal.fixed : RVal → Bool
  | .absent | .known _ _ _ | .blk _ _ _ | .form _ _ _ _ _ => true
  | .val _ _ | .arg _ => false

/-- The eight instructions that load any constant into register rd. -/
def loadWide (rd : Nat) (v : Word) : List (BitVec 32) :=
  let r := BitVec.ofNat 5 rd
  let lo := fun (v : Word) => v.extractLsb' 0 12
  let up := fun (v : Word) => (v - (lo v).signExtend 64).sshiftRight 12
  let v1 := up v
  let v2 := up v1
  let v3 := up v2
  let shift := (RvInstr.shift .slli r r 12).encode
  [(RvInstr.lui r ((up v3).extractLsb' 0 20)).encode, (RvInstr.aluImm .addiw r r (lo v3)).encode, shift, nativeAddi rd rd (lo v2),
   shift, nativeAddi rd rd (lo v1), shift, nativeAddi rd rd (lo v)]

/-- The residual before registers are assigned. Each node has the index of its word and the copy number of R262; the value
`id` of a loop is its index, and `id + 1` its bound. -/
inductive RNode where
  | op (i m : Nat) (w : OpWord) (args : List (OpSlot × RVal)) (id : Nat)
  | seg (i m : Nat) (imm : Nat)
  | keep
  | blk (i m id : Nat) (lits : List Word)
  | loop (i m id : Nat) (count : RVal) (body : List RNode) (fin : Nat)
  | cond (i m : Nat) (c : RVal) (thn els : List RNode) (mid : Option Nat) (fin : Nat)

/-- A word for which x0 is not a register that holds 0: a CSR access from x0 writes nothing, and `sfence.vma` names every
address with it. -/
def OpWord.needsReg (w : OpWord) : Bool := w.group == 1 && w.op / 32 == 0x1C

/-- Bytes of the instructions that bring a value to a register of the given kind, where `reg`, not to x0. -/
def RVal.size (fp reg : Bool) : RVal → Nat
  | .absent => 0
  | .known v _ _ => if v = 0 then (if fp || reg then 4 else 0) else 4 * ((loadConst 6 5 v).length + if fp then 1 else 0)
  | .val _ f => if f = fp then 0 else 4
  | .arg _ => if fp then 4 else 0
  | .blk _ _ _ => if fp then 12 else 8
  | .form _ _ _ _ _ => if fp then 36 else 32

def OpSlot.size (reg : Bool) (a : OpSlot × RVal) : Nat :=
  match a.1 with
  | .int _ => a.2.size false reg
  | .fp _ => a.2.size true reg
  | .imm _ => 0

/-- What specialisation goes by: the uniforms' declared marks and values, whether jumps are far, and the limit of R258. -/
structure Launching where
  marks : List (BitVec 2)
  us : List Word
  far : Bool
  limit : Nat

/-- Bytes of a jump. -/
def Launching.jump (x : Launching) : Nat := if x.far then 8 else 4

/-- Specialisation so far: the next value's number, the values of words by their number, and the residual's bytes. -/
structure Spec where
  next : Nat
  env : List (Nat × RVal)
  size : Nat

def Spec.start : Spec := { next := 0, env := [], size := 0 }

/-- The value at distance d of word n, whose index is i in copy m; an absent operand reads as 0. -/
def Spec.value (s : Spec) (n d i m : Nat) : RVal :=
  if d = 0 then .absent else ((s.env.find? fun e => e.1 == n - d).map (·.2)).getD (.known 0 i m)

def Spec.set (s : Spec) (n : Nat) (v : RVal) : Spec := { s with env := (n, v) :: s.env }

def RVal.known? : RVal → Option Word
  | .absent => some 0
  | .known v _ _ => some v
  | _ => none

/-- The value of the register operand in a field. -/
def valueIn (args : List (OpSlot × RVal)) (f : Fin 4) : RVal := ((args.find? fun a => a.1.field == f).map (·.2)).getD .absent

/-- The value of a word folded over known ones (R255). -/
def OpWord.folded (w : OpWord) (args : List (OpSlot × RVal)) (i m : Nat) : RVal :=
  let a := valueIn args 0
  let b := valueIn args 1
  match a.known?, b.known? with
  | some x, some y => .known (w.fold x y) i m
  | _, _ => .form w a b i m

/-- A UNI's value is known: its uniform belongs to the key, and its mark does not leave it to run time. -/
def Launching.uniKnown (x : Launching) (dyn : Bool) (w : OpWord) : Bool :=
  decide (w.mark ≤ 1) || (w.mark == 3 && !dyn && (x.marks[w.imm]?).any fun m => decide (m.toNat ≤ 1))

/-- One word that opens no region, every mark treated as 10 when `dyn`: a known value, a node, or both neither. -/
def Launching.op (x : Launching) (dyn : Bool) (m n i : Nat) (w : OpWord) (lits : List Word) (s : Spec) : List RNode × Spec :=
  if w.control 6 then ([], s.set n (.known (lits.headD 0) i m))
  else if w.control 8 then
    ([], s.set n (if x.uniKnown dyn w then .known (x.us.getD w.imm 0) i m else .arg w.imm))
  else if w.control 9 then ([], s.set n (.known (BitVec.ofInt 64 (sextNat 12 w.imm)) i m))
  else if w.control 5 then ([.seg i m w.imm], { s with size := s.size + 4 })
  else if w.control 7 then ([.keep], s)
  else if w.block then
    ([.blk i m s.next lits], { (s.set n (.blk s.next i m)) with next := s.next + 1, size := s.size + 8 * lits.length })
  else
    let args := w.slots.zip ([w.a, w.b, w.c].map fun d => s.value n d i m)
    if !dyn && w.foldable && w.mark != 2 && args.all fun a => a.2.fixed then ([], s.set n (w.folded args i m))
    else
      ([.op i m w args s.next],
        { (s.set n (.val s.next (w.dest == some true))) with
          next := s.next + 1, size := s.size + 4 + (args.map (OpSlot.size w.needsReg)).sum })

mutual
/-- Nodes in order, in copy m of the innermost unrolled loop. -/
def Launching.list (x : Launching) (dyn : Bool) (m : Nat) : List PNode → Spec → List RNode × Spec
  | [], s => ([], s)
  | p :: ps, s =>
    let r := x.node dyn m p s
    let q := x.list dyn m ps r.2
    (r.1 ++ q.1, q.2)

/-- One node. A region whose specialisation takes the residual past the limit is emitted with every mark in it treated as
10 (R258). One whose count or condition is formed of a block's address stays as it is, since that address follows from the
choice (DESIGN CHOICE, log 141). -/
def Launching.node (x : Launching) (dyn : Bool) (m : Nat) : PNode → Spec → List RNode × Spec
  | .op n i w lits, s => x.op dyn m n i w lits s
  | .loop n i w body fin, s =>
    let c := s.value n w.a i m
    let kept := fun (dyn : Bool) =>
      let b := x.list dyn m body
        { next := s.next + 2, env := (n, .val s.next false) :: s.env, size := s.size + c.size false false + 12 + 2 * x.jump }
      ([RNode.loop i m s.next c b.1 fin], { b.2 with env := s.env })
    let unrolled := fun (count : Nat) =>
      (List.range count).foldl (fun (r : List RNode × Spec) t =>
        let b := x.list false t body { r.2 with env := (n, .known (BitVec.ofNat 64 t) i m) :: s.env }
        (r.1 ++ b.1, { b.2 with env := s.env })) ([], s)
    if dyn then kept true
    else
      let r := match c.known? with
        | some v => if v.toNat ≤ 64 then unrolled v.toNat else kept false
        | none => kept false
      if x.limit < r.2.size then kept true else r
  | .cond n i w thn els mid fin, s =>
    let c := s.value n w.a i m
    let both := fun (dyn : Bool) =>
      let t := x.list dyn m thn { s with size := s.size + c.size false false + 4 + x.jump }
      let e := x.list dyn m els { t.2 with env := s.env, size := t.2.size + if mid.isSome then x.jump else 0 }
      ([RNode.cond i m c t.1 e.1 mid fin], { e.2 with env := s.env })
    if dyn then both true
    else
      let r := match c.known? with
        | some v =>
          let a := if v ≠ 0 then x.list false m thn s else x.list false m els s
          (a.1, { a.2 with env := s.env })
        | none => both false
      if x.limit < r.2.size then both true else r
end

/-! ### Live values -/

/-- What a register holds: uniform k, or the value of a number. -/
def RVal.key : RVal → Option Nat
  | .arg k => some k
  | .val id _ => some (id + 8)
  | _ => none

/-- Union of two sets. -/
def joinKeys (a b : List Nat) : List Nat := a.filter (!b.contains ·) ++ b

mutual
/-- The values needed before nodes, of those needed after them. -/
def needsList : List RNode → List Nat → List Nat
  | [], out => out
  | x :: xs, out => needsNode x (needsList xs out)

def needsNode : RNode → List Nat → List Nat
  | .op _ _ _ args id, out => joinKeys (args.filterMap fun a => a.2.key) (out.filter (· != id + 8))
  | .loop _ _ id c body _, out =>
    joinKeys c.key.toList (joinKeys ((needsList body []).filter fun k => k != id + 8 && k != id + 9) out)
  | .cond _ _ c thn els _ _, out => joinKeys c.key.toList (joinKeys (needsList thn out) (needsList els out))
  | .seg _ _ _, out => out
  | .keep, out => out
  | .blk _ _ _ _, out => out
end

/-! ### Code -/

/-- An instruction before the places of labels are known: the parts of an address, of a constant formed of addresses, or of
a far jump stand side by side. -/
inductive Ins where
  | word (w : BitVec 32)
  | jump (l : Nat)
  | hi (rd l : Nat)
  | lo (rd l : Nat)
  | go (l : Nat)
  | wide (rd k : Nat) (v : RVal)
  deriving DecidableEq, Repr

/-- One emitted instruction with the word it belongs to; `own`: it opens a back-map entry of its own (R257, KEEP). -/
structure EmitItem where
  i : Nat
  m : Nat
  own : Bool
  ins : Ins
  deriving DecidableEq, Repr

/-- A register in use: its value, kind and number. -/
structure HeldReg where
  key : Nat
  fp : Bool
  reg : Nat
  deriving DecidableEq, Repr

/-- Emission so far, lists newest first. Labels with an even number are blocks'. -/
structure Emit where
  items : List EmitItem
  off : Nat
  held : List HeldReg
  temps : List (Bool × Nat)
  picks : List Nat
  labels : List (Nat × Nat)
  next : Nat
  blocks : List (Nat × Nat × Nat × List Word)
  segs : List SegEntry
  own : Bool
  /-- The first operation at which more values are live than there are registers. -/
  fail : Option Nat
  far : Bool
  deriving DecidableEq, Repr

def Emit.put (e : Emit) (i m : Nat) (x : Ins) : Emit :=
  { e with items := { i := i, m := m, own := e.own, ins := x } :: e.items, off := e.off + 4, own := false }

def Emit.words (e : Emit) (i m : Nat) (ws : List (BitVec 32)) : Emit := ws.foldl (fun e w => e.put i m (.word w)) e

def Emit.jump (e : Emit) (i m l : Nat) : Emit := if e.far then (e.put i m (.hi 1 l)).put i m (.go l) else e.put i m (.jump l)

/-- The label stands here. -/
def Emit.here (e : Emit) (l : Nat) : Emit := { e with labels := (l, e.off) :: e.labels }

/-- Registers whose values are needed no more are free. -/
def Emit.prune (e : Emit) (keys : List Nat) : Emit := { e with held := e.held.filter fun h => keys.contains h.key, temps := [] }

/-- A free register, the preferred one when it is free: x5 to x31, or f0 to f31 (R258). -/
def Emit.alloc (e : Emit) (i : Nat) (fp : Bool) : Nat × Emit :=
  let used := (e.held.filter (·.fp == fp)).map (·.reg) ++ (e.temps.filter (·.1 == fp)).map (·.2)
  let free := (List.range 32).filter fun r => (fp || decide (5 ≤ r)) && !used.contains r
  let e' := { e with picks := e.picks.tail }
  match free with
  | [] => (5, { e' with fail := e.fail <|> some i })
  | r :: _ =>
    match e.picks.head? with
    | some p => (if free.contains p then p else r, e')
    | none => (r, e')

/-- A new register for one word's operand. -/
def Emit.temp (e : Emit) (i : Nat) (fp : Bool) : Nat × Emit :=
  let r := e.alloc i fp
  (r.1, { r.2 with temps := (fp, r.1) :: r.2.temps })

def moveToFp (rd rs : Nat) : BitVec 32 := (RvInstr.intMvToFp true (BitVec.ofNat 5 rd) (BitVec.ofNat 5 rs)).encode

def moveToInt (rd rs : Nat) : BitVec 32 := (RvInstr.fpMvToInt true (BitVec.ofNat 5 rd) (BitVec.ofNat 5 rs)).encode

def Emit.regOf (e : Emit) (key : Nat) : Nat := ((e.held.find? (·.key == key)).map (·.reg)).getD 0

/-- The register in which word i of copy m finds an operand, after what brings it there; where `reg`, a 0 too stands in a
register (R259). Register x1 is scratch. -/
def Emit.operand (e : Emit) (i m : Nat) (fp reg : Bool) (v : RVal) : Nat × Emit :=
  match v with
  | .absent => (0, e)
  | .known v vi vm =>
    if !fp then
      if v = 0 ∧ !reg then (0, e)
      else
        let r := e.temp i false
        (r.1, r.2.words vi vm (loadConst 6 r.1 v))
    else
      let r := e.temp i true
      (r.1, r.2.words vi vm (if v = 0 then [moveToFp r.1 0] else loadConst 6 1 v ++ [moveToFp r.1 1]))
  | .blk id bi bm =>
    let r := e.temp i fp
    let rd := if fp then 1 else r.1
    let e := (r.2.put bi bm (.hi rd (2 * id))).put bi bm (.lo rd (2 * id))
    (r.1, if fp then e.put bi bm (.word (moveToFp r.1 1)) else e)
  | .form w a b vi vm =>
    let r := e.temp i fp
    let rd := if fp then 1 else r.1
    let e := (List.range 8).foldl (fun e k => e.put vi vm (.wide rd k (.form w a b vi vm))) r.2
    (r.1, if fp then e.put vi vm (.word (moveToFp r.1 1)) else e)
  | .arg k =>
    if fp then
      let r := e.temp i true
      (r.1, r.2.put i m (.word (moveToFp r.1 (e.regOf k))))
    else (e.regOf k, e)
  | .val id f =>
    let s := e.regOf (id + 8)
    if f = fp then (s, e)
    else
      let r := e.temp i fp
      (r.1, r.2.put i m (.word (if fp then moveToFp r.1 s else moveToInt r.1 s)))

/-- One operand of a word, its field's number before those found. -/
def Emit.arg (i m : Nat) (reg : Bool) (r : List (Fin 4 × Nat) × Emit) (a : OpSlot × RVal) : List (Fin 4 × Nat) × Emit :=
  match a.1 with
  | .imm f => ((f, (a.2.known?.getD 0).toNat) :: r.1, r.2)
  | .int f =>
    let o := r.2.operand i m false reg a.2
    ((f, o.1) :: r.1, o.2)
  | .fp f =>
    let o := r.2.operand i m true reg a.2
    ((f, o.1) :: r.1, o.2)

/-- A word's native instruction, its operands brought to registers first, its result in a register of its own while it is
needed. -/
def Emit.op (e : Emit) (i m : Nat) (w : OpWord) (args : List (OpSlot × RVal)) (id : Nat) (after : List Nat) : Emit :=
  let r := args.reverse.foldl (Emit.arg i m w.needsReg) ([], e)
  let e := r.2.prune after
  let field := fun (f : Fin 4) => ((r.1.find? (·.1 == f)).map (·.2)).getD 0
  match w.dest with
  | none => e.put i m (.word (w.native field))
  | some fp =>
    let d := if after.contains (id + 8) || fp then e.alloc i fp else (0, e)
    let e := if after.contains (id + 8) then { d.2 with held := { key := id + 8, fp := fp, reg := d.1 } :: d.2.held } else d.2
    e.put i m (.word (w.native fun f => if f = 2 then d.1 else field f))

/-- `sk.segend`, and the segment-table entry at the PC that follows it (R257). -/
def Emit.seg (e : Emit) (segs : List SegEntry) (i m imm : Nat) : Emit :=
  let w : OpWord := { op := 0x180, mark := 2, group := 3, a := 0, b := 0, c := 0, imm := 0 }
  let e := e.put i m (.word (w.native fun f => if f = 0 then imm / 2 ^ 11 else 0))
  match segs[imm % 2 ^ 11]? with
  | some g => { e with segs := { g with pc := e.off } :: e.segs }
  | none => e

mutual
/-- Nodes in order, before a point where the values `out` are needed. -/
def emitList (segs : List SegEntry) : List RNode → (out : List Nat) → Emit → Emit
  | [], _, e => e
  | x :: xs, out, e => emitList segs xs out (emitNode segs x (needsList xs out) e)

def emitNode (segs : List SegEntry) : RNode → (after : List Nat) → Emit → Emit
  | .op i m w args id, after, e => (e.prune (needsNode (.op i m w args id) after)).op i m w args id after
  | .seg i m imm, _, e => e.seg segs i m imm
  | .keep, _, e => { e with own := true }
  | .blk i m id lits, _, e => { e with blocks := (id, i, m, lits) :: e.blocks }
  | .loop i m id c body fin, after, e =>
    let through := needsNode (.loop i m id c body fin) after
    let b := (e.prune through).operand i m false false c
    let e := { b.2 with held := { key := id + 9, fp := false, reg := b.1 } :: b.2.held, temps := [] }
    let x := e.alloc i false
    let e := { x.2 with held := { key := id + 8, fp := false, reg := x.1 } :: x.2.held, next := x.2.next + 2 }
    let top := 2 * e.next + 1
    let out := top + 2
    let e := (e.put i m (.word (nativeAddi x.1 0 0))).here top
    let skip : BitVec 12 := if e.far then 6 else 4
    let e := e.put i m (.word (RvInstr.branch .ltu (BitVec.ofNat 5 x.1) (BitVec.ofNat 5 b.1) skip).encode)
    let e := emitList segs body ((id + 8) :: (id + 9) :: through) (e.jump i m out)
    let e := e.put fin m (.word (nativeAddi x.1 x.1 1))
    ((e.jump fin m top).here out).prune after
  | .cond i m c thn els mid fin, after, e =>
    let b := (e.prune (needsNode (.cond i m c thn els mid fin) after)).operand i m false false c
    let e := { b.2 with temps := [], next := b.2.next + 2 }
    let other := 2 * e.next + 1
    let out := other + 2
    let skip : BitVec 12 := if e.far then 6 else 4
    let e := e.put i m (.word (RvInstr.branch .ne (BitVec.ofNat 5 b.1) 0 skip).encode)
    let e := e.jump i m other
    let held := e.held
    let e := emitList segs thn after (e.prune (needsList thn after))
    let e := match mid with
      | some j => e.jump j m out
      | none => e
    let e := emitList segs els after (({ e with held := held }.here other).prune (needsList els after))
    (e.here out).prune after
end

/-- Where a label stands. -/
def labelAt (labels : List (Nat × Nat)) (l : Nat) : Int := ((labels.find? (·.1 == l)).map (·.2)).getD 0

/-- The instruction at offset o of a residual at `base`. -/
def Ins.at (labels : List (Nat × Nat)) (base o : Nat) : Ins → BitVec 32
  | .word w => w
  | .jump l => (RvInstr.jal 0 (BitVec.ofInt 20 ((labelAt labels l - o) / 2))).encode
  | .hi rd l => (RvInstr.auipc (BitVec.ofNat 5 rd) (BitVec.ofInt 20 ((labelAt labels l - o + 0x800) / 0x1000))).encode
  | .lo rd l => nativeAddi rd rd (BitVec.ofInt 12 (labelAt labels l - (o - 4)))
  | .go l => (RvInstr.jalr 0 1 (BitVec.ofInt 12 (labelAt labels l - (o - 4)))).encode
  | .wide rd k v => (loadWide rd (v.eval fun id => BitVec.ofInt 64 (base + labelAt labels (2 * id)))).getD k 0

/-- The blocks behind the code: their labels, from offset o. -/
def blockLabels : List (Nat × Nat × Nat × List Word) → Nat → List (Nat × Nat)
  | [], _ => []
  | b :: bs, o => (2 * b.1, o) :: blockLabels bs (o + 8 * b.2.2.2.length)

/-- Back-map entries of instructions from offset o, the last entry's word known (R262). -/
def backMap : List EmitItem → (o : Nat) → Option (Nat × Nat) → List BackEntry
  | [], _, _ => []
  | x :: xs, o, last =>
    let rest := backMap xs (o + 4) (some (x.i, x.m))
    if x.own || last != some (x.i, x.m) then { off := o, opidx := BitVec.ofNat 20 x.i, iter := BitVec.ofNat 12 x.m } :: rest
    else rest

/-- The residual of what has been emitted, at `base`, its blocks behind the code. The back-map holds the offsets its 20 bits
can. -/
def Emit.residual (e : Emit) (base : Nat) : Residual :=
  let items := e.items.reverse
  let blocks := e.blocks.reverse
  let at' := blockLabels blocks e.off
  let labels := e.labels ++ at'
  let code := (items.zipIdx.map fun x => x.1.ins.at labels base (4 * x.2)).flatMap fun w => leBytes 4 w.toNat
  let data := blocks.flatMap fun b => b.2.2.2.flatMap fun w => leBytes 8 w.toNat
  let back := backMap items 0 none ++ (blocks.zip at').map fun b =>
    { off := b.2.2, opidx := BitVec.ofNat 20 b.1.2.1, iter := BitVec.ofNat 12 b.1.2.2.1 }
  { code := code ++ data, segs := e.segs.reverse, back := back.filter fun b => decide (b.off < 2 ^ 20) }

/-- Emission at the task's entry: the uniforms that are needed stand in x10 and up, and segment entry 0 belongs to the entry
point (R257). -/
def Emit.start (segs : List SegEntry) (far : Bool) (picks : List Nat) (needed : List Nat) : Emit where
  items := []
  off := 0
  held := (needed.filter (· < 8)).map fun k => { key := k, fp := false, reg := 10 + k }
  temps := []
  picks := picks
  labels := []
  next := 0
  blocks := []
  segs := (segs.take 1).map fun g => { g with pc := 0 }
  own := false
  fail := none
  far := far

/-- The body with every mark treated as 10, and its size U (R258). -/
def KernelRec.allDynamic (k : KernelRec) (us : List Word) (far : Bool) : List RNode × Spec :=
  ({ marks := k.uniforms.map (·.mark), us := us, far := far, limit := 0 } : Launching).list true 0
    (bodyTree k.body 0 0 0 [PFrame.top]) Spec.start

/-- The limit L of R258. -/
def growthLimit (u : Nat) : Nat := max u (min (4 * u) (2 ^ 18))

/-- The body specialised, within the limit of R258: the whole of it as with every mark 10 where words outside of regions
still pass it (DESIGN CHOICE, log 17). -/
def KernelRec.specialised (k : KernelRec) (us : List Word) (far : Bool) : List RNode :=
  let d := k.allDynamic us far
  let l := growthLimit d.2.size
  let r := ({ marks := k.uniforms.map (·.mark), us := us, far := far, limit := l } : Launching).list false 0
    (bodyTree k.body 0 0 0 [PFrame.top]) Spec.start
  if l < r.2.size then d.1 else r.1

/-- The residual's code under register preferences. -/
def KernelRec.emitted (k : KernelRec) (us : List Word) (far : Bool) (picks : List Nat) : Emit :=
  let ns := k.specialised us far
  emitList k.segs ns [] (Emit.start k.segs far picks (needsList ns []))

/-- What a build of kernel k gives under uniforms us: its residual, whose length does not depend on the place `base` it is
to have, or the operation index its launch error names (R145, R253 to R258). Jumps are far when the code passes the reach of
a near one. -/
def KernelRec.build (k : KernelRec) (us : List Word) (picks : List Nat) (base : Nat) : Except Nat Residual :=
  match k.bodyError us with
  | some i => .error i
  | none =>
    let near := k.emitted us false picks
    let e := if near.off < 2 ^ 20 then near else k.emitted us true picks
    match e.fail with
    | some i => .error i
    | none => .ok (e.residual base)

end Sys2Proof.Machine
end

