-- ==== Sys2Proof/Machine/Grate.lean ====
section
/-! DEFINITION. The command processor on the Grate: host queues, packets, launches, feeds, predication and graphs
(21_command_processor.md R321 to R327; 01_machine.md R15, R16; 12_portable_form.md R260, R261). -/
namespace Sys2Proof.Machine

/-! ### The command processor's accesses (R321) -/

/-- What the device's own hardware reads at a place. -/
def State.readDevice (s : State) (p : Place) (n : Nat) : List Byte := s.readPlace .service p n

/-- n bytes at a virtual address of partition p, metered to island 136 (17_energy.md R282); none where one cannot be
translated or its access is a violation. Bytes of a line that is uncorrectable read as zero (DESIGN CHOICE, log 112). -/
def State.grateRead (s : State) (p va : Nat) : (fuel n : Nat) → Option (List Byte × State)
  | 0, _ => some ([], s)
  | fuel + 1, n =>
    if n = 0 then some ([], s)
    else
      let m := min n (64 - va % 64)
      match s.translate .service p .read false va with
      | (.ok pl attr, s) =>
        let e := s.readErrors .service p false pl m va
        let bs := if e.2 then List.replicate m 0 else s.readDevice pl m
        ((e.1.meterUncore 136 (lineEvent pl attr false) 1).grateRead p (va + m) fuel (n - m)).map fun r => (bs ++ r.1, r.2)
      | _ => none

/-- Bytes written at a virtual address of partition p, visible at system scope. -/
def State.grateWrite (s : State) (p va : Nat) : (fuel : Nat) → List Byte → Option State
  | 0, _ => some s
  | fuel + 1, bs =>
    if bs.isEmpty then some s
    else
      let m := min bs.length (64 - va % 64)
      match s.translate .service p .write false va with
      | (.ok pl attr, s) =>
        ((s.atomicWrite .service 0 4 pl (bs.take m)).meterUncore 136 (lineEvent pl attr true) 1).grateWrite p (va + m) fuel
          (bs.drop m)
      | _ => none

/-- Little-endian doublewords. -/
def dwords (bs : List Byte) : List Nat := (List.range (bs.length / 8)).map fun i => leNat ((bs.drop (8 * i)).take 8)

/-- Doubleword i of a list. -/
def dw (d : List Nat) (i : Nat) : Nat := d.getD i 0

/-- Doublewords from i on are zero. -/
def zeroFrom (d : List Nat) (i : Nat) : Bool := (d.drop i).all (· == 0)

/-! ### Streams: the ring of a queue, and the graphs it executes -/

/-- A stream of packets: the ring, or the graph at a position of the queue's list. -/
abbrev Stream := Option Nat

/-- Where the innermost loop's body, or the graph, ends. -/
def GraphRun.limit (g : GraphRun) : Nat :=
  match g.loops with
  | l :: _ => l.first + l.len
  | [] => g.count

/-- The three counts after one packet of an arm has begun. -/
def armNext (arm skip : Nat) : Nat × Nat × Nat :=
  match arm with
  | 0 => (0, 0, 0)
  | 1 => (skip, 0, 0)
  | n + 2 => (0, n + 1, skip)

/-- The three counts after a PRED with arms of na and nb packets (R326). -/
def armTaken (taken : Bool) (na nb : Nat) : Nat × Nat × Nat :=
  if taken then (if na = 0 then (nb, 0, 0) else (0, na, nb)) else (na, nb, 0)

/-- A queue whose HEAD moves past one packet, with the three counts it then has; packets of an untaken arm are discarded as
they stand in the ring. -/
def HostQueue.move (x : HostQueue) (n : Nat × Nat × Nat) : HostQueue :=
  let head := x.head + 1
  let m := min n.1 (x.tail - head).toNat
  { x with head := head + BitVec.ofNat 32 m, pre := n.1 - m, arm := n.2.1, skip := n.2.2 }

/-- Packets of an untaken arm that the host has now written are discarded. -/
def HostQueue.discard (x : HostQueue) : HostQueue :=
  let m := min x.pre (x.tail - x.head).toNat
  { x with head := x.head + BitVec.ofNat 32 m, pre := x.pre - m }

/-- A graph that moves past one node, with the three counts it then has. -/
def GraphRun.move (g : GraphRun) (n : Nat × Nat × Nat) : GraphRun :=
  let pos := min (g.pos + 1 + n.1) g.limit
  if pos = g.limit then { g with pos := pos, pre := 0, arm := 0, skip := 0 }
  else { g with pos := pos, pre := 0, arm := n.2.1, skip := n.2.2 }

/-- Loops whose last iteration has begun whole end, so that a later node may overlap it unless its BAR waits (R322); the answer
says whether the graph is complete (R327). -/
def GraphRun.tidy : (fuel : Nat) → GraphRun → GraphRun × Bool
  | 0, g => (g, false)
  | fuel + 1, g =>
    if g.pos < g.limit then (g, false)
    else
      match g.loops with
      | [] => (g, g.busy.isEmpty)
      | l :: rest => if l.left ≤ 1 then GraphRun.tidy fuel { g with loops := rest } else (g, false)

/-- Graphs that have completed leave the queue. -/
def HostQueue.tidy (x : HostQueue) : HostQueue :=
  { x with graphs := x.graphs.filterMap fun g =>
      let r := GraphRun.tidy 6 g
      if r.2 then none else some r.1 }

def HostQueue.modGraph (x : HostQueue) (i : Nat) (f : GraphRun → GraphRun) : HostQueue :=
  match x.graphs[i]? with
  | some g => { x with graphs := setAt x.graphs i (f g) }
  | none => x

/-- The stream moves past a packet. -/
def HostQueue.pass (x : HostQueue) (st : Stream) (n : Nat × Nat × Nat) : HostQueue :=
  match st with
  | some i => (x.modGraph i (·.move n)).tidy
  | none => x.move n

/-- The packets in progress of the stream. -/
def HostQueue.now (x : HostQueue) (st : Stream) : List Busy :=
  match st with
  | some i => (x.graphs[i]?).elim [] (·.busy)
  | none => x.busy

def HostQueue.addNow (x : HostQueue) (st : Stream) (b : Busy) : HostQueue :=
  match st with
  | some i => x.modGraph i fun g => { g with busy := g.busy ++ [b] }
  | none => { x with busy := x.busy ++ [b] }

/-- Every packet in progress, of every stream, changed or dropped. -/
def HostQueue.mapBusy (x : HostQueue) (f : Busy → Option Busy) : HostQueue :=
  { x with busy := x.busy.filterMap f, graphs := x.graphs.map fun g => { g with busy := g.busy.filterMap f } }

def Busy.isFeed : Busy → Bool
  | .feed _ _ => true
  | _ => false

/-- The arm a stream is in: packets of it still to run, and packets to discard after them. -/
def HostQueue.arms (x : HostQueue) (st : Stream) : Nat × Nat :=
  match st with
  | some i => (x.graphs[i]?).elim (0, 0) fun g => (g.arm, g.skip)
  | none => (x.arm, x.skip)

/-- Every older packet of the stream has completed. -/
def HostQueue.clear (x : HostQueue) (st : Stream) : Bool := (x.now st).isEmpty && (st.isSome || x.graphs.isEmpty)

/-- The streams of a queue, its graphs first. -/
def HostQueue.streams (x : HostQueue) : List Stream := (List.range x.graphs.length).map some ++ [none]

/-- The queue rests at a FEED, of its ring or of a graph, that waits for room (01_machine.md R16). -/
def HostQueue.held (x : HostQueue) : Bool := x.streams.any fun st => (x.now st).any Busy.isFeed

/-- The stream moves past the packet it stands at. -/
def State.passPacket (s : State) (p q : Nat) (st : Stream) : State :=
  s.modQueue p q fun x => x.pass st (armNext (x.arms st).1 (x.arms st).2)

/-- The address of packet n of the ring. -/
def HostQueue.slotAt (x : HostQueue) (n : BitVec 32) : Nat := x.base + 64 * (n.toNat % 2 ^ x.log2n)

/-- The address of the packet the stream stands at. -/
def HostQueue.packetAt (x : HostQueue) (st : Stream) : Option Nat :=
  match st with
  | some i => (x.graphs[i]?).bind fun g => if g.pos < g.limit then some (g.base + 64 * g.pos) else none
  | none => if x.head = x.tail ∨ x.pre ≠ 0 then none else some (x.slotAt x.head)

/-- The place in the ring of what a stream stands at: a graph's is that of its GRAPH packet (R327). -/
def HostQueue.placeOf (x : HostQueue) (st : Stream) : BitVec 32 :=
  match st with
  | some i => (x.graphs[i]?).elim x.head (·.at')
  | none => x.head

/-- HEAD: where a stopped queue rests, else the oldest packet that is still open, a GRAPH that executes or a Flaja launch
without its code, else the next packet to begin (R321; DEDUCED, log 64). -/
def HostQueue.headReg (x : HostQueue) : BitVec 32 :=
  if x.stop then x.stopAt
  else
    let builds := x.busy.filterMap fun b => match b with
      | .build _ a _ => some a
      | _ => none
    (builds ++ x.graphs.map (·.at')).foldl (fun h a => if (x.head - h).toNat < (x.head - a).toNat then a else h) x.head

/-- A queue without a graph; its launches go on as the ring's. -/
def HostQueue.dropGraph (x : HostQueue) (i : Nat) : HostQueue :=
  let left := ((x.graphs[i]?).elim [] (·.busy)).filter fun b => !b.isFeed
  { x with graphs := dropAt x.graphs i, busy := x.busy ++ left }

/-- A queue stops at the packet of a stream with an error code and an operation index, and vector p is raised (R321, R327). -/
def State.stopQueue (s : State) (p q : Nat) (st : Stream) (code : Nat) (op : Nat := 0) : Res :=
  .next ((s.modQueue p q fun x =>
    let y := { x with err := BitVec.ofNat 8 code, errOp := op, stop := true, stopAt := x.placeOf st }
    match st with
    | some i => y.dropGraph i
    | none => { y with busy := y.busy.filter fun b => !b.isFeed }).raiseMsix p)

/-- Packets are fetched and begun (R279, R321). -/
def State.queueRuns (s : State) (p q : Nat) : Bool :=
  let x := s.queue p q
  s.up && (s.part p).state == 2 && x.en && !x.stop

/-- A type that may not stand where it is reached (R322, R326, R327). -/
def HostQueue.badType (x : HostQueue) (st : Stream) (t : Nat) : Bool :=
  let g := st.isSome
  let arm := decide (0 < (x.arms st).1)
  decide (9 ≤ t) || (!g && (t == 7 || t == 8)) || (g && t == 4) || (arm && (t == 3 || t == 4 || t == 7 || (t == 8 && !g)))

/-- The ring's packet is among the 16 from HEAD on that are fetched (R321; DEDUCED, log 64). -/
def HostQueue.fetched (x : HostQueue) (st : Stream) : Bool := st.isSome || decide ((x.head - x.headReg).toNat < 16)

/-- Runs k on the doublewords of the packet that the first of the streams stands at, where it has type ty and may begin. A
packet whose type or header is malformed stops the queue when it would begin (R322). -/
def State.withPacketIn (s0 : State) (p q ty : Nat) (k : State → Stream → List Nat → Res) : List Stream → Res
  | [] => .next s0
  | st :: rest =>
    let x := s0.queue p q
    let other := s0.withPacketIn p q ty k rest
    if !x.fetched st then other
    else
      match x.packetAt st with
      | none => other
      | some va =>
        match s0.grateRead p va 64 64 with
        | none => s0.stopQueue p q st 6
        | some (bs, s) =>
          let d := dwords bs
          let h := dw d 0
          let t := h % 256
          if (bitNat h 15 || t == 3 || t == 5 || t == 7 || t == 8) && !x.clear st then other
          else if x.badType st t || bitsNat h 31 16 != 0 || bitsNat h 14 8 != 0 then s.stopQueue p q st 1
          else if t ≠ ty then other
          else k s st d

def State.withPacket (s : State) (p q ty : Nat) (k : State → Stream → List Nat → Res) : Res :=
  if !s.queueRuns p q || (s.queue p q).held then .next s else s.withPacketIn p q ty k (s.queue p q).streams

/-- ARG of a packet. -/
def argOf (d : List Nat) : Nat := bitsNat (dw d 0) 63 32

/-! ### NOP, SIGNAL, INVAL, PRED -/

/-- NOP (R322). -/
def execPacketNop (p q : Nat) (s : State) : Res :=
  s.withPacket p q 0 fun s st d =>
    if argOf d ≠ 0 ∨ !zeroFrom d 1 then s.stopQueue p q st 1 else .next (s.passPacket p q st)

/-- SIGNAL (R322): the value is written at system scope, then vector p is raised when MSI = 1. -/
def execPacketSignal (p q : Nat) (s : State) : Res :=
  s.withPacket p q 5 fun s st d =>
    if 1 < argOf d ∨ dw d 1 % 8 ≠ 0 ∨ 2 ^ 57 ≤ dw d 1 ∨ !zeroFrom d 3 then s.stopQueue p q st 1
    else
      match s.grateWrite p (dw d 1) 8 (leBytes 8 (dw d 2)) with
      | none => s.stopQueue p q st 6
      | some s =>
        let s := if argOf d = 1 then s.raiseMsix p else s
        .next (s.passPacket p q st)

/-- INVAL (R322, 12_portable_form.md R261). -/
def execPacketInval (p q : Nat) (s : State) : Res :=
  s.withPacket p q 6 fun s st d =>
    if 1 < argOf d ∨ !zeroFrom d 2 then s.stopQueue p q st 1
    else .next ((s.invalidate (argOf d == 1) (dw d 1)).passPacket p q st)

/-- The condition of a PRED (R326). -/
def predHolds (rel w v : Nat) : Bool :=
  match rel with
  | 0 => w == v
  | 1 => w != v
  | 2 => decide (w < v)
  | 3 => decide (v ≤ w)
  | 4 => decide (sextNat 64 w < sextNat 64 v)
  | _ => decide (sextNat 64 v ≤ sextNat 64 w)

/-- The type of a packet that stands n places behind the one the stream stands at, where it is there and can be read. -/
def State.typeAhead (s : State) (p q : Nat) (st : Stream) (n : Nat) : Option Nat :=
  let x := s.queue p q
  let va := match st with
    | some i => (x.graphs[i]?).bind fun g => if g.pos + n < g.limit then some (g.base + 64 * (g.pos + n)) else none
    | none => if n < (x.tail - x.head).toNat then some (x.slotAt (x.head + BitVec.ofNat 32 n)) else none
  va.bind fun va => (s.grateRead p va 8 8).map fun r => leNat r.1 % 256

/-- An arm, of n packets after the first `skip` behind a PRED, holds a packet that makes it malformed (R326); packets that
the host has not written yet are looked at when they are reached. -/
def State.badArm (s : State) (p q : Nat) (st : Stream) (skip n : Nat) : Bool :=
  (List.range n).any fun i =>
    match s.typeAhead p q st (1 + skip + i) with
    | some t => t == 3 || t == 4 || t == 7 || (t == 8 && st.isNone)
    | none => false

/-- PRED (R326): the word is read once, and one arm runs. -/
def execPacketPred (p q : Nat) (s : State) : Res :=
  s.withPacket p q 3 fun s st d =>
    let h := dw d 0
    let rel := bitsNat h 42 40
    let na := bitsNat h 63 56
    let nb := bitsNat h 55 48
    if bitsNat h 47 43 ≠ 0 ∨ bitsNat h 39 32 ≠ 0 ∨ 6 ≤ rel ∨ dw d 1 % 8 ≠ 0 ∨ 2 ^ 57 ≤ dw d 1 ∨ !zeroFrom d 4 then
      s.stopQueue p q st 1
    else
      match s.grateRead p (dw d 1) 8 8 with
      | none => s.stopQueue p q st 6
      | some (bs, s) =>
        let taken := predHolds rel (leNat bs &&& dw d 2) (dw d 3)
        if (if taken then s.badArm p q st 0 na else s.badArm p q st na nb) then s.stopQueue p q st 1
        else .next (s.modQueue p q fun x => x.pass st (armTaken taken na nb))

/-! ### Feeds (01_machine.md R16) -/

/-- Where a member's context is. -/
def State.memberHome (s : State) (t : Nat) (m : Member × Nat) : Option Home :=
  if (s.core m.1.core).task == some (t, m.2) then some (.core m.1.core) else (s.imageOf t m.2).map .image

/-- The tasks of a launch that have not retired, by team. -/
def State.tasksOf (s : State) (l : Nat) : List (Nat × (Member × Nat)) :=
  (s.teams.filter fun y => y.2.launch == l).flatMap fun y => y.2.live.map fun m => (y.1, m)

/-- Event k is latched for every task of a launch. -/
def State.eventLaunch (s : State) (l k setter : Nat) : State :=
  (s.tasksOf l).foldl (fun s m =>
    match s.memberHome m.1 m.2 with
    | some h => s.eventAt h k setter 0
    | none => s) s

/-- The launch of partition p that declared a feed queue under this number. -/
def State.feedTarget (s : State) (p number : Nat) : Option (Nat × Launch) :=
  s.launches.find? fun e => e.2.part == p && e.2.number == number && decide (0 < e.2.feedK)

/-- The feed queue has room for n more records. -/
def Launch.room (l : Launch) (n : Nat) : Bool := decide (l.feedIn - l.feedOut + n ≤ 2 ^ l.feedK)

/-- Records written into the memory of a feed queue, from record n on; none where it cannot be translated (R321, R323). -/
def State.feedWrite (s : State) (l : Launch) : (n : Nat) → List (List Byte) → Option State
  | _, [] => some s
  | n, r :: rs => (s.grateWrite l.part (l.feedSlot n) 64 r).bind fun s => s.feedWrite l (n + 1) rs

/-- Records appended in order; the feed event is set (DEDUCED, log 66). -/
def State.feedIn (s : State) (id : Nat) (l : Launch) (recs : List (List Byte)) : Option State :=
  (s.feedWrite l l.feedIn recs).map fun s =>
    (s.modLaunch id fun l => { l with feedIn := l.feedIn + recs.length }).eventLaunch id 10 9

/-- Bytes cut into records of 64. -/
def records64 (bs : List Byte) : List (List Byte) := (List.range (bs.length / 64)).map fun i => (bs.drop (64 * i)).take 64

/-- FEED (R322): its records are read when it begins, and appended when there is room for all. -/
def execPacketFeed (p q : Nat) (s : State) : Res :=
  s.withPacket p q 2 fun s st d =>
    let n := bitsNat (dw d 2) 15 0 + 1
    if dw d 1 % 64 ≠ 0 ∨ 2 ^ 57 ≤ dw d 1 ∨ bitsNat (dw d 2) 63 16 ≠ 0 ∨ !zeroFrom d 3 then s.stopQueue p q st 1
    else
      match s.feedTarget p (argOf d) with
      | none => s.stopQueue p q st 4
      | some (id, l) =>
        if 2 ^ l.feedK < n then s.stopQueue p q st 1
        else
          match s.grateRead p (dw d 1) (64 * n) (64 * n) with
          | none => s.stopQueue p q st 6
          | some (bs, s) =>
            let recs := records64 bs
            if l.room n then
              match s.feedIn id l recs with
              | some s => .next (s.passPacket p q st)
              | none => s.stopQueue p q st 6
            else .next (s.modQueue p q fun x => x.addNow st (.feed id recs))

/-- The first FEED that a stream of the queue rests at: the stream, its queue and its records. -/
def HostQueue.feedHeld (x : HostQueue) : Option (Stream × Nat × List (List Byte)) :=
  x.streams.findSome? fun st => (x.now st).findSome? fun b => match b with
    | .feed id recs => some (st, id, recs)
    | _ => none

/-- FEED_APPEND (R16): the records a FEED holds are appended when room has appeared. -/
def execFeedAppend (p q : Nat) (s : State) : Res :=
  if !s.queueRuns p q then .next s
  else
    match (s.queue p q).feedHeld with
    | none => .next s
    | some (st, id, recs) =>
      match Tbl.get? s.launches id with
      | none => s.stopQueue p q st 4
      | some l =>
        if l.room recs.length then
          let drop := fun (b : Busy) => if b == .feed id recs then none else some b
          match s.feedIn id l recs with
          | some s => .next ((s.modQueue p q fun x => x.mapBusy drop).passPacket p q st)
          | none => s.stopQueue p q st 6
        else .next s

/-! ### Graphs (R327) -/

/-- The loops of a graph from node i on: `ends` are the ends of the bodies that are open, innermost first. -/
def loopsOk (count : Nat) : (headers : List Nat) → (i : Nat) → (ends : List Nat) → Bool
  | [], _, _ => true
  | h :: t, i, ends =>
    let ends := ends.filter fun e => decide (i < e)
    if h % 256 = 7 then
      let len := bitsNat h 63 48
      let last := i + 1 + len
      decide (last ≤ count) && ends.all (fun e => decide (last ≤ e)) &&
      decide (ends.length < 4) && loopsOk count t (i + 1) (last :: ends)
    else loopsOk count t (i + 1) ends

/-- The headers of n nodes. -/
def State.nodeHeaders (s : State) (p base : Nat) : Nat → Option (List Nat × State)
  | 0 => some ([], s)
  | n + 1 =>
    (s.nodeHeaders p base n).bind fun r =>
      (r.2.grateRead p (base + 64 * n) 8 8).map fun h => (r.1 ++ [leNat h.1], h.2)

/-- GRAPH (R327): the structure is checked, then the nodes execute. -/
def execPacketGraph (p q : Nat) (s : State) : Res :=
  s.withPacket p q 4 fun s st d =>
    let n := bitsNat (dw d 2) 11 0 + 1
    if argOf d ≠ 0 ∨ 2 ^ 57 ≤ dw d 1 ∨ bitsNat (dw d 2) 63 12 ≠ 0 ∨ !zeroFrom d 3 then s.stopQueue p q st 1
    else
      match s.nodeHeaders p (dw d 1) n with
      | none => s.stopQueue p q st 6
      | some (hs, s) =>
        if !loopsOk n hs 0 [] then s.stopQueue p q st 1
        else
          let g := fun (x : HostQueue) => ({ at' := x.head, base := dw d 1, count := n, pos := 0, loops := [], busy := [],
                                             pre := 0, arm := 0, skip := 0 } : GraphRun)
          .next (s.modQueue p q fun x => { x with graphs := x.graphs ++ [g x] }.move (0, 0, 0))

/-- LOOP (R327). -/
def execPacketLoop (p q : Nat) (s : State) : Res :=
  s.withPacket p q 7 fun s st d =>
    let len := bitsNat (dw d 0) 63 48
    if len = 0 ∨ 4095 < len ∨ bitsNat (dw d 0) 47 32 ≠ 0 ∨ dw d 1 = 0 ∨ 2 ^ 32 ≤ dw d 1 ∨ !zeroFrom d 2 then
      s.stopQueue p q st 1
    else .next (s.modQueue p q fun x =>
      match st with
      | some i => x.modGraph i fun g =>
          { g with pos := g.pos + 1, loops := { first := g.pos + 1, len := len, left := dw d 1 } :: g.loops }
      | none => x)

/-- The graph at the start of its loop's next iteration, where every node of the previous one is complete. -/
def GraphRun.again (g : GraphRun) : Option GraphRun :=
  match g.loops with
  | [] => none
  | l :: rest =>
    if g.pos < g.limit ∨ !g.busy.isEmpty ∨ l.left ≤ 1 then none
    else some { g with pos := l.first, loops := { l with left := l.left - 1 } :: rest }

/-- LOOP_ITERATION (R327): the next iteration begins once every node of the previous one is complete. -/
def execLoopIteration (p q : Nat) (s : State) : Res :=
  let x := s.queue p q
  if !s.queueRuns p q || x.held then .next s
  else
    match x.graphs.findIdx? fun g => g.again.isSome with
    | none => .next s
    | some i => .next (s.modQueue p q fun x => x.modGraph i fun g => g.again.getD g)

/-- BREAK (R327): the innermost loop ends, and execution goes on after its body. -/
def execPacketBreak (p q : Nat) (s : State) : Res :=
  s.withPacket p q 8 fun s st d =>
    match st.bind fun i => ((s.queue p q).graphs[i]?).map fun g => (i, g.loops) with
    | some (i, l :: rest) =>
      if argOf d ≠ 0 ∨ !zeroFrom d 1 then s.stopQueue p q st 1
      else
        .next (s.modQueue p q fun x =>
          (x.modGraph i fun g => { g with pos := l.first + l.len, loops := rest, pre := 0, arm := 0, skip := 0 }).tidy)
    | _ => s.stopQueue p q st 1

/-! ### Launches (R323 to R325) -/

/-- Team size of a shape code. -/
def shapeSize (c : Nat) : Nat := 2 ^ c

/-- DW1 of a LAUNCH: shape, stages, task count, FEEDK, and whether it is a Flaja launch. -/
def lShape (d : List Nat) : Nat := bitsNat (dw d 1) 57 55
def lStages (d : List Nat) : Nat := bitsNat (dw d 1) 54 51 + 1
def lCount (d : List Nat) : Nat := bitsNat (dw d 1) 19 0 + 1
def lFeedK (d : List Nat) : Nat := bitsNat (dw d 1) 62 58
def lFlaja (d : List Nat) : Bool := bitNat (dw d 1) 63

/-- The stage of member m. -/
def lStage (d : List Nat) (m : Nat) : Nat := bitsNat (dw d 2) (4 * m + 3) (4 * m)

/-- A field of the packet holds a value its encoding does not assign (R323). -/
def launchBad (d : List Nat) : Bool :=
  let k := lFeedK d
  let size := shapeSize (lShape d)
  decide (5 ≤ lShape d) || (k != 0 && (decide (k < 6) || decide (16 < k))) || bitsNat (dw d 1) 50 20 != 0 ||
  (List.range 16).any (fun m => decide (size ≤ m) && lStage d m != 0) ||
  (List.range 5).any (fun i => decide (2 ^ 57 ≤ dw d (3 + i))) ||
  dw d 4 % 128 != 0 || dw d 6 % 4096 != 0 ||
  (if k = 0 then dw d 7 != 0 else dw d 7 % (64 * 2 ^ k) != 0)

/-- STATE of a TCB. -/
def tcbState (t : List Nat) : Nat := bitsNat (dw t 0) 47 45

/-- Every zero field of a TCB is zero, and its addresses are aligned (16_system_state.md R276). -/
def tcbZeros (t : List Nat) : Bool :=
  bitsNat (dw t 0) 22 20 == 0 && bitsNat (dw t 1) 36 32 == 0 && bitsNat (dw t 2) 63 57 == 0 && dw t 2 % 2 == 0 &&
  bitsNat (dw t 3) 63 48 == 0 &&
  (List.range 3).all (fun i => bitsNat (dw t (4 + i)) 59 57 == 0 && (!bitNat (dw t (4 + i)) 60 || dw t (4 + i) % 2 == 0)) &&
  (List.range 6).all (fun i => bitsNat (dw t (8 + i)) 62 57 == 0 && dw t (8 + i) % 128 == 0) &&
  bitsNat (dw t 14) 62 57 == 0 && (!bitNat (dw t 14) 63 || dw t 14 % 128 == 0) && bitsNat (dw t 15) 60 52 == 0 && bitsNat (dw t 15) 11 7 == 0

/-- The TCB of task i agrees with the packet, and no variant's class reaches its main class (R323, R21). -/
def tcbAgrees (d t : List Nat) (i : Nat) : Bool :=
  let size := shapeSize (lShape d)
  bitsNat (dw t 0) 19 0 == i && bitsNat (dw t 1) 63 48 == i / size && bitsNat (dw t 1) 47 44 == i % size &&
  bitsNat (dw t 1) 43 41 == lShape d && bitsNat (dw t 1) 40 37 + 1 == lStages d &&
  bitsNat (dw t 0) 26 23 == lStage d (i % size) && bitsNat (dw t 1) 31 0 == argOf d && tcbZeros t &&
  (List.range 3).all fun v => !bitNat (dw t (4 + v)) 60 || decide (bitsNat (dw t (4 + v)) 63 61 < bitsNat (dw t 0) 41 39)

/-- The segment table holds the entries of a native task (R166). -/
def tcbEntries (segs : List SegEntry) (t : List Nat) : Bool :=
  let has := fun (pc : Nat) => segs.any (fun e => e.pc == pc)
  has (bitsNat (dw t 2) 56 0) &&
  (List.range 3).all fun v => !bitNat (dw t (4 + v)) 60 || has (bitsNat (dw t (4 + v)) 56 0)

/-- The TCBs of n tasks. -/
def State.readTcbs (s : State) (p base : Nat) : Nat → Option (List (List Nat) × State)
  | 0 => some ([], s)
  | n + 1 =>
    (s.readTcbs p base n).bind fun r =>
      (r.2.grateRead p (base + 128 * n) 128 128).map fun t => (r.1 ++ [dwords t.1], t.2)

/-- The checks that refuse a launch (R323, R15, R46, R79). -/
def launchRefused (d : List Nat) (k : KernelRec) (ts : List (List Nat)) : Bool :=
  let size := shapeSize (lShape d)
  lCount d % size != 0 || (List.range size).any (fun m => decide (lStages d ≤ lStage d m)) || decide (1 < k.arch) ||
  decide (2 ^ 20 < k.abuf) || decide (2 ^ 21 < k.wbuf) || decide (8 < k.uniforms.length) || k.flaja != lFlaja d ||
  (ts.zipIdx.any fun t => !tcbAgrees d t.1 t.2) || (!k.flaja && ts.any fun t => !tcbEntries k.segs t)

/-- A TCB made ready to run again: hardware-written fields at their creation values where it was Retired, and Ready where
its count is 0 (R324). -/
def State.armTcb (s : State) (p tcb : Nat) : State :=
  let old := s.tcbGet p tcb 0
  let s :=
    if bitsNat old 47 45 = 6 then
      let s := s.tcbUpd p tcb 0 fun v => putBits (putBits (putBits v 47 45 0) 42 42 0) 38 34 0
      let s := (s.tcbUpd p tcb 3 fun _ => 0).tcbUpd p tcb 7 fun _ => 0
      s.tcbUpd p tcb 15 fun v => putBits (putBits v 63 61 0) 6 0 0
    else s
  if bitsNat old 63 48 = 0 then s.tcbUpd p tcb 0 fun v => putBits v 47 45 1 else s

/-- A team whose members are all Ready becomes Ready itself (01_machine.md R10). -/
def State.readyCheck (s : State) (t : Nat) : State :=
  match Tbl.get? s.teams t with
  | none => s
  | some x =>
    if x.state = .waiting ∧ x.members.all (fun m => bitsNat (s.tcbGet x.part m.tcb 0) 47 45 == 1) then
      { (s.modTeam t fun y => { y with state := .ready, stamp := s.stamp }) with stamp := s.stamp + 1 }
    else s

/-- The key after the last of a table. -/
def nextKey {α : Type} (t : Tbl α) : Nat := (t.getLast?.map fun e => e.1 + 1).getD 0

/-- The code a launch runs: base address, residual, and the cache entry it pins. -/
structure Built where
  base : Nat
  res : Residual
  key : Option Nat
  deriving DecidableEq, Repr

/-- The hardware may write the TCBs of n tasks (R321). -/
def State.tcbsWritable (s : State) (p base n : Nat) : Bool :=
  (List.range n).all fun i => match (s.hwWalk p .write (base + 128 * i)).2 with
    | .ok _ _ => true
    | _ => false

/-- The rings a kernel declares, as a mask. -/
def KernelRec.ringMask (k : KernelRec) : BitVec 8 := k.rings.foldl (fun m r => m ||| BitVec.ofNat 8 (2 ^ r.ring.val)) 0

/-- A launch whose checks are complete: its TCBs are made ready to run, and its teams exist (R324); its number in the table
of launches. The code is that of the kernel's own sections. -/
def State.launchArm (s : State) (p q : Nat) (d : List Nat) (us : List Word) (k : KernelRec) : State × Nat :=
  let size := shapeSize (lShape d)
  let id := nextKey s.launches
  let t0 := s.stamp
  let l : Launch :=
    { part := p, queue := q, number := argOf d, size := size, count := lCount d, uniforms := us, segs := k.segs
      abuf := (k.abuf + 4095) / 4096, wbuf := (k.wbuf + 4095) / 4096, rings := k.ringMask, codebase := k.codebase
      kernel := k, residual := none, built := !k.flaja, cacheKey := none, feedK := lFeedK d, feedAt := dw d 7, feedIn := 0
      feedOut := 0 }
  let s := (List.range (lCount d)).foldl (fun s i => s.armTcb p (dw d 4 + 128 * i)) s
  let team := fun (i : Nat) =>
    ({ part := p, launch := id, teamNo := i
       members := (List.range size).map fun m => { tcb := dw d 4 + 128 * (size * i + m), core := 0, ent := 0 }
       state := .waiting, stamp := 0, prio := 0, cluster := none, ordered := false, done := [], admittedAt := 0,
       drained := [], lostImage := false } : Team)
  let ids := List.range (lCount d / size)
  let s : State :=
    { s with
      launches := s.launches ++ [(id, l)], teams := s.teams ++ ids.map fun i => (t0 + i, team i)
      stamp := s.stamp + ids.length }
  (ids.foldl (fun s i => s.readyCheck (t0 + i)) s, id)

/-- A Flaja launch has its code, and pins the entry that holds it (R325, 12_portable_form.md R261). -/
def State.launchCode (s : State) (id : Nat) (b : Built) : State :=
  let s := s.modLaunch id fun l =>
    { l with
      segs := b.res.segs.map fun e => { e with pc := b.base + e.pc }
      residual := some (b.base, b.res), built := true, cacheKey := b.key }
  match b.key with
  | some key => s.pin key
  | none => s

/-- A launch whose build is refused leaves nothing behind: its Ready tasks are Waiting again (DESIGN CHOICE, log 126). -/
def State.launchDrop (s : State) (p id : Nat) : State :=
  let mine := s.teams.filter fun e => e.2.launch == id
  let s := (mine.flatMap fun e => e.2.members).foldl (fun s m => s.tcbUpd p m.tcb 0 fun v => putBits v 47 45 0) s
  { s with teams := s.teams.filter fun e => e.2.launch != id, launches := s.launches.filter fun e => e.1 != id }

/-- The kernel record at an address of partition p. -/
def State.kernelAt (s : State) (p va : Nat) : Option KernelRec := Tbl.get? s.kernels (2 ^ 57 * p + va)

/-- A uniform's value: the low bytes of its doubleword, in the declared width (R325). -/
def uniformVals (k : KernelRec) (block : List Nat) : List Word :=
  (k.uniforms.zip block).map fun u => BitVec.ofNat 64 (u.2 % 2 ^ (8 * u.1.bytes))

/-- Where the cache's region stands (R260; DEDUCED, log 35). -/
def State.cacheBase (s : State) : Nat := (s.fw.image.map (·.cacheBase.toNat)).getD 0

/-- The entry a Flaja launch hits, as its code. -/
def State.cacheHit (s : State) (k : KernelRec) (us : List Word) : Option Built :=
  (s.cache.find? fun e => e.hit k us).map fun e => { base := s.cacheBase + e.addr, res := e.res, key := some e.key }

/-- The kernel record with its operation list, which a Flaja launch reads (R321, R325; 07_encoding.md R143); no more of it than
shows that it is too long. -/
def State.readBody (s : State) (p va : Nat) (k : KernelRec) : Option (KernelRec × State) :=
  if !k.flaja then some (k, s)
  else
    let at' := k.sections.headD (0, 0)
    let n := min at'.2 (8 * (2 ^ 20 + 1))
    (s.grateRead p (va + at'.1) n n).map fun r => ({ k with body := (dwords r.1).map (BitVec.ofNat 64) }, r.2)

/-- LAUNCH (R323 to R325; DEDUCED, log 65). -/
def execPacketLaunch (p q : Nat) (s : State) : Res :=
  s.withPacket p q 1 fun s st d =>
    if launchBad d then s.stopQueue p q st 1
    else
      let n := max 8 ((s.kernelAt p (dw d 3)).elim 0 (·.bytes))
      match s.grateRead p (dw d 3) n n, s.kernelAt p (dw d 3) with
      | none, _ => s.stopQueue p q st 6
      | some _, none => s.stopQueue p q st 2
      | some (_, s), some k =>
        let nu := min 8 k.uniforms.length
        match s.grateRead p (dw d 5) (8 * nu) (8 * nu) with
        | none => s.stopQueue p q st 6
        | some (ub, s) =>
          match s.readTcbs p (dw d 4) (lCount d) with
          | none => s.stopQueue p q st 6
          | some (ts, s) =>
            let us := uniformVals k (dwords ub)
            if launchRefused d k ts then s.stopQueue p q st 2
            else if ts.any (fun t => tcbState t != 0 && tcbState t != 6) then s.stopQueue p q st 5
            else if !s.tcbsWritable p (dw d 4) (lCount d) then s.stopQueue p q st 6
            else
              match s.readBody p (dw d 3) k with
              | none => s.stopQueue p q st 6
              | some (k, s) =>
                let a := s.launchArm p q d us k
                let begun := fun (s : State) (b : Busy) =>
                  (.next ((s.modQueue p q fun x => x.addNow st b).passPacket p q st) : Res)
                match k.flaja, s.cacheHit k us with
                | false, _ => begun a.1 (.launch a.2)
                | true, some b => begun (a.1.launchCode a.2 b) (.launch a.2)
                | true, none => begun a.1 (.build a.2 ((s.queue p q).placeOf st) d)

/-- Every launch of a queue that waits for its code: its stream, number, place and packet. -/
def HostQueue.builds (x : HostQueue) : List (Stream × Nat × BitVec 32 × List Nat) :=
  x.streams.flatMap fun st => (x.now st).filterMap fun b => match b with
    | .build l a d => some (st, l, a, d)
    | _ => none

/-- Launch l of a queue waits no more. -/
def HostQueue.hasCode (x : HostQueue) (l : Nat) : HostQueue :=
  x.mapBusy fun b => match b with
    | .build m _ _ => if m = l then some (.launch l) else some b
    | _ => some b

/-- Launches that waited on a build that is now in the cache hit it (R261). -/
def State.resolveBuilds (s : State) : State :=
  (List.range 8).foldl (fun s p =>
    (List.range 4).foldl (fun s q =>
      (s.queue p q).builds.foldl (fun s w =>
        match (Tbl.get? s.launches w.2.1).bind fun l => s.cacheHit l.kernel l.uniforms with
        | some b => (s.launchCode w.2.1 b).modQueue p q fun x => x.hasCode w.2.1
        | none => s) s) s) s

/-- What the Preheater writes into the cache's region, at physical addresses, is metered to a device uncore island, as the
body's lines were when they were read (R261, 17_energy.md R289). -/
def State.cacheWrite (s : State) (at' : Nat) (bs : List Byte) : State :=
  (s.hwWrite 4 at' bs).meterUncore 136 1 ((bs.length + 63) / 64)

/-- A build is refused: the launch goes, and its queue stops at it with the code and the operation index (R325,
07_encoding.md R145). -/
def State.buildRefused (s : State) (p q : Nat) (w : Stream × Nat × BitVec 32 × List Nat) (code op : Nat) : Res :=
  let s := s.launchDrop p w.2.1
  let s := s.modQueue p q fun x => x.mapBusy fun b => match b with
    | .build m _ _ => if m = w.2.1 then none else some b
    | _ => some b
  match s.stopQueue p q w.1 code op with
  | .next s => .next (s.modQueue p q fun x => { x with stopAt := w.2.2.1 })
  | r => r

/-- How the build of one waiting launch ends; none where it waits for room: the cache has none, and DW6 names no memory that
is large enough (R261, R325). -/
def State.buildEnd (s : State) (p q : Nat) (picks : List Nat) (w : Stream × Nat × BitVec 32 × List Nat) : Option Res :=
  (Tbl.get? s.launches w.2.1).bind fun l =>
    let k := l.kernel
    match k.build l.uniforms picks 0 with
    | .error op => some (s.buildRefused p q w 3 op)
    | .ok r0 =>
      let n := residualSize r0
      let placed := fun (base : Nat) => (k.build l.uniforms picks base).toOption.getD r0
      let own := dw w.2.2.2 6
      if cacheBytes < n then some (s.buildRefused p q w 3 0)
      else
        match makeRoom (s.cache.length + 1) s.cache n with
        | some (es, a) =>
          let r := placed (s.cacheBase + a)
          let e : CacheEnt :=
            { key := s.stamp, part := p, khash := fnv1a k.bodyBytes, udigest := fnv1a (k.keyBytes l.uniforms)
              bodyLen := k.body.length, ubytes := k.keyBytes l.uniforms, res := r, addr := a, pins := 0, valid := true
              doomed := false, used := s.stamp }
          let s := { s with cache := es ++ [e], stamp := s.stamp + 1 }.cacheWrite (s.cacheBase + a) (residualBytes r)
          some (.next s.resolveBuilds)
        | none =>
          if own = 0 ∨ 5 * 2 ^ 16 < n then none
          else
            let r := placed own
            match s.grateWrite p own (n + 1) (residualBytes r) with
            | none => some (s.buildRefused p q w 6 0)
            | some s =>
              some (.next ((s.launchCode w.2.1 { base := own, res := r, key := none }).modQueue p q fun x => x.hasCode w.2.1))

/-- The first of the launches whose build can end. -/
def State.buildFirst (s : State) (p q : Nat) (picks : List Nat) : List (Stream × Nat × BitVec 32 × List Nat) → Res
  | [] => .next s
  | w :: ws =>
    match s.buildEnd p q picks w with
    | some r => r
    | none => s.buildFirst p q picks ws

/-- PREHEATER_BUILD_COMPLETE (12_portable_form.md R255 to R262; R325): a build that the queue waits for ends, its code's
registers chosen by the preferences `picks`. -/
def execPreheaterBuildComplete (p q : Nat) (picks : List Nat) (s : State) : Res :=
  if !s.queueRuns p q then .next s else s.buildFirst p q picks (s.queue p q).builds

/-! ### Queue registers (R321) -/

/-- QUEUE_TAIL_WRITE (R321). -/
def execQueueTailWrite (p q : Nat) (v : BitVec 32) (s : State) : Res :=
  s.atWindow p (s.modQueue p q fun x => { x with tail := v }.discard)

/-- SKIP: a stopped queue discards the packet at HEAD and resumes. -/
def HostQueue.skipped (x : HostQueue) : HostQueue :=
  if !x.stop then x
  else
    let y := { x with stop := false, err := 0 }
    if x.stopAt = x.head then y.move (armNext x.arm x.skip) else y

/-- QUEUE_SKIP (R321). -/
def execQueueSkip (p q : Nat) (s : State) : Res := s.atWindow p (s.modQueue p q HostQueue.skipped)

/-- A write of QCTL: LOG2N only while EN = 0 and in range; SKIP; EN, whose clearing ends a stop. -/
def HostQueue.control (x : HostQueue) (v : Nat) : HostQueue :=
  let l := bitsNat v 20 16
  let x := if !x.en && decide (4 ≤ l) && decide (l ≤ 16) then { x with log2n := l } else x
  let x := if bitNat v 1 then x.skipped else x
  if bitNat v 0 then { x with en := true } else { x with en := false, stop := false, err := 0 }

/-- QUEUE_ENABLE (R321). -/
def execQueueEnable (p q : Nat) (v : Word) (s : State) : Res := s.atWindow p (s.modQueue p q fun x => x.control v.toNat)

end Sys2Proof.Machine
end

