-- ==== Sys2Proof/Machine/Task.lean ====
section
/-! DEFINITION. The life of a task on its core: contexts installed, exchanged and saved, segments, interrupts, the
watchdog, kills and retirement (01_machine.md R10, R11, R19 to R26; 08_stoker_isa.md R166, R176; 16_system_state.md R276 to
R280; 19_scheduling.md R299 to R304; 20_translation_faults.md R311, R314, R316). -/
namespace Sys2Proof.Machine

/-! ### Timetables (R299, R300) -/

def Core.ent (k : Core) (e : Nat) : TtEnt := if e = 0 then k.ent0 else k.ent1

def Core.setEnt (k : Core) (e : Nat) (x : TtEnt) : Core := if e = 0 then { k with ent0 := x } else { k with ent1 := x }

/-- The entry CUR does not name. -/
def Core.other (k : Core) : Nat := 1 - k.cur

/-- The entry a newcomer may take: the current one of a core that holds no context, or the other one. -/
def Core.freeEnt (k : Core) : Option Nat :=
  if k.task.isNone && !(k.ent k.cur).v then some k.cur else if !(k.ent k.other).v then some k.other else none

/-- Bits hi to lo of doubleword i of a TCB set to x. -/
def State.tcbSet (s : State) (p tcb i hi lo x : Nat) : State := s.tcbUpd p tcb i fun v => putBits v hi lo x

/-- STATE of a TCB (R276). -/
def State.setTcbState (s : State) (p tcb x : Nat) : State := s.tcbSet p tcb 0 47 45 x

/-! ### Contexts -/

/-- Entries of a table of tiles changed. -/
def modTiles {α : Type} [DecidableEq α] (d : α) (f : α → α) (t : Tbl α) : Tbl α :=
  (t.map fun e => (e.1, f e.2)).filter fun e => decide (e.2 ≠ d)

/-- A task's start on what an earlier context left on its core: what no rule gives a value at task start stays, VALID and
DIRTY of the tiles among it; every tile is in auto mode with anchor 0 (01_machine.md R11, 05_local_memory.md R92,
10_matrix_isa.md R218; DESIGN CHOICE, log 1). -/
def Ctx.fresh (old : Ctx) : Ctx :=
  { Ctx.reset with
    mode := .u, csr := old.csr, yqlvec := old.yqlvec
    vx := { Vx.reset with
      tiles := modTiles MTile.reset (fun t => { t with inflight := none }) old.vx.tiles
      ix := old.vx.ix, preds := old.vx.preds }
    mx := { Mx.reset with
      tiles := modTiles AccTile.reset (fun t => { AccTile.reset with els := t.els, valid := t.valid, dirty := t.dirty }) old.mx.tiles
      slots := (old.mx.slots.map fun e => (e.1, { e.2 with state := .free })).filter fun e => e.2 != Slot.reset
      binds := { old.mx.binds with geoms := [] } } }

/-- What a kill leaves on the core: no tile is VALID (05_local_memory.md R92). -/
def Ctx.killed (old : Ctx) : Ctx :=
  let x := old.fresh
  { x with
    vx := { x.vx with tiles := modTiles MTile.reset (fun t => { t with valid := false }) x.vx.tiles }
    mx := { x.mx with tiles := modTiles AccTile.reset (fun t => { t with valid := false }) x.mx.tiles } }

/-- The bytes of a spill area beside both largest footprints with their tags: the largest image (R303). -/
def imageRoom : Nat := 5 * 2 ^ 20 - 768 * 4097

/-- Image bytes of a context: the slots that are not Free and the VALID tiles at least, and no more than a spill area has room
for (R280, R303; 01_machine.md R1; DESIGN CHOICE, log 143). -/
def Ctx.imageBytes (x : Ctx) : Nat :=
  let slots := (x.mx.slots.filter fun e => e.2.state != .free).length
  let accs := (x.mx.tiles.filter fun e => e.2.valid).length
  let tiles := (x.vx.tiles.filter fun e => e.2.valid).length
  min imageRoom (max (30720 * slots + 73728 * accs + 16384 * tiles) (Config.imageBytes slots accs tiles))

/-- The context as a save writes it: DIRTY clear on each tile it writes, which are the VALID ones (05_local_memory.md R92,
R303). -/
def Ctx.saved (x : Ctx) : Ctx :=
  { x with
    vx := { x.vx with tiles := x.vx.tiles.map fun e => (e.1, { e.2 with dirty := e.2.dirty && !e.2.valid }) }
    mx := { x.mx with tiles := x.mx.tiles.map fun e => (e.1, { e.2 with dirty := e.2.dirty && !e.2.valid }) } }

/-- The writes that the task on core c performed on it or on cores it left before, and that are not visible to every agent
yet (DESIGN CHOICE, log 107). -/
def State.priorsOf (s : State) (c : Nat) (x : Ctx) : List Prior :=
  (x.priors.filter fun b => s.pend.any (·.id == b.id)) ++ s.pend.filterMap fun w => match w.actor with
    | .core d a => if d = c then some { agent := a, cls := w.cls, id := w.id } else none
    | _ => none

/-- The shadow bank of core c holds a context (R280). -/
def State.bankFull (s : State) (c : Nat) : Bool := s.images.any fun g => g.bank && g.pcore == c

/-- Bytes of a shadow bank. -/
def bankBytes : Nat := 768 * 1024

/-- The spill area that the TCB of a partition names. -/
def State.spillArea (s : State) (p tcb : Nat) : Nat := bitsNat (s.tcbGet p tcb 15) 51 12 * 4096

/-- The Trivet of cluster k runs: its uncore island is on (24_power_bringup.md R345; DEDUCED, log 56). -/
def State.trivetRuns (s : State) (k : Nat) : Bool := (s.island (128 + k)).pstate == 2

/-- The uncore island on which the Trivet of core c's cluster is metered (17_energy.md R282, R289; DEDUCED, log 56). -/
def trivetIsland (c : Nat) : Nat := 128 + c / 16

/-- A page of the n bytes at a, which hardware reaches for partition p, is not the partition's to reach
(20_translation_faults.md R315). -/
def State.breaks (s : State) (p a n : Nat) : Bool :=
  (List.range ((a % 4096 + n + 4095) / 4096)).any fun i =>
    let pa := a / 4096 * 4096 + 4096 * i
    (s.part p).outside pa || s.protected pa

/-- The Trivet of core c's cluster writes n bytes of the spill area from byte o on; what they hold is a free value (R280;
DESIGN CHOICE, log 59). The answer says whether the write breaks isolation: then it does not perform. -/
def State.spillOut (s : State) (c p tcb o n : Nat) : State × Bool :=
  let a := s.spillArea p tcb + o
  if n = 0 then (s, false)
  else if s.breaks p a n then (s, true)
  else if !physExists a || !physExists (a + n - 1) then (s, false)
  else
    (({ s.hwWrite 2 a ((List.range n).map (Config.spillByte s.free)) with free := s.free + 1 }).meterUncore (trivetIsland c) 1
      ((n + 63) / 64), false)

/-- The context on core c as it leaves the core. -/
def State.outgoing (s : State) (c : Nat) : Ctx := { s.ctx c with priors := s.priorsOf c (s.ctx c) }

/-- A context joins the saved ones: in the bank of core c where that is free, and what is beyond it in the spill area that its
TCB names (R280, R303; DEDUCED, log 24); the answer is its WHERE. An image whose spill breaks isolation is lost. -/
def State.saveImage (s : State) (t i c : Nat) (b : Binding) (x : Ctx) : State × Nat :=
  let full := s.bankFull c
  let room := if full then 0 else bankBytes
  let wher := if full || decide (bankBytes < x.imageBytes) then 2 else 1
  let r := (if full then s else s.mend [.bank c]).spillOut c b.part.toNat b.tcb.toNat 0 (x.imageBytes - room)
  ({ r.1 with images := r.1.images ++
      [{ team := t, member := i, ctx := x.saved, pcore := c, wher := wher, bank := !full, b := b,
         resident := true, aBytes := [], wBytes := [], aTags := [], wTags := [], lost := r.2, stopped := false }] }, wher)

/-- Member i of team t has no saved context, and no granule of it is on its way there in a forwarding table. -/
def State.dropImage (s : State) (t i : Nat) : State :=
  let mine := fun (e : FwdEnt) => e.into.isNone && e.team == t && e.member == i
  let hit := (s.cores.filter fun e => e.2.fwd.any mine).map (·.1)
  let s := hit.foldl (fun s c => s.modCore c fun k => { k with fwd := k.fwd.filter fun e => !mine e }) s
  { s with images := s.images.filter fun g => !(g.team == t && g.member == i) }

/-- The binding of a timetable entry as the Trivet loads it through the core window: a buffer range that leaves its buffer is
ignored, and sets WERR (R275, R278). -/
def Core.loadBinding (k : Core) (b : Binding) : Core :=
  let a := decide (b.aBase + b.aLimit ≤ 256)
  let w := decide (b.wBase + b.wLimit ≤ 512)
  let old := k.b
  { k with
    werr := k.werr || !(a && w)
    b := { b with
      aBase := if a then b.aBase else old.aBase, aLimit := if a then b.aLimit else old.aLimit
      wBase := if w then b.wBase else old.wBase, wLimit := if w then b.wLimit else old.wLimit } }

/-- A context takes core c under entry e: the binding is loaded and CUR names the entry (R278, R300). A core that held no
context is not halted; a halt that the host has requested of a running one takes place at this segment end. -/
def State.install (s : State) (c e t i : Nat) (x : Ctx) : State :=
  s.modCore c fun k =>
    { k.loadBinding (k.ent e).b with
      ctx := x, cur := e, task := some (t, i), halted := k.haltReq && k.task.isSome, haltReq := k.haltReq && k.task.isSome, hold := .none,
      drain := false }

/-- A core that holds no context any more: halted, with what f leaves of the old one (DESIGN CHOICE, log 1). -/
def State.vacate (s : State) (c : Nat) (f : Ctx → Ctx) : State :=
  s.modCore c fun k => { k with ctx := f k.ctx, task := none, halted := true, hold := .none, drain := false }

/-- The saved context of the timetable's other entry of core c, where that entry is valid and its team is Running; one that
stands drained, or that a stop has halted (25_debug.md R351), is not switched in. -/
def State.alternate (s : State) (c : Nat) : Option (Nat × Image) :=
  let k := s.core c
  if !(k.ent k.other).v then none
  else
    (s.images.find? fun g => !g.stopped && (Tbl.get? s.teams g.team).any fun x =>
      x.state == .running && !x.drained.contains g.member &&
      (x.members[g.member]?).any fun m => m.core == c && m.ent == k.other).map fun g => (k.other, g)

/-- A saved context is restored on its core: its TCB says that no bank holds it (R303). -/
def State.bringBack (s : State) (c e : Nat) (g : Image) (x : Ctx) : State :=
  let s := (s.dropImage g.team g.member).install c e g.team g.member x
  if g.wher = 0 then s else s.tcbSet g.b.part.toNat g.b.tcb.toNat 15 63 62 0

/-- Bytes of a saved context in its spill area: the image beyond the bank, and a footprint that was spilled. -/
def Image.spillBytes (g : Image) : Nat :=
  g.ctx.imageBytes - (if g.bank then bankBytes else 0) + if g.resident then 0 else 4097 * (g.b.aLimit + g.b.wLimit)

/-- The lines that hold an error, injected or of the system cache. -/
def State.badLines (s : State) : List Nat :=
  ((s.err.inj.map fun e => bitsNat e.2.toNat 51 6 * 64) ++ s.bad.filterMap fun x => match x with
    | .cache 7 _ _ l => some l
    | _ => none).eraseDups

/-- A saved context is read, by the Trivet of core c's cluster: the errors it meets in its bank and its spill area are counted
or logged, and the answer says whether there is an uncorrectable one (20_translation_faults.md R318, R319). -/
def State.imageError (s : State) (c : Nat) (g : Image) : State × Bool :=
  let p := g.b.part.toNat
  let n := g.spillBytes
  let r := if g.bank then s.sramErrors .service p [.bank g.pcore] else (s, false)
  let base := s.spillArea p g.b.tcb.toNat
  let lines := s.badLines.filter fun a => decide (base ≤ a) && decide (a < base + n)
  let r := lines.foldl (fun r a =>
    let e := r.1.lineError .service p false a 0
    (e.1, r.2 || e.2)) r
  (r.1.meterUncore (trivetIsland c) 0 ((n + 63) / 64), r.2)

/-- A core without a context, of which no halt is requested, takes its alternate, if one is admitted: it runs on without a
switch (R278, R300). -/
def State.loadAlternate (s : State) (c : Nat) : State :=
  match s.alternate c with
  | some (e, g) =>
    if (s.core c).task.isSome || (s.core c).haltReq then s
    else
      match s.imageError c g with
      | (s, true) => s.freezeTeam g.team 3 g.b.tcb.toNat 0 0
      | (s, false) => s.bringBack c e g g.ctx
  | none => s

/-- A context that has held its core for n ec (01_machine.md R19); `cycle` counts them outside M-mode (08_stoker_isa.md
R357). -/
def Ctx.spend (x : Ctx) (n : Nat) : Ctx :=
  { x with cycle := if x.mode = .m then x.cycle else x.cycle + n, segCount := x.segCount + n, runCount := x.runCount + n }

/-- The switch of core c brings no other context in: its own goes on, or halts where the host has asked for it (R278). -/
def State.stayOn (s : State) (c : Nat) : State :=
  s.modCore c fun k => { k with hold := .none, halted := k.haltReq, ctx := k.ctx.spend k.loadec }

/-- A saved context of the team is lost. -/
def State.imageLost (s : State) (t : Nat) : Bool := s.images.any fun g => g.team == t && g.lost

/-- The exchange of a timetable switch: the outgoing image goes to the bank the incoming one leaves, as a save does it; the
cycles of the load count toward the incoming segment (R300, R303). -/
def State.exchange (s : State) (c : Nat) : State :=
  match s.alternate c, (s.core c).task with
  | some (e, g), some (t, i) =>
    let k := s.core c
    let n := k.loadec
    match s.imageError c g with
    | (s, true) => (s.stayOn c).freezeTeam g.team 3 g.b.tcb.toNat 0 0
    | (s, false) =>
    let r := (s.dropImage g.team g.member).saveImage t i c k.b (s.outgoing c)
    let s := r.1.tcbUpd k.b.part.toNat k.b.tcb.toNat 15 fun v => putBits (putBits v 63 62 r.2) 6 0 c
    let s := s.bringBack c e g (g.ctx.spend n)
    if s.imageLost t then
      (s.modTeam t fun y => { y with lostImage := true }).freezeTeam t 2 k.b.tcb.toNat 0 0
    else s
  | _, _ => s

/-- The engine queues of a context are empty. -/
def Ctx.drainedQueues (x : Ctx) : Bool := x.entries.isEmpty

/-! ### Team bookkeeping -/

/-- A team takes a state and the next order stamp. -/
def State.restamp (s : State) (t : Nat) (st : TeamState) : State :=
  { (s.modTeam t fun y => { y with state := st, stamp := s.stamp }) with stamp := s.stamp + 1 }

/-- The team that holds a TCB of a partition, and the member. -/
def State.teamAt (s : State) (p tcb : Nat) : Option (Nat × Team × Nat) :=
  s.teams.findSome? fun e =>
    if e.2.part = p then (e.2.members.findIdx? fun m => m.tcb == tcb).map fun i => (e.1, e.2, i) else none

/-- A member's timetable entry holds no context any more. -/
def State.freeEntry (s : State) (m : Member) : State :=
  s.modCore m.core fun k => k.setEnt m.ent { (k.ent m.ent) with v := false }

/-- A member of a team whose state has cores. -/
def TeamState.onCores : TeamState → Bool
  | .placed | .running | .suspending | .moving | .restored | .frozenHere => true
  | _ => false

/-- The hardware has looked at the TCBs of a team's members. -/
def State.lookTcbs (s : State) (x : Team) : State := x.live.foldl (fun s m => s.tcbLook x.part m.1.tcb) s

/-- Every member's restartable mark is set (01_machine.md R25). -/
def State.restartable (s : State) (x : Team) : Bool :=
  x.members.all fun m => bitNat (s.tcbGet x.part m.tcb 0) 44

/-- The core of a member is released and its alternate goes on. -/
def State.releaseCore (s : State) (t : Nat) (f : Ctx → Ctx) (m : Member × Nat) : State :=
  let s := s.freeEntry m.1
  if (s.core m.1.core).task == some (t, m.2) then (s.vacate m.1.core f).loadAlternate m.1.core else s

/-- One member of a killed team: settled, discarded, and Ready again with RESTART = 1 (R24). RSTBL stays as the run left it
(R25; DESIGN CHOICE, log 116). -/
def State.killMember (s : State) (x : Team) (t : Nat) (m : Member × Nat) : State :=
  let tcb := s.tcbOf x.part t m
  let s :=
    match s.memberHome t m with
    | some h => (s.leave (s.homeCtx h)).1
    | none => s
  let s := s.dropImage t m.2
  let s := if x.state.onCores || (s.core m.1.core).task == some (t, m.2) then s.releaseCore t Ctx.killed m else s
  let s := s.tcbUpd tcb.1 tcb.2 0 fun v => putBits (putBits v 47 45 1) 42 42 1
  s.tcbSet tcb.1 tcb.2 15 63 61 0

/-- KILL (R24): every member ends, and the team is Ready again. Members that have retired stay retired. -/
def State.killTeam (s : State) (t : Nat) : State :=
  match Tbl.get? s.teams t with
  | none => s
  | some x =>
    ((x.live.foldl (fun s m => s.killMember x t m) s).restamp t .ready).modTeam t fun y =>
      { y with drained := [], lostImage := false }

/-- The members of a team that are not Retiring on their cores: those run on to their end through a save (R10). -/
def State.staying (s : State) (t : Nat) (x : Team) : List (Member × Nat) :=
  x.live.filter fun m => !((s.core m.1.core).task == some (t, m.2) && (s.core m.1.core).hold == .retiring)

/-- One member is saved as a checkpoint: its image, WHERE, PCORE and STATE, and its core is released (R303). -/
def State.saveMember (s : State) (x : Team) (t : Nat) (frz : Bool) (m : Member × Nat) : State :=
  let c := m.1.core
  let tcb := s.tcbOf x.part t m
  let mark := fun (s : State) (wher : Nat) =>
    let s := s.tcbUpd tcb.1 tcb.2 0 fun v => putBits v 47 45 4
    s.tcbUpd tcb.1 tcb.2 15 fun v => putBits (putBits (putBits v 63 62 wher) 61 61 (if frz then 1 else 0)) 6 0 c
  if (s.core c).task == some (t, m.2) then
    let s := s.leaveCore c
    let r := s.saveImage t m.2 c (s.core c).b (s.outgoing c)
    mark (r.1.releaseCore t Ctx.fresh m) r.2
  else
    match s.imageOf t m.2 with
    | none => s
    | some k =>
      match s.images[k]? with
      | none => s
      | some g =>
        let r := s.leave g.ctx
        mark ((r.1.modImage k fun g => { g with ctx := r.2, stopped := false }).releaseCore t Ctx.fresh m) g.wher

/-- FRZ is set in the TCBs of a team's members. -/
def State.markFrozen (s : State) (t : Nat) (x : Team) : State :=
  (s.staying t x).foldl (fun s m => s.setFrz x.part m.1.tcb true) s

/-- CHECKPOINT (R303): every member that is not Retiring is saved, and the team is Suspended, or Frozen by checkpoint; its
WAITIV restarts (R297). A save that breaks isolation freezes the team, whose image is lost (20_translation_faults.md R315). -/
def State.saveTeam (s : State) (t : Nat) (frz : Bool) : State :=
  match Tbl.get? s.teams t with
  | none => s
  | some x =>
    let s := (x.members.zipIdx.map (s.tcbOf x.part t)).foldl (fun s a => s.tcbSet a.1 a.2 3 47 32 0) s
    let s := (((s.staying t x).foldl (fun s m => s.saveMember x t frz m) s).restamp t
      (if frz then .frozenSaved else .suspended)).modTeam t fun y => { y with drained := [] }
    if s.imageLost t then
      (((s.markFrozen t x).modTeam t fun y => { y with state := .frozenSaved, lostImage := true })).notify x.part 2
        ((x.members.head?.map (·.tcb)).getD 0) 0 0
    else s

/-- A member stops for a checkpoint (R303). -/
def State.haltMember (s : State) (t : Nat) (m : Member × Nat) : State :=
  if (s.core m.1.core).task == some (t, m.2) then s.modCore m.1.core (holdCore .checkpoint) else s

/-- Every member of a team stops, and the save is under way. -/
def State.beginSave (s : State) (t : Nat) : State :=
  match Tbl.get? s.teams t with
  | none => s
  | some x => ((s.staying t x).foldl (fun s m => s.haltMember t m) s).modTeam t fun y => { y with state := .suspending }

/-- The drain of a running team is at its end when every member that stays has reached its segment end. -/
def State.drainEnds (s : State) (t : Nat) : State :=
  match Tbl.get? s.teams t with
  | some x =>
    if x.state = .running ∧ !x.drained.isEmpty ∧ (s.staying t x).all fun m => x.drained.contains m.2 then s.beginSave t else s
  | none => s

/-- A drain begins: each member runs to its next segment end; one that is switched out stands at one (R302). -/
def State.beginDrain (s : State) (t : Nat) : State :=
  match Tbl.get? s.teams t with
  | none => s
  | some x =>
    let out := (x.live.filter fun m => !((s.core m.1.core).task == some (t, m.2))).map (·.2)
    ((x.live.foldl (fun s m =>
      if (s.core m.1.core).task == some (t, m.2) then s.modCore m.1.core fun k => { k with drain := true } else s) s).modTeam t
        fun y => { y with drained := (y.drained ++ out).eraseDups }).drainEnds t

/-- Cores that fell vacant while a member of the team could not be switched in take it now (R300). -/
def State.loadMembers (s : State) (x : Team) : State := x.live.foldl (fun s m => s.loadAlternate m.1.core) s

/-- The drain of a team lapses: its halted members go on, and those switched out may be switched in again (01_machine.md R25,
R28; DEDUCED, log 62). -/
def State.lapseDrain (s : State) (t : Nat) : State :=
  match Tbl.get? s.teams t with
  | none => s
  | some x =>
    if x.state ≠ .running then s
    else
      ((x.live.foldl (fun s m =>
        if (s.core m.1.core).task == some (t, m.2) then s.modCore m.1.core fun k =>
          if k.hold = .checkpoint then { k with hold := .none, halted := false, drain := false } else { k with drain := false }
        else s) s).modTeam t fun y => { y with drained := [] }).loadMembers x

/-- A member of a draining team has reached its segment end. -/
def State.memberDrained (s : State) (c t i : Nat) : State :=
  ((s.modCore c (holdCore .checkpoint)).modTeam t fun y => { y with drained := y.drained ++ [i] }).drainEnds t

/-- A switch that waits for its drain completes, where the queues are empty; a team's drain that began meanwhile ends here,
at the outgoing segment's end (R302). -/
def State.finishSwitch (s : State) (c : Nat) : State :=
  let k := s.core c
  if k.hold == .switching && k.ctx.drainedQueues && s.trivetRuns (c / 16) then
    match k.drain, k.task with
    | true, some (t, i) => s.memberDrained c t i
    | _, _ =>
      if (s.alternate c).isSome then s.exchange c else s.stayOn c
  else s

/-! ### Segments (R166) -/

/-- The Stoker issues: the core is not halted, and nothing holds it (R316). -/
def Core.issues (k : Core) : Bool := !k.halted && k.hold == .none

/-- What a segment end lets happen on core c: a drain ends, the timetable switches, or a halt is granted, to the context
switched in where there is a switch (R278, R300, R302; DEDUCED, log 62). -/
def State.atSegmentEnd (s : State) (c : Nat) : State :=
  let k := s.core c
  match k.drain, k.task with
  | true, some (t, i) => s.memberDrained c t i
  | _, _ =>
    if (s.alternate c).isSome then (s.modCore c fun k => { k with hold := .switching, loadec := 0 }).finishSwitch c
    else if k.haltReq then s.modCore c fun k => { k with halted := true }
    else s

/-- The segment-table entry at a native address. -/
def State.segmentAt (s : State) (c pc : Nat) : Option SegEntry :=
  ((s.launchOf c).bind (Tbl.get? s.launches ·)).bind fun l => l.segs.find? fun e => e.pc == pc

/-- The context at the start of a segment. -/
def Ctx.segment (x : Ctx) (e : SegEntry) : Ctx :=
  { x with segCost := e.cost, segRemain := e.remain, segCount := 0, lateDone := false }

/-- SK_SEGEND (R166, R20, R176). -/
def execSkSegend (s : State) : Res :=
  let c := s.cur
  match s.segmentAt c s.nextPc.toNat with
  | none => s.trapFree 28 (s.nextPc.toNat % 2 ^ 32)
  | some e =>
    let s := (s.upd fun x => x.segment e).retireAt s.nextPc
    let s := s.tcbSet s.me.b.part.toNat s.me.b.tcb.toNat 3 31 0 e.remain.toNat
    let s := if s.my.ywm.parked && s.my.mode == .u then s.takeTrapFree 31 0 else s
    .next (s.atSegmentEnd c)

/-- SK_SEGEND_TASK (R166): issue stops for good, the task is Retiring, and its timetable entry is free (R300). -/
def execSkSegendTask (s : State) : Res :=
  let c := s.cur
  let s := s.retireAt s.nextPc
  let s := s.modCore c fun k => { (k.setEnt k.cur { (k.ent k.cur) with v := false }) with hold := .retiring }
  match s.me.task with
  | none => .next s
  | some (t, _) =>
    let s := s.setTcbState s.me.b.part.toNat s.me.b.tcb.toNat 5
    .next (if (s.part s.me.b.part.toNat).state = 2 then s.lapseDrain t else s.drainEnds t)

/-! ### Interrupts and the watchdog (R311, R314; R176) -/

/-- INFO, AGENT and SUB of the engine-fault interrupt: the lowest-numbered agent whose record is valid (R311). -/
def Ctx.faultInfo (x : Ctx) : Nat × Nat × Nat :=
  match (allAgents.drop 1).find? fun a => (x.fault a).valid with
  | some a => (bitsNat (x.fault a).addr.toNat 31 0, a.code, bitsNat (x.fault a).fstat.toNat 47 40)
  | none => (0, 0, 0)

/-- The S-mode interrupt the Stoker takes now, if any: delegated, pending and enabled, in the order of R311. -/
def Core.interruptS (k : Core) : Option Nat :=
  let x := k.ctx
  let on : Bool := x.mode == .u || (x.mode == .s && x.csr.mstatus.getLsbD 1)
  let ready := k.sip &&& x.csr.mie &&& (x.csr.mideleg ||| midelegFixed)
  if on then [18, 17, 9, 1, 5].find? ready.getLsbD else none

/-- The M-mode interrupt the Stoker takes now: pending, enabled and not delegated (RISC-V privileged architecture). -/
def Core.interruptM (k : Core) : Option Nat :=
  let x := k.ctx
  let on : Bool := x.mode != .m || x.csr.mstatus.getLsbD 3
  let ready := x.csr.mip &&& x.csr.mie &&& ~~~(x.csr.mideleg ||| midelegFixed)
  if on then [11, 3, 7, 9, 1, 5].find? ready.getLsbD else none

/-- The throttle projection, two's complement, as INFO (17_energy.md R290). -/
def Core.throttleInfo (k : Core) : Nat := (k.throttle.getD 0).toNat

/-- INTERRUPT_TAKE (R311, 16_system_state.md R273): the pending enabled interrupt of the highest order is taken. A blocking
instruction that waits has performed nothing, and its wait ends (08_stoker_isa.md R151). -/
def execInterruptTake (s : State) : Res :=
  let x := s.my
  let fop := s.fopOf s.cur x.pc
  if !s.me.issues then .next s
  else
  match s.me.interruptM with
  | some c => .next ((s.endWait s.cur .sk).upd fun x =>
      let y := enterM c 0 x
      { y with csr := { y.csr with mcause := BitVec.ofNat 64 (2 ^ 63 + c) }, pc := vectorOf x.csr.mtvec c true })
  | none =>
    match s.me.interruptS with
    | none => .next s
    | some 18 =>
      let f := x.faultInfo
      .next ((s.endWait s.cur .sk).upd (enterS 18 true 0 f.1 f.2.1 f.2.2 fop))
    | some 17 => .next ((s.endWait s.cur .sk).modCore s.cur fun k =>
        { k with ctx := enterS 17 true 0 k.throttleInfo 0 0 fop k.ctx, throttle := none })
    | some c => .next ((s.endWait s.cur .sk).upd (enterS c true 0 0 0 0 fop))

/-- QUEUE_LOW_ENTRY (R176): `yqlepc` takes the next instruction, the pc `yqlvec`, and QLACT is set. -/
def execQueueLowEntry (s : State) : Res :=
  if !s.my.queueLow || !s.me.issues then .next s
  else .next (s.upd fun x =>
    if x.ywm.svc && !x.ywm.qlact then
      { x with queueLow := false, yqlepc := x.pc, pc := x.yqlvec, ywm := { x.ywm with qlact := true } }
    else { x with queueLow := false })

/-- The segment of a task has run n times its declared cost (R314). -/
def State.overrun (s : State) (n : Nat) : Bool :=
  s.me.task.isSome && s.my.segCost != 0 && decide (n * s.my.segCost.toNat ≤ s.my.segCount)

/-- LATE_SEGMENT_TRAP (R314): once a segment, from U-mode; in S-mode it is held until `sret`. -/
def execLateSegmentTrap (s : State) : Res :=
  if !s.overrun 2 || s.my.lateDone || s.my.mode != .u || !s.me.issues then .next s
  else
    let n := min s.my.segCount (2 ^ 32 - 1)
    .next (((s.endWait s.cur .sk).upd fun x => { x with lateDone := true }).takeTrapFree 30 n)

/-- WATCHDOG_FREEZE (R314, R316): the team is frozen by checkpoint and reported. -/
def execWatchdogFreeze (s : State) : Res :=
  match s.me.task with
  | none => .next s
  | some (t, _) =>
    if !s.overrun 4 || !s.me.issues then .next s
    else
      let p := s.me.b.part.toNat
      let tcb := s.me.b.tcb.toNat
      .next ((s.saveTeam t true).notify p 1 tcb 0 0)

/-! ### Retirement (R11, R277) -/

/-- Every write of core c's agents, and every write its task performed on a core it has left, is visible at device scope
(R11; DESIGN CHOICE, log 107). -/
def State.released (s : State) (c : Nat) : Bool :=
  s.pend.all fun w => decide (2 ≤ w.scope) || (!(s.ctx c).priors.any (·.id == w.id) && (match w.actor with
    | .core d _ => d != c
    | _ => true))

/-- The successors that the TCB of a task of team t lists, inline ones first, then those of its overflow blocks (R276). -/
def State.succs (s : State) (t p : Nat) : (fuel : Nat) → (block n first : Nat) → List Nat × State
  | 0, _, _, _ => ([], s)
  | fuel + 1, block, n, first =>
    let s := s.tcbLookFor (some t) p block
    let here := (((List.range n).map fun i => s.tcbGet p block (first + i)).filter fun v => bitNat v 63).map fun v => bitsNat v 56 0
    let next := s.tcbGet p block (first + n)
    if bitNat next 63 then
      let r := s.succs t p fuel (bitsNat next 56 0) 15 0
      (here ++ r.1, r.2)
    else (here, s)

/-- PREDECESSOR_DECREMENT (R277). A task of no launch in progress becomes Ready when its launch begins (R324; DEDUCED, log 63). -/
def State.decrement (s : State) (p succ : Nat) : State :=
  let n := bitsNat (s.tcbGet p succ 0) 63 48
  if n = 0 then
    let s' := s.tcbLook p succ
    if s.tcbBreaks p succ then s' else s'.notify p 4 succ 0 0
  else
    let s := s.tcbSet p succ 0 63 48 (n - 1)
    if n ≠ 1 then s
    else
      match s.teamAt p succ with
      | some (t, x, _) => if x.state = .waiting then (s.setTcbState p succ 1).readyCheck t else s
      | none => s

/-- The words that the task on core c has left in its deque stay for the other tasks of its launch (01_machine.md R17; DEDUCED,
log 130). -/
def State.leaveWords (s : State) (c : Nat) : State :=
  match s.launchOf c with
  | none => s
  | some l => s.modCore c fun k =>
      { k with left := k.left ++ k.ctx.deque.map fun w => (l, w), ctx := { k.ctx with deque := [] } }

/-- No core keeps words of launch l. -/
def State.dropWords (s : State) (l : Nat) : State :=
  ((s.cores.filter fun e => e.2.left.any (·.1 == l)).map (·.1)).foldl (fun s c =>
    s.modCore c fun k => { k with left := k.left.filter (·.1 != l) }) s

/-- A launch whose tasks have all retired is complete: its packet ends, and its cache entry is unpinned (R322, R261). -/
def State.endLaunch (s : State) (id : Nat) : State :=
  match Tbl.get? s.launches id with
  | none => s
  | some l =>
    let s : State :=
      { s.dropWords id with teams := s.teams.filter (fun e => e.2.launch != id), launches := Tbl.del s.launches id }
    let s := match l.cacheKey with
      | some key => s.unpin key
      | none => s
    s.modQueue l.part l.queue fun x => (x.mapBusy fun b => if b = .launch id then none else some b).tidy

/-- A member has retired: a team whose members all have is Retired, and so its launch in its turn. A drain may end with it. -/
def State.memberRetired (s : State) (t i : Nat) : State :=
  let s := s.modTeam t fun y => { y with done := y.done ++ [i] }
  match Tbl.get? s.teams t with
  | none => s
  | some x =>
    if !x.live.isEmpty then s.drainEnds t
    else
      let s := s.modTeam t fun y => { y with state := .retired }
      if (s.teams.filter fun e => e.2.launch == x.launch).all fun e => e.2.state == .retired then s.endLaunch x.launch else s

/-- Every command has retired, every own access has performed, and every token held has ended (R10). -/
def Ctx.quiet (x : Ctx) : Bool := x.entries.isEmpty && x.sq.isEmpty && x.tokens.all fun t => t.2.ended.isSome

/-- TASK_RETIREMENT (R11, R289): `yjoule` goes to JOULE, then each successor is decremented, once per entry. A task whose team is
frozen where its successors are read retires once it is resumed. -/
def execTaskRetirement (s : State) : Res :=
  let c := s.cur
  if s.me.hold ≠ .retiring || !s.my.quiet || !s.released c then .next s
  else
    match s.me.task with
    | none => .next (s.vacate c id)
    | some (t, i) =>
      let p := s.me.b.part.toNat
      let tcb := s.me.b.tcb.toNat
      let j := s.my.fa / 64
      let r := s.succs t p (Config.lp6Bytes / 128) tcb 6 8
      if (r.2.core c).hold ≠ .retiring then .next r.2
      else
        let s := (r.2.upd fun x => { x with yjoule := BitVec.ofNat 64 j }).leaveCore c
        let s := s.tcbUpd p tcb 7 fun _ => j
        let s := r.1.foldl (fun s d => s.decrement p d) s
        let s := ((s.setTcbState p tcb 6).leaveWords c).vacate c id
        .next ((s.loadAlternate c).memberRetired t i)

/-! ### Freezes resolved by the host (R316) -/

/-- One member of a team frozen in place goes on; the command a violation stopped runs again from its progress. -/
def State.thawMember (s : State) (p t : Nat) (m : Member × Nat) : State :=
  let tcb := s.tcbOf p t m
  let retiring := bitsNat (s.tcbGet tcb.1 tcb.2 0) 47 45 == 5
  let s := s.setFrz tcb.1 tcb.2 false
  if (s.core m.1.core).task == some (t, m.2) then
    s.modCore m.1.core fun k =>
      let x := k.ctx
      let x := { x with faults := x.faults.filter fun f => !f.2.fstat.getLsbD 62 }
      { k with hold := if retiring then .retiring else .none, halted := false, ctx := if x.mode = .m then leaveM x else x }
  else s

/-- FREEZE_RESUME (R316, R10; DEDUCED, log 67); refused too while the partition's interface is in ERROR
(23_host_links_security.md R335). -/
def execFreezeResume (p : Nat) (tcb : BitVec 57) (s : State) : Res :=
  if !s.up then .next s
  else if s.windowLocked p then .next (s.refusePart p)
  else
  let s := s.modPart p fun y => { y with fzctl := BitVec.ofNat 64 (tcb.toNat / 128 * 128 + 1) }
  match s.teamAt p (tcb.toNat / 128 * 128) with
  | none => .next s
  | some (t, x, _) =>
    if x.state ≠ .frozenHere ∧ x.state ≠ .frozenSaved then .next s
    else if x.lostImage ∨ s.inError p then .next (s.modPart p fun y => { y with resref := true })
    else if x.state = .frozenHere then
      .next (((x.live.foldl (fun s m => s.thawMember p t m) s).modTeam t fun y => { y with state := .running }).loadMembers x)
    else .next (((s.staying t x).foldl (fun s m => s.setFrz p m.1.tcb false) s).restamp t .suspended)

/-- FREEZE_KILL (R316): restartable or not. -/
def execFreezeKill (p : Nat) (tcb : BitVec 57) (s : State) : Res :=
  if !s.up then .next s
  else if s.windowLocked p then .next (s.refusePart p)
  else
  let s := s.modPart p fun y => { y with fzctl := BitVec.ofNat 64 (tcb.toNat / 128 * 128 + 2) }
  match s.teamAt p (tcb.toNat / 128 * 128) with
  | none => .next s
  | some (t, x, _) => if x.state = .frozenHere ∨ x.state = .frozenSaved then .next (s.killTeam t) else .next s

end Sys2Proof.Machine
end

