-- ==== Sys2Proof/Machine/Trivet.lean ====
section
/-! DEFINITION. Orders, placement, pre-emption, saves and resumes (19_scheduling.md R296 to R306; 21_command_processor.md
R328; 16_system_state.md R275, R280). -/
namespace Sys2Proof.Machine

/-! ### Priority (R297) -/

def Team.size (x : Team) : Nat := x.members.length

/-- The TCB that stands for a team: member 0's. -/
def Team.tcb (x : Team) : Nat := (x.members.head?.map (·.tcb)).getD 0

/-- Priority tokens left. -/
def State.tokens (s : State) (x : Team) : Nat := bitsNat (s.tcbGet x.part x.tcb 0) 30 27

/-- The effective priority of a team that waits. -/
def State.prioOf (s : State) (x : Team) : Nat :=
  min 7 (bitsNat (s.tcbGet x.part x.tcb 0) 33 31 + bitsNat (s.tcbGet x.part x.tcb 3) 47 32 / 64 +
    if 0 < s.tokens x then 1 else 0)

/-- Team x comes before team y: higher effective priority, then the earlier stamp. -/
def State.before (s : State) (x y : Team) : Bool :=
  decide (s.prioOf y < s.prioOf x) || (s.prioOf x == s.prioOf y && decide (x.stamp < y.stamp))

/-! ### Room on a core (R275, R298, R304) -/

/-- A used range of granules, ABUF and WBUF. -/
def Binding.ranges (b : Binding) : (Nat × Nat) × (Nat × Nat) := ((b.aBase, b.aLimit), (b.wBase, b.wLimit))

/-- The bindings of a core's timetable, the running one among them. -/
def Core.bindings (k : Core) : List Binding :=
  (if k.task.isSome then [k.b] else []) ++
  (([0, 1].filter fun e => (k.ent e).v && !(k.task.isSome && e == k.cur)).map fun e => (k.ent e).b)

/-- Saved contexts whose footprints lie in core c's buffers and which its timetable does not hold. -/
def State.strays (s : State) (c : Nat) : List Image :=
  s.images.filter fun g => g.resident && g.pcore == c && (match Tbl.get? s.teams g.team with
    | some x => x.state == .suspended || x.state == .frozenSaved || x.state == .moving
    | none => false)

/-- Contexts resident in the buffers of core c (R298). -/
def State.residents (s : State) (c : Nat) : Nat := (s.core c).bindings.length + (s.strays c).length

/-- Where a footprint of a and w granules goes on core c beside the given ranges (DESIGN CHOICE, log 59). -/
def fitBeside (used : List ((Nat × Nat) × (Nat × Nat))) (a w : Nat) : Option (Nat × Nat) :=
  match firstFit 256 (used.map (·.1)) a, firstFit 512 (used.map (·.2)) w with
  | some x, some y => some (x, y)
  | _, _ => none

/-- The footprint of a team's tasks in granules. -/
def State.footprint (s : State) (x : Team) : Nat × Nat :=
  match Tbl.get? s.launches x.launch with
  | some l => (l.abuf, l.wbuf)
  | none => (0, 0)

/-- An island is commanded on, and on (R298, 24_power_bringup.md R345). -/
def State.islandUp (s : State) (i : Nat) : Bool := (s.island i).cmd == 1 && (s.island i).pstate == 2

/-- Core c is free for team x: its island is on, its timetable has a free entry, and the footprint fits beside those of the
timetable (R298). -/
def State.coreFree (s : State) (x : Team) (c : Nat) : Bool :=
  let f := s.footprint x
  s.islandUp c && (s.core c).freeEnt.isSome && (fitBeside ((s.core c).bindings.map (·.ranges)) f.1 f.2).isSome

/-- A list sorted by a key, equal keys in their order. -/
def insertBy (key : Nat → Nat) (n : Nat) : List Nat → List Nat
  | [] => [n]
  | m :: t => if key n < key m then n :: m :: t else m :: insertBy key n t

def sortBy (key : Nat → Nat) (l : List Nat) : List Nat := l.foldr (insertBy key) []

/-- Cores a suspended team left. -/
def State.leftCores (s : State) (t : Nat) : List Nat := (s.images.filter fun g => g.team == t).map (·.pcore)

/-- The free cores of cluster k for team t: those it left first, then the fewest resident contexts, then the lower CORE. -/
def State.freeCores (s : State) (t : Nat) (x : Team) (k : Nat) : List Nat :=
  let left := if x.state = .suspended then s.leftCores t else []
  sortBy (fun c => (if left.contains c then 0 else 1) * 2 ^ 20 + s.residents c * 256 + c)
    (((List.range 16).map fun i => 16 * k + i).filter (s.coreFree x))

/-- The partition owns cluster k. -/
def Part.owns (p : Part) (k : Nat) : Bool := p.clmask.getLsbD k

/-- Cluster k holds the team's shape now. -/
def State.holds (s : State) (t : Nat) (x : Team) (k : Nat) : Bool :=
  (s.part x.part).owns k && decide (x.size ≤ (s.freeCores t x k).length)

/-! ### Orders (R328) -/

/-- The cluster the Grate sends a team to. -/
def State.chosenCluster (s : State) (t : Nat) (x : Team) : Option Nat :=
  let own := (List.range 8).filter (s.part x.part).owns
  match own.find? (s.holds t x) with
  | some k => some k
  | none =>
    own.foldl (fun m k => match m with
      | none => some k
      | some j => if (s.link k).queue.length < (s.link j).queue.length then some k else some j) none

/-- PLACEMENT_ORDER (R328): a Ready team's order spends one permit of its link, once its launch has its code (R325). -/
def execPlacementOrder (team : Nat) (s : State) : Res :=
  match Tbl.get? s.teams team with
  | none => .next s
  | some x =>
    if x.state ≠ .ready ∨ x.cluster.isSome ∨ (s.part x.part).state ≠ 2 ∨
        !(Tbl.get? s.launches x.launch).any (·.built) then .next s
    else
      match s.chosenCluster team x with
      | none => .next s
      | some k =>
        if (s.link k).permits = 0 then .next s
        else
          .next ((s.modLink k fun l =>
            { l with orders := (l.orders + 1) % 2 ^ 32, permits := l.permits - 1, queue := l.queue ++ [team] }).modTeam team
              fun y => { y with cluster := some k })

/-- The Trivet takes the orders of its link, first in first out, and returns their permits (DEDUCED, log 61). -/
def State.takeOrders (s : State) (k : Nat) : State :=
  let q := (s.link k).queue
  if q.isEmpty || !s.trivetRuns k then s
  else (q.foldl (fun s t => s.modTeam t fun y => { y with ordered := true }) s).modLink k fun l =>
    { l with permits := l.permits + q.length, queue := [] }

/-! ### Placement (R298, R304) -/

/-- A team waits for placement by the Trivet of cluster k. -/
def State.waitsAt (s : State) (k : Nat) (x : Team) : Bool :=
  (s.part x.part).state == 2 && ((x.state == .ready && x.ordered && x.cluster == some k) || x.state == .suspended)

/-- A team whose cores are on their way to being free: it drains or is being saved (R305). -/
def State.leaving (s : State) (t : Nat) (x : Team) : Bool :=
  x.state == .suspending || (x.state == .running && x.live.any fun m => (s.core m.1.core).task == some (t, m.2) && (s.core m.1.core).drain)

/-- Core c, without the contexts of the given teams, is free for team x. A Retiring context stays until it has retired, and its
footprint with it (R298, R301). -/
def State.freedFor (s : State) (x : Team) (gone : List Nat) (c : Nat) : Bool :=
  let f := s.footprint x
  let k := s.core c
  let here := k.task.any fun t => !gone.contains t.1 || k.hold == .retiring
  let stays := fun (e : Nat) => (k.ent e).v && !(k.task.isSome && e == k.cur) && !(s.teams.any fun y =>
    gone.contains y.1 && y.2.state.onCores && y.2.live.any fun m => m.1.core == c && m.1.ent == e)
  let left := [0, 1].filter stays
  let room := if here then !stays k.other else decide (left.length < 2)
  s.islandUp c && room &&
  (fitBeside ((if here then [k.b.ranges] else []) ++ left.map fun e => (k.ent e).b.ranges) f.1 f.2).isSome

/-- Cores of cluster k that are free for team x without the contexts of the given teams. -/
def State.freedIn (s : State) (x : Team) (gone : List Nat) (k : Nat) : Nat :=
  (((List.range 16).map fun i => 16 * k + i).filter (s.freedFor x gone)).length

/-- The teams of a partition that are on their way off their cores. -/
def State.leavers (s : State) (p : Nat) : List Nat :=
  (s.teams.filter fun y => y.2.part == p && s.leaving y.1 y.2).map (·.1)

/-- Cluster k will hold the team's shape once the teams that drain or are being saved have left it (R305). -/
def State.holdsSoon (s : State) (x : Team) (k : Nat) : Bool :=
  let gone := s.leavers x.part
  !gone.isEmpty && (s.part x.part).owns k && decide (x.size ≤ s.freedIn x gone k)

/-- No team that comes before team x could be placed in cluster k now, or will be on the cores that a pre-emption frees there (R297, R305; DEDUCED, log 60). -/
def State.isNext (s : State) (k : Nat) (x : Team) : Bool :=
  s.teams.all fun y => !(s.waitsAt k y.2 && s.before y.2 x && (s.holds y.1 y.2 k || s.holdsSoon y.2 k))

/-- The hardware has looked at the TCBs that give the priorities of the teams that wait at cluster k. -/
def State.lookWaiting (s : State) (k : Nat) : State :=
  (s.teams.filter fun y => s.waitsAt k y.2).foldl (fun s y => s.tcbLook y.2.part y.2.tcb) s

/-- The tags of n granules of a buffer from granule o on, by granule from there. -/
def Core.tagsOf (k : Core) (inW : Bool) (o n : Nat) : Tbl Byte :=
  ((List.range n).map fun i => (i, k.tag inW (o + i))).filter fun e => e.2 != 0

def pasteTags (t : Tbl Byte) (o n : Nat) (f : Tbl Byte) : Tbl Byte :=
  (t.filter fun e => decide (e.1 < o)) ++ f.map (fun e => (e.1 + o, e.2)) ++ t.filter fun e => decide (o + n ≤ e.1)

/-- A footprint with its bytes and tags, as it lies on core c under a binding. -/
def Image.lift (g : Image) (k : Core) : Image :=
  { g with
    aBytes := cutBytes (k.buf false) (4096 * g.b.aBase) (4096 * g.b.aLimit)
    wBytes := cutBytes (k.buf true) (4096 * g.b.wBase) (4096 * g.b.wLimit)
    aTags := k.tagsOf false g.b.aBase g.b.aLimit
    wTags := k.tagsOf true g.b.wBase g.b.wLimit
    resident := false }

/-- A spilled footprint that takes up a granule in transit. -/
def Image.takeUp (g : Image) (e : FwdEnt) : Image :=
  let tag : Tbl Byte := if e.tag = 0 then [] else [(0, e.tag)]
  if e.inW then
    { g with wBytes := pasteBytes g.wBytes (4096 * e.granule) 4096 e.bytes, wTags := pasteTags g.wTags e.granule 1 tag }
  else { g with aBytes := pasteBytes g.aBytes (4096 * e.granule) 4096 e.bytes, aTags := pasteTags g.aTags e.granule 1 tag }

/-- A granule that a refill brings goes into its buffer, bytes and tag. -/
def Core.settleGranule (k : Core) (e : FwdEnt) (g : Nat) : Core :=
  (k.setBuf e.inW (pasteBytes (k.buf e.inW) (4096 * g) 4096 e.bytes)).setTag e.inW g e.tag

/-- The oldest granule in core c's forwarding table is written back: into the buffer, or behind its image
(05_local_memory.md R91). -/
def State.writeBack (s : State) (c : Nat) : State :=
  match (s.core c).fwd with
  | [] => s
  | e :: rest =>
    let s := s.modCore c fun k => { k with fwd := rest }
    match e.into, s.imageOf e.team e.member with
    | some g, _ => s.modCore c fun k => k.settleGranule e g
    | none, some n => s.modImage n fun g => g.takeUp e
    | none, none => s

/-- A granule enters core c's forwarding table; while all 16 entries are held, one is written back first (R91). -/
def State.forward (s : State) (c : Nat) (e : FwdEnt) : State :=
  (if (s.core c).fwd.length < 16 then s else s.writeBack c).modCore c fun k => { k with fwd := k.fwd ++ [e] }

/-- The granules of a lifted footprint, on their way out, or to the physical granules that `into` gives. -/
def Image.granules (g : Image) (into : Bool → Nat → Option Nat) : List FwdEnt :=
  ((List.range g.b.aLimit).map fun n =>
    { team := g.team, member := g.member, inW := false, granule := n, into := into false n
      bytes := cutBytes g.aBytes (4096 * n) 4096, tag := Tbl.get 0 g.aTags n }) ++
  ((List.range g.b.wLimit).map fun n =>
    { team := g.team, member := g.member, inW := true, granule := n, into := into true n
      bytes := cutBytes g.wBytes (4096 * n) 4096, tag := Tbl.get 0 g.wTags n })

/-- A team whose saved state cannot be read, or is lost, is frozen (R315, R318). -/
def State.freezeSaved (s : State) (t : Nat) (x : Team) (kind dw2 : Nat) (lost : Bool) : State :=
  let s := (s.staying t x).foldl (fun s m =>
    (if x.state.onCores then s.freeEntry m.1 else s).setFrz x.part m.1.tcb true) s
  ((s.restamp t .frozenSaved).modTeam t fun y => { y with lostImage := y.lostImage || lost }).notify x.part kind x.tcb dw2 0

/-- A suspended footprint is spilled behind its image, granule by granule through the forwarding table, and WHERE is 2 (R304,
05_local_memory.md R91; DEDUCED, log 101). Where the spill breaks isolation, the team's state is lost. -/
def State.spillImage (s : State) (t i : Nat) : State :=
  match s.imageOf t i with
  | none => s
  | some n =>
    match s.images[n]?, Tbl.get? s.teams t with
    | some g, some x =>
      let k := s.core g.pcore
      let s := s.modImage n fun g =>
        { g with aBytes := [], wBytes := [], aTags := [], wTags := [], resident := false, wher := 2 }
      let s := ((g.lift k).granules fun _ _ => none).foldl (fun s e => s.forward g.pcore e) s
      let r := s.spillOut g.pcore x.part g.b.tcb.toNat g.spillBytes (4097 * (g.b.aLimit + g.b.wLimit))
      let s := r.1.tcbSet x.part g.b.tcb.toNat 15 63 62 2
      if r.2 then (s.modImage n fun g => { g with lost := true }).freezeSaved g.team x 2 0 true else s
    | _, _ => s

/-- Every granule of a team that is in transit is written back. -/
def State.flushTeam (s : State) (t : Nat) : State :=
  (s.cores.map (·.1)).foldl (fun s c =>
    if (s.core c).fwd.any (·.team == t) then (List.range 16).foldl (fun s _ => s.writeBack c) s else s) s

/-- Whether two bindings' ranges meet. -/
def meets (b d : Binding) : Bool :=
  overlapR b.aBase b.aLimit d.aBase d.aLimit || overlapR b.wBase b.wLimit d.wBase d.wLimit

/-- The binding of member i of team t on core c (R275): where it lies already, beside all others, or beside the
timetable's. -/
def State.bindingOn (s : State) (t : Nat) (x : Team) (m : Member × Nat) (c : Nat) (tmap : Word) : Option Binding :=
  let f := s.footprint x
  let tt := (s.core c).bindings.map (·.ranges)
  let others := ((s.strays c).filter fun g => !(g.team == t && g.member == m.2)).map (·.b.ranges)
  let own := (s.strays c).find? fun g => g.team == t && g.member == m.2
  let spot := match own with
    | some g => some (g.b.aBase, g.b.wBase)
    | none => (fitBeside (tt ++ others) f.1 f.2).or (fitBeside tt f.1 f.2)
  let cb := ((Tbl.get? s.launches x.launch).map (·.codebase)).getD 0
  spot.map fun p =>
    { part := BitVec.ofNat 3 x.part, tmap := tmap, aBase := p.1, aLimit := f.1, wBase := p.2, wLimit := f.2,
      codebase := BitVec.ofNat 64 cb, tcb := BitVec.ofNat 64 m.1.tcb }

/-- The team map of cores in member order (16_system_state.md R274). -/
def tmapOf (cores : List Nat) : Word :=
  BitVec.ofNat 64 ((cores.zipIdx.map fun c => c.1 % 16 * 2 ^ (4 * c.2)).foldl (· + ·) 0)

/-- One member placed: what it meets of the suspended footprints is spilled, and its timetable entry is written. -/
def State.placeMember (s : State) (t : Nat) (x : Team) (tmap : Word) (m : Member × Nat) (c : Nat) : State :=
  match s.bindingOn t x m c tmap, (s.core c).freeEnt with
  | some b, some e =>
    let hit := (s.strays c).filter fun g => !(g.team == t && g.member == m.2) && meets b g.b
    let s := hit.foldl (fun s g => s.spillImage g.team g.member) s
    let s := s.modCore c fun k => k.setEnt e { v := true, b := b }
    let s := if x.state = .ready then s.setTcbState x.part m.1.tcb 2 else s
    s.modTeam t fun y => { y with members := setAt y.members m.2 { m.1 with core := c, ent := e } }
  | _, _ => s

/-- The cores a suspended team left are preferred (R298, R306): cluster k offers it as many of them as any other cluster that
could hold it. -/
def State.prefers (s : State) (t : Nat) (x : Team) (k : Nat) : Bool :=
  let left := s.leftCores t
  let n := fun (j : Nat) => (((s.freeCores t x j).take x.size).filter left.contains).length
  x.state != .suspended || ((List.range 8).filter (s.holds t x)).all fun j => decide (n j ≤ n k)

/-- PLACEMENT (R298): the team takes the chosen cores, in member order, when the Trivet's rule picks just these and no team
before it could be placed. A Retiring member stays where it is. -/
def execPlacement (team : Nat) (chosen : List Nat) (s : State) : Res :=
  match chosen.head?, Tbl.get? s.teams team with
  | some c0, some _ =>
    let k := c0 / 16
    if !s.trivetRuns k then .next s
    else
    let s := s.takeOrders k
    match Tbl.get? s.teams team with
    | none => .next s
    | some x =>
      let picked := (s.freeCores team x k).take x.size
      if !s.waitsAt k x || !s.holds team x k || !s.isNext k x || !s.prefers team x k || chosen.length ≠ x.size ||
          !picked.all chosen.contains then
        .next s
      else
        let tmap := tmapOf chosen
        let s := (s.lookWaiting k).lookTcbs x
        if !(Tbl.get? s.teams team).any (s.waitsAt k ·) then .next s
        else
        let stay := (s.staying team x).map (·.2)
        let s := (x.members.zipIdx.zip chosen).foldl (fun s e =>
          if stay.contains e.1.2 then s.placeMember team x tmap e.1 e.2 else s) s
        let s := s.modTeam team fun y => { y with cluster := some k }
        .next (s.restamp team (if x.state = .ready then .placed else .moving))
  | _, _ => .next s

/-! ### Pre-emption (R301, R302, R305) -/

/-- RUN, SEGLEFT and REMAIN of a team, the largest over its members. -/
def State.runOf (s : State) (t : Nat) (x : Team) : Nat × Nat × Nat :=
  x.live.foldl (fun r m =>
    match s.memberHome t m with
    | some h =>
      let y := s.homeCtx h
      (max r.1 y.runCount, max r.2.1 (y.segCost.toNat - y.segCount), max r.2.2 (bitsNat (s.tcbGet x.part m.1.tcb 3) 31 0))
    | none => r) (0, 0, 0)

/-- The actions of R302. -/
inductive Action where
  | kill | drain | checkpoint
  deriving DecidableEq, Repr

/-- The first row of R302 whose condition holds. -/
def actionOf (rstbl token : Bool) (r : Nat × Nat × Nat) : Action :=
  if rstbl ∧ r.1 ≤ 1620 then .kill
  else if r.2.1 ≤ 1620 ∨ r.2.2 ≤ 1620 then .drain
  else if !token ∧ r.2.1 ≤ 16384 then .drain
  else .checkpoint

/-- A member of the team is Retiring (R301). -/
def State.anyRetiring (s : State) (x : Team) : Bool :=
  x.members.any fun m => bitsNat (s.tcbGet x.part m.tcb 0) 47 45 == 5

/-- Running teams of the partition in cluster k that team x outranks, as victims are chosen: lowest effective priority
first, then the most recently admitted. -/
def State.victims (s : State) (x : Team) (k : Nat) : List Nat :=
  let ts := s.teams.filter fun y =>
    y.2.part == x.part && y.2.state == .running && y.2.cluster == some k && !s.leaving y.1 y.2 && !s.anyRetiring y.2 &&
    decide (y.2.prio < s.prioOf x)
  let key := fun (t : Nat) => match Tbl.get? s.teams t with
    | some y => y.prio * 2 ^ 64 + (2 ^ 64 - 1 - y.admittedAt)
    | none => 0
  sortBy key (ts.map (·.1))

/-- The shortest run of victims after which the freed cores hold the shape. -/
def State.enough (s : State) (x : Team) (k : Nat) (gone vs : List Nat) : Option (List Nat) :=
  ((List.range (vs.length + 1)).find? fun i => decide (x.size ≤ s.freedIn x (gone ++ vs.take i) k)).map fun i => vs.take i

/-- A victim is killed, drained or saved, as R302 says. -/
def State.preempt (token : Bool) (s : State) (t : Nat) : State :=
  match Tbl.get? s.teams t with
  | none => s
  | some y =>
    let s := s.lookTcbs y
    if !(Tbl.get? s.teams t).any (·.state == .running) then s
    else
    match actionOf (s.restartable y) token (s.runOf t y) with
    | .kill => s.killTeam t
    | .drain => s.beginDrain t
    | .checkpoint => s.beginSave t

/-- PREEMPTION_DECISION (R301): the victims of a newcomer for which its partition has no free placement (DEDUCED, log 88). -/
def execPreemptionDecision (newcomer : Nat) (s : State) : Res :=
  match (Tbl.get? s.teams newcomer).bind (·.cluster) with
  | none => .next s
  | some k =>
    if !s.trivetRuns k then .next s
    else
    let s := s.takeOrders k
    match Tbl.get? s.teams newcomer with
    | none => .next s
    | some x =>
      if x.state ≠ .ready ∨ (s.part x.part).state ≠ 2 ∨ (List.range 8).any (s.holds newcomer x) then .next s
      else
        match s.enough x k (s.leavers x.part) (s.victims x k) with
        | none => .next s
        | some vs =>
          let s := s.tcbLook x.part x.tcb
          if !(Tbl.get? s.teams newcomer).any (·.state == .ready) then .next s
          else .next (vs.foldl (State.preempt (decide (0 < s.tokens x))) s)

/-- SAVE_COMPLETE (R303). -/
def execSaveComplete (team : Nat) (s : State) : Res :=
  match Tbl.get? s.teams team with
  | some x =>
    if x.state = .suspending ∧ x.cluster.all s.trivetRuns then .next (s.saveTeam team false) else .next s
  | none => .next s

/-! ### Resume (R306) -/

/-- A place of a moved footprint: the granules of each member's old core and binding become those of its new one. -/
def movePlace (ms : List ((Nat × Binding) × (Nat × Binding))) (p : Place) : Place :=
  match p with
  | .abuf c o =>
    match ms.find? fun m => m.1.1 == c && decide (4096 * m.1.2.aBase ≤ o) && decide (o < 4096 * (m.1.2.aBase + m.1.2.aLimit)) with
    | some m => .abuf m.2.1 (o - 4096 * m.1.2.aBase + 4096 * m.2.2.aBase)
    | none => p
  | .wbuf c o =>
    match ms.find? fun m => m.1.1 == c && decide (4096 * m.1.2.wBase ≤ o) && decide (o < 4096 * (m.1.2.wBase + m.1.2.wLimit)) with
    | some m => .wbuf m.2.1 (o - 4096 * m.1.2.wBase + 4096 * m.2.2.wBase)
    | none => p
  | p => p

/-- An entry of the class queues after a move. -/
def SqKind.moved (k : SqKind) (f : Place → Place) : SqKind :=
  match k with
  | .load p n sx u va => .load (f p) n sx u va
  | .store p bs => .store (f p) bs
  | .amo op p n v d u va => .amo op (f p) n v d u va
  | .lr p n d u va => .lr (f p) n d u va
  | .sc p n v d ev => .sc (f p) n v d ev
  | .svc p n ev => .svc (f p) n ev
  | k => k

/-- What a command has still to do, after a move. -/
def Todo.moved (t : Todo) (f : Place → Place) : Todo :=
  match t with
  | .bytes p bs => .bytes (f p) bs
  | .tag p v => .tag (f p) v
  | .read p n => .read (f p) n
  | t => t

/-- A queue's commands after a move. -/
def movedEntries (f : Place → Place) (q : List Entry) : List Entry :=
  q.map fun e => { e with todo := e.todo.map (·.moved f), tops := e.tops.map fun t => (f t.1, t.2) }

/-- A context whose buffers have moved. -/
def Ctx.moved (x : Ctx) (f : Place → Place) : Ctx :=
  { x with
    sq := x.sq.map fun e => { e with kind := e.kind.moved f }
    cxq := movedEntries f x.cxq, gxq := movedEntries f x.gxq, fxq := movedEntries f x.fxq
    resv := x.resv.map fun r => { r with place := f r.place } }

/-- The tags of n granules of a buffer from granule o on become those of a footprint. -/
def Core.putTags (k : Core) (inW : Bool) (o n : Nat) (t : Tbl Byte) : Core :=
  (List.range n).foldl (fun k i => k.setTag inW (o + i) (Tbl.get 0 t i)) k

/-- A footprint put down in the buffers of core c under a binding. -/
def State.putDown (s : State) (c : Nat) (b : Binding) (g : Image) : State :=
  s.modCore c fun k =>
    let k := k.setBuf false (pasteBytes (k.buf false) (4096 * b.aBase) (4096 * b.aLimit) g.aBytes)
    let k := k.setBuf true (pasteBytes (k.buf true) (4096 * b.wBase) (4096 * b.wLimit) g.wBytes)
    (k.putTags false b.aBase b.aLimit g.aTags).putTags true b.wBase b.wLimit g.wTags

/-- A spilled footprint is refilled into the buffers of core c under a binding, granule by granule through the forwarding
table (R304, R306, 05_local_memory.md R91). -/
def State.refill (s : State) (c : Nat) (b : Binding) (g : Image) : State :=
  (g.granules fun w n => some ((if w then b.wBase else b.aBase) + n)).foldl (fun s e => s.forward c e) s

/-- The moves of a team's members: old core and binding, new core and binding. -/
def State.movesOf (s : State) (t : Nat) (x : Team) : List ((Nat × Binding) × (Nat × Binding)) :=
  x.live.filterMap fun m =>
    match s.imageOf t m.2 with
    | some n => (s.images[n]?).map fun g => ((g.pcore, g.b), (m.1.core, ((s.core m.1.core).ent m.1.ent).b))
    | none => none

/-- The footprints of a team, lifted from where they lie. -/
def State.liftTeam (s : State) (t : Nat) (x : Team) : List (Nat × Image) :=
  x.live.filterMap fun m =>
    match s.imageOf t m.2 with
    | some n => (s.images[n]?).map fun g => (m.2, if g.resident then g.lift (s.core g.pcore) else g)
    | none => none

/-- One member restored on its new core; its bank is free (R280). -/
def State.restoreMember (s : State) (t : Nat) (x : Team) (f : Place → Place) (lifted : List (Nat × Image)) (m : Member × Nat) :
    State :=
  match lifted.find? fun e => e.1 == m.2 with
  | none => s
  | some e =>
    let c := m.1.core
    let b := ((s.core c).ent m.1.ent).b
    let stayed := ((s.imageOf t m.2).bind (s.images[·]?)).any (·.resident)
    let s := if stayed then s.putDown c b e.2 else s.refill c b e.2
    let g : Image :=
      { e.2 with
        ctx := e.2.ctx.moved f, pcore := c, wher := 0, bank := false, b := b, resident := true, aBytes := [], wBytes := [],
        aTags := [], wTags := [] }
    let s : State := { s.dropImage t m.2 with images := (s.dropImage t m.2).images ++ [g] }
    s.tcbSet x.part m.1.tcb 15 63 62 0

/-- The errors that reading the saved contexts of a team meets on its new cores, and whether one is uncorrectable (R318). -/
def State.teamErrors (s : State) (t : Nat) (x : Team) : State × Bool :=
  (s.images.filter (·.team == t)).foldl (fun r g =>
    let e := r.1.imageError ((x.members[g.member]?).elim g.pcore (·.core)) g
    (e.1, r.2 || e.2)) (s, false)

/-- RESUME (R306): before any member issues, footprints are moved or refilled and images restored. The team then waits
for its admission. -/
def execResume (team : Nat) (s : State) : Res :=
  match Tbl.get? s.teams team with
  | none => .next s
  | some x =>
    if x.state ≠ .moving ∨ !x.cluster.all s.trivetRuns then .next s
    else
    match (s.flushTeam team).teamErrors team x with
    | (s, true) => .next (s.freezeSaved team x 3 0 false)
    | (s, false) =>
      let f := movePlace (s.movesOf team x)
      let lifted := s.liftTeam team x
      let s := x.live.foldl (fun s m => s.restoreMember team x f lifted m) s
      .next (s.modTeam team fun y => { y with state := .restored })

end Sys2Proof.Machine
end

