-- ==== Sys2Proof/Machine/Damper.lean ====
section
/-! DEFINITION. The Damper: contract, interval step, admission, deposits and throttling (17_energy.md R282 to R291;
01_machine.md R22, R27; 21_command_processor.md R325), with what else happens at an interval step: deque exports
(19_scheduling.md R298), P-states and staged switch-ons (24_power_bringup.md R344, R346), digest records (25_debug.md
R352, R355). -/
namespace Sys2Proof.Machine

/-! ### The contract (R283, R284) -/

/-- Islands by number. -/
def allIslands : List Nat := List.range Config.nIslands

/-- Every field of a contract lies in its range (R283, R284). -/
def Contract.ok (x : Contract) : Bool :=
  decide (150 ≤ x.psust.toNat) && decide (x.psust.toNat ≤ 450) && decide (1 ≤ x.window.toNat) &&
  decide (x.window.toNat ≤ 10000) && decide (60 ≤ x.tceil.toNat) && decide (x.tceil.toNat ≤ 110) && x.strk != 0

/-- The staged values as they stand. -/
def State.stagedNow (s : State) : Staged :=
  { contract := s.damper.staged, table := allIslands.map fun i => ((s.island i).capS, (s.island i).grantS) }

/-- CAP and GRANT of island i. -/
def Staged.at (x : Staged) (i : Nat) : BitVec 8 × BitVec 8 := (x.table[i]?).getD (0, 0)

/-- The values may come into force (R284). -/
def Staged.ok (x : Staged) : Bool :=
  x.contract.ok && (x.table.all fun e => decide (e.2.toNat ≤ e.1.toNat)) &&
  decide ((x.table.map fun e => e.2.toNat).foldl (· + ·) 0 ≤ 10 * x.contract.psust.toNat)

/-- The latest commit was written in this ec: it is for the following step (R284, R291). -/
def Damper.late (d : Damper) (ec : Nat) : Bool := d.pend && d.pendEc == ec + 1

/-- What the step of this ec applies: what the commit of an earlier ec has staged. -/
def State.toApply (s : State) : Option Staged :=
  if s.damper.late s.ec then s.damper.pendOld else if s.damper.pend then some s.stagedNow else none

/-- A commit staged in an earlier ec is applied as a whole, or refused as a whole; one written in this ec stays for the following
step (R284, R291; DEDUCED, log 70; DEDUCED, log 90). -/
def State.applyCommit (s : State) : State :=
  match s.toApply with
  | none => s
  | some x =>
    let d := { s.damper with pend := s.damper.late s.ec, pendOld := none }
    if x.ok then
      { allIslands.foldl (fun s i => s.modIsland i fun y => { y with cap := (x.at i).1, grant := (x.at i).2 }) s with
        damper := { d with applied := x.contract } }
    else { s with damper := { d with cerr := true } }

/-- The contract fields of a CONTRACT write (R283). -/
def Contract.ofWord (v : Nat) : Contract :=
  { psust := BitVec.ofNat 16 (bitsNat v 63 48), window := BitVec.ofNat 16 (bitsNat v 47 32),
    tceil := BitVec.ofNat 8 (bitsNat v 31 24), thscale := BitVec.ofNat 4 (bitsNat v 23 20),
    strk := BitVec.ofNat 2 (bitsNat v 19 18), costsel := bitNat v 17 }

def Contract.toNat (x : Contract) : Nat :=
  x.psust.toNat * 2 ^ 48 + x.window.toNat * 2 ^ 32 + x.tceil.toNat * 2 ^ 24 + x.thscale.toNat * 2 ^ 20 +
  x.strk.toNat * 2 ^ 18 + (if x.costsel then 2 ^ 17 else 0)

/-- A write of CONTRACT: the staged copy, and a commit where COMMIT is 1; one of an earlier ec stays pending beside it with the
values that stood before this write. -/
def State.contractWrite (s : State) (v : Nat) : State :=
  let d := s.damper
  { s with damper :=
      { d with
        staged := Contract.ofWord v, pend := d.pend || bitNat v 16
        pendEc := if bitNat v 16 then s.ec + 1 else d.pendEc
        pendOld := if bitNat v 16 && d.pend && d.pendEc != s.ec + 1 then some s.stagedNow else d.pendOld } }

/-- CONTRACT_COMMIT (R284): a CONTRACT write with COMMIT = 1. -/
def execContractCommit (v : Word) (s : State) : Res :=
  s.atHost (s.contractWrite (putBits v.toNat 16 16 1))

/-- BREACH_CLEAR (R285). -/
def execBreachClear (s : State) : Res := s.atHost { s with damper := { s.damper with breach := false } }

/-- What is granted of the applied grant, in BU: less while BREACH = 1 (R285). -/
def State.grantBu (s : State) (x : Island) : Nat :=
  let g := x.grantOf
  if s.damper.breach then g * (s.damper.applied.thscale.toNat + 1) / 16 else g

/-! ### Settlement (R286) -/

/-- What every task has metered is debited, on its core or in its saved context, and `yjoule` is brought up. -/
def State.settleAll (s : State) : State :=
  let joule := fun (x : Ctx) => { x with yjoule := BitVec.ofNat 64 (x.fa / 64) }
  let s := (s.cores.map (·.1)).foldl (fun s c =>
    if (s.core c).task.isSome then
      let r := s.settleTask false (s.ctx c)
      r.1.modCtx c fun _ => joule r.2
    else s) s
  (List.range s.images.length).foldl (fun s k =>
    match s.images[k]? with
    | some g =>
      let r := s.settleTask false g.ctx
      r.1.modImage k fun g => { g with ctx := joule r.2 }
    | none => s) s

/-- A bucket stays in 24 bits (R282). -/
def saturate24 (b : Int) : Int := max (-8388608) (min 8388607 b)

/-- The exact bucket after debit, returns and grant (R286). -/
def bucketAfter (b debit ret cap grant : Int) : Int :=
  let b := b - debit
  let b := min (b + ret) (max b cap)
  if b < cap then min (b + grant) cap else b

/-- The warning of island i is raised on its Stoker (R290). -/
def State.warnThrottle (s : State) (i : Nat) (p : Int) : State :=
  if i < Config.nCores then s.modCore i fun k => { k with throttle := some (BitVec.ofInt 32 p) } else s

/-- The episode and the stretch of an island after a step (R290): whether one opens, steps since it opened, stretched. -/
def throttleNext (ep : Option Nat) (b p : Int) : Bool × Option Nat × Bool :=
  match ep with
  | some n =>
    if 0 ≤ p ∧ 0 ≤ b then (false, none, false) else (false, some (n + 1), decide (b < 0) && decide (2 ≤ n + 1))
  | none => if p < 0 ∨ b < 0 then (true, some 0, false) else (false, none, false)

/-- What a step in ec `ec` takes up: the debits and deposits of tasks that left before it (R291), and DERATE (24_power_bringup.md
R348). -/
def Island.due (y : Island) (ec : Nat) : Island :=
  let z := { y with derated := y.derate }
  if y.lateEc = ec then z
  else { z with owed := y.owed + y.lateOwed, deposits := y.deposits + y.lateDeposits, lateOwed := 0, lateDeposits := 0 }

/-- The part of the step that each island has of its own (R286, R290). BUDGET goes to the context that stands on the island's
core (DESIGN CHOICE, log 133). -/
def State.islandStep (s : State) (i : Nat) : State :=
  let x := (s.island i).due s.ec
  let cap := 1000 * (x.capOf : Int)
  let grant := 1000 * (s.grantBu x : Int)
  let debit : Int := x.owed + (x.uncoreFa / 64 - x.uncoreJ)
  let b := bucketAfter x.bucket debit x.deposits cap grant
  let t := throttleNext x.episode b (b + 2 * (grant - debit))
  let s := s.modIsland i fun _ =>
    { x with bucket := saturate24 b, was := x.bucket, owed := 0, deposits := 0, uncoreJ := x.uncoreFa / 64, episode := t.2.1, stretched := t.2.2 }
  let s := if i < Config.nCores ∧ x.bucket < b then s.latchEvent i 12 7 i else s
  if t.1 then s.warnThrottle i (b + 2 * (grant - debit)) else s

/-- Steps in one WINDOW unit of 1 ms. -/
def stepsPerMs : Nat := 100

/-- The mean board power over the last WINDOW, or since reset while that is shorter, exceeds PSUST (R285). -/
def State.overPower (s : State) : Bool :=
  let d := s.damper
  let n := min (stepsPerMs * d.applied.window.toNat) (max 1 d.steps)
  decide (d.applied.psust.toNat * n < ((List.range n).map fun i => Config.boardPower (d.steps - i)).sum)

/-- A breach the telemetry of this step shows (R285). -/
def State.breached (s : State) : Bool :=
  let t := s.damper.applied
  s.overPower ||
  allIslands.any fun i => decide (8 * t.tceil.toNat < (Config.telemetry i s.damper.steps).2.1.toNat)

/-- BREACH is set, with the host's Damper notification interrupt (R285). -/
def State.noteBreach (s : State) : State :=
  if s.breached && !s.damper.breach then { s with damper := { s.damper with breach := true } }.raiseMsix 9 else s

/-! ### Admission (R287, 01_machine.md R22) -/

/-- The cost of a class in mBU (R287). -/
def costOf (c : Nat) : Nat := 1000 * Config.classCost c

/-- VAR and class of the entry a member may be admitted under, by its bucket (R22). -/
def State.entryFor (s : State) (x : Team) (m : Member × Nat) : Option (Nat × Nat) :=
  let d := s.tcbGet x.part m.1.tcb 0
  let fits := fun (c : Nat) => decide ((costOf c : Int) ≤ (s.island m.1.core).bucket)
  if x.state = .restored then
    if fits (bitsNat d 38 36) then some (bitsNat d 35 34, bitsNat d 38 36) else none
  else
    let main := bitsNat d 41 39
    if fits main then some (0, main)
    else if !bitNat d 43 then none
    else
      [1, 2, 3].foldl (fun best k =>
        let v := s.tcbGet x.part m.1.tcb (3 + k)
        let c := bitsNat v 63 61
        let better := match best with
          | none => true
          | some b => decide (b.2 < c)
        if bitNat v 60 && decide (c < main) && fits c && better then some (k, c) else best) none

/-- The entry address of VAR v of a task: a Flaja kernel's main entry is that of its residual (21_command_processor.md
R325). -/
def State.entryPc (s : State) (x : Team) (tcb v : Nat) : Nat :=
  match v, (Tbl.get? s.launches x.launch).bind (·.residual) with
  | 0, some r => r.1
  | 0, none => bitsNat (s.tcbGet x.part tcb 2) 56 0
  | v, _ => bitsNat (s.tcbGet x.part tcb (3 + v)) 56 0

/-- The context in which a task starts (01_machine.md R8, R11; 21_command_processor.md R325). -/
def State.startCtx (s : State) (x : Team) (m : Member × Nat) : Ctx :=
  let d0 := s.tcbGet x.part m.1.tcb 0
  let d1 := s.tcbGet x.part m.1.tcb 1
  let pc := s.entryPc x m.1.tcb (bitsNat d0 35 34)
  let l := Tbl.get? s.launches x.launch
  let us := (l.map (·.uniforms)).getD []
  let regs := us.zipIdx.foldl (fun t u => Tbl.put (0 : Word) t (10 + u.2) u.1) []
  let y : Ctx :=
    { (s.ctx m.1.core).fresh with
      x := regs, pc := BitVec.ofNat 64 pc
      ytask := BitVec.ofNat 64
        (bitsNat d0 42 42 * 2 ^ 51 + bitsNat d0 38 36 * 2 ^ 48 + bitsNat d0 35 34 * 2 ^ 46 + bitsNat d0 19 0)
      yteam := BitVec.ofNat 64 (bitsNat d1 63 48 * 2 ^ 8 + bitsNat d1 43 41 * 2 ^ 4 + bitsNat d1 47 44)
      ystage := BitVec.ofNat 64 (bitsNat d1 40 37 * 2 ^ 4 + bitsNat d0 26 23)
      ringDecl := (l.map (·.rings)).getD 0 }
  match ((l.map (·.segs)).getD []).find? fun e => e.pc == pc with
  | some e => y.segment e
  | none => y

/-- An admitted context takes its core, or waits in its bank as the timetable's alternate (19_scheduling.md R300, R303). -/
def State.bringIn (s : State) (t : Nat) (m : Member × Nat) (y : Ctx) : State :=
  let c := m.1.core
  let s := s.dropImage t m.2
  if (s.core c).task.isNone then s.install c m.1.ent t m.2 y
  else
    let b := ((s.core c).ent m.1.ent).b
    let r := s.saveImage t m.2 c b y
    r.1.tcbUpd b.part.toNat b.tcb.toNat 15 fun v => putBits (putBits v 63 62 r.2) 6 0 c

/-- One member admitted under VAR and class: cost, deposit, TCB and context (R287); the TCB's REMAIN is that of the segment
the task stands in (DEDUCED, log 29; DEDUCED, log 69). -/
def State.admitMember (s : State) (t : Nat) (x : Team) (m : Member × Nat) (e : Nat × Nat) : State :=
  let c := m.1.core
  let tcb := m.1.tcb
  let s := s.modIsland c fun i => { i with bucket := i.bucket - costOf e.2 }
  let s := s.tcbUpd x.part tcb 0 fun v => putBits (putBits (putBits v 47 45 3) 38 36 e.2) 35 34 e.1
  let y := match x.state, (s.imageOf t m.2).bind (s.images[·]?) with
    | .restored, some g => g.ctx
    | _, _ => s.startCtx x m
  let s := s.tcbSet x.part tcb 3 31 0 y.segRemain.toNat
  s.bringIn t m { y with dep := costOf e.2, depi := c, runCount := 0 }

/-- A team is admitted: WAITIV restarts in every member, and a token is spent in each (19_scheduling.md R297). -/
def State.spendWait (s : State) (x : Team) (token : Bool) : State :=
  x.members.foldl (fun s m =>
    let s := if token then s.tcbUpd x.part m.tcb 0 fun v => putBits v 30 27 (bitsNat v 30 27 - 1) else s
    s.tcbSet x.part m.tcb 3 47 32 0) s

/-- A team is admitted whole, or held (R287). -/
def State.admitTeam (s : State) (t : Nat) : State :=
  match Tbl.get? s.teams t with
  | none => s
  | some x =>
    let s := s.lookTcbs x
    if !(Tbl.get? s.teams t).any (fun y => y.state == x.state) then s
    else
    let es := (s.staying t x).map fun m => (m, s.entryFor x m)
    if es.any fun e => e.2.isNone then s
    else
      let token := decide (0 < s.tokens x)
      let prio := s.prioOf x
      let s := es.foldl (fun s e => s.admitMember t x e.1 (e.2.getD (0, 0))) (s.spendWait x token)
      { (s.modTeam t fun y => { y with state := .running, prio := prio, admittedAt := s.stamp }) with stamp := s.stamp + 1 }

/-- Teams that wait for admission, in its order (R287, R297). -/
def State.admissible (s : State) : List Nat :=
  let ts := s.teams.filter fun e =>
    (s.part e.2.part).state == 2 && (e.2.state == .placed || e.2.state == .restored)
  sortBy (fun t => match Tbl.get? s.teams t with
    | some x => (7 - s.prioOf x) * 2 ^ 64 + x.stamp
    | none => 0) (ts.map (·.1))

/-- The hardware has looked at the TCBs that give the priorities of the teams that wait for admission. -/
def State.lookAdmissible (s : State) : State :=
  s.admissible.foldl (fun s t => match Tbl.get? s.teams t with
    | some x => s.tcbLook x.part x.tcb
    | none => s) s

/-- One more interval waited, by every team that waits in a running partition (16_system_state.md R276). -/
def State.countWaits (s : State) : State :=
  s.teams.foldl (fun s e =>
    match e.2.state with
    | .ready | .placed | .suspended | .moving | .restored =>
      if (s.part e.2.part).state = 2 then
        e.2.members.foldl (fun s m => s.tcbUpd e.2.part m.tcb 3 fun v => putBits v 47 32 (min 65535 (bitsNat v 47 32 + 1))) s
      else s
    | _ => s) s

def State.admitAll (s : State) : State :=
  let s := s.lookAdmissible
  (s.admissible.foldl State.admitTeam s).countWaits

/-! ### What else happens at a step -/

/-- A worker is idle: it waits in `sk.wfe` (DEDUCED, log 102). -/
def Core.idle (k : Core) : Bool := k.task.isSome && !k.halted && k.hold == .none && k.ctx.inWfe

/-- The idle worker that core c's exported word goes to: another cluster, lowest first (19_scheduling.md R298). -/
def State.idleWorker (s : State) (c : Nat) : Option Nat :=
  (s.cores.map (·.1)).find? fun d =>
    d / 16 != c / 16 && s.launchOf d == s.launchOf c && (s.core d).idle && (s.ctx d).deque.isEmpty

/-- One top word of each exporting deque that holds two moves, once what its owner wrote before pushing it is visible at device
scope (19_scheduling.md R298, 01_machine.md R18, 06_ordering.md R110). -/
def State.exportDeques (s : State) : State :=
  (s.cores.map (·.1)).foldl (fun s c =>
    let x := s.ctx c
    match (s.core c).task, x.exported, x.deque, s.idleWorker c with
    | some _, true, w :: v :: rest, some d =>
      if !s.allVisible (.core c .sk) 2 w.older then s
      else ((s.modCtx c fun y => { y with deque := v :: rest }).modCtx d fun y => { y with deque := [w] }).latchEvent d 11 8 d
    | _, _, _, _ => s) s

/-- Islands of zone z (24_power_bringup.md R343). -/
def zoneIslands (z : Nat) : List Nat :=
  if z < 8 then ((List.range 16).map fun i => 16 * z + i) ++ [128 + z] else [136, 137, 138, 139]

/-- The switch-ons of a zone that fit its headroom start; the others are deferred (24_power_bringup.md R346). -/
def State.startZone (s : State) (z : Nat) : State :=
  let free : Int := (Config.zoneLimit z).toNat - (Config.zoneCurrent z s.damper.steps).toNat
  ((zoneIslands z).foldl (fun (r : State × Int) i =>
    if !(r.1.island i).waitOn then r
    else
      let need : Int := (Config.inrush i).toNat
      if need ≤ r.2 then (r.1.modIsland i fun x => { x with waitOn := false, pstate := 1 }, r.2 - need)
      else (r.1.modIsland i fun x => { x with defer := min 255 (x.defer + 1) }, r.2)) (s, free)).1

/-- A digest record of each port in collective transport (25_debug.md R352, R353, R355). -/
def State.digestRecords (s : State) : State :=
  if !(bitNat s.soot.ctl.toNat 0 && bitNat s.soot.ctl.toNat 3) then s
  else
    [0, 1].foldl (fun s n =>
      if (s.port n).mode = 1 then s.sootRecord (7 * 2 ^ 56 + n * 2 ^ 32) (s.port n).digrx.toNat 0 else s) s

/-- INTERVAL_STEP (R286). -/
def execIntervalStep (s : State) : Res :=
  let now := s.ec
  let s := s.applyCommit.settleAll
  let s := allIslands.foldl State.islandStep s
  let s := s.admitAll.exportDeques
  let s := (List.range 9).foldl State.startZone s
  let s : State := { s with damper := { s.damper with steps := (s.damper.steps + 1) % 2 ^ 32, stepEc := now + 1, pcur := s.damper.pset } }
  .next s.noteBreach.digestRecords

end Sys2Proof.Machine
end

