-- ==== Sys2Proof/Machine/Flue.lean ====
section
/-! DEFINITION. The Flue engine FX (11_data_engines_isa.md R244 to R246; 07_encoding.md R140). -/
namespace Sys2Proof.Machine

/-- FX_CFG_START (R244). -/
def execFxCfgStart (s : State) : Res :=
  s.startEntry .fx (fun c => c.isRecord 1) fun s e =>
    s.withCmdRecord .fx e fun j r =>
      let outw := fld r 8 1
      let concat := fld r 9 1
      if headerOk r 1 0 && zeroBytes r 10 54 && decide (1 ≤ outw) && decide (outw ≤ 64) && decide (concat ≤ 2) then
        { j with s := j.s.upd fun x => { x with fxOutw := outw, fxConcat := concat } }.finish e
      else j.badRecord e

/-- A pass: its record, the values in force and the bindings captured, and its weights (R140, R245). -/
structure FxPass where
  edges : RPlace
  nedge : Nat
  nvert : Nat
  vfeat : RPlace
  frowb : Nat
  out : Nat
  tile : Nat
  anchor : Int
  acc : Bool
  outw : Nat
  concat : Nat
  rows : Nat
  cols : Nat
  slot : Nat
  w : Operand
  deriving DecidableEq, Repr

/-- The record meets R140 and R142. -/
def fxOk (r : List Byte) : Bool :=
  headerOk r 0 1 && zeroBytes r 44 20 && (rplace (fld r 8 8)).ownA && rplace (fld r 24 8) != .bad &&
  decide (fld r 40 1 < 32) && decide (fld r 41 1 < 8) && decide (fld r 42 2 < 1024)

def Ctx.fxPass (x : Ctx) (e : Entry) (r : List Byte) : FxPass :=
  let v := fld r 40 1
  let t := fld r 41 1
  let n := (e.binds.view v).slot
  let sl := x.slot n
  { edges := rplace (fld r 8 8), nedge := fld r 16 4, nvert := fld r 20 4, vfeat := rplace (fld r 24 8), frowb := fld r 32 4,
    out := fld r 36 4, tile := t, anchor := sextNat 10 (fld r 42 2), acc := bitNat (recFlags r) 0,
    outw := x.fxOutw, concat := x.fxConcat, rows := (e.binds.geom t).rows, cols := (e.binds.geom t).cols,
    slot := n, w := { sl := sl, sh := e.binds.shape v, b := classBits (widthClass sl.fmt.toNat) } }

/-- Elements of a feature row, and of an edge's operand row. -/
def FxPass.rowK (p : FxPass) : Nat := p.frowb * 8 / p.w.b

def FxPass.k (p : FxPass) : Nat := if p.concat = 2 then 2 * p.rowK else p.rowK

/-- The fault of R245 that the record and the bindings alone show (DEDUCED, log 58). -/
def FxPass.fault (p : FxPass) : Option EFault :=
  if p.edges.addr % 8 ≠ 0 then some { sub := .misaligned, acc := 0, addr := some p.edges.addr }
  else if p.out % 4096 ≠ 0 then some { sub := .misaligned, acc := 1, addr := some p.out }
  else if p.w.sl.state ≠ .filled then some slotFault
  else if 3072 / p.w.b < p.k ∨ p.w.sh.klen < p.k ∨ p.w.sh.rows < p.outw ∨ p.cols < p.outw ∨
      (p.w.b = 6 ∧ p.w.sh.rstr % 48 ≠ 0) then some { sub := .format, acc := 0, addr := none }
  else if p.w.beyond p.outw 0 p.k then some slotFault
  else none

/-- A feature row's elements, each decoded through the tag of the granule it begins in; none where a tag is not GEO 0 or
not of the weights' width class (R245). -/
def FxPass.decode (p : FxPass) (row : List (Byte × Nat)) : Option (List Val) :=
  let bits := leNat (row.map (·.1))
  (List.range p.rowK).mapM fun k =>
    match (row.drop (k * p.w.b / 8)).head? with
    | none => none
    | some b =>
      match slotFmt b.2 with
      | some f =>
        if tagGeo b.2 = 0 ∧ widthClass (tagFmt b.2) = widthClass p.w.sl.fmt.toNat then
          some (decodeEl f (bits / 2 ^ (k * p.w.b) % 2 ^ p.w.b))
        else none
      | none => none

/-- One feature row of VFEAT for edge e. -/
def Job.fxRow (j : Job) (p : FxPass) (e v : Nat) : Got (List Val) :=
  (j.read e (p.vfeat.shift (v * p.frowb)) p.frowb p.frowb).bind fun row j =>
    match p.decode row with
    | some l => .ok l j
    | none => .stop { sub := .format, acc := 0, addr := some ((p.vfeat.shift (v * p.frowb)).addr) } j

/-- The operand rows and target vertices of the edges from e on, in order; a vertex at or above NVERT is an index fault. -/
def Job.fxRows (j : Job) (p : FxPass) : (e : Nat) → List (Nat × Nat) → Got (List (Nat × List Val))
  | _, [] => .ok [] j
  | e, (sv, d) :: t =>
    if p.nvert ≤ sv ∨ p.nvert ≤ d then .stop { sub := .index, acc := 0, addr := none } j
    else
      let x : Got (List Val) :=
        match p.concat with
        | 0 => j.fxRow p e sv
        | 1 => j.fxRow p e d
        | _ => (j.fxRow p e sv).bind fun a j => (j.fxRow p e d).bind fun b j => .ok (a ++ b) j
      x.bind fun r j => (j.fxRows p (e + 1) t).bind fun rest j => .ok ((d, r) :: rest) j

/-- The message element of an operand row at output o: the steps of an AD mma under the pass's anchor (R245). -/
def FxPass.message (p : FxPass) (x : List Val) (o : Nat) : Elem :=
  (x.zipIdx).foldl (fun e v => csaAdd p.anchor e (product v.1 (p.w.val o v.2) false)) Elem.zero

/-- The weight slot is read: an uncorrectable error in it stops the batch (20_translation_faults.md R318). -/
def Job.fxWeights (j : Job) (p : FxPass) : Got Unit :=
  let e := j.s.sramErrors (.core j.c .fx) (j.s.core j.c).b.part.toNat [.slot j.c p.slot]
  if e.2 then .stop { sub := .uncorrectable, acc := 0, addr := none } { j with s := e.1 } else .ok () { j with s := e.1 }

/-- The output elements of a batch are readable: a batch that stops at one of them has added nothing (R246). -/
def Job.fxReadable (j : Job) (p : FxPass) (e0 : Nat) : List Nat → Got Unit
  | [] => .ok () j
  | d :: t => (j.readRaw e0 p.out (d * p.outw) p.outw).bind fun _ j => j.fxReadable p e0 t

/-- The messages of a batch are added to the output, in ascending edge order (R245, 04_accumulators.md R76). -/
def Job.fxCommit (j : Job) (p : FxPass) (e0 : Nat) : List (Nat × List Elem) → Got Unit
  | [] => .ok () j
  | (d, es) :: t =>
    (j.readRaw e0 p.out (d * p.outw) p.outw).bind fun old j =>
      (j.writeRaw p.out (d * p.outw) ((old.zip es).map fun q => settleElem (addElem q.1 q.2))).bind fun _ j =>
        { j with s := j.s.meter j.c 25 p.outw }.fxCommit p e0 t

/-- One batch: its rows, its messages, and their commit, of all of them or of none (R245, R246). -/
def Job.fxBatch (j : Job) (p : FxPass) (e0 m : Nat) : Got (List (List Elem)) :=
  (j.readBytes e0 (p.edges.shift (8 * e0)) (8 * m)).bind fun bs j =>
    (j.fxRows p e0 ((List.range m).map fun i => (fld bs (8 * i) 4, fld bs (8 * i + 4) 4))).bind fun rows j =>
      (j.fxWeights p).bind fun _ j =>
        let msgs := rows.map fun r => (r.1, (List.range p.outw).map (p.message r.2))
        (j.fxReadable p e0 (msgs.map (·.1))).bind fun _ _ =>
          (j.fxCommit p e0 msgs).bind fun _ j =>
            let s := (j.s.arrayRun (widthClass p.w.sl.fmt.toNat) ((p.k * p.w.b + 383) / 384) m p.outw).meter j.c 26 m
            .ok (msgs.map (·.2)) { j with s := s }

/-- The nth free element: what the spec leaves undefined (DESIGN CHOICE, log 10). -/
def freeElem (n : Nat) : Elem := elemOf (leBytes 8 (Config.freeWord n).toNat ++ leBytes 8 (Config.freeWord (n + 1)).toNat ++
  leBytes 2 (Config.freeWord (n + 2)).toNat)

/-- Tile t after a batch: the elements of a valid tile take the pass's anchor (04_accumulators.md R70), then its messages, zeros in the rows below R, free values in columns at or above OUTW (R246). -/
def State.fxTile (s : State) (p : FxPass) (es : List (List Elem)) : State :=
  let n := s.free
  let w := 64 - p.outw
  let s := s.upd fun x =>
    let t := ((x.acc p.tile).moveAnchor p.anchor).mapRegion p.rows 64 fun i o _ =>
      if o < p.outw then (es.getD i []).getD o Elem.zero else freeElem (n + 3 * (i * w + (o - p.outw)))
    x.setAcc p.tile { t with dirty := true }
  { s with free := n + 3 * p.rows * w }

/-- How a pass goes on. -/
inductive FxEnd where
  | done (j : Job)
  | stop (f : EFault) (e0 : Nat) (j : Job)
  | hole

/-- The batches from edge e0 on. -/
def Job.fxLoop (j : Job) (p : FxPass) : (fuel e0 : Nat) → FxEnd
  | 0, _ => .done j
  | fuel + 1, e0 =>
    if p.nedge ≤ e0 then .done j
    else
      let m := min p.rows (p.nedge - e0)
      match j.fxBatch p e0 m with
      | .ok es j => { j with s := j.s.fxTile p es }.fxLoop p fuel (e0 + m)
      | .stop f j => .stop f e0 j
      | .hole => .hole

/-- What a pass that stopped before edge e0 keeps of its ranges: its edges from there on, its record, features and output
(05_local_memory.md R88). -/
def Job.fxLeft (j : Job) (e : Entry) (p : FxPass) (e0 : Nat) : List Rng × List Rng :=
  let k := j.s.core j.c
  let from' := ((k.ctx.aOwn p.edges.addr).map fun o => (false, o + 8 * e0)).toList
  (k.aRng e.cmd.recOff 0 64 ++ (k.placeRng p.edges 0 (8 * p.nedge)).flatMap (·.from from') ++
    k.placeRng p.vfeat 0 (p.nvert * p.frowb), e.wr)

/-- PROGRESS of a fault in the batch at e0 (R251). -/
def fxProgress (f : EFault) (e0 : Nat) : Nat :=
  match f.sub with
  | .bufferBound => f.offset
  | .teamWindow => f.offset
  | .slot => 0
  | .misaligned => 0
  | _ => e0

/-- Every output element V 0 with clear flags (R245). -/
def Job.fxClear (j : Job) (p : FxPass) : Got Unit :=
  if p.acc then .ok () j else j.writeRaw p.out 0 (List.replicate (p.nvert * p.outw) Elem.zero)

/-- An older MX command holds its turn at the array (10_matrix_isa.md R205). -/
def Ctx.mxBefore (x : Ctx) (id : Nat) : Bool :=
  x.mxq.any fun e => decide (e.id < id) && match e.cmd with
    | .mxRun _ _ _ => true
    | .mxWord w _ => w.extractLsb' 26 5 == 0
    | _ => false

/-- Ends a pass: the tile keeps its last batch under the pass's anchor (R245). -/
def Job.fxFinish (j : Job) (e : Entry) (p : FxPass) : Res :=
  let s := j.s.upd fun x =>
    x.setAcc p.tile { (x.acc p.tile).moveAnchor p.anchor with auto := false, valid := true, dirty := true }
  { j with s := s }.finish e

/-- FX_PASS_START (R245, R246): the tile is in flight for FX from here to the pass's retirement. -/
def execFxPassStart (s : State) : Res :=
  s.startEntry .fx (fun c => c.isRecord 0) fun s e =>
    s.withCmdRecord .fx e fun j r =>
      if !fxOk r then j.badRecord e
      else
        let p := j.s.my.fxPass e r
        match p.fault with
        | some f => j.stopAt e f (fxProgress f e.prog) e.prog
        | none =>
          if s.my.mxBefore e.id then .next s
          else if (s.my.acc p.tile).inflight = some .mx then
            .next (s.noteWaitAt s.cur .fx e.qpos 4 (BitVec.ofNat 32 p.tile) Agent.mx.code s.cur)
          else
            let s' := j.s.upd fun x => x.flyTiles .fx e.id [p.tile]
            let j : Job := { j with s := s' }
            let n := p.nvert * p.outw
            match (j.rawTagged p.out (if n = 0 then [] else rawGranules 0 n)).bind fun _ j =>
                if e.prog = 0 then j.fxClear p else .ok () j with
            | .stop f j => j.stopKeep e f (fxProgress f e.prog) e.prog (j.fxLeft e p e.prog)
            | .hole => .fault .noSuchMemory
            | .ok _ j =>
              match j.fxLoop p (p.nedge + 1) e.prog with
              | .done j => j.fxFinish e p
              | .stop f e0 j => j.stopKeep e f (fxProgress f e0) e0 (j.fxLeft e p e0)
              | .hole => .fault .noSuchMemory

end Sys2Proof.Machine
end

