-- ==== Sys2Proof/Machine/Power.lean ====
section
/-! DEFINITION. Power: island commands and states, ramps, protection, and failures of regulators (24_power_bringup.md R343 to
R348). -/
namespace Sys2Proof.Machine

/-! ### Commands (R345, R346) -/

/-- ISLAND_ON (R346): the island waits for an interval step. A dark island stays dark (R348). -/
def execIslandOn (i : Nat) (s : State) : Res :=
  s.atHost (s.modIsland i fun x =>
    { x with cmd := 1, waitOn := x.waitOn || x.pstate == 0 || x.pstate == 3 })

/-- A command is refused: STATE is unchanged, and PERR is set (R345). -/
def State.refusePower (s : State) (i : Nat) : State := s.modIsland i fun x => { x with perr := true }

/-- A core that may lose its clock: HALTED, with no valid timetable entry (R345; DEDUCED, log 71). -/
def State.mayStop (s : State) (c : Nat) : Bool :=
  (s.core c).halted && !(s.core c).ent0.v && !(s.core c).ent1.v

/-- A core whose logic has lost power: the SRAM arrays, with tags and tile bits, keep what they hold (R345). -/
def Core.unpowered (k : Core) : Core :=
  { Core.reset with
    ctx := { Ctx.reset with
      vx := { Vx.reset with tiles := k.ctx.vx.tiles }
      mx := { Mx.reset with tiles := k.ctx.mx.tiles, slots := k.ctx.mx.slots } }
    aBytes := k.aBytes, wBytes := k.wBytes, aTags := k.aTags, wTags := k.wTags, fwd := k.fwd, ent0 := k.ent0, ent1 := k.ent1,
    cur := k.cur, ttWerr := k.ttWerr, left := k.left }

/-- An island that stops: not waiting to switch on, and in the state given unless it is dark. -/
def State.stopIsland (s : State) (i cmd st : Nat) : State :=
  s.modIsland i fun x =>
    { x with cmd := BitVec.ofNat 2 cmd, waitOn := false, pstate := if x.pstate = 4 then 4 else st, droop := false, overCur := false }

/-- ISLAND_OFF (R345): logic power is removed, or the command is refused. -/
def execIslandOff (i : Nat) (s : State) : Res :=
  if i < 128 then
    if !s.mayStop i || s.bankFull i then s.atHost (s.refusePower i)
    else s.atHost ((s.stopIsland i 0 0).modCore i Core.unpowered)
  else if 136 ≤ i ∨ (List.range 16).any (fun k => (s.island (16 * (i - 128) + k)).pstate != 0) then s.atHost (s.refusePower i)
  else s.atHost (s.stopIsland i 0 0)

/-- ISLAND_RETAINED_OFF (R345): the clock stops and everything is held, or the command is refused. -/
def execIslandRetainedOff (i : Nat) (s : State) : Res :=
  if 136 ≤ i ∨ (i < 128 ∧ !s.mayStop i) then s.atHost (s.refusePower i)
  else s.atHost (s.stopIsland i 2 (if (s.island i).pstate = 0 then 0 else 3))

/-- ISLAND_RAMP_COMPLETE (R346). -/
def execIslandRampComplete (i : Nat) (s : State) : Res :=
  .next (s.modIsland i fun x => if x.pstate = 1 then { x with pstate := 2 } else x)

/-! ### Protection (R347): these change how many edges occur, and no value -/

def Island.clocked (x : Island) : Bool := x.pstate == 1 || x.pstate == 2

/-- DROOP (R347): the stretcher suppresses every second edge. -/
def execDroop (i : Nat) (s : State) : Res :=
  .next (s.modIsland i fun x => { x with droop := x.droop || x.clocked })

/-- DROOP_STRETCH_END (R347). -/
def execDroopStretchEnd (i : Nat) (s : State) : Res := .next (s.modIsland i fun x => { x with droop := false })

/-- OVER_CURRENT (R347): one edge in four. -/
def execOverCurrent (i : Nat) (s : State) : Res :=
  .next (s.modIsland i fun x => { x with overCur := x.overCur || x.clocked })

/-- OVER_CURRENT_END (R347). -/
def execOverCurrentEnd (i : Nat) (s : State) : Res := .next (s.modIsland i fun x => { x with overCur := false })

/-- Edges of the island's clock: one in so many occurs (R290, R347: the slower clock governs). -/
def State.clockDivisor (s : State) (i : Nat) : Nat :=
  let x := s.island i
  max (if x.stretched then 2 ^ s.damper.applied.strk.toNat else 1) (max (if x.droop then 2 else 1) (if x.overCur then 4 else 1))

/-! ### Regulator failures (R348) -/

/-- The cluster of an island, where it has one. -/
def islandCluster (i : Nat) : Option Nat := if i < 128 then some (i / 16) else if i < 136 then some (i - 128) else none

/-- The partition that owns an island's cluster (16_system_state.md R279). -/
def State.ownerOf (s : State) (i : Nat) : Option Nat :=
  (islandCluster i).bind fun k => (List.range 8).find? fun p => (s.part p).owns k

/-- Doubleword 2 of a KIND 7 notification (20_translation_faults.md R317). -/
def Island.report (x : Island) (i : Nat) : Nat := i + (if x.regf then 2 ^ 8 else 0) + x.phase.toNat * 2 ^ 9

/-- REGULATOR_PHASE_FAILURE (R348). -/
def execRegulatorPhaseFailure (i : Nat) (phase : BitVec 2) (s : State) : Res :=
  let s := s.modIsland i fun x => { x with phase := x.phase &&& ~~~(BitVec.ofNat 4 (2 ^ phase.toNat)), derate := true }
  let s := match s.ownerOf i with
    | some p => s.notify p 7 0 ((s.island i).report i) 0
    | none => s
  .next (s.raiseMsix 9)

/-- A saved context of the team lies in the shadow bank of core c. -/
def State.bankedAt (s : State) (c t : Nat) : Bool := s.images.any fun g => g.team == t && g.pcore == c && g.bank

/-- The island of a core has gone dark under a member of a team, or under the bank that holds a saved image of one (R348;
DEDUCED, log 68). -/
def State.hitBy (s : State) (c t : Nat) (x : Team) : Bool :=
  let here := x.live.any fun m => m.1.core == c
  match x.state with
  | .waiting | .ready | .retired => false
  | .suspended | .frozenSaved => s.bankedAt c t || (s.core c).task.any (·.1 == t)
  | .placed => here
  | .moving | .running | .suspending | .restored | .frozenHere => here || s.bankedAt c t

/-- What the loss of core c's island does to a team (R348, 01_machine.md R10; DEDUCED, log 68; DEDUCED, log 99). -/
def State.darkTeam (s : State) (c : Nat) (t : Nat) : State :=
  match Tbl.get? s.teams t with
  | none => s
  | some x =>
    let lost := fun (s : State) => s.modTeam t fun y => { y with lostImage := true }
    let saved := s.bankedAt c t
    let s := s.lookTcbs x
    match x.state with
    | .waiting | .ready | .retired => s
    | .frozenHere | .frozenSaved => lost s
    | .placed =>
      (x.live.foldl (fun s m => (s.freeEntry m.1).setTcbState x.part m.1.tcb 1) s).restamp t .ready
    | .running | .suspending =>
      if s.restartable x then s.killTeam t else lost (s.freezeTeam t 7 x.tcb ((s.island c).report c) 0)
    | .moving =>
      if !saved then (x.live.foldl (fun s m => s.freeEntry m.1) s).restamp t .suspended
      else if s.restartable x then s.killTeam t
      else s.freezeSaved t x 7 ((s.island c).report c) true
    | .suspended | .restored =>
      if s.restartable x then s.killTeam t else s.freezeSaved t x 7 ((s.island c).report c) true

/-- A core whose SRAM is lost (R348). -/
def Core.dark (k : Core) : Core :=
  { k with
    ctx := { k.ctx with
      vx := { k.ctx.vx with tiles := [] }
      mx := { k.ctx.mx with tiles := [], slots := [] } }
    aBytes := [], wBytes := [], aTags := [], wTags := [], fwd := [], halted := true }

/-- REGULATOR_FAILURE (R348): the island is dark, its SRAM is lost, and teams there are killed or frozen. -/
def execRegulatorFailure (i : Nat) (s : State) : Res :=
  let s := s.modIsland i fun x => { x with regf := true, pstate := 4, waitOn := false, droop := false, overCur := false }
  if 128 ≤ i then .next s
  else
    let hit := (s.teams.filter fun e => s.hitBy i e.1 e.2).map (·.1)
    let s := ((List.range 16).foldl (fun s _ => s.writeBack i) s).modCore i Core.dark
    .next (hit.foldl (fun s t => s.darkTeam i t) s)

end Sys2Proof.Machine
end

