-- ==== Sys2Proof/Machine/Links.lean ====
section
/-! DEFINITION. The host port and the Chimney ports: accesses from outside, flits and digests, link states
(06_ordering.md R113; 23_host_links_security.md R333 to R338; 25_debug.md R355). -/
namespace Sys2Proof.Machine

/-! ### Accesses from outside (06_ordering.md R113) -/

/-- An access to memory by an agent outside the device, visible at scope sc; a read's bytes are kept. -/
def State.outside (s : State) (q : Actor) (sc : Nat) (write inHost : Bool) (pa : Nat) (bytes : List Byte) : State :=
  if write then s.addWrite q 0 sc inHost (cellsAt pa bytes)
  else { s with hostRead := s.readGlobal q sc inHost pa bytes.length }

/-- The trusted interface in whose physical window a byte lies (R335, 20_translation_faults.md R315). -/
def State.interfaceAt (s : State) (pa : Nat) : Option Tdi :=
  ((List.range 8).find? fun p => (s.part p).tdi != 0 && !(s.part p).outside pa).map fun p => s.tdi (s.part p).tdi.toNat

/-- Whether the interface's state lets the access pass (R335): in RUN only on its stream, in ERROR not at all. -/
def Tdi.passes (x : Tdi) (stream : Bool) : Bool :=
  match x.state with
  | .run => stream
  | .error => false
  | .unlocked | .locked => true

/-- The bytes of n at an address all lie in the range of one HDM decoder (R333). -/
def State.decoded (s : State) (a n : Nat) : Bool :=
  (List.range 8).any fun p =>
    let r := Tbl.get (0, 0) s.hdm p
    decide (r.1 ≤ a) && decide (a + n ≤ r.1 + r.2)

/-- The interfaces of all the bytes let the access pass. -/
def State.trafficPasses (s : State) (stream : Bool) (a n : Nat) : Bool :=
  (List.range n).all fun i => (s.interfaceAt (a + i)).all (·.passes stream)

/-- HOST_ACCESS (R113, R333 to R335): a host agent reads or writes LP6, over CXL.mem through an HDM decoder or over CXL.io
through BAR 2, or its own memory (DEDUCED, log 76). -/
def execHostAccess (write : Bool) (path : HostPath) (stream : Bool) (pa : BitVec 52) (bytes : List Byte) (s : State) : Res :=
  let a := pa.toNat
  if path = .own then .next (s.outside .host 4 write true a bytes)
  else if !s.up || !s.hostUp then .next s
  else if Config.lp6Bytes < a + bytes.length then .fault .noSuchMemory
  else if path = .cxlMem ∧ s.decoded a bytes.length = false then .next s
  else if s.trafficPasses stream a bytes.length then .next (s.outside .host 4 write false a bytes)
  else .next { s with ideDropped := s.ideDropped + 1 }

/-- PEER_ACCESS (R113, R337): a peer box reads or writes LP6 at fabric scope, through a port in collective transport, or its
own memory, which is peer-box memory here (DEDUCED, log 76). -/
def execPeerAccess (write : Bool) (pa : BitVec 52) (bytes : List Byte) (s : State) : Res :=
  if isPeer pa.toNat then .next (s.outside .peer 3 write false pa.toNat bytes)
  else if !s.up || !s.fabricUp then .next s
  else if Config.lp6Bytes < pa.toNat + bytes.length then .fault .noSuchMemory
  else .next (s.outside .peer 3 write false pa.toNat bytes)

/-- HOST_PORT_DOWN (R333): HOST accesses raise the translation fault from here on. -/
def execHostPortDown (s : State) : Res := .next { s with hostUp := false }

/-! ### Flits (R337, 25_debug.md R355) -/

/-- n steps of the CRC-32C shift register, whose polynomial is 0x1EDC6F41, reflected. -/
def crcShift : Nat → BitVec 32 → BitVec 32
  | 0, r => r
  | n + 1, r => crcShift n (if r.getLsbD 0 then r >>> 1 ^^^ 0x82F63B78#32 else r >>> 1)

/-- The CRC-32C of bytes (PRESUMED, log 118). -/
def crc32c (bs : List Byte) : BitVec 32 :=
  ~~~(bs.foldl (fun r b => crcShift 8 (r ^^^ b.setWidth 32)) 0xFFFFFFFF#32)

/-- A digest after one flit: H is its bytes 0 to 7, C the CRC-32C of bytes 8 to 255, its body (R355). -/
def digestNext (d h : Word) (body : List Byte) : Word := d.rotateLeft 13 ^^^ h ^^^ (crc32c body).setWidth 64

/-- The port carries flits (DEDUCED, log 75). -/
def Chimney.carries (x : Chimney) : Bool := x.mode == 1 && x.lstate == 2

/-- CHIMNEY_FLIT: a flit, its bytes 0 to 7 and its body, received or sent; one whose CRC fails is replayed and counted. -/
def execChimneyFlit (port : BitVec 1) (tx crcFails : Bool) (head : BitVec 64) (body : List Byte) (s : State) : Res :=
  .next (s.modPort port.toNat fun x =>
    if !x.carries then x
    else if crcFails then { x with crcerr := if x.crcerr = 0xFFFFFFFF#32 then x.crcerr else x.crcerr + 1 }
    else if tx then { x with digtx := digestNext x.digtx head body }
    else { x with digrx := digestNext x.digrx head body })

/-! ### Link states (R337, R338) -/

/-- The fabric collective that waits at a context's CL head. -/
def Ctx.clFabric (x : Ctx) : Option Entry :=
  x.clHead.filter fun e => (x.clKey e).1 == 3 && !x.stopped .cl

def fabricFault : EFault := { sub := .fabric, acc := 0, addr := none }

/-- A fabric collective that waits at core c's CL head stops with the fabric fault (11_data_engines_isa.md R251). -/
def State.stopFabric (s : State) (c : Nat) : State :=
  match (s.ctx c).clFabric with
  | none => s
  | some e => s.clFault c e fabricFault 0

/-- So does one whose context is saved, or switched out, in image k. -/
def State.stopFabricSaved (s : State) (k : Nat) : State :=
  match s.images[k]? with
  | none => s
  | some g =>
    match g.ctx.clFabric with
    | none => s
    | some e =>
      let r := s.faultRec e fabricFault 0 0 g.b.tcb 0
      r.2.modImage k fun g => { g with ctx := (g.ctx.clStop e.id).setFault .cl r.1 }

/-- MSI-X 10, and where no port carries the fabric any more, its collectives stop (R337). -/
def State.portChanged (s : State) : State :=
  let s := s.raiseMsix 10
  if s.fabricUp then s
  else (List.range s.images.length).foldl State.stopFabricSaved ((s.cores.map (·.1)).foldl State.stopFabric s)

/-- CHIMNEY_PORT_DOWN (R337). -/
def execChimneyPortDown (port : BitVec 1) (s : State) : Res :=
  if (s.port port.toNat).lstate = 0 then .next s
  else .next (s.modPort port.toNat fun x => { x with lstate := 0, uplanes := 0 }).portChanged

/-- Step 6 of bring-up: the host port enumerates once every Chimney port that is on has trained (24_power_bringup.md
R349). -/
def State.enumerate (s : State) : State :=
  let trained : Bool := [0, 1].all fun n => (s.port n).mode == 0 || (s.port n).lstate == 2
  if !s.up && s.fw.image.any (·.lp6Trains) && trained then { s with hostUp := true, up := true } else s

/-- CHIMNEY_PORT_UP (R338): training ends; bring-up goes on with the last of the ports. -/
def execChimneyPortUp (port : BitVec 1) (ok : Bool) (lanes : BitVec 4) (s : State) : Res :=
  if (s.port port.toNat).lstate ≠ 1 then .next s
  else .next (s.modPort port.toNat fun x => { x with lstate := if ok then 2 else 3, uplanes := lanes }).portChanged.enumerate

/-- A port whose MODE changes goes down and trains again, with its digests at 0 (R338, 25_debug.md R355). -/
def Chimney.setMode (x : Chimney) (mode elanes : BitVec 2) : Chimney :=
  if x.mode = mode then { x with elanes := elanes }
  else { x with mode := mode, elanes := elanes, lstate := if mode = 0 then 0 else 1, uplanes := 0, digrx := 0, digtx := 0 }

def Chimney.clearDigests (x : Chimney) : Chimney := { x with digrx := 0, digtx := 0 }

/-- A write of MODE 3 or ELANES 0 is ignored (R338). -/
def chctlOk (mode elanes : BitVec 2) : Bool := mode != 3 && elanes != 0

/-- A write of CHCTL (R338). -/
def State.chctlWrite (s : State) (n v : Nat) : State :=
  let mode := BitVec.ofNat 2 (bitsNat v 1 0)
  let elanes := BitVec.ofNat 2 (bitsNat v 3 2)
  if !chctlOk mode elanes then s
  else
    let old := s.port n
    let s := s.modPort n fun x => (if bitNat v 4 then x.clearDigests else x).setMode mode elanes
    if old.mode != mode then s.portChanged else s

/-- CHIMNEY_MODE_WRITE (R338). -/
def execChimneyModeWrite (port : BitVec 1) (v : Word) (s : State) : Res := s.atHost (s.chctlWrite port.toNat v.toNat)

/-- DIGCLR (R338, 25_debug.md R355). -/
def execDigclr (port : BitVec 1) (s : State) : Res := s.atHost (s.modPort port.toNat Chimney.clearDigests)

end Sys2Proof.Machine
end

