-- ==== Sys2Proof/Machine/Trust.lean ====
section
/-! DEFINITION. Trusted interfaces, measurement reports, firmware, recovery and bring-up (23_host_links_security.md R335,
R336, R340 to R342; 24_power_bringup.md R349). -/
namespace Sys2Proof.Machine

/-! ### Sessions and interface states (R335) -/

/-- The partition that is interface n. -/
def State.partOf (s : State) (n : Nat) : Option Nat :=
  (List.range 8).find? fun p => n != 0 && (s.part p).tdi.toNat == n

/-- KEY_EXCHANGE (R335): a session, its keys and its heartbeat period of 1 to 600 s. -/
def execKeyExchange (tdi : BitVec 8) (period : Nat) (s : State) : Res :=
  if period = 0 ∨ 600 < period ∨ (s.partOf tdi.toNat).isNone then .next s
  else .next (s.modTdi tdi.toNat fun x => { x with session := true, period := period, lastBeat := s.time })

/-- Units of 10 ns in a second. -/
def second : Nat := 100000000

/-- The session has not expired: its latest heartbeat lies no more than twice the period back (R335). -/
def Tdi.alive (x : Tdi) (now : Nat) : Bool := x.session && decide (now ≤ x.lastBeat + 2 * x.period * second)

/-- HEARTBEAT (R335): it renews a session that has not expired. -/
def execHeartbeat (tdi : BitVec 8) (s : State) : Res :=
  .next (s.modTdi tdi.toNat fun x => if x.alive s.time then { x with lastBeat := s.time } else x)

/-- LOCK_INTERFACE (R335): CONFIG_LOCKED allows only partition STATE 1. -/
def execLockInterface (tdi : BitVec 8) (s : State) : Res :=
  match s.partOf tdi.toNat with
  | some p =>
    if (s.part p).state = 1 then
      .next (s.modTdi tdi.toNat fun x => if x.state = .unlocked then { x with state := .locked } else x)
    else .next s
  | none => .next s

/-- START_INTERFACE (R335, R336): after a lock, with the session whose keys the stream uses. -/
def execStartInterface (tdi : BitVec 8) (s : State) : Res :=
  .next (s.modTdi tdi.toNat fun x => if x.state = .locked ∧ x.session then { x with state := .run } else x)

/-- The value of the fuse counter: the number of bits set in its row (R341). -/
def Firmware.fuseCount (x : Firmware) : Nat := ((List.range 64).filter x.fuse.getLsbD).length

/-- MEASUREMENT_REPORT_REQUEST (R340, 00_scope.md R5): the report carries the measurement of the image, its revision, SVN, the
fuse counter, STEP and CGEN. -/
def execMeasurementReportRequest (tdi : BitVec 8) (s : State) : Res :=
  match s.up, s.fw.image with
  | true, some i =>
    .next (s.modTdi tdi.toNat fun x =>
      { x with
        report := some { measured := i.measured, revision := i.revision, svn := i.svn, fuse := s.fw.fuseCount,
                         step := Config.step, cgen := Config.cgen }
        reports := x.reports + 1 })
  | _, _ => .next s

/-! ### An interface error (R336) -/

/-- Cores that hold a task of partition p. -/
def State.coresOf (s : State) (p : Nat) : List Nat :=
  (s.cores.filter fun e => e.2.task.isSome && e.2.b.part.toNat == p).map (·.1)

/-- A read of host memory that a Stoker entry still waits for: its host address and its virtual address. -/
def SqEnt.hostRead (e : SqEnt) : Option (Nat × Word) :=
  match e.kind with
  | .load (.host a) _ _ _ va => some (a, va)
  | .amo _ (.host a) _ _ _ _ va => some (a, va)
  | .lr (.host a) _ _ _ va => some (a, va)
  | _ => none

/-- A context whose outstanding reads of host memory have completed poisoned. -/
def Ctx.poisonReads (x : Ctx) : Ctx :=
  let hit := x.sq.filter fun e => e.hostRead.isSome
  { x with
    sq := x.sq.filter fun e => e.hostRead.isNone
    poison := x.poison ++ (hit.filter fun e => e.dest != .none).map fun e => (e.dest, (e.hostRead.map (·.2)).getD 0) }

/-- The poisoned reads of a context are logged, with its TCB (20_translation_faults.md R319). -/
def State.logPoisoned (s : State) (p tcb : Nat) (x : Ctx) : State :=
  x.sq.foldl (fun s e => match e.hostRead with
    | some (a, va) => s.uncorrectable false false (a / 64 * 64) p 0 tcb va.toNat
    | none => s) s

/-- The latest line of host memory that a command under way has read: its reads count as outstanding (DEDUCED, log 72). -/
def Entry.hostLine (e : Entry) : Option Nat :=
  if e.started && !e.complete then (e.met.find? (·.1 == 4)).map fun m => m.2.2 * 64 else none

/-- Engine a of core c stops with the uncorrectable-data fault at a command that waits for host memory (R336). -/
def State.poisonEngine (s : State) (p c : Nat) (a : Agent) : State :=
  match ((s.ctx c).queue a).findSome? fun e => e.hostLine.map fun l => (e, l) with
  | none => s
  | some (e, l) =>
    let s := s.uncorrectable false false l p a.code (s.core c).b.tcb.toNat 0
    (s.modCtx c fun x => x.modEntry a e.id fun y => { y with started := false, begun := true, held := false, todo := [] }).engineFault c a e
      { sub := .uncorrectable, acc := 0, addr := none } e.prog

/-- Reads of core c still outstanding complete poisoned: the Stoker's mark their registers, the engines' stop them (R336). -/
def State.poisonReads (s : State) (p c : Nat) : State :=
  let s := (s.logPoisoned p (s.core c).b.tcb.toNat (s.ctx c)).modCtx c Ctx.poisonReads
  [Agent.cx, .gx, .fx].foldl (fun s a => s.poisonEngine p c a) s

/-- A store, or a store-conditional, to host memory that has not performed. -/
def SqEnt.hostStore (e : SqEnt) : Bool :=
  match e.kind with
  | .store (.host _) _ => true
  | .sc (.host _) _ _ _ _ => true
  | _ => false

/-- A context whose host stores that have not performed are dropped; a store-conditional among them fails (DEDUCED, log 72). -/
def Ctx.dropHostStores (x : Ctx) : Ctx :=
  let hit := x.sq.filter SqEnt.hostStore
  hit.foldl (fun x e => x.land e.dest 1) { x with sq := x.sq.filter fun e => !e.hostStore }

/-- The saved contexts of partition p, by position. -/
def State.imagesOf (s : State) (p : Nat) : List Nat :=
  (List.range s.images.length).filter fun k => (s.images[k]?).any fun g => (Tbl.get? s.teams g.team).any (·.part == p)

/-- Writes of the partition still queued for the port are dropped: those no host reader can see yet, whether their task still
is on its core or has left it, and host stores that have not performed. -/
def State.dropHostWrites (s : State) (p : Nat) (cores images : List Nat) : State :=
  let s := { s with pend := s.pend.filter fun w => !(w.inHost && w.part == p && decide (w.scope < 4)) }
  let s := cores.foldl (fun s c => s.modCtx c Ctx.dropHostStores) s
  images.foldl (fun s k => s.modImage k fun g => { g with ctx := g.ctx.dropHostStores }) s

/-- The five steps of R336, for interface n of partition p. -/
def State.interfaceFails (s : State) (n p : Nat) : State :=
  let cores := s.coresOf p
  let images := s.imagesOf p
  let s := cores.foldl (fun s c => s.poisonReads p c) s
  let s := images.foldl (fun s k => match s.images[k]? with
    | some g => (s.logPoisoned p g.b.tcb.toNat g.ctx).modImage k fun g => { g with ctx := g.ctx.poisonReads }
    | none => s) s
  let s := s.dropHostWrites p cores images
  let ts := (s.teams.filter fun e => e.2.part == p && (e.2.state == .running || e.2.state == .suspending)).map (·.1)
  let s := ts.foldl State.freezeQuiet s
  let s := s.modPart p fun x => { x with state := 3 }
  let s := if (s.part p).outside (s.part p).nqAddr then s.notify p 6 0 n 0 else s
  s.modTdi n fun x => { x with state := .error, session := false }

/-- INTERFACE_ERROR (R336): the interface leaves RUN, or its session fails verification (DEDUCED, log 72). -/
def execInterfaceError (tdi : BitVec 8) (s : State) : Res :=
  match s.partOf tdi.toNat with
  | none => .next s
  | some p =>
    let x := s.tdi tdi.toNat
    if x.state = .error ∨ (x.state ≠ .run ∧ !x.session) then .next s else .next (s.interfaceFails tdi.toNat p)

/-- SESSION_EXPIRY (R335, R336): no heartbeat within twice the period. -/
def execSessionExpiry (tdi : BitVec 8) (s : State) : Res :=
  let x := s.tdi tdi.toNat
  match s.partOf tdi.toNat with
  | none => .next s
  | some p =>
    if !x.session || x.state == .error || x.alive s.time then .next s
    else .next (s.interfaceFails tdi.toNat p)

/-! ### STOP_INTERFACE (R336) -/

/-- Slots, tiles and M-files zeroed. -/
def Ctx.zeroed (x : Ctx) : Ctx :=
  { x with vx := { x.vx with tiles := [] }, mx := { x.mx with tiles := [], slots := [] } }

/-- A core's buffers, slots, tiles and M-files zeroed. -/
def Core.zeroed (k : Core) : Core := { k with ctx := k.ctx.zeroed, aBytes := [], wBytes := [], aTags := [], wTags := [], fwd := [] }

/-- n bytes of device memory from an address on are zero. -/
def State.zeroMemory (s : State) (a n : Nat) : State :=
  let out := fun (e : Host.Cell) => !(decide (a ≤ e.1) && decide (e.1 < a + n))
  { s with
    mem := s.mem.filter out
    pend := s.pend.map fun w => if w.inHost then w else { w with cells := w.cells.filter out } }

/-- A saved context of which nothing is left. -/
def Image.wiped (g : Image) : Image :=
  { g with ctx := Ctx.reset, aBytes := [], wBytes := [], aTags := [], wTags := [], lost := true, stopped := false }

/-- The spill areas that a frozen team's TCBs name, 5 MiB each, are zeroed (19_scheduling.md R303). -/
def State.zeroSpill (s : State) (x : Team) : State :=
  x.live.foldl (fun s m => s.zeroMemory (bitsNat (s.tcbGet x.part m.1.tcb 15) 51 12 * 4096) (5 * 2 ^ 20)) s

/-- The resources of partition p are zeroed (R336); its lends end with them. -/
def State.zeroPart (s : State) (p : Nat) : State :=
  let mine := s.teams.filter fun e => e.2.part == p
  let frozen := mine.filter fun e => e.2.state == .frozenHere || e.2.state == .frozenSaved
  let s := frozen.foldl (fun s e => s.zeroSpill e.2) s
  let cores := (s.cores.map (·.1)).filter fun c => (s.part p).owns (c / 16)
  let s := cores.foldl (fun s c => s.modCore c Core.zeroed) s
  let s := { s with bad := s.bad.filter fun x => !cores.contains x.core }
  let code := s.cache.filter fun e => e.part == p
  let s := code.foldl (fun s e => s.zeroMemory (s.cacheBase + e.addr) (residualBytes e.res).length) s
  let s : State :=
    { s with
      images := s.images.map fun g => if mine.any (fun e => e.1 == g.team) then g.wiped else g
      cache := s.cache.filter fun e => e.part != p
      lent := s.lent.filter fun l => l.part != p }
  mine.foldl (fun s e => match e.2.state with
    | .waiting | .ready | .placed | .retired => s
    | _ => s.modTeam e.1 fun y => { y with lostImage := true }) s

/-- STOP_INTERFACE (R336): the interface returns to CONFIG_UNLOCKED, its partition to STATE 1; what still runs is frozen
first. -/
def execStopInterface (tdi : BitVec 8) (s : State) : Res :=
  match s.partOf tdi.toNat with
  | none => .next s
  | some p =>
    if (s.tdi tdi.toNat).state = .unlocked then .next s
    else
      let ts := (s.teams.filter fun e => e.2.part == p && (e.2.state == .running || e.2.state == .suspending)).map (·.1)
      let s := ts.foldl State.freezeQuiet s
      let s := s.zeroPart p
      .next ((s.modPart p fun x => { x with state := if x.state = 0 then 0 else 1 }).modTdi tdi.toNat fun x =>
        { x with state := .unlocked })

/-! ### Firmware (R340 to R342, 24_power_bringup.md R349) -/

/-- The boot ROM accepts an image: both signatures verify, and its SVN is not below the fuse counter (R340, R341). -/
def State.accepts (s : State) (i : FirmwareImage) : Bool :=
  i.edOk && i.mlOk && decide (i.svn ≤ 63) && decide (s.fw.fuseCount ≤ i.svn)

/-- The ports as bring-up loads them: a write of the record's values after reset (R338). -/
def bootPort (mode elanes : BitVec 2) : Chimney :=
  if chctlOk mode elanes then Chimney.reset.setMode mode elanes else Chimney.reset

/-- A device at reset that keeps what a reset does not reach: memories, fuses, the kernels a loader has placed, and the
model's own plan (DESIGN CHOICE, log 5; DEDUCED, log 73). -/
def State.rebooted (s : State) : State :=
  { State.reset with
    mem := s.mem, hmem := s.hmem, kernels := s.kernels, plan := s.plan, cur := s.cur, free := s.free
    fw := { s.fw with rstage := 0, rstate := 0, code := 0, image := none } }

/-- Bring-up with a checked image: a later step begins only when the earlier one has succeeded (R349). -/
def State.bringUp (s : State) (i : FirmwareImage) : State :=
  let s : State := { s with fw := { s.fw with image := some i, rstate := 0 } }
  if !i.lp6Trains then s
  else
    ((s.modPort 0 fun _ => bootPort i.mode0 i.elanes0).modPort 1 fun _ => bootPort i.mode1 i.elanes1).enumerate

/-- RESET_RELEASE (R349): bring-up with the image the device holds, once. -/
def execResetRelease (image : FirmwareImage) (s : State) : Res :=
  if s.up || s.fw.image.isSome then .next s
  else if s.accepts image then .next (s.bringUp image)
  else .next { s with fw := { s.fw with rstate := 3, image := none } }

/-- Every core is halted. -/
def State.haltAll (s : State) : State := { s with cores := s.cores.map fun e => (e.1, { e.2 with halted := true }) }

/-- A partition runs. -/
def State.partRuns (s : State) : Bool := (List.range 8).any fun p => (s.part p).state == 2

/-- A write of GO: every core halts and the staged image is being verified; ignored while a partition runs (R342). -/
def State.recoveryGo (s : State) : State :=
  if s.partRuns then s else { s.haltAll with fw := { s.fw with rstate := 1 } }

/-- The staged image lies in LP6, where RSTAGE points. -/
def State.staged (s : State) (i : FirmwareImage) : Bool := decide (s.fw.rstage.toNat + i.length ≤ Config.lp6Bytes)

/-- RECOVERY_GO (R342): ignored while a partition runs; otherwise the staged image is verified, and booted or refused. -/
def execRecoveryGo (image : FirmwareImage) (s : State) : Res :=
  if s.partRuns then .next s
  else
    let s := s.recoveryGo
    if s.accepts image && s.staged image then .next (s.rebooted.bringUp image)
    else
      .next ({ s with fw := { s.fw with rstate := 2, code := Config.refusalCode s.free }, free := s.free + 1 }.raiseMsix 11)

/-- FWCOMMIT (R341): fuse bits are set up to the running image's SVN; none is cleared. -/
def State.fuseCommit (s : State) : State :=
  match s.fw.image with
  | some i => { s with fw := { s.fw with fuse := s.fw.fuse ||| BitVec.ofNat 64 (2 ^ i.svn - 1) } }
  | none => s

/-- FWCOMMIT (R341). -/
def execFwcommit (s : State) : Res := .next s.fuseCommit

end Sys2Proof.Machine
end

