-- ==== Sys2Proof/Machine/Services.lean ====
section
/-! DEFINITION. The service cores: completions of requests and the return of lent pages (08_stoker_isa.md R173, R174;
06_ordering.md R112; 23_host_links_security.md R336, R339; 17_energy.md R289). -/
namespace Sys2Proof.Machine

/-! ### A request (R173) -/

def Request.field (r : Request) (lo n : Nat) : Nat := leNat ((r.bytes.drop lo).take n)

def Request.service (r : Request) : Nat := r.field 0 2
def Request.handle (r : Request) : Nat := r.field 4 4
def Request.buf (r : Request) : Nat := r.field 8 8
def Request.len (r : Request) : Nat := r.field 16 8
def Request.done (r : Request) : Nat := r.field 32 8

/-- Whether the service writes to BUF: socket receive and storage read. -/
def Request.delivers (r : Request) : Bool := r.service == 2 || r.service == 4

/-- The request names a handle that the host has assigned to another partition (23_host_links_security.md R339). -/
def State.foreign (s : State) (r : Request) : Bool :=
  let owner := Tbl.get 0 s.handles r.handle
  owner != 0 && owner != r.part + 1

/-- The host assigns a handle to a partition (R339). -/
def State.assignHandle (s : State) (h part : Nat) : State := { s with handles := Tbl.put 0 s.handles h (part + 1) }

/-! ### The service's accesses -/

/-- An access of a service core for a request breaks isolation: the requester's team, where it still runs, is frozen in place
(20_translation_faults.md R315; DEDUCED, log 127). -/
def State.serviceViolates (s : State) (r : Request) : State :=
  match Tbl.get? s.teams r.team with
  | some x =>
    if x.state = .running then s.freezeTeam r.team 2 ((x.members[r.member]?).elim 0 (·.tcb)) 0 0 else s
  | none => s

/-- Bytes written by the service core of a request, visible at system scope and metered to its island; what cannot be
translated is not written. -/
def State.serviceWrite (s : State) (r : Request) (va : Nat) : (fuel : Nat) → List Byte → State
  | 0, _ => s
  | fuel + 1, bs =>
    if bs.isEmpty then s
    else
      let m := min bs.length (64 - va % 64)
      match s.translate .service r.part .write false va with
      | (.ok pl attr, s) =>
        ((s.atomicWrite .service 15 4 pl (bs.take m)).meterUncore (svcIsland r.core) (lineEvent pl attr true) 1).serviceWrite r
          (va + m) fuel (bs.drop m)
      | (.violation, s) => s.serviceViolates r
      | (_, s) => s

/-- n bytes of a request's payload as a service core reads them, at system scope and metered to its island; it ends where
there is nothing to read (06_ordering.md R112, 23_host_links_security.md R339). A line with an uncorrectable error reads as
zeros (DESIGN CHOICE, log 112). -/
def State.payloadRead (s : State) (r : Request) (va : Nat) : (fuel n : Nat) → List Byte × State
  | 0, _ => ([], s)
  | fuel + 1, n =>
    if n = 0 then ([], s)
    else
      let m := min n (64 - va % 64)
      match s.translate .service r.part .read false va with
      | (.ok pl attr, s) =>
        let e := s.readErrors .service r.part false pl m va
        let bs := if e.2 then List.replicate m 0 else match pl with
          | .dev a => s.readGlobal .service 4 false a m
          | .host a => s.readGlobal .service 4 true a m
          | _ => []
        let rest := (e.1.meterUncore (svcIsland r.core) (lineEvent pl attr false) 1).payloadRead r (va + m) fuel (n - m)
        (bs ++ rest.1, rest.2)
      | (.violation, s) => ([], s.serviceViolates r)
      | (_, s) => ([], s)

/-- The partition of a request is a trusted interface in ERROR, for which there is no traffic (R335, R336). -/
def State.mute (s : State) (r : Request) : Bool := (s.tdi (s.part r.part).tdi.toNat).state == .error

/-- A service core reads the payload of request k, once (R112). -/
def State.readPayload (s : State) (k : Nat) : State :=
  match s.requests[k]? with
  | none => s
  | some r =>
    if r.payload.isSome || r.delivers || s.foreign r || s.mute r then s
    else
      let v := s.payloadRead r r.buf (r.len / 64 + 2) r.len
      { v.2 with requests := setAt v.2.requests k { r with payload := some v.1 } }

/-- Event SVC of a member, where its context still is. -/
def State.eventMember (s : State) (t m : Nat) : State :=
  match (Tbl.get? s.teams t).bind fun x => x.members[m]? with
  | some y =>
    match s.memberHome t (y, m) with
    | some h => s.eventAt h 14 10 0
    | none => s
  | none => s

/-- The completion doubleword (R173). -/
def doneWord (err : Bool) (value : Nat) : Nat := 2 ^ 63 + (if err then 2 ^ 62 else 0) + value % 2 ^ 48

/-- A request that is answered: what it delivers is visible before DONE is written, and SVC is set (R173). -/
def State.answer (s : State) (r : Request) (err : Bool) (value : Nat) (data : List Byte) : State :=
  let s := if r.delivers && !err then s.serviceWrite r r.buf (data.take r.len).length (data.take r.len) else s
  (s.serviceWrite r r.done 8 (leBytes 8 (doneWord err value))).eventMember r.team r.member

/-- SERVICE_COMPLETION (R173): request k completes. One that names a foreign handle does so with error code 3 (R339); a payload
that is sent or stored has been read by then; for an interface in ERROR there is nothing but its end (R336; DESIGN CHOICE,
log 18). -/
def execServiceCompletion (k : Nat) (err : Bool) (value : BitVec 48) (data : List Byte) (s : State) : Res :=
  match s.requests[k]? with
  | none => .next s
  | some r =>
    let gone := fun (s : State) => { s with requests := dropAt s.requests k }
    if s.mute r then .next (gone s)
    else if s.foreign r then .next ((gone s).answer r true 3 [])
    else if err || r.delivers then .next ((gone s).answer r err value.toNat data)
    else
      let s := s.readPayload k
      let bs := ((s.requests[k]?).bind (·.payload)).getD []
      let s := gone s
      .next ({ s with sent := s.sent ++ [(r.service, r.handle, bs)] }.answer r false value.toNat [])

/-! ### Lent pages (R174) -/

/-- A request of the partition that has not completed names the page. -/
def State.pageNamed (s : State) (l : Lent) : Bool :=
  s.requests.any fun r => r.part == l.part && overlapR r.buf r.len l.page l.size

/-- LENT_PAGE_RETURN (R174): once no request names the page, it is writable again and SVC is latched. After an interface
error the return is discarded (23_host_links_security.md R336). -/
def execLentPageReturn (part : Nat) (page : BitVec 57) (s : State) : Res :=
  match s.lent.find? fun l => l.part == part && l.page == page.toNat with
  | none => .next s
  | some l =>
    if s.pageNamed l || (s.tdi (s.part part).tdi.toNat).state == .error then .next s
    else
      let s := { s with lent := s.lent.filter (· != l) }
      .next (s.eventMember l.team l.member)

end Sys2Proof.Machine
end

