-- ==== Sys2Proof/Machine/Soot.lean ====
section
/-! DEFINITION. Soot: stops, breakpoints, samples and latency injection (25_debug.md R350 to R353); the error block's
configuration and injection (20_translation_faults.md R319). -/
namespace Sys2Proof.Machine

/-- The agent of an AGENT code. -/
def agentCoded (code : Nat) : Option Agent := allAgents.find? fun a => a.code == code

/-! ### Head positions (R350, R351, 20_translation_faults.md R312) -/

/-- The progress point of an agent's head: iteration and halfword of a run, else what the command counts; the PC for the
Stoker. -/
def Ctx.headProgress (x : Ctx) (a : Agent) : Nat :=
  match a with
  | .sk => x.pc.toNat
  | _ =>
    match (x.queue a).head? with
    | none => 0
    | some e =>
      match a, x.vx.run, x.mx.run with
      | .vx, some r, _ => if r.entry = e.id then r.k * 2 ^ 32 + r.first % 2 ^ 12 else e.prog
      | .mx, _, some r => if r.entry = e.id then r.k * 2 ^ 32 + e.prog % 2 ^ 20 * 2 ^ 12 + r.pos % 2 ^ 12 else e.prog
      | _, _, _ => e.prog

/-- Records of every head position of a context of core c: KIND 4 at a stop, 6 for a sample (R353). -/
def State.headsOf (s : State) (kind c launch : Nat) (x : Ctx) : State :=
  allAgents.foldl (fun s a => s.sootRecord (sootDw0 kind a.code c (x.position a)) (x.headProgress a) (launch * 2 ^ 32)) s

/-- Records of every head position of core c. -/
def State.headRecords (s : State) (kind c : Nat) : State :=
  if !s.sootOn c then s else s.headsOf kind c (s.launchNo c) (s.ctx c)

/-- What a wait of core c waits for has come, though its agent has not gone on yet. The flags of the other waits end them at
once. -/
def State.waitOver (s : State) (c : Nat) (w : Wait) : Bool :=
  let x := s.ctx c
  let n := w.num.toNat
  match w.flag with
  | 4 => if n < 8 then (x.acc n).inflight.isNone else (x.mtile (n - 8)).inflight.isNone
  | 5 =>
    match agentCoded w.setter with
    | some a => (x.queue a).all fun e => e.qpos != n || (e.rd.isEmpty && e.wr.isEmpty)
    | none => true
  | 9 => x.clHead.any fun e =>
      let key := x.clKey e
      (s.clCores c (clTeam key.1 key.2.1)).any fun cores => s.clReady cores key
  | 10 =>
    match agentCoded n with
    | some a => !x.full a && decide (x.scored < 64)
    | none => decide ((s.ctx w.setterCore).recvq.length < 8)
  | _ => false

/-- The waits of core c at a stop (R353): one whose flag is set ends; every other is written as an open wait with
SETTER 15. -/
def State.openWaits (s : State) (c : Nat) : State :=
  if !s.sootOn c then s
  else
    let ended := (s.ctx c).waits.filter (s.waitOver c)
    let s : State := ended.foldl (fun s w => (agentCoded w.agent).elim s (s.endWait c)) s
    let f := wfeFlag (s.ctx c).arm
    (s.ctx c).waits.foldl (fun (s : State) (w : Wait) =>
      let flag := if w.agent = 0 ∧ w.flag = 6 ∧ w.num = 0 ∧ f.1 ≠ 6 then f.1 else w.flag
      s.sootRecord (sootDw0 2 w.agent c w.qpos) (flag * 2 ^ 56 + 15 * 2 ^ 48 + w.num.toNat)
        (s.launchNo c * 2 ^ 32 + min (s.ec - w.since) (2 ^ 32 - 1))) s

/-! ### Stops (R351) -/

/-- Core c halts at this cut, which is recorded; one that retires or switches goes on doing so once it is let go on. -/
def State.stopCore (s : State) (c : Nat) : State :=
  ((s.modCore c fun k => holdCore (if k.hold = .none then .stopped else k.hold) k).openWaits c).headRecords 4 c

/-- A member that is switched out of its core stops where it stands: it is not switched in until the host lets its core go on
(DEDUCED, log 52). -/
def State.stopImage (s : State) (t : Nat) (x : Team) (m : Member × Nat) : State :=
  match (s.imageOf t m.2).bind (s.images[·]?) with
  | none => s
  | some g =>
    let s := { s with images := s.images.map fun g =>
      if g.team = t ∧ g.member = m.2 ∧ x.state = .running then { g with stopped := true } else g }
    let on := bitNat s.soot.ctl.toNat 0 && bitNat s.soot.ctl.toNat (8 + x.part)
    if on && !g.stopped then s.headsOf 4 m.1.core (((Tbl.get? s.launches x.launch).map (·.number)).getD 0) g.ctx else s

/-- Every member of a team stops, on its core or switched out of it; a save that is under way goes on after the records. -/
def State.stopTeam (s : State) (t : Nat) : State :=
  match Tbl.get? s.teams t with
  | none => s
  | some x =>
    if x.state ≠ .running ∧ x.state ≠ .suspending then s
    else x.live.foldl (fun s m =>
      if (s.core m.1.core).task == some (t, m.2) then s.stopCore m.1.core else s.stopImage t x m) s

/-- Every running team of PMASK stops (R351, R352). -/
def State.sootStopAll (s : State) : State :=
  (s.teams.filter fun e => bitNat s.soot.ctl.toNat (8 + e.2.part)).foldl (fun s e => s.stopTeam e.1) s

/-- SOOT_STOP (R351). -/
def execSootStop (s : State) : Res := s.atHost s.sootStopAll

/-- The period of 65,536 ec that holds the current ec. -/
def State.samplePeriod (s : State) : Nat := s.ec / 65536

/-- A sample is due once in every period of 65,536 ec that begins while samples are enabled (R352; DEDUCED, log 52). -/
def State.sampleDue (s : State) : Bool := bitNat s.soot.ctl.toNat 2 && decide (s.soot.sampled < s.samplePeriod)

/-- SAMPLE_RECORD (R352, R353): every head position of every task of PMASK. -/
def execSampleRecord (s : State) : Res :=
  if !s.sampleDue then .next s
  else
    let s := { s with soot := { s.soot with sampled := s.samplePeriod } }
    .next ((s.cores.map (·.1)).foldl (fun s c => if (s.core c).task.isSome then s.headRecords 6 c else s) s)

/-! ### Breakpoints (R352) -/

/-- Breakpoint k names what its core is about to start: the head of a queue, which is its first entry that has not started, or
the Stoker's next instruction (R351; DEDUCED, log 52). What starts in the ec of the write starts. -/
def State.brkHit (s : State) (k : Nat) : Option (Nat × Agent) :=
  let b := (Tbl.get (0 : Word) s.soot.brk k).toNat
  let c := bitsNat b 62 56
  if !(bitNat s.soot.ctl.toNat 0 && bitNat b 63) || s.brkFresh k then none
  else
    match agentCoded (bitsNat b 55 52) with
    | none => none
    | some .sk =>
      if (s.ctx c).pc.toNat = bitsNat (Tbl.get (0 : Word) s.soot.brkpc k).toNat 56 0 then some (c, .sk) else none
    | some a =>
      match ((s.ctx c).queue a).find? fun e => !e.started && !e.begun with
      | some e => if e.qpos = bitsNat b 31 0 then some (c, a) else none
      | none => none

/-- BREAKPOINT_STOP (R352): the team stops before the named entry or instruction starts. -/
def execBreakpointStop (k : Nat) (s : State) : Res :=
  match s.brkHit k with
  | none => .next s
  | some (c, a) =>
    if (s.core c).hold ≠ .none ∨ (s.core c).halted then .next s
    else
      let s := if s.sootOn c then s.sootRecord (sootDw0 3 a.code c ((s.ctx c).position a)) 0 (s.launchNo c * 2 ^ 32) else s
      match (s.core c).task with
      | some (t, _) => .next (s.stopTeam t)
      | none => .next (s.stopCore c)

/-! ### Latency injection (R352): it changes time only -/

/-- The first doubleword of LATINJk, whose bits [62:52] are zero. -/
def State.latinjWrite (s : State) (k v : Nat) : State :=
  { s with soot := { s.soot with latinj := Tbl.put (0 : Word) s.soot.latinj k (BitVec.ofNat 64 (putBits v 62 52 0)) } }

/-- LATENCY_INJECT_ARM (R352). -/
def execLatencyInjectArm (k : Nat) (v : Word) (s : State) : Res := if 4 ≤ k then .next s else s.atHost (s.latinjWrite k v.toNat)

/-! ### The error block (20_translation_faults.md R319) -/

/-- A write of ERRCFG: a WINDOW of 0 and a THRESH of 0 or 1 leave their fields; LOGOVF is cleared by a 1. -/
def State.errcfgWrite (s : State) (v : Nat) : State :=
  let w := bitsNat v 47 32
  let t := bitsNat v 23 20
  { s with err := { s.err with
      window := if w = 0 then s.err.window else BitVec.ofNat 16 w
      thresh := if t ≤ 1 then s.err.thresh else BitVec.ofNat 4 t
      logovf := s.err.logovf && !bitNat v 0 } }

/-- ERRCFG_WRITE (R319). -/
def execErrcfgWrite (v : Word) (s : State) : Res := s.atHost (s.errcfgWrite v.toNat)

/-- A write of INJk: line address, KIND and ARM. -/
def State.injWrite (s : State) (k v : Nat) : State :=
  { s with err := { s.err with
      inj := Tbl.put (0 : Word) s.err.inj k (BitVec.ofNat 64 (bitsNat v 51 6 * 64 + bitsNat v 2 0)) } }

/-- ERROR_INJECT_ARM (R319). -/
def execErrorInjectArm (k : Nat) (v : Word) (s : State) : Res := if 8 ≤ k then .next s else s.atHost (s.injWrite k v.toNat)

end Sys2Proof.Machine
end

