-- ==== Sys2Proof/Machine/VecOps.lean ====
section
/-! DEFINITION. The lane operations of VX (09_vector_isa.md R186 to R193, R199): what a unit computes from its operand
registers and the trigger value. -/
namespace Sys2Proof.Machine

/-! ### Types and sub-lanes (R186) -/

/-- The element format of an operation type. -/
def vtyFmt (t : Nat) : Fmt := [Fmt.fp32, .bf16, .fp16, .int32, .int16, .int8].getD t .int32

/-- Elements of a lane. -/
def vtySubs (t : Nat) : Nat := [1, 2, 2, 1, 2, 4].getD t 1

/-- Bits of an element. -/
def vtyBits (t : Nat) : Nat := 32 / vtySubs t

/-- Whether a type is floating. -/
def vtyFloat (t : Nat) : Bool := decide (t ≤ 2)

/-- Element h of a lane. -/
def subLane (t : Nat) (x : Lane) (h : Nat) : Nat := x.toNat / 2 ^ (h * vtyBits t) % 2 ^ vtyBits t

/-- A lane from its elements. -/
def ofSubs (t : Nat) (l : List Nat) : Lane := BitVec.ofNat 32 (packCodes (vtyBits t) l)

/-- Lane L of a port value. -/
def laneAt (v : Lanes) (n : Nat) : Lane := v.getD n 0

/-- The elements of a port value in element order (R191). -/
def vElems (t : Nat) (v : Lanes) : List Nat :=
  (List.range 64).flatMap fun n => (List.range (vtySubs t)).map fun h => subLane t (laneAt v n) h

/-- Flags in the order of VXST (R187). -/
def Fl.vxst (f : Fl) : BitVec 9 := f.bits.setWidth 9

/-- SAT of VXST. -/
def satFlag : BitVec 9 := 0x20#9

/-- The flags of a list of elements together. -/
def orFlags (l : List (Nat × BitVec 9)) : BitVec 9 := l.foldl (fun b e => b ||| e.2) 0

/-- The 64 lanes of a list of element results, and their flags. -/
def gatherSubs (t : Nat) (l : List (Nat × BitVec 9)) : Lanes × BitVec 9 :=
  ((List.range 64).map fun n => ofSubs t (((l.drop (n * vtySubs t)).take (vtySubs t)).map (·.1)), orFlags l)

/-- An element operation on every element of two values; the operation is given the element's number. -/
def mapSubs (t : Nat) (f : Nat → Nat → Nat → Nat × BitVec 9) (o x : Lanes) : Lanes × BitVec 9 :=
  gatherSubs t (((vElems t o).zip (vElems t x)).zipIdx.map fun e => f e.2 e.1.1 e.1.2)

/-! ### The ALUs (R188) -/

/-- A floating result: an invalid combination or a NaN input gives the canonical NaN (R60, R188). -/
def vFinish (f : Fmt) (mode : Rm) (ins : List Val) (v : Val) : Nat × BitVec 9 :=
  if v.isNan then (f.nanCode, (Fl.nvIf (ins.any Val.isSig || ins.all fun x => !x.isNan)).vxst)
  else let r := roundTo f mode false v; (r.1, r.2.vxst)

/-- All ones for true, zero for false (R186). -/
def truth (bits : Nat) (b : Bool) : Nat := if b then 2 ^ bits - 1 else 0

/-- A floating ALU operation on one element. -/
def vaFloat (f : Fmt) (op : Nat) (mode : Rm) (o x : Nat) : Nat × BitVec 9 :=
  let a := decodeEl f o
  let b := decodeEl f x
  let pick := fun (mx : Bool) =>
    (match pickMin mx a b with
      | none => f.nanCode
      | some second => if second then x else o, (Fl.nvIf (a.isSig || b.isSig)).vxst)
  let cmp := fun (c : FpCmp) => let r := rvCmp c a b; (truth f.bits r.1, r.2.vxst)
  match op / 8, op % 8 with
  | 0, _ => vFinish f mode [a, b] (a.add mode.down b)
  | 1, _ => vFinish f mode [a, b] (a.add mode.down b.negate)
  | 2, _ => vFinish f mode [a, b] (a.mul b)
  | _, 0 => pick false
  | _, 1 => pick true
  | _, 2 => (x % 2 ^ (f.bits - 1), 0)
  | _, 3 => ((x + 2 ^ (f.bits - 1)) % 2 ^ f.bits, 0)
  | _, 4 => cmp .feq
  | _, 5 => cmp .flt
  | _, 6 => cmp .fle
  | _, _ => (x, 0)

/-- An exact integer result, wrapped or, where `sat`, clamped to n bits with SAT. -/
def vInt (n : Nat) (sat : Bool) (v : Int) : Nat × BitVec 9 :=
  let hi : Int := ((2 ^ (n - 1) - 1 : Nat) : Int)
  let lo : Int := -((2 ^ (n - 1) : Nat) : Int)
  if sat && decide (v < lo ∨ hi < v) then (codeInt n (if v < lo then lo else hi), satFlag) else (codeInt n v, 0)

/-- An integer ALU operation on one element of n bits. -/
def vaInt (n op : Nat) (o x : Nat) : Nat × BitVec 9 :=
  let a := sextNat n o
  let b := sextNat n x
  match op / 8, op % 8 with
  | 0, m => vInt n (m == 1) (a + b)
  | 1, m => vInt n (m == 1) (a - b)
  | 2, m => vInt n (m == 1) (a * b)
  | _, 0 => (if b < a then x else o, 0)
  | _, 1 => (if a < b then x else o, 0)
  | _, 2 => vInt n false (if b < 0 then -b else b)
  | _, 3 => vInt n false (-b)
  | _, 4 => (truth n (o == x), 0)
  | _, 5 => (truth n (decide (a < b)), 0)
  | _, 6 => (truth n (decide (a ≤ b)), 0)
  | _, _ => (x, 0)

/-- A bit32 ALU operation on one lane. -/
def vaBit (op : Nat) (o x : Lane) : Lane :=
  let k := x.toNat % 32
  match op with
  | 0 => o &&& x
  | 1 => o ||| x
  | 2 => o ^^^ x
  | 3 => o &&& ~~~x
  | 4 => o <<< k
  | 5 => o >>> k
  | 6 => o.sshiftRight k
  | 7 => o.rotateLeft k
  | 8 => BitVec.ofNat 32 ((List.range 32).filter x.getLsbD).length
  | 9 => BitVec.ofNat 32 (if x = 0 then 32 else 31 - Nat.log2 x.toNat)
  | _ => x

/-- R := f(O, T) of va0 and va1 (R188). -/
def vaOp (t op : Nat) (rm : Nat → Rm) (o x : Lanes) : Lanes × BitVec 9 :=
  if t = 6 then ((List.range 64).map fun n => vaBit op (laneAt o n) (laneAt x n), 0)
  else mapSubs t (fun j a b => if vtyFloat t then vaFloat (vtyFmt t) op (rm j) a b else vaInt (vtyBits t) op a b) o x

/-! ### The fused multiply-add unit (R189) -/

/-- One element of vf: the product, negated by nfma and nfms, plus or minus the trigger. -/
def vfEl (t op : Nat) (mode : Rm) (a b x : Nat) : Nat × BitVec 9 :=
  let neg : Bool := op / 8 == 2 || op / 8 == 3
  let sub : Bool := op / 8 == 1 || op / 8 == 3
  if vtyFloat t then
    let f := vtyFmt t
    let u := decodeEl f a
    let v := decodeEl f b
    let c := decodeEl f x
    let p := u.mul v
    if p.isNan && !u.isNan && !v.isNan then (f.nanCode, Fl.invalid.vxst)
    else vFinish f mode [u, v, c] ((if neg then p.negate else p).add mode.down (if sub then c.negate else c))
  else
    let p := sextNat 32 a * sextNat 32 b
    let c := sextNat 32 x
    (codeInt 32 ((if neg then -p else p) + (if sub then -c else c)), 0)

def vfOp (t op : Nat) (rm : Nat → Rm) (a b x : Lanes) : Lanes × BitVec 9 :=
  gatherSubs t ((((vElems t a).zip (vElems t b)).zip (vElems t x)).zipIdx.map fun e =>
    vfEl t op (rm e.2) e.1.1.1 e.1.1.2 e.1.2)

/-! ### The special-function unit (R190) -/

def vsOp (code : Nat) (x : Lanes) : Lanes × BitVec 9 :=
  gatherSubs 0 ((vElems 0 x).map fun v => let r := specialFn code (decodeEl .fp32 v); (r.1, r.2.vxst))

/-! ### The convert and pack unit (R191, R192) -/

/-- The fields of VCC (R191). -/
def vccFmt (v : BitVec 32) : Nat := bitsNat v.toNat 4 0

def vccGeo (v : BitVec 32) : Nat := bitsNat v.toNat 7 5

def vccZp (v : BitVec 32) : Nat := bitsNat v.toNat 15 8

def vccSc (v : BitVec 32) : Nat := bitsNat v.toNat 31 16

/-- The target format of TFMT: 0 INT32, or an FMT code. -/
def vccTarget (v : BitVec 32) : Option Fmt := if vccFmt v = 0 then some .int32 else Fmt.ofCode (vccFmt v)

/-- 64 lanes from a 2,048-bit number. -/
def lanesOfNat (v : Nat) : Lanes := (List.range 64).map fun n => BitVec.ofNat 32 (v / 2 ^ (32 * n))

/-- A convert; none where it faults (R191). -/
def vcConvert (vcc : BitVec 32) (t : Nat) (rm : Nat → Rm) (novf : Bool) (x : Lanes) : Option (Lanes × BitVec 9) :=
  match vccTarget vcc with
  | none => none
  | some f =>
    let es := vElems t x
    if 2048 < es.length * f.bits || (f == .u4 && vccZp vcc / 16 != 0) then none
    else
      let rs := es.zipIdx.map fun e =>
        let v := decodeEl (vtyFmt t) e.1
        let r := if f.isAsym then roundAsym f (rm e.2) (vccSc vcc) (vccZp vcc) v else roundTo f (rm e.2) novf v
        (r.1, r.2.vxst)
      some (lanesOfNat (packCodes f.bits (rs.map (·.1))), orFlags rs)

/-- One block of a pack: its scale code, its element codes, its flags (03_numbers.md R62). -/
def packBlock (f : Fmt) (rm : Nat → Rm) (novf : Bool) (xs : List (Val × Nat)) : Nat × List (Nat × BitVec 9) :=
  let sc := packScale f (xs.map (·.1))
  (sc, xs.map fun e =>
    if sc = 0xFF then (0, (Fl.nvIf e.1.isSig).vxst)
    else
      let k : Int := (sc : Int) - 127 - (if f = .int8 then 6 else 0)
      let r := roundTo f (rm e.2) novf (e.1.scale (-k))
      (r.1, r.2.vxst))

/-- The list cut into blocks of n. -/
def blocksOf {α : Type} (n : Nat) : (fuel : Nat) → List α → List (List α)
  | 0, _ => []
  | fuel + 1, l => if l.isEmpty then [] else l.take n :: blocksOf n fuel (l.drop n)

/-- A pack; none where it faults (R192). -/
def vcPackOp (vcc : BitVec 32) (t : Nat) (rm : Nat → Rm) (novf : Bool) (x : Lanes) : Option (Lanes × BitVec 9) :=
  let geo := vccGeo vcc
  if !vtyFloat t || !(geo == 1 || geo == 2) || !(decide (4 ≤ vccFmt vcc) && decide (vccFmt vcc ≤ 9)) then none
  else
    match vccTarget vcc with
    | none => none
    | some f =>
      let xs := (vElems t x).zipIdx.map fun e => (decodeEl (vtyFmt t) e.1, e.2)
      let bs := (blocksOf (geoBlock geo) xs.length xs).map (packBlock f rm novf)
      let rs := bs.flatMap (·.2)
      some (lanesOfNat (packCodes f.bits (rs.map (·.1)) + 2 ^ (192 * 8) * packCodes 8 (bs.map (·.1))), orFlags rs)

/-! ### Lane reduction (R199) -/

/-- The elements at sub-lane position h. -/
def column (t : Nat) (x : Lanes) (h : Nat) : List Nat := (List.range 64).map fun n => subLane t (laneAt x n) h

/-- The exact sum of a column, rounded once or saturated (DEDUCED, log 93). -/
def lrdSumCol (t : Nat) (mode : Rm) (xs : List Nat) : Nat × BitVec 9 :=
  if vtyFloat t then
    let f := vtyFmt t
    let vs := xs.map (decodeEl f)
    let pair : Bool := vs.contains (.inf false) && vs.contains (.inf true)
    if vs.any Val.isNan || pair then (f.nanCode, (Fl.nvIf (pair || vs.any Val.isSig)).vxst)
    else
      match vs with
      | [] => (0, 0)
      | v :: r => vFinish f mode vs (r.foldl (Val.add mode.down) v)
  else vInt (vtyBits t) true ((xs.map (sextNat (vtyBits t))).foldl (· + ·) 0)

/-- The maximum (op 0x19 of va) or minimum (0x18) of a column. -/
def lrdSelCol (t op : Nat) (xs : List Nat) : Nat × BitVec 9 :=
  match xs with
  | [] => (0, 0)
  | x :: r =>
    r.foldl (fun a b =>
      let q := if vtyFloat t then vaFloat (vtyFmt t) op .rne a.1 b else vaInt (vtyBits t) op a.1 b
      (q.1, a.2 ||| q.2)) (x, 0)

/-- The reduction named by op: sum, max or min, in every lane. -/
def lrdOp (t op : Nat) (mode : Rm) (x : Lanes) : Lanes × BitVec 9 :=
  let cols := (List.range (vtySubs t)).map fun h =>
    match op / 8 with
    | 0 => lrdSumCol t mode (column t x h)
    | 1 => lrdSelCol t 0x19 (column t x h)
    | _ => lrdSelCol t 0x18 (column t x h)
  (List.replicate 64 (ofSubs t (cols.map (·.1))), orFlags cols)

end Sys2Proof.Machine
end

