-- ==== Sys2Proof/Machine/Vector.lean ====
section
/-! DEFINITION. The vector engine VX (09_vector_isa.md R178 to R202; 07_encoding.md R126 to R129): ports, bundles, VX
cycles, and the units that reach memory. A move joins the open bundle; the move that ends a bundle executes it in one
VX cycle. -/
namespace Sys2Proof.Machine

/-! ### Ports (R182, R183) -/

def Vx.port (v : Vx) (n : Nat) : Lanes := Tbl.get zeroLanes v.ports n

def Vx.setPort (v : Vx) (n : Nat) (x : Lanes) : Vx := { v with ports := Tbl.put zeroLanes v.ports n x }

def Vx.raise (v : Vx) (fl : BitVec 9) : Vx := { v with vxst := v.vxst ||| fl }

def Vx.tile (v : Vx) (t : Nat) : MTile := Tbl.get MTile.reset v.tiles t

/-- Flags of VXST that VX itself raises (R187). -/
def rfwake : BitVec 9 := 0x40#9
def swovf : BitVec 9 := 0x80#9
def swund : BitVec 9 := 0x100#9

/-- The key of M-file lane j under a direction and an index value: row, column, diagonal or scalar (R182). -/
def mKey (dir ix j : Nat) : Nat :=
  match dir with
  | 0 => 64 * (ix % 64) + j
  | 1 => 64 * j + ix % 64
  | 2 => 64 * ((j + ix) % 64) + j
  | _ => 64 * (ix % 64) + ix / 64 % 64

/-- Lane j of an M-file read. -/
def MTile.readLane (t : MTile) (dir ix j : Nat) : Lane := Tbl.get 0 t.lanes (mKey dir ix j)

/-- A write of an M-file tile: 64 lanes, or lane 0 to one element (R182, R183). -/
def MTile.writeLanes (t : MTile) (dir ix : Nat) (v : Lanes) : MTile :=
  let n := if dir = 3 then 1 else 64
  { t with
    lanes := (List.range n).foldl (fun l j => Tbl.put 0 l (mKey dir ix j) (laneAt v j)) t.lanes
    valid := true
    dirty := true }

/-- A predicate as lanes, and lanes as a predicate. -/
def predLanes (p : BitVec 64) : Lanes := (List.range 64).map fun j => if p.getLsbD j then 0xFFFFFFFF#32 else 0

def lanesPred (v : Lanes) : BitVec 64 :=
  (List.range 64).foldl (fun b j => if laneAt v j ≠ 0 then b ||| BitVec.ofNat 64 (2 ^ j) else b) 0

/-- Every lane v. -/
def splat (v : Lane) : Lanes := List.replicate 64 v

/-! ### The run and its moves (R185) -/

/-- A run that executes: its entry and its position. -/
structure VxAt where
  e : Entry
  r : VxRun
  deriving DecidableEq, Repr

def VxAt.rec? (a : VxAt) : Option RunRec :=
  match a.e.cmd with
  | .vxRun _ _ r => some r
  | _ => none

/-- A move executes when its stage is on; code 15 is always (R126, R185). -/
def VxRun.enables (r : VxRun) (m : Move) : Bool := m.stage == 15 || r.st.getLsbD m.stage

/-- The iteration counter a move sees. -/
def VxRun.iter (r : VxRun) (m : Move) : Nat := if m.stage = 15 then r.k else r.k - m.stage

/-- The index value of a move (R126). -/
def VxRun.index (r : VxRun) (v : Vx) (m : Move) : Nat :=
  if m.idx < 8 then (Tbl.get 0 v.ix m.idx).toNat
  else if m.idx = 8 then r.iter m % 2 ^ 32
  else [0, 1, 2, 4, 8, 16, 32].getD (m.idx - 9) 0

/-- The oldest 64 lanes of the switch queue, filled up with zeros, and the unit after the pop (R198). -/
def Vx.pop (v : Vx) : Lanes × Vx :=
  let out := v.q.take 64
  let v' := { v with q := v.q.drop 64 }
  (out ++ List.replicate (64 - out.length) 0, if v.q.length < 64 then v'.raise swund else v')

/-- The value of a source port (R182, R200). `popped` is what a read of sw.q yields in this cycle. -/
def Ctx.source (x : Ctx) (a : VxAt) (popped : Lanes) (m : Move) : Lanes :=
  let v := x.vx
  let ix := a.r.index v m
  let p := m.src
  if p < 8 then
    if v.awake p then (List.range 64).map fun j => (v.tile p).readLane m.dir ix j else zeroLanes
  else if p = 29 then popped
  else if p < 32 then v.port p
  else if p < 40 then splat (Tbl.get 0 v.ix (p - 32))
  else if p < 48 then predLanes (Tbl.get 0 v.preds (p - 40))
  else if p = 48 then splat (m.imm.signExtend 32)
  else if p = 49 then splat (BitVec.ofNat 32 ((a.rec?.map (fun r => r.args.getD (ix % 4) 0)).getD 0))
  else if p = 51 then
    let t := x.acc (ix / 64 % 8)
    (List.range 64).map fun j => BitVec.ofNat 32 (resolveElem t.anchor .fp32 .rne false (t.el (ix % 64) j)).1
  else zeroLanes

/-- The tile a move of the cycle waits for, as a flag number, with its setter (R183, R200, 05_local_memory.md R92). -/
def Ctx.vxHeld (x : Ctx) (a : VxAt) (m : Move) : Option (Nat × Nat) :=
  let v := x.vx
  let mfile := fun (p : Nat) (read : Bool) =>
    if p < 8 ∧ v.awake p then
      let t := v.tile p
      match t.inflight with
      | some .vx => if read && !t.valid then some (8 + p, 15) else none
      | some g => some (8 + p, g.code)
      | none => if read && !t.valid then some (8 + p, 15) else none
    else none
  match mfile m.src true, mfile m.dst false with
  | some w, _ => some w
  | _, some w => some w
  | _, _ =>
    if m.src = 51 then
      let n := a.r.index v m / 64 % 8
      let t := x.acc n
      match t.inflight with
      | some g => some (n, g.code)
      | none => if t.valid then none else some (n, 15)
    else none

/-! ### Triggers -/

/-- What starting an operation answers: the unit's new state, with a ring slot taken and returned; a fault; or a wait for
a ring. -/
inductive Fired where
  | ok (v : Vx) (ring : Option (Nat × Bool × Bool))
  | fault (f : EFault)
  | frozen (ring : Nat)

/-- A result joins the operations in flight, due in n VX cycles (R180). -/
def Vx.due (v : Vx) (n port : Nat) (r : Lanes × BitVec 9) : Vx :=
  { v with flight := v.flight ++ [{ left := n, what := .result port r.1 r.2 }] }

/-- The type of an operation byte, and its operation (R186). -/
def Move.ty (m : Move) : Nat := m.op.toNat / 32

def Move.code (m : Move) : Nat := m.op.toNat % 32

/-- The rounding-mode field of a move: op[4:2] at vc, op[2:0] elsewhere. -/
def Move.rm (m : Move) : BitVec 3 := if m.dst = 20 then m.op.extractLsb' 2 3 else m.op.extractLsb' 0 3

/-- Whether a trigger rounds with dither (03_numbers.md R57). -/
def Move.dithers (m : Move) : Bool :=
  let fl := vtyFloat m.ty
  m.rm == 4 && (
    ((m.dst == 9 || m.dst == 12) && fl && decide (m.code < 24)) || (m.dst == 16 && fl) || (m.dst == 20 && m.ty != 6) ||
    (m.dst == 30 && fl && decide (m.code < 8)))

/-- The write window's or either window's bytes of a run cover [a, a + n); otherwise the first byte outside (R194, R197). -/
def RunRec.outside (r : RunRec) (write : Bool) (a n : Nat) : Option Nat :=
  let wins := [(r.wrBase, r.wrBase + r.wrLen)] ++ (if write then [] else [(r.rdBase, r.rdBase + r.rdLen)])
  ((wins.foldl minusRegion (if n = 0 then [] else [(a, a + n)])).head?).map (·.1)

/-- A window check of ranges. -/
def VxAt.windowed (a : VxAt) (write : Bool) (ranges : List (Nat × Nat)) (k : Fired) : Fired :=
  match a.rec? with
  | none => .fault (windowFault (if write then 1 else 0) 0)
  | some r =>
    match ranges.findSome? (fun p => r.outside write p.1 p.2) with
    | some o => .fault (windowFault (if write then 1 else 0) o)
    | none => k

/-! ### Loads (R194 to R196) -/

/-- How a load forms an element from a granule tag (R195). -/
inductive LoadForm where
  | bytes
  | decode (f : Fmt) (geo : Nat)
  | fault
  deriving DecidableEq, Repr

/-- The table of R195. -/
def vxLoadForm (ty tag : Nat) : LoadForm :=
  let fmt := tagFmt tag
  let geo := tagGeo tag
  if !tagAllowed fmt geo then .fault
  else if ty = 6 then .bytes
  else
    match Fmt.ofCode fmt with
    | none => if ty = 3 ∧ fmt = 0 then .bytes else .fault
    | some f =>
      if ty ≤ 2 then .decode f geo
      else if (fmt = 9 ∧ geo = 0) ∨ fmt = 10 then .decode f geo
      else .fault

/-- A delivered element and its flags. -/
def deliver (ty : Nat) (v : Val) : Nat × BitVec 9 := let r := roundTo (vtyFmt ty) .rne false v; (r.1, r.2.vxst)

/-- A request of consecutive elements from one address: the elements delivered, or a fault. -/
inductive Loaded where
  | ok (es : List (Nat × BitVec 9)) (ranges : List (Nat × Nat))
  | fault (sub : FaultSub) (addr : Nat)

/-- Reads n elements of a lane type from A-space offset a of the own buffer; `unit` is the multiple an element number must
be (R194, R195). `tagAt` and `get` give the tag and the byte at an offset. A byte load that begins in a granule of bytes and
runs into one that is decoded meets the format fault there (DESIGN CHOICE, log 140). -/
def loadElems (tagAt : Nat → Nat) (get : Nat → Byte) (ty n : Nat) (unit : Nat → Nat) (a : Nat) : Loaded :=
  match vxLoadForm ty (tagAt a) with
  | .fault => .fault .format a
  | .bytes =>
    let k := n * vtyBits ty / 8
    if a % 4 ≠ 0 then .fault .misaligned a
    else
      match (List.range (k / 4)).find? (fun i => vxLoadForm ty (tagAt (a + 4 * i)) != .bytes) with
      | some i => .fault .format (a + 4 * i)
      | none => .ok ((List.range (k / 4)).map fun i =>
          (leNat ((List.range 4).map fun b => get (a + 4 * i + b)), 0)) [(a, k)]
  | .decode f geo =>
    let o := a % 4096
    let base := a - o
    let u := unit f.bits
    let ub := u * f.bits / 8
    let first := o / ub * u
    if o % ub ≠ 0 then .fault .misaligned a
    else if granuleElems f geo < first + n then .fault .format a
    else
      .ok ((List.range n).map fun i => deliver ty (granuleVal (fun b => get (base + b)) f geo (first + i)))
        ((granuleRanges f geo first n).map fun r => (base + r.1, r.2))

/-- Element numbers of a vec load are multiples of 8; those of a gather of 2 or 4 for the packed formats (R194). -/
def vecUnit (_ : Nat) : Nat := 8

def laneUnit (bits : Nat) : Nat := if bits = 4 then 2 else if bits = 6 then 4 else 1

/-- Tag and byte readers of the own ABUF. -/
def State.aTag (s : State) (c o : Nat) : Nat := s.tagOf (.abuf c (4096 * (s.core c).b.aBase + o))

def State.aByte (s : State) (c o : Nat) : Byte := ((s.core c).buf false).read (4096 * (s.core c).b.aBase + o)

/-- The SRAM of n bytes at an offset of the own ABUF. -/
def State.aSram (s : State) (o n : Nat) : List Sram := (Place.abuf s.cur (4096 * s.me.b.aBase + o)).sram false n

/-- A load whose bytes hold no uncorrectable error; otherwise the uncorrectable-data fault (20_translation_faults.md R318). -/
def State.sound (s : State) (ranges : List (Nat × Nat)) (k : Fired) : Fired :=
  match ranges.find? fun r => s.bad.any (s.aSram r.1 r.2).contains with
  | some r => .fault { sub := .uncorrectable, acc := 0, addr := some r.1 }
  | none => k

/-- The error of a load that faults so is logged. -/
def State.loadErrors (s : State) (f : EFault) : State :=
  if f.sub = .uncorrectable then (s.sramErrors (.core s.cur .vx) s.me.b.part.toNat (s.aSram f.offset 1)).1 else s

/-- A load of consecutive elements under the run's windows, delivered in lanes (R194). Of several faults the first byte's
window comes first, then the element's format, alignment and area, then the window of all its bytes (DESIGN CHOICE, log 121). -/
def State.loadVec (s : State) (a : VxAt) (v : Vx) (ty at' : Nat) : Fired :=
  a.windowed false [(at', 1)] (
    match loadElems (s.aTag s.cur) (s.aByte s.cur) ty (64 * vtySubs ty) vecUnit at' with
    | .fault sub o => .fault { sub := sub, acc := 0, addr := some o }
    | .ok es ranges => a.windowed false ranges (s.sound ranges (.ok (v.due 6 24 (gatherSubs ty es)) none)))

/-- Loads of one lane's elements from each address (R194). -/
def State.loadLanes (s : State) (a : VxAt) (v : Vx) (ty : Nat) (addrs : List Nat) : Except EFault (List (Nat × BitVec 9)) :=
  addrs.foldl (fun acc at' =>
    match acc with
    | .error f => .error f
    | .ok es =>
      match a.windowed false [(at', 1)] (.ok v none) with
      | .fault f => .error f
      | _ =>
        match loadElems (s.aTag s.cur) (s.aByte s.cur) ty (vtySubs ty) laneUnit at' with
        | .fault sub o => .error { sub := sub, acc := 0, addr := some o }
        | .ok es' ranges =>
          match a.windowed false ranges (s.sound ranges (.ok v none)) with
          | .fault f => .error f
          | _ => .ok (es ++ es')) (.ok [])

/-- A 32-bit address sum. -/
def addr32 (o x : Lane) : Nat := (o + x).toNat

/-- A ring load (R196): the slot VX holds, or slot TAIL, which it then takes. -/
def State.loadRing (s : State) (v : Vx) (ty n off : Nat) : Fired :=
  let r := s.my.ring n
  if !r.configured then .fault { sub := .ring, acc := 0, addr := none }
  else if r.inW then .fault (windowFault 0 (r.base + off))
  else if r.heldVx.isNone && r.filled == 0 then .frozen n
  else
    let base := r.slotOff (r.heldVx.getD r.tail)
    let a := base + off
    if r.slotB ≤ off then .fault (windowFault 0 a)
    else
      match loadElems (s.aTag s.cur) (s.aByte s.cur) ty (64 * vtySubs ty) vecUnit a with
      | .fault sub o => .fault { sub := sub, acc := 0, addr := some o }
      | .ok es ranges =>
        match ranges.findSome? (fun p => firstOut base (base + r.slotB) p.1 p.2) with
        | some o => .fault (windowFault 0 o)
        | none =>
          s.sound ranges (.ok (v.due 6 24 (gatherSubs ty es))
            (some (n, r.heldVx.isNone, ranges.any fun p => decide (base + r.slotB ≤ p.1 + p.2))))

/-- The load unit (R194 to R196). -/
def State.fireLd (s : State) (a : VxAt) (v : Vx) (m : Move) (t : Lanes) : Fired :=
  let o := v.port 22
  let ty := m.ty
  let at0 := addr32 (laneAt o 0) (laneAt t 0)
  match m.code with
  | 0 => s.loadVec a v ty at0
  | 1 =>
    match s.loadLanes a v ty ((List.range 64).map fun j => addr32 (laneAt o j) (laneAt t j)) with
    | .error f => .fault f
    | .ok es => .ok (v.due 6 24 (gatherSubs ty es)) none
  | 2 =>
    match s.loadLanes a v ty [at0] with
    | .error f => .fault f
    | .ok es =>
      let r := gatherSubs ty es
      .ok (v.due 6 24 (splat (laneAt r.1 0), r.2)) none
  | 3 => s.loadRing v ty ((laneAt o 0).toNat % 8) (laneAt t 0).toNat
  | _ =>
    a.windowed false [(at0, 1)] (
      if at0 % 4 ≠ 0 then .fault { sub := .misaligned, acc := 0, addr := some at0 }
      else
        a.windowed false [(at0, 256)] (
          let lanes := (List.range 64).map fun i =>
            BitVec.ofNat 32 (leNat ((List.range 4).map fun b => s.aByte s.cur (at0 + 4 * i + b)))
          s.sound [(at0, 256)] (.ok (v.due 6 24 (lanes, 0)) none)))

/-! ### Stores and the switch (R197, R198) -/

/-- The little-endian bytes of lanes from an offset on. -/
def laneCells (a : Nat) (v : List Lane) : Memory := cellsAt a (v.flatMap fun x => leBytes 4 x.toNat)

/-- The store unit (R197). A store that is misaligned and outside its window raises the misalignment (DESIGN CHOICE, log 121). -/
def fireSt (a : VxAt) (v : Vx) (m : Move) (t : Lanes) : Fired :=
  let o := v.port 25
  let parts : List (Nat × List Lane) := match m.code with
    | 0 => [((laneAt o 0).toNat, (List.range 64).map (laneAt t))]
    | 1 => (List.range 64).map fun j => ((laneAt o j).toNat, [laneAt t j])
    | _ => [((laneAt o 0).toNat, [laneAt t 0])]
  match parts.find? (fun p => p.1 % 4 != 0) with
  | some p => .fault { sub := .misaligned, acc := 1, addr := some p.1 }
  | none =>
    a.windowed true (parts.map fun p => (p.1, 4 * p.2.length)) (
      .ok { v with flight := v.flight ++ [{ left := 2, what := .store (parts.flatMap fun p => laneCells p.1 p.2) }] } none)

/-- The stream switch (R198). -/
def fireSw (v : Vx) (m : Move) (t : Lanes) : Vx :=
  let cond := v.port 27
  let pick := fun (want : Bool) =>
    Landing.append (((List.range 64).filter fun j => (laneAt cond j != 0) == want).map (laneAt t))
  let what := match m.code with
    | 0 => pick true
    | 1 => pick false
    | _ => Landing.drain
  { v with flight := v.flight ++ [{ left := 5, what := what }] }

/-- The convert and pack unit (R191 to R193). -/
def fireVc (v : Vx) (rm : Nat → Rm) (m : Move) (t : Lanes) : Fired :=
  let put := fun (v : Vx) (r : Lanes × BitVec 9) => Fired.ok (v.due 3 21 r) none
  if m.ty = 6 then
    if m.code = 0 then
      put { v with vcc := laneAt t 0, vxst := (laneAt t 1).setWidth 9 }
        ([v.vcc, v.vxst.setWidth 32] ++ List.replicate 62 0, 0)
    else put { v with phase := (laneAt t 0).setWidth 3 } ([v.phase.setWidth 32] ++ List.replicate 63 0, 0)
  else
    let novf := m.op.getLsbD 1
    match if m.op.getLsbD 0 then vcPackOp v.vcc m.ty rm novf t else vcConvert v.vcc m.ty rm novf t with
    | some r => put v r
    | none => .fault { sub := .format, acc := 0, addr := none }

/-- A trigger move starts its unit's operation on the operand registers of `v`; `ph` is the dither phase from before the
cycle (R178, R180, R186). -/
def State.fire (s : State) (a : VxAt) (ph : Nat) (v : Vx) (m : Move) (t : Lanes) : Fired :=
  let rm := fun (j : Nat) => Rm.ofField m.rm j ph
  match m.dst with
  | 9 => .ok (v.due 2 10 (vaOp m.ty m.code rm (v.port 8) t)) none
  | 12 => .ok (v.due 2 13 (vaOp m.ty m.code rm (v.port 11) t)) none
  | 16 => .ok (v.due 4 17 (vfOp m.ty m.code rm (v.port 14) (v.port 15) t)) none
  | 18 => .ok (v.due 12 19 (vsOp m.code t)) none
  | 20 => fireVc v rm m t
  | 23 => s.fireLd a v m t
  | 26 => fireSt a v m t
  | 28 => .ok (fireSw v m t) none
  | _ => .ok (v.due 8 31 (lrdOp m.ty m.code (rm 0) t)) none

/-- The metering event of a trigger (17_energy.md R288). -/
def triggerEvent (dst : Nat) : Nat :=
  match dst with
  | 16 => 21
  | 18 => 22
  | 30 => 23
  | _ => 20

def isTrigger (p : Nat) : Bool := [9, 12, 16, 18, 20, 23, 26, 28, 30].contains p

/-! ### A VX cycle (R178, R180, R181) -/

/-- An operation that is due takes effect (DEDUCED, log 38). -/
def State.landOne (s : State) (c : Nat) (what : Landing) : State :=
  match what with
  | .result p v fl => s.modCtx c fun x => { x with vx := (x.vx.setPort p v).raise fl }
  | .append l => s.modCtx c fun x =>
      let q := x.vx.q ++ l
      let v := { x.vx with q := q.take 256 }
      { x with vx := if 256 < q.length then v.raise swovf else v }
  | .drain => s.modCtx c fun x =>
      { x with vx := { x.vx with q := x.vx.q ++ List.replicate ((64 - x.vx.q.length % 64) % 64) 0 } }
  | .store cells =>
    let base := 4096 * (s.core c).b.aBase
    let whole := ((cells.map fun e => (base + e.1) / 64).eraseDups.filter fun u =>
      (List.range 64).all fun i => cells.any fun e => base + e.1 == 64 * u + i).map (Sram.abuf c)
    (s.mend whole).modCore c fun k =>
      k.setBuf false ((k.buf false).writeAll (cells.map fun e => (4096 * k.b.aBase + e.1, e.2)))

/-- A VX cycle ends: operations in flight and waking clusters advance, and what is due at the next cycle lands (R180,
R184). -/
def State.vxAdvance (s : State) (c : Nat) : State :=
  let fl := (s.ctx c).vx.flight.map fun f => { f with left := f.left - 1 }
  let s := s.modCtx c fun x => { x with vx := { x.vx with
    flight := fl.filter fun f => f.left != 0
    waking := (x.vx.waking.map fun w => (w.1, w.2 - 1)).filter fun w => w.2 != 0 } }
  (fl.filter fun f => f.left == 0).foldl (fun s f => s.landOne c f.what) s

/-- VX stops at the bundle whose first word its position names; no move of it is performed (R202). -/
def State.vxFault (s : State) (a : VxAt) (f : EFault) : Res :=
  let s := s.upd fun x => { x with vx := { x.vx with run := some { a.r with pos := a.r.first, bundle := [] } } }
  .next (s.engineFault s.cur .vx a.e f (streamProgress a.r.k 0 (a.r.first + 2)))

/-- A bundle's encoding faults (R128, R179, R126), found when its last word is there: a word of it that is illegal or names a
reserved port is reported before them (DESIGN CHOICE, log 138). -/
def bundleBad (stages : Nat) (b : List Move) : Bool :=
  let dsts := (b.map (·.dst)).filter (· ≠ 63)
  decide (4 < b.length) || dsts.eraseDups.length != dsts.length ||
  decide (3 < (b.filter fun m => decide (m.src < 8)).length) || decide (2 < (dsts.filter (· < 8)).length) ||
  b.any fun m => m.stage != 15 && decide (stages < m.stage)

/-- A move writes a port that is no trigger (R178, R182, R184). -/
def Vx.write (v : Vx) (r : VxRun) (m : Move) (x : Lanes) : Vx :=
  if m.dst < 8 then
    if v.awake m.dst then
      { v with tiles := Tbl.put MTile.reset v.tiles m.dst ((v.tile m.dst).writeLanes m.dir (r.index v m) x) }
    else v.raise rfwake
  else if 32 ≤ m.dst ∧ m.dst < 40 then { v with ix := Tbl.put 0 v.ix (m.dst - 32) (laneAt x 0) }
  else if 40 ≤ m.dst ∧ m.dst < 48 then { v with preds := Tbl.put 0 v.preds (m.dst - 40) (lanesPred x) }
  else if m.dst = 63 then v
  else v.setPort m.dst x

/-- Operand, address and condition registers. -/
def isOperand (p : Nat) : Bool := decide (8 ≤ p) && decide (p < 32) && !isTrigger p

/-- Starts the triggers in the order of their moves in the bundle; the first fault or empty ring ends it (DESIGN CHOICE, log 57). -/
def State.fireAll (s : State) (a : VxAt) (ph : Nat) : List (Move × Lanes) → Vx → Option (Nat × Bool × Bool) → Fired
  | [], v, ring => .ok v ring
  | (m, t) :: l, v, ring =>
    match s.fire a ph v m t with
    | .ok v' r => s.fireAll a ph l v' (if r.isSome then r else ring)
    | o => o

/-- The ring a load of the cycle took or returned (R196). -/
def State.ringUse (s : State) (u : Option (Nat × Bool × Bool)) : State :=
  match u with
  | none => s
  | some (n, take, give) =>
    let s := if take then s.upd fun x =>
        let r := x.ring n
        x.setRing n { r.take with heldVx := some r.tail }
      else s
    if give then s.ringReturn s.cur n .vx else s

/-- The run after its bundle: the next bundle, the next iteration with its stage window, or its end (R185). -/
def VxRun.advance (r : VxRun) : Option VxRun :=
  if r.pos < r.length then some { r with first := r.pos, bundle := [] }
  else if r.k + 1 < r.n then
    let st := if r.rot then r.st <<< 1 ||| (if r.k + 1 < r.count then 1 else 0) else 1
    some { r with pos := 0, first := 0, bundle := [], k := r.k + 1, st := st,
                  hws := if refetches false r.length then [] else r.hws }
  else none

/-- The cycle's end for the run: it goes on, or its entry is complete. -/
def State.vxNext (s : State) (a : VxAt) : State :=
  let next := a.r.advance
  s.upd fun x =>
    let y := if next.isNone then x.modEntry .vx a.e.id fun y => { y with complete := true } else x
    { y with vx := { y.vx with run := next } }

/-- The values the moves of a cycle read, all from before it (R178). -/
def Ctx.values (x : Ctx) (a : VxAt) (on : List Move) : List (Move × Lanes) :=
  on.map fun m => (m, x.source a x.vx.pop.1 m)

/-- The unit as the triggers find it: the switch queue popped, RFWAKE raised for a read of a file that is not awake, and the
operand registers written (R178, R182, R184, R198). -/
def Ctx.before (x : Ctx) (a : VxAt) (on : List Move) : Vx :=
  let v := if on.any fun m => m.src == 29 then x.vx.pop.2 else x.vx
  let v := if on.any fun m => decide (m.src < 8) && !x.vx.awake m.src then v.raise rfwake else v
  ((x.values a on).filter fun p => isOperand p.1.dst).foldl (fun v p => v.write a.r p.1 p.2) v

/-- The writes a cycle makes beside its operands and triggers. M-file rows are named by the index values from before the
bundle, so index registers are written last. -/
def Vx.after (v : Vx) (r : VxRun) (vals : List (Move × Lanes)) : Vx :=
  let late := vals.filter fun p => !isOperand p.1.dst && !isTrigger p.1.dst
  let toIx := fun (p : Move × Lanes) => decide (32 ≤ p.1.dst) && decide (p.1.dst < 40)
  let v := (late.filter fun p => !toIx p).foldl (fun w p => w.write r p.1 p.2) v
  (late.filter toIx).foldl (fun w p => w.write r p.1 p.2) v

/-- The dither phase after a cycle: one more where a dithering trigger was at the last of 64 rows (03_numbers.md R57; DEDUCED, log 95). -/
def Vx.dithered (v w : Vx) (r : VxRun) (on : List Move) : Vx :=
  if on.any fun m => isTrigger m.dst && m.dithers && r.index w m % 64 == 63 then { v with phase := v.phase + 1 } else v

/-- The cycle's end: the unit's new state, the ring it used, its metering, and the next position of the run (R178, R180,
17_energy.md R288). `trig` names the trigger ports, `tiles` the M-file tiles written, which are in flight for VX until the
run retires (05_local_memory.md R92). -/
def State.vxEnd (s : State) (a : VxAt) (v : Vx) (ring : Option (Nat × Bool × Bool)) (trig tiles : List Nat) : State :=
  let c := s.cur
  let n := s.my.vx.inUse
  let s := ((s.upd fun x => { x with vx := v }).upd fun x => x.flyTiles .vx a.e.id (tiles.map (8 + ·))).ringUse ring
  let s := (s.meter c 17 1).meter c 18 n
  let s := trig.foldl (fun s d => s.meter c (triggerEvent d) 1) s
  ((s.vxNext a).vxAdvance c).endWait c .vx

/-- The enabled moves of a bundle, none of which waits for a tile, execute in one VX cycle. -/
def State.vxMoves (s : State) (a : VxAt) (on : List Move) : Res :=
  let x := s.my
  let vals := x.values a on
  let trig := vals.filter fun p => isTrigger p.1.dst
  match s.fireAll a x.vx.phase.toNat trig (x.before a on) none with
  | .fault f => (s.loadErrors f).vxFault a f
  | .frozen n => .next (s.noteRing s.cur .vx n)
  | .ok v ring => .next (s.vxEnd a ((v.after a.r vals).dithered x.vx a.r on) ring (trig.map (·.1.dst))
      ((on.map (·.dst)).filter fun p => decide (p < 8) && x.vx.awake p))

/-- The tiles of core c that a move reads. -/
def VxAt.tilesRead (a : VxAt) (c : Nat) (v : Vx) (m : Move) : List Sram :=
  if m.src < 8 then [.mfile c m.src] else if m.src = 51 then [.acc c (a.r.index v m / 64 % 8)] else []

/-- The complete bundle of a run executes in one VX cycle (R178). -/
def State.vxCycle (s : State) (a : VxAt) : Res :=
  if bundleBad a.r.stages a.r.bundle then
    s.vxFault a { sub := .illegalWord, acc := 2, addr := none }
  else
    match (a.r.bundle.filter a.r.enables).findSome? (s.my.vxHeld a) with
    | some w => .next (s.noteWait s.cur .vx 4 (BitVec.ofNat 32 w.1) w.2 s.cur)
    | none =>
      let on := a.r.bundle.filter a.r.enables
      let e := s.sramErrors (.core s.cur .vx) s.me.b.part.toNat (on.flatMap (a.tilesRead s.cur s.my.vx))
      if e.2 then e.1.vxFault a { sub := .uncorrectable, acc := 0, addr := none } else s.vxMoves a on

/-- Runs k on the run in progress. -/
def State.withVx (s : State) (k : VxAt → Res) : Res :=
  if !s.me.enginesRun || s.my.stopped .vx then .next s
  else
    match s.my.vx.run with
    | none => .next s
    | some r =>
      match s.my.entry? .vx r.entry with
      | some e => k { e := e, r := r }
      | none => .next s

/-- A move of `halves` halfwords, and its immediate, joins the open bundle; E = 1 ends and executes it (R126, R178). -/
def State.vxMove (s : State) (halves : Nat) (e : BitVec 1) (d sr : BitVec 6) (dir : BitVec 2) (g i : BitVec 4)
    (op : BitVec 8) : Res :=
  s.withVx fun a =>
    let r := a.r
    let isImm : Bool := sr == 48
    let m : Move := { dst := d.toNat, src := sr.toNat, dir := dir.toNat, idx := i.toNat, op := op, stage := g.toNat,
                      imm := if isImm then r.hws.getD (r.pos + halves) 0 else 0 }
    let r' := { r with pos := r.pos + halves + (if isImm then 1 else 0), bundle := r.bundle ++ [m] }
    if e = 1 then s.vxCycle { a with r := r' }
    else if 4 ≤ r'.bundle.length then
      s.vxFault a { sub := .illegalWord, acc := 2, addr := none }
    else .next (s.upd fun x => { x with vx := { x.vx with run := some r' } })

/-- A word that decodes to nothing (R128, R129). -/
def State.vxBad (s : State) (sub : FaultSub) : Res :=
  s.withVx fun a => s.vxFault a { sub := sub, acc := 2, addr := none }

/-! ### Register-file clusters (R184) -/

/-- Clusters 0 to n - 1 are in use; those that enter use wake for 24 cycles, this one included. -/
def Vx.setClusters (v : Vx) (n : Nat) : Vx :=
  let enter := (List.range 4).filter fun q => decide (v.inUse ≤ q) && decide (q < n)
  { v with inUse := n, waking := enter.foldl (fun w q => Tbl.set w q 24) (v.waking.filter fun w => decide (w.1 < n)) }

/-- The control word's own cycle. -/
def State.rfclCycle (s : State) (n : Nat) : State :=
  let c := s.cur
  let used := s.my.vx.inUse
  ((s.upd fun x => { x with vx := x.vx.setClusters n }).meter c 17 1).meter c 18 used

/-- VX_RFCL (R184, 07_encoding.md R129): the control word stands alone in its bundle. -/
def execVxRfcl (_ : BitVec 2) (g _ : BitVec 4) (n : BitVec 3) (s : State) : Res :=
  s.withVx fun a =>
    let r := a.r
    let m : Move := { dst := 63, src := 50, dir := 0, idx := 0, op := 0, stage := g.toNat, imm := 0 }
    if !r.bundle.isEmpty || bundleBad r.stages [m] then
      s.vxFault a { sub := .illegalWord, acc := 2, addr := none }
    else
      let on := r.enables m
      let s := if on then s.rfclCycle n.toNat else (s.meter s.cur 17 1).meter s.cur 18 s.my.vx.inUse
      .next (((s.vxNext { a with r := { r with pos := r.pos + 2 } }).vxAdvance s.cur).endWait s.cur .vx)

/-- An entry of `sk.rfcl` is a one-bundle run (R184). -/
def State.vxRfclStart (s : State) : Res :=
  s.startEntry .vx (fun c => match c with | .vxRfcl _ => true | _ => false) fun s e =>
    match e.cmd with
    | .vxRfcl n =>
      .next (((s.rfclCycle n).upd fun x => x.modEntry .vx e.id fun y =>
        { y with started := true, complete := true }).vxAdvance s.cur)
    | _ => .next s

/-! ### Runs and idle cycles (R181, R185) -/

/-- VX_RUN_START (R185). -/
def execVxRunStart (s : State) : Res :=
  if s.my.vx.run.isSome || !s.my.vx.flight.isEmpty then .next s
  else
    s.startEntry .vx (fun c => match c with | .vxRun _ _ _ => true | _ => false) fun s e =>
      match e.cmd with
      | .vxRun code _ r =>
        s.startRun s.cur .vx e code r fun s body hdr count =>
          let n := if hdr.rot then count + hdr.stages else count
          let run : VxRun :=
            { entry := e.id, hws := body, code := code, length := hdr.length, count := count, n := n,
              stages := hdr.stages, rot := hdr.rot, k := 0, pos := 0, first := 0, st := 1, bundle := [] }
          s.upd fun x => { x with vx := { x.vx with run := some run } }
      | _ => .next s

/-- An ec between runs is a VX cycle (R181). -/
def State.vxIdle (s : State) : Res :=
  if !s.me.enginesRun || s.my.stopped .vx || s.my.vx.run.isSome then .next s else .next (s.vxAdvance s.cur)

/-- VX_RESULT_LAND (R180): in a VX cycle without a bundle, operations in flight advance and land. -/
def execVxResultLand (s : State) : Res := s.vxIdle

/-- VX_CLUSTER_WAKE (R184): in a VX cycle without a bundle, waking clusters advance. -/
def execVxClusterWake (s : State) : Res := s.vxIdle

end Sys2Proof.Machine
end

