-- ==== Sys2Proof/Machine/VecWords.lean ====
section
/-! DEFINITION. The words of VX: each is a move, whose operation byte its trigger port gives a meaning
(07_encoding.md R126 to R132; 09_vector_isa.md R178, R186 to R199). The operations themselves stand in VecOps and Vector. -/
namespace Sys2Proof.Machine

/-- VX_MOVE_SHORT (R178): index i0, stage always, operation 0 (07_encoding.md R126). -/
def execVxMoveShort (e : BitVec 1) (d s : BitVec 6) (r : BitVec 2) (st : State) : Res := st.vxMove 1 e d s r 15 0 0

/-- VX_MOVE_LONG (R178). -/
def execVxMoveLong (e : BitVec 1) (d s : BitVec 6) (r : BitVec 2) (g i : BitVec 4) (o : BitVec 8) (st : State) : Res :=
  st.vxMove 2 e d s r g i o

/-- VX_NOP (07_encoding.md R129): the short move zero to null. -/
def execVxNop (e : BitVec 1) (r : BitVec 2) (st : State) : Res := st.vxMove 1 e 63 50 r 15 0 0

/-! ### va (R188) -/

/-- VA_ADD (R188): add under op[2:0]. -/
def execVaAdd (e : BitVec 1) (d s : BitVec 6) (r : BitVec 2) (g i : BitVec 4) (t m : BitVec 3) (st : State) : Res :=
  st.vxMove 2 e d s r g i (t ++ 0#2 ++ m)

/-- VA_SUB (R188): sub under op[2:0]. -/
def execVaSub (e : BitVec 1) (d s : BitVec 6) (r : BitVec 2) (g i : BitVec 4) (t m : BitVec 3) (st : State) : Res :=
  st.vxMove 2 e d s r g i (t ++ 1#2 ++ m)

/-- VA_MUL (R188): mul under op[2:0]. -/
def execVaMul (e : BitVec 1) (d s : BitVec 6) (r : BitVec 2) (g i : BitVec 4) (t m : BitVec 3) (st : State) : Res :=
  st.vxMove 2 e d s r g i (t ++ 2#2 ++ m)

/-- VA_MIN (R188). -/
def execVaMin (e : BitVec 1) (d s : BitVec 6) (r : BitVec 2) (g i : BitVec 4) (t : BitVec 3) (st : State) : Res :=
  st.vxMove 2 e d s r g i (t ++ 0x18#5)

/-- VA_MAX (R188). -/
def execVaMax (e : BitVec 1) (d s : BitVec 6) (r : BitVec 2) (g i : BitVec 4) (t : BitVec 3) (st : State) : Res :=
  st.vxMove 2 e d s r g i (t ++ 0x19#5)

/-- VA_ABS (R188). -/
def execVaAbs (e : BitVec 1) (d s : BitVec 6) (r : BitVec 2) (g i : BitVec 4) (t : BitVec 3) (st : State) : Res :=
  st.vxMove 2 e d s r g i (t ++ 0x1a#5)

/-- VA_NEG (R188). -/
def execVaNeg (e : BitVec 1) (d s : BitVec 6) (r : BitVec 2) (g i : BitVec 4) (t : BitVec 3) (st : State) : Res :=
  st.vxMove 2 e d s r g i (t ++ 0x1b#5)

/-- VA_CMPEQ (R188). -/
def execVaCmpeq (e : BitVec 1) (d s : BitVec 6) (r : BitVec 2) (g i : BitVec 4) (t : BitVec 3) (st : State) : Res :=
  st.vxMove 2 e d s r g i (t ++ 0x1c#5)

/-- VA_CMPLT (R188). -/
def execVaCmplt (e : BitVec 1) (d s : BitVec 6) (r : BitVec 2) (g i : BitVec 4) (t : BitVec 3) (st : State) : Res :=
  st.vxMove 2 e d s r g i (t ++ 0x1d#5)

/-- VA_CMPLE (R188). -/
def execVaCmple (e : BitVec 1) (d s : BitVec 6) (r : BitVec 2) (g i : BitVec 4) (t : BitVec 3) (st : State) : Res :=
  st.vxMove 2 e d s r g i (t ++ 0x1e#5)

/-- VA_MOV (R188). -/
def execVaMov (e : BitVec 1) (d s : BitVec 6) (r : BitVec 2) (g i : BitVec 4) (t : BitVec 3) (st : State) : Res :=
  st.vxMove 2 e d s r g i (t ++ 0x1f#5)

/-- VA_AND (R188). -/
def execVaAnd (e : BitVec 1) (d s : BitVec 6) (r : BitVec 2) (g i : BitVec 4) (st : State) : Res :=
  st.vxMove 2 e d s r g i 0xC0#8

/-- VA_OR (R188). -/
def execVaOr (e : BitVec 1) (d s : BitVec 6) (r : BitVec 2) (g i : BitVec 4) (st : State) : Res :=
  st.vxMove 2 e d s r g i 0xC1#8

/-- VA_XOR (R188). -/
def execVaXor (e : BitVec 1) (d s : BitVec 6) (r : BitVec 2) (g i : BitVec 4) (st : State) : Res :=
  st.vxMove 2 e d s r g i 0xC2#8

/-- VA_ANDN (R188). -/
def execVaAndn (e : BitVec 1) (d s : BitVec 6) (r : BitVec 2) (g i : BitVec 4) (st : State) : Res :=
  st.vxMove 2 e d s r g i 0xC3#8

/-- VA_SHL (R188). -/
def execVaShl (e : BitVec 1) (d s : BitVec 6) (r : BitVec 2) (g i : BitVec 4) (st : State) : Res :=
  st.vxMove 2 e d s r g i 0xC4#8

/-- VA_SHR (R188). -/
def execVaShr (e : BitVec 1) (d s : BitVec 6) (r : BitVec 2) (g i : BitVec 4) (st : State) : Res :=
  st.vxMove 2 e d s r g i 0xC5#8

/-- VA_SRA (R188). -/
def execVaSra (e : BitVec 1) (d s : BitVec 6) (r : BitVec 2) (g i : BitVec 4) (st : State) : Res :=
  st.vxMove 2 e d s r g i 0xC6#8

/-- VA_ROTL (R188). -/
def execVaRotl (e : BitVec 1) (d s : BitVec 6) (r : BitVec 2) (g i : BitVec 4) (st : State) : Res :=
  st.vxMove 2 e d s r g i 0xC7#8

/-- VA_POPC (R188). -/
def execVaPopc (e : BitVec 1) (d s : BitVec 6) (r : BitVec 2) (g i : BitVec 4) (st : State) : Res :=
  st.vxMove 2 e d s r g i 0xC8#8

/-- VA_CLZ (R188). -/
def execVaClz (e : BitVec 1) (d s : BitVec 6) (r : BitVec 2) (g i : BitVec 4) (st : State) : Res :=
  st.vxMove 2 e d s r g i 0xC9#8

/-! ### vf (R189) and vs (R190) -/

/-- VF_FMA (R189). -/
def execVfFma (e : BitVec 1) (s : BitVec 6) (r : BitVec 2) (g i : BitVec 4) (t m : BitVec 3) (st : State) : Res :=
  st.vxMove 2 e 16 s r g i (t ++ 0#2 ++ m)

/-- VF_FMS (R189). -/
def execVfFms (e : BitVec 1) (s : BitVec 6) (r : BitVec 2) (g i : BitVec 4) (t m : BitVec 3) (st : State) : Res :=
  st.vxMove 2 e 16 s r g i (t ++ 1#2 ++ m)

/-- VF_NFMA (R189). -/
def execVfNfma (e : BitVec 1) (s : BitVec 6) (r : BitVec 2) (g i : BitVec 4) (t m : BitVec 3) (st : State) : Res :=
  st.vxMove 2 e 16 s r g i (t ++ 2#2 ++ m)

/-- VF_NFMS (R189). -/
def execVfNfms (e : BitVec 1) (s : BitVec 6) (r : BitVec 2) (g i : BitVec 4) (t m : BitVec 3) (st : State) : Res :=
  st.vxMove 2 e 16 s r g i (t ++ 3#2 ++ m)

/-- VS_EXP2 (R190). -/
def execVsExp2 (e : BitVec 1) (s : BitVec 6) (r : BitVec 2) (g i : BitVec 4) (st : State) : Res :=
  st.vxMove 2 e 18 s r g i 0

/-- VS_LOG2 (R190). -/
def execVsLog2 (e : BitVec 1) (s : BitVec 6) (r : BitVec 2) (g i : BitVec 4) (st : State) : Res :=
  st.vxMove 2 e 18 s r g i 1

/-- VS_RECIP (R190). -/
def execVsRecip (e : BitVec 1) (s : BitVec 6) (r : BitVec 2) (g i : BitVec 4) (st : State) : Res :=
  st.vxMove 2 e 18 s r g i 2

/-- VS_RSQRT (R190). -/
def execVsRsqrt (e : BitVec 1) (s : BitVec 6) (r : BitVec 2) (g i : BitVec 4) (st : State) : Res :=
  st.vxMove 2 e 18 s r g i 3

/-- VS_SQRT (R190). -/
def execVsSqrt (e : BitVec 1) (s : BitVec 6) (r : BitVec 2) (g i : BitVec 4) (st : State) : Res :=
  st.vxMove 2 e 18 s r g i 4

/-- VS_TANH (R190). -/
def execVsTanh (e : BitVec 1) (s : BitVec 6) (r : BitVec 2) (g i : BitVec 4) (st : State) : Res :=
  st.vxMove 2 e 18 s r g i 5

/-- VS_SIGMOID (R190). -/
def execVsSigmoid (e : BitVec 1) (s : BitVec 6) (r : BitVec 2) (g i : BitVec 4) (st : State) : Res :=
  st.vxMove 2 e 18 s r g i 6

/-- VS_SILU (R190). -/
def execVsSilu (e : BitVec 1) (s : BitVec 6) (r : BitVec 2) (g i : BitVec 4) (st : State) : Res :=
  st.vxMove 2 e 18 s r g i 7

/-- VS_GELU (R190). -/
def execVsGelu (e : BitVec 1) (s : BitVec 6) (r : BitVec 2) (g i : BitVec 4) (st : State) : Res :=
  st.vxMove 2 e 18 s r g i 8

/-- VS_SIN (R190). -/
def execVsSin (e : BitVec 1) (s : BitVec 6) (r : BitVec 2) (g i : BitVec 4) (st : State) : Res :=
  st.vxMove 2 e 18 s r g i 9

/-- VS_COS (R190). -/
def execVsCos (e : BitVec 1) (s : BitVec 6) (r : BitVec 2) (g i : BitVec 4) (st : State) : Res :=
  st.vxMove 2 e 18 s r g i 10

/-! ### vc (R191 to R193) -/

/-- VC_CVT (R191). -/
def execVcCvt (e : BitVec 1) (s : BitVec 6) (r : BitVec 2) (g i : BitVec 4) (t m : BitVec 3) (n : BitVec 1) (st : State) : Res :=
  st.vxMove 2 e 20 s r g i (t ++ m ++ n ++ 0#1)

/-- VC_PACK (R192). -/
def execVcPack (e : BitVec 1) (s : BitVec 6) (r : BitVec 2) (g i : BitVec 4) (t m : BitVec 3) (n : BitVec 1) (st : State) : Res :=
  st.vxMove 2 e 20 s r g i (t ++ m ++ n ++ 1#1)

/-- VC_WVCC (R193). -/
def execVcWvcc (e : BitVec 1) (s : BitVec 6) (r : BitVec 2) (g i : BitVec 4) (st : State) : Res :=
  st.vxMove 2 e 20 s r g i 0xC0

/-- VC_WPHASE (R193). -/
def execVcWphase (e : BitVec 1) (s : BitVec 6) (r : BitVec 2) (g i : BitVec 4) (st : State) : Res :=
  st.vxMove 2 e 20 s r g i 0xC1

/-! ### ld (R194 to R196) and st (R197) -/

/-- LD_VEC (R194). -/
def execLdVec (e : BitVec 1) (s : BitVec 6) (r : BitVec 2) (g i : BitVec 4) (t : BitVec 3) (st : State) : Res :=
  st.vxMove 2 e 23 s r g i (t ++ 0#5)

/-- LD_GATHER (R194). -/
def execLdGather (e : BitVec 1) (s : BitVec 6) (r : BitVec 2) (g i : BitVec 4) (t : BitVec 3) (st : State) : Res :=
  st.vxMove 2 e 23 s r g i (t ++ 1#5)

/-- LD_BCAST (R194). -/
def execLdBcast (e : BitVec 1) (s : BitVec 6) (r : BitVec 2) (g i : BitVec 4) (t : BitVec 3) (st : State) : Res :=
  st.vxMove 2 e 23 s r g i (t ++ 2#5)

/-- LD_RING (R196). -/
def execLdRing (e : BitVec 1) (s : BitVec 6) (r : BitVec 2) (g i : BitVec 4) (t : BitVec 3) (st : State) : Res :=
  st.vxMove 2 e 23 s r g i (t ++ 3#5)

/-- LD_RAW (R194). -/
def execLdRaw (e : BitVec 1) (s : BitVec 6) (r : BitVec 2) (g i : BitVec 4) (st : State) : Res := st.vxMove 2 e 23 s r g i 0xC4

/-- ST_VEC (R197). -/
def execStVec (e : BitVec 1) (s : BitVec 6) (r : BitVec 2) (g i : BitVec 4) (t : BitVec 3) (st : State) : Res :=
  st.vxMove 2 e 26 s r g i (t ++ 0#5)

/-- ST_SCATTER (R197). -/
def execStScatter (e : BitVec 1) (s : BitVec 6) (r : BitVec 2) (g i : BitVec 4) (t : BitVec 3) (st : State) : Res :=
  st.vxMove 2 e 26 s r g i (t ++ 1#5)

/-- ST_SCALAR (R197). -/
def execStScalar (e : BitVec 1) (s : BitVec 6) (r : BitVec 2) (g i : BitVec 4) (t : BitVec 3) (st : State) : Res :=
  st.vxMove 2 e 26 s r g i (t ++ 2#5)

/-! ### sw (R198) and lrd (R199) -/

/-- SW_PUSH (R198). -/
def execSwPush (e : BitVec 1) (s : BitVec 6) (r : BitVec 2) (g i : BitVec 4) (t : BitVec 3) (st : State) : Res :=
  st.vxMove 2 e 28 s r g i (t ++ 0#5)

/-- SW_PUSHN (R198). -/
def execSwPushn (e : BitVec 1) (s : BitVec 6) (r : BitVec 2) (g i : BitVec 4) (t : BitVec 3) (st : State) : Res :=
  st.vxMove 2 e 28 s r g i (t ++ 1#5)

/-- SW_DRAIN (R198). -/
def execSwDrain (e : BitVec 1) (s : BitVec 6) (r : BitVec 2) (g i : BitVec 4) (t : BitVec 3) (st : State) : Res :=
  st.vxMove 2 e 28 s r g i (t ++ 2#5)

/-- LRD_SUM (R199). -/
def execLrdSum (e : BitVec 1) (s : BitVec 6) (r : BitVec 2) (g i : BitVec 4) (t m : BitVec 3) (st : State) : Res :=
  st.vxMove 2 e 30 s r g i (t ++ 0#2 ++ m)

/-- LRD_MAX (R199). -/
def execLrdMax (e : BitVec 1) (s : BitVec 6) (r : BitVec 2) (g i : BitVec 4) (t : BitVec 3) (st : State) : Res :=
  st.vxMove 2 e 30 s r g i (t ++ 0x8#5)

/-- LRD_MIN (R199). -/
def execLrdMin (e : BitVec 1) (s : BitVec 6) (r : BitVec 2) (g i : BitVec 4) (t : BitVec 3) (st : State) : Res :=
  st.vxMove 2 e 30 s r g i (t ++ 0x10#5)

end Sys2Proof.Machine
end

