-- ==== Sys2Proof/Machine/Windows.lean ====
section
/-! DEFINITION. The windows of BAR 0 (16_system_state.md R278, R279; 17_energy.md R283; 19_scheduling.md R299;
20_translation_faults.md R310, R312, R316, R317, R319; 21_command_processor.md R321; 23_host_links_security.md R338, R342;
24_power_bringup.md R343; 25_debug.md R352): what each write does, and what each register reads. -/
namespace Sys2Proof.Machine

/-! ### The partition window (16_system_state.md R279) -/

/-- A task of the partition is Running, Suspended or Frozen; a Retiring one is none of these. -/
def State.busyPart (s : State) (p : Nat) : Bool :=
  s.teams.any fun e => e.2.part == p && (match e.2.state with
    | .waiting | .ready | .placed | .retired => false
    | .frozenHere | .frozenSaved => true
    | _ => !(s.staying e.1 e.2).isEmpty)

/-- The states of a trusted partition that its interface allows the host to set (23_host_links_security.md R335). -/
def TdiState.allows (x : TdiState) (st : Nat) : Bool :=
  match x with
  | .unlocked => decide (st ≤ 1)
  | .locked => false
  | .run => decide (1 ≤ st) && decide (st ≤ 2)
  | .error => false

/-- A write of the configuration register is refused (R279, 23_host_links_security.md R335). -/
def State.configRefused (s : State) (p v : Nat) : Bool :=
  let x := s.part p
  let mask := bitsNat v 7 0
  let st := bitsNat v 9 8
  ((List.range 8).any fun q => q != p && (BitVec.ofNat 8 mask &&& (s.part q).clmask) != 0) ||
  (x.state == 2 && mask != x.clmask.toNat) || st == 3 || (st == 0 && s.busyPart p) ||
  (x.tdi != 0 && !(s.tdi x.tdi.toNat).state.allows st) ||
  (bitsNat v 23 16 != 0 && !(s.tdi (bitsNat v 23 16)).state.allows st)

/-- The configuration register is written; from STATE 2 to 1 each Running team drains (R279). -/
def State.configWrite (s : State) (p v : Nat) : State :=
  if s.configRefused p v then s.refusePart p
  else
    let old := (s.part p).state
    let s := s.modPart p fun x =>
      { x with tdi := BitVec.ofNat 8 (bitsNat v 23 16), state := BitVec.ofNat 2 (bitsNat v 9 8),
               clmask := BitVec.ofNat 8 (bitsNat v 7 0) }
    if old = 2 ∧ bitsNat v 9 8 = 1 then
      (s.teams.filter fun e => e.2.part == p && e.2.state == .running).foldl (fun s e => s.beginDrain e.1) s
    else s

/-- An address field that may not change while STATE = 2. -/
def State.heldWrite (s : State) (p old new : Nat) (f : Part → Part) : State :=
  if (s.part p).state = 2 ∧ old ≠ new then s.refusePart p else s.modPart p f

/-- A write of the configuration, the root, the notification queue's address or the physical window. -/
def State.partWrite (s : State) (p off v : Nat) : State :=
  let page := bitsNat v 51 12 * 4096
  if s.windowLocked p then s.refusePart p
  else
    match off with
    | 0x00 => s.configWrite p v
    | 0x08 => s.heldWrite p (s.part p).root page fun x => { x with root := page }
    | 0x10 => s.modPart p fun x => { x with nqAddr := bitsNat v 51 6 * 64 }
    | 0x40 => s.heldWrite p (s.part p).pwbase page fun x => { x with pwbase := page }
    | 0x48 => s.heldWrite p (s.part p).pwlim page fun x => { x with pwlim := page }
    | _ => s

/-- PARTITION_CONFIG_WRITE (R279). -/
def execPartitionConfigWrite (p : Nat) (off : Nat) (v : Word) (s : State) : Res :=
  if 8 ≤ p then .next s else s.atHost (s.partWrite p off v.toNat)

/-- Whether a TLBINV value drops an entry: the named address or every entry, global ones with GLB (20_translation_faults.md
R310). -/
def tlbinvDrops (v : Nat) (e : TlbEnt) : Bool :=
  let va := bitsNat v 56 12 * 4096
  (bitNat v 2 || (decide (e.va ≤ va) && decide (va < e.va + e.size))) && (!e.pte.getLsbD 5 || bitNat v 1)

/-- A write of TLBINV with GO = 1 drops the matching entries of the partition; GO then reads 0. -/
def State.tlbinvWrite (s : State) (p v : Nat) : State :=
  let s := s.modPart p fun x => { x with tlbinv := BitVec.ofNat 64 (bitsNat v 56 12 * 4096 + bitsNat v 2 1 * 2) }
  if bitNat v 0 then { s with tlb := s.tlb.filter fun e => !(e.part == p && tlbinvDrops v e) } else s

/-- TLB_INVALIDATE (20_translation_faults.md R310). -/
def execTlbInvalidate (p : Nat) (v : Word) (s : State) : Res :=
  if 8 ≤ p then .next s
  else s.atWindow p (s.tlbinvWrite p v.toNat)

/-- A write of FZCTL (20_translation_faults.md R316). -/
def State.fzctlWrite (s : State) (p v : Nat) : Res :=
  match bitsNat v 1 0 with
  | 1 => execFreezeResume p (BitVec.ofNat 57 v) s
  | 2 => execFreezeKill p (BitVec.ofNat 57 v) s
  | n => .next (s.modPart p fun x => { x with fzctl := BitVec.ofNat 64 (bitsNat v 56 7 * 128 + n) })

/-- A write of a queue register (21_command_processor.md R321). -/
def State.queueWrite (s : State) (p q off v : Nat) : State :=
  match off with
  | 0x00 => s.modQueue p q fun x => if x.en then x else { x with base := bitsNat v 56 6 * 64 }
  | 0x08 => s.modQueue p q fun x => x.control v
  | 0x10 => s.modQueue p q fun x => { x with tail := BitVec.ofNat 32 v }.discard
  | _ => s

/-- A write of partition p's window at an offset. -/
def State.partWindow (s : State) (p off v : Nat) : Res :=
  if s.windowLocked p then .next (s.refusePart p)
  else
    match off with
    | 0x18 => .next (s.modPart p fun x =>
        { x with wref := x.wref && !bitNat v 0, nqdrop := x.nqdrop && !bitNat v 1, resref := x.resref && !bitNat v 2 })
    | 0x28 => .next (s.modPart p fun x => { x with nqack := v })
    | 0x30 => s.fzctlWrite p v
    | 0x38 => .next (s.tlbinvWrite p v)
    | _ => if 0x80 ≤ off then .next (s.queueWrite p ((off - 0x80) / 0x20) (off % 0x20) v) else .next (s.partWrite p off v)

/-! ### The core window (16_system_state.md R278) -/

def State.coreWerr (s : State) (c : Nat) : State := s.modCore c fun k => { k with werr := true }

/-- A buffer residency value, BASE and LIMIT (R275). -/
def bufBase (v : Nat) : Nat := bitsNat v 8 0
def bufLimit (v : Nat) : Nat := bitsNat v 41 32

/-- A binding with one of its doublewords loaded; none where a buffer range leaves the buffer (R275). -/
def Binding.load (b : Binding) (off v : Nat) : Option Binding :=
  match off with
  | 0x00 => some { b with part := BitVec.ofNat 3 v }
  | 0x08 => if bufBase v + bufLimit v ≤ 256 then some { b with aBase := bufBase v, aLimit := bufLimit v } else none
  | 0x10 => if bufBase v + bufLimit v ≤ 512 then some { b with wBase := bufBase v, wLimit := bufLimit v } else none
  | 0x18 => some { b with codebase := BitVec.ofNat 64 v }
  | 0x20 => some { b with tmap := BitVec.ofNat 64 v }
  | 0x28 => some { b with tcb := BitVec.ofNat 64 v }
  | _ => some b

/-- A core that HALT = 0 lets go on: one that nothing but a halt or a Soot stop holds, with its island on. -/
def Hold.free : Hold → Bool
  | .none | .stopped | .retiring | .switching => true
  | .frozen | .checkpoint => false

/-- Members that a stop halted while they were switched out of core c may be switched in again (25_debug.md R351). -/
def State.letIn (s : State) (c : Nat) : State :=
  { s with images := s.images.map fun g =>
      let here := (Tbl.get? s.teams g.team).any fun x => (x.members[g.member]?).any fun m => m.core == c
      { g with stopped := g.stopped && !here } }

/-- A write of CORECTL. HALT = 0 lets a core that is only halted, or stopped by Soot, go on, if its island is on, and with it
the members switched out of it; one that holds no context takes its alternate where there is one. -/
def State.corectlWrite (s : State) (c v : Nat) : State :=
  let s := s.modCore c fun k => { k with werr := k.werr && !bitNat v 2, haltReq := bitNat v 0 }
  if bitNat v 0 then s
  else
    let s := s.letIn c
    if (s.core c).task.isNone && (s.alternate c).isSome then s.loadAlternate c
    else if s.islandUp c then
      s.modCore c fun k =>
        { k with halted := k.halted && !k.hold.free, hold := if k.hold = .stopped then .none else k.hold }
    else s

/-- HALT_REQUEST (R278): a write of CORECTL. -/
def execHaltRequest (c : Nat) (v : Word) (s : State) : Res :=
  if Config.nCores ≤ c then .next s else s.atHost (s.corectlWrite c v.toNat)

/-- The doubleword after the one at SBPTR, wrapping at the bank's end. -/
def sbNext (p : Nat) : Nat := if bankBytes ≤ p + 8 then 0 else p + 8

/-- SHADOW_BANK_READ (R278): the layout inside the bank is not architectural (R280), so the doubleword is a free value. -/
def execShadowBankRead (c : Nat) (s : State) : Res :=
  if Config.nCores ≤ c then .next s
  else if !(s.core c).halted then s.atHost { s with hostRead := leBytes 8 0 }
  else
    let w := Config.bankWord s.free (s.core c).sbptr
    s.atHost ({ s with hostRead := leBytes 8 w.toNat, free := s.free + 1 }.modCore c fun k => { k with sbptr := sbNext k.sbptr })

/-- A write of core c's window at an offset (DEDUCED, log 82). -/
def State.coreWindow (s : State) (c off v : Nat) : State :=
  let k := s.core c
  if off = 0x30 then s.corectlWrite c v
  else if off ≤ 0x28 then
    if !k.halted then s.coreWerr c
    else
      match k.b.load off v with
      | some b => s.modCore c fun k => { k with b := b }
      | none => s.coreWerr c
  else if off = 0x38 then (if k.halted then s.modCore c fun k => { k with sbptr := bitsNat v 19 3 * 8 } else s.coreWerr c)
  else s

/-! ### The timetable window (19_scheduling.md R299) -/

/-- A timetable entry with one of its doublewords written. -/
def TtEnt.write (x : TtEnt) (off v : Nat) : TtEnt :=
  match off with
  | 0x00 =>
    { v := bitNat v 63,
      b := { x.b with part := BitVec.ofNat 3 (bitsNat v 62 60), tcb := BitVec.ofNat 64 (bitsNat v 56 7 * 128) } }
  | 0x08 => { x with b := { x.b with tmap := BitVec.ofNat 64 v } }
  | 0x10 => { x with b := { x.b with aBase := bufBase v, aLimit := bufLimit v } }
  | 0x18 => { x with b := { x.b with wBase := bufBase v, wLimit := bufLimit v } }
  | 0x20 => { x with b := { x.b with codebase := BitVec.ofNat 64 v } }
  | _ => x

/-- A write of core c's timetable window at an offset. -/
def State.ttWrite (s : State) (c off v : Nat) : State :=
  if off = 0 then s.modCore c fun k => { k with ttWerr := k.ttWerr && !bitNat v 2 }
  else if off < 0x40 ∨ 0xC0 ≤ off then s
  else
    let e := (off - 0x40) / 0x40
    let k := s.core c
    let x := (k.ent e).write ((off - 0x40) % 0x40) v
    let other := k.ent (1 - e)
    if (e == k.cur && !k.halted) || (x.v && other.v && meets x.b other.b) then s.modCore c fun k => { k with ttWerr := true }
    else s.modCore c fun k => k.setEnt e x

/-- TIMETABLE_ENTRY_WRITE (R299). -/
def execTimetableEntryWrite (c : Nat) (off : Nat) (v : Word) (s : State) : Res :=
  if Config.nCores ≤ c then .next s else s.atHost (s.ttWrite c off v.toNat)

/-! ### The other windows -/

/-- A write of the Damper window (17_energy.md R283). -/
def State.damperWindow (s : State) (off v : Nat) : State :=
  if off = 0 then s.contractWrite v
  else if off = 8 then
    { s with damper := { s.damper with breach := s.damper.breach && !bitNat v 2, cerr := s.damper.cerr && !bitNat v 1 } }
  else if 0x400 ≤ off ∧ off < 0x400 + 4 * Config.nIslands ∧ off % 4 = 0 then
    s.modIsland ((off - 0x400) / 4) fun x =>
      { x with capS := BitVec.ofNat 8 (bitsNat v 23 16), grantS := BitVec.ofNat 8 (bitsNat v 15 8) }
  else s

/-- An operation of the acting core, done on core c. -/
def State.asCore (s : State) (c : Nat) (f : State → State) : State := { f { s with cur := c } with cur := s.cur }

/-- A write of the fault-record window: ACTION of an engine's record (20_translation_faults.md R312, R313). -/
def State.faultWindow (s : State) (off v : Nat) : State :=
  let c := off / 0x180
  let a := off % 0x180 / 0x40 + 1
  if c < Config.nCores ∧ off % 0x40 = 0x30 then s.asCore c fun s => s.writeAction (agentOf a) (BitVec.ofNat 2 v) else s

/-- A write of the error block (20_translation_faults.md R319). -/
def State.errWindow (s : State) (off v : Nat) : State :=
  if off = 0 then s.errcfgWrite v
  else if off = 0x10 then { s with err := { s.err with elack := v } }
  else if 0x40 ≤ off ∧ off < 0x80 ∧ off % 8 = 0 then s.injWrite ((off - 0x40) / 8) v
  else s

/-- A write of the Soot window (25_debug.md R352). -/
def State.sootWindow (s : State) (off v : Nat) : State :=
  let o := s.soot
  let put := fun (o : Soot) => { s with soot := o }
  if off = 0 then
    let ctl : Word := BitVec.ofNat 64 (bitsNat v 15 8 * 256 + bitsNat v 3 0)
    let s := put { o with ctl := ctl, sampled := if bitNat v 2 && !bitNat o.ctl.toNat 2 then s.samplePeriod else o.sampled }
    if bitNat v 4 then s.sootStopAll else s
  else if off = 8 then
    if bitNat o.ctl.toNat 0 then s else put { o with trbase := BitVec.ofNat 64 (bitsNat v 51 12 * 4096 + bitsNat v 5 0) }
  else if off = 0x18 then put { o with track := v }
  else if off % 8 ≠ 0 then s
  else if 0x100 ≤ off ∧ off < 0x140 then
    let q := if bitsNat v 55 52 = 0 then 0 else bitsNat v 31 0
    let k := (off - 0x100) / 8
    put { o with
      brk := Tbl.put (0 : Word) o.brk k (BitVec.ofNat 64 (bitsNat v 63 52 * 2 ^ 52 + q)), brkEc := Tbl.put 0 o.brkEc k (s.ec + 1) }
  else if 0x140 ≤ off ∧ off < 0x180 then
    put { o with brkpc := Tbl.put (0 : Word) o.brkpc ((off - 0x140) / 8) (BitVec.ofNat 64 (bitsNat v 56 0)) }
  else if 0x200 ≤ off ∧ off < 0x240 then
    let k := (off - 0x200) / 16
    if off % 16 = 0 then s.latinjWrite k v
    else put { o with latlen := Tbl.put (0 : Word) o.latlen k (BitVec.ofNat 64 (bitsNat v 19 0)) }
  else s

/-- A write of the recovery window (23_host_links_security.md R342); RECOVERY_GO goes on from a write of GO with the staged
image. -/
def State.recoveryWindow (s : State) (off v : Nat) : State :=
  match off with
  | 0x00 => { s with fw := { s.fw with rstage := BitVec.ofNat 64 (bitsNat v 51 12 * 4096) } }
  | 0x08 => if bitNat v 0 then s.recoveryGo else s
  | 0x10 => s.fuseCommit
  | _ => s

/-- A write of the power window (24_power_bringup.md R343, R345). -/
def State.powerWindow (s : State) (off v : Nat) : Res :=
  if off = 0 then .next { s with damper := { s.damper with pset := BitVec.ofNat 4 v } }
  else if 0x100 ≤ off ∧ off < 0x100 + 8 * Config.nIslands ∧ off % 8 = 0 then
    let i := (off - 0x100) / 8
    let s := s.modIsland i fun x => { x with perr := x.perr && !bitNat v 14 }
    match bitsNat v 1 0 with
    | 0 => execIslandOff i s
    | 1 => execIslandOn i s
    | 2 => execIslandRetainedOff i s
    | _ => .next (s.refusePower i)
  else .next s

/-- A write of BAR 0 at an offset (R278; DEDUCED, log 74). -/
def State.barWrite (s : State) (off v : Nat) : Res :=
  if 0x70000 ≤ off ∧ off < 0x80000 then .next (s.recoveryWindow (off - 0x70000) v)
  else if !s.up then .next s
  else if 0x10000 ≤ off ∧ off < 0x10800 then s.partWindow ((off - 0x10000) / 0x100) (off % 0x100) v
  else if 0x20000 ≤ off ∧ off < 0x30000 then .next (s.damperWindow (off - 0x20000) v)
  else if 0x30000 ≤ off ∧ off < 0x38000 then .next (s.ttWrite ((off - 0x30000) / 0x100) (off % 0x100) v)
  else if 0x40000 ≤ off ∧ off < 0x4C000 then .next (s.faultWindow (off - 0x40000) v)
  else if 0x4C000 ≤ off ∧ off < 0x50000 then .next (s.errWindow (off - 0x4C000) v)
  else if 0x50000 ≤ off ∧ off < 0x60000 then .next (s.sootWindow (off - 0x50000) v)
  else if off = 0x60000 ∨ off = 0x60100 then .next (s.chctlWrite ((off - 0x60000) / 0x100) v)
  else if 0x80000 ≤ off ∧ off < 0x90000 then s.powerWindow (off - 0x80000) v
  else if 0x100000 ≤ off ∧ off < 0x180000 then .next (s.coreWindow ((off - 0x100000) / 0x1000) (off % 0x1000) v)
  else .next s

/-- REGISTER_WRITE (R278): offsets that no window names are ignored. -/
def execRegisterWrite (off : Nat) (v : Word) (s : State) : Res := s.barWrite off v.toNat

/-! ### What the registers read -/

/-- Register bits set from a list of fields: lowest bit, value. -/
def fieldsNat (l : List (Nat × Nat)) : Nat := l.foldl (fun n f => n + f.2 * 2 ^ f.1) 0

def bit1 (b : Bool) : Nat := if b then 1 else 0

def HostQueue.reg (x : HostQueue) (off : Nat) : Nat :=
  match off with
  | 0x00 => x.base
  | 0x08 => fieldsNat [(16, x.log2n), (0, bit1 x.en)]
  | 0x10 => x.tail.toNat
  | 0x18 => fieldsNat [(32, x.headReg.toNat), (8, x.err.toNat), (0, bit1 x.stop)]
  | _ => 0

def Part.reg (x : Part) (off : Nat) : Nat :=
  match off with
  | 0x00 => fieldsNat [(16, x.tdi.toNat), (8, x.state.toNat), (0, x.clmask.toNat)]
  | 0x08 => x.root
  | 0x10 => x.nqAddr
  | 0x18 => fieldsNat [(2, bit1 x.resref), (1, bit1 x.nqdrop), (0, bit1 x.wref)]
  | 0x20 => x.nqcnt
  | 0x28 => x.nqack
  | 0x30 => x.fzctl.toNat
  | 0x38 => x.tlbinv.toNat
  | 0x40 => x.pwbase
  | 0x48 => x.pwlim
  | _ => if 0x80 ≤ off then (Tbl.get HostQueue.reset x.queues ((off - 0x80) / 0x20)).reg (off % 0x20) else 0

def State.damperReg (s : State) (off : Nat) : Nat :=
  let d := s.damper
  if off = 0 then d.staged.toNat
  else if off = 8 then fieldsNat [(32, d.steps), (2, bit1 d.breach), (1, bit1 d.cerr), (0, bit1 d.pend)]
  else if 0x400 ≤ off ∧ off < 0x400 + 4 * Config.nIslands ∧ off % 4 = 0 then
    let x := s.island ((off - 0x400) / 4)
    fieldsNat [(16, x.capS.toNat), (8, x.grantS.toNat), (7, bit1 x.derate)]
  else if 0x800 ≤ off ∧ off < 0x800 + 16 * Config.nIslands ∧ off % 16 = 0 then
    let t := Config.telemetry ((off - 0x800) / 16) d.steps
    fieldsNat [(48, t.1.toNat), (32, t.2.1.toNat), (16, t.2.2.toNat)]
  else 0

def Binding.reg (b : Binding) (off : Nat) : Nat :=
  match off with
  | 0x08 => (bufWord b.aBase b.aLimit).toNat
  | 0x10 => (bufWord b.wBase b.wLimit).toNat
  | 0x18 => b.codebase.toNat
  | 0x20 => b.tmap.toNat
  | 0x28 => b.tcb.toNat
  | _ => b.part.toNat

def TtEnt.reg (x : TtEnt) (off : Nat) : Nat :=
  match off with
  | 0x00 => fieldsNat [(63, bit1 x.v), (60, x.b.part.toNat), (0, x.b.tcb.toNat)]
  | 0x08 => x.b.tmap.toNat
  | 0x10 => (bufWord x.b.aBase x.b.aLimit).toNat
  | 0x18 => (bufWord x.b.wBase x.b.wLimit).toNat
  | 0x20 => x.b.codebase.toNat
  | _ => 0

def Core.ttReg (k : Core) (off : Nat) : Nat :=
  if off = 0 then fieldsNat [(32, min k.loadec 65535), (2, bit1 k.ttWerr), (0, k.cur)]
  else if off < 0x40 ∨ 0xC0 ≤ off then 0
  else (k.ent ((off - 0x40) / 0x40)).reg ((off - 0x40) % 0x40)

def Link.reg (l : Link) : Nat := fieldsNat [(32, l.orders), (8, l.permits), (0, 16)]

/-- A core's window; SBDATA is read by SHADOW_BANK_READ. -/
def Core.reg (k : Core) (off : Nat) : Nat :=
  if off ≤ 0x28 then k.b.reg off
  else if off = 0x30 then fieldsNat [(2, bit1 k.werr), (1, bit1 k.halted), (0, bit1 k.haltReq)]
  else if off = 0x38 then k.sbptr
  else 0

def ErrBlock.reg (x : ErrBlock) (off : Nat) : Nat :=
  if off = 0 then fieldsNat [(32, x.window.toNat), (20, x.thresh.toNat), (0, bit1 x.logovf)]
  else if off = 8 then x.elcnt
  else if off = 0x10 then x.elack
  else if 0x40 ≤ off ∧ off < 0x80 ∧ off % 8 = 0 then (Tbl.get (0 : Word) x.inj ((off - 0x40) / 8)).toNat
  else if 0x100 ≤ off ∧ off < 0x900 then ((Tbl.get [] x.log ((off - 0x100) / 32)).getD (off % 32 / 8) 0).toNat
  else 0

def Soot.reg (o : Soot) (off : Nat) : Nat :=
  if off = 0 then o.ctl.toNat
  else if off = 8 then o.trbase.toNat
  else if off = 0x10 then o.trcnt
  else if off = 0x18 then o.track
  else if off = 0x20 then o.drop
  else if 0x100 ≤ off ∧ off < 0x140 then (Tbl.get (0 : Word) o.brk ((off - 0x100) / 8)).toNat
  else if 0x140 ≤ off ∧ off < 0x180 then (Tbl.get (0 : Word) o.brkpc ((off - 0x140) / 8)).toNat
  else if 0x200 ≤ off ∧ off < 0x240 then
    (Tbl.get (0 : Word) (if off % 16 = 0 then o.latinj else o.latlen) ((off - 0x200) / 16)).toNat
  else 0

def Chimney.reg (x : Chimney) (off : Nat) : Nat :=
  match off with
  | 0x00 =>
    fieldsNat [(32, x.crcerr.toNat), (12, x.uplanes.toNat), (10, x.lstate.toNat), (2, x.elanes.toNat), (0, x.mode.toNat)]
  | 0x08 => x.digrx.toNat
  | 0x10 => x.digtx.toNat
  | _ => 0

def Firmware.reg (x : Firmware) (off : Nat) : Nat :=
  match off with
  | 0x00 => x.rstage.toNat
  | 0x08 => fieldsNat [(8, x.code.toNat), (1, x.rstate.toNat)]
  | _ => 0

/-- ISLPWR of island i (24_power_bringup.md R343). -/
def Island.powerReg (x : Island) (i : Nat) : Nat :=
  fieldsNat [(48, (Config.inrush i).toNat), (32, (Config.proc i).toNat), (24, x.defer), (16, x.phase.toNat),
    (15, bit1 x.regf), (14, bit1 x.perr), (8, x.pstate), (0, x.cmd.toNat)]

def State.powerReg (s : State) (off : Nat) : Nat :=
  if off = 0 then fieldsNat [(4, s.damper.pcur.toNat), (0, s.damper.pset.toNat)]
  else if 0x100 ≤ off ∧ off < 0x100 + 8 * Config.nIslands ∧ off % 8 = 0 then
    (s.island ((off - 0x100) / 8)).powerReg ((off - 0x100) / 8)
  else if 0x800 ≤ off ∧ off < 0x848 ∧ off % 8 = 0 then
    let z := (off - 0x800) / 8
    fieldsNat [(32, (Config.zoneLimit z).toNat), (0, (Config.zoneCurrent z s.damper.steps).toNat)]
  else 0

/-- What BAR 0 reads at an offset, without the side effect SBDATA has (R278). Before bring-up is done only the
identification and recovery windows are there (23_host_links_security.md R342). -/
def State.barRead (s : State) (off : Nat) : Nat :=
  if off = 0 then Config.yident.toNat
  else if 0x70000 ≤ off ∧ off < 0x80000 then s.fw.reg (off - 0x70000)
  else if !s.up then 0
  else if 0x10000 ≤ off ∧ off < 0x10800 then (s.part ((off - 0x10000) / 0x100)).reg (off % 0x100)
  else if 0x20000 ≤ off ∧ off < 0x30000 then s.damperReg (off - 0x20000)
  else if 0x30000 ≤ off ∧ off < 0x38000 then (s.core ((off - 0x30000) / 0x100)).ttReg (off % 0x100)
  else if 0x38000 ≤ off ∧ off < 0x38200 ∧ off % 0x40 = 0 then (s.link ((off - 0x38000) / 0x40)).reg
  else if 0x40000 ≤ off ∧ off < 0x4C000 then
    ((s.ctx ((off - 0x40000) / 0x180)).fault (agentOf ((off - 0x40000) % 0x180 / 0x40 + 1))).dword (off % 0x40 / 8) |>.toNat
  else if 0x4C000 ≤ off ∧ off < 0x50000 then s.err.reg (off - 0x4C000)
  else if 0x50000 ≤ off ∧ off < 0x60000 then s.soot.reg (off - 0x50000)
  else if 0x60000 ≤ off ∧ off < 0x60200 then (s.port ((off - 0x60000) / 0x100)).reg (off % 0x100)
  else if 0x80000 ≤ off ∧ off < 0x90000 then s.powerReg (off - 0x80000)
  else if 0x100000 ≤ off ∧ off < 0x180000 then (s.core ((off - 0x100000) / 0x1000)).reg (off % 0x1000)
  else 0

end Sys2Proof.Machine
end

