-- ==== Sys2Proof/Machine/Dispatch.lean ====
section
/-! DEFINITION. The dispatch: one arm for each row of the opcode table. -/
namespace Sys2Proof.Machine
open Sys2Proof

def exec (i : Instr) (s : State) : Host.Outcome State Fault Refusal :=
  match i with
  | .vxRun b a => Sys2Proof.Machine.execVxRun b a s
  | .mxRun b a => Sys2Proof.Machine.execMxRun b a s
  | .mxPushw b a => Sys2Proof.Machine.execMxPushw b a s
  | .mxMmaInline n d b a c => Sys2Proof.Machine.execMxMmaInline n d b a c s
  | .mxClaimInline src => Sys2Proof.Machine.execMxClaimInline src s
  | .mxReleaseInline src => Sys2Proof.Machine.execMxReleaseInline src s
  | .mxTinitInline c => Sys2Proof.Machine.execMxTinitInline c s
  | .cxCopy a d => Sys2Proof.Machine.execCxCopy a d s
  | .cxCopy2 a d => Sys2Proof.Machine.execCxCopy2 a d s
  | .cxPeer a d => Sys2Proof.Machine.execCxPeer a d s
  | .cxFill a d => Sys2Proof.Machine.execCxFill a d s
  | .cxRing a d => Sys2Proof.Machine.execCxRing a d s
  | .cxPretr a d => Sys2Proof.Machine.execCxPretr a d s
  | .cxFlush a d => Sys2Proof.Machine.execCxFlush a d s
  | .cxCancel a => Sys2Proof.Machine.execCxCancel a s
  | .cxWait a d => Sys2Proof.Machine.execCxWait a d s
  | .cxTest a d => Sys2Proof.Machine.execCxTest a d s
  | .gxGather a => Sys2Proof.Machine.execGxGather a s
  | .gxBag a => Sys2Proof.Machine.execGxBag a s
  | .gxScadd a => Sys2Proof.Machine.execGxScadd a s
  | .gxCount a => Sys2Proof.Machine.execGxCount a s
  | .fxPass a => Sys2Proof.Machine.execFxPass a s
  | .fxCfg a => Sys2Proof.Machine.execFxCfg a s
  | .clAllred a => Sys2Proof.Machine.execClAllred a s
  | .clRedsc a => Sys2Proof.Machine.execClRedsc a s
  | .clAllgat a => Sys2Proof.Machine.execClAllgat a s
  | .clBcast a => Sys2Proof.Machine.execClBcast a s
  | .clBarrier t src => Sys2Proof.Machine.execClBarrier t src s
  | .ringTake n d => Sys2Proof.Machine.execRingTake n d s
  | .ringGive n => Sys2Proof.Machine.execRingGive n s
  | .ringStat n d => Sys2Proof.Machine.execRingStat n d s
  | .skBuffmtA f b a g => Sys2Proof.Machine.execSkBuffmtA f b a g s
  | .skBuffmtW f b a g => Sys2Proof.Machine.execSkBuffmtW f b a g s
  | .skFence m c e d k => Sys2Proof.Machine.execSkFence m c e d k s
  | .skMark c e a k => Sys2Proof.Machine.execSkMark c e a k s
  | .skRdvwait k => Sys2Proof.Machine.execSkRdvwait k s
  | .skRdvtest k d => Sys2Proof.Machine.execSkRdvtest k d s
  | .skWfe d => Sys2Proof.Machine.execSkWfe d s
  | .skSev m => Sys2Proof.Machine.execSkSev m s
  | .skSend a m => Sys2Proof.Machine.execSkSend a m s
  | .skRecv d => Sys2Proof.Machine.execSkRecv d s
  | .dqPush a d => Sys2Proof.Machine.execDqPush a d s
  | .dqPop d => Sys2Proof.Machine.execDqPop d s
  | .dqSteal d => Sys2Proof.Machine.execDqSteal d s
  | .dqExport n => Sys2Proof.Machine.execDqExport n s
  | .feedPop a d => Sys2Proof.Machine.execFeedPop a d s
  | .skBudget d => Sys2Proof.Machine.execSkBudget d s
  | .abAmoadd w b a d => Sys2Proof.Machine.execAbAmoadd w b a d s
  | .abAmoswap w b a d => Sys2Proof.Machine.execAbAmoswap w b a d s
  | .abAmoxor w b a d => Sys2Proof.Machine.execAbAmoxor w b a d s
  | .abAmoor w b a d => Sys2Proof.Machine.execAbAmoor w b a d s
  | .abAmoand w b a d => Sys2Proof.Machine.execAbAmoand w b a d s
  | .abAmomin w b a d => Sys2Proof.Machine.execAbAmomin w b a d s
  | .abAmomax w b a d => Sys2Proof.Machine.execAbAmomax w b a d s
  | .abAmominu w b a d => Sys2Proof.Machine.execAbAmominu w b a d s
  | .abAmomaxu w b a d => Sys2Proof.Machine.execAbAmomaxu w b a d s
  | .skSvc a d => Sys2Proof.Machine.execSkSvc a d s
  | .skLend a d => Sys2Proof.Machine.execSkLend a d s
  | .abLoad c u b a w d => Sys2Proof.Machine.execAbLoad c u b a w d s
  | .abStore c b a w => Sys2Proof.Machine.execAbStore c b a w s
  | .wbLoad c u b a w d => Sys2Proof.Machine.execWbLoad c u b a w d s
  | .wbStore c b a w => Sys2Proof.Machine.execWbStore c b a w s
  | .skClLoad c u b a w d => Sys2Proof.Machine.execSkClLoad c u b a w d s
  | .skCsStore c b a w => Sys2Proof.Machine.execSkCsStore c b a w s
  | .skShape a src => Sys2Proof.Machine.execSkShape a src s
  | .skView h src v => Sys2Proof.Machine.execSkView h src v s
  | .skTgeom a c => Sys2Proof.Machine.execSkTgeom a c s
  | .skRfcl n => Sys2Proof.Machine.execSkRfcl n s
  | .ringCfg b a n => Sys2Proof.Machine.execRingCfg b a n s
  | .skVariant c a d => Sys2Proof.Machine.execSkVariant c a d s
  | .fence fm pred succ rs1 rd => Sys2Proof.Machine.execFence fm pred succ rs1 rd s
  | .rv64Load k rd rs1 imm => Sys2Proof.Machine.execRv64Load k rd rs1 imm s
  | .rv64Store k rs2 rs1 imm => Sys2Proof.Machine.execRv64Store k rs2 rs1 imm s
  | .amo op dbl aq rl rd rs1 rs2 => Sys2Proof.Machine.execAmo op dbl aq rl rd rs1 rs2 s
  | .lr dbl aq rl rd rs1 => Sys2Proof.Machine.execLr dbl aq rl rd rs1 s
  | .sc dbl aq rl rd rs1 rs2 => Sys2Proof.Machine.execSc dbl aq rl rd rs1 rs2 s
  | .sfenceVma rs1 rs2 => Sys2Proof.Machine.execSfenceVma rs1 rs2 s
  | .csrWrite op uimm rd rs1 csr => Sys2Proof.Machine.execCsrWrite op uimm rd rs1 csr s
  | .yeventWrite op uimm rd rs1 => Sys2Proof.Machine.execYeventWrite op uimm rd rs1 s
  | .ywmWrite op uimm rd rs1 => Sys2Proof.Machine.execYwmWrite op uimm rd rs1 s
  | .ymxstAccess op uimm rd rs1 => Sys2Proof.Machine.execYmxstAccess op uimm rd rs1 s
  | .ydxstAccess op uimm rd rs1 => Sys2Proof.Machine.execYdxstAccess op uimm rd rs1 s
  | .pendingRegisterWrite k => Sys2Proof.Machine.execPendingRegisterWrite k s
  | .trapEntry cause tval info => Sys2Proof.Machine.execTrapEntry cause tval info s
  | .vxMoveShort e d src r => Sys2Proof.Machine.execVxMoveShort e d src r s
  | .vxMoveLong e d src r g ix o => Sys2Proof.Machine.execVxMoveLong e d src r g ix o s
  | .vxNop e r => Sys2Proof.Machine.execVxNop e r s
  | .vxRfcl r g ix n => Sys2Proof.Machine.execVxRfcl r g ix n s
  | .vaAdd e d src r g ix t m => Sys2Proof.Machine.execVaAdd e d src r g ix t m s
  | .vaSub e d src r g ix t m => Sys2Proof.Machine.execVaSub e d src r g ix t m s
  | .vaMul e d src r g ix t m => Sys2Proof.Machine.execVaMul e d src r g ix t m s
  | .vaMin e d src r g ix t => Sys2Proof.Machine.execVaMin e d src r g ix t s
  | .vaMax e d src r g ix t => Sys2Proof.Machine.execVaMax e d src r g ix t s
  | .vaAbs e d src r g ix t => Sys2Proof.Machine.execVaAbs e d src r g ix t s
  | .vaNeg e d src r g ix t => Sys2Proof.Machine.execVaNeg e d src r g ix t s
  | .vaCmpeq e d src r g ix t => Sys2Proof.Machine.execVaCmpeq e d src r g ix t s
  | .vaCmplt e d src r g ix t => Sys2Proof.Machine.execVaCmplt e d src r g ix t s
  | .vaCmple e d src r g ix t => Sys2Proof.Machine.execVaCmple e d src r g ix t s
  | .vaMov e d src r g ix t => Sys2Proof.Machine.execVaMov e d src r g ix t s
  | .vaAnd e d src r g ix => Sys2Proof.Machine.execVaAnd e d src r g ix s
  | .vaOr e d src r g ix => Sys2Proof.Machine.execVaOr e d src r g ix s
  | .vaXor e d src r g ix => Sys2Proof.Machine.execVaXor e d src r g ix s
  | .vaAndn e d src r g ix => Sys2Proof.Machine.execVaAndn e d src r g ix s
  | .vaShl e d src r g ix => Sys2Proof.Machine.execVaShl e d src r g ix s
  | .vaShr e d src r g ix => Sys2Proof.Machine.execVaShr e d src r g ix s
  | .vaSra e d src r g ix => Sys2Proof.Machine.execVaSra e d src r g ix s
  | .vaRotl e d src r g ix => Sys2Proof.Machine.execVaRotl e d src r g ix s
  | .vaPopc e d src r g ix => Sys2Proof.Machine.execVaPopc e d src r g ix s
  | .vaClz e d src r g ix => Sys2Proof.Machine.execVaClz e d src r g ix s
  | .vfFma e src r g ix t m => Sys2Proof.Machine.execVfFma e src r g ix t m s
  | .vfFms e src r g ix t m => Sys2Proof.Machine.execVfFms e src r g ix t m s
  | .vfNfma e src r g ix t m => Sys2Proof.Machine.execVfNfma e src r g ix t m s
  | .vfNfms e src r g ix t m => Sys2Proof.Machine.execVfNfms e src r g ix t m s
  | .vsExp2 e src r g ix => Sys2Proof.Machine.execVsExp2 e src r g ix s
  | .vsLog2 e src r g ix => Sys2Proof.Machine.execVsLog2 e src r g ix s
  | .vsRecip e src r g ix => Sys2Proof.Machine.execVsRecip e src r g ix s
  | .vsRsqrt e src r g ix => Sys2Proof.Machine.execVsRsqrt e src r g ix s
  | .vsSqrt e src r g ix => Sys2Proof.Machine.execVsSqrt e src r g ix s
  | .vsTanh e src r g ix => Sys2Proof.Machine.execVsTanh e src r g ix s
  | .vsSigmoid e src r g ix => Sys2Proof.Machine.execVsSigmoid e src r g ix s
  | .vsSilu e src r g ix => Sys2Proof.Machine.execVsSilu e src r g ix s
  | .vsGelu e src r g ix => Sys2Proof.Machine.execVsGelu e src r g ix s
  | .vsSin e src r g ix => Sys2Proof.Machine.execVsSin e src r g ix s
  | .vsCos e src r g ix => Sys2Proof.Machine.execVsCos e src r g ix s
  | .vcCvt e src r g ix t m n => Sys2Proof.Machine.execVcCvt e src r g ix t m n s
  | .vcPack e src r g ix t m n => Sys2Proof.Machine.execVcPack e src r g ix t m n s
  | .vcWvcc e src r g ix => Sys2Proof.Machine.execVcWvcc e src r g ix s
  | .vcWphase e src r g ix => Sys2Proof.Machine.execVcWphase e src r g ix s
  | .ldVec e src r g ix t => Sys2Proof.Machine.execLdVec e src r g ix t s
  | .ldGather e src r g ix t => Sys2Proof.Machine.execLdGather e src r g ix t s
  | .ldBcast e src r g ix t => Sys2Proof.Machine.execLdBcast e src r g ix t s
  | .ldRing e src r g ix t => Sys2Proof.Machine.execLdRing e src r g ix t s
  | .ldRaw e src r g ix => Sys2Proof.Machine.execLdRaw e src r g ix s
  | .stVec e src r g ix t => Sys2Proof.Machine.execStVec e src r g ix t s
  | .stScatter e src r g ix t => Sys2Proof.Machine.execStScatter e src r g ix t s
  | .stScalar e src r g ix t => Sys2Proof.Machine.execStScalar e src r g ix t s
  | .swPush e src r g ix t => Sys2Proof.Machine.execSwPush e src r g ix t s
  | .swPushn e src r g ix t => Sys2Proof.Machine.execSwPushn e src r g ix t s
  | .swDrain e src r g ix t => Sys2Proof.Machine.execSwDrain e src r g ix t s
  | .lrdSum e src r g ix t m => Sys2Proof.Machine.execLrdSum e src r g ix t m s
  | .lrdMax e src r g ix t => Sys2Proof.Machine.execLrdMax e src r g ix t s
  | .lrdMin e src r g ix t => Sys2Proof.Machine.execLrdMin e src r g ix t s
  | .mxMma c a b n d h src l => Sys2Proof.Machine.execMxMma c a b n d h src l s
  | .mxFill src w t g p => Sys2Proof.Machine.execMxFill src w t g p s
  | .mxFillRing src t k => Sys2Proof.Machine.execMxFillRing src t k s
  | .mxClaim src => Sys2Proof.Machine.execMxClaim src s
  | .mxRelease src => Sys2Proof.Machine.execMxRelease src s
  | .mxReleaseShort src => Sys2Proof.Machine.execMxReleaseShort src s
  | .mxTanch c m a => Sys2Proof.Machine.execMxTanch c m a s
  | .mxTinit c => Sys2Proof.Machine.execMxTinit c s
  | .mxTcfg c r k => Sys2Proof.Machine.execMxTcfg c r k s
  | .mxResolveMfile c f m n t => Sys2Proof.Machine.execMxResolveMfile c f m n t s
  | .mxResolveAbuf c f m n g p => Sys2Proof.Machine.execMxResolveAbuf c f m n g p s
  | .mxResolveSelf c m n => Sys2Proof.Machine.execMxResolveSelf c m n s
  | .mxTcmp a b r p g src => Sys2Proof.Machine.execMxTcmp a b r p g src s
  | .mxTcmpThreshold a r p g src => Sys2Proof.Machine.execMxTcmpThreshold a r p g src s
  | .mxSpill c g src => Sys2Proof.Machine.execMxSpill c g src s
  | .mxReload c g src => Sys2Proof.Machine.execMxReload c g src s
  | .mxMark n => Sys2Proof.Machine.execMxMark n s
  | .mxGate m => Sys2Proof.Machine.execMxGate m s
  | .subarrayIdleGate q => Sys2Proof.Machine.execSubarrayIdleGate q s
  | .cxCommandEnd k => Sys2Proof.Machine.execCxCommandEnd k s
  | .engineCommandRetire a k => Sys2Proof.Machine.execEngineCommandRetire a k s
  | .markerRetire a => Sys2Proof.Machine.execMarkerRetire a s
  | .faultActionRestart a => Sys2Proof.Machine.execFaultActionRestart a s
  | .faultActionDiscard a => Sys2Proof.Machine.execFaultActionDiscard a s
  | .faultActionFreeze a => Sys2Proof.Machine.execFaultActionFreeze a s
  | .correctedError sram line a => Sys2Proof.Machine.execCorrectedError sram line a s
  | .placement team chosen => Sys2Proof.Machine.execPlacement team chosen s
  | .preemptionDecision newcomer => Sys2Proof.Machine.execPreemptionDecision newcomer s
  | .saveComplete team => Sys2Proof.Machine.execSaveComplete team s
  | .resume team => Sys2Proof.Machine.execResume team s
  | .islandRampComplete ix => Sys2Proof.Machine.execIslandRampComplete ix s
  | .droop ix => Sys2Proof.Machine.execDroop ix s
  | .droopStretchEnd ix => Sys2Proof.Machine.execDroopStretchEnd ix s
  | .overCurrent ix => Sys2Proof.Machine.execOverCurrent ix s
  | .regulatorPhaseFailure ix phase => Sys2Proof.Machine.execRegulatorPhaseFailure ix phase s
  | .regulatorFailure ix => Sys2Proof.Machine.execRegulatorFailure ix s
  | .serviceCompletion k err value data => Sys2Proof.Machine.execServiceCompletion k err value data s
  | .lentPageReturn part page => Sys2Proof.Machine.execLentPageReturn part page s
  | .hostAccess write path stream pa bytes => Sys2Proof.Machine.execHostAccess write path stream pa bytes s
  | .peerAccess write pa bytes => Sys2Proof.Machine.execPeerAccess write pa bytes s
  | .chimneyFlit port tx crcFails head body => Sys2Proof.Machine.execChimneyFlit port tx crcFails head body s
  | .chimneyPortDown port => Sys2Proof.Machine.execChimneyPortDown port s
  | .interfaceError tdi => Sys2Proof.Machine.execInterfaceError tdi s
  | .sessionExpiry tdi => Sys2Proof.Machine.execSessionExpiry tdi s
  | .stopInterface tdi => Sys2Proof.Machine.execStopInterface tdi s
  | .startInterface tdi => Sys2Proof.Machine.execStartInterface tdi s
  | .resetRelease image => Sys2Proof.Machine.execResetRelease image s
  | .queueTailWrite p q v => Sys2Proof.Machine.execQueueTailWrite p q v s
  | .queueEnable p q v => Sys2Proof.Machine.execQueueEnable p q v s
  | .queueSkip p q => Sys2Proof.Machine.execQueueSkip p q s
  | .packetNop p q => Sys2Proof.Machine.execPacketNop p q s
  | .packetLaunch p q => Sys2Proof.Machine.execPacketLaunch p q s
  | .packetFeed p q => Sys2Proof.Machine.execPacketFeed p q s
  | .feedAppend p q => Sys2Proof.Machine.execFeedAppend p q s
  | .packetPred p q => Sys2Proof.Machine.execPacketPred p q s
  | .packetGraph p q => Sys2Proof.Machine.execPacketGraph p q s
  | .packetSignal p q => Sys2Proof.Machine.execPacketSignal p q s
  | .packetInval p q => Sys2Proof.Machine.execPacketInval p q s
  | .packetLoop p q => Sys2Proof.Machine.execPacketLoop p q s
  | .loopIteration p q => Sys2Proof.Machine.execLoopIteration p q s
  | .packetBreak p q => Sys2Proof.Machine.execPacketBreak p q s
  | .placementOrder team => Sys2Proof.Machine.execPlacementOrder team s
  | .partitionConfigWrite p off v => Sys2Proof.Machine.execPartitionConfigWrite p off v s
  | .tlbInvalidate p v => Sys2Proof.Machine.execTlbInvalidate p v s
  | .freezeResume p tcb => Sys2Proof.Machine.execFreezeResume p tcb s
  | .freezeKill p tcb => Sys2Proof.Machine.execFreezeKill p tcb s
  | .haltRequest c v => Sys2Proof.Machine.execHaltRequest c v s
  | .shadowBankRead c => Sys2Proof.Machine.execShadowBankRead c s
  | .timetableEntryWrite c off v => Sys2Proof.Machine.execTimetableEntryWrite c off v s
  | .registerWrite off v => Sys2Proof.Machine.execRegisterWrite off v s
  | .contractCommit v => Sys2Proof.Machine.execContractCommit v s
  | .islandOn ix => Sys2Proof.Machine.execIslandOn ix s
  | .islandOff ix => Sys2Proof.Machine.execIslandOff ix s
  | .islandRetainedOff ix => Sys2Proof.Machine.execIslandRetainedOff ix s
  | .errcfgWrite v => Sys2Proof.Machine.execErrcfgWrite v s
  | .errorInjectArm k v => Sys2Proof.Machine.execErrorInjectArm k v s
  | .recoveryGo image => Sys2Proof.Machine.execRecoveryGo image s
  | .chimneyModeWrite port v => Sys2Proof.Machine.execChimneyModeWrite port v s
  | .digclr port => Sys2Proof.Machine.execDigclr port s
  | .breakpointStop k => Sys2Proof.Machine.execBreakpointStop k s
  | .latencyInjectArm k v => Sys2Proof.Machine.execLatencyInjectArm k v s
  | .overCurrentEnd ix => Sys2Proof.Machine.execOverCurrentEnd ix s
  | .chimneyPortUp port ok lanes => Sys2Proof.Machine.execChimneyPortUp port ok lanes s
  | .lockInterface tdi => Sys2Proof.Machine.execLockInterface tdi s
  | .keyExchange tdi period => Sys2Proof.Machine.execKeyExchange tdi period s
  | .heartbeat tdi => Sys2Proof.Machine.execHeartbeat tdi s
  | .measurementReportRequest tdi => Sys2Proof.Machine.execMeasurementReportRequest tdi s
  | .preheaterBuildComplete p q picks => Sys2Proof.Machine.execPreheaterBuildComplete p q picks s
  | .rv64Base ix => Sys2Proof.Machine.execRv64Base ix s
  | .tagWrite => Sys2Proof.Machine.execTagWrite s
  | .skSegend => Sys2Proof.Machine.execSkSegend s
  | .skSegendTask => Sys2Proof.Machine.execSkSegendTask s
  | .fenceI => Sys2Proof.Machine.execFenceI s
  | .wfi => Sys2Proof.Machine.execWfi s
  | .sret => Sys2Proof.Machine.execSret s
  | .interruptTake => Sys2Proof.Machine.execInterruptTake s
  | .queueLowEntry => Sys2Proof.Machine.execQueueLowEntry s
  | .lateSegmentTrap => Sys2Proof.Machine.execLateSegmentTrap s
  | .watchdogFreeze => Sys2Proof.Machine.execWatchdogFreeze s
  | .vxRunStart => Sys2Proof.Machine.execVxRunStart s
  | .vxResultLand => Sys2Proof.Machine.execVxResultLand s
  | .vxClusterWake => Sys2Proof.Machine.execVxClusterWake s
  | .mxNop => Sys2Proof.Machine.execMxNop s
  | .mxRunStart => Sys2Proof.Machine.execMxRunStart s
  | .cxCopyStart => Sys2Proof.Machine.execCxCopyStart s
  | .cxPeerStart => Sys2Proof.Machine.execCxPeerStart s
  | .cxFillStart => Sys2Proof.Machine.execCxFillStart s
  | .cxRingStart => Sys2Proof.Machine.execCxRingStart s
  | .cxPretrStart => Sys2Proof.Machine.execCxPretrStart s
  | .cxFlushStart => Sys2Proof.Machine.execCxFlushStart s
  | .gxGatherStart => Sys2Proof.Machine.execGxGatherStart s
  | .gxBagStart => Sys2Proof.Machine.execGxBagStart s
  | .gxScaddStart => Sys2Proof.Machine.execGxScaddStart s
  | .gxCountStart => Sys2Proof.Machine.execGxCountStart s
  | .fxCfgStart => Sys2Proof.Machine.execFxCfgStart s
  | .fxPassStart => Sys2Proof.Machine.execFxPassStart s
  | .clAllredStart => Sys2Proof.Machine.execClAllredStart s
  | .clRedscStart => Sys2Proof.Machine.execClRedscStart s
  | .clAllgatStart => Sys2Proof.Machine.execClAllgatStart s
  | .clBcastStart => Sys2Proof.Machine.execClBcastStart s
  | .clBarrierStart => Sys2Proof.Machine.execClBarrierStart s
  | .collectiveCompletion => Sys2Proof.Machine.execCollectiveCompletion s
  | .taskRetirement => Sys2Proof.Machine.execTaskRetirement s
  | .intervalStep => Sys2Proof.Machine.execIntervalStep s
  | .breachClear => Sys2Proof.Machine.execBreachClear s
  | .fwcommit => Sys2Proof.Machine.execFwcommit s
  | .sootStop => Sys2Proof.Machine.execSootStop s
  | .sampleRecord => Sys2Proof.Machine.execSampleRecord s
  | .hostPortDown => Sys2Proof.Machine.execHostPortDown s

end Sys2Proof.Machine
end

