-- ==== Sys2Proof/Machine/Turns.lean ====
section
/-! DEFINITION. The turns of which a run consists (DESIGN CHOICE, logs 5 and 6): a Stoker's turn, with what comes before the next
instruction; VX's and MX's turns; events; the Stoker's accesses performing; time. And where a word stands to be fetched
next (DESIGN CHOICE, log 13). -/
namespace Sys2Proof.Machine

/-! ### The Stoker -/

/-- Core c is powered, clocked and not halted (16_system_state.md R278, 24_power_bringup.md R345). -/
def State.coreOn (s : State) (c : Nat) : Bool := s.up && !(s.core c).halted && (s.island c).pstate == 2

/-- n bytes at the next instruction's address, from o on. In M-mode the address is physical (DEDUCED, log 8; DEDUCED, log 16). -/
def State.fetchAt (s : State) (o n : Nat) : Fetch :=
  let pc := s.my.pc.toNat + o
  if s.my.mode = .m then
    if physExists pc && physExists (pc + n - 1) then
      let q := Actor.core s.cur .sk
      let e := s.readErrors q s.me.b.part.toNat false (.dev pc) n pc
      if e.2 then .error e.1 else .ok (e.1.readPlace q (.dev pc) n) e.1
    else .hole
  else s.fetchCode s.cur .sk (s.my.mode == .u) pc n

/-- What a fetch that brought no bytes from offset o does: a page fault, an access fault, or a freeze (16_system_state.md
R273; 07_encoding.md R147; 20_translation_faults.md R315). -/
def fetchStop (o : Nat) (r : Fetch) : Res :=
  match r with
  | .page s => s.trap 12 (s.my.pc + BitVec.ofNat 64 o) 0
  | .image s => s.trap 1 (s.my.pc + BitVec.ofNat 64 o) 0
  | .error s => s.trap 1 (s.my.pc + BitVec.ofNat 64 o) 0
  | .violation s => s.violate
  | .hole => .fault .noSuchMemory
  | .ok _ s => .next s

/-- A fetched word executes, or meets the fate of what is no instruction (07_encoding.md R148). -/
def State.runBytes (s : State) (bs : List Byte) : Res :=
  match decodeBytes bs with
  | .ok (i, n) => exec i (s.modCore s.cur fun k => { k with ilen := n })
  | .error _ => s.illegal

/-- The low two bits of a halfword say whether the instruction has a second one. -/
def isLong (bs : List Byte) : Bool := (bs.head?.getD 0).extractLsb' 0 2 == 3#2

/-- The next instruction is fetched and executed. -/
def State.fetchExec (s : State) : Res :=
  match s.fetchAt 0 2 with
  | .ok b1 s =>
    if !isLong b1 then s.runBytes b1
    else
      match s.fetchAt 2 2 with
      | .ok b2 s => s.runBytes (b1 ++ b2)
      | r => fetchStop 2 r
  | r => fetchStop 0 r

/-- A breakpoint names the Stoker's next instruction (25_debug.md R352). -/
def State.stokerBreak (s : State) : Option Nat := (List.range 8).find? fun k => s.brkHit k == some (s.cur, .sk)

/-- What comes at the instruction boundary before the next instruction, if anything: the watchdog, a queue-low entry, an
interrupt, the late-segment trap, a breakpoint (20_translation_faults.md R311, R314; 08_stoker_isa.md R176; DEDUCED, log 78). -/
def State.boundary (s : State) : Option Instr :=
  if s.me.task.isSome && s.overrun 4 then some .watchdogFreeze
  else if s.my.queueLow then some .queueLowEntry
  else if s.me.interruptM.isSome || s.me.interruptS.isSome then some .interruptTake
  else if s.overrun 2 && !s.my.lateDone && s.my.mode == .u then some .lateSegmentTrap
  else s.stokerBreak.map .breakpointStop

/-- The next instruction is an `sk.wfe` that has something to report, or no source armed: it samples before an interrupt is
taken (08_stoker_isa.md R159). -/
def State.wfeReady (s : State) : Bool :=
  (s.my.arm == 0 || s.my.latch &&& s.my.arm != 0) &&
  (match s.fetchAt 0 4 with
    | .ok bs _ => match decodeBytes bs with
      | .ok (.skWfe _, _) => true
      | _ => false
    | _ => false)

/-- The Stoker's turn on the acting core. -/
def State.stokerTurn (s : State) : Res :=
  if !s.coreOn s.cur then .next s
  else if s.me.hold = .switching then .next (s.finishSwitch s.cur)
  else if s.me.hold ≠ .none then .next s
  else
    match s.boundary with
    | some .interruptTake => if s.wfeReady then s.fetchExec else exec .interruptTake s
    | some i => exec i s
    | none => s.fetchExec

/-! ### VX and MX -/

/-- The block of a run is fetched afresh for its next iteration (07_encoding.md R124): its words, and not its header again
(DEDUCED, log 80). -/
def State.refetch (s : State) (a : Agent) (entry code n k : Nat) (put : List (BitVec 16) → Ctx → Ctx) : Res :=
  let c := s.cur
  match (s.my.entry? a entry) with
  | none => .next s
  | some e =>
    if !s.me.enginesRun || s.my.stopped a then .next s
    else
      match s.fetchBlock c a code n 2 [] with
      | .ok hws s => .next (s.upd (put hws))
      | .stop f h s => .next (s.engineFault c a e f (streamProgress k 0 h))
      | .hole => .fault .noSuchMemory

/-- VX's turn: the word at its position, the next entry, or a cycle without a bundle (09_vector_isa.md R181). -/
def State.vxTurn (s : State) : Res :=
  if !s.coreOn s.cur then .next s
  else
    match s.my.vx.run with
    | some r =>
      if r.hws.isEmpty then
        s.refetch .vx r.entry r.code r.length r.k fun hws x => { x with vx := { x.vx with run := some { r with hws := hws } } }
      else
        match decodeStream false (r.hws.drop r.pos) with
        | .ok (i, _) => exec i s
        | .error .reservedPort => s.vxBad .reservedPort
        | .error _ => s.vxBad .illegalWord
    | none =>
      match s.my.nextEntry .vx with
      | some e =>
        let free := (s.my.holders e.id e.rd e.wr).isEmpty
        match e.cmd with
        | .vxRfcl _ => s.vxRfclStart
        | _ =>
          if !s.my.vx.flight.isEmpty || s.broken s.cur .vx e then exec .vxResultLand s
          else if free then exec .vxRunStart s
          else
            match exec .vxRunStart s with
            | .next t => exec .vxClusterWake t
            | r => r
      | none => exec .vxResultLand s

/-- MX's turn: the word at its position, or the next entry (10_matrix_isa.md R205, R224). -/
def State.mxTurn (s : State) : Res :=
  if !s.coreOn s.cur then .next s
  else
    match s.my.mx.run with
    | some r =>
      if r.hws.isEmpty then
        s.refetch .mx r.entry r.code r.length r.k fun hws x => { x with mx := { x.mx with run := some { r with hws := hws } } }
      else
        match decodeStream true (r.hws.drop r.pos) with
        | .ok (i, _) => exec i s
        | .error _ => s.mxIllegal
    | none =>
      match s.my.nextEntry .mx with
      | some e =>
        match e.cmd with
        | .mxRun _ _ _ => exec .mxRunStart s
        | .mxBind => s.mxBindStart
        | .mxWord w _ =>
          match decodeMxFull w with
          | .ok i => exec i s
          | .error _ => s.mxIllegal
        | _ => .next s
      | none => .next s

/-! ### The turns -/

/-- A step of an engine, of the device or of the host. An instruction that has a word is executed by its own stream
only. -/
def State.eventTurn (s : State) (i : Instr) : Res :=
  match encode i with
  | some _ => .next s
  | none => exec i s

/-- A core receives ec engine cycles: `cycle` and the segment's count advance (08_stoker_isa.md R357, 01_machine.md R19).
Those of a timetable switch are the incoming context's (19_scheduling.md R300). -/
def State.elapse (s : State) (c ec : Nat) : State :=
  if !s.coreOn c then s
  else
    s.modCore c fun k =>
      if k.hold = .switching then { k with loadec := k.loadec + ec } else { k with ctx := k.ctx.spend ec }

/-- The group of the held copy `id` performs: the copy's start is carried out (06_ordering.md R101; DESIGN CHOICE, log 110). One
that would meet a fault while a fault of CX stands waits with it. -/
def State.groupTurn (s : State) (id : Nat) : Res :=
  if !((s.my.entry? .cx id).any (·.held)) then .next s
  else
    let r := [Instr.cxCopyStart, .cxPeerStart, .cxFillStart, .cxRingStart].foldl (fun (r : Res) i => match r with
      | .next s => exec i s
      | r => r) (.next (s.upd fun x => { x with cxFocus := some id }))
    match r with
    | .next t =>
      if s.my.stopped .cx && (t.my.entry? .cx id).any (fun e => !e.started && !e.held) then .next s
      else .next (t.upd fun x => { x with cxFocus := none })
    | r => r

/-- One turn. -/
def State.run (s : State) (t : Turn) : Res :=
  match t with
  | .stoker c => { s with cur := c }.stokerTurn
  | .vx c => { s with cur := c }.vxTurn
  | .mx c => { s with cur := c }.mxTurn
  | .event c i => { s with cur := c }.eventTurn i
  | .perform c k => .next (s.performEntry c k)
  | .widen k => .next (s.widen k)
  | .elapse c ec => .next (s.elapse c ec)
  | .tick ec n => .next { s with ec := s.ec + ec, time := s.time + n }
  | .drain c a id n => .next (if goesOn a then s.drain c a id n else s)
  | .begin c => .next (s.holdCopy c)
  | .group c id => { s with cur := c }.groupTurn id
  | .evict k => .next { s with tlb := dropAt s.tlb k }
  | .payload k => .next (s.readPayload k)
  | .sramError x => .next (if s.bad.contains x then s else { s with bad := s.bad ++ [x] })
  | .handle h part => .next (s.assignHandle h part)
  | .hdm p base bytes => .next { s with hdm := Tbl.put (0, 0) s.hdm p (base, bytes) }
  | .writeBack c => .next (s.writeBack c)

/-- The first turn of the plan, or the acting core's Stoker where the plan is empty. -/
def State.turn (s : State) : Res :=
  match s.plan with
  | t :: rest => { s with plan := rest }.run t
  | [] => s.stokerTurn

/-! ### Where a word stands to be fetched next (DESIGN CHOICE, log 13) -/

/-- The acting core is powered and issues. -/
def State.awake (s : State) : State :=
  ({ s with up := true }.modIsland s.cur fun x => { x with cmd := 1, pstate := 2 }).modCore s.cur fun k =>
    { k with halted := false, haltReq := false, hold := .none }

/-- Bytes at the next instruction's address. -/
def State.placeCode (s : State) (bs : List Byte) : State :=
  let pc := s.my.pc.toNat
  let at' := if s.my.mode = .m then pc else (s.hwAddr s.me.b.part.toNat pc).getD pc
  let s := s.modCore s.cur fun k => { k with b := { k.b with codebase := 0 } }
  { s with plan := [], mem := s.mem.writeN at' bs }

/-- A record of one iteration that allows every window. -/
def openRec : RunRec where
  repeatN := 1
  args := [0, 0, 0, 0]
  rdBase := 0
  rdLen := 2 ^ 32
  wrBase := 0
  wrLen := 2 ^ 32
  rdW := false
  slotWr := 0xFFFFFFFF#32
  slotRd := 0xFFFFFFFF#32
  ok := true

/-- A queue entry of a run that has started. -/
def runEntry (id : Nat) (cmd : Cmd) (binds : Binds) : Entry where
  id := id
  qpos := 0
  cmd := cmd
  cls := 0
  binds := binds
  rd := []
  wr := []
  scored := false
  pushed := true
  started := true
  begun := true
  held := false
  complete := false
  todo := []
  top := none
  prog := 0
  token := none
  code := 0
  seq := 0
  writes := []
  scope := 2
  met := []
  tops := []
  tiles := []

/-- Halfwords as the word VX stands at, in a run of one iteration. -/
def State.placeVx (s : State) (hws : List (BitVec 16)) : State :=
  let s := s.upd fun x =>
    { x with
      vxq := [runEntry x.nextCmd (.vxRun 0 0 openRec) x.mx.binds], nextCmd := x.nextCmd + 1
      vx := { x.vx with
        run := some { entry := x.nextCmd, hws := hws, code := 0, length := hws.length, count := 1, n := 1, stages := 0,
                      rot := false, k := 0, pos := 0, first := 0, st := 1, bundle := [] } } }
  { s with plan := [.vx s.cur] }

/-- Halfwords as the word MX stands at, in a run of one iteration. -/
def State.placeMx (s : State) (hws : List (BitVec 16)) : State :=
  let s := s.upd fun x =>
    { x with
      mxq := [runEntry x.nextCmd (.mxRun 0 0 openRec) x.mx.binds], nextCmd := x.nextCmd + 1
      mx := { x.mx with
        run := some { entry := x.nextCmd, hws := hws, code := 0, length := hws.length, n := 1, k := 0, pos := 0 } } }
  { s with plan := [.mx s.cur] }

/-- A table word of nbits bits placed in the stream that decodes it, with zeros after it. -/
def State.placeWord (s : State) (nbits w : Nat) : State :=
  let long := [BitVec.ofNat 16 (w / 2 ^ 16), BitVec.ofNat 16 w, 0#16]
  let short := [BitVec.ofNat 16 w, 0#16]
  let s := s.awake
  if nbits = 32 ∧ (accepted (decodeStoker (BitVec.ofNat 32 w))).isSome then s.placeCode (leBytes 4 w)
  else
    match (decodeTableWord nbits w).bind encode with
    | some (.vxFull _) => s.placeVx (long.take (wordHalves false (BitVec.ofNat 16 (w / 2 ^ 16))))
    | some (.vxHalf _) => s.placeVx (short.take (wordHalves false (BitVec.ofNat 16 w)))
    | some (.mxFull _) => s.placeMx (long.take 2)
    | some (.mxHalf _) => s.placeMx (short.take 1)
    | _ => s.placeCode (leBytes 4 w)

end Sys2Proof.Machine
end

