-- ==== Sys2Proof/Machine/Step.lean ====
section
/-! DEFINITION. One step of the device, and where a word of the opcode table stands to be run by the next step. -/
namespace Sys2Proof.Machine

/-- One step: the next turn of the plan, or the acting core's Stoker (DESIGN CHOICE, log 5). -/
def step (s : State) : Host.Outcome State Fault Refusal := s.turn

/-- The state with a table word of nbits bits where step fetches its next instruction (DESIGN CHOICE, log 13). -/
def State.withFetchWord (s : State) (nbits w : Nat) : State := s.placeWord nbits w

end Sys2Proof.Machine
end

