-- ==== Sys2Proof/Safety.lean ====
section
/-! DEFINITION. What counts as a safe run, in the terms the statements use: the invariant that every step keeps, and the
conditions on a state under which an instruction has its own effect. -/
namespace Sys2Proof.Machine

/-- Device and host memory stand in their canonical form (DESIGN CHOICE, log 2). -/
def State.memOk (s : State) : Prop := s.mem.wf = true ∧ s.hmem.wf = true

/-! ### Conditions of the Stoker's instructions -/

/-- No register that the instruction names is owed a result, and no source holds what an uncorrectable load left
(08_stoker_isa.md R149, R150). -/
def State.regsReady (s : State) (srcs dsts : List Dest) : Prop :=
  srcs.any s.my.pending = false ∧ dsts.any s.my.pending = false ∧ srcs.findSome? s.my.poisoned = none

/-- The registers a base instruction reads and writes, where its rounding mode and its CSR let it come to them
(07_encoding.md R121). -/
def State.rvRegs (s : State) (i : RvInstr) : Option (List Dest × List Dest) :=
  let fp := fun (rm : BitVec 3) (srcs dsts : List Dest) => if (rvRm rm s.my.frm).isSome then some (srcs, dsts) else none
  match i with
  | .lui rd _ => some ([], [destX rd])
  | .auipc rd _ => some ([], [destX rd])
  | .jal rd _ => some ([], [destX rd])
  | .jalr rd rs1 _ => some ([destX rs1], [destX rd])
  | .branch _ rs1 rs2 _ => some ([destX rs1, destX rs2], [])
  | .alu _ rd rs1 rs2 => some ([destX rs1, destX rs2], [destX rd])
  | .aluImm _ rd rs1 _ => some ([destX rs1], [destX rd])
  | .shift _ rd rs1 _ => some ([destX rs1], [destX rd])
  | .unary _ rd rs1 => some ([destX rs1], [destX rd])
  | .csrRead _ _ rd csr =>
    if csrMode s.my.mode csr.toNat && (s.csrRead csr.toNat).isSome then some ([], [destX rd]) else none
  | .ecall => none
  | .ebreak => none
  | .mret => none
  | .fpArith _ _ rm rd rs1 rs2 => fp rm [.f rs1, .f rs2] [.f rd]
  | .fpSqrt _ rm rd rs1 => fp rm [.f rs1] [.f rd]
  | .fpFma _ _ rm rd rs1 rs2 rs3 => fp rm [.f rs1, .f rs2, .f rs3] [.f rd]
  | .fpSel _ _ rd rs1 rs2 => some ([.f rs1, .f rs2], [.f rd])
  | .fpCmp _ _ rd rs1 rs2 => some ([.f rs1, .f rs2], [destX rd])
  | .fpClass _ rd rs1 => some ([.f rs1], [destX rd])
  | .fpToInt _ _ rm rd rs1 => fp rm [.f rs1] [destX rd]
  | .intToFp _ _ rm rd rs1 => fp rm [destX rs1] [.f rd]
  | .fpCvt _ rm rd rs1 => fp rm [.f rs1] [.f rd]
  | .fpMvToInt _ rd rs1 => some ([.f rs1], [destX rd])
  | .intMvToFp _ rd rs1 => some ([destX rs1], [.f rd])

/-- The registers an instruction of the Stoker reads and writes, where it comes to them; none for the others
(08_stoker_isa.md R149). -/
def State.stokerRegs (s : State) (i : Instr) : Option (List Dest × List Dest) :=
  let csr := fun (uimm : Bool) (rs1 : Reg) => if uimm then [] else [destX rs1]
  match i with
  | .rv64Base i => s.rvRegs i
  | .rv64Load k rd rs1 _ => some ([destX rs1], [if (loadForm k).2.2 then .f rd else destX rd])
  | .rv64Store k rs2 rs1 _ => some ([destX rs1, if (storeForm k).2 then .f rs2 else destX rs2], [])
  | .amo _ _ _ _ rd rs1 rs2 => some ([destX rs1, destX rs2], [destX rd])
  | .lr _ _ _ rd rs1 => some ([destX rs1], [destX rd])
  | .sc _ _ _ rd rs1 rs2 => some ([destX rs1, destX rs2], [destX rd])
  | .sfenceVma rs1 rs2 =>
    if s.my.mode = .u ∨ (s.my.mode = .s ∧ s.my.csr.mstatus.getLsbD 20) then none else some ([destX rs1, destX rs2], [])
  | .csrWrite _ u rd rs1 _ => some (csr u rs1, [destX rd])
  | .yeventWrite _ u rd rs1 => some (csr u rs1, [destX rd])
  | .ywmWrite _ u rd rs1 => some (csr u rs1, [destX rd])
  | .ymxstAccess _ u rd rs1 => some (csr u rs1, [destX rd])
  | .ydxstAccess _ u rd rs1 => some (csr u rs1, [destX rd])
  | .vxRun b a => some ([destX a, destX b], [])
  | .mxRun b a => some ([destX a, destX b], [])
  | .mxPushw b a => some ([destX a, destX b], [])
  | .cxCopy a d => some ([destX a], [destX d])
  | .cxCopy2 a d => some ([destX a], [destX d])
  | .cxPeer a d => some ([destX a], [destX d])
  | .cxFill a d => some ([destX a], [destX d])
  | .cxRing a d => some ([destX a], [destX d])
  | .cxPretr a d => some ([destX a], [destX d])
  | .cxFlush a d => some ([destX a], [destX d])
  | .cxCancel a => some ([destX a], [])
  | .cxWait a d => some ([destX a], [destX d])
  | .cxTest a d => some ([destX a], [destX d])
  | .gxGather a => some ([destX a], [])
  | .gxBag a => some ([destX a], [])
  | .gxScadd a => some ([destX a], [])
  | .gxCount a => some ([destX a], [])
  | .fxPass a => some ([destX a], [])
  | .fxCfg a => some ([destX a], [])
  | .clAllred a => some ([destX a], [])
  | .clRedsc a => some ([destX a], [])
  | .clAllgat a => some ([destX a], [])
  | .clBcast a => some ([destX a], [])
  | .ringTake _ d => some ([], [destX d])
  | .ringStat _ d => some ([], [destX d])
  | .ringCfg b a _ => some ([destX a, destX b], [])
  | .skBuffmtA _ b a _ => some ([destX a, destX b], [])
  | .skBuffmtW _ b a _ => some ([destX a, destX b], [])
  | .skMark _ _ a _ => some ([destX a], [])
  | .skRdvtest _ d => some ([], [destX d])
  | .skWfe d => some ([], [destX d])
  | .skSend a _ => some ([destX a], [])
  | .skRecv d => some ([], [destX d])
  | .dqPush a d => some ([destX a], [destX d])
  | .dqPop d => some ([], [destX d])
  | .dqSteal d => some ([], [destX d])
  | .feedPop a d => some ([destX a], [destX d])
  | .skBudget d => some ([], [destX d])
  | .abAmoadd _ b a d => some ([destX a, destX b], [destX d])
  | .abAmoswap _ b a d => some ([destX a, destX b], [destX d])
  | .abAmoxor _ b a d => some ([destX a, destX b], [destX d])
  | .abAmoor _ b a d => some ([destX a, destX b], [destX d])
  | .abAmoand _ b a d => some ([destX a, destX b], [destX d])
  | .abAmomin _ b a d => some ([destX a, destX b], [destX d])
  | .abAmomax _ b a d => some ([destX a, destX b], [destX d])
  | .abAmominu _ b a d => some ([destX a, destX b], [destX d])
  | .abAmomaxu _ b a d => some ([destX a, destX b], [destX d])
  | .skSvc a d => some ([destX a], [destX d])
  | .skLend a d => some ([destX a], [destX d])
  | .abLoad _ _ b a _ d => some ([destX a, destX b], [destX d])
  | .abStore _ b a _ => some ([destX a, destX b], [])
  | .wbLoad _ _ b a _ d => some ([destX a, destX b], [destX d])
  | .wbStore _ b a _ => some ([destX a, destX b], [])
  | .skClLoad _ _ b a _ d => some ([destX a, destX b], [destX d])
  | .skCsStore _ b a _ => some ([destX a, destX b], [])
  | .skShape a _ => some ([destX a], [])
  | .skTgeom a _ => some ([destX a], [])
  | .skVariant _ a d => some ([destX a], [destX d])
  | _ => none

/-- A global access of the Stoker lands at p on a page with the attributes attr; t is the state after its translation
(20_translation_faults.md R307 to R310). M-mode addresses are physical. -/
def State.lands (s : State) (acc : Acc) (va : Word) (p : Place) (attr : Nat) (t : State) : Prop :=
  (s.my.mode = .m ∧ physExists va.toNat = true ∧ p = .dev va.toNat ∧ attr = 0 ∧ t = s) ∨
  (s.my.mode ≠ .m ∧ s.translate (.core s.cur .sk) s.me.b.part.toNat acc (s.my.mode == .u) va.toNat = (.ok p attr, t))

/-- A global access of the Stoker does not land, and r is what it answers (20_translation_faults.md R307 to R311, R315): a page
fault takes cause 13, or 15 for a write, with the address in stval; an access that breaks isolation does not perform, and its
team is frozen in place; where there is no memory the machine stops. -/
def State.misses (s : State) (acc : Acc) (va : Word) (r : Res) : Prop :=
  let tr := s.translate (.core s.cur .sk) s.me.b.part.toNat acc (s.my.mode == .u) va.toNat
  (s.my.mode = .m ∧ physExists va.toNat = false ∧ r = .fault .noSuchMemory) ∨
  (s.my.mode ≠ .m ∧ ∃ t : State,
    (tr = (.fault, t) ∧ r = .next (t.takeTrap (if acc = .write then 15 else 13) va 0)) ∨
    (tr = (.violation, t) ∧ r = .next (t.freezeCore t.cur 2 0 0)) ∨
    (tr = (.hole, t) ∧ r = .fault .noSuchMemory))

/-- A typed access of n bytes at t lands at p: through the team window, or in the own buffer where no older command that
conflicts with it stands on the scoreboard (05_local_memory.md R79, R89). -/
def State.typedLands (s : State) (inW : Bool) (t : Typed) (n : Nat) (write : Bool) (p : Place) : Prop :=
  t = .team p ∨
  ∃ lo, t = .own lo p ∧
    s.my.holders s.my.nextCmd (if write then [] else [typedRange inW lo n]) (if write then [typedRange inW lo n] else []) = []

/-- A push has room: no typed access of the Stoker is outstanding, and queue and scoreboard have a free place
(05_local_memory.md R89, R90). -/
def State.room (s : State) (r : PushReq) : Prop :=
  s.my.sq.any (·.typed) = false ∧ s.my.full r.agent = false ∧ (r.scored = true → s.my.scored < 64)

/-- The record of a push at ABUF offset off is readable and holds bs: aligned, in the footprint or the window, no
conflicting command older, no class queue it would pass, and no uncorrectable error in it (08_stoker_isa.md R155, 07_encoding.md R136). -/
def State.record (s : State) (off : Nat) (bs : List Byte) : Prop :=
  off % 64 = 0 ∧ ∃ p, s.typedLands false (s.aSpace s.cur off 64) 64 false p ∧
    s.my.sq.any (fun e => e.typed || e.classes &&& classBit s.my.ycls != 0) = false ∧
    (s.sramErrors (.core s.cur .sk) s.me.b.part.toNat (p.sram false 64)).2 = false ∧
    bs = s.readPlace (.core s.cur .sk) p 64

/-- The page of a store is not lent, for a mode that translates (08_stoker_isa.md R174). -/
def State.unlent (s : State) (va : Word) : Prop :=
  (s.my.mode != .m && s.isLent s.me.b.part.toNat va.toNat) = false

/-- Entry k of the acting Stoker's class queues is e and may perform: the core's accesses advance, it heads every queue it
occupies, and no older access shares a byte with it (06_ordering.md R101). -/
def State.mayPerform (s : State) (k : Nat) (e : SqEnt) : Prop :=
  s.my.sq[k]? = some e ∧ s.me.enginesRun = true ∧ s.my.atHead k e = true

/-- A Stoker read of n bytes at a place meets no error (20_translation_faults.md R318). -/
def State.clean (s : State) (p : Place) (n : Nat) (uez : Bool) (va : Word) : Prop := s.readError s.cur p n uez va = (s, false)

/-- No write in the coherence order lists an address twice, so that its cells are one value for each byte. -/
def State.distinct (s : State) : Prop := ∀ w ∈ s.pend, (w.cells.map (·.1)).Nodup

/-- The ABUF atomic of an operation (08_stoker_isa.md R163). -/
def abAmoOf (op : AmoOp) (w : BitVec 1) (b a d : Reg) : Instr :=
  match op with
  | .add => .abAmoadd w b a d
  | .swap => .abAmoswap w b a d
  | .xor => .abAmoxor w b a d
  | .or => .abAmoor w b a d
  | .and => .abAmoand w b a d
  | .min => .abAmomin w b a d
  | .max => .abAmomax w b a d
  | .minu => .abAmominu w b a d
  | .maxu => .abAmomaxu w b a d

/-- The record pushes without a token: agent, pushing funct7, and the register that holds the record's offset
(07_encoding.md R116, 08_stoker_isa.md R155). -/
def pushForm (i : Instr) : Option (Agent × Nat × Reg) :=
  match i with
  | .gxGather a => some (.gx, 0, a)
  | .gxBag a => some (.gx, 1, a)
  | .gxScadd a => some (.gx, 2, a)
  | .gxCount a => some (.gx, 3, a)
  | .fxPass a => some (.fx, 0, a)
  | .fxCfg a => some (.fx, 1, a)
  | .clAllred a => some (.cl, 0, a)
  | .clRedsc a => some (.cl, 1, a)
  | .clAllgat a => some (.cl, 2, a)
  | .clBcast a => some (.cl, 3, a)
  | _ => none

/-- The CX pushes: funct7, the register of the record's offset, and the register that takes the token. -/
def cxForm (i : Instr) : Option (Nat × Reg × Reg) :=
  match i with
  | .cxCopy a d => some (0, a, d)
  | .cxCopy2 a d => some (1, a, d)
  | .cxPeer a d => some (2, a, d)
  | .cxFill a d => some (3, a, d)
  | .cxRing a d => some (4, a, d)
  | .cxPretr a d => some (5, a, d)
  | .cxFlush a d => some (7, a, d)
  | _ => none

/-- The push request of a record command, with its scoreboard ranges (05_local_memory.md R87, 07_encoding.md R136). -/
def State.recordReq (s : State) (ag : Agent) (funct7 off : Nat) (token : Option Nat) (bs : List Byte) : PushReq :=
  let r := s.recordRanges s.cur ag funct7 off bs
  { agent := ag, cmd := .record funct7 off, cls := recCls bs, classes := classBit (recCls bs), rd := r.1, wr := r.2,
    scope := recScope bs, token := token, seq := Tbl.get 0 s.my.cl.counts (2 * recScope bs + bitsNat (recFlags bs) 0 0) }

/-- The push request of a VX or MX run whose record is bs (07_encoding.md R125). -/
def State.runReq (s : State) (mx : Bool) (code off : Nat) (bs : List Byte) : PushReq :=
  let k := s.me
  let r := runRec mx (4096 * k.b.aLimit) (4096 * k.b.wLimit) bs
  let slots := fun (m : BitVec 32) => ((List.range 32).filter m.getLsbD).map Rng.slot
  { agent := if mx then .mx else .vx, cmd := if mx then .mxRun code off r else .vxRun code off r,
    cls := s.my.ycls, classes := classBit s.my.ycls,
    rd := (if r.rdW then k.wRng r.rdBase 0 r.rdLen else bufRng false (4096 * k.b.aLimit) r.rdBase (r.rdBase + r.rdLen)) ++
      (if mx then slots r.slotRd else []),
    wr := bufRng false (4096 * k.b.aLimit) r.wrBase (r.wrBase + r.wrLen) ++ (if mx then slots r.slotWr else []),
    scope := 2, token := none, seq := 0 }

/-- The push request of one MX word (07_encoding.md R117). -/
def State.mxReq (s : State) (w : BitVec 32) (addr : Nat) : PushReq :=
  let r := match accepted (decodeMxFull w) with
    | some i => s.me.mxRanges s.my.mx.binds addr i
    | none => ([], [])
  { agent := .mx, cmd := .mxWord w addr, cls := s.my.ycls, classes := classBit s.my.ycls, rd := r.1, wr := r.2, scope := 2,
    token := none, seq := 0 }

/-- The push request of a configuration entry. -/
def State.plainReq (s : State) (a : Agent) (cmd : Cmd) : PushReq :=
  { agent := a, cmd := cmd, cls := s.my.ycls, classes := classBit s.my.ycls, rd := [], wr := [], scope := 2, token := none,
    seq := 0 }

/-- The Stoker waits for nothing that Soot would record (25_debug.md R353). -/
def State.noWait (s : State) : Prop := (s.my.waits.find? fun w => w.agent == 0) = none

/-! ### The engines -/

/-- Entry e is the one engine a starts now: the core runs, no fault stops the engine, its push has performed, no breakpoint
names it, and no older command conflicts with it (05_local_memory.md R88, 11_data_engines_isa.md R229). -/
def State.mayStart (s : State) (a : Agent) (e : Entry) : Prop :=
  s.me.enginesRun = true ∧ s.my.stopped a = false ∧ s.my.nextEntry a = some e ∧ s.broken s.cur a e = false ∧
  s.my.holders e.id e.rd e.wr = []

/-- A VX word as a move: its halfwords, E, and the fields of 07_encoding.md R126. -/
structure VxWord where
  halves : Nat
  e : BitVec 1
  dst : BitVec 6
  src : BitVec 6
  dir : BitVec 2
  stage : BitVec 4
  idx : BitVec 4
  op : BitVec 8
  deriving DecidableEq, Repr

/-- The move with the immediate that follows its word. -/
def VxWord.move (w : VxWord) (imm : BitVec 16) : Move :=
  { dst := w.dst.toNat, src := w.src.toNat, dir := w.dir.toNat, idx := w.idx.toNat, op := w.op, stage := w.stage.toNat,
    imm := imm }

/-- The move that each VX word stands for, but for `vx.rfcl`: trigger port and operation byte (07_encoding.md R126 to R132;
09_vector_isa.md R186 to R199). -/
def vxWord (i : Instr) : Option VxWord :=
  match i with
  | .vxMoveShort e d s' r => some ⟨1, e, d, s', r, 15, 0, 0⟩
  | .vxMoveLong e d s' r g i o => some ⟨2, e, d, s', r, g, i, o⟩
  | .vxNop e r => some ⟨1, e, 63, 50, r, 15, 0, 0⟩
  | .vaAdd e d s' r g i t m => some ⟨2, e, d, s', r, g, i, t ++ 0#2 ++ m⟩
  | .vaSub e d s' r g i t m => some ⟨2, e, d, s', r, g, i, t ++ 1#2 ++ m⟩
  | .vaMul e d s' r g i t m => some ⟨2, e, d, s', r, g, i, t ++ 2#2 ++ m⟩
  | .vaMin e d s' r g i t => some ⟨2, e, d, s', r, g, i, t ++ 0x18#5⟩
  | .vaMax e d s' r g i t => some ⟨2, e, d, s', r, g, i, t ++ 0x19#5⟩
  | .vaAbs e d s' r g i t => some ⟨2, e, d, s', r, g, i, t ++ 0x1a#5⟩
  | .vaNeg e d s' r g i t => some ⟨2, e, d, s', r, g, i, t ++ 0x1b#5⟩
  | .vaCmpeq e d s' r g i t => some ⟨2, e, d, s', r, g, i, t ++ 0x1c#5⟩
  | .vaCmplt e d s' r g i t => some ⟨2, e, d, s', r, g, i, t ++ 0x1d#5⟩
  | .vaCmple e d s' r g i t => some ⟨2, e, d, s', r, g, i, t ++ 0x1e#5⟩
  | .vaMov e d s' r g i t => some ⟨2, e, d, s', r, g, i, t ++ 0x1f#5⟩
  | .vaAnd e d s' r g i => some ⟨2, e, d, s', r, g, i, 0xC0#8⟩
  | .vaOr e d s' r g i => some ⟨2, e, d, s', r, g, i, 0xC1#8⟩
  | .vaXor e d s' r g i => some ⟨2, e, d, s', r, g, i, 0xC2#8⟩
  | .vaAndn e d s' r g i => some ⟨2, e, d, s', r, g, i, 0xC3#8⟩
  | .vaShl e d s' r g i => some ⟨2, e, d, s', r, g, i, 0xC4#8⟩
  | .vaShr e d s' r g i => some ⟨2, e, d, s', r, g, i, 0xC5#8⟩
  | .vaSra e d s' r g i => some ⟨2, e, d, s', r, g, i, 0xC6#8⟩
  | .vaRotl e d s' r g i => some ⟨2, e, d, s', r, g, i, 0xC7#8⟩
  | .vaPopc e d s' r g i => some ⟨2, e, d, s', r, g, i, 0xC8#8⟩
  | .vaClz e d s' r g i => some ⟨2, e, d, s', r, g, i, 0xC9#8⟩
  | .vfFma e s' r g i t m => some ⟨2, e, 16, s', r, g, i, t ++ 0#2 ++ m⟩
  | .vfFms e s' r g i t m => some ⟨2, e, 16, s', r, g, i, t ++ 1#2 ++ m⟩
  | .vfNfma e s' r g i t m => some ⟨2, e, 16, s', r, g, i, t ++ 2#2 ++ m⟩
  | .vfNfms e s' r g i t m => some ⟨2, e, 16, s', r, g, i, t ++ 3#2 ++ m⟩
  | .vsExp2 e s' r g i => some ⟨2, e, 18, s', r, g, i, 0⟩
  | .vsLog2 e s' r g i => some ⟨2, e, 18, s', r, g, i, 1⟩
  | .vsRecip e s' r g i => some ⟨2, e, 18, s', r, g, i, 2⟩
  | .vsRsqrt e s' r g i => some ⟨2, e, 18, s', r, g, i, 3⟩
  | .vsSqrt e s' r g i => some ⟨2, e, 18, s', r, g, i, 4⟩
  | .vsTanh e s' r g i => some ⟨2, e, 18, s', r, g, i, 5⟩
  | .vsSigmoid e s' r g i => some ⟨2, e, 18, s', r, g, i, 6⟩
  | .vsSilu e s' r g i => some ⟨2, e, 18, s', r, g, i, 7⟩
  | .vsGelu e s' r g i => some ⟨2, e, 18, s', r, g, i, 8⟩
  | .vsSin e s' r g i => some ⟨2, e, 18, s', r, g, i, 9⟩
  | .vsCos e s' r g i => some ⟨2, e, 18, s', r, g, i, 10⟩
  | .vcCvt e s' r g i t m n => some ⟨2, e, 20, s', r, g, i, t ++ m ++ n ++ 0#1⟩
  | .vcPack e s' r g i t m n => some ⟨2, e, 20, s', r, g, i, t ++ m ++ n ++ 1#1⟩
  | .vcWvcc e s' r g i => some ⟨2, e, 20, s', r, g, i, 0xC0⟩
  | .vcWphase e s' r g i => some ⟨2, e, 20, s', r, g, i, 0xC1⟩
  | .ldVec e s' r g i t => some ⟨2, e, 23, s', r, g, i, t ++ 0#5⟩
  | .ldGather e s' r g i t => some ⟨2, e, 23, s', r, g, i, t ++ 1#5⟩
  | .ldBcast e s' r g i t => some ⟨2, e, 23, s', r, g, i, t ++ 2#5⟩
  | .ldRing e s' r g i t => some ⟨2, e, 23, s', r, g, i, t ++ 3#5⟩
  | .ldRaw e s' r g i => some ⟨2, e, 23, s', r, g, i, 0xC4⟩
  | .stVec e s' r g i t => some ⟨2, e, 26, s', r, g, i, t ++ 0#5⟩
  | .stScatter e s' r g i t => some ⟨2, e, 26, s', r, g, i, t ++ 1#5⟩
  | .stScalar e s' r g i t => some ⟨2, e, 26, s', r, g, i, t ++ 2#5⟩
  | .swPush e s' r g i t => some ⟨2, e, 28, s', r, g, i, t ++ 0#5⟩
  | .swPushn e s' r g i t => some ⟨2, e, 28, s', r, g, i, t ++ 1#5⟩
  | .swDrain e s' r g i t => some ⟨2, e, 28, s', r, g, i, t ++ 2#5⟩
  | .lrdSum e s' r g i t m => some ⟨2, e, 30, s', r, g, i, t ++ 0#2 ++ m⟩
  | .lrdMax e s' r g i t => some ⟨2, e, 30, s', r, g, i, t ++ 0x8#5⟩
  | .lrdMin e s' r g i t => some ⟨2, e, 30, s', r, g, i, t ++ 0x10#5⟩
  | _ => none

/-- VX executes the word that its run r of entry e stands at (09_vector_isa.md R181, R185). -/
def State.inVx (s : State) (r : VxRun) (e : Entry) : Prop :=
  s.me.enginesRun = true ∧ s.my.stopped .vx = false ∧ s.my.vx.run = some r ∧ s.my.entry? .vx r.entry = some e

/-- The slots and tiles that the word m reads hold no uncorrectable error (20_translation_faults.md R318). -/
def State.readsWell (s : State) (m : MxAt) : Prop :=
  (s.sramErrors (.core s.cur .mx) s.me.b.part.toNat ((m.instr.map (Instr.mxReads s.cur m.e.binds)).getD [])).2 = false

/-- MX executes the word m: a word of the run in progress, or an inline word that may start, which reads no uncorrectable
error; u is the state with the wait for the scoreboard ended (10_matrix_isa.md R205, R224). -/
def State.inMx (s : State) (m : MxAt) (u : State) : Prop :=
  u.readsWell m ∧
  ((∃ r, m.run = some r ∧ s.my.mx.run = some r ∧ s.me.enginesRun = true ∧ s.my.stopped .mx = false ∧
    s.my.entry? .mx r.entry = some m.e ∧ u = s) ∨
  (m.run = none ∧ s.my.mx.run = none ∧ s.mayStart .mx m.e ∧ m.e.cmd.isMxWord = true ∧ u = s.endWaitOf s.cur .mx 5))

/-- The run's mask of slots to write, if the word stands in a run, names slot n (10_matrix_isa.md R224). -/
def MxAt.mayWrite (m : MxAt) (n : Nat) : Prop := ∀ r, m.rec? = some r → r.slotWr.getLsbD n = true

/-- The run's masks, if the word stands in a run, let it read slot n. -/
def MxAt.mayRead (m : MxAt) (n : Nat) : Prop := ∀ r, m.rec? = some r → (r.slotRd ||| r.slotWr).getLsbD n = true

/-- The run's window, if the word stands in a run, holds the ranges (10_matrix_isa.md R224). -/
def MxAt.inWindow (m : MxAt) (write inW : Bool) (ranges : List (Nat × Nat)) : Prop :=
  ∀ r, m.rec? = some r → (write = true ∨ r.rdW = inW) ∧
    ranges.findSome? (fun p => firstOut (if write then r.wrBase else r.rdBase)
      ((if write then r.wrBase else r.rdBase) + (if write then r.wrLen else r.rdLen)) p.1 p.2) = none

/-- The record of entry e, which engine a starts, is readable and holds bs; j is the job that has read it
(07_encoding.md R136). -/
def State.cmdRecord (s : State) (a : Agent) (e : Entry) (j : Job) (bs : List Byte) : Prop :=
  ∃ i, (s.cmdJob a e).readBytes 0 (.a e.cmd.recOff) 64 = .ok bs i ∧ j = { i with cls := recCls bs, pdef := recPdef bs }

/-- Engine a starts entry e, a record command of funct7 f; j is the job that has read its record bs. -/
def State.starts (s : State) (a : Agent) (f : Nat) (e : Entry) (j : Job) (bs : List Byte) : Prop :=
  s.mayStart a e ∧ e.cmd.isRecord f = true ∧ (s.endWaitOf s.cur a 5).cmdRecord a e j bs

/-! ### Host queues -/

/-- Stream st of a queue is the first that stands at a packet that is fetched: those before it have come to their end. -/
def HostQueue.firstStream (x : HostQueue) (st : Stream) : Prop :=
  x.fetched st = true ∧ ∃ pre rest, x.streams = pre ++ st :: rest ∧ ∀ y ∈ pre, x.packetAt y = none

/-- Stream st of queue q of partition p begins a packet of type ty with doublewords d: the queue runs, no FEED of it waits for
room, the stream stands at a packet that may begin there, and it has been read; u is the state after the read (21_command_processor.md R321, R322). -/
def State.begins (s : State) (p q ty : Nat) (st : Stream) (u : State) (d : List Nat) : Prop :=
  s.queueRuns p q = true ∧ (s.queue p q).held = false ∧ (s.queue p q).firstStream st ∧
  (∃ va bs, (s.queue p q).packetAt st = some va ∧ s.grateRead p va 64 64 = some (bs, u) ∧ d = dwords bs) ∧
  dw d 0 % 256 = ty ∧
  ((bitNat (dw d 0) 15 || ty == 3 || ty == 5 || ty == 7 || ty == 8) = true → (s.queue p q).clear st = true) ∧
  (s.queue p q).badType st ty = false ∧ bitsNat (dw d 0) 31 16 = 0 ∧ bitsNat (dw d 0) 14 8 = 0

/-- Queue q stops at the packet of a stream with an error code: HEAD stays there, and vector p is raised; a stopped graph
ends, and a FEED that waits for room is dropped (21_command_processor.md R321, R327). -/
def State.queueStopped (s : State) (p q : Nat) (st : Stream) (code : Nat) : State :=
  let x := s.queue p q
  let y := { x with err := BitVec.ofNat 8 code, errOp := 0, stop := true, stopAt := x.placeOf st }
  let z := match st with
    | some i => y.dropGraph i
    | none => { y with busy := y.busy.filter fun b => !b.isFeed }
  (s.modQueue p q fun _ => z).raiseMsix p

end Sys2Proof.Machine
end

