-- ==== Sys2Proof/Certificates/Slice0/Obligations.lean ====
section
/-! DEFINITION. The statements for the provers, one `Prop` each. They hold of every state, reached or not; premises name the
conditions on the state and the operands alone (Sys2Proof/Safety.lean defines them). -/

section

open Sys2Proof Sys2Proof.Machine

/-- A register reads what was written to it last, x0 reads 0 and discards writes, and a write of one file leaves the other
(08_stoker_isa.md R149; RISC-V). An update of the acting context changes that context and nothing else of the device: the
frame of every instruction whose next state is such an update. -/
def Obligations.RegisterFileAndContextFrame : Prop :=
  (∀ (x : Ctx) (r q : Reg) (v : Word),
     x.getX 0 = 0 ∧ x.setX 0 v = x ∧ (r ≠ 0 → (x.setX r v).getX r = v) ∧ (q ≠ r → (x.setX r v).getX q = x.getX q) ∧
     (x.setX r v).getF q = x.getF q ∧ (x.setF r v).getF r = v ∧ (q ≠ r → (x.setF r v).getF q = x.getF q) ∧
     (x.setF r v).getX q = x.getX q) ∧
  (∀ (s : State) (f : Ctx → Ctx),
     (s.upd f).my = f s.my ∧ (s.upd f).me = { s.me with ctx := f s.my } ∧
     (∀ d, d ≠ s.cur → (s.upd f).core d = s.core d) ∧ { s.upd f with cores := s.cores } = s)

/-- What retiring an instruction does where the Stoker waits for nothing: the pc moves, RETIRED counts it outside M-mode, and
a task is charged one Stoker event on its core's island (08_stoker_isa.md R357, 17_energy.md R288). Nothing else changes.
Every instruction of the Stoker that names a register: where a source or destination is owed a result it does not issue, and
the state stands; a source that an uncorrectable load left raises cause 5 with that load's address
(08_stoker_isa.md R149, R150). -/
def Obligations.RetireEffectAndOwedRegisters : Prop :=
  (∀ (s : State) (pc : Word), s.noWait →
     s.retireAt pc = s.upd fun x =>
       let y : Ctx := { x with pc := pc, instret := if x.mode = .m then x.instret else x.instret + 1 }
       if s.me.task.isNone then y
       else { y with fa := x.fa + s.cost 16, fai := Tbl.put 0 x.fai s.cur (Tbl.get 0 x.fai s.cur + s.cost 16) }) ∧
  (∀ (s : State) (i : Instr) (srcs dsts : List Dest), s.stokerRegs i = some (srcs, dsts) →
     ((srcs.any s.my.pending = true ∨ dsts.any s.my.pending = true) → exec i s = .next s) ∧
     (∀ a, srcs.any s.my.pending = false → dsts.any s.my.pending = false → srcs.findSome? s.my.poisoned = some a →
       exec i s = .next (s.takeTrap 5 a 0)))

/-- The integer computations write rd with their value and retire, for every register and immediate. The value of every
operation: wrapping, shift amounts modulo the width, signed and unsigned comparison, the high half of each kind of product,
division towards zero with its corners, the word forms on the low halves with their result sign-extended, and the counts and
byte orders of Zbb. 07_encoding.md R121 names these instructions; what each computes is RISC-V's, taken from outside the spec
(log 20, PRESUMED). -/
def Obligations.IntegerComputationAndIntegerValues : Prop :=
  (∀ (s : State) (rd rs1 rs2 : Reg),
     (∀ op, s.regsReady [destX rs1, destX rs2] [destX rd] → exec (.rv64Base (.alu op rd rs1 rs2)) s =
       .next ((s.upd fun x => x.setX rd (aluVal op (s.my.getX rs1) (s.my.getX rs2))).retireAt s.nextPc)) ∧
     (∀ op imm, s.regsReady [destX rs1] [destX rd] → exec (.rv64Base (.aluImm op rd rs1 imm)) s =
       .next ((s.upd fun x => x.setX rd (immVal op (s.my.getX rs1) imm)).retireAt s.nextPc)) ∧
     (∀ op sh, s.regsReady [destX rs1] [destX rd] → exec (.rv64Base (.shift op rd rs1 sh)) s =
       .next ((s.upd fun x => x.setX rd (shiftVal op (s.my.getX rs1) sh)).retireAt s.nextPc)) ∧
     (∀ op, s.regsReady [destX rs1] [destX rd] → exec (.rv64Base (.unary op rd rs1)) s =
       .next ((s.upd fun x => x.setX rd (unVal op (s.my.getX rs1))).retireAt s.nextPc)) ∧
     (∀ imm, s.regsReady [] [destX rd] → exec (.rv64Base (.lui rd imm)) s =
       .next ((s.upd fun x => x.setX rd ((imm ++ 0#12).signExtend 64)).retireAt s.nextPc)) ∧
     (∀ imm, s.regsReady [] [destX rd] → exec (.rv64Base (.auipc rd imm)) s =
       .next ((s.upd fun x => x.setX rd (s.my.pc + (imm ++ 0#12).signExtend 64)).retireAt s.nextPc))) ∧
  (∀ a b : Word,
     aluVal .add a b = a + b ∧ aluVal .sub a b = a - b ∧ aluVal .xor a b = a ^^^ b ∧ aluVal .or a b = a ||| b ∧
     aluVal .and a b = a &&& b ∧ aluVal .sll a b = a <<< (b.toNat % 64) ∧ aluVal .srl a b = a >>> (b.toNat % 64) ∧
     aluVal .sra a b = a.sshiftRight (b.toNat % 64) ∧ aluVal .slt a b = (if a.toInt < b.toInt then 1 else 0) ∧
     aluVal .sltu a b = (if a.toNat < b.toNat then 1 else 0) ∧ aluVal .mul a b = a * b ∧
     aluVal .mulhu a b = BitVec.ofNat 64 (a.toNat * b.toNat / 2 ^ 64) ∧
     aluVal .div a 0 = BitVec.ofInt 64 (-1) ∧ aluVal .divu a 0 = BitVec.ofInt 64 (-1) ∧ aluVal .rem a 0 = a ∧
     aluVal .remu a 0 = a ∧ aluVal .div (BitVec.intMin 64) (BitVec.ofInt 64 (-1)) = BitVec.intMin 64 ∧
     aluVal .rem (BitVec.intMin 64) (BitVec.ofInt 64 (-1)) = 0 ∧
     aluVal .addw a b = (a.setWidth 32 + b.setWidth 32).signExtend 64 ∧
     aluVal .sh2add a b = (a <<< 2) + b ∧ aluVal .andn a b = a &&& ~~~b) ∧
  (∀ a b : Word,
     let k := b.toNat % 64
     let rest := a.toNat % 2 ^ 32
     (aluVal .mulh a b).toInt = a.toInt * b.toInt / 2 ^ 64 ∧ (aluVal .mulhsu a b).toInt = a.toInt * b.toNat / 2 ^ 64 ∧
     (b ≠ 0 → ¬(a = BitVec.intMin 64 ∧ b = BitVec.ofInt 64 (-1)) →
       (aluVal .div a b).toInt = a.toInt.tdiv b.toInt ∧ (aluVal .rem a b).toInt = a.toInt.tmod b.toInt) ∧
     (b ≠ 0 → (aluVal .divu a b).toNat = a.toNat / b.toNat ∧ (aluVal .remu a b).toNat = a.toNat % b.toNat) ∧
     aluVal .sh1add a b = (a <<< 1) + b ∧ aluVal .sh3add a b = (a <<< 3) + b ∧ aluVal .orn a b = a ||| ~~~b ∧
     aluVal .xnor a b = a ^^^ ~~~b ∧ (aluVal .max a b).toInt = max a.toInt b.toInt ∧
     (aluVal .min a b).toInt = min a.toInt b.toInt ∧ (aluVal .maxu a b).toNat = max a.toNat b.toNat ∧
     (aluVal .minu a b).toNat = min a.toNat b.toNat ∧ aluVal .rol a b = a <<< k ||| a >>> (64 - k) ∧
     aluVal .ror a b = a >>> k ||| a <<< (64 - k) ∧
     (aluVal .addUw a b).toNat = (rest + b.toNat) % 2 ^ 64 ∧ (aluVal .sh1addUw a b).toNat = (2 * rest + b.toNat) % 2 ^ 64 ∧
     (aluVal .sh2addUw a b).toNat = (4 * rest + b.toNat) % 2 ^ 64 ∧
     (aluVal .sh3addUw a b).toNat = (8 * rest + b.toNat) % 2 ^ 64) ∧
  (∀ a b : Word,
     let x : BitVec 32 := a.setWidth 32
     let y : BitVec 32 := b.setWidth 32
     let k := b.toNat % 32
     aluVal .subw a b = (x - y).signExtend 64 ∧ aluVal .mulw a b = (x * y).signExtend 64 ∧
     aluVal .sllw a b = (x <<< k).signExtend 64 ∧ aluVal .srlw a b = (x >>> k).signExtend 64 ∧
     aluVal .sraw a b = (x.sshiftRight k).signExtend 64 ∧ aluVal .rolw a b = (x <<< k ||| x >>> (32 - k)).signExtend 64 ∧
     aluVal .rorw a b = (x >>> k ||| x <<< (32 - k)).signExtend 64 ∧
     (y ≠ 0 → ¬(x = BitVec.intMin 32 ∧ y = BitVec.ofInt 32 (-1)) →
       (aluVal .divw a b).toInt = x.toInt.tdiv y.toInt ∧ (aluVal .remw a b).toInt = x.toInt.tmod y.toInt) ∧
     (x = BitVec.intMin 32 → y = BitVec.ofInt 32 (-1) → aluVal .divw a b = x.signExtend 64 ∧ aluVal .remw a b = 0) ∧
     (y ≠ 0 → aluVal .divuw a b = (BitVec.ofNat 32 (x.toNat / y.toNat)).signExtend 64 ∧
       aluVal .remuw a b = (BitVec.ofNat 32 (x.toNat % y.toNat)).signExtend 64) ∧
     (y = 0 → aluVal .divw a b = BitVec.ofInt 64 (-1) ∧ aluVal .divuw a b = BitVec.ofInt 64 (-1) ∧
       aluVal .remw a b = x.signExtend 64 ∧ aluVal .remuw a b = x.signExtend 64)) ∧
  (∀ (a : Word) (imm : BitVec 12),
     let b := imm.signExtend 64
     immVal .addi a imm = a + b ∧ immVal .slti a imm = (if a.toInt < b.toInt then 1 else 0) ∧
     immVal .sltiu a imm = (if a.toNat < b.toNat then 1 else 0) ∧ immVal .xori a imm = a ^^^ b ∧ immVal .ori a imm = a ||| b ∧
     immVal .andi a imm = a &&& b ∧ immVal .addiw a imm = (a.setWidth 32 + imm.signExtend 32).signExtend 64) ∧
  (∀ (a : Word) (sh : BitVec 6),
     let k := sh.toNat
     let x : BitVec 32 := a.setWidth 32
     shiftVal .slli a sh = a <<< k ∧ shiftVal .srli a sh = a >>> k ∧ shiftVal .srai a sh = a.sshiftRight k ∧
     shiftVal .rori a sh = a >>> k ||| a <<< (64 - k) ∧ (shiftVal .slliUw a sh).toNat = x.toNat * 2 ^ k % 2 ^ 64 ∧
     shiftVal .slliw a sh = (x <<< k).signExtend 64 ∧ shiftVal .srliw a sh = (x >>> k).signExtend 64 ∧
     shiftVal .sraiw a sh = (x.sshiftRight k).signExtend 64 ∧
     (k < 32 → shiftVal .roriw a sh = (x >>> k ||| x <<< (32 - k)).signExtend 64)) ∧
  (∀ a : Word,
     (∀ n, n < 64 → a.toNat / 2 ^ (63 - n) = 1 → unVal .clz a = BitVec.ofNat 64 n) ∧ (a = 0 → unVal .clz a = 64) ∧
     (∀ n, n < 64 → a.toNat % 2 ^ (n + 1) = 2 ^ n → unVal .ctz a = BitVec.ofNat 64 n) ∧ (a = 0 → unVal .ctz a = 64) ∧
     (∀ n, n < 32 → a.toNat % 2 ^ 32 / 2 ^ (31 - n) = 1 → unVal .clzw a = BitVec.ofNat 64 n) ∧
     (∀ n, n < 32 → a.toNat % 2 ^ (n + 1) = 2 ^ n → unVal .ctzw a = BitVec.ofNat 64 n) ∧
     (a.toNat % 2 ^ 32 = 0 → unVal .clzw a = 32 ∧ unVal .ctzw a = 32) ∧
     unVal .cpop a = BitVec.ofNat 64 ((List.range 64).filter a.getLsbD).length ∧
     unVal .cpopw a = BitVec.ofNat 64 ((List.range 32).filter a.getLsbD).length ∧
     unVal .sextB a = (a.setWidth 8).signExtend 64 ∧ unVal .sextH a = (a.setWidth 16).signExtend 64 ∧
     (unVal .zextH a).toNat = a.toNat % 2 ^ 16 ∧
     (∀ i, i < 8 → (unVal .orcB a).extractLsb' (8 * i) 8 = (if a.extractLsb' (8 * i) 8 = 0 then 0 else 0xFF#8) ∧
       (unVal .rev8 a).extractLsb' (8 * i) 8 = a.extractLsb' (8 * (7 - i)) 8))

/-- Jumps write the address of the next instruction to rd and go to their target with bit 0 clear; a branch goes to its target
when its condition holds, and on otherwise; each condition compares its registers as integers, signed or unsigned.
07_encoding.md R121 names these instructions; what each does is RISC-V's, taken from outside the spec (log 20, PRESUMED). -/
def Obligations.ControlFlow : Prop :=
  (∀ a b : Word,
    (condVal .eq a b = true ↔ a = b) ∧ (condVal .ne a b = true ↔ a ≠ b) ∧ (condVal .lt a b = true ↔ a.toInt < b.toInt) ∧
    (condVal .ge a b = true ↔ b.toInt ≤ a.toInt) ∧ (condVal .ltu a b = true ↔ a.toNat < b.toNat) ∧
    (condVal .geu a b = true ↔ b.toNat ≤ a.toNat)) ∧
  ∀ (s : State) (rd rs1 rs2 : Reg),
    (∀ imm, s.regsReady [] [destX rd] → exec (.rv64Base (.jal rd imm)) s =
      .next ((s.upd fun x => x.setX rd s.nextPc).retireAt ((s.my.pc + (imm ++ 0#1).signExtend 64) &&& ~~~(1#64)))) ∧
    (∀ imm, s.regsReady [destX rs1] [destX rd] → exec (.rv64Base (.jalr rd rs1 imm)) s =
      .next ((s.upd fun x => x.setX rd s.nextPc).retireAt ((s.my.getX rs1 + imm.signExtend 64) &&& ~~~(1#64)))) ∧
    (∀ c imm, s.regsReady [destX rs1, destX rs2] [] → exec (.rv64Base (.branch c rs1 rs2 imm)) s =
      .next (s.retireAt (if condVal c (s.my.getX rs1) (s.my.getX rs2) then s.my.pc + (imm ++ 0#1).signExtend 64
        else s.nextPc)))

/-- The floating-point computations write rd and add their flags to `fflags`, under the rounding mode of the instruction or of
`frm`; a reserved rounding mode is illegal. What they compute: a NaN operand gives the canonical NaN, with NV for a signalling
one, and so do the invalid operations, with NV; other sums, products and fused forms are the exact value rounded once, shown at
ties, at the ends of the range and below it under every mode; division by zero gives an infinity with DZ; comparisons compare
the exact values; sign injection, minimum and maximum select; a conversion to an integer rounds, and saturates with NV; a single
is NaN-boxed. 07_encoding.md R121 names these instructions; what each computes is RISC-V's, taken from outside the spec
(log 20, PRESUMED). -/
def Obligations.FloatComputation : Prop :=
  (∀ (f : Fmt) (m : Rm), f = .fp32 ∨ f = .fp64 →
     let nan := fun (sig : Bool) => (f.nanCode, Fl.nvIf sig)
     (∀ op a b, a.isNan = true ∨ b.isNan = true → rvArith op f m a b = nan (a.isSig || b.isSig)) ∧
     (∀ op a b c, a.isNan = true ∨ b.isNan = true ∨ (c.isNan = true ∧ (a.mul b).isNan = false) →
       rvFma op f m a b c = nan (a.isSig || b.isSig || c.isSig)) ∧
     (∀ op a b c, a.isNan = false → b.isNan = false → (a.mul b).isNan = true → rvFma op f m a b c = nan true) ∧
     (∀ s t, rvArith .fadd f m (.inf s) (.inf t) = if s = t then (f.signed s (2 ^ (f.ebits + f.mbits) - 2 ^ f.mbits), Fl.none)
       else nan true) ∧
     (∀ s t e, rvArith .fmul f m (.inf s) (.fin t 0 e) = nan true ∧ rvArith .fdiv f m (.fin s 0 e) (.fin t 0 e) = nan true ∧
       rvArith .fdiv f m (.inf s) (.inf t) = nan true) ∧
     (∀ s t k e d, k ≠ 0 →
       rvArith .fdiv f m (.fin s k e) (.fin t 0 d) =
         (f.signed (s != t) (2 ^ (f.ebits + f.mbits) - 2 ^ f.mbits), Fl.divZero) ∧
       rvArith .fdiv f m (.fin s k e) (.inf t) = (f.signed (s != t) 0, Fl.none) ∧ rvSqrt f m (.fin true k e) = nan true) ∧
     (∀ s e, rvSqrt f m (.fin s 0 e) = (f.signed s 0, Fl.none)) ∧
     (∀ a b, rvArith .fsub f m a b = rvArith .fadd f m a b.negate) ∧
     (∀ s t k n e d,
       let a := Val.fin s k e
       let b := Val.fin t n d
       rvArith .fadd f m a b = rvRound f m (a.add m.down b) ∧
       rvArith .fmul f m a b = rvRound f m (.fin (s != t) (k * n) (e + d)) ∧
       (∀ c, c.isNan = false → rvFma .fmadd f m a b c = rvRound f m ((a.mul b).add m.down c))) ∧
     (∀ a b c, rvFma .fmsub f m a b c = rvFma .fmadd f m a b c.negate ∧
       rvFma .fnmsub f m a b c = rvFma .fmadd f m a.negate b c ∧
       rvFma .fnmadd f m a b c = rvFma .fmadd f m a.negate b c.negate) ∧
     (∀ x : Word, rvOfInt .l f m x = rvRound f m (Val.ofInt x.toInt 0) ∧ rvOfInt .lu f m x = rvRound f m (Val.ofInt x.toNat 0) ∧
       rvOfInt .w f m x = rvRound f m (Val.ofInt (x.setWidth 32).toInt 0) ∧
       rvOfInt .wu f m x = rvRound f m (Val.ofInt (x.setWidth 32).toNat 0)) ∧
     (∀ x y, (decodeEl f x).cmp (decodeEl f y) = some .lt →
       rvSel .fmin f x y = (x, Fl.none) ∧ rvSel .fmax f x y = (y, Fl.none) ∧
       rvSel .fmin f y x = (x, Fl.none) ∧ rvSel .fmax f y x = (y, Fl.none)) ∧
     (∀ x y, (decodeEl f x).isNan = true → (decodeEl f y).isNan = false →
       rvSel .fmin f x y = (y, Fl.nvIf (decodeEl f x).isSig) ∧ rvSel .fmax f y x = (y, Fl.nvIf (decodeEl f x).isSig)) ∧
     (∀ a b, (rvCmp .feq a b = (decide (a.cmp b = some .eq), Fl.nvIf (a.isSig || b.isSig))) ∧
       rvCmp .flt a b = (decide (a.cmp b = some .lt), Fl.nvIf (a.isNan || b.isNan)) ∧
       rvCmp .fle a b = (decide (a.cmp b = some .lt ∨ a.cmp b = some .eq), Fl.nvIf (a.isNan || b.isNan)))) ∧
  (∀ a b : Word,
     (rvSel .fsgnj .fp64 a.toNat b.toNat) = ((b.extractLsb' 63 1 ++ a.extractLsb' 0 63).toNat, Fl.none) ∧
     (rvSel .fsgnjn .fp64 a.toNat b.toNat) = ((~~~(b.extractLsb' 63 1) ++ a.extractLsb' 0 63).toNat, Fl.none) ∧
     (rvSel .fsgnjx .fp64 a.toNat b.toNat) = (((a ^^^ b).extractLsb' 63 1 ++ a.extractLsb' 0 63).toNat, Fl.none) ∧
     rvVal false a = (if a.extractLsb' 32 32 = BitVec.allOnes 32 then decodeEl .fp32 (a.setWidth 32).toNat else .nan false) ∧
     rvBox false a.toNat = BitVec.allOnes 32 ++ (a.setWidth 32 : BitVec 32) ∧ rvBox true a.toNat = a) ∧
  (let up := Val.fin false (2 ^ 24 + 1) 0
   rvRound .fp32 .rne up = (0x4B800000, Fl.inexact) ∧ rvRound .fp32 .rtz up = (0x4B800000, Fl.inexact) ∧
   rvRound .fp32 .rdn up = (0x4B800000, Fl.inexact) ∧ rvRound .fp32 .rup up = (0x4B800001, Fl.inexact) ∧
   rvRound .fp32 .rmm up = (0x4B800001, Fl.inexact) ∧ rvRound .fp32 .rdn up.negate = (0xCB800001, Fl.inexact) ∧
   rvRound .fp32 .rup up.negate = (0xCB800000, Fl.inexact) ∧ rvRound .fp64 .rne up = (0x4170000010000000, Fl.none) ∧
   rvRound .fp32 .rne (.fin false 3 (-1)) = (0x3FC00000, Fl.none) ∧
   rvRound .fp32 .rne (.fin false 1 128) = (0x7F800000, Fl.overflow) ∧
   rvRound .fp32 .rtz (.fin true 1 128) = (0xFF7FFFFF, Fl.overflow) ∧
   rvRound .fp32 .rne (.fin true 1 (-149)) = (0x80000001, Fl.none) ∧
   rvRound .fp32 .rne (.fin false 1 (-150)) = (0, { Fl.inexact with uf := true }) ∧
   rvSqrt .fp32 .rne (.fin false 9 (-2)) = (0x3FC00000, Fl.none) ∧ rvSqrt .fp32 .rne (.fin false 2 0) = (0x3FB504F3, Fl.inexact) ∧
   rvArith .fdiv .fp32 .rne (.fin false 1 0) (.fin false 3 0) = (0x3EAAAAAB, Fl.inexact) ∧
   rvCvt .fp32 .rne (.fin false 1 (-1)) = (0x3F000000, Fl.none) ∧ rvCvt .fp64 .rne (.nan true) = (0x7FF8000000000000, Fl.invalid) ∧
   rvSel .fmin .fp32 0x80000000 0 = (0x80000000, Fl.none) ∧ rvSel .fmax .fp32 0x80000000 0 = (0, Fl.none)) ∧
  (∀ m : Rm, m ∈ [.rne, .rtz, .rdn, .rup, .rmm] →
     (∀ q, rvToInt .w m (.nan q) = (0x7FFFFFFF, Fl.invalid) ∧ rvToInt .wu m (.nan q) = (BitVec.allOnes 64, Fl.invalid) ∧
       rvToInt .l m (.nan q) = (BitVec.intMax 64, Fl.invalid) ∧ rvToInt .lu m (.nan q) = (BitVec.allOnes 64, Fl.invalid)) ∧
     rvToInt .w m (.inf true) = (0xFFFFFFFF80000000, Fl.invalid) ∧ rvToInt .l m (.inf true) = (BitVec.intMin 64, Fl.invalid) ∧
     rvToInt .wu m (.inf true) = (0, Fl.invalid) ∧ rvToInt .lu m (.inf false) = (BitVec.allOnes 64, Fl.invalid) ∧
     (∀ n : Nat, n < 2 ^ 63 → rvToInt .l m (.fin false n 0) = (BitVec.ofNat 64 n, Fl.none) ∧
       rvToInt .l m (.fin true n 0) = (-(BitVec.ofNat 64 n), Fl.none))) ∧
  (rvToInt .l .rtz (.fin true 5 (-1)) = (BitVec.ofInt 64 (-2), Fl.inexact) ∧
   rvToInt .l .rdn (.fin true 5 (-1)) = (BitVec.ofInt 64 (-3), Fl.inexact) ∧
   rvToInt .l .rup (.fin true 5 (-1)) = (BitVec.ofInt 64 (-2), Fl.inexact) ∧
   rvToInt .l .rne (.fin false 5 (-1)) = (2, Fl.inexact) ∧ rvToInt .l .rmm (.fin false 5 (-1)) = (3, Fl.inexact) ∧
   rvToInt .wu .rne (.fin false 1 33) = (BitVec.allOnes 64, Fl.invalid) ∧ rvToInt .wu .rne (.fin true 1 0) = (0, Fl.invalid)) ∧
  (∀ (f : Fmt), f = .fp32 ∨ f = .fp64 →
     rvClass f (.nan true) = 256 ∧ rvClass f (.nan false) = 512 ∧ rvClass f (.inf true) = 1 ∧ rvClass f (.inf false) = 128 ∧
     (∀ e, rvClass f (.fin true 0 e) = 8 ∧ rvClass f (.fin false 0 e) = 16) ∧
     (∀ e, f.emin ≤ e → rvClass f (.fin true 1 e) = 2 ∧ rvClass f (.fin false 1 e) = 64) ∧
     (∀ e, e < f.emin → rvClass f (.fin true 1 e) = 4 ∧ rvClass f (.fin false 1 e) = 32)) ∧
  (∀ (s : State) (dbl : Bool) (rm : BitVec 3) (rd rs1 rs2 rs3 : Reg), rvRm rm s.my.frm = none →
    let illegal : Res := .next (s.takeTrapFree 2 0)
    (∀ op, exec (.rv64Base (.fpArith op dbl rm rd rs1 rs2)) s = illegal) ∧
    exec (.rv64Base (.fpSqrt dbl rm rd rs1)) s = illegal ∧
    (∀ op, exec (.rv64Base (.fpFma op dbl rm rd rs1 rs2 rs3)) s = illegal) ∧
    exec (.rv64Base (.fpCvt dbl rm rd rs1)) s = illegal ∧
    (∀ ty, exec (.rv64Base (.intToFp ty dbl rm rd rs1)) s = illegal ∧
      exec (.rv64Base (.fpToInt ty dbl rm rd rs1)) s = illegal)) ∧
  ∀ (s : State) (dbl : Bool) (rm : BitVec 3) (rd rs1 rs2 rs3 : Reg) (m : Rm), rvRm rm s.my.frm = some m →
    let keep := fun (r : Nat × Fl) (x : Ctx) => { x.setF rd (rvBox dbl r.1) with fflags := x.fflags ||| r.2.bits }
    let v := fun (r : Reg) => rvVal dbl (s.my.getF r)
    (∀ op, s.regsReady [.f rs1, .f rs2] [.f rd] → exec (.rv64Base (.fpArith op dbl rm rd rs1 rs2)) s =
      .next ((s.upd (keep (rvArith op (rvFmt dbl) m (v rs1) (v rs2)))).retireAt s.nextPc)) ∧
    (s.regsReady [.f rs1] [.f rd] → exec (.rv64Base (.fpSqrt dbl rm rd rs1)) s =
      .next ((s.upd (keep (rvSqrt (rvFmt dbl) m (v rs1)))).retireAt s.nextPc)) ∧
    (∀ op, s.regsReady [.f rs1, .f rs2, .f rs3] [.f rd] → exec (.rv64Base (.fpFma op dbl rm rd rs1 rs2 rs3)) s =
      .next ((s.upd (keep (rvFma op (rvFmt dbl) m (v rs1) (v rs2) (v rs3)))).retireAt s.nextPc)) ∧
    (∀ op, s.regsReady [.f rs1, .f rs2] [.f rd] → exec (.rv64Base (.fpSel op dbl rd rs1 rs2)) s =
      .next ((s.upd (keep (rvSel op (rvFmt dbl) (rvCode dbl (s.my.getF rs1)) (rvCode dbl (s.my.getF rs2))))).retireAt
        s.nextPc)) ∧
    (s.regsReady [.f rs1] [.f rd] → exec (.rv64Base (.fpCvt dbl rm rd rs1)) s =
      .next ((s.upd (keep (rvCvt (rvFmt dbl) m (rvVal (!dbl) (s.my.getF rs1))))).retireAt s.nextPc)) ∧
    (∀ ty, s.regsReady [destX rs1] [.f rd] → exec (.rv64Base (.intToFp ty dbl rm rd rs1)) s =
      .next ((s.upd (keep (rvOfInt ty (rvFmt dbl) m (s.my.getX rs1)))).retireAt s.nextPc)) ∧
    (∀ ty, s.regsReady [.f rs1] [destX rd] → exec (.rv64Base (.fpToInt ty dbl rm rd rs1)) s =
      let r := rvToInt ty m (v rs1)
      .next ((s.upd fun x => { x.setX rd r.1 with fflags := x.fflags ||| r.2.bits }).retireAt s.nextPc)) ∧
    (∀ op, s.regsReady [.f rs1, .f rs2] [destX rd] → exec (.rv64Base (.fpCmp op dbl rd rs1 rs2)) s =
      let r := rvCmp op (v rs1) (v rs2)
      .next ((s.upd fun x => { x.setX rd (if r.1 then 1 else 0) with fflags := x.fflags ||| r.2.bits }).retireAt s.nextPc)) ∧
    (s.regsReady [.f rs1] [destX rd] → exec (.rv64Base (.fpClass dbl rd rs1)) s =
      .next ((s.upd fun x => x.setX rd (BitVec.ofNat 64 (rvClass (rvFmt dbl) (v rs1)))).retireAt s.nextPc)) ∧
    (s.regsReady [.f rs1] [destX rd] → exec (.rv64Base (.fpMvToInt dbl rd rs1)) s =
      .next ((s.upd fun x => x.setX rd (if dbl then s.my.getF rs1 else sext32 (s.my.getF rs1))).retireAt s.nextPc)) ∧
    (s.regsReady [destX rs1] [.f rd] → exec (.rv64Base (.intMvToFp dbl rd rs1)) s =
      .next ((s.upd fun x => x.setF rd (rvBox dbl (s.my.getX rs1).toNat)).retireAt s.nextPc))

/-- Taking a precise exception from U-mode: sepc, scause, stval and `ytrapinfo` are written, the status is stacked, `ywm`.SVC
is set, `yfop` takes the back-map entry of the pc, and the pc goes to stvec's base in S-mode; nothing else changes
(16_system_state.md R273, 08_stoker_isa.md R176, 12_portable_form.md R263). TRAP_ENTRY takes it. An exception of S-mode's
own goes to M-mode, whose firmware freezes the team; one of M-mode's own stays in M-mode (16_system_state.md R273; log 8).
ECALL raises cause 8 from U-mode, 9 from S-mode and 11 from M-mode; EBREAK raises cause 3 with the pc in stval. The causes of
ECALL and EBREAK, the stacking of the status, the fields of M-mode and the stval of EBREAK are RISC-V's, taken from outside the
spec (log 20, PRESUMED). -/
def Obligations.TrapFromUserAndEnvironmentCalls : Prop :=
  (∀ (s : State) (cause : Nat) (tval : Word) (info : BitVec 32), s.my.mode = .u →
     exec (.trapEntry cause tval info) s = .next (s.upd fun x => { x with
       csr := { x.csr with
         mstatus := putBit (putBit (putBit x.csr.mstatus 8 false) 5 (x.csr.mstatus.getLsbD 1)) 1 false
         sepc := x.pc, stval := tval, scause := BitVec.ofNat 64 cause }
       mode := .s
       pc := x.csr.stvec &&& ~~~(3#64)
       ytrapinfo := BitVec.ofNat 64 (info.toNat * 2 ^ 32)
       yfop := s.fopOf s.cur x.pc
       ywm := { x.ywm with svc := true } })) ∧
  (∀ (s : State) (cause : Nat) (tval : Word) (info : BitVec 32),
     let entry := fun (mpp : Nat) (x : Ctx) => { x with
       csr := { x.csr with
         mstatus := BitVec.ofNat 64 (putBits
           (putBit (putBit x.csr.mstatus 7 (x.csr.mstatus.getLsbD 3)) 3 false).toNat 12 11 mpp)
         mepc := x.pc, mtval := tval, mcause := BitVec.ofNat 64 cause }
       mode := .m
       pc := x.csr.mtvec &&& ~~~(3#64) }
     (s.my.mode = .m → exec (.trapEntry cause tval info) s = .next (s.upd (entry 3))) ∧
     (s.my.mode = .s → exec (.trapEntry cause tval info) s = .next ((s.upd (entry 1)).freezeCore s.cur 3 0 0))) ∧
  (∀ s : State,
     (s.my.mode = .u → exec (.rv64Base .ecall) s = .next (s.takeTrap 8 0 0)) ∧
     (s.my.mode = .s → exec (.rv64Base .ecall) s = .next (s.takeTrap 9 0 0)) ∧
     (s.my.mode = .m → exec (.rv64Base .ecall) s = .next (s.takeTrap 11 0 0)) ∧
     exec (.rv64Base .ebreak) s = .next (s.takeTrap 3 s.my.pc 0))

/-- SRET retires and then restores the pc, the mode and the interrupt enable from sepc and the status, and clears `ywm`.SVC
and QLACT; it is illegal in U-mode and, with TSR, in S-mode. MRET does the same from mepc, in M-mode alone
(08_stoker_isa.md R176). What they restore of the status is RISC-V's, taken from outside the spec (log 20, PRESUMED). -/
def Obligations.TrapReturn : Prop :=
  ∀ s : State,
    (s.my.mode ≠ .u → (s.my.mode = .s → s.my.csr.mstatus.getLsbD 22 = false) →
      exec .sret s = .next ((s.retireAt s.nextPc).upd fun x => { x with
        csr := { x.csr with mstatus := putBit (putBit (putBit x.csr.mstatus 1 (x.csr.mstatus.getLsbD 5)) 5 true) 8 false }
        mode := if x.csr.mstatus.getLsbD 8 then .s else .u
        pc := x.csr.sepc
        ywm := { x.ywm with svc := false, qlact := false } })) ∧
    (s.my.mode = .u → exec .sret s = .next (s.takeTrapFree 2 0)) ∧
    (s.my.mode = .s → s.my.csr.mstatus.getLsbD 22 = true → exec .sret s = .next (s.takeTrapFree 2 0)) ∧
    (s.my.mode = .m → exec (.rv64Base .mret) s = .next ((s.retireAt s.nextPc).upd fun x => { x with
        csr := { x.csr with
          mstatus := BitVec.ofNat 64 (putBits (putBit (putBit x.csr.mstatus 3 (x.csr.mstatus.getLsbD 7)) 7 true).toNat 12 11 0) }
        mode := match bitsNat x.csr.mstatus.toNat 12 11 with
          | 0 => .u
          | 1 => .s
          | _ => .m
        pc := x.csr.mepc })) ∧
    (s.my.mode ≠ .m → exec (.rv64Base .mret) s = .next (s.takeTrapFree 2 0))

/-- A CSR instruction that reads takes the CSR's value in rd, and one that writes changes the CSR by its function of the old
value and the operand; a CSR above the mode, one that does not exist, and a write of one that is read-only are illegal
(08_stoker_isa.md R152). U-mode reaches only the CSRs whose number has 00 in bits [9:8]; S-mode also those with 01
(08_stoker_isa.md R152, R154; RISC-V's rule, log 20, PRESUMED). -/
def Obligations.CsrAccessAndCsrPrivilege : Prop :=
  (∀ (s : State) (op : CsrOp) (uimm : Bool) (rd rs1 : Reg) (csr : BitVec 12),
     (∀ old t, csrMode s.my.mode csr.toNat = true → s.csrRead csr.toNat = some old →
       s.csrWrite csr.toNat (csrNew op old (if uimm then rs1.setWidth 64 else s.my.getX rs1)) = some t →
       s.regsReady (if uimm then [] else [destX rs1]) [destX rd] →
       exec (.csrWrite op uimm rd rs1 csr) s = .next ((t.upd fun x => x.setX rd old).retireAt t.nextPc)) ∧
     (∀ old, csrMode s.my.mode csr.toNat = true → s.csrRead csr.toNat = some old → s.regsReady [] [destX rd] →
       exec (.rv64Base (.csrRead op uimm rd csr)) s = .next ((s.upd fun x => x.setX rd old).retireAt s.nextPc)) ∧
     (∀ old, csrMode s.my.mode csr.toNat = true → s.csrRead csr.toNat = some old →
       s.csrWrite csr.toNat (csrNew op old (if uimm then rs1.setWidth 64 else s.my.getX rs1)) = none →
       s.regsReady (if uimm then [] else [destX rs1]) [destX rd] →
       exec (.csrWrite op uimm rd rs1 csr) s = .next (s.takeTrapFree 2 0)) ∧
     (csrMode s.my.mode csr.toNat = false ∨ s.csrRead csr.toNat = none →
       exec (.rv64Base (.csrRead op uimm rd csr)) s = .next (s.takeTrapFree 2 0) ∧
       (s.regsReady (if uimm then [] else [destX rs1]) [destX rd] →
         exec (.csrWrite op uimm rd rs1 csr) s = .next (s.takeTrapFree 2 0)))) ∧
  (∀ n : BitVec 12,
     (csrMode .u n.toNat = true ↔ n.extractLsb' 8 2 = 0#2) ∧
     (csrMode .s n.toNat = true ↔ n.extractLsb' 8 2 = 0#2 ∨ n.extractLsb' 8 2 = 1#2) ∧ csrMode .m n.toNat = true)

/-- What a write of each class, scope, flag, trap and identity register of U-mode and S-mode stores; the numbers of the
read-only ones refuse it. A scope above 4 leaves `yscope`
(08_stoker_isa.md R152 to R154, R176; 16_system_state.md R273, R274). The fields of `fflags`, `frm`, `sstatus`, `sie`, `sip`,
`stvec`, `sscratch`, `sepc`, `scause` and `stval` that a write keeps are RISC-V's, taken from outside the spec (log 19,
PRESUMED). A write of `yevent` stores ARM and clears the latch
bits written with 1; a write of `ywm` from U-mode changes only the watermarks, each where the new value is at most its
queue's depth (08_stoker_isa.md R153, R175; log 27). `ymxst` is read and written once MX has retired all it holds, and
until then the access waits; `ydxst` once CX, GX and FX have (10_matrix_isa.md R209, 11_data_engines_isa.md R230). -/
def Obligations.CsrWriteTableAndEngineStatusAccess : Prop :=
  (∀ (s : State) (v : Word),
     s.csrWrite 0x800 v = some (s.upd fun x => { x with ycls := v.setWidth 4 }) ∧
     ((v.setWidth 3).toNat ≤ 4 → ∃ t, s.csrWrite 0x801 v = some t ∧ t.my = { s.my with yscope := v.setWidth 3 }) ∧
     (4 < (v.setWidth 3).toNat → ∃ t, s.csrWrite 0x801 v = some t ∧ t.my = s.my) ∧
     s.csrWrite 0x001 v = some (s.upd fun x => { x with fflags := v.setWidth 5 }) ∧
     s.csrWrite 0x002 v = some (s.upd fun x => { x with frm := v.setWidth 3 }) ∧
     s.csrWrite 0x003 v = some (s.upd fun x => { x with fflags := v.setWidth 5, frm := v.extractLsb' 5 3 }) ∧
     s.csrWrite 0x5C0 v = some (s.upd fun x => { x with yqlvec := v &&& ~~~(3#64) }) ∧
     s.csrWrite 0x141 v = some (s.upd fun x => { x with csr := { x.csr with sepc := v &&& ~~~(1#64) } }) ∧
     s.csrWrite 0x105 v = some (s.upd fun x => { x with csr := { x.csr with stvec := v &&& ~~~(2#64) } }) ∧
     s.csrWrite 0x140 v = some (s.upd fun x => { x with csr := { x.csr with sscratch := v } }) ∧
     s.csrWrite 0x142 v = some (s.upd fun x => { x with csr := { x.csr with scause := v } }) ∧
     s.csrWrite 0x143 v = some (s.upd fun x => { x with csr := { x.csr with stval := v } }) ∧
     s.csrWrite 0x5C1 v = some (s.upd fun x => { x with yqlepc := v }) ∧ s.csrWrite 0x180 v = some s ∧
     (∃ w : Word, s.csrWrite 0x100 v = some (s.upd fun x => { x with csr := { x.csr with mstatus := w } }) ∧
       ∀ i, w.getLsbD i = if i ∈ [1, 5, 8, 18, 19] then v.getLsbD i else s.my.csr.mstatus.getLsbD i) ∧
     (∃ w : Word, s.csrWrite 0x104 v = some (s.upd fun x => { x with csr := { x.csr with mie := w } }) ∧
       ∀ i, w.getLsbD i = if i ∈ [1, 5, 9, 17, 18] then v.getLsbD i else s.my.csr.mie.getLsbD i) ∧
     (∃ w : Word, s.csrWrite 0x144 v = some (s.upd fun x => { x with csr := { x.csr with mip := w } }) ∧
       ∀ i, w.getLsbD i = if i = 1 then v.getLsbD i else s.my.csr.mip.getLsbD i) ∧
     (∀ n, n ∈ [0xCC0, 0xCC1, 0xCC2, 0xCC3, 0xCC4, 0xCC5, 0xCC6, 0xCC7, 0xCC8, 0xC00, 0xC01, 0xC02, 0x5C2, 0x5C3, 0x5C4,
       0x5C5, 0x5C6, 0x5C7, 0x5C8] → s.csrWrite n v = none)) ∧
  (∀ (s : State) (op : CsrOp) (uimm : Bool) (rd rs1 : Reg), s.regsReady (if uimm then [] else [destX rs1]) [destX rd] →
     let arg : Word := if uimm then rs1.setWidth 64 else s.my.getX rs1
     (let old : Word := (s.my.arm.setWidth 64 <<< 32) ||| s.my.latch.setWidth 64
      let v := csrNew op old arg
      exec (.yeventWrite op uimm rd rs1) s =
       .next ((s.upd fun x => Ctx.setX { x with arm := v.extractLsb' 32 16, latch := x.latch &&& ~~~(v.setWidth 16) } rd
         old).retireAt s.nextPc)) ∧
     (let old := s.my.ywm.word
      let v := csrNew op old arg
      exec (.ywmWrite op uimm rd rs1) s =
       .next ((s.upd fun x => Ctx.setX { x with ywm := ywmSet x.ywm x.mode v } rd old).retireAt s.nextPc)) ∧
     (∀ (w : Ywm) (v : Word),
       (ywmSet w .u v).qlact = w.qlact ∧ (ywmSet w .u v).parked = w.parked ∧ (ywmSet w .u v).svc = w.svc ∧
       (ywmSet w .s v).svc = v.getLsbD 61 ∧
       (ywmSet w .u v).vx = (if (v.extractLsb' 0 6).toNat ≤ 32 then v.extractLsb' 0 6 else w.vx) ∧
       (ywmSet w .u v).mx = (if (v.extractLsb' 8 6).toNat ≤ 32 then v.extractLsb' 8 6 else w.mx) ∧
       (ywmSet w .u v).cx = (if (v.extractLsb' 16 7).toNat ≤ 64 then v.extractLsb' 16 7 else w.cx) ∧
       (ywmSet w .u v).gx = (if (v.extractLsb' 24 6).toNat ≤ 32 then v.extractLsb' 24 6 else w.gx) ∧
       (ywmSet w .u v).fx = (if (v.extractLsb' 32 4).toNat ≤ 8 then v.extractLsb' 32 4 else w.fx) ∧
       (ywmSet w .u v).cl = (if (v.extractLsb' 40 5).toNat ≤ 16 then v.extractLsb' 40 5 else w.cl))) ∧
  (∀ (s : State) (op : CsrOp) (uimm : Bool) (rd rs1 : Reg), s.regsReady (if uimm then [] else [destX rs1]) [destX rd] →
     let arg : Word := if uimm then rs1.setWidth 64 else s.my.getX rs1
     (s.my.mxq = [] → csrDoesWrite op rs1 = true → exec (.ymxstAccess op uimm rd rs1) s =
       let old := s.my.mx.st.word
       .next ((s.upd fun x => Ctx.setX { x with mx := { x.mx with st := x.mx.st.write (csrNew op old arg) } } rd
         old).retireAt s.nextPc)) ∧
     (s.my.mxq = [] → csrDoesWrite op rs1 = false → exec (.ymxstAccess op uimm rd rs1) s =
       .next ((s.upd fun x => x.setX rd s.my.mx.st.word).retireAt s.nextPc)) ∧
     (s.my.mxq ≠ [] → ∃ t, exec (.ymxstAccess op uimm rd rs1) s = .next t ∧ t.my.pc = s.my.pc ∧ t.my.x = s.my.x ∧
       t.my.mx = s.my.mx) ∧
     (s.my.cxq = [] → s.my.gxq = [] → s.my.fxq = [] → csrDoesWrite op rs1 = true → exec (.ydxstAccess op uimm rd rs1) s =
       let old := s.my.ydxst.word
       .next ((s.upd fun x => Ctx.setX { x with ydxst := x.ydxst.write (csrNew op old arg) } rd old).retireAt s.nextPc)) ∧
     (s.my.cxq = [] → s.my.gxq = [] → s.my.fxq = [] → csrDoesWrite op rs1 = false → exec (.ydxstAccess op uimm rd rs1) s =
       .next ((s.upd fun x => x.setX rd s.my.ydxst.word).retireAt s.nextPc)) ∧
     (s.my.cxq ≠ [] ∨ s.my.gxq ≠ [] ∨ s.my.fxq ≠ [] → ∃ t, exec (.ydxstAccess op uimm rd rs1) s = .next t ∧
       t.my.pc = s.my.pc ∧ t.my.x = s.my.x ∧ t.my.ydxst = s.my.ydxst))

/-- A global load joins its class queue as a load of its width and is charged a line event; a misaligned one raises cause 4. One
that does not translate takes the page fault, cause 13 with its address, and one that breaks isolation freezes the team in
place (20_translation_faults.md R307 to R311, R315). RV64 loads take the class from `ycls`, `sk.cl.load` from its own field (06_ordering.md R99, 08_stoker_isa.md R149, R162). -/
def Obligations.GlobalLoads : Prop :=
  (∀ (s t : State) (k : LoadKind) (rd rs1 : Reg) (imm : BitVec 12) (p : Place) (attr : Nat),
    let va := s.rx rs1 + imm.signExtend 64
    let d := if (loadForm k).2.2 then Dest.f rd else destX rd
    s.regsReady [destX rs1] [d] →
    (va.toNat % (loadForm k).1 = 0 → s.lands .read va p attr t → exec (.rv64Load k rd rs1 imm) s =
      .next (((t.enqueue { classes := classBit s.my.ycls,
                           kind := .load p (loadForm k).1 (loadForm k).2.1 (bitNat attr 5) va, dest := d, typed := false }).meter
        t.cur (lineEvent p attr false) 1).retireAt t.nextPc)) ∧
    (∀ r, va.toNat % (loadForm k).1 = 0 → s.misses .read va r → exec (.rv64Load k rd rs1 imm) s = r) ∧
    (va.toNat % (loadForm k).1 ≠ 0 → exec (.rv64Load k rd rs1 imm) s = .next (s.takeTrap 4 va 0))) ∧
  (∀ (s t : State) (c : BitVec 4) (u : BitVec 1) (b a : Reg) (w : BitVec 2) (rd : Reg) (p : Place) (attr : Nat),
    let va := s.rx a + s.rx b
    s.regsReady [destX a, destX b] [destX rd] →
    (va.toNat % 2 ^ w.toNat = 0 → s.lands .read va p attr t → exec (.skClLoad c u b a w rd) s =
      .next (((t.enqueue { classes := classBit c, kind := .load p (2 ^ w.toNat) (u == 0) (bitNat attr 5) va,
                           dest := destX rd, typed := false }).meter t.cur (lineEvent p attr false) 1).retireAt t.nextPc)) ∧
    (∀ r, va.toNat % 2 ^ w.toNat = 0 → s.misses .read va r → exec (.skClLoad c u b a w rd) s = r) ∧
    (va.toNat % 2 ^ w.toNat ≠ 0 → exec (.skClLoad c u b a w rd) s = .next (s.takeTrap 4 va 0)))

/-- A global store joins its class queue with the low bytes of its source, least significant first; a misaligned one raises
cause 6, and one to a lent page cause 27 with the address's offset in that page (06_ordering.md R99, 08_stoker_isa.md R162,
R174). One that does not translate takes the page fault, cause 15 with its address, and one that breaks isolation freezes the
team in place (20_translation_faults.md R307 to R311, R315). -/
def Obligations.GlobalStores : Prop :=
  (∀ (s t : State) (k : StoreKind) (rs2 rs1 : Reg) (imm : BitVec 12) (p : Place) (attr : Nat),
    let va := s.rx rs1 + imm.signExtend 64
    let v := if (storeForm k).2 then s.rf rs2 else s.rx rs2
    s.regsReady [destX rs1, if (storeForm k).2 then Dest.f rs2 else destX rs2] [] →
    (va.toNat % (storeForm k).1 = 0 → s.lands .write va p attr t →
      (t.unlent va → exec (.rv64Store k rs2 rs1 imm) s =
        .next (((t.enqueue { classes := classBit s.my.ycls, kind := .store p (leBytes (storeForm k).1 v.toNat), dest := .none,
                             typed := false }).meter t.cur (lineEvent p attr true) 1).retireAt t.nextPc)) ∧
      (¬t.unlent va → exec (.rv64Store k rs2 rs1 imm) s =
        .next (t.takeTrapFree 27 (t.lentOffset t.me.b.part.toNat va.toNat)))) ∧
    (∀ r, va.toNat % (storeForm k).1 = 0 → s.misses .write va r → exec (.rv64Store k rs2 rs1 imm) s = r) ∧
    (va.toNat % (storeForm k).1 ≠ 0 → exec (.rv64Store k rs2 rs1 imm) s = .next (s.takeTrap 6 va 0))) ∧
  (∀ (s t : State) (c : BitVec 4) (b a : Reg) (w : BitVec 2) (p : Place) (attr : Nat),
    let va := s.rx a
    s.regsReady [destX a, destX b] [] →
    (va.toNat % 2 ^ w.toNat = 0 → s.lands .write va p attr t →
      (t.unlent va → exec (.skCsStore c b a w) s =
        .next (((t.enqueue { classes := classBit c, kind := .store p (leBytes (2 ^ w.toNat) (s.rx b).toNat), dest := .none,
                             typed := false }).meter t.cur (lineEvent p attr true) 1).retireAt t.nextPc)) ∧
      (¬t.unlent va → exec (.skCsStore c b a w) s =
        .next (t.takeTrapFree 27 (t.lentOffset t.me.b.part.toNat va.toNat)))) ∧
    (∀ r, va.toNat % 2 ^ w.toNat = 0 → s.misses .write va r → exec (.skCsStore c b a w) s = r) ∧
    (va.toNat % 2 ^ w.toNat ≠ 0 → exec (.skCsStore c b a w) s = .next (s.takeTrap 6 va 0)))

/-- AMO, LR and SC join the class queue of `ycls`: a release bit puts a fence of every class at `yscope` before them, an
acquire bit an acquire behind them (behind SC too: log 119). A misaligned address raises cause 6, of LR cause 4, and AMO and
SC of a lent page raise cause 27 (06_ordering.md R100, R107, R108; 08_stoker_isa.md R174). One that does not translate takes
the page fault, 15, of LR 13, and one that breaks isolation freezes the team in place (20_translation_faults.md R307 to R311,
R315). -/
def Obligations.GlobalAtomics : Prop :=
  ∀ (s t : State) (dbl aq rl : Bool) (rd rs1 rs2 : Reg) (p : Place) (attr : Nat),
    let n := if dbl then 8 else 4
    let va := s.rx rs1
    let ent := fun (k : SqKind) => ({ classes := classBit t.my.ycls, kind := k, dest := destX rd, typed := false } : SqEnt)
    (∀ op, s.regsReady [destX rs1, destX rs2] [destX rd] →
      (va.toNat % n = 0 → s.lands .write va p attr t → t.unlent va → exec (.amo op dbl aq rl rd rs1 rs2) s =
        .next ((((((t.releaseIf rl).enqueue (ent (.amo op p n (t.rx rs2) t.my.yscope.toNat (bitNat attr 5) va))).acquireIf
          aq).meter t.cur (lineEvent p attr false) 1).meter t.cur (lineEvent p attr true) 1).retireAt t.nextPc)) ∧
      (va.toNat % n = 0 → s.lands .write va p attr t → ¬t.unlent va → exec (.amo op dbl aq rl rd rs1 rs2) s =
        .next (t.takeTrapFree 27 (t.lentOffset t.me.b.part.toNat va.toNat))) ∧
      (∀ r, va.toNat % n = 0 → s.misses .write va r → exec (.amo op dbl aq rl rd rs1 rs2) s = r) ∧
      (va.toNat % n ≠ 0 → exec (.amo op dbl aq rl rd rs1 rs2) s = .next (s.takeTrap 6 va 0))) ∧
    (s.regsReady [destX rs1] [destX rd] →
      (va.toNat % n = 0 → s.lands .read va p attr t → exec (.lr dbl aq rl rd rs1) s =
        .next ((((t.enqueue (ent (.lr p n t.my.yscope.toNat (bitNat attr 5) va))).acquireIf aq).meter t.cur
          (lineEvent p attr false) 1).retireAt t.nextPc)) ∧
      (∀ r, va.toNat % n = 0 → s.misses .read va r → exec (.lr dbl aq rl rd rs1) s = r) ∧
      (va.toNat % n ≠ 0 → exec (.lr dbl aq rl rd rs1) s = .next (s.takeTrap 4 va 0))) ∧
    (s.regsReady [destX rs1, destX rs2] [destX rd] →
      (va.toNat % n = 0 → s.lands .write va p attr t → t.unlent va → exec (.sc dbl aq rl rd rs1 rs2) s =
        .next ((((t.releaseIf rl).enqueue (ent (.sc p n (t.rx rs2) t.my.yscope.toNat (lineEvent p attr true)))).acquireIf
          aq).retireAt t.nextPc)) ∧
      (va.toNat % n = 0 → s.lands .write va p attr t → ¬t.unlent va → exec (.sc dbl aq rl rd rs1 rs2) s =
        .next (t.takeTrapFree 27 (t.lentOffset t.me.b.part.toNat va.toNat))) ∧
      (∀ r, va.toNat % n = 0 → s.misses .write va r → exec (.sc dbl aq rl rd rs1 rs2) s = r) ∧
      (va.toNat % n ≠ 0 → exec (.sc dbl aq rl rd rs1 rs2) s = .next (s.takeTrap 6 va 0)))

/-- A typed access joins its class queue as a typed entry and is charged one buffer unit; a misaligned one raises cause 4 or
6, one outside the footprint cause 24 with its offset, and one to a member that does not exist cause 25: which offsets of the
two spaces lie where (01_machine.md R14, 05_local_memory.md R78, R79, 08_stoker_isa.md R162). The ABUF atomics take the class of `ycls`, and cluster scope through the
window (06_ordering.md R109, 08_stoker_isa.md R163). -/
def Obligations.TypedAccesses : Prop :=
  (∀ (s : State) (c : BitVec 4) (u : BitVec 1) (b a : Reg) (w : BitVec 2) (rd : Reg) (p : Place),
    let va := s.rx a + s.rx b
    let n := widthBytes w
    let e : SqEnt := { classes := classBit c, kind := .load p n (u == 0) false va, dest := destX rd, typed := true }
    s.regsReady [destX a, destX b] [destX rd] →
    (va.toNat % n = 0 → s.typedLands false (s.aSpace s.cur va.toNat n) n false p →
      exec (.abLoad c u b a w rd) s = .next (((s.enqueue e).meter s.cur 24 1).retireAt s.nextPc)) ∧
    (va.toNat % n = 0 → s.typedLands true (s.wSpace s.cur va.toNat n) n false p →
      exec (.wbLoad c u b a w rd) s = .next (((s.enqueue e).meter s.cur 24 1).retireAt s.nextPc)) ∧
    (∀ off, va.toNat % n = 0 → s.aSpace s.cur va.toNat n = .bound off →
      exec (.abLoad c u b a w rd) s = .next (s.takeTrapFree 24 off)) ∧
    (∀ m, va.toNat % n = 0 → s.aSpace s.cur va.toNat n = .badMember m →
      exec (.abLoad c u b a w rd) s = .next (s.takeTrapFree 25 m)) ∧
    (∀ off, va.toNat % n = 0 → s.wSpace s.cur va.toNat n = .bound off →
      exec (.wbLoad c u b a w rd) s = .next (s.takeTrapFree 24 off)) ∧
    (va.toNat % n ≠ 0 → exec (.abLoad c u b a w rd) s = .next (s.takeTrap 4 va 0) ∧
      exec (.wbLoad c u b a w rd) s = .next (s.takeTrap 4 va 0))) ∧
  (∀ (s : State) (c : BitVec 4) (b a : Reg) (w : BitVec 2) (p : Place),
    let va := s.rx a
    let n := widthBytes w
    let e : SqEnt := { classes := classBit c, kind := .store p (leBytes n (s.rx b).toNat), dest := .none, typed := true }
    s.regsReady [destX a, destX b] [] →
    (va.toNat % n = 0 → s.typedLands false (s.aSpace s.cur va.toNat n) n true p →
      exec (.abStore c b a w) s = .next (((s.enqueue e).meter s.cur 24 1).retireAt s.nextPc)) ∧
    (va.toNat % n = 0 → s.typedLands true (s.wSpace s.cur va.toNat n) n true p →
      exec (.wbStore c b a w) s = .next (((s.enqueue e).meter s.cur 24 1).retireAt s.nextPc)) ∧
    (∀ off, va.toNat % n = 0 → s.aSpace s.cur va.toNat n = .bound off →
      exec (.abStore c b a w) s = .next (s.takeTrapFree 24 off)) ∧
    (∀ m, va.toNat % n = 0 → s.aSpace s.cur va.toNat n = .badMember m →
      exec (.abStore c b a w) s = .next (s.takeTrapFree 25 m)) ∧
    (∀ off, va.toNat % n = 0 → s.wSpace s.cur va.toNat n = .bound off →
      exec (.wbStore c b a w) s = .next (s.takeTrapFree 24 off)) ∧
    (va.toNat % n ≠ 0 → exec (.abStore c b a w) s = .next (s.takeTrap 6 va 0) ∧
      exec (.wbStore c b a w) s = .next (s.takeTrap 6 va 0))) ∧
  (∀ (s : State) (op : AmoOp) (w : BitVec 1) (b a rd : Reg) (p : Place),
    let va := s.rx a
    let n := if w = 1 then 8 else 4
    let typed := s.aSpace s.cur va.toNat n
    let scope := match typed with
      | .team _ => 1
      | _ => 0
    s.regsReady [destX a, destX b] [destX rd] →
    (va.toNat % n = 0 → s.typedLands false typed n true p → exec (abAmoOf op w b a rd) s =
      .next (((s.enqueue { classes := classBit s.my.ycls, kind := .amo op p n (s.rx b) scope false va, dest := destX rd,
                           typed := true }).meter s.cur 24 1).retireAt s.nextPc)) ∧
    (∀ off, va.toNat % n = 0 → typed = .bound off → exec (abAmoOf op w b a rd) s = .next (s.takeTrapFree 24 off)) ∧
    (∀ m, va.toNat % n = 0 → typed = .badMember m → exec (abAmoOf op w b a rd) s = .next (s.takeTrapFree 25 m)) ∧
    (va.toNat % n ≠ 0 → exec (abAmoOf op w b a rd) s = .next (s.takeTrap 6 va 0))) ∧
  (∀ (s : State) (a n : Nat),
    let own := 4096 * s.me.b.aLimit
    let m := (a - 0x1000000) / 0x100000
    let o := (a - 0x1000000) % 0x100000
    let far := s.memberBind s.cur m
    (s.wSpace s.cur a n = if a + n ≤ 4096 * s.me.b.wLimit then .own a (.wbuf s.cur (4096 * s.me.b.wBase + a))
      else .bound (max a (4096 * s.me.b.wLimit))) ∧
    (a < 0x100000 → s.aSpace s.cur a n = if a + n ≤ own then .own a (.abuf s.cur (4096 * s.me.b.aBase + a))
      else .bound (max a own)) ∧
    ((0x100000 ≤ a ∧ a < 0x1000000) ∨ 0x2000000 ≤ a → s.aSpace s.cur a n = .bound a) ∧
    (0x1000000 ≤ a → a < 0x2000000 → s.my.teamSize ≤ m → s.aSpace s.cur a n = .badMember m) ∧
    (0x1000000 ≤ a → a < 0x2000000 → m < s.my.teamSize → m ≠ s.my.member → o + n ≤ 4096 * far.2.aLimit →
      s.aSpace s.cur a n = .team (.abuf far.1 (4096 * far.2.aBase + o))))

/-- FENCE with nonempty sets and `sk.fence` with a nonempty mask put one fence into the class queues they name, with an empty
set or mask none; FENCE.I waits until no access of the Stoker is outstanding; WFI, and `dq.export` after storing its mark,
complete at once (06_ordering.md R106, R107; 08_stoker_isa.md R151, R161, R164). SFENCE.VMA drops the entries of its
partition that match its operands and keeps the others, without an address-space operand the global ones too; it is
illegal in U-mode and, with TVM, in S-mode (20_translation_faults.md R310). -/
def Obligations.FencesAndTlbFence : Prop :=
  (∀ s : State,
     (∀ (fm pred succ : BitVec 4) (rs1 rd : Reg), exec (.fence fm pred succ rs1 rd) s =
       if pred ≠ 0 ∧ succ ≠ 0 then
         .next ((s.enqueue { classes := 0xFFFF, kind := .fence s.my.yscope.toNat, dest := .none, typed := false }).retireAt
           s.nextPc)
       else .next (s.retireAt s.nextPc)) ∧
     (∀ (m : BitVec 1) (c : BitVec 3) (e d k : BitVec 5), exec (.skFence m c e d k) s =
       if m ++ e ++ d ++ k = 0 then .next (s.retireAt s.nextPc)
       else .next ((s.enqueue { classes := m ++ e ++ d ++ k, kind := .fence c.toNat, dest := .none, typed := false }).retireAt
         s.nextPc)) ∧
     (s.my.sq.any (fun e => e.classes != 0) = false → exec .fenceI s = .next (s.retireAt s.nextPc)) ∧
     (s.my.sq.any (fun e => e.classes != 0) = true → exec .fenceI s = .next s) ∧
     exec .wfi s = .next (s.retireAt s.nextPc) ∧
     (∀ n, exec (.dqExport n) s = .next ((s.upd fun x => { x with exported := n == 1 }).retireAt s.nextPc))) ∧
  (∀ (s : State) (rs1 rs2 : Reg),
     (s.my.mode ≠ .u → (s.my.mode = .s → s.my.csr.mstatus.getLsbD 20 = false) → s.regsReady [destX rs1, destX rs2] [] →
       ∃ tlb, exec (.sfenceVma rs1 rs2) s = .next ({ s with tlb := tlb }.retireAt s.nextPc) ∧
         ∀ e : TlbEnt, e ∈ tlb ↔ e ∈ s.tlb ∧
           ¬(e.part = s.me.b.part.toNat ∧
             (rs1 = 0 ∨ (e.va ≤ (s.rx rs1).toNat ∧ (s.rx rs1).toNat < e.va + e.size)) ∧
             (rs2 = 0 ∨ e.pte.getLsbD 5 = false))) ∧
     (s.my.mode = .u → exec (.sfenceVma rs1 rs2) s = .next (s.takeTrapFree 2 0)) ∧
     (s.my.mode = .s → s.my.csr.mstatus.getLsbD 20 = true → exec (.sfenceVma rs1 rs2) s = .next (s.takeTrapFree 2 0)))

/-- At task start every rendezvous register is idle, and an idle register counts as fired. `sk.rdvwait rvK` blocks until rvK
has fired, and then acts as the acquire; `sk.rdvtest rd, rvK` writes 1 into rd when rvK has fired and 0 otherwise, and
with 1 it acts as the same acquire. Neither instruction changes the state of rvK (08_stoker_isa.md R158). -/
def Obligations.Rendezvous : Prop :=
  (∀ (x : Ctx) (k : Nat), x.fresh.rvAt k = Rv.idle ∧ Rv.idle.fired = true) ∧
  ∀ (s : State) (k rd : BitVec 5),
    ((s.my.rvAt k.toNat).fired = true → exec (.skRdvwait k) s = .next (s.acquire.retireAt s.nextPc)) ∧
    ((s.my.rvAt k.toNat).fired = false → ∃ t, exec (.skRdvwait k) s = .next t ∧ t.my.pc = s.my.pc ∧ t.my.x = s.my.x ∧
      t.my.rv = s.my.rv) ∧
    (s.regsReady [] [destX rd] →
      ((s.my.rvAt k.toNat).fired = true → exec (.skRdvtest k rd) s = .next ((s.acquire.owe rd 1).retireAt s.nextPc)) ∧
      ((s.my.rvAt k.toNat).fired = false → exec (.skRdvtest k rd) s = .next ((s.owe rd 0).retireAt s.nextPc))) ∧
    (s.acquire.retireAt s.nextPc).my.rv = s.my.rv ∧ ((s.acquire.owe rd 1).retireAt s.nextPc).my.rv = s.my.rv ∧
    ((s.owe rd 0).retireAt s.nextPc).my.rv = s.my.rv

/-- `sk.wfe` returns 0 at once with nothing armed, returns and clears the armed events that are latched, with an acquire, and
waits while there is none; `sk.sev` joins the class queue of `ycls`; `sk.send`, once no access of its class is on its way,
appends its word and latches RECV at the member, and waits while the receive queue there is full; both raise cause 25 for a
member at or above the team size; `sk.recv` takes the oldest word with an acquire (08_stoker_isa.md R151, R153, R159, R160;
log 108). Stoker's events perform: `sk.sev` latches SEV at the member; `dq.push` answers 2 for the word 0, 1 for a full
deque, and 0 with the word at the bottom (R164); `sk.lend` answers 1 for a page lent already, 2 where the task has lent
sixteen, and otherwise lends the page and answers 0 (R174). -/
def Obligations.EventsAndMessagesAndPerformMessages : Prop :=
  (∀ (s : State) (a m rd : BitVec 5),
     let ev := s.my.latch &&& s.my.arm
     (s.regsReady [] [destX rd] → s.my.arm = 0 → exec (.skWfe rd) s =
       .next ((s.upd fun x => x.setX rd 0).retireAt s.nextPc)) ∧
     (s.regsReady [] [destX rd] → ev ≠ 0 → exec (.skWfe rd) s =
       .next ((s.upd fun x => Ctx.setX { x with latch := x.latch &&& ~~~ev, sq := x.sq ++ [acquireEnt] } rd
         (ev.setWidth 64)).retireAt s.nextPc)) ∧
     (m.toNat < s.my.teamSize → exec (.skSev m) s =
       .next ((s.enqueue (plainEnt s.my.ycls (.sev m.toNat))).retireAt s.nextPc)) ∧
     (s.my.teamSize ≤ m.toNat → exec (.skSev m) s = .next (s.takeTrapFree 25 m.toNat)) ∧
     (s.regsReady [] [destX rd] → s.my.arm ≠ 0 → ev = 0 → ∃ t, exec (.skWfe rd) s = .next t ∧ t.my.pc = s.my.pc ∧
       t.my.x = s.my.x ∧ t.my.latch = s.my.latch) ∧
     (m.toNat < s.my.teamSize → s.regsReady [destX a] [] → s.my.classQuiet (classBit s.my.ycls) = true →
       let h := s.home s.cur m.toNat
       ((s.homeCtx h).recvq.length < 8 → exec (.skSend a m) s =
         let u := (s.modHome h fun y => { y with recvq := y.recvq ++ [s.rx a] }).eventAt h 9 0 s.cur
         .next (u.retireAt u.nextPc)) ∧
       (8 ≤ (s.homeCtx h).recvq.length → ∃ t, exec (.skSend a m) s = .next t ∧ t.my.pc = s.my.pc ∧ t.my.x = s.my.x)) ∧
     (s.my.teamSize ≤ m.toNat → s.regsReady [destX a] [] → exec (.skSend a m) s = .next (s.takeTrapFree 25 m.toNat)) ∧
     (∀ v rest, s.regsReady [] [destX rd] → s.my.recvq = v :: rest → exec (.skRecv rd) s =
       .next ((s.upd fun x => Ctx.setX { x with recvq := rest, sq := x.sq ++ [acquireEnt] } rd v).retireAt s.nextPc))) ∧
  (∀ (s : State) (k : Nat) (e : SqEnt), s.mayPerform k e →
     (∀ m, e.kind = .sev m → exec (.pendingRegisterWrite k) s =
       .next ((s.eventAt (s.home s.cur m) 8 0 s.cur).landAt s.cur k 0)) ∧
     (∀ v, e.kind = .dqPush v →
       (v = 0 → exec (.pendingRegisterWrite k) s = .next (s.landAt s.cur k 2)) ∧
       (v ≠ 0 → s.ownVisible s.cur e.classes (if s.my.exported then 2 else 1) = true →
         (64 ≤ s.my.deque.length → exec (.pendingRegisterWrite k) s = .next (s.landAt s.cur k 1)) ∧
         (s.my.deque.length < 64 → exec (.pendingRegisterWrite k) s =
           .next ((s.upd fun y => { y with deque := y.deque ++ [{ v := v, older := s.ownNarrow s.cur e.classes }] }).landAt
             s.cur k 0)))) ∧
     (∀ page size, e.kind = .lend page size → s.ownVisible s.cur e.classes 4 = true →
       let who := s.me.task.getD (0, 0)
       let mine := s.lentBy who
       (mine.any (·.page == page) = true → exec (.pendingRegisterWrite k) s = .next (s.landAt s.cur k 1)) ∧
       (mine.any (·.page == page) = false → 16 ≤ mine.length →
         exec (.pendingRegisterWrite k) s = .next (s.landAt s.cur k 2)) ∧
       (mine.any (·.page == page) = false → mine.length < 16 → exec (.pendingRegisterWrite k) s =
         let l : Lent := { part := s.me.b.part.toNat, page := page, size := size, team := who.1, member := who.2 }
         .next ({ s with lent := s.lent ++ [l] }.landAt s.cur k 0))))

/-- A performed load returns the bytes its Stoker reads at the place, extended as its form says, and a performed store writes
its bytes there at core scope; each leaves the class queues with its result in its destination (06_ordering.md R101, R102;
08_stoker_isa.md R149). A load that meets an uncorrectable error returns what a load of zeros returns on a page with UEZ, and
elsewhere marks its destination (20_translation_faults.md R318). An AMO that has caught up reads, and stores the result of its operation directly behind what it
read, at its scope; LR reads and reserves its bytes; SC stores and returns 0 with its own unbroken reservation, and
otherwise, with one that is broken, at another address or of another size, or none, returns 1 and stores nothing; the
reservation is gone (06_ordering.md R108). That an AMO, LR and SC wait until their agent has caught up at their bytes is log 26
(DEDUCED). -/
def Obligations.PerformAccessesAndPerformAtomics : Prop :=
  (∀ (s : State) (k : Nat) (e : SqEnt), s.mayPerform k e →
     let q := Actor.core s.cur .sk
     (∀ p n sext uez va, e.kind = .load p n sext uez va → s.clean p n uez va → exec (.pendingRegisterWrite k) s =
       .next ((s.noteSeen s.cur e.cls 0 p n).landAt s.cur k (loadedValue e.dest n sext (s.readPlace q p n)))) ∧
     (∀ p n sext uez va u, e.kind = .load p n sext uez va → s.readError s.cur p n uez va = (u, true) →
       exec (.pendingRegisterWrite k) s = .next (if uez then u.landAt s.cur k (loadedValue e.dest n sext (List.replicate n 0))
         else u.poisonAt s.cur k e.dest va)) ∧
     (∀ p bs, e.kind = .store p bs → exec (.pendingRegisterWrite k) s =
       .next ((s.writePlace q e.cls 0 p bs).landAt s.cur k 0)) ∧
     (∀ v, e.kind = .ready v → exec (.pendingRegisterWrite k) s = .next (s.landAt s.cur k v)) ∧
     (e.kind = .acquire → exec (.pendingRegisterWrite k) s = .next (s.landAt s.cur k 0)) ∧
     (∀ scope, e.kind = .fence scope →
       exec (.pendingRegisterWrite k) s = .next (if s.fenceDone s.cur e.classes scope then s.landAt s.cur k 0 else s)) ∧
     (∀ v, s.landAt s.cur k v = s.upd fun x => match x.sq[k]? with
       | some e => { x with sq := dropAt x.sq k }.land e.dest v
       | none => x)) ∧
  (∀ (s : State) (k : Nat) (e : SqEnt), s.mayPerform k e →
     let q := Actor.core s.cur .sk
     (∀ op p n v sc uez va, e.kind = .amo op p n v sc uez va → s.caughtUp q s.my.known sc p n = true →
       s.clean p n uez va → exec (.pendingRegisterWrite k) s =
         let old := leNat (s.readAtomic q sc p n)
         .next (((s.noteSeen s.cur e.cls sc p n).atomicWrite q e.cls sc p (leBytes n (amoVal op n old v.toNat))).landAt s.cur k
           (extend n true old))) ∧
     (∀ p n sc uez va, e.kind = .lr p n sc uez va → s.caughtUp q s.my.known sc p n = true → s.clean p n uez va →
       exec (.pendingRegisterWrite k) s =
         .next (((s.noteSeen s.cur e.cls sc p n).landAt s.cur k (extend n true (leNat (s.readAtomic q sc p n)))).modCtx s.cur
           fun y => { y with resv := some { place := p, size := n, scope := sc, since := s.nextId, broken := false } })) ∧
     (∀ p n v sc ev, e.kind = .sc p n v sc ev → s.caughtUp q s.my.known sc p n = true →
       (∀ r, s.my.resv = some r → r.place = p → r.size = n → r.broken = false → exec (.pendingRegisterWrite k) s =
         .next ((((s.modCtx s.cur fun y => { y with resv := none }).atomicWrite q e.cls sc p (leBytes n v.toNat)).landAt
           s.cur k 0).meter s.cur ev 1)) ∧
       (∀ r, s.my.resv = some r → r.broken = true → exec (.pendingRegisterWrite k) s =
         .next ((s.modCtx s.cur fun y => { y with resv := none }).landAt s.cur k 1)) ∧
       (∀ r, s.my.resv = some r → r.place ≠ p ∨ r.size ≠ n → exec (.pendingRegisterWrite k) s =
         .next ((s.modCtx s.cur fun y => { y with resv := none }).landAt s.cur k 1)) ∧
       (s.my.resv = none → exec (.pendingRegisterWrite k) s = .next (s.landAt s.cur k 1))) ∧
     (∀ op p n v sc uez va, e.kind = .amo op p n v sc uez va → s.caughtUp q s.my.known sc p n = false →
       exec (.pendingRegisterWrite k) s = .next s))

/-- A write that joins the coherence order at its end reads back at once for every agent it is visible to, and every byte
outside it, and every byte for the agents it is not visible to, reads as before (06_ordering.md R101, R102). Writes that
every agent sees leave the coherence order and become memory, and no read of any agent changes (06_ordering.md R102).
Stores to a typed buffer write their bytes there and no others, also where a refill still has the granule in the forwarding
table, and a read of bytes stored returns them, least significant first; pieces of SRAM written whole read well again
(05_local_memory.md R79, R91, 03_numbers.md R48; log 113). A write keeps the canonical form of memory: addresses strictly
rising, no byte equal to what an unlisted address reads as (log 2). -/
def Obligations.JoinedWriteReadsAndMemoryCanonical : Prop :=
  (∀ (s : State) (w : Wr) (q : Actor) (need : Nat) (inHost : Bool) (a : Nat),
     let t : State := { s with pend := s.pend ++ [w] }
     (w.inHost = inHost → w.visibleAt q need = true → ∀ b, cellAt w.cells a = some b → t.readByte q need inHost a = b) ∧
     (w.inHost ≠ inHost ∨ w.visibleAt q need = false ∨ cellAt w.cells a = none →
       t.readByte q need inHost a = s.readByte q need inHost a)) ∧
  (∀ (s : State) (q : Actor) (need : Nat) (inHost : Bool) (a : Nat), s.distinct → need ≤ 4 →
     s.settle.readByte q need inHost a = s.readByte q need inHost a) ∧
  ((∀ (s : State) (q : Actor) (cls : BitVec 4) (sc c o : Nat) (bs : List Byte) (b : Nat),
     let t := s.writePlace q cls sc (.abuf c o) bs
     let m := (s.core c).buf false
     (((t.core c).buf false).read b = if o ≤ b then (bs[b - o]?).getD (m.read b) else m.read b) ∧
     (t.core c).buf true = (s.core c).buf true ∧ (t.core c).wBytes = (s.core c).wBytes ∧ (∀ d, d ≠ c → t.core d = s.core d) ∧
     (∀ x ∈ t.bad, x ∈ s.bad) ∧ { t with cores := s.cores, bad := s.bad } = s) ∧
   (∀ n v, leNat (leBytes n v) = v % 256 ^ n)) ∧
  ((∀ (m : Memory) (a : Nat) (bs : List Byte), m.wf = true → (m.writeN a bs).wf = true) ∧
   (∀ s : State, s.memOk → s.settle.memOk) ∧ State.reset.memOk ∧
   (∀ (s : State) (q : Actor) (cls : BitVec 4) (sc : Nat) (p : Place) (bs : List Byte),
     s.memOk → (s.atomicWrite q cls sc p bs).memOk))

/-- A push puts its entry, unstarted and with the bindings of its moment, at the tail of its engine's queue, with its
position, and puts a push entry at the tail of its class queues; the other queues, the registers, the pc and all outside
the core's context stay. The push of a run is charged the buffer unit of its record; the record of another command is charged
when its engine reads it (17_energy.md R288). A push waits while a typed access of the Stoker is outstanding, and a full
engine queue stalls it, with the queue and the pc unchanged (08_stoker_isa.md R155; 05_local_memory.md R89, R90;
20_translation_faults.md R312). -/
def Obligations.PushRegisters : Prop :=
  ∀ (s : State) (r : PushReq) (k : State → Res), r.agent ≠ .sk →
    let n := Tbl.get 0 s.my.qpos r.agent.code
    (∃ f : Ctx → Ctx, s.register r = s.upd f ∧
      (f s.my).queue r.agent = s.my.queue r.agent ++ [{ r.entry s.my with qpos := n % 2 ^ 32 }] ∧
      (∀ a, a ≠ r.agent → (f s.my).queue a = s.my.queue a) ∧
      (f s.my).sq = s.my.sq ++ [{ classes := r.classes, kind := .push s.my.nextCmd, dest := .none, typed := false }] ∧
      (f s.my).nextCmd = s.my.nextCmd + 1 ∧ (f s.my).x = s.my.x ∧ (f s.my).pc = s.my.pc ∧ (f s.my).csr = s.my.csr) ∧
    (s.room r → s.push r k = k ((s.register r).meter s.cur 24 r.cmd.recordsRead)) ∧
    (∀ f off c l q, (Cmd.record f off).recordsRead = 0 ∧ (Cmd.vxRun c l q).recordsRead = 1 ∧ (Cmd.mxRun c l q).recordsRead = 1) ∧
    (s.my.sq.any (·.typed) = true → ∃ t, s.push r k = .next t ∧ t.my.pc = s.my.pc ∧
      t.my.x = s.my.x ∧ t.my.sq = s.my.sq ∧ t.my.queue r.agent = s.my.queue r.agent) ∧
    (s.my.sq.any (·.typed) = false → s.my.full r.agent = true → ∃ t, s.push r k = .next t ∧ t.my.pc = s.my.pc ∧
      t.my.x = s.my.x ∧ t.my.sq = s.my.sq ∧ t.my.queue r.agent = s.my.queue r.agent)

/-- The pushes of GX, FX and the collective port register their command with its record's class and scope, for every aligned
readable record and a queue with room. A collective push counts itself in its scope and team and clears the restartable
mark; a misaligned offset is illegal (07_encoding.md R136, 08_stoker_isa.md R155, 11_data_engines_isa.md R247,
01_machine.md R25). A run is pushed with its block's code address and the record read at the push, whose windows become
its scoreboard ranges (08_stoker_isa.md R155, 07_encoding.md R125, 05_local_memory.md R87). -/
def Obligations.RecordPushesAndRunPushes : Prop :=
  (∀ (s : State) (i : Instr) (ag : Agent) (f : Nat) (a : Reg) (bs : List Byte), pushForm i = some (ag, f, a) →
     s.regsReady [destX a] [] →
     (s.record (s.rx a).toNat bs → s.room (s.recordReq ag f (s.rx a).toNat none bs) →
       let u := (s.register (s.recordReq ag f (s.rx a).toNat none bs)).meter s.cur 24 0
       let key := 2 * recScope bs + bitsNat (recFlags bs) 0 0
       let v := if ag = .cl then u.clearRstbl.upd fun x => { x with cl := { x.cl with
         counts := Tbl.put 0 x.cl.counts key (Tbl.get 0 s.my.cl.counts key + 1) } } else u
       exec i s = .next (v.retireAt v.nextPc)) ∧
     ((s.rx a).toNat % 64 ≠ 0 → exec i s = .next (s.takeTrapFree 2 0))) ∧
  (∀ (s : State) (b a : Reg) (bs : List Byte), s.regsReady [destX b, destX a] [] → s.record (s.rx a).toNat bs →
     (s.room (s.runReq false (s.rx b).toNat (s.rx a).toNat bs) → exec (.vxRun a b) s =
       .next (((s.register (s.runReq false (s.rx b).toNat (s.rx a).toNat bs)).meter s.cur 24 1).retireAt s.nextPc)) ∧
     (s.room (s.runReq true (s.rx b).toNat (s.rx a).toNat bs) → exec (.mxRun a b) s =
       .next (((s.register (s.runReq true (s.rx b).toNat (s.rx a).toNat bs)).meter s.cur 24 1).retireAt s.nextPc)))

/-- A CX push takes the lowest free token entry, registers its command, and writes rd with its token: the next SEQ of 26 bits,
0 skipped, above the entry's number. Without a free entry it raises cause 29 (08_stoker_isa.md R155, R156;
11_data_engines_isa.md R233). `cx.wait` and `cx.test` report how a token ended: 4 for a value no entry holds, 3 while it
has not ended; a reported end releases the token, and code 0 acquires. `cx.wait` waits while the code is 3. `cx.cancel` of
a value no entry holds does nothing; a copy not started leaves its queue and its token ends with 1; a started one keeps of its
work what stands before the next granule boundary, and ends with 1 (08_stoker_isa.md R156,
11_data_engines_isa.md R233, R237). -/
def Obligations.CopyPushesAndTokenReports : Prop :=
  (∀ (s : State) (i : Instr) (f : Nat) (a d : Reg) (bs : List Byte), cxForm i = some (f, a, d) →
     s.regsReady [destX a] [destX d] → (s.rx a).toNat % 64 = 0 →
     (∀ n, s.my.freeToken = some n → s.record (s.rx a).toNat bs → s.room (s.recordReq .cx f (s.rx a).toNat (some n) bs) →
       let seq := if (s.my.cxPushes + 1) % 2 ^ 26 = 0 then 1 else (s.my.cxPushes + 1) % 2 ^ 26
       let v : Word := BitVec.ofNat 64 (64 * seq + n)
       exec i s = .next ((((s.register (s.recordReq .cx f (s.rx a).toNat (some n) bs)).meter s.cur 24 0).upd fun x =>
         Ctx.setX { x with tokens := Tbl.set x.tokens n { value := v, ended := none }, cxPushes := seq } d v).retireAt
         s.nextPc)) ∧
     (s.my.freeToken = none → exec i s = .next (s.takeTrapFree 29 0))) ∧
  (∀ (s : State) (a d : Reg),
     let v := s.rx a
     let code := s.my.tokenCode v
     (s.regsReady [destX a] [destX d] →
       (code ≠ 3 → exec (.cxWait a d) s =
         let u := s.report v code
         .next ((u.upd fun x => x.setX d (BitVec.ofNat 64 code)).retireAt u.nextPc)) ∧
       (code = 3 → ∃ t, exec (.cxWait a d) s = .next t ∧ t.my.pc = s.my.pc ∧ t.my.x = s.my.x ∧ t.my.tokens = s.my.tokens) ∧
       exec (.cxTest a d) s =
         let u := (s.report v code).owe d (BitVec.ofNat 64 code)
         .next (u.retireAt u.nextPc)) ∧
     (s.my.tokenAt v = none → code = 4) ∧
     (∀ n t, s.my.tokenAt v = some (n, t) → code = t.ended.getD 3) ∧
     (s.regsReady [destX a] [] →
       (s.my.tokenAt v = none → exec (.cxCancel a) s = .next (s.retireAt s.nextPc)) ∧
       (∀ n t e, s.my.tokenAt v = some (n, t) → s.my.cxq.find? (fun e => e.token == some n) = some e → t.ended = none →
         (e.begun = false → exec (.cxCancel a) s =
           let u := (s.upd fun x => { x with cxq := x.cxq.filter (fun y => y.id != e.id) }).endToken s.cur n 1
           .next (u.retireAt u.nextPc)) ∧
         (e.begun = true → exec (.cxCancel a) s =
           let rest := e.cancelRest ++ s.ownSlot s.cur e
           .next ((s.upd fun x => x.modEntry .cx e.id fun y => { y with
             started := true, held := false, code := 1, todo := rest, complete := rest.isEmpty }).retireAt s.nextPc)))))

/-- The inline MX forms push the MX word that their fields make, with address operand 0; `mx.pushw` pushes the word of rs1
with the address of rs2 and is illegal for one that is not an MX long word (07_encoding.md R117). `sk.shape`, `sk.view`
and `sk.tgeom` push their entry and set what later MX pushes capture; `sk.rfcl` pushes a VX entry (08_stoker_isa.md R172,
10_matrix_isa.md R206, R215, R220). A shape record with a field out of range is illegal. -/
def Obligations.MatrixPushesAndBindingPushes : Prop :=
  (∀ s : State,
     (∀ (n d : BitVec 1) (b a c : BitVec 5), let w := 1#1 ++ 0#5 ++ c ++ a ++ b ++ (n ++ d) ++ 0#9
       s.room (s.mxReq w 0) → exec (.mxMmaInline n d b a c) s = .next ((s.register (s.mxReq w 0)).retireAt s.nextPc)) ∧
     (∀ sl : BitVec 5, let w := 1#1 ++ 2#5 ++ sl ++ 0#5 ++ 0#5 ++ 0#2 ++ 0#9
       s.room (s.mxReq w 0) → exec (.mxClaimInline sl) s = .next ((s.register (s.mxReq w 0)).retireAt s.nextPc)) ∧
     (∀ sl : BitVec 5, let w := 1#1 ++ 3#5 ++ sl ++ 0#5 ++ 0#5 ++ 0#2 ++ 0#9
       s.room (s.mxReq w 0) → exec (.mxReleaseInline sl) s = .next ((s.register (s.mxReq w 0)).retireAt s.nextPc)) ∧
     (∀ c : BitVec 5, let w := 1#1 ++ 5#5 ++ c ++ 0#5 ++ 0#5 ++ 0#2 ++ 0#9
       s.room (s.mxReq w 0) → exec (.mxTinitInline c) s = .next ((s.register (s.mxReq w 0)).retireAt s.nextPc)) ∧
     (∀ b a : Reg, s.regsReady [destX a, destX b] [] →
       let w : BitVec 32 := (s.rx a).setWidth 32
       let addr := ((s.rx b).setWidth 32 : BitVec 32).toNat
       (w.getLsbD 31 = true → w.extractLsb' 26 5 ≠ 31#5 → (∀ c r k, accepted (decodeMxFull w) ≠ some (.mxTcfg c r k)) →
         s.room (s.mxReq w addr) → exec (.mxPushw b a) s = .next ((s.register (s.mxReq w addr)).retireAt s.nextPc)) ∧
       (w.getLsbD 31 = false → exec (.mxPushw b a) s = .next (s.takeTrapFree 2 0)))) ∧
  (∀ s : State,
     let bound := fun (u : State) (f : Binds → Binds) => u.upd fun x => { x with mx := { x.mx with binds := f x.mx.binds } }
     (∀ (a sh : Reg) (r : Shape), s.regsReady [destX a] [] → shapeOf (s.rx a).toNat = some r → s.room (s.plainReq .mx .mxBind) →
       exec (.skShape a sh) s = .next ((bound (s.register (s.plainReq .mx .mxBind)) fun b => { b with
         shapes := Tbl.put Shape.reset b.shapes sh.toNat r }).retireAt s.nextPc)) ∧
     (∀ a sh : Reg, s.regsReady [destX a] [] → shapeOf (s.rx a).toNat = none →
       exec (.skShape a sh) s = .next (s.takeTrapFree 2 0)) ∧
     (∀ h sl v : Reg, s.room (s.plainReq .mx .mxBind) →
       exec (.skView h sl v) s = .next ((bound (s.register (s.plainReq .mx .mxBind)) fun b => { b with
         views := Tbl.put View.reset b.views v.toNat { slot := sl.toNat, sh := h.toNat } }).retireAt s.nextPc)) ∧
     (∀ a c : Reg, s.regsReady [destX a] [] → bitsNat (s.rx a).toNat 63 14 = 0 → bitsNat (s.rx a).toNat 7 6 = 0 →
       let w := 1#1 ++ 6#5 ++ c ++ (s.rx a).extractLsb' 0 6 ++ (s.rx a).extractLsb' 8 6 ++ 0#9
       accepted (decodeMxFull w) = some (.mxTcfg c ((s.rx a).extractLsb' 0 6) ((s.rx a).extractLsb' 8 6)) →
       s.room (s.mxReq w 0) → exec (.skTgeom a c) s = .next ((bound (s.register (s.mxReq w 0)) fun b => { b with
         geoms := Tbl.put Geom.reset b.geoms c.toNat
           { rows := ((s.rx a).extractLsb' 0 6).toNat + 1, cols := ((s.rx a).extractLsb' 8 6).toNat + 1 } }).retireAt
         s.nextPc)) ∧
     (∀ n : Reg, s.room (s.plainReq .vx (.vxRfcl n.toNat)) →
       exec (.skRfcl n) s = .next ((s.register (s.plainReq .vx (.vxRfcl n.toNat))).retireAt s.nextPc)))

/-- `sk.buffmt` pushes a tag write over whole 4096-byte pages of the footprint, and is illegal for another range; a barrier
occupies all sixteen class queues and counts itself (08_stoker_isa.md R171, 11_data_engines_isa.md R247, R249). `sk.mark`
puts marker n into every queue its mask names and arms the rendezvous register, where the register has fired and every
queue has room; it waits while the register is armed (08_stoker_isa.md R157, 05_local_memory.md R94). -/
def Obligations.TagAndBarrierPushesAndMarkPush : Prop :=
  (∀ s : State,
     (∀ (inW : Bool) (f b a g : BitVec 5), s.regsReady [destX a, destX b] [] →
       let off := (s.rx a).toNat
       let len := (s.rx b).toNat
       let lim := 4096 * (if inW then s.me.b.wLimit else s.me.b.aLimit)
       let i := if inW then Instr.skBuffmtW f b a g else .skBuffmtA f b a g
       let req : PushReq := { agent := .sk, cmd := .tag inW (f ++ g.setWidth 3) off len, cls := s.my.ycls,
                              classes := classBit s.my.ycls, rd := [], wr := bufRng inW lim off (off + len), scope := 2,
                              token := none, seq := 0 }
       (off % 4096 = 0 → len ≠ 0 → len % 4096 = 0 → off + len ≤ lim → s.room req →
         exec i s = .next ((s.register req).retireAt s.nextPc)) ∧
       (off % 4096 ≠ 0 ∨ len = 0 ∨ len % 4096 ≠ 0 ∨ lim < off + len → exec i s = .next (s.takeTrapFree 2 0))) ∧
     (∀ (t : BitVec 1) (sc : BitVec 3),
       let key := 2 * sc.toNat + t.toNat
       let n := Tbl.get 0 s.my.cl.counts key
       let req : PushReq := { agent := .cl, cmd := .barrier (t == 1) sc.toNat, cls := s.my.ycls, classes := 0xFFFF, rd := [],
                              wr := [], scope := sc.toNat, token := none, seq := n }
       s.room req →
       let v := (s.register req).clearRstbl.upd fun x => { x with cl := { x.cl with counts := Tbl.put 0 x.cl.counts key (n + 1) } }
       exec (.clBarrier t sc) s = .next (v.retireAt v.nextPc))) ∧
  (∀ (s : State) (c : BitVec 1) (e a k : BitVec 5), s.regsReady [destX a] [] →
     let n : BitVec 16 := (s.rx a).setWidth 16
     let agents := maskAgents (c ++ e)
     ((s.my.rvAt k.toNat).fired = true → s.my.sq.any (·.typed) = false → agents.find? s.my.full = none →
       let u := s.upd fun x => { (agents.foldl (fun y g => y.append g (markEntry k.toNat n x)) x) with
         nextCmd := x.nextCmd + 1
         rv := Tbl.put Rv.idle x.rv k.toNat { armed := true, owing := c ++ e, n := n } }
       let v := u.enqueue { classes := 0xFFFF, kind := .push s.my.nextCmd, dest := .none, typed := false }
       exec (.skMark c e a k) s = .next (v.retireAt v.nextPc)) ∧
     ((s.my.rvAt k.toNat).fired = false → ∃ t, exec (.skMark c e a k) s = .next t ∧ t.my.pc = s.my.pc ∧ t.my.rv = s.my.rv))

/-- `ring.take` waits for a filled slot, acquires, and gives the offset of the tail slot, which the Stoker then holds;
`ring.give` returns it, FREE rises and the producer's RING event is latched; `ring.stat` owes the state word; `ring.cfg`
configures the ring with every slot free, or sets its error flag and changes nothing else where it is refused. A take or
give out of turn raises cause 26 (08_stoker_isa.md R169, R170; 05_local_memory.md R82, R84, R85). The own deque is a stack
to its owner and a queue to a thief: a push joins its class queue, `dq.pop` gives the bottom word and `dq.steal` the top
word of its victim's deque, each an acquire; both give 0 where there is none. The words that a retired task of the launch left
stand above those of the task that runs (log 130, DEDUCED). `dq.export` sets whether the words leave on
an invitation (08_stoker_isa.md R164; 01_machine.md R16 to R18). -/
def Obligations.RingOperationsAndDeques : Prop :=
  (∀ (s : State) (n : Reg),
     let r := s.my.ring n.toNat
     (∀ d : Reg, s.regsReady [] [destX d] →
       (r.configured = true → r.heldSk = none → 0 < r.filled → exec (.ringTake n d) s =
         let u := (s.upd fun x => x.setRing n.toNat
           { r with filled := r.filled - 1, tail := (r.tail + 1) % r.nSlot, heldSk := some r.tail }).acquire
         .next ((u.upd fun x => x.setX d (BitVec.ofNat 64 (r.base + r.slotB * r.tail))).retireAt s.nextPc)) ∧
       (r.configured = true → r.heldSk = none → r.filled = 0 →
         ∃ t, exec (.ringTake n d) s = .next t ∧ t.my.pc = s.my.pc ∧ t.my.rings = s.my.rings ∧ t.my.x = s.my.x) ∧
       (r.configured = false ∨ r.heldSk.isSome = true →
         exec (.ringTake n d) s = .next (s.takeTrapFree 26 n.toNat)) ∧
       (r.configured = true → exec (.ringStat n d) s = .next ((s.owe d (BitVec.ofNat 64 (
         (if r.cfgErr then 2 ^ 49 else 0) + (if r.heldSk.isSome then 2 ^ 48 else 0) + r.tail * 2 ^ 40 + r.head * 2 ^ 32 +
         r.filled * 2 ^ 16 + r.free))).retireAt s.nextPc)) ∧
       (r.configured = false → exec (.ringStat n d) s = .next (s.takeTrapFree 26 n.toNat))) ∧
     (r.configured = true → r.heldSk.isSome = true → s.my.sq.any (·.typed) = false → exec (.ringGive n) s =
       let h := s.home s.cur r.prod
       let u := ((s.upd fun x => x.setRing n.toNat { r with heldSk := none, free := r.free + 1 }).endedBy (h.coreOr s.cur) .cx 3
         (BitVec.ofNat 32 n.toNat) 0 s.cur).eventAt h 15 0 s.cur
       .next (u.retireAt u.nextPc)) ∧
     (r.configured = false ∨ r.heldSk = none →
       exec (.ringGive n) s = .next (s.takeTrapFree 26 n.toNat)) ∧
     (∀ a b : Reg, s.regsReady [destX a, destX b] [] →
       let v := (s.rx a).toNat
       let w := (s.rx b).toNat
       (s.me.ringRefused n.toNat v w = false → exec (.ringCfg b a n) s =
         .next ((s.upd fun x => x.setRing n.toNat { Ring.none with
           configured := true, inW := bitNat v 21, base := bitsNat v 20 0, slotB := 64 * bitsNat w 15 0,
           nSlot := bitsNat w 24 16, prod := bitsNat w 28 25, cons := s.my.member, free := bitsNat w 24 16 }).retireAt
           s.nextPc)) ∧
       (s.me.ringRefused n.toNat v w = true → exec (.ringCfg b a n) s =
         .next ((s.upd fun x => x.setRing n.toNat { r with cfgErr := true }).retireAt s.nextPc)) ∧
       (v % 64 ≠ 0 ∨ bitsNat w 24 16 = 0 ∨ bitsNat w 15 0 = 0 ∨ (r.configured = true ∧ r.filled ≠ 0) →
         v < 2 ^ 21 → s.me.ringRefused n.toNat v w = true))) ∧
  (∀ (s : State) (a d : Reg),
     let c := s.clearRstbl
     (s.regsReady [destX a] [destX d] → exec (.dqPush a d) s =
       let u := c.enqueue { classes := classBit s.my.ycls, kind := .dqPush (s.rx a), dest := destX d, typed := false }
       .next (u.retireAt u.nextPc)) ∧
     (∀ l, s.regsReady [] [destX d] → s.my.dequeQuiet = true → s.launchOf s.cur = some l →
       let give := fun (p : State) (w : Word) =>
         let u := (if w = 0 then p else p.acquire).owe d w
         Host.Outcome.next (u.retireAt u.nextPc)
       let own := s.dequeOf s.cur l
       (∀ w, own.getLast? = some w →
         exec (.dqPop d) s = give (c.setDeque s.cur l (s.my.deque.length - 1) own.dropLast) w.v) ∧
       (own = [] → exec (.dqPop d) s = give (c.setDeque s.cur l (s.my.deque.length - 1) []) 0) ∧
       (∀ g w, s.victim s.cur = some g → (s.dequeOf g l).head? = some w →
         exec (.dqSteal d) s = give (c.setDeque g l (s.ctx g).deque.length ((s.dequeOf g l).drop 1)) w.v) ∧
       (s.victim s.cur = none → exec (.dqSteal d) s = give c 0) ∧
       (∀ g, s.victim s.cur = some g → g / 16 = s.cur / 16 ∧ g ≠ s.cur ∧ s.dequeOf g l ≠ [])) ∧
     (∀ (l g n : Nat) (ws : List DqWord),
       let t := s.setDeque g l n ws
       t.dequeOf g l = ws ∧ (∀ m, m ≠ l → t.leftOf g m = s.leftOf g m) ∧ (∀ e, e ≠ g → t.core e = s.core e) ∧
       { t with cores := s.cores } = s) ∧
     (∀ n : BitVec 5, exec (.dqExport n) s = .next ((s.upd fun x => { x with exported := n == 1 }).retireAt s.nextPc)))

/-- `feed.pop` takes the next record of the launch's feed, which it reads in the feed queue's memory (log 131, DESIGN CHOICE),
into 64 bytes of A space, sets rd to 1 and acquires; an empty feed
gives 0; a launch without a feed makes it illegal and a misaligned address raises cause 6. `sk.budget` owes the island's
bucket, as it stood before the interval step of the same ec (17_energy.md R286); `sk.variant` writes a free slot of the TCB or answers why not, with 3 for an odd entry and 4 for one that no
segment has (08_stoker_isa.md R165, R167, R168). `sk.svc` and `sk.lend` join class queue 15 with their record or page and
owe their status to rd; a misaligned service record gives status 2 (08_stoker_isa.md R173, R174; 06_ordering.md R112). -/
def Obligations.FeedsAndBudgetsAndServicesAndLending : Prop :=
  (∀ (s : State) (a d : Reg),
     let off := (s.rx a).toNat
     (s.regsReady [destX a] [destX d] →
       (∀ id l, s.launchOf s.cur = some id → Tbl.get? s.launches id = some l →
         (l.feedK ≠ 0 → off % 64 = 0 → l.feedIn = l.feedOut → exec (.feedPop a d) s =
           let u := s.clearRstbl.owe d 0
           .next (u.retireAt u.nextPc)) ∧
         (∀ p q attr t, l.feedK ≠ 0 → off % 64 = 0 → l.feedIn ≠ l.feedOut →
           s.typedLands false (s.aSpace s.cur off 64) 64 true p →
           s.my.sq.any (fun e => e.typed || e.classes &&& classBit s.my.ycls != 0) = false →
           s.translate (.core s.cur .sk) l.part .read false (l.feedAt + 64 * (l.feedOut % 2 ^ l.feedK)) = (.ok q attr, t) →
           t.readErrors (.core s.cur .sk) l.part (bitNat attr 5) q 64 (l.feedAt + 64 * (l.feedOut % 2 ^ l.feedK)) = (t, false) →
           s.launchOf (t.meter t.cur (lineEvent q attr false) 1).cur = some id →
           exec (.feedPop a d) s =
             let v := t.meter t.cur (lineEvent q attr false) 1
             let r := t.readPlace (.core s.cur .sk) q 64
             let u := (((v.clearRstbl.modLaunch ((v.launchOf v.cur).getD 0) fun y => { y with feedOut := y.feedOut + 1 }).writePlace
               (.core v.cur .sk) v.my.ycls 4 p r).meter v.cur 24 1).acquire.owe d 1
             .next (u.retireAt u.nextPc)) ∧
         (l.feedK ≠ 0 → off % 64 ≠ 0 → exec (.feedPop a d) s = .next (s.takeTrap 6 (s.rx a) 0)) ∧
         (l.feedK = 0 → exec (.feedPop a d) s = .next (s.takeTrapFree 2 0)))) ∧
     (s.regsReady [] [destX d] → exec (.skBudget d) s =
       let y := s.island s.cur
       .next ((s.owe d (BitVec.ofInt 64 (if s.damper.stepEc = s.ec + 1 then y.was else y.bucket))).retireAt s.nextPc)) ∧
     (∀ c : BitVec 5, s.regsReady [destX a] [destX d] →
       let st := s.variantStatus (s.rx a) c.toNat
       let e := fun (_ : Nat) => c.toNat * 2 ^ 61 + 2 ^ 60 + (s.rx a).toNat % 2 ^ 57
       let segs := (((s.launchOf s.cur).bind (Tbl.get? s.launches ·)).map (·.segs)).getD []
       (st.1 = 0 → exec (.skVariant c a d) s =
         let u := (s.tcbUpd s.me.b.part.toNat s.me.b.tcb.toNat st.2 e).owe d 0
         .next (u.retireAt u.nextPc)) ∧
       (st.1 ≠ 0 → exec (.skVariant c a d) s = .next ((s.owe d (BitVec.ofNat 64 st.1)).retireAt s.nextPc)) ∧
       (st.1 = 0 → 4 ≤ st.2 ∧ st.2 ≤ 6) ∧
       ((s.rx a).toNat % 2 ≠ 0 → st.1 = 3) ∧
       ((s.rx a).toNat % 2 = 0 → segs.any (fun g => g.pc == (s.rx a).toNat) = false → st.1 = 4))) ∧
  (∀ (s t : State) (a d : Reg) (p : Place) (attr : Nat), s.regsReady [destX a] [destX d] →
     (s.lands .read (s.rx a) p attr t →
       ((s.rx a).toNat % 64 = 0 → exec (.skSvc a d) s =
         let u := t.clearRstbl.enqueue { classes := classBit 15, kind := .svc p 64 (lineEvent p attr false), dest := destX d,
                                            typed := false }
         .next (u.retireAt u.nextPc)) ∧
       exec (.skLend a d) s =
         let g := t.pageOf t.cur t.me.b.part.toNat (t.rx a).toNat
         let u := t.clearRstbl.enqueue { classes := classBit 15, kind := .lend g.1 g.2, dest := destX d, typed := false }
         .next (u.retireAt u.nextPc)) ∧
     ((s.rx a).toNat % 64 ≠ 0 → exec (.skSvc a d) s =
       let u := s.clearRstbl.owe d 2
       .next (u.retireAt u.nextPc)))

/-- A segment end whose next address opens a segment of the table starts that segment: its cost and remaining work, a count of
0, and the late trap due again; it retires, REMAIN goes to the TCB, a parked task in U-mode traps with cause 31, and what
waited for the end takes place: a switch of the timetable, else a halt of the core. An address that opens none raises cause 28.
A task end stops issue for good, frees the timetable entry and makes the task Retiring (08_stoker_isa.md R166, R176;
01_machine.md R19, R20; 19_scheduling.md R300, R302); that a drain of its team then lapses, or ends, by its partition's STATE is
log 62 (DEDUCED). A task whose Stoker has ended, whose commands have all retired, whose accesses have
performed and whose writes are visible at device scope retires: its energy goes to JOULE, each successor loses one
predecessor, its TCB is Retired, and its core takes the alternate; before that nothing happens. A successor's count goes down by
one; at 0 its task is Ready if its team waits for it, and a count of 0 is reported (01_machine.md R10, R11;
16_system_state.md R276, R277; 17_energy.md R289). -/
def Obligations.SegmentEndsAndTaskRetirement : Prop :=
  (∀ s : State,
     (∀ e, s.segmentAt s.cur s.nextPc.toNat = some e → exec .skSegend s =
       let u := (s.upd fun x => { x with segCost := e.cost, segRemain := e.remain, segCount := 0, lateDone := false }).retireAt
         s.nextPc
       let v := u.tcbSet u.me.b.part.toNat u.me.b.tcb.toNat 3 31 0 e.remain.toNat
       let w := if v.my.ywm.parked && v.my.mode == .u then v.takeTrapFree 31 0 else v
       .next (w.atSegmentEnd s.cur)) ∧
     (s.segmentAt s.cur s.nextPc.toNat = none →
       exec .skSegend s = .next (s.takeTrapFree 28 (s.nextPc.toNat % 2 ^ 32))) ∧
     (let u := (s.retireAt s.nextPc).modCore s.cur fun k =>
       { (k.setEnt k.cur { (k.ent k.cur) with v := false }) with hold := .retiring }
      (u.me.task = none → exec .skSegendTask s = .next u) ∧
      (∀ t i, u.me.task = some (t, i) → exec .skSegendTask s =
        let v := u.setTcbState u.me.b.part.toNat u.me.b.tcb.toNat 5
        .next (if (v.part v.me.b.part.toNat).state = 2 then v.lapseDrain t else v.drainEnds t))) ∧
     (∀ c, (s.core c).drain = false →
       ((s.alternate c).isSome = true →
         s.atSegmentEnd c = (s.modCore c fun k => { k with hold := .switching, loadec := 0 }).finishSwitch c) ∧
       (s.alternate c = none → (s.core c).haltReq = true →
         s.atSegmentEnd c = s.modCore c fun k => { k with halted := true }) ∧
       (s.alternate c = none → (s.core c).haltReq = false → s.atSegmentEnd c = s))) ∧
  (∀ (s : State) (t i : Nat), s.me.task = some (t, i) →
     let p := s.me.b.part.toNat
     let tcb := s.me.b.tcb.toNat
     let j := s.my.fa / 64
     let r := s.succs t p (Config.lp6Bytes / 128) tcb 6 8
     (s.me.hold = .retiring → s.my.quiet = true → s.released s.cur = true → (r.2.core s.cur).hold = .retiring →
       exec .taskRetirement s =
         let u := (r.2.upd fun x => { x with yjoule := BitVec.ofNat 64 j }).leaveCore s.cur
         let w := r.1.foldl (fun v d => v.decrement p d) (u.tcbUpd p tcb 7 fun _ => j)
         .next (((((w.setTcbState p tcb 6).leaveWords s.cur).vacate s.cur id).loadAlternate s.cur).memberRetired t i)) ∧
     (s.me.hold = .retiring → s.my.quiet = true → s.released s.cur = true → (r.2.core s.cur).hold ≠ .retiring →
       exec .taskRetirement s = .next r.2) ∧
     (s.me.hold ≠ .retiring ∨ s.my.quiet = false ∨ s.released s.cur = false → exec .taskRetirement s = .next s) ∧
     (∀ d,
       let n := bitsNat (s.tcbGet p d 0) 63 48
       (n = 0 → (s.tcbLook p d).tcbBreaks p d = false → s.decrement p d = (s.tcbLook p d).notify p 4 d 0 0) ∧
       (n = 0 → (s.tcbLook p d).tcbBreaks p d = true → s.decrement p d = s.tcbLook p d) ∧
       (2 ≤ n → s.decrement p d = s.tcbSet p d 0 63 48 (n - 1)) ∧
       (∀ w x m, n = 1 → (s.tcbSet p d 0 63 48 0).teamAt p d = some (w, x, m) → x.state = .waiting →
         s.decrement p d = ((s.tcbSet p d 0 63 48 0).setTcbState p d 1).readyCheck w) ∧
       (n = 1 → (∀ w x m, (s.tcbSet p d 0 63 48 0).teamAt p d = some (w, x, m) → x.state ≠ .waiting) →
         s.decrement p d = s.tcbSet p d 0 63 48 0)))

/-- At an instruction boundary a Stoker that issues may take the pending enabled interrupt of the highest order, of M-mode first; the
others go to S-mode in the order engine fault, throttle, external, software, timer, with the record of the faulting agent
or the throttle projection. A queue-low entry saves the next pc in `yqlepc` and goes to `yqlvec`, unless one is active or
SVC is clear. A segment at twice its cost traps once with cause 30 from U-mode, and at four times its cost its team is
frozen by checkpoint and reported (20_translation_faults.md R311, R314; 08_stoker_isa.md R176; 16_system_state.md R273;
17_energy.md R290). -/
def Obligations.StokerBoundaries : Prop :=
  ∀ s : State,
    let e := s.endWait s.cur .sk
    let fop := s.fopOf s.cur s.my.pc
    (s.me.issues = false → exec .interruptTake s = .next s ∧ exec .queueLowEntry s = .next s ∧
      exec .lateSegmentTrap s = .next s ∧ exec .watchdogFreeze s = .next s) ∧
    (∀ c, s.me.issues = true → s.me.interruptM = some c → exec .interruptTake s = .next (e.upd fun x =>
      let y := enterM c 0 x
      { y with csr := { y.csr with mcause := BitVec.ofNat 64 (2 ^ 63 + c) }, pc := vectorOf x.csr.mtvec c true })) ∧
    (s.me.issues = true → s.me.interruptM = none →
      (s.me.interruptS = none → exec .interruptTake s = .next s) ∧
      (s.me.interruptS = some 18 → exec .interruptTake s =
        .next (e.upd (enterS 18 true 0 s.my.faultInfo.1 s.my.faultInfo.2.1 s.my.faultInfo.2.2 fop))) ∧
      (s.me.interruptS = some 17 → exec .interruptTake s =
        .next (e.modCore s.cur fun k => { k with ctx := enterS 17 true 0 k.throttleInfo 0 0 fop k.ctx, throttle := none })) ∧
      (∀ c, s.me.interruptS = some c → c ≠ 18 → c ≠ 17 → exec .interruptTake s =
        .next (e.upd (enterS c true 0 0 0 0 fop)))) ∧
    s.me.interruptS = (if s.my.mode == .u || (s.my.mode == .s && s.my.csr.mstatus.getLsbD 1) then
      [18, 17, 9, 1, 5].find? fun c => (s.me.sip &&& s.my.csr.mie &&& (s.my.csr.mideleg ||| midelegFixed)).getLsbD c
      else none) ∧
    (∀ c, s.me.interruptS = some c → c ∈ [18, 17, 9, 1, 5] ∧ s.me.sip.getLsbD c = true ∧ s.my.csr.mie.getLsbD c = true ∧
      (s.my.mode = .u ∨ (s.my.mode = .s ∧ s.my.csr.mstatus.getLsbD 1 = true))) ∧
    (s.me.issues = true → s.my.queueLow = true → s.my.ywm.svc = true → s.my.ywm.qlact = false → exec .queueLowEntry s =
      .next (s.upd fun x => { x with queueLow := false, yqlepc := x.pc, pc := x.yqlvec, ywm := { x.ywm with qlact := true } })) ∧
    (s.me.issues = true → s.my.queueLow = true → s.my.ywm.svc = false ∨ s.my.ywm.qlact = true →
      exec .queueLowEntry s = .next (s.upd fun x => { x with queueLow := false })) ∧
    (s.me.issues = true → s.overrun 2 = true → s.my.lateDone = false → s.my.mode = .u → exec .lateSegmentTrap s =
      .next ((e.upd fun x => { x with lateDone := true }).takeTrapFree 30 (min s.my.segCount (2 ^ 32 - 1)))) ∧
    (s.my.lateDone = true ∨ s.my.mode ≠ .u → exec .lateSegmentTrap s = .next s) ∧
    (∀ t i, s.me.task = some (t, i) → s.overrun 4 = true → s.me.issues = true → exec .watchdogFreeze s =
      .next ((s.saveTeam t true).notify s.me.b.part.toNat 1 s.me.b.tcb.toNat 0 0)) ∧
    (∀ n, s.overrun n = true ↔ s.me.task.isSome = true ∧ s.my.segCost ≠ 0 ∧ n * s.my.segCost.toNat ≤ s.my.segCount) ∧
    (∀ c, (s.core c).sip.getLsbD 17 = (s.core c).throttle.isSome) ∧
    (∀ c, (s.core c).sip.getLsbD 18 = (s.ctx c).engineFault)

/-- A VX word is a move: with E = 0 it joins the open bundle with its immediate and nothing of it is performed, and as a
fourth move it faults at the bundle's first word (log 57, DESIGN CHOICE). A control word of the clusters stands alone and makes its clusters the
ones in use (07_encoding.md R126, R129; 09_vector_isa.md R178, R179, R184, R202). -/
def Obligations.VectorMoves : Prop :=
  ∀ (s : State) (r : VxRun) (e : Entry), s.inVx r e →
    (∀ (i : Instr) (w : VxWord), vxWord i = some w → w.e = 0 →
      let imm := if w.src == 48 then r.hws.getD (r.pos + w.halves) 0 else 0
      let r' := { r with pos := r.pos + w.halves + (if w.src == 48 then 1 else 0), bundle := r.bundle ++ [w.move imm] }
      (r.bundle.length < 3 → exec i s = .next (s.upd fun x => { x with vx := { x.vx with run := some r' } })) ∧
      (3 ≤ r.bundle.length → exec i s = .next (((s.upd fun x => { x with vx := { x.vx with
        run := some { r' with pos := r.first, bundle := [] } } })).engineFault s.cur .vx e
        { sub := .illegalWord, acc := 2, addr := none } (streamProgress r.k 0 (r.first + 2))))) ∧
    (∀ (d : BitVec 2) (g i : BitVec 4) (n : BitVec 3),
      let m : Move := { dst := 63, src := 50, dir := 0, idx := 0, op := 0, stage := g.toNat, imm := 0 }
      let a : VxAt := { e := e, r := { r with pos := r.pos + 2 } }
      (r.bundle = [] → bundleBad r.stages [m] = false →
        (r.enables m = true → exec (.vxRfcl d g i n) s =
          let u := ((s.upd fun x => { x with vx := x.vx.setClusters n.toNat }).meter s.cur 17 1).meter s.cur 18 s.my.vx.inUse
          .next (((u.vxNext a).vxAdvance u.cur).endWait u.cur .vx)) ∧
        (r.enables m = false → exec (.vxRfcl d g i n) s =
          let u := (s.meter s.cur 17 1).meter s.cur 18 s.my.vx.inUse
          .next (((u.vxNext a).vxAdvance u.cur).endWait u.cur .vx))) ∧
      (r.bundle ≠ [] → ∃ t, exec (.vxRfcl d g i n) s = .next t ∧ t.my.vx.inUse = s.my.vx.inUse))

/-- The word with E = 1 executes its bundle in one VX cycle: sources are read before anything is written, operand registers
are written before the triggers start, everything else after them; the cycle, the register files in use and each trigger
are metered, the run goes on and operations in flight advance (all by `vxEnd`). A bad bundle or a faulting trigger
performs nothing; an uncorrectable error of a tile that a move reads stops VX too; an empty ring or a tile in flight holds the
cycle (09_vector_isa.md R178, R180, R183, R185, R196, R202; 17_energy.md R288; 20_translation_faults.md R318). -/
def Obligations.VectorCycle : Prop :=
  ∀ (s : State) (r : VxRun) (e : Entry) (i : Instr) (w : VxWord), s.inVx r e → vxWord i = some w → w.e = 1 →
    let m := w.move (if w.src == 48 then r.hws.getD (r.pos + w.halves) 0 else 0)
    let r' := { r with pos := r.pos + w.halves + (if w.src == 48 then 1 else 0), bundle := r.bundle ++ [m] }
    let a : VxAt := { e := e, r := r' }
    let x := s.my
    let on := (r.bundle ++ [m]).filter r'.enables
    let trig := (x.values a on).filter fun p => isTrigger p.1.dst
    let wrote := (on.map (·.dst)).filter fun p => decide (p < 8) && x.vx.awake p
    let er := s.sramErrors (.core s.cur .vx) s.me.b.part.toNat (on.flatMap (a.tilesRead s.cur x.vx))
    let stop : State → EFault → Res := fun u f => .next ((u.upd fun x => { x with vx := { x.vx with
      run := some { r' with pos := r.first, bundle := [] } } }).engineFault u.cur .vx e f (streamProgress r.k 0 (r.first + 2)))
    (bundleBad r.stages (r.bundle ++ [m]) = true →
      exec i s = stop s { sub := .illegalWord, acc := 2, addr := none }) ∧
    (bundleBad r.stages (r.bundle ++ [m]) = false →
      (∀ h, on.findSome? (x.vxHeld a) = some h →
        exec i s = .next (s.noteWait s.cur .vx 4 (BitVec.ofNat 32 h.1) h.2 s.cur)) ∧
      (on.findSome? (x.vxHeld a) = none → er.2 = true →
        exec i s = stop er.1 { sub := .uncorrectable, acc := 0, addr := none }) ∧
      (on.findSome? (x.vxHeld a) = none → er.2 = false →
        (∀ v ring, s.fireAll a x.vx.phase.toNat trig (x.before a on) none = .ok v ring →
          exec i s = .next (s.vxEnd a ((v.after r' (x.values a on)).dithered x.vx r' on) ring (trig.map (·.1.dst)) wrote)) ∧
        (∀ f, s.fireAll a x.vx.phase.toNat trig (x.before a on) none = .fault f →
          exec i s = stop (s.loadErrors f) f) ∧
        (∀ n, s.fireAll a x.vx.phase.toNat trig (x.before a on) none = .frozen n →
          exec i s = .next (s.noteRing s.cur .vx n)))) ∧
    (on = [m] → 8 ≤ m.src → m.src ≠ 29 → x.before a on =
      if isOperand m.dst then x.vx.write r' m (x.source a x.vx.pop.1 m) else x.vx) ∧
    (∀ v : Vx, on = [m] → isOperand m.dst = false → isTrigger m.dst = false →
      v.after r' (x.values a on) = v.write r' m (x.source a x.vx.pop.1 m)) ∧
    (on = [] → bundleBad r.stages (r.bundle ++ [m]) = false → exec i s = .next (s.vxEnd a x.vx none [] []))

/-- What each trigger port starts, and when its result is due: the ALUs after 2 VX cycles, the multiply-add unit after 4, the
special-function unit after 12, convert, pack and the writes of VCC and of the phase after 3, a load after 6, a store after 2,
an append or a drain of the switch after 5, the reduction after 8. A ring load reads the slot that VX holds, or takes slot
TAIL, and returns it at its last byte; it waits while FILLED is 0 and faults for a ring that is not configured or lies in
WBUF, and beyond the slot. A store writes its lanes where they are aligned and inside the write window, and faults where one
is not aligned (09_vector_isa.md R180, R191 to R194, R196 to R198). The values: the ALUs, the multiply-add unit, the special
functions and the reductions compute each element from the elements at its place, exactly and with one rounding, wrapped or
saturated (R188 to R190, R199). In a VX cycle without a bundle the operations in flight come one cycle nearer and what is due
lands: a result with its flags as it lands (log 38, DEDUCED), lanes in the switch queue, which holds 256, or bytes of a store
in the own ABUF; waking clusters come one cycle nearer too (09_vector_isa.md R180, R181, R184, R187, R197, R198). -/
def Obligations.VectorUnitsAndVectorLanding : Prop :=
  (∀ (s : State) (a : VxAt) (ph : Nat) (v : Vx) (m : Move) (t : Lanes),
     let rm := fun j => Rm.ofField m.rm j ph
     let due := fun (n port : Nat) (q : Lanes × BitVec 9) =>
       Fired.ok { v with flight := v.flight ++ [{ left := n, what := .result port q.1 q.2 }] } none
     (m.dst = 9 → s.fire a ph v m t = due 2 10 (vaOp m.ty m.code rm (v.port 8) t)) ∧
     (m.dst = 12 → s.fire a ph v m t = due 2 13 (vaOp m.ty m.code rm (v.port 11) t)) ∧
     (m.dst = 16 → s.fire a ph v m t = due 4 17 (vfOp m.ty m.code rm (v.port 14) (v.port 15) t)) ∧
     (m.dst = 18 → s.fire a ph v m t = due 12 19 (vsOp m.code t)) ∧
     (m.dst = 20 → m.ty ≠ 6 → m.op.getLsbD 0 = false → ∀ q, vcConvert v.vcc m.ty rm (m.op.getLsbD 1) t = some q →
       s.fire a ph v m t = due 3 21 q) ∧
     (m.dst = 20 → m.ty ≠ 6 → m.op.getLsbD 0 = true → ∀ q, vcPackOp v.vcc m.ty rm (m.op.getLsbD 1) t = some q →
       s.fire a ph v m t = due 3 21 q) ∧
     (m.dst = 20 → m.ty ≠ 6 → m.op.getLsbD 0 = false → vcConvert v.vcc m.ty rm (m.op.getLsbD 1) t = none →
       s.fire a ph v m t = .fault { sub := .format, acc := 0, addr := none }) ∧
     (m.dst = 20 → m.ty ≠ 6 → m.op.getLsbD 0 = true → vcPackOp v.vcc m.ty rm (m.op.getLsbD 1) t = none →
       s.fire a ph v m t = .fault { sub := .format, acc := 0, addr := none }) ∧
     (m.dst = 20 → m.ty = 6 → m.code = 0 → s.fire a ph v m t =
       .ok { v with vcc := laneAt t 0, vxst := (laneAt t 1).setWidth 9, flight := v.flight ++
         [{ left := 3, what := .result 21 ([v.vcc, v.vxst.setWidth 32] ++ List.replicate 62 0) 0 }] } none) ∧
     (m.dst = 20 → m.ty = 6 → m.code ≠ 0 → s.fire a ph v m t =
       .ok { v with phase := (laneAt t 0).setWidth 3, flight := v.flight ++
         [{ left := 3, what := .result 21 ([v.phase.setWidth 32] ++ List.replicate 63 0) 0 }] } none) ∧
     (let n := (laneAt (v.port 22) 0).toNat % 8
      let off := (laneAt t 0).toNat
      let r := s.my.ring n
      let base := r.slotOff (r.heldVx.getD r.tail)
      m.dst = 23 → m.code = 3 →
        (r.configured = false → s.fire a ph v m t = .fault { sub := .ring, acc := 0, addr := none }) ∧
        (r.configured = true → r.inW = true → s.fire a ph v m t = .fault (windowFault 0 (r.base + off))) ∧
        (r.configured = true → r.inW = false → r.heldVx = none → r.filled = 0 → s.fire a ph v m t = .frozen n) ∧
        (r.configured = true → r.inW = false → r.heldVx.isSome = true ∨ r.filled ≠ 0 →
          (r.slotB ≤ off → s.fire a ph v m t = .fault (windowFault 0 (base + off))) ∧
          (∀ es ranges, off < r.slotB →
            loadElems (s.aTag s.cur) (s.aByte s.cur) m.ty (64 * vtySubs m.ty) vecUnit (base + off) = .ok es ranges →
            (∀ o, ranges.findSome? (fun p => firstOut base (base + r.slotB) p.1 p.2) = some o →
              s.fire a ph v m t = .fault (windowFault 0 o)) ∧
            (ranges.findSome? (fun p => firstOut base (base + r.slotB) p.1 p.2) = none → s.bad = [] →
              let l := Landing.result 24 (gatherSubs m.ty es).1 (gatherSubs m.ty es).2
              s.fire a ph v m t = .ok { v with flight := v.flight ++ [{ left := 6, what := l }] }
                (some (n, r.heldVx.isNone, ranges.any fun p => decide (base + r.slotB ≤ p.1 + p.2))))))) ∧
     (∀ r at', at' = ((laneAt (v.port 22) 0) + laneAt t 0).toNat → m.dst = 23 → 3 < m.code → a.rec? = some r → at' % 4 = 0 →
       r.outside false at' 1 = none → r.outside false at' 256 = none → s.bad = [] →
       let l := (List.range 64).map fun i =>
         BitVec.ofNat 32 (leNat ((List.range 4).map fun b => s.aByte s.cur (at' + 4 * i + b)))
       s.fire a ph v m t = .ok { v with flight := v.flight ++ [{ left := 6, what := .result 24 l 0 }] } none) ∧
     (∀ r, m.dst = 26 → a.rec? = some r →
       let o := fun j => (laneAt (v.port 25) j).toNat
       let st := fun cells => Fired.ok { v with flight := v.flight ++ [{ left := 2, what := .store cells }] } none
       (m.code = 0 → o 0 % 4 = 0 → r.outside true (o 0) 256 = none →
         s.fire a ph v m t = st (laneCells (o 0) ((List.range 64).map (laneAt t)))) ∧
       (m.code = 1 → (∀ j < 64, o j % 4 = 0 ∧ r.outside true (o j) 4 = none) →
         s.fire a ph v m t = st ((List.range 64).flatMap fun j => laneCells (o j) [laneAt t j])) ∧
       (m.code = 2 → o 0 % 4 = 0 → r.outside true (o 0) 4 = none → s.fire a ph v m t = st (laneCells (o 0) [laneAt t 0])) ∧
       (m.code ≠ 1 → o 0 % 4 ≠ 0 → s.fire a ph v m t = .fault { sub := .misaligned, acc := 1, addr := some (o 0) }) ∧
       (m.code = 0 → o 0 % 4 = 0 → ∀ b, r.outside true (o 0) 256 = some b → s.fire a ph v m t = .fault (windowFault 1 b))) ∧
     (let pick := fun (want : Bool) =>
        let l := ((List.range 64).filter fun j => (laneAt (v.port 27) j != 0) == want).map (laneAt t)
        Fired.ok { v with flight := v.flight ++ [{ left := 5, what := .append l }] } none
      m.dst = 28 → (m.code = 0 → s.fire a ph v m t = pick true) ∧ (m.code = 1 → s.fire a ph v m t = pick false) ∧
        (1 < m.code → s.fire a ph v m t = .ok { v with flight := v.flight ++ [{ left := 5, what := .drain }] } none)) ∧
     (m.dst = 30 → s.fire a ph v m t = due 8 31 (lrdOp m.ty m.code (rm 0) t))) ∧
  (∀ (s : State) (n : Nat),
     let r := s.my.ring n
     (s.ringUse (some (n, true, false))).my.ring n =
       { r with filled := r.filled - 1, tail := (r.tail + 1) % r.nSlot, heldVx := some r.tail } ∧
     (s.ringUse (some (n, false, true))).my.ring n = { r with heldVx := none, free := r.free + 1 }) ∧
  (∀ (ty op : Nat) (rm : Nat → Rm) (o p x : Lanes) (n h : Nat), ty ≤ 5 → n < 64 → h < vtySubs ty →
     let el := fun (y : Lanes) => subLane ty (laneAt y n) h
     let m := rm (n * vtySubs ty + h)
     let w := vtyBits ty
     (ty ≤ 2 → el (vaOp ty op rm o x).1 = (vaFloat (vtyFmt ty) op m (el o) (el x)).1 % 2 ^ w) ∧
     (2 < ty → el (vaOp ty op rm o x).1 = (vaInt w op (el o) (el x)).1 % 2 ^ w) ∧
     el (vfOp ty op rm o p x).1 = (vfEl ty op m (el o) (el p) (el x)).1 % 2 ^ w) ∧
  (∀ (op n : Nat) (rm : Nat → Rm) (o x : Lanes), n < 64 →
     let a := laneAt o n
     let b := laneAt x n
     let r := fun k => laneAt (vaOp 6 k rm o x).1 n
     (r 0 = a &&& b ∧ r 1 = a ||| b ∧ r 2 = a ^^^ b ∧ r 3 = a &&& ~~~b ∧ r 4 = a <<< (b.toNat % 32) ∧
       r 5 = a >>> (b.toNat % 32) ∧ r 6 = a.sshiftRight (b.toNat % 32) ∧ r 7 = a.rotateLeft (b.toNat % 32) ∧
       r 8 = BitVec.ofNat 32 ((List.range 32).filter b.getLsbD).length ∧
       r 9 = (if b = 0 then 32 else BitVec.ofNat 32 (31 - Nat.log2 b.toNat)) ∧ r 31 = b) ∧
     laneAt (vsOp op x).1 n = BitVec.ofNat 32 (specialFn op (decodeEl .fp32 b.toNat)).1) ∧
  (∀ (f : Fmt) (m : Rm) (a b : Nat) (op : Nat),
     let u := decodeEl f a
     let v := decodeEl f b
     let va := vaFloat f op m a b
     let once := fun (y : Val) => ((roundTo f m false y).1, (roundTo f m false y).2.vxst)
     let nan := fun (nv : Bool) => (f.nanCode, (Fl.nvIf nv).vxst)
     (u.isNan = false → v.isNan = false →
       (op < 8 → va = if (u.add m.down v).isNan then nan true else once (u.add m.down v)) ∧
       (8 ≤ op → op < 16 → va = if (u.add m.down v.negate).isNan then nan true else once (u.add m.down v.negate)) ∧
       (16 ≤ op → op < 24 → va = if (u.mul v).isNan then nan true else once (u.mul v))) ∧
     (u.isNan = true ∨ v.isNan = true → op < 24 → va = nan (u.isSig || v.isSig)) ∧
     (u.cmp v = some .lt → (op = 0x18 → va = (a, 0)) ∧ (op = 0x19 → va = (b, 0))) ∧
     (u.cmp v = some .gt → (op = 0x18 → va = (b, 0)) ∧ (op = 0x19 → va = (a, 0))) ∧
     (u.isNan = true → v.isNan = false → op = 0x18 ∨ op = 0x19 → va = (b, (Fl.nvIf u.isSig).vxst)) ∧
     (u.isNan = true → v.isNan = true → op = 0x18 ∨ op = 0x19 → va = nan (u.isSig || v.isSig)) ∧
     (op = 0x1A → va = (b % 2 ^ (f.bits - 1), 0)) ∧ (op = 0x1B → va = ((b + 2 ^ (f.bits - 1)) % 2 ^ f.bits, 0)) ∧
     (op = 0x1C → va = (truth f.bits (decide (u.cmp v = some .eq)), (Fl.nvIf (u.isSig || v.isSig)).vxst)) ∧
     (op = 0x1D → va = (truth f.bits (decide (u.cmp v = some .lt)), (Fl.nvIf (u.isNan || v.isNan)).vxst)) ∧
     (op = 0x1E → va = (truth f.bits (decide (u.cmp v = some .lt ∨ u.cmp v = some .eq)), (Fl.nvIf (u.isNan || v.isNan)).vxst)) ∧
     (op = 0x1F → va = (b, 0))) ∧
  (∀ (n a b op : Nat), 0 < n →
     let u := sextNat n a
     let v := sextNat n b
     let lo : Int := -((2 ^ (n - 1) : Nat) : Int)
     let sat := fun (y : Int) => if y < lo then (codeInt n lo, 0x20#9)
       else if ((2 ^ (n - 1) : Nat) : Int) ≤ y then (2 ^ (n - 1) - 1, 0x20#9) else (codeInt n y, 0#9)
     let va := vaInt n op a b
     (op = 0 → va = (codeInt n (u + v), 0)) ∧ (op = 1 → va = sat (u + v)) ∧
     (op = 8 → va = (codeInt n (u - v), 0)) ∧ (op = 9 → va = sat (u - v)) ∧
     (op = 16 → va = (codeInt n (u * v), 0)) ∧ (op = 17 → va = sat (u * v)) ∧
     (op = 0x18 → va = (if v < u then b else a, 0)) ∧ (op = 0x19 → va = (if u < v then b else a, 0)) ∧
     (op = 0x1A → va = (codeInt n (if v < 0 then -v else v), 0)) ∧ (op = 0x1B → va = (codeInt n (-v), 0)) ∧
     (op = 0x1C → va = (truth n (decide (a = b)), 0)) ∧ (op = 0x1D → va = (truth n (decide (u < v)), 0)) ∧
     (op = 0x1E → va = (truth n (decide (u ≤ v)), 0)) ∧ (op = 0x1F → va = (b, 0))) ∧
  (∀ (ty op : Nat) (m : Rm) (a b x : Nat), op < 32 →
     let f := vtyFmt ty
     let u := decodeEl f a
     let v := decodeEl f b
     let c := decodeEl f x
     let p := if op < 16 then u.mul v else (u.mul v).negate
     let y := p.add m.down (if op / 8 % 2 = 1 then c.negate else c)
     (ty ≤ 2 → u.isNan = false → v.isNan = false → (u.mul v).isNan = true → vfEl ty op m a b x = (f.nanCode, Fl.invalid.vxst)) ∧
     (ty ≤ 2 → u.isNan = false → v.isNan = false → c.isNan = false → (u.mul v).isNan = false →
       vfEl ty op m a b x = if y.isNan then (f.nanCode, Fl.invalid.vxst)
         else ((roundTo f m false y).1, (roundTo f m false y).2.vxst)) ∧
     (ty = 3 → vfEl ty op m a b x = (codeInt 32 ((if op < 16 then sextNat 32 a * sextNat 32 b else -(sextNat 32 a * sextNat 32 b)) +
       (if op / 8 % 2 = 1 then -sextNat 32 x else sextNat 32 x)), 0))) ∧
  (∀ (c : Nat), c ≤ 10 →
     (∀ q, specialFn c (.nan q) = (0x7FC00000, Fl.nvIf q)) ∧
     (let z := fun (s : Bool) => if s then 0x80000000 else 0
      let i := fun (s : Bool) => if s then 0xFF800000 else 0x7F800000
      ∀ s e, specialFn c (.fin s 0 e) = [(0x3F800000, Fl.none), (0xFF800000, Fl.divZero), (i s, Fl.divZero), (i s, Fl.divZero),
        (z s, Fl.none), (z s, Fl.none), (0x3F000000, Fl.none), (z s, Fl.none), (z s, Fl.none), (z s, Fl.none),
        (0x3F800000, Fl.none)].getD c (0, Fl.none))) ∧
  (∀ (ty op : Nat) (m : Rm) (x : Lanes) (n h : Nat), ty ≤ 5 → n < 64 → h < vtySubs ty →
     let col := (List.range 64).map fun k => subLane ty (laneAt x k) h
     let w := vtyBits ty
     let r := subLane ty (laneAt (lrdOp ty op m x).1 n) h
     (2 < ty → op < 8 →
       let y := (col.map (sextNat w)).foldl (· + ·) 0
       sextNat w r = max (-((2 ^ (w - 1) : Nat) : Int)) (min (((2 ^ (w - 1) : Nat) : Int) - 1) y)) ∧
     (2 < ty → 8 ≤ op → op < 16 → r ∈ col ∧ ∀ k ∈ col, sextNat w k ≤ sextNat w r) ∧
     (2 < ty → 16 ≤ op → r ∈ col ∧ ∀ k ∈ col, sextNat w r ≤ sextNat w k) ∧
     (ty ≤ 2 → op < 8 →
       let vs := col.map (decodeEl (vtyFmt ty))
       let pair := vs.contains (.inf false) && vs.contains (.inf true)
       (vs.any Val.isNan = true ∨ pair = true → r = (vtyFmt ty).nanCode % 2 ^ w) ∧
       (vs.any Val.isNan = false → pair = false →
         r = (roundTo (vtyFmt ty) m false (vs.tail.foldl (Val.add m.down) (vs.headD (.nan false)))).1 % 2 ^ w)) ∧
     (ty ≤ 2 → 8 ≤ op → op < 16 → r = (col.tail.foldl (fun p k => (vaFloat (vtyFmt ty) 0x19 .rne p k).1) (col.headD 0)) % 2 ^ w) ∧
     (ty ≤ 2 → 16 ≤ op → r = (col.tail.foldl (fun p k => (vaFloat (vtyFmt ty) 0x18 .rne p k).1) (col.headD 0)) % 2 ^ w)) ∧
  (∀ s : State, s.me.enginesRun = true → s.my.stopped .vx = false → s.my.vx.run = none →
     exec .vxResultLand s = .next (s.vxAdvance s.cur) ∧ exec .vxClusterWake s = .next (s.vxAdvance s.cur) ∧
     (∀ p v fl, s.my.vx.flight = [{ left := 1, what := .result p v fl }] → ∃ t, exec .vxResultLand s = .next t ∧
       t.my.vx.flight = [] ∧ t.my.vx.port p = v ∧ t.my.vx.vxst = s.my.vx.vxst ||| fl) ∧
     (∀ n what, s.my.vx.flight = [{ left := n + 2, what := what }] → ∃ t, exec .vxResultLand s = .next t ∧
       t.my.vx.flight = [{ left := n + 1, what := what }] ∧ t.my.vx.ports = s.my.vx.ports ∧ t.me.buf false = s.me.buf false) ∧
     (∀ l, s.my.vx.flight = [{ left := 1, what := .append l }] → ∃ t, exec .vxResultLand s = .next t ∧
       t.my.vx.flight = [] ∧ t.my.vx.q = (s.my.vx.q ++ l).take 256 ∧
       t.my.vx.vxst = if 256 < (s.my.vx.q ++ l).length then s.my.vx.vxst ||| 0x80#9 else s.my.vx.vxst) ∧
     (s.my.vx.flight = [{ left := 1, what := .drain }] → ∃ t, exec .vxResultLand s = .next t ∧ t.my.vx.flight = [] ∧
       t.my.vx.q = s.my.vx.q ++ List.replicate ((64 - s.my.vx.q.length % 64) % 64) 0 ∧ t.my.vx.vxst = s.my.vx.vxst) ∧
     (∀ cells, s.my.vx.flight = [{ left := 1, what := .store cells }] → ∃ t, exec .vxResultLand s = .next t ∧
       t.my.vx.flight = [] ∧
       t.me.buf false = (s.me.buf false).writeAll (cells.map fun e => (4096 * s.me.b.aBase + e.1, e.2))) ∧
     (∀ q n, s.my.vx.flight = [] → s.my.vx.waking = [(q, n + 2)] → ∃ t, exec .vxClusterWake s = .next t ∧
       t.my.vx.waking = [(q, n + 1)]) ∧
     (∀ q, s.my.vx.flight = [] → s.my.vx.waking = [(q, 1)] → ∃ t, exec .vxClusterWake s = .next t ∧ t.my.vx.waking = []))

/-- The MX words over slots, tiles, marks and gates complete: claim takes a Free slot, release frees one that is not, both
words of release alike; `mx.tanch` sets or moves an anchor, `mx.tinit` zeroes the tile's region and makes it valid,
`mx.tcfg` makes a valid tile invalid, sets CFGLOST, and in a run changes the run's geometry; `mx.nop` does nothing;
`mx.gate` gates sub-arrays; a sub-array that has done no array cycle for 16 × GATEIDLE ec is gated, whatever MX holds, and
no other is. A slot in the wrong state raises the slot fault (10_matrix_isa.md R206, R208, R211, R218 to R220, R225;
05_local_memory.md R93). -/
def Obligations.MatrixSlotsAndTiles : Prop :=
  (∀ (s : State) (q : BitVec 2),
    let due := s.my.mx.st.gateidle ≠ 0 ∧ Tbl.get 0 s.my.mx.idle q.toNat + 16 * s.my.mx.st.gateidle.toNat ≤ s.ec
    (due → exec (.subarrayIdleGate q) s = .next (s.upd fun y => { y with mx := { y.mx with
      idleGated := y.mx.idleGated ||| BitVec.ofNat 4 (2 ^ q.toNat) } })) ∧
    (¬due → exec (.subarrayIdleGate q) s = .next s)) ∧
  ∀ (s u : State) (m : MxAt), s.inMx m u →
    (∀ sl : BitVec 5, m.mayWrite sl.toNat →
      let v := u.my.slot sl.toNat
      let free := (u.upd fun x => x.setSlot sl.toNat { v with state := .free }).mxNext m
      (v.state = .free → exec (.mxClaim sl) s =
        .next ((u.upd fun x => x.setSlot sl.toNat { v with state := .claimed }).mxNext m)) ∧
      (v.state ≠ .free → exec (.mxClaim sl) s = u.mxFault m { sub := .slot, acc := 0, addr := none } 0) ∧
      (v.state ≠ .free → exec (.mxRelease sl) s = .next free ∧ exec (.mxReleaseShort sl) s = .next free) ∧
      (v.state = .free → exec (.mxRelease sl) s = u.mxFault m { sub := .slot, acc := 0, addr := none } 0 ∧
        exec (.mxReleaseShort sl) s = u.mxFault m { sub := .slot, acc := 0, addr := none } 0)) ∧
    (∀ c : BitVec 5,
      let t := u.my.acc c.toNat
      (t.inflight = none →
        (∀ a, exec (.mxTanch c 1 a) s = .next ((u.upd fun x => x.setAcc c.toNat { t with auto := true }).mxNext m)) ∧
        (∀ a, exec (.mxTanch c 0 a) s =
          .next ((u.upd fun x => x.setAcc c.toNat { t.moveAnchor a.toInt with auto := false }).mxNext m)) ∧
        (∀ r k, m.run = none → t.valid = false → exec (.mxTcfg c r k) s = .next (u.mxNext m)) ∧
        (∀ r k, m.run.isSome = true → t.valid = false → exec (.mxTcfg c r k) s = .next ((u.upd fun x =>
          x.modEntry .mx m.e.id fun y =>
            let g := Tbl.put Geom.reset y.binds.geoms c.toNat { rows := r.toNat + 1, cols := k.toNat + 1 }
            { y with binds := { y.binds with geoms := g } }).mxNext m)) ∧
        (∀ r k, m.run = none → t.valid = true → exec (.mxTcfg c r k) s = .next ((u.upd fun x =>
          let y := x.setAcc c.toNat { t with valid := false }
          let st := { y.mx.st with cfglost := y.mx.st.cfglost ||| BitVec.ofNat 8 (2 ^ c.toNat) }
          { y with mx := { y.mx with st := st } }).mxNext m)) ∧
        (∀ r k, m.run.isSome = true → t.valid = true → exec (.mxTcfg c r k) s = .next (((u.upd fun x =>
          let y := x.setAcc c.toNat { t with valid := false }
          let st := { y.mx.st with cfglost := y.mx.st.cfglost ||| BitVec.ofNat 8 (2 ^ c.toNat) }
          { y with mx := { y.mx with st := st } }).upd fun x => x.modEntry .mx m.e.id fun y =>
            let g := Tbl.put Geom.reset y.binds.geoms c.toNat { rows := r.toNat + 1, cols := k.toNat + 1 }
            { y with binds := { y.binds with geoms := g } }).mxNext m))) ∧
      (t.inflight ≠ some .fx → exec (.mxTinit c) s =
        let g := m.e.binds.geom c.toNat
        let z := { t.mapRegion g.rows g.cols (fun _ _ _ => Elem.zero) with valid := true, dirty := true }
        .next ((((u.mend [.acc u.cur c.toNat]).upd fun x => x.setAcc c.toNat z).meter u.cur 15 g.rows).mxNext m))) ∧
    exec .mxNop s = .next (u.mxNext m) ∧
    (∀ k : BitVec 4, exec (.mxGate k) s =
      .next ((u.upd fun x => { x with mx := { x.mx with gated := x.mx.gated ||| k } }).mxNext m)) ∧
    (∀ n : BitVec 12, (u.my.mxq.any fun e => decide (e.id < m.e.id)) = false → u.sootOn u.cur = false →
      exec (.mxMark n) s = .next (u.mxNext m))

/-- `mx.mma` multiplies two filled slots of one width class through their views, over the K units it names and the smaller of
tile and shapes, and accumulates exactly: each product, floored to a multiple of the resolution 2^(A−48), is added to its
element's integer, in ascending k (log 135, DESIGN CHOICE); NaN and infinite products set their flags; elements outside the
region stay. It runs the array, and waits while an older FX pass stands. A slot that is not filled, or operands of two width
classes, fault (10_matrix_isa.md R215 to R217, R205, R208; 04_accumulators.md R67). A fill reads 24,576 bytes of elements from
the operand address under one tag, into a claimed or filled slot, which is then Filled with the tag's format and geometry, or
stops with the parts before the fault done; `mx.fill.ring` fills from the first byte of the tail slot of a declared ring,
which it takes and returns (10_matrix_isa.md R212 to R214, R227). -/
def Obligations.MatrixMultiplyAndMatrixFills : Prop :=
  (∀ (s u : State) (m : MxAt) (c a b : BitVec 5) (n d h : BitVec 1) (ks l : BitVec 3), s.inMx m u →
     let va := (m.e.binds.view a.toNat).slot
     let vb := (m.e.binds.view b.toNat).slot
     let sa := u.my.slot va
     let sb := u.my.slot vb
     let cls := widthClass sa.fmt.toNat
     let bits := classBits cls
     let oa : Operand := { sl := sa, sh := m.e.binds.shape a.toNat, b := bits }
     let ob : Operand := { sl := sb, sh := m.e.binds.shape b.toNat, b := bits }
     let g := m.e.binds.geom c.toNat
     let ra := min g.rows oa.sh.rows
     let cb := min g.cols ob.sh.rows
     let k0 := ks.toNat * (384 / bits)
     let k1 := min (if l = 0 then 3072 / bits else (ks.toNat + l.toNat) * (384 / bits)) (min oa.sh.klen ob.sh.klen)
     let t := u.my.acc c.toNat
     m.mayRead va → m.mayRead vb →
     (sa.state = .filled → sb.state = .filled → cls = widthClass sb.fmt.toNat →
       (bits = 6 → oa.sh.rstr % 48 = 0 ∧ ob.sh.rstr % 48 = 0) → oa.beyond ra k0 k1 = false → ob.beyond cb k0 k1 = false →
       u.my.fxBefore m.e.id = false → t.inflight ≠ some .fx → (d = 0 → t.valid = true) →
       exec (.mxMma c a b n d h ks l) s = .next (((u.arrayRun cls (if l = 0 then 8 - ks.toNat else l.toNat) ra cb).upd
         fun x => x.setAcc c.toNat (t.mma oa ob (n == 1) (d == 1) (h == 1) ra cb k0 k1)).mxNext m)) ∧
     (sa.state = .filled → sb.state = .filled → cls = widthClass sb.fmt.toNat →
       (bits = 6 → oa.sh.rstr % 48 = 0 ∧ ob.sh.rstr % 48 = 0) → oa.beyond ra k0 k1 = false → ob.beyond cb k0 k1 = false →
       u.my.fxBefore m.e.id = true → exec (.mxMma c a b n d h ks l) s = u.mxWait 4 c.toNat Agent.fx.code) ∧
     (sa.state ≠ .filled ∨ sb.state ≠ .filled →
       exec (.mxMma c a b n d h ks l) s = u.mxFault m { sub := .slot, acc := 0, addr := none } 0) ∧
     (sa.state = .filled → sb.state = .filled → cls ≠ widthClass sb.fmt.toNat →
       exec (.mxMma c a b n d h ks l) s = u.mxFault m { sub := .format, acc := 0, addr := none } 0)) ∧
  (∀ (t : AccTile) (a b : Operand) (neg ad anch : Bool) (ra cb k0 k1 : Nat), ra ≤ 64 → cb ≤ 64 →
     let t' := t.mma a b neg ad anch ra cb k0 k1
     let prods := fun (i j : Nat) => (List.range (k1 - k0)).map fun k => product (a.val i (k0 + k)) (b.val j (k0 + k)) neg
     t'.valid = true ∧ t'.dirty = true ∧
     (∀ i j, i < ra → j < cb → ad = true → t'.el i j = (prods i j).foldl (csaAdd t'.anchor) Elem.zero) ∧
     (ad = false → t'.anchor = t.anchor ∧ t'.auto = t.auto ∧
       (∀ i j, i < ra → j < cb → t'.el i j = (prods i j).foldl (csaAdd t.anchor) (t.el i j)) ∧
       (∀ i j, i < 64 → j < 64 → ra ≤ i ∨ cb ≤ j → t'.el i j = t.el i j)) ∧
     (ad = true → t.auto = true ∨ anch = true →
       match autoAnchor (a.maxMag ra k0 k1) (b.maxMag cb k0 k1) with
       | some x => t'.anchor = x ∧ t'.auto = (t.auto && !anch)
       | none => t'.anchor = t.anchor ∧ t'.auto = t.auto)) ∧
  (∀ (x : Int) (e : Elem),
     (∀ q, csaAdd x e (.nan q) = { e with nan := true }) ∧ csaAdd x e (.inf false) = { e with pinf := true } ∧
     csaAdd x e (.inf true) = { e with ninf := true } ∧
     (∀ (g : Bool) (n : Nat) (d : Int),
       let v : Int := if g then -(n : Int) else n
       (∀ (sh : Nat) (y : Int), d = x - 48 + sh → y = e.v + v * (2 ^ sh : Nat) →
         (-(2 ^ 65) ≤ y → y < 2 ^ 65 → csaAdd x e (.fin g n d) = { e with v := y }) ∧
         (y < -(2 ^ 65) ∨ 2 ^ 65 ≤ y → (csaAdd x e (.fin g n d)).rng = true ∧ ((csaAdd x e (.fin g n d)).v - y) % 2 ^ 66 = 0)) ∧
       (∀ (sh : Nat) (y : Int), d + sh = x - 48 → y = e.v + v / (2 ^ sh : Nat) → -(2 ^ 65) ≤ y → y < 2 ^ 65 →
           csaAdd x e (.fin g n d) = { e with v := y, inx := e.inx || decide (v % (2 ^ sh : Nat) ≠ 0) }))) ∧
  (∀ (s u : State) (m : MxAt) (sl : BitVec 5), s.inMx m u → m.mayWrite sl.toNat → (u.my.slot sl.toNat).state ≠ .free →
     let start := if m.e.prog = 0 then { u.my.slot sl.toNat with side := [] } else u.my.slot sl.toNat
     let filled := fun (v : State) (w : Slot) (tag : Nat) (spans : List Span) (a : Nat) =>
       ((v.mend [.slot v.cur sl.toNat]).upd fun x => x.setSlot sl.toNat { w with
         state := .filled, fmt := BitVec.ofNat 5 (tagFmt tag), geo := BitVec.ofNat 3 (tagGeo tag) }).meter v.cur 12
           (24 - filledBytes spans a m.e.prog / 1024)
     (∀ (w : BitVec 1) (t g : BitVec 2) (p : BitVec 15) (q : Place) (f : Fmt) (v : Slot),
       let a := m.addr g p.toNat
       let tag := u.tagOf q
       let geo := tagGeo tag
       let blkB := geoBlock geo * f.bits / 8
       (u.space (w == 1) a 1).place 0 a = .ok q → slotFmt tag = some f →
       ¬(transposeUnit t ≠ 0 ∧ (geo ≠ 0 ∨ 8 * transposeUnit t % f.bits ≠ 0)) →
       ¬(8 * (a % 4096) % f.bits ≠ 0 ∨ (geo ≠ 0 ∧ (a % 4096 % blkB ≠ 0 ∨ granuleScales f geo ≤ a % 4096))) →
       let spans := fillSpans f geo 16 a 24576
       let out := u.fillLoop (m.outside (w == 1)) (w == 1) a tag geo blkB (transposeUnit t) m.e.prog spans 0 0 start
       (out = .done v → exec (.mxFill sl w t g p) s = .next ((filled u v tag spans a).mxNext m)) ∧
       (∀ e own, out = .stop e own v → e.sub ≠ .uncorrectable → exec (.mxFill sl w t g p) s =
         ((u.upd fun x => x.setSlot sl.toNat v).meter u.cur 12
           (filledBytes spans a own / 1024 - filledBytes spans a m.e.prog / 1024)).mxFault m e own)) ∧
     (∀ (t : BitVec 2) (k : BitVec 3) (q : Place) (f : Fmt) (v : Slot),
       let r := u.my.ring k.toNat
       let u' := u.upd fun x => x.setRing k.toNat { r with filled := r.filled - 1, tail := (r.tail + 1) % r.nSlot,
                                                             heldMx := some r.tail }
       let a := r.base + r.slotB * r.tail
       let tag := u'.tagOf q
       let geo := tagGeo tag
       let blkB := geoBlock geo * f.bits / 8
       let start' := if m.e.prog = 0 then { u'.my.slot sl.toNat with side := [] } else u'.my.slot sl.toNat
       u.my.ringDecl.getLsbD k.toNat = true → r.configured = true → r.heldMx = none → r.filled ≠ 0 →
       (u'.space r.inW a 1).place 0 a = .ok q → slotFmt tag = some f →
       ¬(transposeUnit t ≠ 0 ∧ (geo ≠ 0 ∨ 8 * transposeUnit t % f.bits ≠ 0)) →
       ¬(8 * (a % 4096) % f.bits ≠ 0 ∨ (geo ≠ 0 ∧ (a % 4096 % blkB ≠ 0 ∨ granuleScales f geo ≤ a % 4096))) →
       u'.fillLoop (fun l => l.findSome? fun p => firstOut a (a + r.slotB) p.1 p.2) r.inW a tag geo blkB (transposeUnit t)
         m.e.prog (fillSpans f geo 16 a 24576) 0 0 start' = .done v →
       exec (.mxFillRing sl t k) s = .next (((filled u' v tag (fillSpans f geo 16 a 24576) a).ringReturn u'.cur k.toNat .mx).mxNext m)) ∧
     (∀ (t : BitVec 2) (k : BitVec 3), u.my.ringDecl.getLsbD k.toNat = true → (u.my.ring k.toNat).configured = true →
       (u.my.ring k.toNat).heldMx = none → (u.my.ring k.toNat).filled = 0 →
       exec (.mxFillRing sl t k) s = .next (u.noteRing u.cur .mx k.toNat)))

/-- A resolve of a valid tile rounds every element of its region once, raises the flags, steps the dither phase under mode 4,
and writes an M-file tile that is then valid, rows of ABUF with the format's tag, or the tile itself; a row that faults stops
MX with that row as its progress point; a compare sets the
predicate of the rows whose every column holds; a spill writes the raw granules and a reload reads them back, and each stops
at the first granule that faults with the granules before it done. A resolve to ABUF whose address is no multiple of 64, and a
spill or reload whose address is no multiple of 4,096, raise the misaligned fault (10_matrix_isa.md R221 to R223, R227;
04_accumulators.md R71 to R73, R75; 05_local_memory.md R92). -/
def Obligations.MatrixResolves : Prop :=
  ∀ (s u : State) (m : MxAt) (c : BitVec 5), s.inMx m u →
    let t := u.my.acc c.toNat
    let g := m.e.binds.geom c.toNat
    t.inflight ≠ some .fx →
    (∀ (f md : BitVec 3) (n : BitVec 1) (d : BitVec 3), t.valid = true → u.my.vx.awake d.toNat = true →
      (u.my.mtile d.toNat).inflight ≠ some .vx → exec (.mxResolveMfile c f md n d) s =
        let rows := (List.range g.rows).map fun i => t.resolveRow (resolveFmt f) md (n == 1) g.cols i
        let mt := u.my.mtile d.toNat
        let lanes := (List.range g.rows).foldl (fun l i => (List.range g.cols).foldl (fun l j =>
          Tbl.put 0 l (64 * i + j) (BitVec.ofNat 32 (((rows.getD i []).getD j (0, Fl.none)).1))) l) mt.lanes
        .next ((((u.mend [.mfile u.cur d.toNat]).upd fun x =>
          x.setMtile d.toNat { mt with lanes := lanes, valid := true, dirty := true }).resolved c.toNat md (Fl.all (rows.flatten.map (·.2))) g.rows).mxNext m)) ∧
    (∀ (f md : BitVec 3) (n : BitVec 1) (k : BitVec 2) (p : BitVec 10) (v : State), t.valid = true →
      let a := m.addr k p.toNat
      let w := resolveWidth f
      let row := fun (i : Nat) => ((t.resolveRow (resolveFmt f) md (n == 1) g.cols i).map fun r => leBytes w r.1).flatten
      let out := u.resolveOut a (g.cols * w) (8 * (f.toNat + 1)) (fun i => m.writeFault (a + i * (g.cols * w)) (g.cols * w)) row
        (g.rows - m.e.prog) m.e.prog
      let fl := fun (rows : Nat) => t.resolveFlags (resolveFmt f) md (n == 1) rows g.cols
      (a % 64 ≠ 0 → exec (.mxResolveAbuf c f md n k p) s = u.mxFault m { sub := .misaligned, acc := 1, addr := some a } 0) ∧
      (a % 64 = 0 → out = (v, none) → exec (.mxResolveAbuf c f md n k p) s =
        .next ((v.resolved c.toNat md (fl g.rows) (g.rows - m.e.prog)).mxNext m)) ∧
      (∀ e i, a % 64 = 0 → out = (v, some (e, i)) → exec (.mxResolveAbuf c f md n k p) s =
        ((v.upd fun x => { x with mx := { x.mx with st := x.mx.st.raise (fl i) } }).meter v.cur 13 (i - m.e.prog)).mxFault m
          e i)) ∧
    (∀ (md : BitVec 3) (n : BitVec 1), t.valid = true → exec (.mxResolveSelf c md n) s =
      let t' := t.mapRegion g.rows g.cols fun _ j e => (resolveSelf t.anchor (t.rm md j) e).1
      .next (((u.upd fun x => x.setAcc c.toNat { t' with dirty := true }).resolved c.toNat md
        (t.resolveFlags .fp32 md false g.rows g.cols) g.rows).mxNext m)) ∧
    (∀ (b : BitVec 5) (r p : BitVec 3) (k : BitVec 2) (q : BitVec 7), t.valid = true →
      (u.my.acc b.toNat).inflight ≠ some .fx → (u.my.acc b.toNat).valid = true → exec (.mxTcmp c b r p k q) s =
        let tb := u.my.acc b.toNat
        .next ((u.compared p.toNat (rowPred g.rows g.cols fun i j => relHolds r.toNat
          ((elemVal t.anchor (t.el i j)).cmp (elemVal tb.anchor (tb.el i j)))) g.rows).mxNext m)) ∧
    (∀ (r p : BitVec 3) (k : BitVec 2) (st : BitVec 7) (q : Place) (f : Fmt), t.valid = true →
      let a := m.addr k st.toNat
      let o := a % 4096
      let geo := tagGeo (u.tagOf q)
      (u.aSpace u.cur (a - o) 4096).place 0 a = .ok q →
      (if tagDecodes (tagFmt (u.tagOf q)) geo then Fmt.ofCode (tagFmt (u.tagOf q)) else none) = some f →
      o % f.bits = 0 → o / f.bits * 8 + 64 ≤ granuleElems f geo →
      let ranges := (granuleRanges f geo (o / f.bits * 8) 64).map fun x => (a - o + x.1, x.2)
      m.inWindow false false ranges →
      u.bad.any (ranges.flatMap fun x => u.spaceSram false x.1 x.2).contains = false →
      exec (.mxTcmpThreshold c r p k st) s =
        let row := (List.range g.cols).map fun j => granuleVal (u.bufByte q) f geo (o / f.bits * 8 + j)
        .next ((u.compared p.toNat (rowPred g.rows g.cols fun i j => relHolds r.toNat
          ((elemVal t.anchor (t.el i j)).cmp (row.getD j (.nan false)))) g.rows).mxNext m)) ∧
    (∀ (k : BitVec 2) (st : BitVec 15),
      let a := m.addr k st.toNat
      let total := g.rows * g.cols
      let left := rawSpan total / 4096 - m.e.prog / 4096
      let done := spilledRows g.cols (m.e.prog / 4096)
      let out := u.spillLoop (m.writeFault · 4096) a t g.cols total left (m.e.prog / 4096)
      let got := u.reloadLoop (m.outside false) a g.cols total left (m.e.prog / 4096) t
      (a % 4096 ≠ 0 →
        (t.valid = true → exec (.mxSpill c k st) s = u.mxFault m { sub := .misaligned, acc := 1, addr := some a } 0) ∧
        exec (.mxReload c k st) s = u.mxFault m { sub := .misaligned, acc := 0, addr := some a } 0) ∧
      (∀ v, a % 4096 = 0 → t.valid = true →
        (out = (v, none) → exec (.mxSpill c k st) s = .next ((v.meter v.cur 15 (g.rows - done)).mxNext m)) ∧
        (∀ f o, out = (v, some (f, o)) → exec (.mxSpill c k st) s =
          (v.meter v.cur 15 (spilledRows g.cols (o / 4096) - done)).mxFault m f o)) ∧
      (∀ t', a % 4096 = 0 →
        (got = (t', none) →
          exec (.mxReload c k st) s = .next ((((u.mend [.acc u.cur c.toNat]).upd fun x =>
            x.setAcc c.toNat { t' with valid := true, dirty := true }).meter u.cur 15 (g.rows - done)).mxNext m)) ∧
        (∀ f o, got = (t', some (f, o)) → f.sub ≠ .uncorrectable → exec (.mxReload c k st) s =
          ((u.upd fun x => x.setAcc c.toNat { t' with dirty := true }).meter u.cur 15
            (spilledRows g.cols (o / 4096) - done)).mxFault m f o)))

/-- The copy engine's commands. A copy, a peer copy or a fill whose record is well formed moves its rows from the progress
point on; at the end its writes are in order and its entry waits to retire, and at a fault PROGRESS names row and byte. A
copy, peer copy, fill or produce that an older held copy goes before waits (log 110, DESIGN CHOICE). A produce of more bytes
than a slot holds stops at the slot's end; it waits while the ring has no free slot, and otherwise takes the head slot, also
for LEN 0 (log 45, DEDUCED), writes it, and raises FILLED after the last byte, behind the older produces of the ring; a
slot that it has taken stands in its progress (log 51, DEDUCED), and a MEMBER beyond the team breaks its record (log 137,
DESIGN CHOICE). A pretranslate loads translations, and a flush has no effect that memory shows. A record that is not well
formed stops the command (11_data_engines_isa.md R229, R234 to R236; 06_ordering.md R101, R103; 05_local_memory.md R83;
07_encoding.md R138, R142; 20_translation_faults.md R312). -/
def Obligations.CopyEngine : Prop :=
  ∀ (s : State) (e : Entry) (j : Job) (r : List Byte),
    let bad := j.stopAt e { sub := .record, acc := 0, addr := none } 0 0
    let passes := (s.endWaitOf s.cur .cx 5).mayPass s.cur e
    let moves := fun (m : Move2) (i : Instr) =>
      (∀ j', j.moveRows m (m.rows + 1) (e.prog / 2 ^ 32 % 2 ^ 31) (e.prog % 2 ^ 32) = .done j' →
        exec i s = .next (j'.ended e)) ∧
      (∀ f row k j', j.moveRows m (m.rows + 1) (e.prog / 2 ^ 32 % 2 ^ 31) (e.prog % 2 ^ 32) = .stop f row k j' →
        exec i s = j'.stopKeep e f (row * 2 ^ 32 + k) (row * 2 ^ 32 + k) (j'.moveLeft e m row k))
    (∀ f i, (f, i) ∈ [(0, Instr.cxCopyStart), (1, .cxCopyStart), (2, .cxPeerStart), (3, .cxFillStart), (4, .cxRingStart)] →
      s.mayStart .cx e → e.cmd.isRecord f = true → passes = false → exec i s = .next (s.endWaitOf s.cur .cx 5)) ∧
    (∀ f, f ≤ 1 → s.starts .cx f e j r → passes = true →
      (j.s.my.copyOk r f = true → moves (copyMove r (some (rplace (fld r 8 8))) f) .cxCopyStart) ∧
      (j.s.my.copyOk r f = false → exec .cxCopyStart s = bad)) ∧
    (s.starts .cx 2 e j r → passes = true →
      (peerOk r = true → moves (copyMove r (some (rplace (fld r 8 8))) 2) .cxPeerStart) ∧
      (peerOk r = false → exec .cxPeerStart s = bad)) ∧
    (s.starts .cx 3 e j r → passes = true →
      (fillOk r = true → moves (copyMove r none 3) .cxFillStart) ∧ (fillOk r = false → exec .cxFillStart s = bad)) ∧
    (s.starts .cx 4 e j r → passes = true →
      let n := fld r 48 1
      let h := j.s.home j.c (fld r 49 1)
      let ring := (j.s.homeCtx h).ring n
      (j.s.my.ringOk r = false → exec .cxRingStart s = bad) ∧
      let len := fld r 24 4
      let src := rplace (fld r 8 8)
      let taken := decide (2 ^ 63 ≤ e.prog)
      let slot := if taken then e.prog / 2 ^ 32 % 2 ^ 9 else ring.head
      let j0 : Job := if taken then j else { j with s := j.s.modHome h fun x => x.setRing n ring.fillHead }
      let moved := j0.moveSlot src (j0.s.slotPlace j.c (fld r 49 1) slot ring) len (len + 1) (e.prog % 2 ^ 32)
      (j.s.my.ringOk r = true → ring.configured = false ∨ ring.prod ≠ j.s.my.member →
        exec .cxRingStart s = j.stopAt e { sub := .ring, acc := 1, addr := none } 0 e.prog) ∧
      (j.s.my.ringOk r = true → ring.configured = true → ring.prod = j.s.my.member →
        (ring.slotB < len →
          exec .cxRingStart s = j.stopAt e { sub := .window, acc := 1, addr := none } ring.slotB e.prog) ∧
        (len ≤ ring.slotB → taken = false → ring.free = 0 →
          exec .cxRingStart s = .next ((s.endWaitOf s.cur .cx 5).noteWaitAt j.c .cx e.qpos 3 (BitVec.ofNat 32 n) 15 j.c)) ∧
        (len ≤ ring.slotB → taken = true ∨ ring.free ≠ 0 →
          (∀ j', moved = .done j' → exec .cxRingStart s = .next ((j'.note (.filled (fld r 49 1) n)).ended e)) ∧
          (∀ f row k j', moved = .stop f row k j' → exec .cxRingStart s =
            j'.stopKeep e f k (2 ^ 63 + slot * 2 ^ 32 + k) (j'.ringLeft e src k))))) ∧
    (∀ (v : State) (c m n : Nat), v.doTodo c .cx (.filled m n) =
      let h := v.home c m
      ((v.modHome h fun x => x.setRing n { x.ring n with filled := (x.ring n).filled + 1, writing := (x.ring n).writing - 1 }).ringFilled
        (h.coreOr c) n c).eventAt h 15 3 c) ∧
    (∀ (v : State) (c id : Nat) (t : Todo) (l : List Todo), t = .filled (fld r 49 1) (fld r 48 1) →
      (v.olderFills c id t = true → v.ready c id (t :: l) = []) ∧ (v.olderFills c id t = false → v.ready c id [t] = [t])) ∧
    (s.starts .cx 5 e j r →
      let va := (rplace (fld r 8 8)).addr
      (rangeOk r 5 = true → exec .cxPretrStart s =
        .next (({ j with s := j.s.preload j.c (va + fld r 24 4) (fld r 24 4 / 4096 + 2) 256 va } : Job).ended e)) ∧
      (rangeOk r 5 = false → exec .cxPretrStart s = bad)) ∧
    (s.starts .cx 7 e j r →
      (rangeOk r 7 = true → exec .cxFlushStart s = .next (j.ended e)) ∧ (rangeOk r 7 = false → exec .cxFlushStart s = bad))

/-- The gather engine's commands. A command whose record is well formed and that has no index completes with no effect; a bag
sum or scatter-add whose destination is not 4096-byte aligned, or a count whose is not 4-byte aligned, faults as
misaligned; otherwise the indices are applied in ascending order, from the progress index on, and the command ends after
the last or stops at the first that faults, and of its ranges keeps the granules it has not passed
(11_data_engines_isa.md R239 to R243; 07_encoding.md R139, R142). `fx.cfg` sets OUTW and CONCAT for the passes that start
later. A pass whose record and bindings show no fault holds its tile, clears its output unless it accumulates, and runs its
batches of at most R edges; then the tile is valid, under the pass's anchor, or it stops at the first edge of the batch that
faults, of which nothing has been added: an uncorrectable error in the weight slot stops a batch whose rows are read. It waits
for an MX command that still writes its tile, and stops at a fault of its record (11_data_engines_isa.md R244 to R246, R251;
07_encoding.md R140; 20_translation_faults.md R318). -/
def Obligations.GatherEngineAndFlueEngine : Prop :=
  (∀ (s : State) (f : Nat) (i : Instr) (step : GxRec → Job → Nat → Gx) (al : Nat) (e : Entry) (j : Job) (r : List Byte),
     (f, i, al) ∈ [(0, Instr.gxGatherStart, 1), (1, .gxBagStart, 4096), (2, .gxScaddStart, 4096), (3, .gxCountStart, 4)] →
     (f = 1 → step = bagStep) → (f = 2 → step = scaddStep) → (f = 3 → step = countStep) →
     (f = 0 → step = fun g j i => j.gxIndex g i fun x j =>
       (j.readBytes i (g.table.shift (x * g.rowb)) g.rowb).gx i fun row j =>
         (j.writeBytes (g.dst.shift (i * g.rowb)) row).gx i fun _ j => .next j) →
     s.starts .gx f e j r →
     let g := gxRec r f
     (gxOk r f = false → exec i s = j.stopAt e { sub := .record, acc := 0, addr := none } 0 0) ∧
     (gxOk r f = true → g.nidx = 0 → exec i s = .next (j.ended e)) ∧
     (gxOk r f = true → g.nidx ≠ 0 → g.dst.addr % al ≠ 0 →
       exec i s = j.stopAt e { sub := .misaligned, acc := 1, addr := some g.dst.addr } 0 e.prog) ∧
     (gxOk r f = true → g.nidx ≠ 0 → g.dst.addr % al = 0 →
       (∀ j' n, gxLoop (step g) g.nidx (g.nidx + 1) e.prog j = (.next j', n) → exec i s = .next (j'.ended e)) ∧
       (∀ flt p j' n, gxLoop (step g) g.nidx (g.nidx + 1) e.prog j = (.stop flt p j', n) →
         let low := if f = 0 then n * g.rowb else if f = 1 then rawOff (n / g.bag * j.bagWidth g) else 0
         exec i s = j'.stopKeep e flt p n (g.left e low n)))) ∧
  (∀ (s : State) (e : Entry) (j : Job) (r : List Byte),
     let bad := j.stopAt e { sub := .record, acc := 0, addr := none } 0 0
     (s.starts .fx 1 e j r →
       let ok := headerOk r 1 0 && zeroBytes r 10 54 && decide (1 ≤ fld r 8 1) && decide (fld r 8 1 ≤ 64) && decide (fld r 9 1 ≤ 2)
       (ok = true → exec .fxCfgStart s =
         .next (({ j with s := j.s.upd fun x => { x with fxOutw := fld r 8 1, fxConcat := fld r 9 1 } } : Job).ended e)) ∧
       (ok = false → exec .fxCfgStart s = bad)) ∧
     (s.starts .fx 0 e j r →
       let u := s.endWaitOf s.cur .fx 5
       let p := j.s.my.fxPass e r
       let n := p.nvert * p.outw
       let j0 : Job := { j with s := j.s.upd fun x => x.flyTiles .fx e.id [p.tile] }
       (fxOk r = false → exec .fxPassStart s = bad) ∧
       (∀ f, fxOk r = true → p.fault = some f → exec .fxPassStart s = j.stopAt e f (fxProgress f e.prog) e.prog) ∧
       (fxOk r = true → p.fault = none → u.my.mxBefore e.id = false → (u.my.acc p.tile).inflight = some .mx →
         exec .fxPassStart s = .next (u.noteWaitAt u.cur .fx e.qpos 4 (BitVec.ofNat 32 p.tile) Agent.mx.code u.cur)) ∧
       (∀ (k : Job) e0 n rows k', (k.readBytes e0 (p.edges.shift (8 * e0)) (8 * n)).bind (fun bs k =>
           k.fxRows p e0 ((List.range n).map fun i => (fld bs (8 * i) 4, fld bs (8 * i + 4) 4))) = .ok rows k' →
         (k'.s.sramErrors (.core k'.c .fx) (k'.s.core k'.c).b.part.toNat [.slot k'.c p.slot]).2 = true →
         ∃ k'', k.fxBatch p e0 n = .stop { sub := .uncorrectable, acc := 0, addr := none } k'' ∧ k''.log = k'.log ∧
           k''.out = k'.out) ∧
       (∀ j1 j2 f e0, fxOk r = true → p.fault = none → u.my.mxBefore e.id = false → (u.my.acc p.tile).inflight ≠ some .mx →
         (j0.rawTagged p.out (if n = 0 then [] else rawGranules 0 n)).bind (fun _ i =>
           if e.prog = 0 then i.fxClear p else .ok () i) = .ok () j1 →
         j1.fxLoop p (p.nedge + 1) e.prog = .stop f e0 j2 →
         exec .fxPassStart s = j2.stopKeep e f (fxProgress f e0) e0 (j2.fxLeft e p e0)) ∧
       (∀ j1 j2, fxOk r = true → p.fault = none → u.my.mxBefore e.id = false → (u.my.acc p.tile).inflight ≠ some .mx →
         (j0.rawTagged p.out (if n = 0 then [] else rawGranules 0 n)).bind (fun _ i =>
           if e.prog = 0 then i.fxClear p else .ok () i) = .ok () j1 →
         j1.fxLoop p (p.nedge + 1) e.prog = .done j2 →
         let t := j2.s.upd fun x =>
           x.setAcc p.tile { (x.acc p.tile).moveAnchor p.anchor with auto := false, valid := true, dirty := true }
         exec .fxPassStart s = .next (({ j2 with s := t } : Job).ended e))))

/-- A collective whose record is well formed, and whose buffers lie in its footprint with the tags a reduction needs, starts
and waits for the other participants; a barrier starts once every older command has retired and every older write is
visible at its scope, and its wait is logged; when every participant has reached its matching command the collective takes
effect at all of them, or, where they do not agree, each stops with a collective fault; a participant that meets an
uncorrectable error in its buffer stops there. A fabric collective needs a port up in collective transport, and completes
among the launch's tasks on this device (log 128, DESIGN CHOICE). While it waits, a participant that comes to lie outside the
scope's domain stops with the record fault, and one whose fabric ends with the fabric fault. A retry after a wait meters once
(log 58, DEDUCED), and a barrier that waits holds CL (log 123, DESIGN CHOICE) (11_data_engines_isa.md R247 to R251;
07_encoding.md R141; 20_translation_faults.md R318; 25_debug.md R353). -/
def Obligations.CollectivePort : Prop :=
  ∀ s : State,
    (∀ (f : Nat) (i : Instr) (e : Entry) (j : Job) (r : List Byte),
      (f, i) ∈ [(0, Instr.clAllredStart), (1, .clRedscStart), (2, .clAllgatStart), (3, .clBcastStart)] →
      s.starts .cl f e j r →
      let g := clRec f r
      let reads := if g.readsBuf (j.s.clRank j.c g.team) then j.s.clRange j.c g.reduces 0 g.buf g.len else none
      let writes := j.s.clRange j.c g.reduces 1 g.dst (g.dstLen (j.s.participants j.c g.team))
      (j.s.clOk j.c r f = false → exec i s = j.stopAt e { sub := .record, acc := 0, addr := none } 0 0) ∧
      (j.s.clOk j.c r f = true → g.scope = 3 → j.s.fabricUp = false →
        exec i s = j.stopAt e { sub := .fabric, acc := 0, addr := none } 0 0) ∧
      (j.s.clOk j.c r f = true → (g.scope = 3 → j.s.fabricUp = true) → reads = none → writes = none →
        exec i s = .next (j.s.modCtx j.c fun x =>
          let y := x.modEntry .cl e.id fun y => { y with started := true }
          { y with cl := { y.cl with record := r } }))) ∧
    (∀ (e : Entry) (team : Bool) (scope : Nat), s.mayStart .cl e → e.cmd = .barrier team scope →
      let u := s.endWaitOf s.cur .cl 5
      let stop := fun (sub : FaultSub) => Host.Outcome.next ((u.modCtx u.cur fun x =>
        let y := x.modEntry .cl e.id fun y => { y with started := false, begun := true }
        { y with cl := { y.cl with record := [] } }).engineFault u.cur .cl e { sub := sub, acc := 0, addr := none } 0)
      let older := u.my.entries.any fun o => decide (o.id < e.id)
      (u.clDomain u.cur scope (clTeam scope team) = false → exec .clBarrierStart s = stop .record) ∧
      (u.clDomain u.cur scope (clTeam scope team) = true → scope = 3 → u.fabricUp = false →
        exec .clBarrierStart s = stop .fabric) ∧
      (u.clDomain u.cur scope (clTeam scope team) = true → (scope = 3 → u.fabricUp = true) →
        older = true ∨ u.fenceDone u.cur allClasses scope = false →
        exec .clBarrierStart s = .next (u.noteWaitAt u.cur .cl e.qpos 9 (BitVec.ofNat 32 e.seq) 15 u.cur)) ∧
      (u.clDomain u.cur scope (clTeam scope team) = true → (scope = 3 → u.fabricUp = true) →
        older = false → u.fenceDone u.cur allClasses scope = true →
        exec .clBarrierStart s = .next (u.upd fun x => x.modEntry .cl e.id fun y => { y with started := true }))) ∧
    (∀ (e : Entry), s.my.clHead = some e → s.me.enginesRun = true → s.my.stopped .cl = false →
      let key := s.my.clKey e
      let team := clTeam key.1 key.2.1
      let waits := Host.Outcome.next (s.noteWaitAt s.cur .cl e.qpos 9 (BitVec.ofNat 32 e.seq) 15 s.cur)
      (s.clDomain s.cur key.1 team = false → exec .collectiveCompletion s =
        .next (s.clFault s.cur e { sub := .record, acc := 0, addr := none } 0)) ∧
      (s.clDomain s.cur key.1 team = true → key.1 = 3 → s.fabricUp = false → exec .collectiveCompletion s =
        .next (s.clFault s.cur e { sub := .fabric, acc := 0, addr := none } 0)) ∧
      (s.clDomain s.cur key.1 team = true → (key.1 = 3 → s.fabricUp = true) →
        (s.clCores s.cur team = none → exec .collectiveCompletion s = waits) ∧
        (∀ cores, s.clCores s.cur team = some cores →
          (s.clReady cores key = true → s.clAgree cores (s.my.clForm e) = true → s.bad = [] →
            exec .collectiveCompletion s = .next (s.clComplete cores)) ∧
          (∀ d, cores = [d] → s.clReady cores key = true → s.clAgree cores (s.my.clForm e) = true → (s.clReads d).2 = true →
            exec .collectiveCompletion s = .next (s.clReads d).1) ∧
          (s.clReady cores key = true → s.clAgree cores (s.my.clForm e) = false →
            exec .collectiveCompletion s = .next (s.clMismatch cores)) ∧
          (s.clReady cores key = false → exec .collectiveCompletion s = waits))))

/-- A run whose record, header and framing are right starts with its block fetched and its iterations counted: HDR's REPS, or
the record's REPEAT where that is 0; with no iteration it completes at once. A record or header that is not right stops it
before its first word (07_encoding.md R122 to R125; 09_vector_isa.md R185; 10_matrix_isa.md R224). -/
def Obligations.RunStarts : Prop :=
  ∀ (s : State) (e : Entry) (mx : Bool) (code off : Nat) (r : RunRec),
    let a : Agent := if mx then .mx else .vx
    let i : Instr := if mx then .mxRunStart else .vxRunStart
    s.mayStart a e → e.cmd = (if mx then .mxRun code off r else .vxRun code off r) →
    (if mx then s.my.mx.run = none else s.my.vx.run = none ∧ s.my.vx.flight = []) →
    let u := s.endWaitOf s.cur a 5
    (r.ok = false → exec i s = u.runStop u.cur a e { sub := .record, acc := 0, addr := none } 0) ∧
    (∀ hh v, r.ok = true → u.fetchBlock u.cur a code 2 0 [] = .ok hh v → blockHdr mx (hh.getD 0 0) (hh.getD 1 0) = none →
      exec i s = v.runStop u.cur a e { sub := .illegalWord, acc := 2, addr := none } 0) ∧
    (∀ hh v hdr body w, r.ok = true → u.fetchBlock u.cur a code 2 0 [] = .ok hh v →
      blockHdr mx (hh.getD 0 0) (hh.getD 1 0) = some hdr → v.fetchBlock u.cur a code hdr.length 2 [] = .ok body w →
      framed mx (hdr.length + 1) body = true →
      let count := if hdr.reps = 0 then r.repeatN else hdr.reps
      (count = 0 → exec i s = .next (w.modCtx u.cur fun x =>
        x.modEntry a e.id fun y => { y with started := true, begun := true, complete := true })) ∧
      (count ≠ 0 → ∃ t, exec i s = .next ((w.modCtx u.cur fun x =>
          x.modEntry a e.id fun y => { y with started := true, begun := true, complete := false }).upd t) ∧
        (mx = true → ∀ x,
          let run : MxRun := { entry := e.id, hws := body, code := code, length := hdr.length, n := count, k := 0, pos := 0 }
          t x = { x with mx := { x.mx with run := some run } }) ∧
        (mx = false → ∀ x,
          let n := if hdr.rot then count + hdr.stages else count
          let run : VxRun := { entry := e.id, hws := body, code := code, length := hdr.length, count := count, n := n, stages := hdr.stages, rot := hdr.rot, k := 0, pos := 0, first := 0, st := 1, bundle := [] }
          t x = { x with vx := { x.vx with run := some run } })))

/-- A packet that begins. NOP only passes; SIGNAL writes its value at system scope and raises vector p where it asks; INVAL
invalidates the specialisation cache; PRED reads its word and takes one arm, which may hold no packet that makes it malformed;
FEED appends its records where the queue has room for all of them, and is held where it has not, until FEED_APPEND finds room.
A field of the packet that is not as the spec has it stops the queue with code 1, an address that cannot be read with code 6,
an unknown feed queue with code 4 (21_command_processor.md R321, R322, R326; 01_machine.md R16; 12_portable_form.md R261). -/
def Obligations.Packets : Prop :=
  ∀ (s u : State) (p q : Nat) (st : Stream) (d : List Nat),
    let stop : State → Nat → Res := fun v code => .next (v.queueStopped p q st code)
    (s.begins p q 0 st u d →
      (argOf d = 0 → zeroFrom d 1 = true → exec (.packetNop p q) s = .next (u.passPacket p q st)) ∧
      (argOf d ≠ 0 ∨ zeroFrom d 1 = false → exec (.packetNop p q) s = stop u 1)) ∧
    (s.begins p q 5 st u d →
      let ok := argOf d ≤ 1 ∧ dw d 1 % 8 = 0 ∧ dw d 1 < 2 ^ 57 ∧ zeroFrom d 3 = true
      (¬ok → exec (.packetSignal p q) s = stop u 1) ∧
      (ok → u.grateWrite p (dw d 1) 8 (leBytes 8 (dw d 2)) = none → exec (.packetSignal p q) s = stop u 6) ∧
      (∀ v, ok → u.grateWrite p (dw d 1) 8 (leBytes 8 (dw d 2)) = some v →
        exec (.packetSignal p q) s = .next ((if argOf d = 1 then v.raiseMsix p else v).passPacket p q st))) ∧
    (s.begins p q 6 st u d →
      let ok := argOf d ≤ 1 ∧ zeroFrom d 2 = true
      (¬ok → exec (.packetInval p q) s = stop u 1) ∧
      (ok → exec (.packetInval p q) s = .next ((u.invalidate (argOf d == 1) (dw d 1)).passPacket p q st))) ∧
    (s.begins p q 3 st u d →
      let h := dw d 0
      let ok := bitsNat h 47 43 = 0 ∧ bitsNat h 39 32 = 0 ∧ bitsNat h 42 40 < 6 ∧ dw d 1 % 8 = 0 ∧ dw d 1 < 2 ^ 57 ∧
        zeroFrom d 4 = true
      (¬ok → exec (.packetPred p q) s = stop u 1) ∧
      (ok → u.grateRead p (dw d 1) 8 8 = none → exec (.packetPred p q) s = stop u 6) ∧
      (∀ bs v, ok → u.grateRead p (dw d 1) 8 8 = some (bs, v) →
        let taken := predHolds (bitsNat h 42 40) (leNat bs &&& dw d 2) (dw d 3)
        let na := bitsNat h 63 56
        let nb := bitsNat h 55 48
        let bad := if taken then v.badArm p q st 0 na else v.badArm p q st na nb
        (bad = true → exec (.packetPred p q) s = stop v 1) ∧
        (bad = false → exec (.packetPred p q) s =
          .next (v.modQueue p q fun x => x.pass st (armTaken taken na nb))))) ∧
    (s.begins p q 2 st u d →
      let n := bitsNat (dw d 2) 15 0 + 1
      let ok := dw d 1 % 64 = 0 ∧ dw d 1 < 2 ^ 57 ∧ bitsNat (dw d 2) 63 16 = 0 ∧ zeroFrom d 3 = true
      (¬ok → exec (.packetFeed p q) s = stop u 1) ∧
      (ok → u.feedTarget p (argOf d) = none → exec (.packetFeed p q) s = stop u 4) ∧
      (∀ id l, ok → u.feedTarget p (argOf d) = some (id, l) →
        (2 ^ l.feedK < n → exec (.packetFeed p q) s = stop u 1) ∧
        (n ≤ 2 ^ l.feedK → u.grateRead p (dw d 1) (64 * n) (64 * n) = none → exec (.packetFeed p q) s = stop u 6) ∧
        (∀ bs v, n ≤ 2 ^ l.feedK → u.grateRead p (dw d 1) (64 * n) (64 * n) = some (bs, v) →
          (∀ z, l.room n = true → v.feedIn id l (records64 bs) = some z →
            exec (.packetFeed p q) s = .next (z.passPacket p q st)) ∧
          (l.room n = true → v.feedIn id l (records64 bs) = none → exec (.packetFeed p q) s = stop v 6) ∧
          (l.room n = false → exec (.packetFeed p q) s =
            .next (v.modQueue p q fun x => x.addNow st (.feed id (records64 bs))))))) ∧
    (∀ id recs l, s.queueRuns p q = true → (s.queue p q).feedHeld = some (st, id, recs) → Tbl.get? s.launches id = some l →
      (∀ z, l.room recs.length = true → s.feedIn id l recs = some z →
        let drop := fun (b : Busy) => if b == .feed id recs then none else some b
        exec (.feedAppend p q) s =
          .next ((z.modQueue p q fun x => x.mapBusy drop).passPacket p q st)) ∧
      (l.room recs.length = true → s.feedIn id l recs = none → exec (.feedAppend p q) s = stop s 6) ∧
      (l.room recs.length = false → exec (.feedAppend p q) s = .next s)) ∧
    (∀ id l (r : List Byte), s.feedIn id l [r] = (s.grateWrite l.part (l.feedSlot l.feedIn) 64 r).map fun z =>
      (z.modLaunch id fun l => { l with feedIn := l.feedIn + 1 }).eventLaunch id 10 9)

/-- GRAPH checks the structure of its nodes and opens the graph, and the ring goes on past it (log 64, DEDUCED); LOOP opens a
loop of its body; LOOP_ITERATION begins the next iteration once the last node of the body is complete and iterations are left,
and a loop whose iterations are done is left though its last ones still run (log 64, DEDUCED); BREAK ends the innermost loop,
and execution goes on after its body. A malformed packet or structure stops the queue with code 1
(21_command_processor.md R327). The registers of a queue, which the host writes once bring-up is done, while the interface of
its partition is not locked: TAIL, which lets the packets of an untaken arm go; QCTL, whose LOG2N holds only while the queue
is off and whose EN ends a stop when it is cleared; and SKIP, which discards the packet at HEAD of a stopped queue and lets it
go on. A locked interface refuses the write, and before bring-up a write has no effect (21_command_processor.md R321;
23_host_links_security.md R335; 24_power_bringup.md R349). -/
def Obligations.GraphPacketsAndQueueRegisters : Prop :=
  (∀ (s u : State) (p q : Nat) (st : Stream) (d : List Nat),
     let stop : State → Nat → Res := fun v code => .next (v.queueStopped p q st code)
     (s.begins p q 4 st u d →
       let n := bitsNat (dw d 2) 11 0 + 1
       let ok := argOf d = 0 ∧ dw d 1 < 2 ^ 57 ∧ bitsNat (dw d 2) 63 12 = 0 ∧ zeroFrom d 3 = true
       (¬ok → exec (.packetGraph p q) s = stop u 1) ∧
       (ok → u.nodeHeaders p (dw d 1) n = none → exec (.packetGraph p q) s = stop u 6) ∧
       (∀ hs v, ok → u.nodeHeaders p (dw d 1) n = some (hs, v) →
         (loopsOk n hs 0 [] = false → exec (.packetGraph p q) s = stop v 1) ∧
         (loopsOk n hs 0 [] = true → exec (.packetGraph p q) s =
           let g := fun (x : HostQueue) => ({ at' := x.head, base := dw d 1, count := n, pos := 0, loops := [], busy := [], pre := 0, arm := 0, skip := 0 } : GraphRun)
           .next (v.modQueue p q fun x => { x with graphs := x.graphs ++ [g x] }.move (0, 0, 0))))) ∧
     (∀ i, s.begins p q 7 (some i) u d → st = some i →
       let len := bitsNat (dw d 0) 63 48
       let ok := 1 ≤ len ∧ len ≤ 4095 ∧ bitsNat (dw d 0) 47 32 = 0 ∧ dw d 1 ≠ 0 ∧ dw d 1 < 2 ^ 32 ∧ zeroFrom d 2 = true
       (¬ok → exec (.packetLoop p q) s = stop u 1) ∧
       (ok → exec (.packetLoop p q) s = .next (u.modQueue p q fun x => x.modGraph i fun g =>
         { g with pos := g.pos + 1, loops := { first := g.pos + 1, len := len, left := dw d 1 } :: g.loops }))) ∧
     (∀ pre g rest, s.queueRuns p q = true → (s.queue p q).held = false → (s.queue p q).graphs = pre ++ g :: rest →
       (∀ h ∈ pre, h.again = none) →
       g.again.isSome = true → exec (.loopIteration p q) s =
         .next (s.modQueue p q fun x => x.modGraph pre.length fun h => h.again.getD h)) ∧
     (∀ (g : GraphRun) (l : Loop) (rest : List Loop), g.loops = l :: rest → g.limit ≤ g.pos → g.busy = [] → 1 < l.left →
       g.again = some { g with pos := l.first, loops := { l with left := l.left - 1 } :: rest }) ∧
     (∀ (g : GraphRun) (l : Loop) (rest : List Loop) (n : Nat), g.loops = l :: rest → g.limit ≤ g.pos → l.left ≤ 1 →
       g.tidy (n + 1) = GraphRun.tidy n { g with loops := rest }) ∧
     (∀ i g, s.begins p q 8 (some i) u d → st = some i → (u.queue p q).graphs[i]? = some g →
       (∀ l rest, g.loops = l :: rest →
         (argOf d = 0 → zeroFrom d 1 = true → exec (.packetBreak p q) s = .next (u.modQueue p q fun x =>
           (x.modGraph i fun g => { g with pos := l.first + l.len, loops := rest, pre := 0, arm := 0, skip := 0 }).tidy)) ∧
         (argOf d ≠ 0 ∨ zeroFrom d 1 = false → exec (.packetBreak p q) s = stop u 1)) ∧
       (g.loops = [] → exec (.packetBreak p q) s = stop u 1))) ∧
  (∀ (s : State) (p q : Nat) (v : BitVec 32) (w : Word),
     (s.up = true → s.windowLocked p = false →
       exec (.queueTailWrite p q v) s = .next (s.modQueue p q fun x => { x with tail := v }.discard) ∧
       exec (.queueEnable p q w) s = .next (s.modQueue p q fun x => x.control w.toNat) ∧
       exec (.queueSkip p q) s = .next (s.modQueue p q HostQueue.skipped)) ∧
     (s.up = true → s.windowLocked p = true → exec (.queueTailWrite p q v) s = .next (s.refusePart p) ∧
       exec (.queueEnable p q w) s = .next (s.refusePart p) ∧ exec (.queueSkip p q) s = .next (s.refusePart p)) ∧
     (s.up = false → exec (.queueTailWrite p q v) s = .next s ∧ exec (.queueEnable p q w) s = .next s ∧
       exec (.queueSkip p q) s = .next s) ∧
     ∀ x : HostQueue,
       ((x.control w.toNat).en = w.getLsbD 0) ∧
       (x.en = true → x.stop = false → (x.control w.toNat).log2n = x.log2n) ∧
       (w.getLsbD 0 = false → (x.control w.toNat).stop = false ∧ (x.control w.toNat).err = 0) ∧
       (x.stop = false → x.skipped = x) ∧
       (x.stop = true → x.stopAt = x.head →
         x.skipped = ({ x with stop := false, err := 0 }).move (armNext x.arm x.skip)) ∧
       (x.stop = true → x.stopAt ≠ x.head → x.skipped = { x with stop := false, err := 0 }))

/-- A LAUNCH that begins: a packet with a malformed field stops the queue with code 1, an unreadable or unwritable address with
code 6, a refused launch with code 2, before TCBs that are in use with code 5 (log 65, DEDUCED), and an unreadable body with
code 6; its TCBs are then made ready to run; a native launch has its code, and a Flaja launch has it at once where the cache
holds its residual, and otherwise waits for the build while its stream goes on. The builds of a queue are tried in the order
of their launches, and the first that can end does; it ends with the residual its body, its uniforms and the register
preferences give (log 17, DESIGN CHOICE): one that fits the cache enters it, and every launch that waited for it has its code;
one that finds no room is written to the memory that DW6 names, or waits where there is none that holds it; one whose body
does not pass the checks stops the queue with code 3, names the operation index, and leaves its tasks Waiting (log 126, DESIGN
CHOICE) (21_command_processor.md R321, R323 to R325; 12_portable_form.md R258, R260, R261; 07_encoding.md R145). -/
def Obligations.Launches : Prop :=
  ∀ (s u : State) (p q : Nat) (st : Stream) (d : List Nat),
    let stop : State → Nat → Res := fun v code => .next (v.queueStopped p q st code)
    let begun : State → Busy → Res := fun v b => .next ((v.modQueue p q fun x => x.addNow st b).passPacket p q st)
    (s.begins p q 1 st u d →
      let n := max 8 ((u.kernelAt p (dw d 3)).elim 0 (·.bytes))
      (launchBad d = true → exec (.packetLaunch p q) s = stop u 1) ∧
      (launchBad d = false → u.grateRead p (dw d 3) n n = none → exec (.packetLaunch p q) s = stop u 6) ∧
      (∀ kb u1, launchBad d = false → u.grateRead p (dw d 3) n n = some (kb, u1) → u.kernelAt p (dw d 3) = none →
        exec (.packetLaunch p q) s = stop u 2) ∧
      (∀ kb u1 k ub u2 ts u3, launchBad d = false → u.grateRead p (dw d 3) n n = some (kb, u1) →
        u.kernelAt p (dw d 3) = some k →
        u1.grateRead p (dw d 5) (8 * min 8 k.uniforms.length) (8 * min 8 k.uniforms.length) = some (ub, u2) →
        u2.readTcbs p (dw d 4) (lCount d) = some (ts, u3) →
        let us := uniformVals k (dwords ub)
        let busy := ts.any fun t => tcbState t != 0 && tcbState t != 6
        (launchRefused d k ts = true → exec (.packetLaunch p q) s = stop u3 2) ∧
        (launchRefused d k ts = false → busy = true → exec (.packetLaunch p q) s = stop u3 5) ∧
        (launchRefused d k ts = false → busy = false → u3.tcbsWritable p (dw d 4) (lCount d) = false →
          exec (.packetLaunch p q) s = stop u3 6) ∧
        (launchRefused d k ts = false → busy = false → u3.tcbsWritable p (dw d 4) (lCount d) = true →
          (u3.readBody p (dw d 3) k = none → exec (.packetLaunch p q) s = stop u3 6) ∧
          (∀ k' u4, u3.readBody p (dw d 3) k = some (k', u4) →
            let a := u4.launchArm p q d us k'
            (k'.flaja = false → exec (.packetLaunch p q) s = begun a.1 (.launch a.2)) ∧
            (∀ b, k'.flaja = true → u4.cacheHit k' us = some b →
              exec (.packetLaunch p q) s = begun (a.1.launchCode a.2 b) (.launch a.2)) ∧
            (k'.flaja = true → u4.cacheHit k' us = none →
              exec (.packetLaunch p q) s = begun a.1 (.build a.2 ((u4.queue p q).placeOf st) d)))))) ∧
    (∀ pre w post picks r, s.queueRuns p q = true → (s.queue p q).builds = pre ++ w :: post →
      (∀ v ∈ pre, s.buildEnd p q picks v = none) → s.buildEnd p q picks w = some r →
      exec (.preheaterBuildComplete p q picks) s = r) ∧
    (∀ picks, s.queueRuns p q = true → (∀ v ∈ (s.queue p q).builds, s.buildEnd p q picks v = none) →
      exec (.preheaterBuildComplete p q picks) s = .next s) ∧
    (∀ w l picks, Tbl.get? s.launches w.2.1 = some l →
      let k := l.kernel
      let us := l.uniforms
      let own := dw w.2.2.2 6
      let built := s.buildEnd p q picks w
      (∀ op, k.bodyError us = some op → built = some (s.buildRefused p q w 3 op)) ∧
      (∀ r, k.build us picks 0 = .ok r → cacheBytes < residualSize r → built = some (s.buildRefused p q w 3 0)) ∧
      (∀ r r' es a, k.build us picks 0 = .ok r → residualSize r ≤ cacheBytes →
        makeRoom (s.cache.length + 1) s.cache (residualSize r) = some (es, a) → k.build us picks (s.cacheBase + a) = .ok r' →
        let e : CacheEnt := { key := s.stamp, part := p, khash := fnv1a k.bodyBytes, udigest := fnv1a (k.keyBytes us), bodyLen := k.body.length, ubytes := k.keyBytes us, res := r', addr := a, pins := 0, valid := true, doomed := false, used := s.stamp }
        let z := { s with cache := es ++ [e], stamp := s.stamp + 1 }
        built = some (.next (z.cacheWrite (s.cacheBase + a) (residualBytes r')).resolveBuilds)) ∧
      (∀ r, k.build us picks 0 = .ok r → residualSize r ≤ cacheBytes →
        makeRoom (s.cache.length + 1) s.cache (residualSize r) = none →
        (own = 0 ∨ 5 * 2 ^ 16 < residualSize r → built = none) ∧
        (∀ r', own ≠ 0 → residualSize r ≤ 5 * 2 ^ 16 → k.build us picks own = .ok r' →
          (s.grateWrite p own (residualSize r + 1) (residualBytes r') = none → built = some (s.buildRefused p q w 6 0)) ∧
          (∀ z, s.grateWrite p own (residualSize r + 1) (residualBytes r') = some z →
            let v := z.launchCode w.2.1 { base := own, res := r', key := none }
            built = some (.next (v.modQueue p q fun x => x.hasCode w.2.1)))))) ∧
    (∀ w op, ∃ t, s.buildRefused p q w 3 op = .next t ∧ (t.queue p q).err = 3 ∧ (t.queue p q).errOp = op ∧
      (t.queue p q).stop = true ∧ (t.queue p q).headReg = w.2.2.1 ∧ Tbl.get? t.launches w.2.1 = none)

/-- A started command first does the rest of its list; a completed one whose writes are visible at its scope then retires: its
entry leaves the queue, the tiles it wrote are no longer in flight for its engine, and its token ends with the code the entry
holds; before that it stays. The marker at the head of an engine's queue retires there and nowhere else (log 39, DEDUCED), and
its rendezvous fires when no engine still owes it. A tag command writes its tags and retires (05_local_memory.md R88, R94, R95; 06_ordering.md R103; 08_stoker_isa.md R171, R176;
11_data_engines_isa.md R229, R237, R238). The action written to a fault record takes effect once the record is no longer
valid: RESTART leaves the command to go on from its progress point, DISCARD ends its run and lets it retire with no further
effect, with code 2 for its token, MX's held ring slots returned and the slot that CX had taken filled (log 111, DEDUCED), and
FREEZE freezes the team in place, with FSTAT as it stands then (log 87, DEDUCED). A corrected error is counted against the agent that met
it (20_translation_faults.md R313, R316, R319, R320). -/
def Obligations.CommandRetirementAndFaultActions : Prop :=
  (∀ s : State,
     (∀ (a : Agent) (k : Nat) (e : Entry), (s.my.queue a)[k]? = some e → s.me.enginesRun = true → e.isMarker = false →
       let v := if e.started && !e.complete && goesOn a then s.drain s.cur a e.id e.todo.length else s
       let seen := v.allVisible (.core s.cur a) e.scope e.writes = true
       (∀ y, (v.ctx s.cur).entry? a e.id = some y →
         let t := (v.dropEntry s.cur a y).modCtx s.cur fun x => x.landTiles a y
         let ended := match y.token with
           | some n => t.endToken s.cur n y.code
           | none => t
         (s.my.mayRetire a e = true → y.complete = true → seen → exec (.engineCommandRetire a k) s = .next ended) ∧
         (s.my.mayRetire a e = true → y.complete = false ∨ ¬seen → exec (.engineCommandRetire a k) s = .next v) ∧
         (a = .cx → y.complete = true → seen → exec (.cxCommandEnd k) s = .next ended) ∧
         (a = .cx → y.complete = false ∨ ¬seen → exec (.cxCommandEnd k) s = .next v)) ∧
       (s.my.mayRetire a e = false → exec (.engineCommandRetire a k) s = .next s)) ∧
     (∀ (a : Agent) (e : Entry) (k : Nat) (n : BitVec 16), (s.my.queue a).head? = some e → e.cmd = .marker k n → e.pushed = true →
       s.me.enginesRun = true → s.broken s.cur a e = false →
       let r := s.my.rvAt k
       let mine := r.armed && r.n == n
       let owing := if mine then r.owing &&& ~~~(markBit a) else r.owing
       let t := (s.dropEntry s.cur a e).modCtx s.cur fun x => { x with rv := Tbl.put Rv.idle x.rv k { r with owing := owing } }
       (r.armed = true → r.owing ≠ 0 → owing = 0 → exec (.markerRetire a) s = .next ((t.endedBy s.cur .sk 1
         (BitVec.ofNat 32 (n.toNat * 65536 + k)) a.code s.cur).latchEvent s.cur k a.code s.cur)) ∧
       (owing ≠ 0 → exec (.markerRetire a) s = .next t)) ∧
     (∀ (e : Entry) (inW : Bool) (tag : BitVec 8) (off len : Nat), s.mayStart .sk e → e.cmd = .tag inW tag off len →
       let u := s.endWaitOf s.cur .sk 5
       exec .tagWrite s = .next ((u.tagRange u.cur inW tag.toNat off (len / 4096)).dropEntry u.cur .sk e))) ∧
  (∀ (s : State) (a : Agent),
     let r := s.my.fault a
     let u := s.upd fun x => x.setFault a { x.fault a with todo := 0 }
     (r.valid = false → r.todo = 1 → exec (.faultActionRestart a) s = .next u) ∧
     (r.valid = false → r.todo = 3 →
       exec (.faultActionFreeze a) s = .next (u.freezeCore s.cur 5 r.fstat.toNat r.addr.toNat)) ∧
     (r.valid = false → r.todo = 2 →
       (s.my.stoppedEntry a = none → exec (.faultActionDiscard a) s = .next u) ∧
       (∀ e, s.my.stoppedEntry a = some e →
         let slot := if a = .cx then u.ownSlot s.cur e else []
         let t := (u.upd fun x => x.dropRun a e.id).freeSlots s.cur a
         exec (.faultActionDiscard a) s = .next (t.upd fun x => x.modEntry a e.id fun y =>
           { y with started := true, held := false, complete := slot.isEmpty, todo := slot, rd := [], wr := [], code := 2 }))) ∧
     (∀ (v : State) (c : Nat), (a ≠ .mx → v.freeSlots c a = v) ∧
       (∀ n, n < 8 → (List.range 8).filter (fun i => ((v.ctx c).ring i).heldMx.isSome) = [n] →
         v.freeSlots c .mx = v.ringReturn c n .mx)) ∧
     (r.valid = true → exec (.faultActionRestart a) s = .next s ∧ exec (.faultActionFreeze a) s = .next s ∧
       exec (.faultActionDiscard a) s = .next s) ∧
     (∀ (x : Ctx) (id : Nat), (a = .vx → x.dropRun a id = { x with vx := { x.vx with run := none } }) ∧
       (∀ m, a = .mx → x.mx.run = some m → m.entry = id → x.dropRun a id = { x with mx := { x.mx with run := none } }) ∧
       (a ≠ .vx → a ≠ .mx → x.dropRun a id = x)) ∧
     (∀ (sram : Bool) (line : BitVec 52), exec (.correctedError sram line a) s =
       .next (s.corrected sram false line.toNat s.me.b.part.toNat a.code s.me.b.tcb.toNat 0)))

/-- An order of a Ready team spends one permit of its cluster's link and names the cluster. A Trivet whose island runs takes the
orders of its link with what it does next (log 61, DEDUCED). A placement that picks the cores of the Trivet's rule, for a team
that waits there and that none that the cluster holds, now or when those that leave it are gone, comes before (log 60,
DEDUCED), gives each member its timetable entry, at footprints placed lowest first (log 59, DESIGN CHOICE), and the team is
placed, or, where it was suspended, on its way. A pre-emption for a Ready team that no cluster of its partition holds kills,
drains or saves the fewest victims that free its shape (19_scheduling.md R297, R298, R301, R302, R304, R305;
21_command_processor.md R328). A team that is being saved is saved, and a placed team that was suspended gets its footprints
and its images back before it waits for its admission; one whose saved state holds an uncorrectable error is frozen with KIND
3 instead. A Trivet whose island does not run does none of these (19_scheduling.md R303, R306; 20_translation_faults.md R318;
24_power_bringup.md R345). -/
def Obligations.PlacementsAndSavesAndResumes : Prop :=
  (∀ (s : State) (t : Nat),
     (∀ x k, Tbl.get? s.teams t = some x → x.state = .ready → x.cluster = none → (s.part x.part).state = 2 →
       (Tbl.get? s.launches x.launch).any (·.built) = true → s.chosenCluster t x = some k →
       ((s.link k).permits ≠ 0 → exec (.placementOrder t) s =
         let spent := fun (l : Link) => { l with orders := (l.orders + 1) % 2 ^ 32, permits := l.permits - 1, queue := l.queue ++ [t] }
         .next ((s.modLink k spent).modTeam t fun y => { y with cluster := some k })) ∧
       ((s.link k).permits = 0 → exec (.placementOrder t) s = .next s)) ∧
     (∀ (c0 : Nat) (cs : List Nat) (x0 x : Team),
       let k := c0 / 16
       let u := s.takeOrders k
       Tbl.get? s.teams t = some x0 → Tbl.get? u.teams t = some x → u.waitsAt k x = true →
       u.holds t x k = true → u.isNext k x = true → u.prefers t x k = true → (c0 :: cs).length = x.size →
       (∀ c ∈ (u.freeCores t x k).take x.size, c ∈ c0 :: cs) → s.trivetRuns k = true →
       let w := (u.lookWaiting k).lookTcbs x
       (Tbl.get? w.teams t).any (w.waitsAt k ·) = true →
       let stay := (w.staying t x).map (·.2)
       let v := (x.members.zipIdx.zip (c0 :: cs)).foldl (fun v e =>
         if stay.contains e.1.2 then v.placeMember t x (tmapOf (c0 :: cs)) e.1 e.2 else v) w
       exec (.placement t (c0 :: cs)) s = .next ((v.modTeam t fun y => { y with cluster := some k }).restamp t
         (if x.state = .ready then .placed else .moving))) ∧
     (∀ (x0 x : Team) (k : Nat),
       let u := s.takeOrders k
       Tbl.get? s.teams t = some x0 → x0.cluster = some k → Tbl.get? u.teams t = some x → x.state = .ready →
       (u.part x.part).state = 2 → s.trivetRuns k = true →
       ((List.range 8).any (u.holds t x) = true → exec (.preemptionDecision t) s = .next u) ∧
       (∀ vs, (List.range 8).any (u.holds t x) = false →
         u.enough x k ((u.teams.filter fun y => y.2.part == x.part && u.leaving y.1 y.2).map (·.1)) (u.victims x k) = some vs →
         let w := u.tcbLook x.part x.tcb
         (Tbl.get? w.teams t).any (·.state == .ready) = true →
         exec (.preemptionDecision t) s = .next (vs.foldl (State.preempt (decide (0 < w.tokens x))) w))) ∧
     (∀ (c0 : Nat) (cs : List Nat), s.trivetRuns (c0 / 16) = false → exec (.placement t (c0 :: cs)) s = .next s) ∧
     (∀ x k, Tbl.get? s.teams t = some x → x.cluster = some k → s.trivetRuns k = false →
       exec (.preemptionDecision t) s = .next s ∧ exec (.saveComplete t) s = .next s ∧ exec (.resume t) s = .next s) ∧
     (∀ (tok : Bool) (v : State) (w : Nat) (y : Team), Tbl.get? v.teams w = some y →
       let z := v.lookTcbs y
       (Tbl.get? z.teams w).any (·.state == .running) = true → v.preempt tok w =
       match actionOf (z.restartable y) tok (z.runOf w y) with
       | .kill => z.killTeam w
       | .drain => z.beginDrain w
       | .checkpoint => z.beginSave w) ∧
     (∀ (rs tok : Bool) (run seg rem : Nat),
       (rs = true → run ≤ 1620 → actionOf rs tok (run, seg, rem) = .kill) ∧
       (¬(rs = true ∧ run ≤ 1620) → (seg ≤ 1620 ∨ rem ≤ 1620 ∨ (tok = false ∧ seg ≤ 16384)) →
         actionOf rs tok (run, seg, rem) = .drain) ∧
       (¬(rs = true ∧ run ≤ 1620) → 1620 < seg → 1620 < rem → (tok = true ∨ 16384 < seg) →
         actionOf rs tok (run, seg, rem) = .checkpoint))) ∧
  (∀ (s : State) (t : Nat) (x : Team), Tbl.get? s.teams t = some x →
     (x.state = .suspending → x.cluster.all s.trivetRuns = true → exec (.saveComplete t) s = .next (s.saveTeam t false)) ∧
     (x.state ≠ .suspending → exec (.saveComplete t) s = .next s) ∧
     (let r := (s.flushTeam t).teamErrors t x
      let u := r.1
      (x.state = .moving → x.cluster.all s.trivetRuns = true → r.2 = false →
        exec (.resume t) s = .next ((x.live.foldl (fun v m =>
          v.restoreMember t x (movePlace (u.movesOf t x)) (u.liftTeam t x) m) u).modTeam t fun y => { y with state := .restored })) ∧
      (x.state = .moving → x.cluster.all s.trivetRuns = true → r.2 = true →
        exec (.resume t) s = .next (u.freezeSaved t x 3 0 false))) ∧
     (x.state ≠ .moving → exec (.resume t) s = .next s))

/-- A commit stages the contract, which the first interval step after its ec applies as a whole where it is in order
(`Staged.ok`), and refuses as a whole with CERR where it is not; a commit in the ec of a step is applied at the next one, and
what one of an earlier ec had staged at that step still (log 70, DEDUCED). A step settles what has been metered, moves every bucket by debit, returns
and grant, admits teams, takes the power state that PSET names and notes its ec; tasks that left in the ec of a step return
their deposits at the next. A bucket below its cap takes its returns and its grant up to the cap, and one above it gets
neither; with each throttle episode that opens a warning with the projected bucket goes to the island's Stoker. BREACH is set
where the mean power of the last WINDOW exceeds PSUST or a temperature its ceiling. BREACH_CLEAR clears BREACH. With the device up a commit and a BREACH_CLEAR complete
whatever their operand, and an interval step always does (17_energy.md R283 to R287, R290, R291; 01_machine.md R22). -/
def Obligations.EnergyContract : Prop :=
  ∀ s : State,
    (s.up = true → ∀ v : Word, exec (.contractCommit v) s =
      .next { s with damper := { s.damper with
        staged := Contract.ofWord (putBits v.toNat 16 16 1), pend := true, pendEc := s.ec + 1
        pendOld := if s.damper.pend ∧ s.damper.pendEc ≠ s.ec + 1 then some s.stagedNow else s.damper.pendOld } }) ∧
    (s.up = true → exec .breachClear s = .next { s with damper := { s.damper with breach := false } }) ∧
    (s.damper.pend = false ∨ (s.damper.pendEc = s.ec + 1 ∧ s.damper.pendOld = none) → s.applyCommit = s) ∧
    (∀ x : Staged, (s.damper.pend = true ∧ s.damper.pendEc ≠ s.ec + 1 ∧ x = s.stagedNow) ∨
        (s.damper.pend = true ∧ s.damper.pendEc = s.ec + 1 ∧ s.damper.pendOld = some x) →
      let late := decide (s.damper.pendEc = s.ec + 1)
      (x.ok = true → s.applyCommit.damper = { s.damper with pend := late, pendOld := none, applied := x.contract } ∧
        ∀ i, i < Config.nIslands → (s.applyCommit.island i).cap = (x.at i).1 ∧ (s.applyCommit.island i).grant = (x.at i).2) ∧
      (x.ok = false →
        s.applyCommit = { s with damper := { s.damper with pend := late, pendOld := none, cerr := true } })) ∧
    (∀ x : Staged, x.ok = true ↔ x.contract.ok = true ∧ (∀ e ∈ x.table, e.2.toNat ≤ e.1.toNat) ∧
      (x.table.map fun e => e.2.toNat).foldl (· + ·) 0 ≤ 10 * x.contract.psust.toNat) ∧
    (∀ i, i < Config.nIslands → s.stagedNow.at i = ((s.island i).capS, (s.island i).grantS)) ∧ s.stagedNow.contract = s.damper.staged ∧
    (∃ u : State, exec .intervalStep s = .next u.noteBreach.digestRecords ∧
      u = { ((List.range 9).foldl State.startZone (allIslands.foldl State.islandStep s.applyCommit.settleAll).admitAll.exportDeques)
        with damper := u.damper } ∧ u.damper.pcur = u.damper.pset ∧ u.damper.stepEc = s.ec + 1) ∧
    (∀ (x : Island) (ec : Nat), (x.lateEc = ec → x.due ec = { x with derated := x.derate }) ∧
      (x.lateEc ≠ ec → (x.due ec).owed = x.owed + x.lateOwed ∧ (x.due ec).deposits = x.deposits + x.lateDeposits)) ∧
    (∀ b d r cap g : Int, 0 ≤ g → 0 ≤ r →
      (b - d < cap → bucketAfter b d r cap g = min (b - d + r + g) cap) ∧
      (cap ≤ b - d → bucketAfter b d r cap g = b - d)) ∧
    (∀ i, i < Config.nCores →
      let x := (s.island i).due s.ec
      let g : Int := 1000 * (s.grantBu x : Int)
      let d : Int := x.owed + (x.uncoreFa / 64 - x.uncoreJ)
      let b := bucketAfter x.bucket d x.deposits (1000 * (x.capOf : Int)) g
      let u := s.islandStep i
      (u.island i).bucket = max (-8388608) (min 8388607 b) ∧ (u.island i).was = x.bucket ∧ (u.island i).deposits = 0 ∧
      (x.episode = none → b + 2 * (g - d) < 0 ∨ b < 0 →
        (u.island i).episode = some 0 ∧ (u.core i).throttle = some (BitVec.ofInt 32 (b + 2 * (g - d)))) ∧
      (x.episode = none → 0 ≤ b + 2 * (g - d) → 0 ≤ b →
        (u.island i).episode = none ∧ (u.core i).throttle = (s.core i).throttle)) ∧
    (let t := s.damper.applied
     let n := min (100 * t.window.toNat) (max 1 s.damper.steps)
     (s.breached = true ↔ t.psust.toNat * n < ((List.range n).map fun i => Config.boardPower (s.damper.steps - i)).sum ∨
       ∃ i, i < Config.nIslands ∧ 8 * t.tceil.toNat < (Config.telemetry i s.damper.steps).2.1.toNat) ∧
     (s.breached = true → s.damper.breach = false →
       s.noteBreach = { s with damper := { s.damper with breach := true } }.raiseMsix 9) ∧
     (s.breached = false ∨ s.damper.breach = true → s.noteBreach = s)) ∧
    (∀ (ep : Option Nat) (b p : Int),
      ((throttleNext ep b p).1 = true ↔ ep = none ∧ (p < 0 ∨ b < 0)) ∧
      (∀ n, ep = some n → 0 ≤ p → 0 ≤ b → throttleNext ep b p = (false, none, false)) ∧
      (∀ n, ep = some n → ¬(0 ≤ p ∧ 0 ≤ b) → throttleNext ep b p = (false, some (n + 1), decide (b < 0) && decide (2 ≤ n + 1))))

/-- The power commands: on makes an island wait for the step that ramps it up; off and retained off take a core only when it
is halted with no valid timetable entry (and, for off, no context in its bank), a cluster uncore off only when each core island of
its cluster is off, and are refused with PERR otherwise; a dark island stays dark. A ramp ends in the on state. A droop or an over-current slows the clock of an island that has one
until it ends. A phase failure derates the island and a regulator failure leaves it dark, with its SRAM lost and the teams
there killed or frozen (24_power_bringup.md R345 to R348; 20_translation_faults.md R317). -/
def Obligations.PowerAndProtection : Prop :=
  ∀ (s : State) (i : Nat),
    let idle := (s.core i).halted = true ∧ (s.core i).ent0.v = false ∧ (s.core i).ent1.v = false
    let refused := Host.Outcome.next (s.modIsland i fun x => { x with perr := true })
    (s.up = true →
      exec (.islandOn i) s =
        .next (s.modIsland i fun x => { x with cmd := 1, waitOn := x.waitOn || x.pstate == 0 || x.pstate == 3 }) ∧
      (i < 128 → idle → s.bankFull i = false →
        exec (.islandOff i) s = .next ((s.stopIsland i 0 0).modCore i Core.unpowered)) ∧
      (i < 128 → ¬idle ∨ s.bankFull i = true → exec (.islandOff i) s = refused) ∧
      (128 ≤ i → i < 136 → (∀ k, k < 16 → (s.island (16 * (i - 128) + k)).pstate = 0) →
        exec (.islandOff i) s = .next (s.stopIsland i 0 0)) ∧
      (128 ≤ i → i < 136 → ∀ k, k < 16 → (s.island (16 * (i - 128) + k)).pstate ≠ 0 → exec (.islandOff i) s = refused) ∧
      (128 ≤ i → i < 136 → exec (.islandRetainedOff i) s =
        .next (s.stopIsland i 2 (if (s.island i).pstate = 0 then 0 else 3))) ∧
      (i < 128 → idle → exec (.islandRetainedOff i) s =
        .next (s.stopIsland i 2 (if (s.island i).pstate = 0 then 0 else 3))) ∧
      (i < 128 → ¬idle → exec (.islandRetainedOff i) s = refused) ∧
      (136 ≤ i → exec (.islandOff i) s = refused ∧ exec (.islandRetainedOff i) s = refused)) ∧
    (exec (.islandRampComplete i) s =
      .next (s.modIsland i fun x => if x.pstate = 1 then { x with pstate := 2 } else x)) ∧
    (exec (.droop i) s = .next (s.modIsland i fun x => { x with droop := x.droop || x.clocked }) ∧
      exec (.droopStretchEnd i) s = .next (s.modIsland i fun x => { x with droop := false }) ∧
      exec (.overCurrent i) s = .next (s.modIsland i fun x => { x with overCur := x.overCur || x.clocked }) ∧
      exec (.overCurrentEnd i) s = .next (s.modIsland i fun x => { x with overCur := false })) ∧
    (∀ phase : BitVec 2,
      let failed := fun (x : Island) => { x with phase := x.phase &&& ~~~(BitVec.ofNat 4 (2 ^ phase.toNat)), derate := true }
      let u := s.modIsland i failed
      (∀ p, s.ownerOf i = some p → exec (.regulatorPhaseFailure i phase) s =
        .next ((u.notify p 7 0 ((u.island i).report i) 0).raiseMsix 9)) ∧
      (s.ownerOf i = none → exec (.regulatorPhaseFailure i phase) s = .next (u.raiseMsix 9))) ∧
    (let failed := fun (x : Island) => { x with regf := true, pstate := 4, waitOn := false, droop := false, overCur := false }
     let u := s.modIsland i failed
     (128 ≤ i → exec (.regulatorFailure i) s = .next u) ∧
     (i < 128 → exec (.regulatorFailure i) s =
       .next (((u.teams.filter fun e => u.hitBy i e.1 e.2).map (·.1)).foldl (fun v t => v.darkTeam i t)
         (((List.range 16).foldl (fun v _ => v.writeBack i) u).modCore i Core.dark))))

/-- What comes over the links. A host agent reaches its own memory, and over the port the device's memory where an HDM decoder
or BAR 2 names it and the interfaces of the bytes let it pass, at system scope (log 76, DEDUCED); a peer box reaches its own memory, and the
device's at fabric scope through a port in collective transport. A flit steps the digest of its direction, or counts as a CRC
error and is replayed. A port's link goes down, trains and comes up, and each change raises vector 10; a write that changes
its mode takes the link down and retrains it, and one of the width alone does not (log 75, DEDUCED); when no port carries the
fabric, the fabric collective at each core's CL, and of each context that is saved or switched out, stops with the fabric
fault (06_ordering.md R113; 23_host_links_security.md R333, R335, R337, R338; 25_debug.md R355). -/
def Obligations.Links : Prop :=
  ∀ s : State,
    (∀ (write stream : Bool) (path : HostPath) (pa : BitVec 52) (bytes : List Byte),
      let n := bytes.length
      (exec (.hostAccess write .own stream pa bytes) s = .next (s.outside .host 4 write true pa.toNat bytes)) ∧
      (path ≠ .own → (s.up = false ∨ s.hostUp = false) → exec (.hostAccess write path stream pa bytes) s = .next s) ∧
      (path ≠ .own → s.up = true → s.hostUp = true → pa.toNat + n ≤ Config.lp6Bytes →
        (path = .cxlMem → s.decoded pa.toNat n = false → exec (.hostAccess write path stream pa bytes) s = .next s) ∧
        (path = .bar2 ∨ s.decoded pa.toNat n = true →
          ((∀ i, i < n → ∀ x, s.interfaceAt (pa.toNat + i) = some x → x.passes stream = true) →
            exec (.hostAccess write path stream pa bytes) s = .next (s.outside .host 4 write false pa.toNat bytes)) ∧
          (∀ i x, i < n → s.interfaceAt (pa.toNat + i) = some x → x.passes stream = false →
            exec (.hostAccess write path stream pa bytes) s = .next { s with ideDropped := s.ideDropped + 1 }))) ∧
      (isPeer pa.toNat = true →
        exec (.peerAccess write pa bytes) s = .next (s.outside .peer 3 write false pa.toNat bytes)) ∧
      (s.up = true → s.fabricUp = true → pa.toNat + n ≤ Config.lp6Bytes →
        exec (.peerAccess write pa bytes) s = .next (s.outside .peer 3 write false pa.toNat bytes)) ∧
      (isPeer pa.toNat = false → s.up = false ∨ s.fabricUp = false → exec (.peerAccess write pa bytes) s = .next s)) ∧
    exec .hostPortDown s = .next { s with hostUp := false } ∧
    (∀ (n : BitVec 1),
      let x := s.port n.toNat
      let put := fun (y : Chimney) => s.modPort n.toNat fun _ => y
      (∀ (tx : Bool) (h : Word) (body : List Byte), x.carries = true →
        exec (.chimneyFlit n tx false h body) s = .next (put (if tx then { x with digtx := digestNext x.digtx h body }
          else { x with digrx := digestNext x.digrx h body })) ∧
        (x.crcerr ≠ 0xFFFFFFFF#32 → exec (.chimneyFlit n tx true h body) s = .next (put { x with crcerr := x.crcerr + 1 }))) ∧
      (x.lstate ≠ 0 → exec (.chimneyPortDown n) s = .next (put { x with lstate := 0, uplanes := 0 }).portChanged) ∧
      (x.lstate = 0 → exec (.chimneyPortDown n) s = .next s) ∧
      (∀ (ok : Bool) (lanes : BitVec 4), x.lstate = 1 → exec (.chimneyPortUp n ok lanes) s =
        .next (put { x with lstate := if ok then 2 else 3, uplanes := lanes }).portChanged.enumerate) ∧
      (s.up = true →
        exec (.digclr n) s = .next (put { x with digrx := 0, digtx := 0 }) ∧
        (∀ v : Word, exec (.chimneyModeWrite n v) s = .next (s.chctlWrite n.toNat v.toNat) ∧
          (v.toNat % 4 = 3 ∨ v.toNat / 4 % 4 = 0 → s.chctlWrite n.toNat v.toNat = s)))) ∧
    (∀ (d h : Word) (body : List Byte), digestNext d h body = d.rotateLeft 13 ^^^ h ^^^ (crc32c body).setWidth 64) ∧
    (s.fabricUp = true → s.portChanged = s.raiseMsix 10) ∧
    (s.fabricUp = false → s.portChanged = (List.range s.images.length).foldl State.stopFabricSaved
      ((s.cores.map (·.1)).foldl State.stopFabric (s.raiseMsix 10))) ∧
    (∀ c, ((s.ctx c).clFabric = none → s.stopFabric c = s) ∧
      (∀ e, (s.ctx c).clFabric = some e →
        s.stopFabric c = s.clFault c e { sub := .fabric, acc := 0, addr := none } 0 ∧ e ∈ (s.ctx c).clq ∧ e.started = true ∧
        e.complete = false ∧ ((s.ctx c).clKey e).1 = 3)) ∧
    (∀ k g e, s.images[k]? = some g → g.ctx.clFabric = some e → ∃ h, (s.stopFabricSaved k).images[k]? = some h ∧
      (h.ctx.fault .cl).valid = true) ∧
    (∀ (n : BitVec 1) (v : Nat),
      let x := s.port n.toNat
      let mode := BitVec.ofNat 2 v
      let put := fun (y : Chimney) => s.modPort n.toNat fun _ => y
      v < 2 ^ 4 → v % 4 ≠ 3 → v / 4 ≠ 0 →
        (x.mode ≠ mode → s.chctlWrite n.toNat v = (put { x with
          mode := mode, elanes := BitVec.ofNat 2 (v / 4), lstate := if mode = 0 then 0 else 1, uplanes := 0, digrx := 0, digtx := 0 }).portChanged) ∧
        (x.mode = mode → s.chctlWrite n.toNat v = put { x with elanes := BitVec.ofNat 2 (v / 4) }))

/-- Trusted interfaces. A key exchange with a period of 1 to 600 s opens a session, and one with another period is ignored (log
72, DEDUCED); a heartbeat renews it unless twice the period has passed; an interface locks while its partition is configured,
runs once locked with a session (log 72, DEDUCED), and leaves for ERROR, without its session, when it fails or when no
heartbeat has come for twice the period; stopping unlocks it. A report states SVN, fuse counter, STEP and
CGEN, with the measurement of the image and its revision (23_host_links_security.md R335, R336, R340; 00_scope.md R5). -/
def Obligations.TrustedInterfaces : Prop :=
  ∀ (s : State) (n : BitVec 8),
    let x := s.tdi n.toNat
    let put := fun (y : Tdi) => s.modTdi n.toNat fun _ => y
    (s.partOf n.toNat = none → exec (.lockInterface n) s = .next s ∧ exec (.stopInterface n) s = .next s ∧
      exec (.interfaceError n) s = .next s ∧ exec (.sessionExpiry n) s = .next s ∧
      ∀ p, exec (.keyExchange n p) s = .next s) ∧
    (∀ p, s.partOf n.toNat = some p →
      (∀ t, 1 ≤ t → t ≤ 600 → exec (.keyExchange n t) s =
        .next (put { x with session := true, period := t, lastBeat := s.time })) ∧
      (∀ t, t = 0 ∨ 600 < t → exec (.keyExchange n t) s = .next s) ∧
      ((s.part p).state = 1 → x.state = .unlocked → exec (.lockInterface n) s = .next (put { x with state := .locked })) ∧
      ((s.part p).state ≠ 1 → exec (.lockInterface n) s = .next s) ∧
      (x.state ≠ .error → (x.state = .run ∨ x.session = true) →
        exec (.interfaceError n) s = .next (s.interfaceFails n.toNat p)) ∧
      (x.state = .error → exec (.interfaceError n) s = .next s) ∧
      (x.session = true → x.state ≠ .error → x.lastBeat + 2 * x.period * second < s.time →
        exec (.sessionExpiry n) s = .next (s.interfaceFails n.toNat p)) ∧
      (s.time ≤ x.lastBeat + 2 * x.period * second → exec (.sessionExpiry n) s = .next s) ∧
      ((s.interfaceFails n.toNat p).tdi n.toNat).state = .error ∧ ((s.interfaceFails n.toNat p).tdi n.toNat).session = false ∧
      (x.state ≠ .unlocked → ∃ u : State, exec (.stopInterface n) s = .next u ∧ (u.tdi n.toNat).state = .unlocked)) ∧
    (x.session = true → s.time ≤ x.lastBeat + 2 * x.period * second →
      exec (.heartbeat n) s = .next (put { x with lastBeat := s.time })) ∧
    (x.lastBeat + 2 * x.period * second < s.time → exec (.heartbeat n) s = .next (put x)) ∧
    (x.state = .locked → x.session = true → exec (.startInterface n) s = .next (put { x with state := .run })) ∧
    (x.state = .locked → x.session = false → exec (.startInterface n) s = .next (put x)) ∧
    (∀ i, s.up = true → s.fw.image = some i → exec (.measurementReportRequest n) s =
      .next (put { x with report := some { measured := i.measured, revision := i.revision, svn := i.svn, fuse := s.fw.fuseCount, step := Config.step, cgen := Config.cgen }, reports := x.reports + 1 }))

/-- Firmware. An image boots, once, where both signatures verify and its SVN is not below the fuse counter; LP6 that trains
brings the device up, with the host port, at once where no Chimney port is on and otherwise when they have trained; an image
that is refused leaves it down, or, at a recovery, halted with RSTATE 2 and vector 11 (log 73, DEDUCED); so is one whose
length does not lie in LP6 from RSTAGE on (log 74, DEDUCED); a recovery is ignored while a partition runs. FWCOMMIT clears no fuse and brings the fuse counter to the running image's SVN (23_host_links_security.md R340 to R342; 24_power_bringup.md R349). -/
def Obligations.FirmwareAndRecovery : Prop :=
  ∀ (s : State) (i : FirmwareImage),
    let good := i.edOk = true ∧ i.mlOk = true ∧ i.svn ≤ 63 ∧ s.fw.fuseCount ≤ i.svn
    let held := s.fw.rstage.toNat + i.length ≤ Config.lp6Bytes
    let running := ∃ p, p < 8 ∧ (s.part p).state = 2
    (s.up = false → s.fw.image = none → good → exec (.resetRelease i) s = .next (s.bringUp i)) ∧
    (s.up = false → s.fw.image = none → ¬good →
      exec (.resetRelease i) s = .next { s with fw := { s.fw with rstate := 3, image := none } }) ∧
    (s.up = true ∨ s.fw.image.isSome = true → exec (.resetRelease i) s = .next s) ∧
    (running → exec (.recoveryGo i) s = .next s) ∧
    (¬running → good → held → exec (.recoveryGo i) s = .next (s.rebooted.bringUp i)) ∧
    (¬running → ¬(good ∧ held) → ∃ u, exec (.recoveryGo i) s = .next u ∧ u.fw.rstate = 2 ∧ u.msix = s.msix ++ [11] ∧
      u.cores = s.cores.map fun e => (e.1, { e.2 with halted := true })) ∧
    ((s.bringUp i).fw.image = some i) ∧
    (i.lp6Trains = true → s.up = false →
      (i.mode0 = 0 → i.mode1 = 0 → (s.bringUp i).up = true ∧ (s.bringUp i).hostUp = true) ∧
      (i.mode0 = 1 → i.elanes0 ≠ 0 → (s.bringUp i).up = false ∧ ((s.bringUp i).port 0).lstate = 1)) ∧
    (i.lp6Trains = false → (s.bringUp i).up = s.up) ∧
    (∀ k, s.fw.image = some k →
      exec .fwcommit s = .next { s with fw := { s.fw with fuse := s.fw.fuse ||| BitVec.ofNat 64 (2 ^ k.svn - 1) } } ∧
      (k.svn ≤ 63 → k.svn ≤ s.fuseCommit.fw.fuseCount)) ∧
    (∀ n, s.fw.fuse.getLsbD n = true → s.fuseCommit.fw.fuse.getLsbD n = true) ∧
    (s.fw.image = none → exec .fwcommit s = .next s)

/-- A service completes a request: what it delivers is written to the buffer before DONE, what it sends or stores is the payload
it has read, a foreign handle ends it with error code 3, and the member's SVC event is latched; a request of an interface in
ERROR only ends (log 18, DESIGN CHOICE); a page lent is writable again once no request names it. Soot stops every running team
of its partitions: each member halts at its cut on its core, and one that is switched out stays out until its core is let go
on (log 52, DEDUCED); it records samples once in each period of 65,536 ec (log 52, DEDUCED), and stops a team before the entry
a breakpoint names. The error block's registers are written by the host (08_stoker_isa.md R173, R174;
20_translation_faults.md R319; 25_debug.md R350 to R353). -/
def Obligations.ServicesAndDebug : Prop :=
  ∀ s : State,
    (∀ (k : Nat) (r : Request) (err : Bool) (value : BitVec 48) (data : List Byte), s.requests[k]? = some r →
      let gone := fun (u : State) => { u with requests := dropAt u.requests k }
      let done := fun (u : State) (err : Bool) (value : Nat) => (u.serviceWrite r r.done 8
        (leBytes 8 (2 ^ 63 + (if err then 2 ^ 62 else 0) + value % 2 ^ 48))).eventMember r.team r.member
      let bs := data.take r.len
      let u := s.readPayload k
      (s.mute r = true → exec (.serviceCompletion k err value data) s = .next (gone s)) ∧
      (s.mute r = false → s.foreign r = true →
        exec (.serviceCompletion k err value data) s = .next (done (gone s) true 3)) ∧
      (s.mute r = false → s.foreign r = false →
        (err = true → exec (.serviceCompletion k err value data) s = .next (done (gone s) true value.toNat)) ∧
        (err = false → r.delivers = true → exec (.serviceCompletion k err value data) s =
          .next (done ((gone s).serviceWrite r r.buf bs.length bs) false value.toNat)) ∧
        (∀ y pay, err = false → r.delivers = false → u.requests[k]? = some y → y.payload = some pay →
          exec (.serviceCompletion k err value data) s =
            .next (done { gone u with sent := u.sent ++ [(r.service, r.handle, pay)] } false value.toNat)))) ∧
    (∀ (p : Nat) (page : BitVec 57) (l : Lent), s.lent.find? (fun l => l.part == p && l.page == page.toNat) = some l →
      (s.pageNamed l = true → exec (.lentPageReturn p page) s = .next s) ∧
      (s.pageNamed l = false → (s.tdi (s.part p).tdi.toNat).state ≠ .error →
        exec (.lentPageReturn p page) s = .next (({ s with lent := s.lent.filter (· != l) }).eventMember l.team l.member))) ∧
    (s.up = true → exec .sootStop s = .next ((s.teams.filter fun e => bitNat s.soot.ctl.toNat (8 + e.2.part)).foldl
      (fun u e => u.stopTeam e.1) s)) ∧
    (∀ t x, Tbl.get? s.teams t = some x →
      (x.state = .running ∨ x.state = .suspending → s.stopTeam t = x.live.foldl (fun u m =>
        if (u.core m.1.core).task == some (t, m.2) then u.stopCore m.1.core else u.stopImage t x m) s) ∧
      (x.state ≠ .running → x.state ≠ .suspending → s.stopTeam t = s) ∧
      (∀ m k g, x.state = .running → s.imageOf t m.2 = some k → s.images[k]? = some g →
        ∀ h ∈ (s.stopImage t x m).images, h.team = t → h.member = m.2 → h.stopped = true)) ∧
    (∀ c, (s.core c).hold = .none → ((s.stopCore c).core c).halted = true ∧ ((s.stopCore c).core c).hold = .stopped) ∧
    (s.sampleDue = true → exec .sampleRecord s =
      .next ((s.cores.map (·.1)).foldl (fun u c => if (u.core c).task.isSome then u.headRecords 6 c else u)
        { s with soot := { s.soot with sampled := s.ec / 65536 } })) ∧
    (s.sampleDue = true ↔ s.soot.ctl.toNat / 4 % 2 = 1 ∧ s.soot.sampled < s.ec / 65536) ∧
    (s.sampleDue = false → exec .sampleRecord s = .next s) ∧
    (∀ (k c : Nat) (a : Agent), s.brkHit k = some (c, a) → (s.core c).hold = .none → (s.core c).halted = false →
      let u := if s.sootOn c then s.sootRecord (sootDw0 3 a.code c ((s.ctx c).position a)) 0 (s.launchNo c * 2 ^ 32) else s
      ((u.core c).task = none → exec (.breakpointStop k) s = .next (u.stopCore c)) ∧
      (∀ t m, (u.core c).task = some (t, m) → exec (.breakpointStop k) s = .next (u.stopTeam t))) ∧
    (s.up = true → ∀ (k : Nat) (v : Word),
      exec (.errcfgWrite v) s = .next (s.errcfgWrite v.toNat) ∧
      (k < 8 → exec (.errorInjectArm k v) s = .next (s.injWrite k v.toNat)) ∧
      (k < 4 → exec (.latencyInjectArm k v) s = .next (s.latinjWrite k v.toNat)) ∧
      (s.errcfgWrite v.toNat).err.window =
        (if bitsNat v.toNat 47 32 = 0 then s.err.window else BitVec.ofNat 16 (bitsNat v.toNat 47 32)) ∧
      (s.errcfgWrite v.toNat).err.thresh =
        (if bitsNat v.toNat 23 20 ≤ 1 then s.err.thresh else BitVec.ofNat 4 (bitsNat v.toNat 23 20)))

/-- A write of a partition's window by the host completes, for every operand, locked or not: a refused configuration only sets WREF, an accepted one sets the interface,
STATE and the cluster mask, and from STATE 2 to 1 each running team drains; the root and the physical window hold while
STATE = 2; a locked interface refuses every write. TLBINV with GO drops the entries it names. A freeze that is resumed
goes on running in place, at once and without cost (log 67, DEDUCED), or becomes Suspended where it was saved; one whose image
is lost, and one of an interface in ERROR (log 72, DEDUCED), refuses; a kill of a frozen team kills it (16_system_state.md
R279; 20_translation_faults.md R310, R316; 23_host_links_security.md R335; 01_machine.md R10). -/
def Obligations.PartitionWindow : Prop :=
  ∀ (s : State) (p : Nat), s.up = true → p < 8 →
    (∀ (off : Nat) (v : Word), exec (.partitionConfigWrite p off v) s = .next (s.partWrite p off v.toNat) ∧
      (s.windowLocked p = true → exec (.partitionConfigWrite p off v) s = .next (s.modPart p fun x => { x with wref := true }))) ∧
    (∀ v : Word, s.windowLocked p = false →
      let mask := bitsNat v.toNat 7 0
      let st := bitsNat v.toNat 9 8
      let set := s.modPart p fun x =>
        { x with tdi := BitVec.ofNat 8 (bitsNat v.toNat 23 16), state := BitVec.ofNat 2 st, clmask := BitVec.ofNat 8 mask }
      (s.configRefused p v.toNat = true → exec (.partitionConfigWrite p 0x00 v) s = .next (s.modPart p fun x => { x with wref := true })) ∧
      (s.configRefused p v.toNat = false → ¬((s.part p).state = 2 ∧ st = 1) →
        exec (.partitionConfigWrite p 0x00 v) s = .next set) ∧
      (s.configRefused p v.toNat = false → (s.part p).state = 2 → st = 1 → exec (.partitionConfigWrite p 0x00 v) s =
        .next ((set.teams.filter fun e => e.2.part == p && e.2.state == .running).foldl (fun s e => s.beginDrain e.1) set)) ∧
      (st = 3 ∨ ((s.part p).state = 2 ∧ mask ≠ (s.part p).clmask.toNat) ∨ (st = 0 ∧ s.busyPart p = true) →
        s.configRefused p v.toNat = true) ∧
      ((s.part p).state = 2 → (s.part p).root ≠ bitsNat v.toNat 51 12 * 4096 →
        exec (.partitionConfigWrite p 0x08 v) s = .next (s.modPart p fun x => { x with wref := true })) ∧
      ((s.part p).state = 2 → (s.part p).pwbase ≠ bitsNat v.toNat 51 12 * 4096 →
        exec (.partitionConfigWrite p 0x40 v) s = .next (s.modPart p fun x => { x with wref := true })) ∧
      ((s.part p).state = 2 → (s.part p).pwlim ≠ bitsNat v.toNat 51 12 * 4096 →
        exec (.partitionConfigWrite p 0x48 v) s = .next (s.modPart p fun x => { x with wref := true }))) ∧
    (∀ v : Word, (s.windowLocked p = false → exec (.tlbInvalidate p v) s = .next (s.tlbinvWrite p v.toNat)) ∧
      (s.windowLocked p = true → exec (.tlbInvalidate p v) s = .next (s.refusePart p)) ∧
      (v.getLsbD 0 = true → (s.tlbinvWrite p v.toNat).tlb = s.tlb.filter fun e => !(e.part == p && tlbinvDrops v.toNat e))) ∧
    (∀ (a : BitVec 57) (t : Nat) (x : Team) (m : Nat),
      s.teamAt p (a.toNat / 128 * 128) = some (t, x, m) → s.windowLocked p = false →
      let u := fun (n : Nat) => s.modPart p fun y => { y with fzctl := BitVec.ofNat 64 (a.toNat / 128 * 128 + n) }
      let frozen := x.state = .frozenHere ∨ x.state = .frozenSaved
      (frozen → x.lostImage = true ∨ s.inError p = true →
        exec (.freezeResume p a) s = .next ((u 1).modPart p fun y => { y with resref := true })) ∧
      (x.state = .frozenHere → x.lostImage = false → s.inError p = false → exec (.freezeResume p a) s =
        .next (((x.live.foldl (fun v n => v.thawMember p t n) (u 1)).modTeam t fun y => { y with state := .running }).loadMembers x)) ∧
      (x.state = .frozenSaved → x.lostImage = false → s.inError p = false → exec (.freezeResume p a) s =
        .next ((((u 1).staying t x).foldl (fun v n => v.setFrz p n.1.tcb false) (u 1)).restamp t .suspended)) ∧
      (¬frozen → exec (.freezeResume p a) s = .next (u 1) ∧ exec (.freezeKill p a) s = .next (u 2)) ∧
      (frozen → exec (.freezeKill p a) s = .next ((u 2).killTeam t))) ∧
    (s.windowLocked p = true → ∀ a : BitVec 57,
      exec (.freezeResume p a) s = .next (s.refusePart p) ∧ exec (.freezeKill p a) s = .next (s.refusePart p))

/-- A write of a core's windows by the host. HALT = 1 asks for a halt; HALT = 0 lets a halted or stopped core whose island is
on issue again; a binding changes only while the core is halted, with WERR otherwise. A timetable entry changes unless it
is the running one of a core that is not halted or meets the other. SBDATA reads a doubleword of the bank and moves SBPTR
by 8, round its end (16_system_state.md R275, R278, R280; 19_scheduling.md R299). A write of BAR 0 reaches the window its
offset lies in; before bring-up only the recovery window takes one, and an offset that no window names is ignored
(16_system_state.md R278; 17_energy.md R283; 20_translation_faults.md R319; 25_debug.md R352; 23_host_links_security.md
R342; 24_power_bringup.md R345, R349). -/
def Obligations.CoreWindowsAndRegisterWrites : Prop :=
  (∀ (s : State) (c : Nat), s.up = true → c < Config.nCores →
     (∀ v : Word, exec (.haltRequest c v) s = .next (s.corectlWrite c v.toNat) ∧
       (v.getLsbD 0 = true → s.corectlWrite c v.toNat =
         s.modCore c fun k => { k with werr := k.werr && !v.getLsbD 2, haltReq := true }) ∧
       (v.getLsbD 0 = false → (s.core c).hold = .none → s.islandUp c = true →
         (s.core c).task.isSome = true ∨ ((s.core c).ent (s.core c).other).v = false → s.corectlWrite c v.toNat =
         (s.letIn c).modCore c fun k => { k with werr := k.werr && !v.getLsbD 2, haltReq := false, halted := false, hold := .none })) ∧
     ((s.core c).halted = true → exec (.shadowBankRead c) s =
       let w := Config.bankWord s.free (s.core c).sbptr
       .next ({ s with hostRead := leBytes 8 w.toNat, free := s.free + 1 }.modCore c fun k =>
         { k with sbptr := if 768 * 1024 ≤ k.sbptr + 8 then 0 else k.sbptr + 8 })) ∧
     ((s.core c).halted = false → exec (.shadowBankRead c) s = .next { s with hostRead := leBytes 8 0 }) ∧
     (∀ (e : Nat) (off : Nat) (v : Word), e < 2 → off < 0x40 →
       let x := ((s.core c).ent e).write off v.toNat
       let other := (s.core c).ent (1 - e)
       let bad := (e = (s.core c).cur ∧ (s.core c).halted = false) ∨ (x.v = true ∧ other.v = true ∧ meets x.b other.b = true)
       (¬bad → exec (.timetableEntryWrite c (0x40 + 0x40 * e + off) v) s = .next (s.modCore c fun k => k.setEnt e x)) ∧
       (bad → exec (.timetableEntryWrite c (0x40 + 0x40 * e + off) v) s =
         .next (s.modCore c fun k => { k with ttWerr := true }))) ∧
     (∀ (off : Nat) (v : Word), off ≤ 0x28 →
       ((s.core c).halted = false → s.coreWindow c off v.toNat = s.modCore c fun k => { k with werr := true }) ∧
       (∀ b, (s.core c).halted = true → (s.core c).b.load off v.toNat = some b →
         s.coreWindow c off v.toNat = s.modCore c fun k => { k with b := b }))) ∧
  (∀ (s : State) (o : Nat) (v : Word),
     (o < 0x10000 → exec (.registerWrite (0x70000 + o) v) s = .next (s.recoveryWindow o v.toNat)) ∧
     (s.up = false → ¬(0x70000 ≤ o ∧ o < 0x80000) → exec (.registerWrite o v) s = .next s) ∧
     (s.up = true →
       (o < 0x800 → exec (.registerWrite (0x10000 + o) v) s = s.partWindow (o / 0x100) (o % 0x100) v.toNat) ∧
       (o < 0x10000 → exec (.registerWrite (0x20000 + o) v) s = .next (s.damperWindow o v.toNat)) ∧
       (o < 0x8000 → exec (.registerWrite (0x30000 + o) v) s = .next (s.ttWrite (o / 0x100) (o % 0x100) v.toNat)) ∧
       (o < 0xC000 → exec (.registerWrite (0x40000 + o) v) s = .next (s.faultWindow o v.toNat)) ∧
       (o < 0x4000 → exec (.registerWrite (0x4C000 + o) v) s = .next (s.errWindow o v.toNat)) ∧
       (o < 0x10000 → exec (.registerWrite (0x50000 + o) v) s = .next (s.sootWindow o v.toNat)) ∧
       (o < 2 → exec (.registerWrite (0x60000 + 0x100 * o) v) s = .next (s.chctlWrite o v.toNat)) ∧
       (o < 0x10000 → exec (.registerWrite (0x80000 + o) v) s = s.powerWindow o v.toNat) ∧
       (o < 0x80000 → exec (.registerWrite (0x100000 + o) v) s = .next (s.coreWindow (o / 0x1000) (o % 0x1000) v.toNat)) ∧
       (o < 0x10000 ∨ 0x180000 ≤ o → exec (.registerWrite o v) s = .next s) ∧
       (∀ i, i < 140 → exec (.registerWrite (0x80100 + 8 * i) v) s =
         let u := s.modIsland i fun x => { x with perr := x.perr && !bitNat v.toNat 14 }
         if bitsNat v.toNat 1 0 = 0 then exec (.islandOff i) u
         else if bitsNat v.toNat 1 0 = 1 then exec (.islandOn i) u
         else if bitsNat v.toNat 1 0 = 2 then exec (.islandRetainedOff i) u
         else .next (u.modIsland i fun x => { x with perr := true }))))

/-- A step runs the decoded instruction. With an empty plan the acting core's Stoker has the turn: where it is powered and
issues, and nothing comes at the boundary, the bytes at its pc decode to an instruction i of n bytes, and the step is exec
of i, with n kept for the address of the next instruction; what comes at the boundary is executed instead, but for an
interrupt before an `sk.wfe` that has something to report; bytes that are no instruction take the illegal-instruction trap. A
fetch that does not translate takes the instruction page fault, cause 12, at the address of its halfword; one of a defective
shared image, or that meets an uncorrectable error, takes cause 1; one that breaks isolation performs nothing and freezes the
team (20_translation_faults.md R307, R315, R318; 16_system_state.md R273; 07_encoding.md R147). A plan names the turn otherwise: a run of VX or MX executes the word at
its position, and an event is executed if it has no word. That a plan says whose turn it is is the model's choice (log 5);
the rest is 07_encoding.md R114, R122, R148 and 20_translation_faults.md R311. -/
def Obligations.StepRunsDecodedInstruction : Prop :=
  (∀ s : State, s.plan = [] → s.coreOn s.cur = true → s.me.hold = .none →
    let fetches := s.boundary = none ∨ (s.boundary = some .interruptTake ∧ s.wfeReady = true)
    (∀ i, s.boundary = some i → i ≠ .interruptTake ∨ s.wfeReady = false → step s = exec i s) ∧
    (∀ b u i n, fetches → s.fetchAt 0 2 = .ok b u → isLong b = false → decodeBytes b = .ok (i, n) →
      step s = exec i (u.modCore u.cur fun k => { k with ilen := n })) ∧
    (∀ b u b' v i n, fetches → s.fetchAt 0 2 = .ok b u → isLong b = true → u.fetchAt 2 2 = .ok b' v →
      decodeBytes (b ++ b') = .ok (i, n) → step s = exec i (v.modCore v.cur fun k => { k with ilen := n })) ∧
    (∀ b u e, fetches → s.fetchAt 0 2 = .ok b u → isLong b = false → decodeBytes b = .error e →
      step s = u.illegal) ∧
    (∀ u, fetches →
      (s.fetchAt 0 2 = .page u → step s = .next (u.takeTrap 12 u.my.pc 0)) ∧
      (s.fetchAt 0 2 = .image u ∨ s.fetchAt 0 2 = .error u → step s = .next (u.takeTrap 1 u.my.pc 0)) ∧
      (s.fetchAt 0 2 = .violation u → step s = .next (u.freezeCore u.cur 2 0 0))) ∧
    (∀ b u v, fetches → s.fetchAt 0 2 = .ok b u → isLong b = true →
      (u.fetchAt 2 2 = .page v → step s = .next (v.takeTrap 12 (v.my.pc + 2) 0)) ∧
      (u.fetchAt 2 2 = .image v ∨ u.fetchAt 2 2 = .error v → step s = .next (v.takeTrap 1 (v.my.pc + 2) 0)) ∧
      (u.fetchAt 2 2 = .violation v → step s = .next (v.freezeCore v.cur 2 0 0))) ∧
    (s.my.mode ≠ .m → s.me.b.codebase = 0 → s.my.pc.toNat % 4096 ≠ 4095 → ∀ u,
      let t := s.translate (.core s.cur .sk) s.me.b.part.toNat .fetch (s.my.mode == .u) s.my.pc.toNat
      (t = (.fault, u) → s.fetchAt 0 2 = .page u) ∧ (t = (.violation, u) → s.fetchAt 0 2 = .violation u))) ∧
  (∀ (s : State) (c : Nat) (rest : List Turn),
    let u : State := { s with plan := rest, cur := c }
    (s.plan = .stoker c :: rest → step s = u.stokerTurn) ∧
    (∀ i, s.plan = .event c i :: rest → encode i = none → step s = exec i u) ∧
    (∀ r i n, s.plan = .vx c :: rest → u.coreOn c = true → u.my.vx.run = some r → r.hws ≠ [] →
      decodeStream false (r.hws.drop r.pos) = .ok (i, n) → step s = exec i u) ∧
    (∀ r i n, s.plan = .mx c :: rest → u.coreOn c = true → u.my.mx.run = some r → r.hws ≠ [] →
      decodeStream true (r.hws.drop r.pos) = .ok (i, n) → step s = exec i u) ∧
    (∀ e w a i, s.plan = .mx c :: rest → u.coreOn c = true → u.my.mx.run = none → u.my.nextEntry .mx = some e →
      e.cmd = .mxWord w a → decodeMxFull w = .ok i → step s = exec i u) ∧
    (∀ k, s.plan = .perform c k :: rest → step s = .next ({ s with plan := rest }.performEntry c k)) ∧
    (∀ ec n, s.plan = .tick ec n :: rest → step s = .next { s with plan := rest, ec := s.ec + ec, time := s.time + n })) ∧
  ∀ (s : State) (n : Nat), (s.modCore s.cur fun k => { k with ilen := n }).nextPc = s.my.pc + BitVec.ofNat 64 n

/-- Words written out from the spec decode to the instructions they stand for (05_local_memory.md R93; 08_stoker_isa.md R157
to R163; 10_matrix_isa.md R211, R218, R219, R225; 11_data_engines_isa.md R244). -/
def Obligations.DecodeSamples : Prop :=
  decodeStoker 0x2033812B#32 = .ok (.skMark 0 3 7 2) ∧
  decodeStoker 0x040012AB#32 = .ok (.skWfe 5) ∧
  decodeStoker 0x0601902B#32 = .ok (.skSev 3) ∧
  decodeStoker 0x027342AB#32 = .ok (.abAmoadd 1 7 6 5) ∧
  decodeStoker 0x0206400B#32 = .ok (.fxCfg 12) ∧
  decodeStoker 0x1000118B#32 = .ok (.mxClaimInline 3) ∧
  decodeStoker 0x00000073#32 = .ok (.rv64Base .ecall) ∧
  decodeMxHalf 0x1180#16 = .ok (.mxReleaseShort 3) ∧
  decodeMxHalf 0x2005#16 = .ok (.mxMark 5) ∧
  decodeMxHalf 0x3F00#16 = .ok (.mxGate 15) ∧
  decodeMxFull 0x9000B800#32 = .ok (.mxTanch 0 0 46) ∧
  decodeMxFull 0x88600000#32 = .ok (.mxClaim 3) ∧
  accepted (decodeStoker 0x00000000#32) = none

/-- Decode and encode agree: every well-formed instruction that has a word decodes from it, with every operand at every value
the encoding admits; so two instructions never share a word (07_encoding.md R114 to R135). -/
def Obligations.DecodeEncode : Prop :=
  (∀ (i : Instr) (w : EncWord), i.wf = true → encode i = some w → decodeWord w = .ok i) ∧
  ∀ (i j : Instr), i.wf = true → j.wf = true → (encode i).isSome = true → encode i = encode j → i = j

/-- The device at reset, as far as the spec states it: core islands are off and uncore islands on; every core asks for a halt
and is halted; no partition is on, no contract has granted anything and every bucket is 0; PSET is 0; every event latch
and arm mask is clear, and OUTW is 64 and CONCAT 0; every slot is Free, every tile is in auto mode with anchor 0, and
every rendezvous register counts as fired. What the log names beside it (every general register 0, memory listing nothing)
is the model's own choice (logs 1 and 2) (24_power_bringup.md R343, R349; 16_system_state.md R278; 17_energy.md R284;
08_stoker_isa.md R153, R158; 10_matrix_isa.md R211, R218; 11_data_engines_isa.md R244). -/
def Obligations.ResetState : Prop :=
  let s := State.reset
  (∀ i, (i < 128 → (s.island i).cmd = 0 ∧ (s.island i).pstate = 0) ∧ (128 ≤ i → (s.island i).cmd = 1 ∧ (s.island i).pstate = 2) ∧
    (s.island i).bucket = 0 ∧ (s.island i).grant = 0) ∧
  (∀ c, (s.core c).haltReq = true ∧ (s.core c).halted = true ∧ (s.core c).werr = false ∧ (s.core c).sbptr = 0 ∧
    (s.ctx c).latch = 0 ∧ (s.ctx c).arm = 0 ∧ (s.ctx c).fxOutw = 64 ∧ (s.ctx c).fxConcat = 0 ∧
    (∀ n, ((s.ctx c).slot n).state = .free) ∧ (∀ n, ((s.ctx c).acc n).auto = true ∧ ((s.ctx c).acc n).anchor = 0) ∧
    (∀ k, ((s.ctx c).rvAt k).armed = false) ∧ (∀ r, (s.ctx c).getX r = 0)) ∧
  (∀ p, (s.part p).state = 0) ∧ s.damper.pset = 0 ∧ s.damper.pend = false ∧ s.up = false ∧
  s.memOk ∧ ∀ a, s.mem.read a = 0

/-- Every step keeps the canonical form of device and host memory: from any state whose memories list each address once, in
order, with no entry equal to what an unlisted address reads as, a step that answers a next state answers one whose
memories do. The form is the model's (log 2); that the state at reset has it is part of ResetState (06_ordering.md R101,
R102). -/
def Obligations.StepKeepsMemory : Prop :=
  ∀ s t : State, s.memOk → step s = .next t → t.memOk

/-- Device memory and host memory at reset list nothing, and so have the canonical form that every step keeps; that form is
the model's (log 2) (06_ordering.md R101). -/
def Obligations.ResetMemoryCanonical : Prop :=
  State.reset.memOk

/-- `mx.tinit accN` sets every element inside the tile's geometry to V = 0 with all flags clear, and sets VALID and DIRTY; the
anchor, AMODE and phase are unchanged. The inline `mx.tinit acc1` is 0x2800_108B and pushes 0x9420_0000 (10_matrix_isa.md
R219). -/
def Obligations.TileInitialisation : Prop :=
  (∀ (s u : State) (m : MxAt) (c : BitVec 5), s.inMx m u →
    let t := u.my.acc c.toNat
    let g := m.e.binds.geom c.toNat
    t.inflight ≠ some .fx → ∃ t' : AccTile,
      exec (.mxTinit c) s =
        .next ((((u.mend [.acc u.cur c.toNat]).upd fun x => x.setAcc c.toNat t').meter u.cur 15 g.rows).mxNext m) ∧
      (∀ i j, i < g.rows → j < g.cols →
        t'.el i j = { v := 0, nan := false, ninf := false, pinf := false, rng := false, inx := false }) ∧
      (g.cols ≤ 64 → ∀ i j, j < 64 → ¬(i < g.rows ∧ j < g.cols) → t'.el i j = t.el i j) ∧
      t'.valid = true ∧ t'.dirty = true ∧ t'.anchor = t.anchor ∧ t'.auto = t.auto ∧ t'.phase = t.phase) ∧
  decodeStoker 0x2800108B#32 = .ok (.mxTinitInline 1) ∧
  decodeMxFull 0x94200000#32 = .ok (.mxTinit 1) ∧
  (∀ s : State, s.room (s.mxReq 0x94200000#32 0) →
    exec (.mxTinitInline 1) s = .next ((s.register (s.mxReq 0x94200000#32 0)).retireAt s.nextPc))

/-- `mx.tanch accN, a` sets AMODE fixed and rescales to anchor a: the new V is floor(V × 2^(A − A′)) wherever that lies in the
window, INX is set where bits are lost, RNG where the result leaves the window, and of an invalid tile only the anchor is
written. `mx.tanch accN, auto` sets AMODE auto and leaves the anchor unchanged, and its anchor field is ignored. The word
carries AMODE in bit 20 and the anchor in bits [19:10]; `mx.tanch acc0, 46` is 0x9000_B800. At task start every tile is in
auto mode with anchor 0 (10_matrix_isa.md R218). -/
def Obligations.AnchorCommands : Prop :=
  (∀ (s u : State) (m : MxAt) (c : BitVec 5) (a : BitVec 10), s.inMx m u →
    let t := u.my.acc c.toNat
    t.inflight = none →
    exec (.mxTanch c 1 a) s = .next ((u.upd fun x => x.setAcc c.toNat { t with auto := true }).mxNext m) ∧
    ∃ t' : AccTile, exec (.mxTanch c 0 a) s = .next ((u.upd fun x => x.setAcc c.toNat t').mxNext m) ∧
      t'.auto = false ∧ t'.anchor = a.toInt ∧ t'.phase = t.phase ∧ t'.valid = t.valid ∧
      (t.valid = false ∨ t.anchor = a.toInt → t'.els = t.els) ∧
      (t.valid = true → t.anchor ≠ a.toInt → ∀ i j,
        let e := t.el i j
        let up := 2 ^ (t.anchor - a.toInt).toNat
        let down := 2 ^ (a.toInt - t.anchor).toNat
        let v : Int := if a.toInt ≤ t.anchor then e.v * up else e.v / down
        (outWindow v = false → (t'.el i j).v = v) ∧
        (t'.el i j).inx = (e.inx || decide (t.anchor < a.toInt ∧ e.v % down ≠ 0)) ∧
        (t'.el i j).rng = (e.rng || outWindow v) ∧
        (t'.el i j).nan = e.nan ∧ (t'.el i j).pinf = e.pinf ∧ (t'.el i j).ninf = e.ninf)) ∧
  (∀ v : Int, outWindow v = true ↔ v < -2 ^ 65 ∨ 2 ^ 65 ≤ v) ∧
  (∀ (c : BitVec 5) (m : BitVec 1) (a : BitVec 10), c.toNat < 8 → ∃ w : BitVec 32, encode (.mxTanch c m a) = some (.mxFull w) ∧
    decodeMxFull w = .ok (.mxTanch c m a) ∧ w.extractLsb' 20 1 = m ∧ w.extractLsb' 10 10 = a) ∧
  decodeMxFull 0x9000B800#32 = .ok (.mxTanch 0 0 46) ∧
  (∀ (x : Ctx) (n : Nat), (x.fresh.acc n).auto = true ∧ (x.fresh.acc n).anchor = 0)

/-- `fx.cfg rs1` (funct7 0x01, word 0x0206_400B with rs1 = x12) sets FX's OUTW and CONCAT from its record. A later `fx.pass`
captures the values in force when it reaches FX. At task start OUTW = 64 and CONCAT = 0. OUTW outside 1 to 64 or CONCAT
above 2 raises the record fault, and the values stay as they were (11_data_engines_isa.md R244). -/
def Obligations.FlueConfiguration : Prop :=
  decodeStoker 0x0206400B#32 = .ok (.fxCfg 12) ∧
  (∀ (s : State) (e : Entry) (j : Job) (r : List Byte), s.starts .fx 1 e j r →
    let outw := fld r 8 1
    let concat := fld r 9 1
    (headerOk r 1 0 = true → zeroBytes r 10 54 = true → 1 ≤ outw → outw ≤ 64 → concat ≤ 2 →
      exec .fxCfgStart s = .next (({ j with s := j.s.upd fun x => { x with fxOutw := outw, fxConcat := concat } } : Job).ended e)) ∧
    (outw < 1 ∨ 64 < outw ∨ 2 < concat →
      exec .fxCfgStart s = j.stopAt e { sub := .record, acc := 0, addr := none } 0 0 ∧
      ∃ t, exec .fxCfgStart s = .next t ∧ t.cur = s.cur ∧ t.my.fxOutw = s.my.fxOutw ∧ t.my.fxConcat = s.my.fxConcat)) ∧
  (∀ (x : Ctx) (e : Entry) (r : List Byte), (x.fxPass e r).outw = x.fxOutw ∧ (x.fxPass e r).concat = x.fxConcat) ∧
  (∀ x : Ctx, x.fresh.fxOutw = 64 ∧ x.fresh.fxConcat = 0)

/-- A 16-bit MX word has bit 15 = 0 and a short operation in [14:12]: 000 is `mx.nop`, whose other bits are zero; 001 is
`mx.release`, with the slot in [11:7] and [6:0] zero; 010 is `mx.mark`, with its number in [11:0]; 011 is `mx.gate`, with
its mask in [11:8] and [7:0] zero; 100 to 111 are reserved. A mark is recorded for trace when every older MX command has
retired (07_encoding.md R134). -/
def Obligations.ShortMatrixWords : Prop :=
  (∀ w : BitVec 16, w.extractLsb' 15 1 = 0#1 →
    let op := w.extractLsb' 12 3
    (op = 0#3 → accepted (decodeMxHalf w) = if w = 0#16 then some .mxNop else none) ∧
    (op = 1#3 → accepted (decodeMxHalf w) = if w.extractLsb' 0 7 = 0#7 then some (.mxReleaseShort (w.extractLsb' 7 5)) else none) ∧
    (op = 2#3 → accepted (decodeMxHalf w) = some (.mxMark (w.extractLsb' 0 12))) ∧
    (op = 3#3 → accepted (decodeMxHalf w) = if w.extractLsb' 0 8 = 0#8 then some (.mxGate (w.extractLsb' 8 4)) else none) ∧
    (4#3 ≤ op → accepted (decodeMxHalf w) = none)) ∧
  (∀ w : BitVec 16, w.extractLsb' 15 1 = 1#1 → accepted (decodeMxHalf w) = none) ∧
  (∀ (s u : State) (m : MxAt) (n : BitVec 12), s.inMx m u →
    ((u.my.mxq.any fun e => decide (e.id < m.e.id)) = true → exec (.mxMark n) s = .next u) ∧
    ((u.my.mxq.any fun e => decide (e.id < m.e.id)) = false →
      exec (.mxMark n) s = .next ((if u.sootOn u.cur then u.sootRecord (sootDw0 5 Agent.mx.code u.cur m.e.qpos) n.toNat
        (u.launchNo u.cur * 2 ^ 32) else u).mxNext m)))

end
end

