-- ==== Sys2Proof/Laws/Fields.lean ====
section
/-! SUPPORT. The fields of a word that is written out from its fields (07_encoding.md R115, R126, R133). -/
namespace Sys2Proof

set_option Elab.async false

theorem toNat_append {n m : Nat} (x : BitVec n) (y : BitVec m) : (x ++ y).toNat = x.toNat * 2 ^ m + y.toNat := by
  rw [BitVec.toNat_append, ← Nat.shiftLeft_add_eq_or_of_lt y.isLt, Nat.shiftLeft_eq]

/-- A field that lies in the lower part. -/
theorem extract_lower {n m : Nat} (x : BitVec n) (y : BitVec m) (s k : Nat) (h : s + k ≤ m) :
    BitVec.extractLsb' s k (@HAppend.hAppend (BitVec n) (BitVec m) (BitVec (no_index (n + m))) _ x y) = y.extractLsb' s k := by
  apply BitVec.eq_of_getLsbD_eq
  intro i hi
  simp only [BitVec.getLsbD_extractLsb', hi, decide_true, Bool.true_and]
  rw [BitVec.getLsbD_append, if_pos (by omega)]

/-- A field that lies in the upper part. -/
theorem extract_upper {n m : Nat} (x : BitVec n) (y : BitVec m) (s k : Nat) (h : m ≤ s) :
    BitVec.extractLsb' s k (@HAppend.hAppend (BitVec n) (BitVec m) (BitVec (no_index (n + m))) _ x y) = x.extractLsb' (s - m) k := by
  apply BitVec.eq_of_getLsbD_eq
  intro i hi
  simp only [BitVec.getLsbD_extractLsb', hi, decide_true, Bool.true_and]
  rw [BitVec.getLsbD_append, if_neg (by omega)]
  congr 1
  omega

/-- A field that is the lower part and part of the upper one. -/
theorem extract_join {n m : Nat} (x : BitVec n) (y : BitVec m) (k : Nat) :
    (x ++ y).extractLsb' 0 (k + m) = x.extractLsb' 0 k ++ y := by
  apply BitVec.eq_of_getLsbD_eq
  intro i hi
  simp only [BitVec.getLsbD_extractLsb', hi, decide_true, Bool.true_and, Nat.zero_add]
  rw [BitVec.getLsbD_append, BitVec.getLsbD_append]
  split
  · rfl
  · simp only [BitVec.getLsbD_extractLsb', Nat.zero_add]
    have : i - m < k := by omega
    simp [this]

@[simp] theorem fOp_rtype (f7 : BitVec 7) (b a : Reg) (f3 : BitVec 3) (d : Reg) (op : BitVec 7) :
    fOp (rtype f7 b a f3 d op) = op := by
  simp (disch := decide) [fOp, rtype, extract_lower]

@[simp] theorem fRd_rtype (f7 : BitVec 7) (b a : Reg) (f3 : BitVec 3) (d : Reg) (op : BitVec 7) :
    fRd (rtype f7 b a f3 d op) = d := by
  simp (disch := decide) [fRd, rtype, extract_lower, extract_upper]

@[simp] theorem fF3_rtype (f7 : BitVec 7) (b a : Reg) (f3 : BitVec 3) (d : Reg) (op : BitVec 7) :
    fF3 (rtype f7 b a f3 d op) = f3 := by
  simp (disch := decide) [fF3, rtype, extract_lower, extract_upper]

@[simp] theorem fRs1_rtype (f7 : BitVec 7) (b a : Reg) (f3 : BitVec 3) (d : Reg) (op : BitVec 7) :
    fRs1 (rtype f7 b a f3 d op) = a := by
  simp (disch := decide) [fRs1, rtype, extract_lower, extract_upper]

@[simp] theorem fRs2_rtype (f7 : BitVec 7) (b a : Reg) (f3 : BitVec 3) (d : Reg) (op : BitVec 7) :
    fRs2 (rtype f7 b a f3 d op) = b := by
  simp (disch := decide) [fRs2, rtype, extract_lower, extract_upper]

@[simp] theorem fF7_rtype (f7 : BitVec 7) (b a : Reg) (f3 : BitVec 3) (d : Reg) (op : BitVec 7) :
    fF7 (rtype f7 b a f3 d op) = f7 := by
  simp (disch := decide) [fF7, rtype, extract_upper]

/-- An I-type word (RISC-V). -/
def itype (imm : BitVec 12) (a : Reg) (f3 : BitVec 3) (d : Reg) (op : BitVec 7) : BitVec 32 := imm ++ a ++ f3 ++ d ++ op

section
variable (imm : BitVec 12) (a : Reg) (f3 : BitVec 3) (d : Reg) (op : BitVec 7)

@[simp] theorem fOp_itype : fOp (itype imm a f3 d op) = op := by
  simp (disch := decide) [fOp, itype, extract_lower]

@[simp] theorem fRd_itype : fRd (itype imm a f3 d op) = d := by
  simp (disch := decide) [fRd, itype, extract_lower, extract_upper]

@[simp] theorem fF3_itype : fF3 (itype imm a f3 d op) = f3 := by
  simp (disch := decide) [fF3, itype, extract_lower, extract_upper]

@[simp] theorem fRs1_itype : fRs1 (itype imm a f3 d op) = a := by
  simp (disch := decide) [fRs1, itype, extract_lower, extract_upper]

@[simp] theorem fImmI_itype : fImmI (itype imm a f3 d op) = imm := by
  simp (disch := decide) [fImmI, itype, extract_upper]
end

/-- The two halves of a split immediate. -/
theorem split_append (imm : BitVec 12) : imm.extractLsb' 5 7 ++ imm.extractLsb' 0 5 = imm := by
  apply BitVec.eq_of_toNat_eq
  rw [toNat_append, BitVec.extractLsb'_toNat, BitVec.extractLsb'_toNat, Nat.shiftRight_eq_div_pow]
  omega

section
variable (f7 : BitVec 7) (b a : Reg) (f3 : BitVec 3) (d : Reg) (op : BitVec 7)

theorem rtype_f5 : (rtype f7 b a f3 d op).extractLsb' 27 5 = f7.extractLsb' 2 5 := by
  simp (disch := decide) [rtype, extract_upper]

theorem rtype_bit26 : (rtype f7 b a f3 d op).extractLsb' 26 1 = f7.extractLsb' 1 1 := by
  simp (disch := decide) [rtype, extract_upper]

theorem rtype_bit25 : (rtype f7 b a f3 d op).extractLsb' 25 1 = f7.extractLsb' 0 1 := by
  simp (disch := decide) [rtype, extract_upper]
end

/-! ### The decoder of each opcode -/

theorem decodeStoker_load {w : BitVec 32} (h : fOp w = 0x03#7) : decodeStoker w = decodeLoad false w := by
  simp [decodeStoker, h]

theorem decodeStoker_loadFp {w : BitVec 32} (h : fOp w = 0x07#7) : decodeStoker w = decodeLoad true w := by
  simp [decodeStoker, h]

theorem decodeStoker_store {w : BitVec 32} (h : fOp w = 0x23#7) : decodeStoker w = decodeStore false w := by
  simp [decodeStoker, h]

theorem decodeStoker_storeFp {w : BitVec 32} (h : fOp w = 0x27#7) : decodeStoker w = decodeStore true w := by
  simp [decodeStoker, h]

theorem decodeStoker_miscMem {w : BitVec 32} (h : fOp w = 0x0F#7) : decodeStoker w = decodeMiscMem w := by
  simp [decodeStoker, h]

theorem decodeStoker_opImm {w : BitVec 32} (h : fOp w = 0x13#7) : decodeStoker w = decodeOpImm false w := by
  simp [decodeStoker, h]

theorem decodeStoker_opImm32 {w : BitVec 32} (h : fOp w = 0x1B#7) : decodeStoker w = decodeOpImm true w := by
  simp [decodeStoker, h]

theorem decodeStoker_op {w : BitVec 32} (h : fOp w = 0x33#7) : decodeStoker w = decodeOp false w := by
  simp [decodeStoker, h]

theorem decodeStoker_op32 {w : BitVec 32} (h : fOp w = 0x3B#7) : decodeStoker w = decodeOp true w := by
  simp [decodeStoker, h]

theorem decodeStoker_amo {w : BitVec 32} (h : fOp w = 0x2F#7) : decodeStoker w = decodeAmo w := by
  simp [decodeStoker, h]

theorem decodeStoker_system {w : BitVec 32} (h : fOp w = 0x73#7) : decodeStoker w = decodeSystem w := by
  simp [decodeStoker, h]

/-- The decoder of a CSR word. -/
theorem decodeSystem_csr (op : CsrOp) (uimm : Bool) (d a : Reg) (csr : BitVec 12) :
    decodeSystem (itype csr a (csrFunct3 op uimm) d 0x73#7) = .ok (csrInstr op uimm d a csr) := by
  cases op <;> cases uimm <;> simp [decodeSystem, csrFunct3]

theorem decodeStoker_fp {w : BitVec 32} (h : fOp w = 0x53#7) : decodeStoker w = decodeFp w := by
  simp [decodeStoker, h]

theorem decodeStoker_branch {w : BitVec 32} (h : fOp w = 0x63#7) : decodeStoker w = decodeBranch w := by
  simp [decodeStoker, h]

/-! ### VX words -/

/-- A long VX word is decoded from its fields. -/
theorem decodeVxFull_vlong (e : BitVec 1) (d s : BitVec 6) (r : BitVec 2) (g i : BitVec 4) (o : BitVec 8) :
    decodeVxFull (vlong e d s r g i o) =
      if !portsOk d s then .error .reservedPort
      else if d.toNat = 9 || d.toNat = 12 then decodeVa e d s r g i (o.extractLsb' 5 3) (o.extractLsb' 0 5)
      else if portTriggers d then decodeTrigger e d s r g i (o.extractLsb' 5 3) (o.extractLsb' 0 5)
      else if o = 0#8 then checked .illegalWord (.vxMoveLong e d s r g i o)
      else if d = 63#6 && s = 50#6 && e = 1#1 && o.extractLsb' 3 5 = 2#5 then
        checked .illegalWord (.vxRfcl r g i (o.extractLsb' 0 3))
      else .error .illegalWord := by
  simp (disch := decide) [decodeVxFull, vlong, extract_lower, extract_upper]

/-- A trigger of a port other than va. -/
theorem decodeVxFull_trigger (e : BitVec 1) {d s : BitVec 6} (r : BitVec 2) (g i : BitVec 4) (o : BitVec 8)
    (hd : portTriggers d = true) (h9 : vaPort d = false) (hs : portReads s = true) :
    decodeVxFull (vlong e d s r g i o) = decodeTrigger e d s r g i (o.extractLsb' 5 3) (o.extractLsb' 0 5) := by
  have hw : portsOk d s = true := by simp [portsOk, portWrites, hd, hs]
  have h9' : ¬(d.toNat = 9 ∨ d.toNat = 12) := by simpa [vaPort] using h9
  simp [decodeVxFull_vlong, hw, h9', hd]

/-- A trigger of va. -/
theorem decodeVxFull_va (e : BitVec 1) {d s : BitVec 6} (r : BitVec 2) (g i : BitVec 4) (o : BitVec 8)
    (hd : vaPort d = true) (hs : portReads s = true) :
    decodeVxFull (vlong e d s r g i o) = decodeVa e d s r g i (o.extractLsb' 5 3) (o.extractLsb' 0 5) := by
  have h9 : d.toNat = 9 ∨ d.toNat = 12 := by simpa [vaPort] using hd
  have hw : portsOk d s = true := by
    rcases h9 with h | h <;> simp [portsOk, portWrites, portTriggers, h, hs]
  simp [decodeVxFull_vlong, hw, h9]

@[simp] theorem opByte_type (t : BitVec 3) (hi : BitVec 2) (m : BitVec 3) : (opByte t hi m).extractLsb' 5 3 = t := by
  simp (disch := decide) [opByte, extract_upper]

@[simp] theorem opByte_low (t : BitVec 3) (hi : BitVec 2) (m : BitVec 3) : (opByte t hi m).extractLsb' 0 5 = hi ++ m := by
  rw [opByte, BitVec.append_assoc]
  simp (disch := decide) [extract_lower]

end Sys2Proof
end

