-- ==== Sys2Proof/Laws/Tables.lean ====
section
/-! SUPPORT. The laws of sparse tables and of byte memories: what a read after a write gives, and that every operation on
memory keeps its canonical form. -/
namespace Sys2Proof.Machine

set_option Elab.async false

section
variable {α : Type}

/-! ### Reading after writing -/

theorem Tbl.get_del_ne (d : α) {n m : Nat} (h : m ≠ n) : ∀ t : Tbl α, Tbl.get d (t.del n) m = Tbl.get d t m
  | [] => rfl
  | (k, v) :: t => by
    have ih := Tbl.get_del_ne d h t
    by_cases hk : k = n
    · subst hk
      have : Tbl.del ((k, v) :: t) k = Tbl.del t k := by simp [Tbl.del]
      rw [this, ih, Tbl.get, if_neg h]
    · have : Tbl.del ((k, v) :: t) n = (k, v) :: Tbl.del t n := by simp [Tbl.del, hk]
      rw [this, Tbl.get, Tbl.get, ih]

theorem Tbl.get_del (d : α) (n : Nat) : ∀ t : Tbl α, Tbl.get d (t.del n) n = d
  | [] => rfl
  | (k, v) :: t => by
    have ih := Tbl.get_del d n t
    by_cases hk : k = n
    · have : Tbl.del ((k, v) :: t) n = Tbl.del t n := by simp [Tbl.del, hk]
      rw [this, ih]
    · have : Tbl.del ((k, v) :: t) n = (k, v) :: Tbl.del t n := by simp [Tbl.del, hk]
      rw [this, Tbl.get, if_neg (Ne.symm hk), ih]

theorem Tbl.get_ins_ne (d : α) {n m : Nat} (v : α) (h : m ≠ n) : ∀ t : Tbl α, Tbl.get d (t.ins n v) m = Tbl.get d t m
  | [] => by simp [Tbl.ins, Tbl.get, h]
  | (k, w) :: t => by
    have ih := Tbl.get_ins_ne d v h t
    unfold Tbl.ins
    split
    · simp [Tbl.get, h]
    · simp [Tbl.get, ih]

theorem Tbl.get_ins (d : α) (n : Nat) (v : α) : ∀ t : Tbl α, (∀ e ∈ t, e.1 ≠ n) → Tbl.get d (t.ins n v) n = v
  | [], _ => by simp [Tbl.ins, Tbl.get]
  | (k, w) :: t, h => by
    have hk : n ≠ k := fun e => h (k, w) (by simp) e.symm
    have ih := Tbl.get_ins d n v t fun e he => h e (by simp [he])
    unfold Tbl.ins
    split
    · simp [Tbl.get]
    · simp [Tbl.get, hk, ih]

theorem Tbl.del_mem {t : Tbl α} {n : Nat} {e : Nat × α} (h : e ∈ t.del n) : e.1 ≠ n := by
  simp [Tbl.del] at h
  exact h.2

@[simp] theorem Tbl.get_set (d : α) (t : Tbl α) (n m : Nat) (v : α) :
    Tbl.get d (t.set n v) m = if m = n then v else Tbl.get d t m := by
  unfold Tbl.set
  split
  · rename_i h
    subst h
    exact Tbl.get_ins d m v _ fun e he => Tbl.del_mem he
  · rename_i h
    rw [Tbl.get_ins_ne d v h, Tbl.get_del_ne d h]

/-- A read after a write to the same key gives the value written, and the other keys read as before. -/
@[simp] theorem Tbl.get_put [DecidableEq α] (d : α) (t : Tbl α) (n m : Nat) (v : α) :
    Tbl.get d (Tbl.put d t n v) m = if m = n then v else Tbl.get d t m := by
  unfold Tbl.put
  split
  · rename_i hv
    split
    · rename_i h
      subst h
      rw [Tbl.get_del, hv]
    · rename_i h
      rw [Tbl.get_del_ne d h]
  · exact Tbl.get_set d t n m v

/-! ### Writing twice -/

theorem Tbl.del_del (t : Tbl α) (n : Nat) : (t.del n).del n = t.del n := by
  simp [Tbl.del, List.filter_filter]

theorem Tbl.del_ins (n : Nat) (v : α) : ∀ t : Tbl α, (t.ins n v).del n = t.del n
  | [] => by simp [Tbl.ins, Tbl.del]
  | (k, w) :: t => by
    have ih := Tbl.del_ins n v t
    unfold Tbl.ins
    split
    · simp [Tbl.del]
    · simp only [Tbl.del] at ih ⊢
      simp only [List.filter_cons, ih]

theorem Tbl.del_set (t : Tbl α) (n : Nat) (v : α) : (t.set n v).del n = t.del n := by
  rw [Tbl.set, Tbl.del_ins, Tbl.del_del]

theorem Tbl.del_put [DecidableEq α] (d : α) (t : Tbl α) (n : Nat) (v : α) : (Tbl.put d t n v).del n = t.del n := by
  unfold Tbl.put
  split
  · exact Tbl.del_del t n
  · exact Tbl.del_set t n v

/-- The later of two writes to a key stands. -/
@[simp] theorem Tbl.put_put [DecidableEq α] (d : α) (t : Tbl α) (n : Nat) (v w : α) :
    Tbl.put d (Tbl.put d t n v) n w = Tbl.put d t n w := by
  rw [Tbl.put, Tbl.del_put, Tbl.set, Tbl.del_put, Tbl.put, Tbl.set]

@[simp] theorem Tbl.set_set (t : Tbl α) (n : Nat) (v w : α) : (t.set n v).set n w = t.set n w := by
  rw [Tbl.set, Tbl.del_set, Tbl.set]

/-! ### The entry at a key -/

theorem Tbl.get?_del_ne {n m : Nat} (h : m ≠ n) : ∀ t : Tbl α, Tbl.get? (t.del n) m = Tbl.get? t m
  | [] => rfl
  | (k, v) :: t => by
    have ih := Tbl.get?_del_ne h t
    by_cases hk : k = n
    · have : Tbl.del ((k, v) :: t) n = Tbl.del t n := by simp [Tbl.del, hk]
      rw [this, ih]
      have hkm : k ≠ m := fun e => h (e ▸ hk)
      simp [Tbl.get?, hkm]
    · have : Tbl.del ((k, v) :: t) n = (k, v) :: Tbl.del t n := by simp [Tbl.del, hk]
      rw [this]
      by_cases hm : k = m
      · simp [Tbl.get?, hm]
      · simpa [Tbl.get?, hm] using ih

theorem Tbl.get?_ins_ne {n m : Nat} (v : α) (h : m ≠ n) : ∀ t : Tbl α, Tbl.get? (t.ins n v) m = Tbl.get? t m
  | [] => by simp [Tbl.ins, Tbl.get?, Ne.symm h]
  | (k, w) :: t => by
    have ih := Tbl.get?_ins_ne v h t
    unfold Tbl.ins
    split
    · simp [Tbl.get?, Ne.symm h]
    · by_cases hm : k = m
      · simp [Tbl.get?, hm]
      · simpa [Tbl.get?, hm] using ih

theorem Tbl.get?_ins (n : Nat) (v : α) : ∀ t : Tbl α, (∀ e ∈ t, e.1 ≠ n) → Tbl.get? (t.ins n v) n = some v
  | [], _ => by simp [Tbl.ins, Tbl.get?]
  | (k, w) :: t, h => by
    have hk : k ≠ n := h (k, w) (by simp)
    have ih := Tbl.get?_ins n v t fun e he => h e (by simp [he])
    unfold Tbl.ins
    split
    · simp [Tbl.get?]
    · simpa [Tbl.get?, hk] using ih

@[simp] theorem Tbl.get?_set (t : Tbl α) (n m : Nat) (v : α) :
    Tbl.get? (t.set n v) m = if m = n then some v else Tbl.get? t m := by
  unfold Tbl.set
  split
  · rename_i h
    subst h
    exact Tbl.get?_ins m v _ fun e he => Tbl.del_mem he
  · rename_i h
    rw [Tbl.get?_ins_ne v h, Tbl.get?_del_ne h]

/-! ### The canonical form -/

variable [DecidableEq α]

theorem Tbl.wfFrom_cons {d : α} {lo k : Nat} {v : α} {t : Tbl α} :
    Tbl.wfFrom d lo ((k, v) :: t) = true ↔ lo ≤ k ∧ v ≠ d ∧ Tbl.wfFrom d (k + 1) t = true := by
  simp [Tbl.wfFrom, and_assoc]

theorem Tbl.wfFrom_mono {d : α} {lo lo' : Nat} (h : lo' ≤ lo) : ∀ {t : Tbl α}, Tbl.wfFrom d lo t = true → Tbl.wfFrom d lo' t = true
  | [], _ => rfl
  | (k, v) :: t, hw => by
    rw [Tbl.wfFrom_cons] at hw ⊢
    exact ⟨Nat.le_trans h hw.1, hw.2⟩

theorem Tbl.wfFrom_filter {d : α} (p : Nat × α → Bool) :
    ∀ {t : Tbl α} {lo : Nat}, Tbl.wfFrom d lo t = true → Tbl.wfFrom d lo (t.filter p) = true
  | [], _, _ => rfl
  | (k, v) :: t, lo, hw => by
    rw [Tbl.wfFrom_cons] at hw
    have ih := Tbl.wfFrom_filter p hw.2.2
    rw [List.filter_cons]
    split
    · exact Tbl.wfFrom_cons.2 ⟨hw.1, hw.2.1, ih⟩
    · exact Tbl.wfFrom_mono (by omega) ih

theorem Tbl.wfFrom_del {d : α} {t : Tbl α} {lo : Nat} (n : Nat) (h : Tbl.wfFrom d lo t = true) :
    Tbl.wfFrom d lo (t.del n) = true := Tbl.wfFrom_filter _ h

theorem Tbl.wfFrom_ins {d : α} {n : Nat} {v : α} (hv : v ≠ d) :
    ∀ {t : Tbl α} {lo : Nat}, Tbl.wfFrom d lo t = true → lo ≤ n → (∀ e ∈ t, e.1 ≠ n) → Tbl.wfFrom d lo (t.ins n v) = true
  | [], lo, _, hn, _ => by simp [Tbl.ins, Tbl.wfFrom, hn, hv]
  | (k, w) :: t, lo, hw, hn, hne => by
    have hk : k ≠ n := hne (k, w) (by simp)
    unfold Tbl.ins
    rw [Tbl.wfFrom_cons] at hw
    split
    · rename_i hlt
      exact Tbl.wfFrom_cons.2 ⟨hn, hv, Tbl.wfFrom_cons.2 ⟨hlt, hw.2⟩⟩
    · exact Tbl.wfFrom_cons.2 ⟨hw.1, hw.2.1, Tbl.wfFrom_ins hv hw.2.2 (by omega) fun e he => hne e (by simp [he])⟩

theorem Tbl.wfFrom_put {d : α} {t : Tbl α} (n : Nat) (v : α) (h : Tbl.wfFrom d 0 t = true) :
    Tbl.wfFrom d 0 (Tbl.put d t n v) = true := by
  unfold Tbl.put
  split
  · exact Tbl.wfFrom_del n h
  · rename_i hv
    exact Tbl.wfFrom_ins hv (Tbl.wfFrom_del n h) (Nat.zero_le n) fun e he => Tbl.del_mem he

end

/-! ### Memory -/

/-- A write keeps the canonical form. -/
theorem Memory.wf_write {m : Memory} (a : Nat) (b : Byte) (h : m.wf = true) : (m.write a b).wf = true :=
  Tbl.wfFrom_put a b h

theorem Memory.wf_writeN : ∀ {m : Memory} (a : Nat) (bs : List Byte), m.wf = true → (m.writeN a bs).wf = true
  | _, _, [], h => h
  | _, a, b :: bs, h => Memory.wf_writeN (a + 1) bs (Memory.wf_write a b h)

theorem Memory.wf_writeAll : ∀ {m : Memory} (t : Memory), m.wf = true → (m.writeAll t).wf = true
  | _, [], h => h
  | _, (a, b) :: t, h => Memory.wf_writeAll t (Memory.wf_write a b h)

theorem Memory.wf_filter {m : Memory} (p : Host.Cell → Bool) (h : m.wf = true) : Memory.wf (m.filter p) = true :=
  Tbl.wfFrom_filter p h

/-- A read after a write of one byte. -/
theorem Memory.read_write (m : Memory) (a c : Nat) (b : Byte) : (m.write a b).read c = if c = a then b else m.read c := by
  simp [Memory.read, Memory.write]

/-- A read after a store of bytes: the byte stored there, or what stood there. -/
theorem Memory.read_writeN : ∀ (bs : List Byte) (m : Memory) (a c : Nat),
    (m.writeN a bs).read c = if a ≤ c then (bs[c - a]?).getD (m.read c) else m.read c
  | [], m, a, c => by simp [Memory.writeN]
  | b :: bs, m, a, c => by
    rw [Memory.writeN, Memory.read_writeN bs, Memory.read_write]
    by_cases h1 : a ≤ c
    · by_cases h2 : c = a
      · subst h2
        have h3 : ¬(c + 1 ≤ c) := by omega
        simp [h3]
      · have h3 : a + 1 ≤ c := by omega
        have h4 : c - a = (c - (a + 1)) + 1 := by omega
        simp [h1, h2, h3, h4]
    · have h2 : ¬(a + 1 ≤ c) := by omega
      have h3 : c ≠ a := by omega
      simp [h1, h2, h3]

/-- The bytes outside a store read as before. -/
theorem Memory.read_writeN_outside (bs : List Byte) (m : Memory) {a c : Nat} (h : c < a ∨ a + bs.length ≤ c) :
    (m.writeN a bs).read c = m.read c := by
  rw [Memory.read_writeN]
  split
  · have : bs.length ≤ c - a := by omega
    rw [List.getElem?_eq_none this]
    rfl
  · rfl

@[simp] theorem leBytes_length : ∀ n v, (leBytes n v).length = n
  | 0, _ => rfl
  | n + 1, v => by simp [leBytes, leBytes_length n]

theorem leNat_leBytes : ∀ n v, leNat (leBytes n v) = v % 256 ^ n
  | 0, v => by simp [leBytes, leNat, Nat.mod_one]
  | n + 1, v => by
    rw [leBytes, leNat, leNat_leBytes n, BitVec.toNat_ofNat, show 256 ^ (n + 1) = 256 * 256 ^ n from Nat.pow_succ',
      Nat.mod_mul]

end Sys2Proof.Machine
end

