-- ==== Sys2Proof/Laws/State.lean ====
section
/-! SUPPORT. One lemma for each field of State and each update of a part of it, and what a part reads after its own update
and after another's. -/
namespace Sys2Proof.Machine

set_option Elab.async false

section
variable (s : State)


/-! #### State.setCore -/

@[simp] theorem State.setCore_mem (c : Nat) (k : Core) : (s.setCore c k).mem = s.mem := rfl
@[simp] theorem State.setCore_hmem (c : Nat) (k : Core) : (s.setCore c k).hmem = s.hmem := rfl
@[simp] theorem State.setCore_bad (c : Nat) (k : Core) : (s.setCore c k).bad = s.bad := rfl
@[simp] theorem State.setCore_pend (c : Nat) (k : Core) : (s.setCore c k).pend = s.pend := rfl
@[simp] theorem State.setCore_nextId (c : Nat) (k : Core) : (s.setCore c k).nextId = s.nextId := rfl
@[simp] theorem State.setCore_tlb (c : Nat) (k : Core) : (s.setCore c k).tlb = s.tlb := rfl
@[simp] theorem State.setCore_parts (c : Nat) (k : Core) : (s.setCore c k).parts = s.parts := rfl
@[simp] theorem State.setCore_kernels (c : Nat) (k : Core) : (s.setCore c k).kernels = s.kernels := rfl
@[simp] theorem State.setCore_launches (c : Nat) (k : Core) : (s.setCore c k).launches = s.launches := rfl
@[simp] theorem State.setCore_teams (c : Nat) (k : Core) : (s.setCore c k).teams = s.teams := rfl
@[simp] theorem State.setCore_images (c : Nat) (k : Core) : (s.setCore c k).images = s.images := rfl
@[simp] theorem State.setCore_links (c : Nat) (k : Core) : (s.setCore c k).links = s.links := rfl
@[simp] theorem State.setCore_cache (c : Nat) (k : Core) : (s.setCore c k).cache = s.cache := rfl
@[simp] theorem State.setCore_damper (c : Nat) (k : Core) : (s.setCore c k).damper = s.damper := rfl
@[simp] theorem State.setCore_islands (c : Nat) (k : Core) : (s.setCore c k).islands = s.islands := rfl
@[simp] theorem State.setCore_err (c : Nat) (k : Core) : (s.setCore c k).err = s.err := rfl
@[simp] theorem State.setCore_soot (c : Nat) (k : Core) : (s.setCore c k).soot = s.soot := rfl
@[simp] theorem State.setCore_chimney (c : Nat) (k : Core) : (s.setCore c k).chimney = s.chimney := rfl
@[simp] theorem State.setCore_fw (c : Nat) (k : Core) : (s.setCore c k).fw = s.fw := rfl
@[simp] theorem State.setCore_tdis (c : Nat) (k : Core) : (s.setCore c k).tdis = s.tdis := rfl
@[simp] theorem State.setCore_requests (c : Nat) (k : Core) : (s.setCore c k).requests = s.requests := rfl
@[simp] theorem State.setCore_handles (c : Nat) (k : Core) : (s.setCore c k).handles = s.handles := rfl
@[simp] theorem State.setCore_sent (c : Nat) (k : Core) : (s.setCore c k).sent = s.sent := rfl
@[simp] theorem State.setCore_hdm (c : Nat) (k : Core) : (s.setCore c k).hdm = s.hdm := rfl
@[simp] theorem State.setCore_lent (c : Nat) (k : Core) : (s.setCore c k).lent = s.lent := rfl
@[simp] theorem State.setCore_msix (c : Nat) (k : Core) : (s.setCore c k).msix = s.msix := rfl
@[simp] theorem State.setCore_hostUp (c : Nat) (k : Core) : (s.setCore c k).hostUp = s.hostUp := rfl
@[simp] theorem State.setCore_hostRead (c : Nat) (k : Core) : (s.setCore c k).hostRead = s.hostRead := rfl
@[simp] theorem State.setCore_ideDropped (c : Nat) (k : Core) : (s.setCore c k).ideDropped = s.ideDropped := rfl
@[simp] theorem State.setCore_up (c : Nat) (k : Core) : (s.setCore c k).up = s.up := rfl
@[simp] theorem State.setCore_ec (c : Nat) (k : Core) : (s.setCore c k).ec = s.ec := rfl
@[simp] theorem State.setCore_time (c : Nat) (k : Core) : (s.setCore c k).time = s.time := rfl
@[simp] theorem State.setCore_stamp (c : Nat) (k : Core) : (s.setCore c k).stamp = s.stamp := rfl
@[simp] theorem State.setCore_plan (c : Nat) (k : Core) : (s.setCore c k).plan = s.plan := rfl
@[simp] theorem State.setCore_cur (c : Nat) (k : Core) : (s.setCore c k).cur = s.cur := rfl
@[simp] theorem State.setCore_free (c : Nat) (k : Core) : (s.setCore c k).free = s.free := rfl

/-! #### State.modCore -/

@[simp] theorem State.modCore_mem (c : Nat) (f : Core → Core) : (s.modCore c f).mem = s.mem := rfl
@[simp] theorem State.modCore_hmem (c : Nat) (f : Core → Core) : (s.modCore c f).hmem = s.hmem := rfl
@[simp] theorem State.modCore_bad (c : Nat) (f : Core → Core) : (s.modCore c f).bad = s.bad := rfl
@[simp] theorem State.modCore_pend (c : Nat) (f : Core → Core) : (s.modCore c f).pend = s.pend := rfl
@[simp] theorem State.modCore_nextId (c : Nat) (f : Core → Core) : (s.modCore c f).nextId = s.nextId := rfl
@[simp] theorem State.modCore_tlb (c : Nat) (f : Core → Core) : (s.modCore c f).tlb = s.tlb := rfl
@[simp] theorem State.modCore_parts (c : Nat) (f : Core → Core) : (s.modCore c f).parts = s.parts := rfl
@[simp] theorem State.modCore_kernels (c : Nat) (f : Core → Core) : (s.modCore c f).kernels = s.kernels := rfl
@[simp] theorem State.modCore_launches (c : Nat) (f : Core → Core) : (s.modCore c f).launches = s.launches := rfl
@[simp] theorem State.modCore_teams (c : Nat) (f : Core → Core) : (s.modCore c f).teams = s.teams := rfl
@[simp] theorem State.modCore_images (c : Nat) (f : Core → Core) : (s.modCore c f).images = s.images := rfl
@[simp] theorem State.modCore_links (c : Nat) (f : Core → Core) : (s.modCore c f).links = s.links := rfl
@[simp] theorem State.modCore_cache (c : Nat) (f : Core → Core) : (s.modCore c f).cache = s.cache := rfl
@[simp] theorem State.modCore_damper (c : Nat) (f : Core → Core) : (s.modCore c f).damper = s.damper := rfl
@[simp] theorem State.modCore_islands (c : Nat) (f : Core → Core) : (s.modCore c f).islands = s.islands := rfl
@[simp] theorem State.modCore_err (c : Nat) (f : Core → Core) : (s.modCore c f).err = s.err := rfl
@[simp] theorem State.modCore_soot (c : Nat) (f : Core → Core) : (s.modCore c f).soot = s.soot := rfl
@[simp] theorem State.modCore_chimney (c : Nat) (f : Core → Core) : (s.modCore c f).chimney = s.chimney := rfl
@[simp] theorem State.modCore_fw (c : Nat) (f : Core → Core) : (s.modCore c f).fw = s.fw := rfl
@[simp] theorem State.modCore_tdis (c : Nat) (f : Core → Core) : (s.modCore c f).tdis = s.tdis := rfl
@[simp] theorem State.modCore_requests (c : Nat) (f : Core → Core) : (s.modCore c f).requests = s.requests := rfl
@[simp] theorem State.modCore_handles (c : Nat) (f : Core → Core) : (s.modCore c f).handles = s.handles := rfl
@[simp] theorem State.modCore_sent (c : Nat) (f : Core → Core) : (s.modCore c f).sent = s.sent := rfl
@[simp] theorem State.modCore_hdm (c : Nat) (f : Core → Core) : (s.modCore c f).hdm = s.hdm := rfl
@[simp] theorem State.modCore_lent (c : Nat) (f : Core → Core) : (s.modCore c f).lent = s.lent := rfl
@[simp] theorem State.modCore_msix (c : Nat) (f : Core → Core) : (s.modCore c f).msix = s.msix := rfl
@[simp] theorem State.modCore_hostUp (c : Nat) (f : Core → Core) : (s.modCore c f).hostUp = s.hostUp := rfl
@[simp] theorem State.modCore_hostRead (c : Nat) (f : Core → Core) : (s.modCore c f).hostRead = s.hostRead := rfl
@[simp] theorem State.modCore_ideDropped (c : Nat) (f : Core → Core) : (s.modCore c f).ideDropped = s.ideDropped := rfl
@[simp] theorem State.modCore_up (c : Nat) (f : Core → Core) : (s.modCore c f).up = s.up := rfl
@[simp] theorem State.modCore_ec (c : Nat) (f : Core → Core) : (s.modCore c f).ec = s.ec := rfl
@[simp] theorem State.modCore_time (c : Nat) (f : Core → Core) : (s.modCore c f).time = s.time := rfl
@[simp] theorem State.modCore_stamp (c : Nat) (f : Core → Core) : (s.modCore c f).stamp = s.stamp := rfl
@[simp] theorem State.modCore_plan (c : Nat) (f : Core → Core) : (s.modCore c f).plan = s.plan := rfl
@[simp] theorem State.modCore_cur (c : Nat) (f : Core → Core) : (s.modCore c f).cur = s.cur := rfl
@[simp] theorem State.modCore_free (c : Nat) (f : Core → Core) : (s.modCore c f).free = s.free := rfl

/-! #### State.modCtx -/

@[simp] theorem State.modCtx_mem (c : Nat) (f : Ctx → Ctx) : (s.modCtx c f).mem = s.mem := rfl
@[simp] theorem State.modCtx_hmem (c : Nat) (f : Ctx → Ctx) : (s.modCtx c f).hmem = s.hmem := rfl
@[simp] theorem State.modCtx_bad (c : Nat) (f : Ctx → Ctx) : (s.modCtx c f).bad = s.bad := rfl
@[simp] theorem State.modCtx_pend (c : Nat) (f : Ctx → Ctx) : (s.modCtx c f).pend = s.pend := rfl
@[simp] theorem State.modCtx_nextId (c : Nat) (f : Ctx → Ctx) : (s.modCtx c f).nextId = s.nextId := rfl
@[simp] theorem State.modCtx_tlb (c : Nat) (f : Ctx → Ctx) : (s.modCtx c f).tlb = s.tlb := rfl
@[simp] theorem State.modCtx_parts (c : Nat) (f : Ctx → Ctx) : (s.modCtx c f).parts = s.parts := rfl
@[simp] theorem State.modCtx_kernels (c : Nat) (f : Ctx → Ctx) : (s.modCtx c f).kernels = s.kernels := rfl
@[simp] theorem State.modCtx_launches (c : Nat) (f : Ctx → Ctx) : (s.modCtx c f).launches = s.launches := rfl
@[simp] theorem State.modCtx_teams (c : Nat) (f : Ctx → Ctx) : (s.modCtx c f).teams = s.teams := rfl
@[simp] theorem State.modCtx_images (c : Nat) (f : Ctx → Ctx) : (s.modCtx c f).images = s.images := rfl
@[simp] theorem State.modCtx_links (c : Nat) (f : Ctx → Ctx) : (s.modCtx c f).links = s.links := rfl
@[simp] theorem State.modCtx_cache (c : Nat) (f : Ctx → Ctx) : (s.modCtx c f).cache = s.cache := rfl
@[simp] theorem State.modCtx_damper (c : Nat) (f : Ctx → Ctx) : (s.modCtx c f).damper = s.damper := rfl
@[simp] theorem State.modCtx_islands (c : Nat) (f : Ctx → Ctx) : (s.modCtx c f).islands = s.islands := rfl
@[simp] theorem State.modCtx_err (c : Nat) (f : Ctx → Ctx) : (s.modCtx c f).err = s.err := rfl
@[simp] theorem State.modCtx_soot (c : Nat) (f : Ctx → Ctx) : (s.modCtx c f).soot = s.soot := rfl
@[simp] theorem State.modCtx_chimney (c : Nat) (f : Ctx → Ctx) : (s.modCtx c f).chimney = s.chimney := rfl
@[simp] theorem State.modCtx_fw (c : Nat) (f : Ctx → Ctx) : (s.modCtx c f).fw = s.fw := rfl
@[simp] theorem State.modCtx_tdis (c : Nat) (f : Ctx → Ctx) : (s.modCtx c f).tdis = s.tdis := rfl
@[simp] theorem State.modCtx_requests (c : Nat) (f : Ctx → Ctx) : (s.modCtx c f).requests = s.requests := rfl
@[simp] theorem State.modCtx_handles (c : Nat) (f : Ctx → Ctx) : (s.modCtx c f).handles = s.handles := rfl
@[simp] theorem State.modCtx_sent (c : Nat) (f : Ctx → Ctx) : (s.modCtx c f).sent = s.sent := rfl
@[simp] theorem State.modCtx_hdm (c : Nat) (f : Ctx → Ctx) : (s.modCtx c f).hdm = s.hdm := rfl
@[simp] theorem State.modCtx_lent (c : Nat) (f : Ctx → Ctx) : (s.modCtx c f).lent = s.lent := rfl
@[simp] theorem State.modCtx_msix (c : Nat) (f : Ctx → Ctx) : (s.modCtx c f).msix = s.msix := rfl
@[simp] theorem State.modCtx_hostUp (c : Nat) (f : Ctx → Ctx) : (s.modCtx c f).hostUp = s.hostUp := rfl
@[simp] theorem State.modCtx_hostRead (c : Nat) (f : Ctx → Ctx) : (s.modCtx c f).hostRead = s.hostRead := rfl
@[simp] theorem State.modCtx_ideDropped (c : Nat) (f : Ctx → Ctx) : (s.modCtx c f).ideDropped = s.ideDropped := rfl
@[simp] theorem State.modCtx_up (c : Nat) (f : Ctx → Ctx) : (s.modCtx c f).up = s.up := rfl
@[simp] theorem State.modCtx_ec (c : Nat) (f : Ctx → Ctx) : (s.modCtx c f).ec = s.ec := rfl
@[simp] theorem State.modCtx_time (c : Nat) (f : Ctx → Ctx) : (s.modCtx c f).time = s.time := rfl
@[simp] theorem State.modCtx_stamp (c : Nat) (f : Ctx → Ctx) : (s.modCtx c f).stamp = s.stamp := rfl
@[simp] theorem State.modCtx_plan (c : Nat) (f : Ctx → Ctx) : (s.modCtx c f).plan = s.plan := rfl
@[simp] theorem State.modCtx_cur (c : Nat) (f : Ctx → Ctx) : (s.modCtx c f).cur = s.cur := rfl
@[simp] theorem State.modCtx_free (c : Nat) (f : Ctx → Ctx) : (s.modCtx c f).free = s.free := rfl

/-! #### State.upd -/

@[simp] theorem State.upd_mem (f : Ctx → Ctx) : (s.upd f).mem = s.mem := rfl
@[simp] theorem State.upd_hmem (f : Ctx → Ctx) : (s.upd f).hmem = s.hmem := rfl
@[simp] theorem State.upd_bad (f : Ctx → Ctx) : (s.upd f).bad = s.bad := rfl
@[simp] theorem State.upd_pend (f : Ctx → Ctx) : (s.upd f).pend = s.pend := rfl
@[simp] theorem State.upd_nextId (f : Ctx → Ctx) : (s.upd f).nextId = s.nextId := rfl
@[simp] theorem State.upd_tlb (f : Ctx → Ctx) : (s.upd f).tlb = s.tlb := rfl
@[simp] theorem State.upd_parts (f : Ctx → Ctx) : (s.upd f).parts = s.parts := rfl
@[simp] theorem State.upd_kernels (f : Ctx → Ctx) : (s.upd f).kernels = s.kernels := rfl
@[simp] theorem State.upd_launches (f : Ctx → Ctx) : (s.upd f).launches = s.launches := rfl
@[simp] theorem State.upd_teams (f : Ctx → Ctx) : (s.upd f).teams = s.teams := rfl
@[simp] theorem State.upd_images (f : Ctx → Ctx) : (s.upd f).images = s.images := rfl
@[simp] theorem State.upd_links (f : Ctx → Ctx) : (s.upd f).links = s.links := rfl
@[simp] theorem State.upd_cache (f : Ctx → Ctx) : (s.upd f).cache = s.cache := rfl
@[simp] theorem State.upd_damper (f : Ctx → Ctx) : (s.upd f).damper = s.damper := rfl
@[simp] theorem State.upd_islands (f : Ctx → Ctx) : (s.upd f).islands = s.islands := rfl
@[simp] theorem State.upd_err (f : Ctx → Ctx) : (s.upd f).err = s.err := rfl
@[simp] theorem State.upd_soot (f : Ctx → Ctx) : (s.upd f).soot = s.soot := rfl
@[simp] theorem State.upd_chimney (f : Ctx → Ctx) : (s.upd f).chimney = s.chimney := rfl
@[simp] theorem State.upd_fw (f : Ctx → Ctx) : (s.upd f).fw = s.fw := rfl
@[simp] theorem State.upd_tdis (f : Ctx → Ctx) : (s.upd f).tdis = s.tdis := rfl
@[simp] theorem State.upd_requests (f : Ctx → Ctx) : (s.upd f).requests = s.requests := rfl
@[simp] theorem State.upd_handles (f : Ctx → Ctx) : (s.upd f).handles = s.handles := rfl
@[simp] theorem State.upd_sent (f : Ctx → Ctx) : (s.upd f).sent = s.sent := rfl
@[simp] theorem State.upd_hdm (f : Ctx → Ctx) : (s.upd f).hdm = s.hdm := rfl
@[simp] theorem State.upd_lent (f : Ctx → Ctx) : (s.upd f).lent = s.lent := rfl
@[simp] theorem State.upd_msix (f : Ctx → Ctx) : (s.upd f).msix = s.msix := rfl
@[simp] theorem State.upd_hostUp (f : Ctx → Ctx) : (s.upd f).hostUp = s.hostUp := rfl
@[simp] theorem State.upd_hostRead (f : Ctx → Ctx) : (s.upd f).hostRead = s.hostRead := rfl
@[simp] theorem State.upd_ideDropped (f : Ctx → Ctx) : (s.upd f).ideDropped = s.ideDropped := rfl
@[simp] theorem State.upd_up (f : Ctx → Ctx) : (s.upd f).up = s.up := rfl
@[simp] theorem State.upd_ec (f : Ctx → Ctx) : (s.upd f).ec = s.ec := rfl
@[simp] theorem State.upd_time (f : Ctx → Ctx) : (s.upd f).time = s.time := rfl
@[simp] theorem State.upd_stamp (f : Ctx → Ctx) : (s.upd f).stamp = s.stamp := rfl
@[simp] theorem State.upd_plan (f : Ctx → Ctx) : (s.upd f).plan = s.plan := rfl
@[simp] theorem State.upd_cur (f : Ctx → Ctx) : (s.upd f).cur = s.cur := rfl
@[simp] theorem State.upd_free (f : Ctx → Ctx) : (s.upd f).free = s.free := rfl

/-! #### State.enqueue -/

@[simp] theorem State.enqueue_mem (e : SqEnt) : (s.enqueue e).mem = s.mem := rfl
@[simp] theorem State.enqueue_hmem (e : SqEnt) : (s.enqueue e).hmem = s.hmem := rfl
@[simp] theorem State.enqueue_bad (e : SqEnt) : (s.enqueue e).bad = s.bad := rfl
@[simp] theorem State.enqueue_pend (e : SqEnt) : (s.enqueue e).pend = s.pend := rfl
@[simp] theorem State.enqueue_nextId (e : SqEnt) : (s.enqueue e).nextId = s.nextId := rfl
@[simp] theorem State.enqueue_tlb (e : SqEnt) : (s.enqueue e).tlb = s.tlb := rfl
@[simp] theorem State.enqueue_parts (e : SqEnt) : (s.enqueue e).parts = s.parts := rfl
@[simp] theorem State.enqueue_kernels (e : SqEnt) : (s.enqueue e).kernels = s.kernels := rfl
@[simp] theorem State.enqueue_launches (e : SqEnt) : (s.enqueue e).launches = s.launches := rfl
@[simp] theorem State.enqueue_teams (e : SqEnt) : (s.enqueue e).teams = s.teams := rfl
@[simp] theorem State.enqueue_images (e : SqEnt) : (s.enqueue e).images = s.images := rfl
@[simp] theorem State.enqueue_links (e : SqEnt) : (s.enqueue e).links = s.links := rfl
@[simp] theorem State.enqueue_cache (e : SqEnt) : (s.enqueue e).cache = s.cache := rfl
@[simp] theorem State.enqueue_damper (e : SqEnt) : (s.enqueue e).damper = s.damper := rfl
@[simp] theorem State.enqueue_islands (e : SqEnt) : (s.enqueue e).islands = s.islands := rfl
@[simp] theorem State.enqueue_err (e : SqEnt) : (s.enqueue e).err = s.err := rfl
@[simp] theorem State.enqueue_soot (e : SqEnt) : (s.enqueue e).soot = s.soot := rfl
@[simp] theorem State.enqueue_chimney (e : SqEnt) : (s.enqueue e).chimney = s.chimney := rfl
@[simp] theorem State.enqueue_fw (e : SqEnt) : (s.enqueue e).fw = s.fw := rfl
@[simp] theorem State.enqueue_tdis (e : SqEnt) : (s.enqueue e).tdis = s.tdis := rfl
@[simp] theorem State.enqueue_requests (e : SqEnt) : (s.enqueue e).requests = s.requests := rfl
@[simp] theorem State.enqueue_handles (e : SqEnt) : (s.enqueue e).handles = s.handles := rfl
@[simp] theorem State.enqueue_sent (e : SqEnt) : (s.enqueue e).sent = s.sent := rfl
@[simp] theorem State.enqueue_hdm (e : SqEnt) : (s.enqueue e).hdm = s.hdm := rfl
@[simp] theorem State.enqueue_lent (e : SqEnt) : (s.enqueue e).lent = s.lent := rfl
@[simp] theorem State.enqueue_msix (e : SqEnt) : (s.enqueue e).msix = s.msix := rfl
@[simp] theorem State.enqueue_hostUp (e : SqEnt) : (s.enqueue e).hostUp = s.hostUp := rfl
@[simp] theorem State.enqueue_hostRead (e : SqEnt) : (s.enqueue e).hostRead = s.hostRead := rfl
@[simp] theorem State.enqueue_ideDropped (e : SqEnt) : (s.enqueue e).ideDropped = s.ideDropped := rfl
@[simp] theorem State.enqueue_up (e : SqEnt) : (s.enqueue e).up = s.up := rfl
@[simp] theorem State.enqueue_ec (e : SqEnt) : (s.enqueue e).ec = s.ec := rfl
@[simp] theorem State.enqueue_time (e : SqEnt) : (s.enqueue e).time = s.time := rfl
@[simp] theorem State.enqueue_stamp (e : SqEnt) : (s.enqueue e).stamp = s.stamp := rfl
@[simp] theorem State.enqueue_plan (e : SqEnt) : (s.enqueue e).plan = s.plan := rfl
@[simp] theorem State.enqueue_cur (e : SqEnt) : (s.enqueue e).cur = s.cur := rfl
@[simp] theorem State.enqueue_free (e : SqEnt) : (s.enqueue e).free = s.free := rfl

/-! #### State.modPart -/

@[simp] theorem State.modPart_cores (p : Nat) (f : Part → Part) : (s.modPart p f).cores = s.cores := rfl
@[simp] theorem State.modPart_mem (p : Nat) (f : Part → Part) : (s.modPart p f).mem = s.mem := rfl
@[simp] theorem State.modPart_hmem (p : Nat) (f : Part → Part) : (s.modPart p f).hmem = s.hmem := rfl
@[simp] theorem State.modPart_bad (p : Nat) (f : Part → Part) : (s.modPart p f).bad = s.bad := rfl
@[simp] theorem State.modPart_pend (p : Nat) (f : Part → Part) : (s.modPart p f).pend = s.pend := rfl
@[simp] theorem State.modPart_nextId (p : Nat) (f : Part → Part) : (s.modPart p f).nextId = s.nextId := rfl
@[simp] theorem State.modPart_tlb (p : Nat) (f : Part → Part) : (s.modPart p f).tlb = s.tlb := rfl
@[simp] theorem State.modPart_kernels (p : Nat) (f : Part → Part) : (s.modPart p f).kernels = s.kernels := rfl
@[simp] theorem State.modPart_launches (p : Nat) (f : Part → Part) : (s.modPart p f).launches = s.launches := rfl
@[simp] theorem State.modPart_teams (p : Nat) (f : Part → Part) : (s.modPart p f).teams = s.teams := rfl
@[simp] theorem State.modPart_images (p : Nat) (f : Part → Part) : (s.modPart p f).images = s.images := rfl
@[simp] theorem State.modPart_links (p : Nat) (f : Part → Part) : (s.modPart p f).links = s.links := rfl
@[simp] theorem State.modPart_cache (p : Nat) (f : Part → Part) : (s.modPart p f).cache = s.cache := rfl
@[simp] theorem State.modPart_damper (p : Nat) (f : Part → Part) : (s.modPart p f).damper = s.damper := rfl
@[simp] theorem State.modPart_islands (p : Nat) (f : Part → Part) : (s.modPart p f).islands = s.islands := rfl
@[simp] theorem State.modPart_err (p : Nat) (f : Part → Part) : (s.modPart p f).err = s.err := rfl
@[simp] theorem State.modPart_soot (p : Nat) (f : Part → Part) : (s.modPart p f).soot = s.soot := rfl
@[simp] theorem State.modPart_chimney (p : Nat) (f : Part → Part) : (s.modPart p f).chimney = s.chimney := rfl
@[simp] theorem State.modPart_fw (p : Nat) (f : Part → Part) : (s.modPart p f).fw = s.fw := rfl
@[simp] theorem State.modPart_tdis (p : Nat) (f : Part → Part) : (s.modPart p f).tdis = s.tdis := rfl
@[simp] theorem State.modPart_requests (p : Nat) (f : Part → Part) : (s.modPart p f).requests = s.requests := rfl
@[simp] theorem State.modPart_handles (p : Nat) (f : Part → Part) : (s.modPart p f).handles = s.handles := rfl
@[simp] theorem State.modPart_sent (p : Nat) (f : Part → Part) : (s.modPart p f).sent = s.sent := rfl
@[simp] theorem State.modPart_hdm (p : Nat) (f : Part → Part) : (s.modPart p f).hdm = s.hdm := rfl
@[simp] theorem State.modPart_lent (p : Nat) (f : Part → Part) : (s.modPart p f).lent = s.lent := rfl
@[simp] theorem State.modPart_msix (p : Nat) (f : Part → Part) : (s.modPart p f).msix = s.msix := rfl
@[simp] theorem State.modPart_hostUp (p : Nat) (f : Part → Part) : (s.modPart p f).hostUp = s.hostUp := rfl
@[simp] theorem State.modPart_hostRead (p : Nat) (f : Part → Part) : (s.modPart p f).hostRead = s.hostRead := rfl
@[simp] theorem State.modPart_ideDropped (p : Nat) (f : Part → Part) : (s.modPart p f).ideDropped = s.ideDropped := rfl
@[simp] theorem State.modPart_up (p : Nat) (f : Part → Part) : (s.modPart p f).up = s.up := rfl
@[simp] theorem State.modPart_ec (p : Nat) (f : Part → Part) : (s.modPart p f).ec = s.ec := rfl
@[simp] theorem State.modPart_time (p : Nat) (f : Part → Part) : (s.modPart p f).time = s.time := rfl
@[simp] theorem State.modPart_stamp (p : Nat) (f : Part → Part) : (s.modPart p f).stamp = s.stamp := rfl
@[simp] theorem State.modPart_plan (p : Nat) (f : Part → Part) : (s.modPart p f).plan = s.plan := rfl
@[simp] theorem State.modPart_cur (p : Nat) (f : Part → Part) : (s.modPart p f).cur = s.cur := rfl
@[simp] theorem State.modPart_free (p : Nat) (f : Part → Part) : (s.modPart p f).free = s.free := rfl

/-! #### State.modQueue -/

@[simp] theorem State.modQueue_cores (p q : Nat) (f : HostQueue → HostQueue) : (s.modQueue p q f).cores = s.cores := rfl
@[simp] theorem State.modQueue_mem (p q : Nat) (f : HostQueue → HostQueue) : (s.modQueue p q f).mem = s.mem := rfl
@[simp] theorem State.modQueue_hmem (p q : Nat) (f : HostQueue → HostQueue) : (s.modQueue p q f).hmem = s.hmem := rfl
@[simp] theorem State.modQueue_bad (p q : Nat) (f : HostQueue → HostQueue) : (s.modQueue p q f).bad = s.bad := rfl
@[simp] theorem State.modQueue_pend (p q : Nat) (f : HostQueue → HostQueue) : (s.modQueue p q f).pend = s.pend := rfl
@[simp] theorem State.modQueue_nextId (p q : Nat) (f : HostQueue → HostQueue) : (s.modQueue p q f).nextId = s.nextId := rfl
@[simp] theorem State.modQueue_tlb (p q : Nat) (f : HostQueue → HostQueue) : (s.modQueue p q f).tlb = s.tlb := rfl
@[simp] theorem State.modQueue_kernels (p q : Nat) (f : HostQueue → HostQueue) : (s.modQueue p q f).kernels = s.kernels := rfl
@[simp] theorem State.modQueue_launches (p q : Nat) (f : HostQueue → HostQueue) : (s.modQueue p q f).launches = s.launches := rfl
@[simp] theorem State.modQueue_teams (p q : Nat) (f : HostQueue → HostQueue) : (s.modQueue p q f).teams = s.teams := rfl
@[simp] theorem State.modQueue_images (p q : Nat) (f : HostQueue → HostQueue) : (s.modQueue p q f).images = s.images := rfl
@[simp] theorem State.modQueue_links (p q : Nat) (f : HostQueue → HostQueue) : (s.modQueue p q f).links = s.links := rfl
@[simp] theorem State.modQueue_cache (p q : Nat) (f : HostQueue → HostQueue) : (s.modQueue p q f).cache = s.cache := rfl
@[simp] theorem State.modQueue_damper (p q : Nat) (f : HostQueue → HostQueue) : (s.modQueue p q f).damper = s.damper := rfl
@[simp] theorem State.modQueue_islands (p q : Nat) (f : HostQueue → HostQueue) : (s.modQueue p q f).islands = s.islands := rfl
@[simp] theorem State.modQueue_err (p q : Nat) (f : HostQueue → HostQueue) : (s.modQueue p q f).err = s.err := rfl
@[simp] theorem State.modQueue_soot (p q : Nat) (f : HostQueue → HostQueue) : (s.modQueue p q f).soot = s.soot := rfl
@[simp] theorem State.modQueue_chimney (p q : Nat) (f : HostQueue → HostQueue) : (s.modQueue p q f).chimney = s.chimney := rfl
@[simp] theorem State.modQueue_fw (p q : Nat) (f : HostQueue → HostQueue) : (s.modQueue p q f).fw = s.fw := rfl
@[simp] theorem State.modQueue_tdis (p q : Nat) (f : HostQueue → HostQueue) : (s.modQueue p q f).tdis = s.tdis := rfl
@[simp] theorem State.modQueue_requests (p q : Nat) (f : HostQueue → HostQueue) : (s.modQueue p q f).requests = s.requests := rfl
@[simp] theorem State.modQueue_handles (p q : Nat) (f : HostQueue → HostQueue) : (s.modQueue p q f).handles = s.handles := rfl
@[simp] theorem State.modQueue_sent (p q : Nat) (f : HostQueue → HostQueue) : (s.modQueue p q f).sent = s.sent := rfl
@[simp] theorem State.modQueue_hdm (p q : Nat) (f : HostQueue → HostQueue) : (s.modQueue p q f).hdm = s.hdm := rfl
@[simp] theorem State.modQueue_lent (p q : Nat) (f : HostQueue → HostQueue) : (s.modQueue p q f).lent = s.lent := rfl
@[simp] theorem State.modQueue_msix (p q : Nat) (f : HostQueue → HostQueue) : (s.modQueue p q f).msix = s.msix := rfl
@[simp] theorem State.modQueue_hostUp (p q : Nat) (f : HostQueue → HostQueue) : (s.modQueue p q f).hostUp = s.hostUp := rfl
@[simp] theorem State.modQueue_hostRead (p q : Nat) (f : HostQueue → HostQueue) : (s.modQueue p q f).hostRead = s.hostRead := rfl
@[simp] theorem State.modQueue_ideDropped (p q : Nat) (f : HostQueue → HostQueue) : (s.modQueue p q f).ideDropped = s.ideDropped := rfl
@[simp] theorem State.modQueue_up (p q : Nat) (f : HostQueue → HostQueue) : (s.modQueue p q f).up = s.up := rfl
@[simp] theorem State.modQueue_ec (p q : Nat) (f : HostQueue → HostQueue) : (s.modQueue p q f).ec = s.ec := rfl
@[simp] theorem State.modQueue_time (p q : Nat) (f : HostQueue → HostQueue) : (s.modQueue p q f).time = s.time := rfl
@[simp] theorem State.modQueue_stamp (p q : Nat) (f : HostQueue → HostQueue) : (s.modQueue p q f).stamp = s.stamp := rfl
@[simp] theorem State.modQueue_plan (p q : Nat) (f : HostQueue → HostQueue) : (s.modQueue p q f).plan = s.plan := rfl
@[simp] theorem State.modQueue_cur (p q : Nat) (f : HostQueue → HostQueue) : (s.modQueue p q f).cur = s.cur := rfl
@[simp] theorem State.modQueue_free (p q : Nat) (f : HostQueue → HostQueue) : (s.modQueue p q f).free = s.free := rfl

/-! #### State.modIsland -/

@[simp] theorem State.modIsland_cores (i : Nat) (f : Island → Island) : (s.modIsland i f).cores = s.cores := rfl
@[simp] theorem State.modIsland_mem (i : Nat) (f : Island → Island) : (s.modIsland i f).mem = s.mem := rfl
@[simp] theorem State.modIsland_hmem (i : Nat) (f : Island → Island) : (s.modIsland i f).hmem = s.hmem := rfl
@[simp] theorem State.modIsland_bad (i : Nat) (f : Island → Island) : (s.modIsland i f).bad = s.bad := rfl
@[simp] theorem State.modIsland_pend (i : Nat) (f : Island → Island) : (s.modIsland i f).pend = s.pend := rfl
@[simp] theorem State.modIsland_nextId (i : Nat) (f : Island → Island) : (s.modIsland i f).nextId = s.nextId := rfl
@[simp] theorem State.modIsland_tlb (i : Nat) (f : Island → Island) : (s.modIsland i f).tlb = s.tlb := rfl
@[simp] theorem State.modIsland_parts (i : Nat) (f : Island → Island) : (s.modIsland i f).parts = s.parts := rfl
@[simp] theorem State.modIsland_kernels (i : Nat) (f : Island → Island) : (s.modIsland i f).kernels = s.kernels := rfl
@[simp] theorem State.modIsland_launches (i : Nat) (f : Island → Island) : (s.modIsland i f).launches = s.launches := rfl
@[simp] theorem State.modIsland_teams (i : Nat) (f : Island → Island) : (s.modIsland i f).teams = s.teams := rfl
@[simp] theorem State.modIsland_images (i : Nat) (f : Island → Island) : (s.modIsland i f).images = s.images := rfl
@[simp] theorem State.modIsland_links (i : Nat) (f : Island → Island) : (s.modIsland i f).links = s.links := rfl
@[simp] theorem State.modIsland_cache (i : Nat) (f : Island → Island) : (s.modIsland i f).cache = s.cache := rfl
@[simp] theorem State.modIsland_damper (i : Nat) (f : Island → Island) : (s.modIsland i f).damper = s.damper := rfl
@[simp] theorem State.modIsland_err (i : Nat) (f : Island → Island) : (s.modIsland i f).err = s.err := rfl
@[simp] theorem State.modIsland_soot (i : Nat) (f : Island → Island) : (s.modIsland i f).soot = s.soot := rfl
@[simp] theorem State.modIsland_chimney (i : Nat) (f : Island → Island) : (s.modIsland i f).chimney = s.chimney := rfl
@[simp] theorem State.modIsland_fw (i : Nat) (f : Island → Island) : (s.modIsland i f).fw = s.fw := rfl
@[simp] theorem State.modIsland_tdis (i : Nat) (f : Island → Island) : (s.modIsland i f).tdis = s.tdis := rfl
@[simp] theorem State.modIsland_requests (i : Nat) (f : Island → Island) : (s.modIsland i f).requests = s.requests := rfl
@[simp] theorem State.modIsland_handles (i : Nat) (f : Island → Island) : (s.modIsland i f).handles = s.handles := rfl
@[simp] theorem State.modIsland_sent (i : Nat) (f : Island → Island) : (s.modIsland i f).sent = s.sent := rfl
@[simp] theorem State.modIsland_hdm (i : Nat) (f : Island → Island) : (s.modIsland i f).hdm = s.hdm := rfl
@[simp] theorem State.modIsland_lent (i : Nat) (f : Island → Island) : (s.modIsland i f).lent = s.lent := rfl
@[simp] theorem State.modIsland_msix (i : Nat) (f : Island → Island) : (s.modIsland i f).msix = s.msix := rfl
@[simp] theorem State.modIsland_hostUp (i : Nat) (f : Island → Island) : (s.modIsland i f).hostUp = s.hostUp := rfl
@[simp] theorem State.modIsland_hostRead (i : Nat) (f : Island → Island) : (s.modIsland i f).hostRead = s.hostRead := rfl
@[simp] theorem State.modIsland_ideDropped (i : Nat) (f : Island → Island) : (s.modIsland i f).ideDropped = s.ideDropped := rfl
@[simp] theorem State.modIsland_up (i : Nat) (f : Island → Island) : (s.modIsland i f).up = s.up := rfl
@[simp] theorem State.modIsland_ec (i : Nat) (f : Island → Island) : (s.modIsland i f).ec = s.ec := rfl
@[simp] theorem State.modIsland_time (i : Nat) (f : Island → Island) : (s.modIsland i f).time = s.time := rfl
@[simp] theorem State.modIsland_stamp (i : Nat) (f : Island → Island) : (s.modIsland i f).stamp = s.stamp := rfl
@[simp] theorem State.modIsland_plan (i : Nat) (f : Island → Island) : (s.modIsland i f).plan = s.plan := rfl
@[simp] theorem State.modIsland_cur (i : Nat) (f : Island → Island) : (s.modIsland i f).cur = s.cur := rfl
@[simp] theorem State.modIsland_free (i : Nat) (f : Island → Island) : (s.modIsland i f).free = s.free := rfl

/-! #### State.meterUncore -/

@[simp] theorem State.meterUncore_cores (i q n : Nat) : (s.meterUncore i q n).cores = s.cores := rfl
@[simp] theorem State.meterUncore_mem (i q n : Nat) : (s.meterUncore i q n).mem = s.mem := rfl
@[simp] theorem State.meterUncore_hmem (i q n : Nat) : (s.meterUncore i q n).hmem = s.hmem := rfl
@[simp] theorem State.meterUncore_bad (i q n : Nat) : (s.meterUncore i q n).bad = s.bad := rfl
@[simp] theorem State.meterUncore_pend (i q n : Nat) : (s.meterUncore i q n).pend = s.pend := rfl
@[simp] theorem State.meterUncore_nextId (i q n : Nat) : (s.meterUncore i q n).nextId = s.nextId := rfl
@[simp] theorem State.meterUncore_tlb (i q n : Nat) : (s.meterUncore i q n).tlb = s.tlb := rfl
@[simp] theorem State.meterUncore_parts (i q n : Nat) : (s.meterUncore i q n).parts = s.parts := rfl
@[simp] theorem State.meterUncore_kernels (i q n : Nat) : (s.meterUncore i q n).kernels = s.kernels := rfl
@[simp] theorem State.meterUncore_launches (i q n : Nat) : (s.meterUncore i q n).launches = s.launches := rfl
@[simp] theorem State.meterUncore_teams (i q n : Nat) : (s.meterUncore i q n).teams = s.teams := rfl
@[simp] theorem State.meterUncore_images (i q n : Nat) : (s.meterUncore i q n).images = s.images := rfl
@[simp] theorem State.meterUncore_links (i q n : Nat) : (s.meterUncore i q n).links = s.links := rfl
@[simp] theorem State.meterUncore_cache (i q n : Nat) : (s.meterUncore i q n).cache = s.cache := rfl
@[simp] theorem State.meterUncore_damper (i q n : Nat) : (s.meterUncore i q n).damper = s.damper := rfl
@[simp] theorem State.meterUncore_err (i q n : Nat) : (s.meterUncore i q n).err = s.err := rfl
@[simp] theorem State.meterUncore_soot (i q n : Nat) : (s.meterUncore i q n).soot = s.soot := rfl
@[simp] theorem State.meterUncore_chimney (i q n : Nat) : (s.meterUncore i q n).chimney = s.chimney := rfl
@[simp] theorem State.meterUncore_fw (i q n : Nat) : (s.meterUncore i q n).fw = s.fw := rfl
@[simp] theorem State.meterUncore_tdis (i q n : Nat) : (s.meterUncore i q n).tdis = s.tdis := rfl
@[simp] theorem State.meterUncore_requests (i q n : Nat) : (s.meterUncore i q n).requests = s.requests := rfl
@[simp] theorem State.meterUncore_handles (i q n : Nat) : (s.meterUncore i q n).handles = s.handles := rfl
@[simp] theorem State.meterUncore_sent (i q n : Nat) : (s.meterUncore i q n).sent = s.sent := rfl
@[simp] theorem State.meterUncore_hdm (i q n : Nat) : (s.meterUncore i q n).hdm = s.hdm := rfl
@[simp] theorem State.meterUncore_lent (i q n : Nat) : (s.meterUncore i q n).lent = s.lent := rfl
@[simp] theorem State.meterUncore_msix (i q n : Nat) : (s.meterUncore i q n).msix = s.msix := rfl
@[simp] theorem State.meterUncore_hostUp (i q n : Nat) : (s.meterUncore i q n).hostUp = s.hostUp := rfl
@[simp] theorem State.meterUncore_hostRead (i q n : Nat) : (s.meterUncore i q n).hostRead = s.hostRead := rfl
@[simp] theorem State.meterUncore_ideDropped (i q n : Nat) : (s.meterUncore i q n).ideDropped = s.ideDropped := rfl
@[simp] theorem State.meterUncore_up (i q n : Nat) : (s.meterUncore i q n).up = s.up := rfl
@[simp] theorem State.meterUncore_ec (i q n : Nat) : (s.meterUncore i q n).ec = s.ec := rfl
@[simp] theorem State.meterUncore_time (i q n : Nat) : (s.meterUncore i q n).time = s.time := rfl
@[simp] theorem State.meterUncore_stamp (i q n : Nat) : (s.meterUncore i q n).stamp = s.stamp := rfl
@[simp] theorem State.meterUncore_plan (i q n : Nat) : (s.meterUncore i q n).plan = s.plan := rfl
@[simp] theorem State.meterUncore_cur (i q n : Nat) : (s.meterUncore i q n).cur = s.cur := rfl
@[simp] theorem State.meterUncore_free (i q n : Nat) : (s.meterUncore i q n).free = s.free := rfl

/-! #### State.modPort -/

@[simp] theorem State.modPort_cores (n : Nat) (f : Chimney → Chimney) : (s.modPort n f).cores = s.cores := rfl
@[simp] theorem State.modPort_mem (n : Nat) (f : Chimney → Chimney) : (s.modPort n f).mem = s.mem := rfl
@[simp] theorem State.modPort_hmem (n : Nat) (f : Chimney → Chimney) : (s.modPort n f).hmem = s.hmem := rfl
@[simp] theorem State.modPort_bad (n : Nat) (f : Chimney → Chimney) : (s.modPort n f).bad = s.bad := rfl
@[simp] theorem State.modPort_pend (n : Nat) (f : Chimney → Chimney) : (s.modPort n f).pend = s.pend := rfl
@[simp] theorem State.modPort_nextId (n : Nat) (f : Chimney → Chimney) : (s.modPort n f).nextId = s.nextId := rfl
@[simp] theorem State.modPort_tlb (n : Nat) (f : Chimney → Chimney) : (s.modPort n f).tlb = s.tlb := rfl
@[simp] theorem State.modPort_parts (n : Nat) (f : Chimney → Chimney) : (s.modPort n f).parts = s.parts := rfl
@[simp] theorem State.modPort_kernels (n : Nat) (f : Chimney → Chimney) : (s.modPort n f).kernels = s.kernels := rfl
@[simp] theorem State.modPort_launches (n : Nat) (f : Chimney → Chimney) : (s.modPort n f).launches = s.launches := rfl
@[simp] theorem State.modPort_teams (n : Nat) (f : Chimney → Chimney) : (s.modPort n f).teams = s.teams := rfl
@[simp] theorem State.modPort_images (n : Nat) (f : Chimney → Chimney) : (s.modPort n f).images = s.images := rfl
@[simp] theorem State.modPort_links (n : Nat) (f : Chimney → Chimney) : (s.modPort n f).links = s.links := rfl
@[simp] theorem State.modPort_cache (n : Nat) (f : Chimney → Chimney) : (s.modPort n f).cache = s.cache := rfl
@[simp] theorem State.modPort_damper (n : Nat) (f : Chimney → Chimney) : (s.modPort n f).damper = s.damper := rfl
@[simp] theorem State.modPort_islands (n : Nat) (f : Chimney → Chimney) : (s.modPort n f).islands = s.islands := rfl
@[simp] theorem State.modPort_err (n : Nat) (f : Chimney → Chimney) : (s.modPort n f).err = s.err := rfl
@[simp] theorem State.modPort_soot (n : Nat) (f : Chimney → Chimney) : (s.modPort n f).soot = s.soot := rfl
@[simp] theorem State.modPort_fw (n : Nat) (f : Chimney → Chimney) : (s.modPort n f).fw = s.fw := rfl
@[simp] theorem State.modPort_tdis (n : Nat) (f : Chimney → Chimney) : (s.modPort n f).tdis = s.tdis := rfl
@[simp] theorem State.modPort_requests (n : Nat) (f : Chimney → Chimney) : (s.modPort n f).requests = s.requests := rfl
@[simp] theorem State.modPort_handles (n : Nat) (f : Chimney → Chimney) : (s.modPort n f).handles = s.handles := rfl
@[simp] theorem State.modPort_sent (n : Nat) (f : Chimney → Chimney) : (s.modPort n f).sent = s.sent := rfl
@[simp] theorem State.modPort_hdm (n : Nat) (f : Chimney → Chimney) : (s.modPort n f).hdm = s.hdm := rfl
@[simp] theorem State.modPort_lent (n : Nat) (f : Chimney → Chimney) : (s.modPort n f).lent = s.lent := rfl
@[simp] theorem State.modPort_msix (n : Nat) (f : Chimney → Chimney) : (s.modPort n f).msix = s.msix := rfl
@[simp] theorem State.modPort_hostUp (n : Nat) (f : Chimney → Chimney) : (s.modPort n f).hostUp = s.hostUp := rfl
@[simp] theorem State.modPort_hostRead (n : Nat) (f : Chimney → Chimney) : (s.modPort n f).hostRead = s.hostRead := rfl
@[simp] theorem State.modPort_ideDropped (n : Nat) (f : Chimney → Chimney) : (s.modPort n f).ideDropped = s.ideDropped := rfl
@[simp] theorem State.modPort_up (n : Nat) (f : Chimney → Chimney) : (s.modPort n f).up = s.up := rfl
@[simp] theorem State.modPort_ec (n : Nat) (f : Chimney → Chimney) : (s.modPort n f).ec = s.ec := rfl
@[simp] theorem State.modPort_time (n : Nat) (f : Chimney → Chimney) : (s.modPort n f).time = s.time := rfl
@[simp] theorem State.modPort_stamp (n : Nat) (f : Chimney → Chimney) : (s.modPort n f).stamp = s.stamp := rfl
@[simp] theorem State.modPort_plan (n : Nat) (f : Chimney → Chimney) : (s.modPort n f).plan = s.plan := rfl
@[simp] theorem State.modPort_cur (n : Nat) (f : Chimney → Chimney) : (s.modPort n f).cur = s.cur := rfl
@[simp] theorem State.modPort_free (n : Nat) (f : Chimney → Chimney) : (s.modPort n f).free = s.free := rfl

/-! #### State.modTdi -/

@[simp] theorem State.modTdi_cores (n : Nat) (f : Tdi → Tdi) : (s.modTdi n f).cores = s.cores := rfl
@[simp] theorem State.modTdi_mem (n : Nat) (f : Tdi → Tdi) : (s.modTdi n f).mem = s.mem := rfl
@[simp] theorem State.modTdi_hmem (n : Nat) (f : Tdi → Tdi) : (s.modTdi n f).hmem = s.hmem := rfl
@[simp] theorem State.modTdi_bad (n : Nat) (f : Tdi → Tdi) : (s.modTdi n f).bad = s.bad := rfl
@[simp] theorem State.modTdi_pend (n : Nat) (f : Tdi → Tdi) : (s.modTdi n f).pend = s.pend := rfl
@[simp] theorem State.modTdi_nextId (n : Nat) (f : Tdi → Tdi) : (s.modTdi n f).nextId = s.nextId := rfl
@[simp] theorem State.modTdi_tlb (n : Nat) (f : Tdi → Tdi) : (s.modTdi n f).tlb = s.tlb := rfl
@[simp] theorem State.modTdi_parts (n : Nat) (f : Tdi → Tdi) : (s.modTdi n f).parts = s.parts := rfl
@[simp] theorem State.modTdi_kernels (n : Nat) (f : Tdi → Tdi) : (s.modTdi n f).kernels = s.kernels := rfl
@[simp] theorem State.modTdi_launches (n : Nat) (f : Tdi → Tdi) : (s.modTdi n f).launches = s.launches := rfl
@[simp] theorem State.modTdi_teams (n : Nat) (f : Tdi → Tdi) : (s.modTdi n f).teams = s.teams := rfl
@[simp] theorem State.modTdi_images (n : Nat) (f : Tdi → Tdi) : (s.modTdi n f).images = s.images := rfl
@[simp] theorem State.modTdi_links (n : Nat) (f : Tdi → Tdi) : (s.modTdi n f).links = s.links := rfl
@[simp] theorem State.modTdi_cache (n : Nat) (f : Tdi → Tdi) : (s.modTdi n f).cache = s.cache := rfl
@[simp] theorem State.modTdi_damper (n : Nat) (f : Tdi → Tdi) : (s.modTdi n f).damper = s.damper := rfl
@[simp] theorem State.modTdi_islands (n : Nat) (f : Tdi → Tdi) : (s.modTdi n f).islands = s.islands := rfl
@[simp] theorem State.modTdi_err (n : Nat) (f : Tdi → Tdi) : (s.modTdi n f).err = s.err := rfl
@[simp] theorem State.modTdi_soot (n : Nat) (f : Tdi → Tdi) : (s.modTdi n f).soot = s.soot := rfl
@[simp] theorem State.modTdi_chimney (n : Nat) (f : Tdi → Tdi) : (s.modTdi n f).chimney = s.chimney := rfl
@[simp] theorem State.modTdi_fw (n : Nat) (f : Tdi → Tdi) : (s.modTdi n f).fw = s.fw := rfl
@[simp] theorem State.modTdi_requests (n : Nat) (f : Tdi → Tdi) : (s.modTdi n f).requests = s.requests := rfl
@[simp] theorem State.modTdi_handles (n : Nat) (f : Tdi → Tdi) : (s.modTdi n f).handles = s.handles := rfl
@[simp] theorem State.modTdi_sent (n : Nat) (f : Tdi → Tdi) : (s.modTdi n f).sent = s.sent := rfl
@[simp] theorem State.modTdi_hdm (n : Nat) (f : Tdi → Tdi) : (s.modTdi n f).hdm = s.hdm := rfl
@[simp] theorem State.modTdi_lent (n : Nat) (f : Tdi → Tdi) : (s.modTdi n f).lent = s.lent := rfl
@[simp] theorem State.modTdi_msix (n : Nat) (f : Tdi → Tdi) : (s.modTdi n f).msix = s.msix := rfl
@[simp] theorem State.modTdi_hostUp (n : Nat) (f : Tdi → Tdi) : (s.modTdi n f).hostUp = s.hostUp := rfl
@[simp] theorem State.modTdi_hostRead (n : Nat) (f : Tdi → Tdi) : (s.modTdi n f).hostRead = s.hostRead := rfl
@[simp] theorem State.modTdi_ideDropped (n : Nat) (f : Tdi → Tdi) : (s.modTdi n f).ideDropped = s.ideDropped := rfl
@[simp] theorem State.modTdi_up (n : Nat) (f : Tdi → Tdi) : (s.modTdi n f).up = s.up := rfl
@[simp] theorem State.modTdi_ec (n : Nat) (f : Tdi → Tdi) : (s.modTdi n f).ec = s.ec := rfl
@[simp] theorem State.modTdi_time (n : Nat) (f : Tdi → Tdi) : (s.modTdi n f).time = s.time := rfl
@[simp] theorem State.modTdi_stamp (n : Nat) (f : Tdi → Tdi) : (s.modTdi n f).stamp = s.stamp := rfl
@[simp] theorem State.modTdi_plan (n : Nat) (f : Tdi → Tdi) : (s.modTdi n f).plan = s.plan := rfl
@[simp] theorem State.modTdi_cur (n : Nat) (f : Tdi → Tdi) : (s.modTdi n f).cur = s.cur := rfl
@[simp] theorem State.modTdi_free (n : Nat) (f : Tdi → Tdi) : (s.modTdi n f).free = s.free := rfl

/-! #### State.modLink -/

@[simp] theorem State.modLink_cores (k : Nat) (f : Link → Link) : (s.modLink k f).cores = s.cores := rfl
@[simp] theorem State.modLink_mem (k : Nat) (f : Link → Link) : (s.modLink k f).mem = s.mem := rfl
@[simp] theorem State.modLink_hmem (k : Nat) (f : Link → Link) : (s.modLink k f).hmem = s.hmem := rfl
@[simp] theorem State.modLink_bad (k : Nat) (f : Link → Link) : (s.modLink k f).bad = s.bad := rfl
@[simp] theorem State.modLink_pend (k : Nat) (f : Link → Link) : (s.modLink k f).pend = s.pend := rfl
@[simp] theorem State.modLink_nextId (k : Nat) (f : Link → Link) : (s.modLink k f).nextId = s.nextId := rfl
@[simp] theorem State.modLink_tlb (k : Nat) (f : Link → Link) : (s.modLink k f).tlb = s.tlb := rfl
@[simp] theorem State.modLink_parts (k : Nat) (f : Link → Link) : (s.modLink k f).parts = s.parts := rfl
@[simp] theorem State.modLink_kernels (k : Nat) (f : Link → Link) : (s.modLink k f).kernels = s.kernels := rfl
@[simp] theorem State.modLink_launches (k : Nat) (f : Link → Link) : (s.modLink k f).launches = s.launches := rfl
@[simp] theorem State.modLink_teams (k : Nat) (f : Link → Link) : (s.modLink k f).teams = s.teams := rfl
@[simp] theorem State.modLink_images (k : Nat) (f : Link → Link) : (s.modLink k f).images = s.images := rfl
@[simp] theorem State.modLink_cache (k : Nat) (f : Link → Link) : (s.modLink k f).cache = s.cache := rfl
@[simp] theorem State.modLink_damper (k : Nat) (f : Link → Link) : (s.modLink k f).damper = s.damper := rfl
@[simp] theorem State.modLink_islands (k : Nat) (f : Link → Link) : (s.modLink k f).islands = s.islands := rfl
@[simp] theorem State.modLink_err (k : Nat) (f : Link → Link) : (s.modLink k f).err = s.err := rfl
@[simp] theorem State.modLink_soot (k : Nat) (f : Link → Link) : (s.modLink k f).soot = s.soot := rfl
@[simp] theorem State.modLink_chimney (k : Nat) (f : Link → Link) : (s.modLink k f).chimney = s.chimney := rfl
@[simp] theorem State.modLink_fw (k : Nat) (f : Link → Link) : (s.modLink k f).fw = s.fw := rfl
@[simp] theorem State.modLink_tdis (k : Nat) (f : Link → Link) : (s.modLink k f).tdis = s.tdis := rfl
@[simp] theorem State.modLink_requests (k : Nat) (f : Link → Link) : (s.modLink k f).requests = s.requests := rfl
@[simp] theorem State.modLink_handles (k : Nat) (f : Link → Link) : (s.modLink k f).handles = s.handles := rfl
@[simp] theorem State.modLink_sent (k : Nat) (f : Link → Link) : (s.modLink k f).sent = s.sent := rfl
@[simp] theorem State.modLink_hdm (k : Nat) (f : Link → Link) : (s.modLink k f).hdm = s.hdm := rfl
@[simp] theorem State.modLink_lent (k : Nat) (f : Link → Link) : (s.modLink k f).lent = s.lent := rfl
@[simp] theorem State.modLink_msix (k : Nat) (f : Link → Link) : (s.modLink k f).msix = s.msix := rfl
@[simp] theorem State.modLink_hostUp (k : Nat) (f : Link → Link) : (s.modLink k f).hostUp = s.hostUp := rfl
@[simp] theorem State.modLink_hostRead (k : Nat) (f : Link → Link) : (s.modLink k f).hostRead = s.hostRead := rfl
@[simp] theorem State.modLink_ideDropped (k : Nat) (f : Link → Link) : (s.modLink k f).ideDropped = s.ideDropped := rfl
@[simp] theorem State.modLink_up (k : Nat) (f : Link → Link) : (s.modLink k f).up = s.up := rfl
@[simp] theorem State.modLink_ec (k : Nat) (f : Link → Link) : (s.modLink k f).ec = s.ec := rfl
@[simp] theorem State.modLink_time (k : Nat) (f : Link → Link) : (s.modLink k f).time = s.time := rfl
@[simp] theorem State.modLink_stamp (k : Nat) (f : Link → Link) : (s.modLink k f).stamp = s.stamp := rfl
@[simp] theorem State.modLink_plan (k : Nat) (f : Link → Link) : (s.modLink k f).plan = s.plan := rfl
@[simp] theorem State.modLink_cur (k : Nat) (f : Link → Link) : (s.modLink k f).cur = s.cur := rfl
@[simp] theorem State.modLink_free (k : Nat) (f : Link → Link) : (s.modLink k f).free = s.free := rfl

/-! #### State.raiseMsix -/

@[simp] theorem State.raiseMsix_cores (v : Nat) : (s.raiseMsix v).cores = s.cores := rfl
@[simp] theorem State.raiseMsix_mem (v : Nat) : (s.raiseMsix v).mem = s.mem := rfl
@[simp] theorem State.raiseMsix_hmem (v : Nat) : (s.raiseMsix v).hmem = s.hmem := rfl
@[simp] theorem State.raiseMsix_bad (v : Nat) : (s.raiseMsix v).bad = s.bad := rfl
@[simp] theorem State.raiseMsix_pend (v : Nat) : (s.raiseMsix v).pend = s.pend := rfl
@[simp] theorem State.raiseMsix_nextId (v : Nat) : (s.raiseMsix v).nextId = s.nextId := rfl
@[simp] theorem State.raiseMsix_tlb (v : Nat) : (s.raiseMsix v).tlb = s.tlb := rfl
@[simp] theorem State.raiseMsix_parts (v : Nat) : (s.raiseMsix v).parts = s.parts := rfl
@[simp] theorem State.raiseMsix_kernels (v : Nat) : (s.raiseMsix v).kernels = s.kernels := rfl
@[simp] theorem State.raiseMsix_launches (v : Nat) : (s.raiseMsix v).launches = s.launches := rfl
@[simp] theorem State.raiseMsix_teams (v : Nat) : (s.raiseMsix v).teams = s.teams := rfl
@[simp] theorem State.raiseMsix_images (v : Nat) : (s.raiseMsix v).images = s.images := rfl
@[simp] theorem State.raiseMsix_links (v : Nat) : (s.raiseMsix v).links = s.links := rfl
@[simp] theorem State.raiseMsix_cache (v : Nat) : (s.raiseMsix v).cache = s.cache := rfl
@[simp] theorem State.raiseMsix_damper (v : Nat) : (s.raiseMsix v).damper = s.damper := rfl
@[simp] theorem State.raiseMsix_islands (v : Nat) : (s.raiseMsix v).islands = s.islands := rfl
@[simp] theorem State.raiseMsix_err (v : Nat) : (s.raiseMsix v).err = s.err := rfl
@[simp] theorem State.raiseMsix_soot (v : Nat) : (s.raiseMsix v).soot = s.soot := rfl
@[simp] theorem State.raiseMsix_chimney (v : Nat) : (s.raiseMsix v).chimney = s.chimney := rfl
@[simp] theorem State.raiseMsix_fw (v : Nat) : (s.raiseMsix v).fw = s.fw := rfl
@[simp] theorem State.raiseMsix_tdis (v : Nat) : (s.raiseMsix v).tdis = s.tdis := rfl
@[simp] theorem State.raiseMsix_requests (v : Nat) : (s.raiseMsix v).requests = s.requests := rfl
@[simp] theorem State.raiseMsix_handles (v : Nat) : (s.raiseMsix v).handles = s.handles := rfl
@[simp] theorem State.raiseMsix_sent (v : Nat) : (s.raiseMsix v).sent = s.sent := rfl
@[simp] theorem State.raiseMsix_hdm (v : Nat) : (s.raiseMsix v).hdm = s.hdm := rfl
@[simp] theorem State.raiseMsix_lent (v : Nat) : (s.raiseMsix v).lent = s.lent := rfl
@[simp] theorem State.raiseMsix_hostUp (v : Nat) : (s.raiseMsix v).hostUp = s.hostUp := rfl
@[simp] theorem State.raiseMsix_hostRead (v : Nat) : (s.raiseMsix v).hostRead = s.hostRead := rfl
@[simp] theorem State.raiseMsix_ideDropped (v : Nat) : (s.raiseMsix v).ideDropped = s.ideDropped := rfl
@[simp] theorem State.raiseMsix_up (v : Nat) : (s.raiseMsix v).up = s.up := rfl
@[simp] theorem State.raiseMsix_ec (v : Nat) : (s.raiseMsix v).ec = s.ec := rfl
@[simp] theorem State.raiseMsix_time (v : Nat) : (s.raiseMsix v).time = s.time := rfl
@[simp] theorem State.raiseMsix_stamp (v : Nat) : (s.raiseMsix v).stamp = s.stamp := rfl
@[simp] theorem State.raiseMsix_plan (v : Nat) : (s.raiseMsix v).plan = s.plan := rfl
@[simp] theorem State.raiseMsix_cur (v : Nat) : (s.raiseMsix v).cur = s.cur := rfl
@[simp] theorem State.raiseMsix_free (v : Nat) : (s.raiseMsix v).free = s.free := rfl
end


/-! ### What a part reads -/

@[simp] theorem State.core_setCore (s : State) (c d : Nat) (k : Core) :
    (s.setCore c k).core d = if d = c then k else s.core d := by
  simp [State.core, State.setCore]

@[simp] theorem State.core_modCore (s : State) (c d : Nat) (f : Core → Core) :
    (s.modCore c f).core d = if d = c then f (s.core c) else s.core d := by
  simp [State.modCore]

theorem State.me_modCore {s : State} {c : Nat} (h : c = s.cur) (f : Core → Core) : (s.modCore c f).me = f s.me := by
  subst h
  show (s.modCore s.cur f).core s.cur = _
  rw [State.core_modCore, if_pos rfl]
  rfl

theorem State.modCore_modCore (s : State) (c : Nat) (f g : Core → Core) :
    (s.modCore c f).modCore c g = s.modCore c (fun k => g (f k)) := by
  simp [State.modCore, State.setCore, State.core]

theorem State.modCtx_modCtx (s : State) (c : Nat) (f g : Ctx → Ctx) :
    (s.modCtx c f).modCtx c g = s.modCtx c (fun x => g (f x)) := by
  simp [State.modCtx, State.modCore_modCore]

/-- Two updates of the acting context are one. -/
theorem State.upd_upd (s : State) (f g : Ctx → Ctx) : (s.upd f).upd g = s.upd (fun x => g (f x)) :=
  State.modCtx_modCtx s s.cur f g

theorem State.modCtx_acting (s : State) (f : Ctx → Ctx) : s.modCtx s.cur f = s.upd f := rfl

theorem State.upd_modCtx (s : State) (f g : Ctx → Ctx) : (s.upd f).modCtx s.cur g = s.upd (fun x => g (f x)) :=
  State.modCtx_modCtx s s.cur f g

@[simp] theorem State.core_modCtx (s : State) (c d : Nat) (f : Ctx → Ctx) :
    (s.modCtx c f).core d = if d = c then { s.core c with ctx := f (s.ctx c) } else s.core d := by
  simp [State.modCtx, State.ctx]

@[simp] theorem State.ctx_modCtx (s : State) (c d : Nat) (f : Ctx → Ctx) :
    (s.modCtx c f).ctx d = if d = c then f (s.ctx c) else s.ctx d := by
  simp only [State.ctx, State.core_modCtx]
  split <;> rfl

@[simp] theorem State.core_upd (s : State) (d : Nat) (f : Ctx → Ctx) :
    (s.upd f).core d = if d = s.cur then { s.me with ctx := f s.my } else s.core d := by
  simp [State.upd, State.me, State.my, State.ctx]

@[simp] theorem State.me_upd (s : State) (f : Ctx → Ctx) : (s.upd f).me = { s.me with ctx := f s.my } := by
  simp [State.me, State.my]

@[simp] theorem State.my_upd (s : State) (f : Ctx → Ctx) : (s.upd f).my = f s.my := by
  simp [State.my]

@[simp] theorem State.ctx_cur (s : State) : s.ctx s.cur = s.my := rfl

@[simp] theorem State.core_cur (s : State) : s.core s.cur = s.me := rfl

@[simp] theorem State.part_modPart (s : State) (p q : Nat) (f : Part → Part) :
    (s.modPart p f).part q = if q = p then f (s.part p) else s.part q := by
  simp [State.part, State.modPart]

@[simp] theorem State.island_modIsland (s : State) (i j : Nat) (f : Island → Island) :
    (s.modIsland i f).island j = if j = i then f (s.island i) else s.island j := by
  simp only [State.island, State.modIsland]
  by_cases h : j = i
  · subst h
    simp
  · rw [if_neg h, Tbl.put]
    split
    · exact Tbl.get_del_ne _ h _
    · rw [Tbl.get_set, if_neg h]

@[simp] theorem State.port_modPort (s : State) (n m : Nat) (f : Chimney → Chimney) :
    (s.modPort n f).port m = if m = n then f (s.port n) else s.port m := by
  simp [State.port, State.modPort]

@[simp] theorem State.tdi_modTdi (s : State) (n m : Nat) (f : Tdi → Tdi) :
    (s.modTdi n f).tdi m = if m = n then f (s.tdi n) else s.tdi m := by
  simp [State.tdi, State.modTdi]

@[simp] theorem State.link_modLink (s : State) (n m : Nat) (f : Link → Link) :
    (s.modLink n f).link m = if m = n then f (s.link n) else s.link m := by
  simp [State.link, State.modLink]

@[simp] theorem State.queue_modQueue (s : State) (p q p' q' : Nat) (f : HostQueue → HostQueue) :
    (s.modQueue p q f).queue p' q' = if p' = p ∧ q' = q then f (s.queue p q) else s.queue p' q' := by
  simp only [State.queue, State.modQueue, State.part_modPart]
  by_cases h : p' = p
  · subst h
    by_cases hq : q' = q
    · subst hq
      simp
    · simp [hq]
  · simp [h]

/-! ### Marks of uncorrectable SRAM -/

/-- All that mending does. -/
theorem State.mend_eq (s : State) (l : List Sram) : s.mend l = { s with bad := s.bad.filter fun x => !l.contains x } := by
  unfold State.mend
  split
  · rename_i h
    have h : s.bad = [] := List.isEmpty_iff.1 h
    rw [show (s.bad.filter fun x => !l.contains x) = s.bad by rw [h]; rfl]
  · rfl

@[simp] theorem State.cur_mend (s : State) (l : List Sram) : (s.mend l).cur = s.cur := by rw [State.mend_eq]
@[simp] theorem State.core_mend (s : State) (l : List Sram) (c : Nat) : (s.mend l).core c = s.core c := by rw [State.mend_eq]; rfl
@[simp] theorem State.my_mend (s : State) (l : List Sram) : (s.mend l).my = s.my := by rw [State.mend_eq]; rfl
@[simp] theorem State.mem_mend (s : State) (l : List Sram) : (s.mend l).mem = s.mem := by rw [State.mend_eq]
@[simp] theorem State.hmem_mend (s : State) (l : List Sram) : (s.mend l).hmem = s.hmem := by rw [State.mend_eq]
@[simp] theorem State.pend_mend (s : State) (l : List Sram) : (s.mend l).pend = s.pend := by rw [State.mend_eq]

/-! ### Registers -/

/-- x0 reads zero, whatever is written. -/
@[simp] theorem Ctx.getX_zero (x : Ctx) : x.getX 0 = 0 := rfl

/-- A write of x0 changes nothing. -/
@[simp] theorem Ctx.setX_zero (x : Ctx) (v : Word) : x.setX 0 v = x := rfl

theorem reg_toNat_inj {r q : Reg} (h : q ≠ r) : q.toNat ≠ r.toNat := fun e => h (BitVec.eq_of_toNat_eq e)

/-- A register reads what was written to it last. -/
theorem Ctx.getX_setX (x : Ctx) (r q : Reg) (v : Word) :
    (x.setX r v).getX q = if q = r then (if r = 0 then 0 else v) else x.getX q := by
  unfold Ctx.setX Ctx.getX
  by_cases hr : r = 0
  · rw [if_pos hr, if_pos hr]
    by_cases hq : q = r
    · rw [if_pos hq, if_pos (hq.trans hr)]
    · rw [if_neg hq]
  · rw [if_neg hr, if_neg hr]
    by_cases hq : q = r
    · rw [if_pos hq, if_neg (fun e => hr (hq.symm.trans e)), Tbl.get_put, if_pos (by rw [hq])]
    · rw [if_neg hq, Tbl.get_put, if_neg (reg_toNat_inj hq)]

theorem Ctx.getF_setF (x : Ctx) (r q : Reg) (v : Word) : (x.setF r v).getF q = if q = r then v else x.getF q := by
  unfold Ctx.setF Ctx.getF
  by_cases hq : q = r
  · subst hq
    simp
  · simp [hq, reg_toNat_inj hq]

end Sys2Proof.Machine
end

