-- ==== Sys2Proof/Laws/Ops.lean ====
section
/-! SUPPORT. What the shared operations of the Stoker do once their conditions hold. -/
namespace Sys2Proof.Machine

set_option Elab.async false

theorem State.withRegs_ready {s : State} {srcs dsts : List Dest} (h : s.regsReady srcs dsts) (k : Res) :
    s.withRegs srcs dsts k = k := by
  obtain ⟨h1, h2, h3⟩ := h
  simp [State.withRegs, h1, h2, h3]

/-! ### Registers an instruction names -/

/-- An instruction of the Stoker goes through the check of the registers it names. -/
theorem exec_withRegs {s : State} {i : Instr} {srcs dsts : List Dest} (h : s.stokerRegs i = some (srcs, dsts)) :
    ∃ k, exec i s = s.withRegs srcs dsts k := by
  cases i
  case rv64Base i =>
    cases i
    case csrRead op u rd csr =>
      simp only [State.stokerRegs, State.rvRegs, Option.ite_none_right_eq_some, Bool.and_eq_true, Option.some.injEq,
        Prod.mk.injEq] at h
      obtain ⟨⟨h1, h2⟩, rfl, rfl⟩ := h
      obtain ⟨v, hv⟩ := Option.isSome_iff_exists.1 h2
      simp only [exec, execRv64Base, State.readCsr, h1, hv]
      exact ⟨_, rfl⟩
    all_goals try simp only [State.stokerRegs, State.rvRegs, Option.some.injEq, Prod.mk.injEq, reduceCtorEq] at h
    all_goals try (obtain ⟨rfl, rfl⟩ := h; exact ⟨_, rfl⟩)
    all_goals
      simp only [Option.ite_none_right_eq_some, Option.some.injEq, Prod.mk.injEq] at h
      obtain ⟨h1, rfl, rfl⟩ := h
      obtain ⟨v, hv⟩ := Option.isSome_iff_exists.1 h1
      simp only [exec, execRv64Base, State.withRm, hv]
      exact ⟨_, rfl⟩
  case sfenceVma a b =>
    simp only [State.stokerRegs, Option.ite_none_left_eq_some, Option.some.injEq, Prod.mk.injEq] at h
    obtain ⟨h1, rfl, rfl⟩ := h
    simp only [exec, execSfenceVma, if_neg h1]
    exact ⟨_, rfl⟩
  all_goals simp only [State.stokerRegs, Option.some.injEq, Prod.mk.injEq, reduceCtorEq] at h
  all_goals obtain ⟨rfl, rfl⟩ := h; exact ⟨_, rfl⟩

/-! ### Accesses and pushes -/

theorem State.withGlobal_misses {s : State} {acc : Acc} {va : Word} {r : Res} (ha : acc ≠ .fetch)
    (h : s.misses acc va r) (k : State → Place → Nat → Res) : s.withGlobal acc va k = r := by
  rcases h with ⟨h1, h2, rfl⟩ | ⟨h1, t, ⟨h2, rfl⟩ | ⟨h2, rfl⟩ | ⟨h2, rfl⟩⟩
  · simp [State.withGlobal, h1, h2]
  · cases acc <;> simp_all [State.withGlobal, State.trap]
  · simp [State.withGlobal, h1, h2, State.violate]
  · simp [State.withGlobal, h1, h2]

theorem State.withGlobal_lands {s t : State} {acc : Acc} {va : Word} {p : Place} {attr : Nat}
    (h : s.lands acc va p attr t) (k : State → Place → Nat → Res) : s.withGlobal acc va k = k t p attr := by
  rcases h with ⟨h1, h2, rfl, rfl, rfl⟩ | ⟨h1, h2⟩
  · simp [State.withGlobal, h1, h2]
  · simp [State.withGlobal, h1, h2]

theorem State.withTyped_lands {s : State} {inW : Bool} {t : Typed} {n : Nat} {write : Bool} {p : Place}
    (h : s.typedLands inW t n write p) (k : Place → Res) : s.withTyped inW t n write k = k p := by
  rcases h with rfl | ⟨lo, rfl, h⟩
  · rfl
  · simp [State.withTyped, h]

@[simp] theorem State.meter_zero (s : State) (c q : Nat) : s.meter c q 0 = s := by simp [State.meter]

theorem State.push_room {s : State} {r : PushReq} (h : s.room r) (k : State → Res) :
    s.push r k = k ((s.register r).meter s.cur 24 r.cmd.recordsRead) := by
  obtain ⟨h1, h2, h3⟩ := h
  unfold State.push
  rw [h1, h2]
  cases hs : r.scored
  · simp
  · have := h3 hs
    simp [Nat.not_le.2 this]

/-- A push that reads no record registers its entry and meters nothing. -/
theorem State.push_plain {s : State} {r : PushReq} (h : s.room r) (h0 : r.cmd.recordsRead = 0) (k : State → Res) :
    s.push r k = k (s.register r) := by
  rw [State.push_room h, h0, State.meter_zero]

theorem State.withRecord_ready {s : State} {off : Nat} {bs : List Byte} (h : s.record off bs) (k : List Byte → Res) :
    s.withRecord off k = k bs := by
  obtain ⟨_, p, h1, h2, h3, rfl⟩ := h
  rw [State.withRecord, State.withTyped_lands h1, h2]
  simp only [h3]
  rfl

/-- n events of kind q, charged after an update of the acting context. -/
theorem State.meter_upd (s : State) (f : Ctx → Ctx) (q n : Nat) :
    (s.upd f).meter s.cur q n =
      s.upd fun x => if s.me.task.isNone || n == 0 then f x else (f x).charge s.cur (n * s.cost q) := by
  unfold State.meter
  have h1 : ((s.upd f).core s.cur).task = s.me.task := by simp
  rw [h1, show (s.upd f).cost q = s.cost q from rfl, State.upd_modCtx]
  by_cases h : (s.me.task.isNone || n == 0) = true
  · simp only [h, if_true]
  · simp only [h]
    rfl

theorem State.endWait_none {s : State} (h : s.noWait) : s.endWait s.cur .sk = s := by
  have h' : ((s.ctx s.cur).waits.find? fun w => w.agent == Agent.sk.code) = none := h
  simp only [State.endWait, h']

/-- What retiring an instruction does, where the Stoker waits for nothing. -/
theorem State.retireAt_eq {s : State} (h : s.noWait) (pc : Word) :
    s.retireAt pc = s.upd fun x => if s.me.task.isNone then x.goTo pc else (x.goTo pc).charge s.cur (s.cost 16) := by
  unfold State.retireAt
  rw [State.meter_upd]
  generalize hf : (fun x : Ctx => if s.me.task.isNone || 1 == 0 then x.goTo pc else (x.goTo pc).charge s.cur (1 * s.cost 16)) = f
  have hw : (s.upd f).noWait := by
    subst hf
    unfold State.noWait
    rw [State.my_upd]
    split <;> exact h
  have := State.endWait_none hw
  rw [show (s.upd f).cur = s.cur from rfl] at this
  rw [this]
  subst hf
  simp

/-! ### Results and the next instruction -/

@[simp] theorem Ctx.setX_pc (x : Ctx) (r : Reg) (v : Word) : (x.setX r v).pc = x.pc := by
  unfold Ctx.setX
  split <;> rfl

@[simp] theorem Ctx.setX_mx (x : Ctx) (r : Reg) (v : Word) : (x.setX r v).mx = x.mx := by
  unfold Ctx.setX
  split <;> rfl

@[simp] theorem Ctx.setX_f (x : Ctx) (r : Reg) (v : Word) : (x.setX r v).f = x.f := by
  unfold Ctx.setX
  split <;> rfl

/-- An update that leaves the pc leaves the address of the next instruction. -/
theorem State.nextPc_upd {s : State} {f : Ctx → Ctx} (h : (f s.my).pc = s.my.pc) : (s.upd f).nextPc = s.nextPc := by
  simp [State.nextPc, h]

theorem State.nextPc_enqueue (s : State) (e : SqEnt) : (s.enqueue e).nextPc = s.nextPc := State.nextPc_upd rfl

/-- An instruction that updates the acting context and retires. -/
theorem State.finish_upd {s : State} {f : Ctx → Ctx} (h : (f s.my).pc = s.my.pc) :
    (s.upd f).finish = .next ((s.upd f).retireAt s.nextPc) := by
  rw [State.finish, State.nextPc_upd h]

theorem State.setRd_eq (s : State) (rd : Reg) (v : Word) :
    s.setRd rd v = .next ((s.upd fun x => x.setX rd v).retireAt s.nextPc) := State.finish_upd (Ctx.setX_pc _ _ _)

theorem State.setFd_eq (s : State) (dbl : Bool) (rd : Reg) (r : Nat × Fl) :
    s.setFd dbl rd r =
      .next ((s.upd fun x => { x.setF rd (rvBox dbl r.1) with fflags := x.fflags ||| r.2.bits }).retireAt s.nextPc) :=
  State.finish_upd rfl

theorem State.setXd_eq (s : State) (rd : Reg) (v : Word) (fl : Fl) :
    s.setXd rd v fl = .next ((s.upd fun x => { x.setX rd v with fflags := x.fflags ||| fl.bits }).retireAt s.nextPc) :=
  State.finish_upd (Ctx.setX_pc _ _ _)

/-- A result written after an update that leaves the pc. -/
theorem State.setRd_upd {s : State} {f : Ctx → Ctx} (h : (f s.my).pc = s.my.pc) (rd : Reg) (v : Word) :
    (s.upd f).setRd rd v = .next ((s.upd fun x => (f x).setX rd v).retireAt s.nextPc) := by
  rw [State.setRd_eq, State.upd_upd, State.nextPc_upd h]

/-! ### Entries of the class queues -/

theorem State.nextPc_fence (s : State) (mask : BitVec 16) (scope : Nat) : (s.fence mask scope).nextPc = s.nextPc := by
  unfold State.fence
  split
  · rfl
  · exact State.nextPc_enqueue s _

theorem State.nextPc_owe (s : State) (rd : Reg) (v : Word) : (s.owe rd v).nextPc = s.nextPc := by
  unfold State.owe
  split
  · rfl
  · exact State.nextPc_enqueue s _

theorem State.nextPc_acquire (s : State) : s.acquire.nextPc = s.nextPc := State.nextPc_enqueue s _

@[simp] theorem State.cur_fence (s : State) (mask : BitVec 16) (scope : Nat) : (s.fence mask scope).cur = s.cur := by
  unfold State.fence
  split <;> rfl

theorem State.nextPc_acquireIf (s : State) (aq : Bool) : (s.acquireIf aq).nextPc = s.nextPc := by
  cases aq
  · rfl
  · exact State.nextPc_acquire s

theorem State.nextPc_releaseIf (s : State) (rl : Bool) : (s.releaseIf rl).nextPc = s.nextPc := by
  unfold State.releaseIf
  split
  · exact State.nextPc_fence s _ _
  · rfl

@[simp] theorem State.cur_releaseIf (s : State) (rl : Bool) : (s.releaseIf rl).cur = s.cur := by
  unfold State.releaseIf
  split
  · exact State.cur_fence s _ _
  · rfl

@[simp] theorem State.cur_acquireIf (s : State) (aq : Bool) : (s.acquireIf aq).cur = s.cur := by
  unfold State.acquireIf
  split <;> rfl

theorem State.nextPc_meter (s : State) (c q n : Nat) (h : c = s.cur) : (s.meter c q n).nextPc = s.nextPc := by
  subst h
  unfold State.meter
  split
  · rfl
  · show (s.upd fun x => x.charge s.cur (n * s.cost q)).nextPc = _
    exact State.nextPc_upd (by simp only [Ctx.charge])

@[simp] theorem State.cur_meter (s : State) (c q n : Nat) : (s.meter c q n).cur = s.cur := by
  unfold State.meter
  split <;> rfl

/-- An entry joins the class queues, an event is metered, and the instruction retires. -/
theorem State.enqueue_finish (s : State) (e : SqEnt) (q n : Nat) :
    ((s.enqueue e).meter s.cur q n).finish = .next (((s.enqueue e).meter s.cur q n).retireAt s.nextPc) := by
  have h : ((s.enqueue e).meter s.cur q n).nextPc = s.nextPc := by
    rw [State.nextPc_meter _ _ _ _ (show s.cur = (s.enqueue e).cur from rfl), State.nextPc_enqueue]
  rw [State.finish, h]

/-- What a push registers (08_stoker_isa.md R155). -/
theorem State.register_eq (s : State) (r : PushReq) :
    s.register r = s.upd fun x =>
      { x.append r.agent (r.entry x) with
        nextCmd := x.nextCmd + 1
        sq := (x.append r.agent (r.entry x)).sq ++
          [{ classes := r.classes, kind := .push s.my.nextCmd, dest := .none, typed := false }] } := by
  unfold State.register State.enqueue
  rw [State.upd_upd]

theorem Ctx.append_pc (x : Ctx) (a : Agent) (e : Entry) : (x.append a e).pc = x.pc := by
  cases a <;> rfl

theorem State.nextPc_register (s : State) (r : PushReq) : (s.register r).nextPc = s.nextPc := by
  rw [State.register_eq]
  exact State.nextPc_upd (Ctx.append_pc _ _ _)

/-! ### The engines -/

/-- An engine starts its next entry where nothing holds it (05_local_memory.md R88). -/
theorem State.startEntry_ready {s : State} {a : Agent} {e : Entry} (h : s.mayStart a e) {want : Cmd → Bool}
    (hw : want e.cmd = true) (k : State → Entry → Res) : s.startEntry a want k = k (s.endWaitOf s.cur a 5) e := by
  obtain ⟨h1, h2, h3, h4, h5⟩ := h
  simp [State.startEntry, h1, h2, h3, h4, h5, hw]

theorem State.withVx_run {s : State} {r : VxRun} {e : Entry} (h : s.inVx r e) (k : VxAt → Res) :
    s.withVx k = k { e := e, r := r } := by
  obtain ⟨h1, h2, h3, h4⟩ := h
  simp [State.withVx, h1, h2, h3, h4]

/-- A fault that is no violation sets the engine's record and nothing else, but that a fault with no address takes a free
value for ADDR (20_translation_faults.md R312). -/
theorem State.engineFault_eq (s : State) (c : Nat) (a : Agent) (e : Entry) {f : EFault} (p : Nat)
    (h : f.sub ≠ .violation) : s.engineFault c a e f p = (s.faultAddr f).2.modCtx c fun x => x.setFault a
      { fstat := BitVec.ofNat 64 (2 ^ 63 + f.acc * 2 ^ 60 + f.sub.code * 2 ^ 40 + e.qpos), prog := BitVec.ofNat 64 p
        addr := (s.faultAddr f).1, cmd := BitVec.ofNat 64 e.cmd.word, fop := s.fopCmd c e.cmd
        task := (s.core c).b.tcb, action := 0, todo := 0, vxst := if a = .vx then (s.ctx c).vx.vxst else 0 } := by
  simp only [State.engineFault, State.faultRec, EFault.fstat, if_neg h, Nat.add_zero]

theorem State.withSram_ok {s : State} {m : MxAt} (h : s.readsWell m) (k : State → MxAt → Res) : s.withSram m k = k s m := by
  unfold State.withSram
  split
  · rfl
  · simp only []
    rw [show (s.sramErrors _ _ _).2 = false from h]
    rfl

theorem State.withMx_at {s u : State} {m : MxAt} (h : s.inMx m u) (k : State → MxAt → Res) : s.withMx k = k u m := by
  obtain ⟨e, run⟩ := m
  obtain ⟨hw, ⟨r, h0, h1, h2, h3, h4, rfl⟩ | ⟨h0, h1, h2, h3, rfl⟩⟩ := h
  · simp only at h0 h4
    subst h0
    simp [State.withMx, h1, h2, h3, h4, State.withSram_ok hw]
  · simp only at h0 h2 h3
    subst h0
    unfold State.withMx
    rw [h1]
    exact (State.startEntry_ready h2 h3 _).trans (State.withSram_ok hw k)

theorem State.withSlot_ok {s : State} {m : MxAt} {mask : RunRec → BitVec 32} {n : Nat}
    (h : ∀ r, m.rec? = some r → (mask r).getLsbD n = true) (k : Res) : s.withSlot m mask n k = k := by
  unfold State.withSlot
  split
  · rw [if_pos (h _ ‹_›)]
  · rfl

theorem State.withWindow_in {s : State} {m : MxAt} {write inW : Bool} {ranges : List (Nat × Nat)}
    (h : m.inWindow write inW ranges) (a : Nat) (k : Res) : s.withWindow m write inW a ranges k = k := by
  unfold State.withWindow
  split
  · rfl
  · obtain ⟨h1, h2⟩ := h _ ‹_›
    simp only []
    rw [if_neg, h2]
    rcases h1 with h1 | h1 <;> simp [h1]

/-- A tile that FX does not hold, and that is valid where the word reads it. -/
theorem State.withAcc_ok {s : State} {t : Nat} {valid : Bool} (h1 : (s.my.acc t).inflight ≠ some .fx)
    (h2 : valid = true → (s.my.acc t).valid = true) (k : AccTile → Res) : s.withAcc t valid k = k (s.my.acc t) := by
  unfold State.withAcc
  simp only [if_neg h1]
  rw [if_neg]
  simp only [Bool.and_eq_true, Bool.not_eq_true', not_and, Bool.not_eq_false]
  exact h2

theorem State.withStillAcc_ok {s : State} {t : Nat} (h : (s.my.acc t).inflight = none) (k : AccTile → Res) :
    s.withStillAcc t k = k (s.my.acc t) := by
  unfold State.withStillAcc
  rw [h]

theorem State.withCmdRecord_ok {s : State} {a : Agent} {e : Entry} {j : Job} {bs : List Byte} (h : s.cmdRecord a e j bs)
    (k : Job → List Byte → Res) : s.withCmdRecord a e k = k j bs := by
  obtain ⟨i, h, rfl⟩ := h
  unfold State.withCmdRecord
  rw [h]

/-- A record command that engine a starts runs on its record. -/
theorem State.startEntry_record {s : State} {a : Agent} {f : Nat} {e : Entry} {j : Job} {bs : List Byte}
    (h : s.starts a f e j bs) {want : Cmd → Bool} (hw : want e.cmd = true) (k : State → Entry → Job → List Byte → Res) :
    s.startEntry a want (fun s e => s.withCmdRecord a e (k s e)) = k (s.endWaitOf s.cur a 5) e j bs := by
  rw [State.startEntry_ready h.1 hw, State.withCmdRecord_ok h.2.2]

/-! ### Host queues -/

/-- The packet of the first stream that has one. -/
theorem State.withPacketIn_skip {s : State} {p q ty : Nat} {st : Stream} {pre rest : List Stream}
    (h : ∀ y ∈ pre, (s.queue p q).packetAt y = none) (k : State → Stream → List Nat → Res) :
    s.withPacketIn p q ty k (pre ++ st :: rest) = s.withPacketIn p q ty k (st :: rest) := by
  induction pre with
  | nil => rfl
  | cons y l ih =>
    have hl := ih fun z hz => h z (List.mem_cons_of_mem _ hz)
    rw [List.cons_append, State.withPacketIn, hl]
    simp only [h y (List.mem_cons_self ..)]
    split <;> rfl

theorem State.withPacket_begins {s u : State} {p q ty : Nat} {st : Stream} {d : List Nat} (h : s.begins p q ty st u d)
    (k : State → Stream → List Nat → Res) : s.withPacket p q ty k = k u st d := by
  obtain ⟨h1, h2, ⟨hf, pre, rest, hs, hp⟩, ⟨va, bs, h3, h4, rfl⟩, h5, h6, h7, h8, h9⟩ := h
  unfold State.withPacket
  rw [h1, h2, if_neg (by simp), hs, State.withPacketIn_skip hp]
  unfold State.withPacketIn
  simp only [hf, h3, h4, h5, h7, h8, h9]
  rw [if_neg (by simp), if_neg, if_neg (by simp), if_neg (by simp)]
  rintro h
  simp only [Bool.and_eq_true, Bool.not_eq_true'] at h
  rw [h6 h.1] at h
  exact absurd h.2 (by simp)

theorem State.stopQueue_eq (s : State) (p q : Nat) (st : Stream) (code : Nat) :
    s.stopQueue p q st code = .next (s.queueStopped p q st code) := by
  cases st <;> rfl

end Sys2Proof.Machine
end

