-- ==== Sys2Proof/Laws/Rv64.lean ====
section
/-! SUPPORT. The round trip of the RV64 base instructions (07_encoding.md R121). -/
namespace Sys2Proof.Laws.RoundTrip

set_option Elab.async false
open Sys2Proof
set_option linter.unusedSimpArgs false

/-- The same of an RV64 base instruction. -/
def RvStatement (i : RvInstr) : Prop := (Instr.rv64Base i).wf = true → decodeStoker i.encode = .ok (.rv64Base i)

theorem utype_fields (imm : BitVec 20) (d : Reg) (op : BitVec 7) :
    fOp (imm ++ d ++ op) = op ∧ fRd (imm ++ d ++ op) = d ∧ (imm ++ d ++ op).extractLsb' 12 20 = imm := by
  refine ⟨?_, ?_, ?_⟩ <;> simp (disch := decide) [fOp, fRd, extract_lower, extract_upper]

theorem rv_lui (rd : Reg) (imm : BitVec 20) : RvStatement (.lui rd imm) := by
  intro _
  have ⟨h1, h2, h3⟩ := utype_fields imm rd 0x37#7
  simp [RvInstr.encode, decodeStoker, h1, h2, h3]

theorem rv_auipc (rd : Reg) (imm : BitVec 20) : RvStatement (.auipc rd imm) := by
  intro _
  have ⟨h1, h2, h3⟩ := utype_fields imm rd 0x17#7
  simp [RvInstr.encode, decodeStoker, h1, h2, h3]

theorem jump_join (imm : BitVec 20) :
    imm.extractLsb' 19 1 ++ imm.extractLsb' 11 8 ++ imm.extractLsb' 10 1 ++ imm.extractLsb' 0 10 = imm := by
  apply BitVec.eq_of_toNat_eq
  simp only [toNat_append, BitVec.extractLsb'_toNat, Nat.shiftRight_eq_div_pow]
  omega

theorem rv_jal (rd : Reg) (imm : BitVec 20) : RvStatement (.jal rd imm) := by
  intro _
  have h := jump_join imm
  simp (disch := decide) [RvInstr.encode, decodeStoker, fOp, fRd, fImmJ, extract_lower, extract_upper, h]

theorem rv_jalr (rd rs1 : Reg) (imm : BitVec 12) : RvStatement (.jalr rd rs1 imm) := by
  intro _
  show decodeStoker (itype imm rs1 0#3 rd 0x67#7) = _
  simp [decodeStoker]

theorem branch_join (imm : BitVec 12) :
    imm.extractLsb' 11 1 ++ imm.extractLsb' 10 1 ++ imm.extractLsb' 4 6 ++ imm.extractLsb' 0 4 = imm := by
  apply BitVec.eq_of_toNat_eq
  simp only [toNat_append, BitVec.extractLsb'_toNat, Nat.shiftRight_eq_div_pow]
  omega

theorem rv_branch (c : BrCond) (rs1 rs2 : Reg) (imm : BitVec 12) : RvStatement (.branch c rs1 rs2 imm) := by
  intro _
  have h := branch_join imm
  have hc : BrCond.ofCode c.code = some c := by cases c <;> rfl
  rw [decodeStoker_branch (by simp (disch := decide) [RvInstr.encode, fOp, extract_lower])]
  simp (disch := decide) [RvInstr.encode, decodeBranch, fImmB, fF3, fRs1, fRs2, extract_lower, extract_upper, h, hc]

theorem unary_none : ∀ op : AluOp, ∀ b : Reg, UnOp.ofEnc (if op.enc.1 then 0x3B#7 else 0x33#7, op.enc.2.1 ++ b, op.enc.2.2) = none := by
  intro op; cases op <;> decide

theorem fImmI_rtype (f7 : BitVec 7) (b a : Reg) (f3 : BitVec 3) (d : Reg) (op : BitVec 7) :
    fImmI (rtype f7 b a f3 d op) = f7 ++ b := by
  have h : rtype f7 b a f3 d op = itype (f7 ++ b) a f3 d op := rfl
  rw [h, fImmI_itype]

theorem rv_alu (op : AluOp) (rd rs1 rs2 : Reg) : RvStatement (.alu op rd rs1 rs2) := by
  intro _
  have hn := unary_none op rs2
  have ha : AluOp.ofEnc (op.enc.1, op.enc.2.1, op.enc.2.2) = some op := by cases op <;> rfl
  show decodeStoker (rtype op.enc.2.1 rs2 rs1 op.enc.2.2 rd (if op.enc.1 then 0x3B#7 else 0x33#7)) = _
  generalize op.enc.2.1 = f7, op.enc.2.2 = f3, op.enc.1 = w at *
  cases w
  · rw [if_neg (by decide)] at hn ⊢
    rw [decodeStoker_op (fOp_rtype ..)]
    simp [decodeOp, fImmI_rtype, hn, ha]
  · rw [if_pos rfl] at hn ⊢
    rw [decodeStoker_op32 (fOp_rtype ..)]
    simp [decodeOp, fImmI_rtype, hn, ha]

theorem rv_aluImm (op : ImmOp) (rd rs1 : Reg) (imm : BitVec 12) : RvStatement (.aluImm op rd rs1 imm) := by
  intro _
  show decodeStoker (itype imm rs1 op.enc.2 rd (if op.enc.1 then 0x1B#7 else 0x13#7)) = _
  cases op <;>
    first
    | (simp only [ImmOp.enc, Bool.false_eq_true, if_false]; rw [decodeStoker_opImm (fOp_itype ..)]
       simp [decodeOpImm, UnOp.ofEnc, UnOp.all, UnOp.enc, ShiftOp.ofEnc, ShiftOp.all, ShiftOp.enc, ImmOp.ofEnc, ImmOp.all, ImmOp.enc]; done)
    | (simp only [ImmOp.enc, if_true]; rw [decodeStoker_opImm32 (fOp_itype ..)]
       simp [decodeOpImm, UnOp.ofEnc, UnOp.all, UnOp.enc, ShiftOp.ofEnc, ShiftOp.all, ShiftOp.enc, ImmOp.ofEnc, ImmOp.all, ImmOp.enc]; done)

theorem rv_unary (op : UnOp) (rd rs1 : Reg) : RvStatement (.unary op rd rs1) := by
  intro _
  show decodeStoker (itype op.enc.2.1 rs1 op.enc.2.2 rd op.enc.1) = _
  have hu : UnOp.ofEnc (op.enc.1, op.enc.2.1, op.enc.2.2) = some op := by cases op <;> rfl
  have ho : op.enc.1 = 0x13#7 ∨ op.enc.1 = 0x1B#7 ∨ op.enc.1 = 0x3B#7 := by cases op <;> decide
  generalize op.enc.2.1 = f7, op.enc.2.2 = f3, op.enc.1 = w at *
  rcases ho with rfl | rfl | rfl
  · rw [decodeStoker_opImm (fOp_itype ..)]; simp [decodeOpImm, hu]
  · rw [decodeStoker_opImm32 (fOp_itype ..)]; simp [decodeOpImm, hu]
  · rw [decodeStoker_op32 (fOp_itype ..)]; simp [decodeOp, hu]

/-- The word of a shift. -/
theorem shift_fields (f6 sh : BitVec 6) (a : Reg) (f3 : BitVec 3) (d : Reg) (op : BitVec 7) :
    (itype (f6 ++ sh) a f3 d op).extractLsb' 26 6 = f6 ∧ (itype (f6 ++ sh) a f3 d op).extractLsb' 20 6 = sh := by
  constructor <;> simp (disch := decide) [itype, extract_lower, extract_upper]

theorem shift_unary_none : ∀ op : ShiftOp, ∀ sh : BitVec 6, shiftOk op sh = true →
    UnOp.ofEnc (if op.enc.1 then 0x1B#7 else 0x13#7, op.enc.2.1 ++ sh, op.enc.2.2) = none := by
  intro op; cases op <;> decide

theorem rv_shift (op : ShiftOp) (rd rs1 : Reg) (sh : BitVec 6) : RvStatement (.shift op rd rs1 sh) := by
  intro h
  have hn := shift_unary_none op sh h
  have hs : ShiftOp.ofEnc (op.enc.1, op.enc.2.1, op.enc.2.2) = some op := by cases op <;> rfl
  show decodeStoker (itype (op.enc.2.1 ++ sh) rs1 op.enc.2.2 rd (if op.enc.1 then 0x1B#7 else 0x13#7)) = _
  generalize op.enc.2.1 = f6, op.enc.2.2 = f3, op.enc.1 = w at *
  have ⟨h1, h2⟩ := shift_fields f6 sh rs1 f3 rd (if w then 0x1B#7 else 0x13#7)
  cases w
  · rw [if_neg (by decide)] at hn h1 h2 ⊢
    rw [decodeStoker_opImm (fOp_itype ..)]
    simp [decodeOpImm, hn, hs, h1, h2, checked, h]
  · rw [if_pos rfl] at hn h1 h2 ⊢
    rw [decodeStoker_opImm32 (fOp_itype ..)]
    simp [decodeOpImm, hn, hs, h1, h2, checked, h]

theorem rv_csrRead (op : CsrOp) (uimm : Bool) (rd : Reg) (csr : BitVec 12) : RvStatement (.csrRead op uimm rd csr) := by
  intro h
  have hw : csrWrites op 0#5 = false ∧ csr ≠ 0x804#12 ∧ csr ≠ 0x805#12 := by
    simp only [Instr.wf, RvInstr.wf, Bool.and_eq_true, Bool.not_eq_true', decide_eq_true_eq, Bool.or_eq_false_iff,
      decide_eq_false_iff_not] at h
    refine ⟨by simp [csrWrites, h.1], ?_, ?_⟩ <;> rintro rfl <;> simp at h
  show decodeStoker (itype csr 0#5 (csrFunct3 op uimm) rd 0x73#7) = _
  rw [decodeStoker_system (fOp_itype ..), decodeSystem_csr]
  simp [csrInstr, hw]

/-- The word of a floating-point operation. -/
theorem fp_fields (f5 : BitVec 5) (dbl : Bool) (b a : Reg) (rm : BitVec 3) (d : Reg) (op : BitVec 7) :
    let w := rtype (f5 ++ 0#1 ++ BitVec.ofBool dbl) b a rm d op
    w.extractLsb' 27 5 = f5 ∧ w.extractLsb' 26 1 = 0#1 ∧ w.extractLsb' 25 1 = BitVec.ofBool dbl := by
  refine ⟨?_, ?_, ?_⟩
  · rw [rtype_f5]; simp (disch := decide) [extract_upper]
  · rw [rtype_bit26]; simp (disch := decide) [extract_lower, extract_upper]
  · rw [rtype_bit25]; simp (disch := decide) [extract_lower]

theorem ofBool_one (b : Bool) : decide (BitVec.ofBool b = 1#1) = b := by cases b <;> rfl

theorem rv_fpArith (op : FpArith) (dbl : Bool) (rm : BitVec 3) (rd rs1 rs2 : Reg) :
    RvStatement (.fpArith op dbl rm rd rs1 rs2) := by
  intro h
  have ⟨h1, h2, h3⟩ := fp_fields op.code dbl rs2 rs1 rm rd 0x53#7
  show decodeStoker (rtype (op.code ++ 0#1 ++ BitVec.ofBool dbl) rs2 rs1 rm rd 0x53#7) = _
  rw [decodeStoker_fp (fOp_rtype ..)]
  cases op <;> (simp only [FpArith.code] at h1 h2 h3 ⊢) <;>
    (simp only [decodeFp, h1, h2, h3, fF3_rtype, fRd_rtype, fRs1_rtype, fRs2_rtype, ofBool_one]) <;> simp [FpArith.code, checked, h]

theorem rv_fpSqrt (dbl : Bool) (rm : BitVec 3) (rd rs1 : Reg) : RvStatement (.fpSqrt dbl rm rd rs1) := by
  intro h
  have ⟨h1, h2, h3⟩ := fp_fields 11#5 dbl 0#5 rs1 rm rd 0x53#7
  show decodeStoker (rtype (11#5 ++ 0#1 ++ BitVec.ofBool dbl) 0#5 rs1 rm rd 0x53#7) = _
  rw [decodeStoker_fp (fOp_rtype ..)]
  simp only [decodeFp, h1, h2, h3, fF3_rtype, fRd_rtype, fRs1_rtype, fRs2_rtype, ofBool_one]
  simp [checked, h]

theorem rv_fpCvt (dbl : Bool) (rm : BitVec 3) (rd rs1 : Reg) : RvStatement (.fpCvt dbl rm rd rs1) := by
  intro h
  have ⟨h1, h2, h3⟩ := fp_fields 8#5 dbl (if dbl then 0#5 else 1#5) rs1 rm rd 0x53#7
  show decodeStoker (rtype (8#5 ++ 0#1 ++ BitVec.ofBool dbl) (if dbl then 0#5 else 1#5) rs1 rm rd 0x53#7) = _
  rw [decodeStoker_fp (fOp_rtype ..)]
  simp only [decodeFp, h1, h2, h3, fF3_rtype, fRd_rtype, fRs1_rtype, fRs2_rtype, ofBool_one]
  simp [checked, h]

theorem rv_fpSel (op : FpSel) (dbl : Bool) (rd rs1 rs2 : Reg) : RvStatement (.fpSel op dbl rd rs1 rs2) := by
  intro h
  have ⟨h1, h2, h3⟩ := fp_fields op.enc.1 dbl rs2 rs1 op.enc.2 rd 0x53#7
  show decodeStoker (rtype (op.enc.1 ++ 0#1 ++ BitVec.ofBool dbl) rs2 rs1 op.enc.2 rd 0x53#7) = _
  rw [decodeStoker_fp (fOp_rtype ..)]
  cases op <;> (simp only [FpSel.enc] at h1 h2 h3 ⊢) <;>
    (simp only [decodeFp, h1, h2, h3, fF3_rtype, fRd_rtype, fRs1_rtype, fRs2_rtype, ofBool_one]) <;> simp [FpSel.enc, FpSel.ofEnc, FpSel.all, checked, h]

theorem rv_fpCmp (op : FpCmp) (dbl : Bool) (rd rs1 rs2 : Reg) : RvStatement (.fpCmp op dbl rd rs1 rs2) := by
  intro h
  have ⟨h1, h2, h3⟩ := fp_fields 20#5 dbl rs2 rs1 op.code rd 0x53#7
  show decodeStoker (rtype (20#5 ++ 0#1 ++ BitVec.ofBool dbl) rs2 rs1 op.code rd 0x53#7) = _
  rw [decodeStoker_fp (fOp_rtype ..)]
  cases op <;> (simp only [FpCmp.code] at h1 h2 h3 ⊢) <;>
    (simp only [decodeFp, h1, h2, h3, fF3_rtype, fRd_rtype, fRs1_rtype, fRs2_rtype, ofBool_one]) <;> simp [FpCmp.code, FpCmp.ofCode, FpCmp.all, checked, h]

theorem rv_fpClass (dbl : Bool) (rd rs1 : Reg) : RvStatement (.fpClass dbl rd rs1) := by
  intro h
  have ⟨h1, h2, h3⟩ := fp_fields 28#5 dbl 0#5 rs1 1#3 rd 0x53#7
  show decodeStoker (rtype (28#5 ++ 0#1 ++ BitVec.ofBool dbl) 0#5 rs1 1#3 rd 0x53#7) = _
  rw [decodeStoker_fp (fOp_rtype ..)]
  simp only [decodeFp, h1, h2, h3, fF3_rtype, fRd_rtype, fRs1_rtype, fRs2_rtype, ofBool_one]
  simp [checked, h]

theorem rv_fpMvToInt (dbl : Bool) (rd rs1 : Reg) : RvStatement (.fpMvToInt dbl rd rs1) := by
  intro h
  have ⟨h1, h2, h3⟩ := fp_fields 28#5 dbl 0#5 rs1 0#3 rd 0x53#7
  show decodeStoker (rtype (28#5 ++ 0#1 ++ BitVec.ofBool dbl) 0#5 rs1 0#3 rd 0x53#7) = _
  rw [decodeStoker_fp (fOp_rtype ..)]
  simp only [decodeFp, h1, h2, h3, fF3_rtype, fRd_rtype, fRs1_rtype, fRs2_rtype, ofBool_one]
  simp [checked, h]

theorem rv_intMvToFp (dbl : Bool) (rd rs1 : Reg) : RvStatement (.intMvToFp dbl rd rs1) := by
  intro h
  have ⟨h1, h2, h3⟩ := fp_fields 30#5 dbl 0#5 rs1 0#3 rd 0x53#7
  show decodeStoker (rtype (30#5 ++ 0#1 ++ BitVec.ofBool dbl) 0#5 rs1 0#3 rd 0x53#7) = _
  rw [decodeStoker_fp (fOp_rtype ..)]
  simp only [decodeFp, h1, h2, h3, fF3_rtype, fRd_rtype, fRs1_rtype, fRs2_rtype, ofBool_one]
  simp [checked, h]

theorem rv_fpToInt (ty : IntTy) (dbl : Bool) (rm : BitVec 3) (rd rs1 : Reg) : RvStatement (.fpToInt ty dbl rm rd rs1) := by
  intro h
  have ⟨h1, h2, h3⟩ := fp_fields 24#5 dbl ty.code rs1 rm rd 0x53#7
  show decodeStoker (rtype (24#5 ++ 0#1 ++ BitVec.ofBool dbl) ty.code rs1 rm rd 0x53#7) = _
  rw [decodeStoker_fp (fOp_rtype ..)]
  cases ty <;> (simp only [IntTy.code] at h1 h2 h3 ⊢) <;>
    (simp only [decodeFp, h1, h2, h3, fF3_rtype, fRd_rtype, fRs1_rtype, fRs2_rtype, ofBool_one]) <;> simp [IntTy.code, IntTy.ofCode, IntTy.all, checked, h]

theorem rv_intToFp (ty : IntTy) (dbl : Bool) (rm : BitVec 3) (rd rs1 : Reg) : RvStatement (.intToFp ty dbl rm rd rs1) := by
  intro h
  have ⟨h1, h2, h3⟩ := fp_fields 26#5 dbl ty.code rs1 rm rd 0x53#7
  show decodeStoker (rtype (26#5 ++ 0#1 ++ BitVec.ofBool dbl) ty.code rs1 rm rd 0x53#7) = _
  rw [decodeStoker_fp (fOp_rtype ..)]
  cases ty <;> (simp only [IntTy.code] at h1 h2 h3 ⊢) <;>
    (simp only [decodeFp, h1, h2, h3, fF3_rtype, fRd_rtype, fRs1_rtype, fRs2_rtype, ofBool_one]) <;> simp [IntTy.code, IntTy.ofCode, IntTy.all, checked, h]

theorem rv_fpFma (op : FpFma) (dbl : Bool) (rm : BitVec 3) (rd rs1 rs2 rs3 : Reg) :
    RvStatement (.fpFma op dbl rm rd rs1 rs2 rs3) := by
  intro h
  show decodeStoker (rtype (rs3 ++ 0#1 ++ BitVec.ofBool dbl) rs2 rs1 rm rd op.op) = _
  have ⟨h1, h2, h3⟩ := fp_fields rs3 dbl rs2 rs1 rm rd op.op
  cases op <;> (simp only [FpFma.op] at h1 h2 h3 ⊢) <;>
    simp [decodeStoker, decodeFma, h1, h2, h3, ofBool_one, checked, h]

/-- Every RV64 base instruction's word decodes to it. -/
theorem rv_all (i : RvInstr) : RvStatement i := by
  cases i with
  | lui rd imm => exact rv_lui rd imm
  | auipc rd imm => exact rv_auipc rd imm
  | jal rd imm => exact rv_jal rd imm
  | jalr rd rs1 imm => exact rv_jalr rd rs1 imm
  | branch c rs1 rs2 imm => exact rv_branch c rs1 rs2 imm
  | alu op rd rs1 rs2 => exact rv_alu op rd rs1 rs2
  | aluImm op rd rs1 imm => exact rv_aluImm op rd rs1 imm
  | shift op rd rs1 sh => exact rv_shift op rd rs1 sh
  | unary op rd rs1 => exact rv_unary op rd rs1
  | csrRead op uimm rd csr => exact rv_csrRead op uimm rd csr
  | ecall => intro _; rfl
  | ebreak => intro _; rfl
  | mret => intro _; rfl
  | fpArith op dbl rm rd rs1 rs2 => exact rv_fpArith op dbl rm rd rs1 rs2
  | fpSqrt dbl rm rd rs1 => exact rv_fpSqrt dbl rm rd rs1
  | fpFma op dbl rm rd rs1 rs2 rs3 => exact rv_fpFma op dbl rm rd rs1 rs2 rs3
  | fpSel op dbl rd rs1 rs2 => exact rv_fpSel op dbl rd rs1 rs2
  | fpCmp op dbl rd rs1 rs2 => exact rv_fpCmp op dbl rd rs1 rs2
  | fpClass dbl rd rs1 => exact rv_fpClass dbl rd rs1
  | fpToInt ty dbl rm rd rs1 => exact rv_fpToInt ty dbl rm rd rs1
  | intToFp ty dbl rm rd rs1 => exact rv_intToFp ty dbl rm rd rs1
  | fpCvt toDbl rm rd rs1 => exact rv_fpCvt toDbl rm rd rs1
  | fpMvToInt dbl rd rs1 => exact rv_fpMvToInt dbl rd rs1
  | intMvToFp dbl rd rs1 => exact rv_intMvToFp dbl rd rs1
end Sys2Proof.Laws.RoundTrip
end

