-- ==== Sys2Proof/Laws/PerInstr.lean ====
section
/-! SUPPORT. The round trip, instruction by instruction: a well-formed instruction's word decodes to it
(07_encoding.md R114 to R135). -/
namespace Sys2Proof.Laws.RoundTrip

set_option Elab.async false
open Sys2Proof

set_option linter.unusedSimpArgs false

/-- The word of a well-formed instruction, where it has one, decodes to the instruction. -/
def Statement (i : Instr) : Prop := i.wf = true → ∀ w, encode i = some w → decodeWord w = .ok i

theorem vxRun (b a) : Statement (.vxRun b a) := by
  intro h x hx
  cases hx
  simp (disch := decide) [decodeWord, decodeStoker, decodeCustom0, zeroed, checked, h, extract_lower, extract_upper]

theorem mxRun (b a) : Statement (.mxRun b a) := by
  intro h x hx
  cases hx
  simp (disch := decide) [decodeWord, decodeStoker, decodeCustom0, decodeMxPush, zeroed, checked, h, extract_lower, extract_upper]

theorem mxPushw (b a) : Statement (.mxPushw b a) := by
  intro h x hx
  cases hx
  simp (disch := decide) [decodeWord, decodeStoker, decodeCustom0, decodeMxPush, zeroed, checked, h, extract_lower, extract_upper]

theorem mxMmaInline (n d b a c) : Statement (.mxMmaInline n d b a c) := by
  intro h x hx
  cases hx
  have h1 : ∀ n d : BitVec 1, 0#5 ++ n ++ d ≠ 125#7 ∧ 0#5 ++ n ++ d ≠ 124#7 := by decide
  simp (disch := decide) [decodeWord, decodeStoker, decodeCustom0, decodeMxPush, checked, h, h1 n d, extract_lower, extract_upper]

theorem mxClaimInline (s) : Statement (.mxClaimInline s) := by
  intro h x hx
  cases hx
  simp (disch := decide) [decodeWord, decodeStoker, decodeCustom0, decodeMxPush, zeroed, checked, h, extract_lower, extract_upper]

theorem mxReleaseInline (s) : Statement (.mxReleaseInline s) := by
  intro h x hx
  cases hx
  simp (disch := decide) [decodeWord, decodeStoker, decodeCustom0, decodeMxPush, zeroed, checked, h, extract_lower, extract_upper]

theorem mxTinitInline (c) : Statement (.mxTinitInline c) := by
  intro h x hx
  cases hx
  simp (disch := decide) [decodeWord, decodeStoker, decodeCustom0, decodeMxPush, zeroed, checked, h, extract_lower, extract_upper]

theorem cxCopy (a d) : Statement (.cxCopy a d) := by
  intro h x hx
  cases hx
  simp (disch := decide) [decodeWord, decodeStoker, decodeCustom0, zeroed, checked, h, extract_lower, extract_upper]

theorem cxCopy2 (a d) : Statement (.cxCopy2 a d) := by
  intro h x hx
  cases hx
  simp (disch := decide) [decodeWord, decodeStoker, decodeCustom0, zeroed, checked, h, extract_lower, extract_upper]

theorem cxPeer (a d) : Statement (.cxPeer a d) := by
  intro h x hx
  cases hx
  simp (disch := decide) [decodeWord, decodeStoker, decodeCustom0, zeroed, checked, h, extract_lower, extract_upper]

theorem cxFill (a d) : Statement (.cxFill a d) := by
  intro h x hx
  cases hx
  simp (disch := decide) [decodeWord, decodeStoker, decodeCustom0, zeroed, checked, h, extract_lower, extract_upper]

theorem cxRing (a d) : Statement (.cxRing a d) := by
  intro h x hx
  cases hx
  simp (disch := decide) [decodeWord, decodeStoker, decodeCustom0, zeroed, checked, h, extract_lower, extract_upper]

theorem cxPretr (a d) : Statement (.cxPretr a d) := by
  intro h x hx
  cases hx
  simp (disch := decide) [decodeWord, decodeStoker, decodeCustom0, zeroed, checked, h, extract_lower, extract_upper]

theorem cxFlush (a d) : Statement (.cxFlush a d) := by
  intro h x hx
  cases hx
  simp (disch := decide) [decodeWord, decodeStoker, decodeCustom0, zeroed, checked, h, extract_lower, extract_upper]

theorem cxCancel (a) : Statement (.cxCancel a) := by
  intro h x hx
  cases hx
  simp (disch := decide) [decodeWord, decodeStoker, decodeCustom0, zeroed, checked, h, extract_lower, extract_upper]

theorem cxWait (a d) : Statement (.cxWait a d) := by
  intro h x hx
  cases hx
  simp (disch := decide) [decodeWord, decodeStoker, decodeCustom0, zeroed, checked, h, extract_lower, extract_upper]

theorem cxTest (a d) : Statement (.cxTest a d) := by
  intro h x hx
  cases hx
  simp (disch := decide) [decodeWord, decodeStoker, decodeCustom0, zeroed, checked, h, extract_lower, extract_upper]

theorem gxGather (a) : Statement (.gxGather a) := by
  intro h x hx
  cases hx
  simp (disch := decide) [decodeWord, decodeStoker, decodeCustom0, zeroed, checked, h, extract_lower, extract_upper]

theorem gxBag (a) : Statement (.gxBag a) := by
  intro h x hx
  cases hx
  simp (disch := decide) [decodeWord, decodeStoker, decodeCustom0, zeroed, checked, h, extract_lower, extract_upper]

theorem gxScadd (a) : Statement (.gxScadd a) := by
  intro h x hx
  cases hx
  simp (disch := decide) [decodeWord, decodeStoker, decodeCustom0, zeroed, checked, h, extract_lower, extract_upper]

theorem gxCount (a) : Statement (.gxCount a) := by
  intro h x hx
  cases hx
  simp (disch := decide) [decodeWord, decodeStoker, decodeCustom0, zeroed, checked, h, extract_lower, extract_upper]

theorem fxPass (a) : Statement (.fxPass a) := by
  intro h x hx
  cases hx
  simp (disch := decide) [decodeWord, decodeStoker, decodeCustom0, zeroed, checked, h, extract_lower, extract_upper]

theorem fxCfg (a) : Statement (.fxCfg a) := by
  intro h x hx
  cases hx
  simp (disch := decide) [decodeWord, decodeStoker, decodeCustom0, zeroed, checked, h, extract_lower, extract_upper]

theorem clAllred (a) : Statement (.clAllred a) := by
  intro h x hx
  cases hx
  simp (disch := decide) [decodeWord, decodeStoker, decodeCustom0, zeroed, checked, h, extract_lower, extract_upper]

theorem clRedsc (a) : Statement (.clRedsc a) := by
  intro h x hx
  cases hx
  simp (disch := decide) [decodeWord, decodeStoker, decodeCustom0, zeroed, checked, h, extract_lower, extract_upper]

theorem clAllgat (a) : Statement (.clAllgat a) := by
  intro h x hx
  cases hx
  simp (disch := decide) [decodeWord, decodeStoker, decodeCustom0, zeroed, checked, h, extract_lower, extract_upper]

theorem clBcast (a) : Statement (.clBcast a) := by
  intro h x hx
  cases hx
  simp (disch := decide) [decodeWord, decodeStoker, decodeCustom0, zeroed, checked, h, extract_lower, extract_upper]

theorem clBarrier (t s) : Statement (.clBarrier t s) := by
  intro h x hx
  cases hx
  simp (disch := decide) [decodeWord, decodeStoker, decodeCustom0, zeroed, checked, h, extract_lower, extract_upper]

theorem ringTake (n d) : Statement (.ringTake n d) := by
  intro h x hx
  cases hx
  simp (disch := decide) [decodeWord, decodeStoker, decodeCustom0, zeroed, checked, h, extract_lower, extract_upper]

theorem ringGive (n) : Statement (.ringGive n) := by
  intro h x hx
  cases hx
  simp (disch := decide) [decodeWord, decodeStoker, decodeCustom0, zeroed, checked, h, extract_lower, extract_upper]

theorem ringStat (n d) : Statement (.ringStat n d) := by
  intro h x hx
  cases hx
  simp (disch := decide) [decodeWord, decodeStoker, decodeCustom0, zeroed, checked, h, extract_lower, extract_upper]

theorem skBuffmtA (f b a g) : Statement (.skBuffmtA f b a g) := by
  intro h x hx
  cases hx
  have hf : (0 : Nat) ≠ (2#2 ++ f).toNat ∧ 1 ≠ (2#2 ++ f).toNat ∧ 2 ≠ (2#2 ++ f).toNat := by
    rw [toNat_append]
    simp
    omega
  simp only [decodeWord, decodeStoker, decodeCustom0, fOp_rtype, fF3_rtype, fF7_rtype, fRs1_rtype, fRs2_rtype, fRd_rtype]
  generalize (2#2 ++ f).toNat = k at hf
  simp (disch := decide) [checked, h, extract_lower, extract_upper]
  split <;> simp_all

theorem skBuffmtW (f b a g) : Statement (.skBuffmtW f b a g) := by
  intro h x hx
  cases hx
  have hf : (0 : Nat) ≠ (3#2 ++ f).toNat ∧ 1 ≠ (3#2 ++ f).toNat ∧ 2 ≠ (3#2 ++ f).toNat := by
    rw [toNat_append]
    simp
    omega
  simp only [decodeWord, decodeStoker, decodeCustom0, fOp_rtype, fF3_rtype, fF7_rtype, fRs1_rtype, fRs2_rtype, fRd_rtype]
  generalize (3#2 ++ f).toNat = k at hf
  simp (disch := decide) [checked, h, extract_lower, extract_upper]
  split <;> simp_all

theorem skFence (m c e d k) : Statement (.skFence m c e d k) := by
  intro h x hx
  cases hx
  simp (disch := decide) [decodeWord, decodeStoker, decodeCustom1, zeroed, checked, h, extract_lower, extract_upper]

theorem skMark (c e a k) : Statement (.skMark c e a k) := by
  intro h x hx
  cases hx
  simp (disch := decide) [decodeWord, decodeStoker, decodeCustom1, zeroed, checked, h, extract_lower, extract_upper]

theorem skRdvwait (k) : Statement (.skRdvwait k) := by
  intro h x hx
  cases hx
  simp (disch := decide) [decodeWord, decodeStoker, decodeCustom1, zeroed, checked, h, extract_lower, extract_upper]

theorem skRdvtest (k d) : Statement (.skRdvtest k d) := by
  intro h x hx
  cases hx
  simp (disch := decide) [decodeWord, decodeStoker, decodeCustom1, zeroed, checked, h, extract_lower, extract_upper]

theorem skWfe (d) : Statement (.skWfe d) := by
  intro h x hx
  cases hx
  simp (disch := decide) [decodeWord, decodeStoker, decodeCustom1, zeroed, checked, h, extract_lower, extract_upper]

theorem skSev (m) : Statement (.skSev m) := by
  intro h x hx
  cases hx
  simp (disch := decide) [decodeWord, decodeStoker, decodeCustom1, zeroed, checked, h, extract_lower, extract_upper]

theorem skSend (a m) : Statement (.skSend a m) := by
  intro h x hx
  cases hx
  simp (disch := decide) [decodeWord, decodeStoker, decodeCustom1, zeroed, checked, h, extract_lower, extract_upper]

theorem skRecv (d) : Statement (.skRecv d) := by
  intro h x hx
  cases hx
  simp (disch := decide) [decodeWord, decodeStoker, decodeCustom1, zeroed, checked, h, extract_lower, extract_upper]

theorem dqPush (a d) : Statement (.dqPush a d) := by
  intro h x hx
  cases hx
  simp (disch := decide) [decodeWord, decodeStoker, decodeCustom1, zeroed, checked, h, extract_lower, extract_upper]

theorem dqPop (d) : Statement (.dqPop d) := by
  intro h x hx
  cases hx
  simp (disch := decide) [decodeWord, decodeStoker, decodeCustom1, zeroed, checked, h, extract_lower, extract_upper]

theorem dqSteal (d) : Statement (.dqSteal d) := by
  intro h x hx
  cases hx
  simp (disch := decide) [decodeWord, decodeStoker, decodeCustom1, zeroed, checked, h, extract_lower, extract_upper]

theorem dqExport (n) : Statement (.dqExport n) := by
  intro h x hx
  cases hx
  simp (disch := decide) [decodeWord, decodeStoker, decodeCustom1, zeroed, checked, h, extract_lower, extract_upper]

theorem feedPop (a d) : Statement (.feedPop a d) := by
  intro h x hx
  cases hx
  simp (disch := decide) [decodeWord, decodeStoker, decodeCustom1, zeroed, checked, h, extract_lower, extract_upper]

theorem skBudget (d) : Statement (.skBudget d) := by
  intro h x hx
  cases hx
  simp (disch := decide) [decodeWord, decodeStoker, decodeCustom1, zeroed, checked, h, extract_lower, extract_upper]

theorem abAmoadd (w b a d) : Statement (.abAmoadd w b a d) := by
  intro h x hx
  cases hx
  simp (disch := decide) [decodeWord, decodeStoker, decodeCustom1, decodeAbAmo, AmoOp.code, zeroed, checked, h, extract_lower, extract_upper]

theorem abAmoswap (w b a d) : Statement (.abAmoswap w b a d) := by
  intro h x hx
  cases hx
  simp (disch := decide) [decodeWord, decodeStoker, decodeCustom1, decodeAbAmo, AmoOp.code, zeroed, checked, h, extract_lower, extract_upper]

theorem abAmoxor (w b a d) : Statement (.abAmoxor w b a d) := by
  intro h x hx
  cases hx
  simp (disch := decide) [decodeWord, decodeStoker, decodeCustom1, decodeAbAmo, AmoOp.code, zeroed, checked, h, extract_lower, extract_upper]

theorem abAmoor (w b a d) : Statement (.abAmoor w b a d) := by
  intro h x hx
  cases hx
  simp (disch := decide) [decodeWord, decodeStoker, decodeCustom1, decodeAbAmo, AmoOp.code, zeroed, checked, h, extract_lower, extract_upper]

theorem abAmoand (w b a d) : Statement (.abAmoand w b a d) := by
  intro h x hx
  cases hx
  simp (disch := decide) [decodeWord, decodeStoker, decodeCustom1, decodeAbAmo, AmoOp.code, zeroed, checked, h, extract_lower, extract_upper]

theorem abAmomin (w b a d) : Statement (.abAmomin w b a d) := by
  intro h x hx
  cases hx
  simp (disch := decide) [decodeWord, decodeStoker, decodeCustom1, decodeAbAmo, AmoOp.code, zeroed, checked, h, extract_lower, extract_upper]

theorem abAmomax (w b a d) : Statement (.abAmomax w b a d) := by
  intro h x hx
  cases hx
  simp (disch := decide) [decodeWord, decodeStoker, decodeCustom1, decodeAbAmo, AmoOp.code, zeroed, checked, h, extract_lower, extract_upper]

theorem abAmominu (w b a d) : Statement (.abAmominu w b a d) := by
  intro h x hx
  cases hx
  simp (disch := decide) [decodeWord, decodeStoker, decodeCustom1, decodeAbAmo, AmoOp.code, zeroed, checked, h, extract_lower, extract_upper]

theorem abAmomaxu (w b a d) : Statement (.abAmomaxu w b a d) := by
  intro h x hx
  cases hx
  simp (disch := decide) [decodeWord, decodeStoker, decodeCustom1, decodeAbAmo, AmoOp.code, zeroed, checked, h, extract_lower, extract_upper]

theorem skSvc (a d) : Statement (.skSvc a d) := by
  intro h x hx
  cases hx
  simp (disch := decide) [decodeWord, decodeStoker, decodeCustom1, zeroed, checked, h, extract_lower, extract_upper]

theorem skLend (a d) : Statement (.skLend a d) := by
  intro h x hx
  cases hx
  simp (disch := decide) [decodeWord, decodeStoker, decodeCustom1, zeroed, checked, h, extract_lower, extract_upper]

theorem abLoad (c u b a w d) : Statement (.abLoad c u b a w d) := by
  intro h x hx
  cases hx
  simp (disch := decide) [decodeWord, decodeStoker, decodeCustom2, custom2, zeroed, checked, h, extract_lower, extract_upper]

theorem abStore (c b a w) : Statement (.abStore c b a w) := by
  intro h x hx
  cases hx
  simp (disch := decide) [decodeWord, decodeStoker, decodeCustom2, custom2, zeroed, checked, h, extract_lower, extract_upper]

theorem wbLoad (c u b a w d) : Statement (.wbLoad c u b a w d) := by
  intro h x hx
  cases hx
  simp (disch := decide) [decodeWord, decodeStoker, decodeCustom2, custom2, zeroed, checked, h, extract_lower, extract_upper]

theorem wbStore (c b a w) : Statement (.wbStore c b a w) := by
  intro h x hx
  cases hx
  simp (disch := decide) [decodeWord, decodeStoker, decodeCustom2, custom2, zeroed, checked, h, extract_lower, extract_upper]

theorem skClLoad (c u b a w d) : Statement (.skClLoad c u b a w d) := by
  intro h x hx
  cases hx
  simp (disch := decide) [decodeWord, decodeStoker, decodeCustom2, custom2, zeroed, checked, h, extract_lower, extract_upper]

theorem skCsStore (c b a w) : Statement (.skCsStore c b a w) := by
  intro h x hx
  cases hx
  simp (disch := decide) [decodeWord, decodeStoker, decodeCustom2, custom2, zeroed, checked, h, extract_lower, extract_upper]

theorem skShape (a s) : Statement (.skShape a s) := by
  intro h x hx
  cases hx
  simp (disch := decide) [decodeWord, decodeStoker, decodeCustom3, zeroed, checked, h, extract_lower, extract_upper]

theorem skView (h s v) : Statement (.skView h s v) := by
  intro h x hx
  cases hx
  simp (disch := decide) [decodeWord, decodeStoker, decodeCustom3, zeroed, checked, h, extract_lower, extract_upper]

theorem skTgeom (a c) : Statement (.skTgeom a c) := by
  intro h x hx
  cases hx
  simp (disch := decide) [decodeWord, decodeStoker, decodeCustom3, zeroed, checked, h, extract_lower, extract_upper]

theorem skRfcl (n) : Statement (.skRfcl n) := by
  intro h x hx
  cases hx
  simp (disch := decide) [decodeWord, decodeStoker, decodeCustom3, zeroed, checked, h, extract_lower, extract_upper]

theorem ringCfg (b a n) : Statement (.ringCfg b a n) := by
  intro h x hx
  cases hx
  simp (disch := decide) [decodeWord, decodeStoker, decodeCustom3, zeroed, checked, h, extract_lower, extract_upper]

theorem skVariant (c a d) : Statement (.skVariant c a d) := by
  intro h x hx
  cases hx
  simp (disch := decide) [decodeWord, decodeStoker, decodeCustom3, zeroed, checked, h, extract_lower, extract_upper]

theorem fence (fm pred succ rs1 rd) : Statement (.fence fm pred succ rs1 rd) := by
  intro h x hx
  cases hx
  show decodeStoker (itype (fm ++ pred ++ succ) rs1 0#3 rd 0x0F#7) = _
  rw [decodeStoker_miscMem (fOp_itype ..)]
  simp (disch := decide) [decodeMiscMem, itype, fF3, fRs1, fRd, extract_lower, extract_upper]

theorem rv64Load (k rd rs1 imm) : Statement (.rv64Load k rd rs1 imm) := by
  intro h x hx
  cases hx
  show decodeStoker (itype imm rs1 k.enc.2 rd (if k.enc.1 then 0x07#7 else 0x03#7)) = _
  cases k <;>
    first
    | (simp only [LoadKind.enc, Bool.false_eq_true, if_true, if_false]; rw [decodeStoker_load (fOp_itype ..)]; simp [decodeLoad, LoadKind.ofEnc, LoadKind.all, LoadKind.enc]; done)
    | (simp only [LoadKind.enc, Bool.false_eq_true, if_true, if_false]; rw [decodeStoker_loadFp (fOp_itype ..)]; simp [decodeLoad, LoadKind.ofEnc, LoadKind.all, LoadKind.enc]; done)

theorem rv64Store (k rs2 rs1 imm) : Statement (.rv64Store k rs2 rs1 imm) := by
  intro h x hx
  cases hx
  have hi : imm.extractLsb' 5 7 ++ imm.extractLsb' 0 5 = imm := by rw [split_append]
  show decodeStoker (rtype (imm.extractLsb' 5 7) rs2 rs1 k.enc.2 (imm.extractLsb' 0 5) (if k.enc.1 then 0x27#7 else 0x23#7)) = _
  cases k <;>
    first
    | (simp only [StoreKind.enc, Bool.false_eq_true, if_true, if_false]; rw [decodeStoker_store (fOp_rtype ..)]; simp [decodeStore, fImmS, hi, StoreKind.ofEnc, StoreKind.all, StoreKind.enc]; done)
    | (simp only [StoreKind.enc, Bool.false_eq_true, if_true, if_false]; rw [decodeStoker_storeFp (fOp_rtype ..)]; simp [decodeStore, fImmS, hi, StoreKind.ofEnc, StoreKind.all, StoreKind.enc]; done)

theorem amo (op dbl aq rl rd rs1 rs2) : Statement (.amo op dbl aq rl rd rs1 rs2) := by
  intro h x hx
  cases hx
  show decodeStoker (rtype (op.code ++ BitVec.ofBool aq ++ BitVec.ofBool rl) rs2 rs1 (if dbl then 3#3 else 2#3) rd 0x2F#7) = _
  rw [decodeStoker_amo (fOp_rtype ..)]
  cases op <;> cases dbl <;> cases aq <;> cases rl <;>
    simp (disch := decide) [decodeAmo, rtype_f5, rtype_bit26, rtype_bit25, AmoOp.ofCode, AmoOp.all, AmoOp.code, extract_lower, extract_upper]

theorem lr (dbl aq rl rd rs1) : Statement (.lr dbl aq rl rd rs1) := by
  intro h x hx
  cases hx
  show decodeStoker (rtype (2#5 ++ BitVec.ofBool aq ++ BitVec.ofBool rl) 0#5 rs1 (if dbl then 3#3 else 2#3) rd 0x2F#7) = _
  rw [decodeStoker_amo (fOp_rtype ..)]
  cases dbl <;> cases aq <;> cases rl <;>
    simp (disch := decide) [decodeAmo, rtype_f5, rtype_bit26, rtype_bit25, extract_lower, extract_upper]

theorem sc (dbl aq rl rd rs1 rs2) : Statement (.sc dbl aq rl rd rs1 rs2) := by
  intro h x hx
  cases hx
  show decodeStoker (rtype (3#5 ++ BitVec.ofBool aq ++ BitVec.ofBool rl) rs2 rs1 (if dbl then 3#3 else 2#3) rd 0x2F#7) = _
  rw [decodeStoker_amo (fOp_rtype ..)]
  cases dbl <;> cases aq <;> cases rl <;>
    simp (disch := decide) [decodeAmo, rtype_f5, rtype_bit26, rtype_bit25, extract_lower, extract_upper]

theorem sfenceVma (rs1 rs2) : Statement (.sfenceVma rs1 rs2) := by
  intro h x hx
  cases hx
  have hk : ∀ v : BitVec 32, fF7 v ≠ 9#7 → rtype 9#7 rs2 rs1 0#3 0#5 115#7 ≠ v := by
    rintro v hv rfl
    simp at hv
  rw [decodeWord, decodeStoker_system (fOp_rtype ..)]
  simp [decodeSystem, hk _ (by decide : fF7 0x00000073#32 ≠ 9#7), hk _ (by decide : fF7 0x00100073#32 ≠ 9#7),
    hk _ (by decide : fF7 0x10200073#32 ≠ 9#7), hk _ (by decide : fF7 0x30200073#32 ≠ 9#7),
    hk _ (by decide : fF7 0x10500073#32 ≠ 9#7)]

theorem csrWrite (op uimm rd rs1 csr) : Statement (.csrWrite op uimm rd rs1 csr) := by
  intro h x hx
  cases hx
  have hw : csrWrites op rs1 = true ∧ csr ≠ 0x802#12 ∧ csr ≠ 0x803#12 ∧ csr ≠ 0x804#12 ∧ csr ≠ 0x805#12 := by
    simp only [Instr.wf, Bool.and_eq_true, csrRow, Bool.not_eq_true', Bool.or_eq_false_iff, decide_eq_false_iff_not] at h
    refine ⟨h.1, ?_, ?_, ?_, ?_⟩ <;> rintro rfl <;> simp at h
  show decodeStoker (itype csr rs1 (csrFunct3 op uimm) rd 0x73#7) = _
  rw [decodeStoker_system (fOp_itype ..), decodeSystem_csr]
  simp [csrInstr, hw]

theorem yeventWrite (op uimm rd rs1) : Statement (.yeventWrite op uimm rd rs1) := by
  intro h x hx
  cases hx
  have hw : csrWrites op rs1 = true := h
  show decodeStoker (itype 0x802#12 rs1 (csrFunct3 op uimm) rd 0x73#7) = _
  rw [decodeStoker_system (fOp_itype ..), decodeSystem_csr]
  simp [csrInstr, hw]

theorem ywmWrite (op uimm rd rs1) : Statement (.ywmWrite op uimm rd rs1) := by
  intro h x hx
  cases hx
  have hw : csrWrites op rs1 = true := h
  show decodeStoker (itype 0x803#12 rs1 (csrFunct3 op uimm) rd 0x73#7) = _
  rw [decodeStoker_system (fOp_itype ..), decodeSystem_csr]
  simp [csrInstr, hw]

theorem ymxstAccess (op uimm rd rs1) : Statement (.ymxstAccess op uimm rd rs1) := by
  intro _ x hx
  cases hx
  show decodeStoker (itype 0x804#12 rs1 (csrFunct3 op uimm) rd 0x73#7) = _
  rw [decodeStoker_system (fOp_itype ..), decodeSystem_csr]
  simp [csrInstr]

theorem ydxstAccess (op uimm rd rs1) : Statement (.ydxstAccess op uimm rd rs1) := by
  intro _ x hx
  cases hx
  show decodeStoker (itype 0x805#12 rs1 (csrFunct3 op uimm) rd 0x73#7) = _
  rw [decodeStoker_system (fOp_itype ..), decodeSystem_csr]
  simp [csrInstr]

theorem pendingRegisterWrite (k) : Statement (.pendingRegisterWrite k) := by
  intro _ x hx
  cases hx

theorem trapEntry (cause tval info) : Statement (.trapEntry cause tval info) := by
  intro _ x hx
  cases hx

theorem vxMoveShort (e d s r) : Statement (.vxMoveShort e d s r) := by
  intro h x hx
  cases hx
  have hp : portsOk d s = true ∧ ¬(d = 63#6 ∧ s = 50#6) := by
    simp only [Instr.wf, Bool.and_eq_true, Bool.not_eq_true', Bool.and_eq_false_iff, decide_eq_false_iff_not] at h
    exact ⟨h.1, fun e => by rcases h.2 with k | k <;> simp [e] at k⟩
  simp (disch := decide) [decodeWord, decodeVxHalf, vshort, checked, h, hp, extract_lower, extract_upper]

theorem vxMoveLong (e d s r g i o) : Statement (.vxMoveLong e d s r g i o) := by
  intro h x hx
  cases hx
  have ho : o = 0#8 := by
    simp only [Instr.wf, Bool.and_eq_true, decide_eq_true_eq] at h
    exact BitVec.eq_of_toNat_eq h.2
  subst ho
  simp only [Instr.wf, Bool.and_eq_true, Bool.not_eq_true'] at h
  have h9 : ¬(d.toNat = 9 ∨ d.toNat = 12) := by
    intro k
    have := h.1.2
    rcases k with k | k <;> simp [portTriggers, k] at this
  simp [decodeWord, decodeVxFull_vlong, checked, Instr.wf, h, h9]

theorem vxNop (e r) : Statement (.vxNop e r) := by
  intro h x hx
  cases hx
  simp (disch := decide) [decodeWord, decodeVxHalf, vshort, extract_lower, extract_upper]

theorem vxRfcl (r g i n) : Statement (.vxRfcl r g i n) := by
  intro h x hx
  cases hx
  rw [decodeWord, decodeVxFull_vlong]
  have ho : ∀ n : BitVec 3, 2#5 ++ n ≠ 0#8 := by decide
  have hp : portsOk 63#6 50#6 = true ∧ portTriggers 63#6 = false := by decide
  simp (disch := decide) [checked, h, hp, ho n, extract_lower, extract_upper]

theorem vaAdd (e d s r g i t m) : Statement (.vaAdd e d s r g i t m) := by
  intro h x hx
  cases hx
  have hp : vaPort d = true ∧ portReads s = true := by simp [Instr.wf, vaArithOk, vaSelOk, vaBitOk, vfOk, vcOk, ldOk, anyTyOk, lrdSumOk] at h; simp [h]
  have ht : t ≠ 6#3 := by rintro rfl; simp [Instr.wf, vaArithOk, vaSelOk, vaBitOk, vfOk, vcOk, ldOk, anyTyOk, lrdSumOk, tyFloat, tyInt] at h
  rw [decodeWord, decodeVxFull_va e r g i _ hp.1 hp.2]
  simp (disch := decide) [decodeVa, checked, h, ht, extract_lower, extract_upper]

theorem vaSub (e d s r g i t m) : Statement (.vaSub e d s r g i t m) := by
  intro h x hx
  cases hx
  have hp : vaPort d = true ∧ portReads s = true := by simp [Instr.wf, vaArithOk, vaSelOk, vaBitOk, vfOk, vcOk, ldOk, anyTyOk, lrdSumOk] at h; simp [h]
  have ht : t ≠ 6#3 := by rintro rfl; simp [Instr.wf, vaArithOk, vaSelOk, vaBitOk, vfOk, vcOk, ldOk, anyTyOk, lrdSumOk, tyFloat, tyInt] at h
  rw [decodeWord, decodeVxFull_va e r g i _ hp.1 hp.2]
  simp (disch := decide) [decodeVa, checked, h, ht, extract_lower, extract_upper]

theorem vaMul (e d s r g i t m) : Statement (.vaMul e d s r g i t m) := by
  intro h x hx
  cases hx
  have hp : vaPort d = true ∧ portReads s = true := by simp [Instr.wf, vaArithOk, vaSelOk, vaBitOk, vfOk, vcOk, ldOk, anyTyOk, lrdSumOk] at h; simp [h]
  have ht : t ≠ 6#3 := by rintro rfl; simp [Instr.wf, vaArithOk, vaSelOk, vaBitOk, vfOk, vcOk, ldOk, anyTyOk, lrdSumOk, tyFloat, tyInt] at h
  rw [decodeWord, decodeVxFull_va e r g i _ hp.1 hp.2]
  simp (disch := decide) [decodeVa, checked, h, ht, extract_lower, extract_upper]

theorem vaMin (e d s r g i t) : Statement (.vaMin e d s r g i t) := by
  intro h x hx
  cases hx
  have hp : vaPort d = true ∧ portReads s = true := by simp [Instr.wf, vaArithOk, vaSelOk, vaBitOk, vfOk, vcOk, ldOk, anyTyOk, lrdSumOk] at h; simp [h]
  have ht : t ≠ 6#3 := by rintro rfl; simp [Instr.wf, vaArithOk, vaSelOk, vaBitOk, vfOk, vcOk, ldOk, anyTyOk, lrdSumOk, tyFloat, tyInt] at h
  rw [decodeWord, decodeVxFull_va e r g i _ hp.1 hp.2]
  simp (disch := decide) [decodeVa, checked, h, ht, extract_lower, extract_upper]

theorem vaMax (e d s r g i t) : Statement (.vaMax e d s r g i t) := by
  intro h x hx
  cases hx
  have hp : vaPort d = true ∧ portReads s = true := by simp [Instr.wf, vaArithOk, vaSelOk, vaBitOk, vfOk, vcOk, ldOk, anyTyOk, lrdSumOk] at h; simp [h]
  have ht : t ≠ 6#3 := by rintro rfl; simp [Instr.wf, vaArithOk, vaSelOk, vaBitOk, vfOk, vcOk, ldOk, anyTyOk, lrdSumOk, tyFloat, tyInt] at h
  rw [decodeWord, decodeVxFull_va e r g i _ hp.1 hp.2]
  simp (disch := decide) [decodeVa, checked, h, ht, extract_lower, extract_upper]

theorem vaAbs (e d s r g i t) : Statement (.vaAbs e d s r g i t) := by
  intro h x hx
  cases hx
  have hp : vaPort d = true ∧ portReads s = true := by simp [Instr.wf, vaArithOk, vaSelOk, vaBitOk, vfOk, vcOk, ldOk, anyTyOk, lrdSumOk] at h; simp [h]
  have ht : t ≠ 6#3 := by rintro rfl; simp [Instr.wf, vaArithOk, vaSelOk, vaBitOk, vfOk, vcOk, ldOk, anyTyOk, lrdSumOk, tyFloat, tyInt] at h
  rw [decodeWord, decodeVxFull_va e r g i _ hp.1 hp.2]
  simp (disch := decide) [decodeVa, checked, h, ht, extract_lower, extract_upper]

theorem vaNeg (e d s r g i t) : Statement (.vaNeg e d s r g i t) := by
  intro h x hx
  cases hx
  have hp : vaPort d = true ∧ portReads s = true := by simp [Instr.wf, vaArithOk, vaSelOk, vaBitOk, vfOk, vcOk, ldOk, anyTyOk, lrdSumOk] at h; simp [h]
  have ht : t ≠ 6#3 := by rintro rfl; simp [Instr.wf, vaArithOk, vaSelOk, vaBitOk, vfOk, vcOk, ldOk, anyTyOk, lrdSumOk, tyFloat, tyInt] at h
  rw [decodeWord, decodeVxFull_va e r g i _ hp.1 hp.2]
  simp (disch := decide) [decodeVa, checked, h, ht, extract_lower, extract_upper]

theorem vaCmpeq (e d s r g i t) : Statement (.vaCmpeq e d s r g i t) := by
  intro h x hx
  cases hx
  have hp : vaPort d = true ∧ portReads s = true := by simp [Instr.wf, vaArithOk, vaSelOk, vaBitOk, vfOk, vcOk, ldOk, anyTyOk, lrdSumOk] at h; simp [h]
  have ht : t ≠ 6#3 := by rintro rfl; simp [Instr.wf, vaArithOk, vaSelOk, vaBitOk, vfOk, vcOk, ldOk, anyTyOk, lrdSumOk, tyFloat, tyInt] at h
  rw [decodeWord, decodeVxFull_va e r g i _ hp.1 hp.2]
  simp (disch := decide) [decodeVa, checked, h, ht, extract_lower, extract_upper]

theorem vaCmplt (e d s r g i t) : Statement (.vaCmplt e d s r g i t) := by
  intro h x hx
  cases hx
  have hp : vaPort d = true ∧ portReads s = true := by simp [Instr.wf, vaArithOk, vaSelOk, vaBitOk, vfOk, vcOk, ldOk, anyTyOk, lrdSumOk] at h; simp [h]
  have ht : t ≠ 6#3 := by rintro rfl; simp [Instr.wf, vaArithOk, vaSelOk, vaBitOk, vfOk, vcOk, ldOk, anyTyOk, lrdSumOk, tyFloat, tyInt] at h
  rw [decodeWord, decodeVxFull_va e r g i _ hp.1 hp.2]
  simp (disch := decide) [decodeVa, checked, h, ht, extract_lower, extract_upper]

theorem vaCmple (e d s r g i t) : Statement (.vaCmple e d s r g i t) := by
  intro h x hx
  cases hx
  have hp : vaPort d = true ∧ portReads s = true := by simp [Instr.wf, vaArithOk, vaSelOk, vaBitOk, vfOk, vcOk, ldOk, anyTyOk, lrdSumOk] at h; simp [h]
  have ht : t ≠ 6#3 := by rintro rfl; simp [Instr.wf, vaArithOk, vaSelOk, vaBitOk, vfOk, vcOk, ldOk, anyTyOk, lrdSumOk, tyFloat, tyInt] at h
  rw [decodeWord, decodeVxFull_va e r g i _ hp.1 hp.2]
  simp (disch := decide) [decodeVa, checked, h, ht, extract_lower, extract_upper]

theorem vaMov (e d s r g i t) : Statement (.vaMov e d s r g i t) := by
  intro h x hx
  cases hx
  have hp : vaPort d = true ∧ portReads s = true := by simp [Instr.wf, vaArithOk, vaSelOk, vaBitOk, vfOk, vcOk, ldOk, anyTyOk, lrdSumOk] at h; simp [h]
  rw [decodeWord, decodeVxFull_va e r g i _ hp.1 hp.2]
  by_cases ht : t = 6#3
  · subst ht
    simp (disch := decide) [decodeVa, checked, h, extract_lower, extract_upper]
  · simp (disch := decide) [decodeVa, checked, h, ht, extract_lower, extract_upper]

theorem vaAnd (e d s r g i) : Statement (.vaAnd e d s r g i) := by
  intro h x hx
  cases hx
  have hp : vaPort d = true ∧ portReads s = true := by simp [Instr.wf, vaArithOk, vaSelOk, vaBitOk, vfOk, vcOk, ldOk, anyTyOk, lrdSumOk] at h; simp [h]
  rw [decodeWord, decodeVxFull_va e r g i _ hp.1 hp.2]
  simp (disch := decide) [decodeVa, checked, h, extract_lower, extract_upper]

theorem vaOr (e d s r g i) : Statement (.vaOr e d s r g i) := by
  intro h x hx
  cases hx
  have hp : vaPort d = true ∧ portReads s = true := by simp [Instr.wf, vaArithOk, vaSelOk, vaBitOk, vfOk, vcOk, ldOk, anyTyOk, lrdSumOk] at h; simp [h]
  rw [decodeWord, decodeVxFull_va e r g i _ hp.1 hp.2]
  simp (disch := decide) [decodeVa, checked, h, extract_lower, extract_upper]

theorem vaXor (e d s r g i) : Statement (.vaXor e d s r g i) := by
  intro h x hx
  cases hx
  have hp : vaPort d = true ∧ portReads s = true := by simp [Instr.wf, vaArithOk, vaSelOk, vaBitOk, vfOk, vcOk, ldOk, anyTyOk, lrdSumOk] at h; simp [h]
  rw [decodeWord, decodeVxFull_va e r g i _ hp.1 hp.2]
  simp (disch := decide) [decodeVa, checked, h, extract_lower, extract_upper]

theorem vaAndn (e d s r g i) : Statement (.vaAndn e d s r g i) := by
  intro h x hx
  cases hx
  have hp : vaPort d = true ∧ portReads s = true := by simp [Instr.wf, vaArithOk, vaSelOk, vaBitOk, vfOk, vcOk, ldOk, anyTyOk, lrdSumOk] at h; simp [h]
  rw [decodeWord, decodeVxFull_va e r g i _ hp.1 hp.2]
  simp (disch := decide) [decodeVa, checked, h, extract_lower, extract_upper]

theorem vaShl (e d s r g i) : Statement (.vaShl e d s r g i) := by
  intro h x hx
  cases hx
  have hp : vaPort d = true ∧ portReads s = true := by simp [Instr.wf, vaArithOk, vaSelOk, vaBitOk, vfOk, vcOk, ldOk, anyTyOk, lrdSumOk] at h; simp [h]
  rw [decodeWord, decodeVxFull_va e r g i _ hp.1 hp.2]
  simp (disch := decide) [decodeVa, checked, h, extract_lower, extract_upper]

theorem vaShr (e d s r g i) : Statement (.vaShr e d s r g i) := by
  intro h x hx
  cases hx
  have hp : vaPort d = true ∧ portReads s = true := by simp [Instr.wf, vaArithOk, vaSelOk, vaBitOk, vfOk, vcOk, ldOk, anyTyOk, lrdSumOk] at h; simp [h]
  rw [decodeWord, decodeVxFull_va e r g i _ hp.1 hp.2]
  simp (disch := decide) [decodeVa, checked, h, extract_lower, extract_upper]

theorem vaSra (e d s r g i) : Statement (.vaSra e d s r g i) := by
  intro h x hx
  cases hx
  have hp : vaPort d = true ∧ portReads s = true := by simp [Instr.wf, vaArithOk, vaSelOk, vaBitOk, vfOk, vcOk, ldOk, anyTyOk, lrdSumOk] at h; simp [h]
  rw [decodeWord, decodeVxFull_va e r g i _ hp.1 hp.2]
  simp (disch := decide) [decodeVa, checked, h, extract_lower, extract_upper]

theorem vaRotl (e d s r g i) : Statement (.vaRotl e d s r g i) := by
  intro h x hx
  cases hx
  have hp : vaPort d = true ∧ portReads s = true := by simp [Instr.wf, vaArithOk, vaSelOk, vaBitOk, vfOk, vcOk, ldOk, anyTyOk, lrdSumOk] at h; simp [h]
  rw [decodeWord, decodeVxFull_va e r g i _ hp.1 hp.2]
  simp (disch := decide) [decodeVa, checked, h, extract_lower, extract_upper]

theorem vaPopc (e d s r g i) : Statement (.vaPopc e d s r g i) := by
  intro h x hx
  cases hx
  have hp : vaPort d = true ∧ portReads s = true := by simp [Instr.wf, vaArithOk, vaSelOk, vaBitOk, vfOk, vcOk, ldOk, anyTyOk, lrdSumOk] at h; simp [h]
  rw [decodeWord, decodeVxFull_va e r g i _ hp.1 hp.2]
  simp (disch := decide) [decodeVa, checked, h, extract_lower, extract_upper]

theorem vaClz (e d s r g i) : Statement (.vaClz e d s r g i) := by
  intro h x hx
  cases hx
  have hp : vaPort d = true ∧ portReads s = true := by simp [Instr.wf, vaArithOk, vaSelOk, vaBitOk, vfOk, vcOk, ldOk, anyTyOk, lrdSumOk] at h; simp [h]
  rw [decodeWord, decodeVxFull_va e r g i _ hp.1 hp.2]
  simp (disch := decide) [decodeVa, checked, h, extract_lower, extract_upper]

theorem vfFma (e s r g i t m) : Statement (.vfFma e s r g i t m) := by
  intro h x hx
  cases hx
  have hs : portReads s = true := by simp [Instr.wf, vaArithOk, vaSelOk, vaBitOk, vfOk, vcOk, ldOk, anyTyOk, lrdSumOk] at h; simp [h]
  rw [decodeWord, decodeVxFull_trigger e r g i _ (by decide) (by decide) hs]
  simp (disch := decide) [decodeTrigger, checked, h, extract_lower, extract_upper]

theorem vfFms (e s r g i t m) : Statement (.vfFms e s r g i t m) := by
  intro h x hx
  cases hx
  have hs : portReads s = true := by simp [Instr.wf, vaArithOk, vaSelOk, vaBitOk, vfOk, vcOk, ldOk, anyTyOk, lrdSumOk] at h; simp [h]
  rw [decodeWord, decodeVxFull_trigger e r g i _ (by decide) (by decide) hs]
  simp (disch := decide) [decodeTrigger, checked, h, extract_lower, extract_upper]

theorem vfNfma (e s r g i t m) : Statement (.vfNfma e s r g i t m) := by
  intro h x hx
  cases hx
  have hs : portReads s = true := by simp [Instr.wf, vaArithOk, vaSelOk, vaBitOk, vfOk, vcOk, ldOk, anyTyOk, lrdSumOk] at h; simp [h]
  rw [decodeWord, decodeVxFull_trigger e r g i _ (by decide) (by decide) hs]
  simp (disch := decide) [decodeTrigger, checked, h, extract_lower, extract_upper]

theorem vfNfms (e s r g i t m) : Statement (.vfNfms e s r g i t m) := by
  intro h x hx
  cases hx
  have hs : portReads s = true := by simp [Instr.wf, vaArithOk, vaSelOk, vaBitOk, vfOk, vcOk, ldOk, anyTyOk, lrdSumOk] at h; simp [h]
  rw [decodeWord, decodeVxFull_trigger e r g i _ (by decide) (by decide) hs]
  simp (disch := decide) [decodeTrigger, checked, h, extract_lower, extract_upper]

theorem vsExp2 (e s r g i) : Statement (.vsExp2 e s r g i) := by
  intro h x hx
  cases hx
  have hs : portReads s = true := by simp [Instr.wf, vaArithOk, vaSelOk, vaBitOk, vfOk, vcOk, ldOk, anyTyOk, lrdSumOk] at h; simp [h]
  rw [decodeWord, decodeVxFull_trigger e r g i _ (by decide) (by decide) hs]
  simp (disch := decide) [decodeTrigger, decodeVs, checked, h, extract_lower, extract_upper]

theorem vsLog2 (e s r g i) : Statement (.vsLog2 e s r g i) := by
  intro h x hx
  cases hx
  have hs : portReads s = true := by simp [Instr.wf, vaArithOk, vaSelOk, vaBitOk, vfOk, vcOk, ldOk, anyTyOk, lrdSumOk] at h; simp [h]
  rw [decodeWord, decodeVxFull_trigger e r g i _ (by decide) (by decide) hs]
  simp (disch := decide) [decodeTrigger, decodeVs, checked, h, extract_lower, extract_upper]

theorem vsRecip (e s r g i) : Statement (.vsRecip e s r g i) := by
  intro h x hx
  cases hx
  have hs : portReads s = true := by simp [Instr.wf, vaArithOk, vaSelOk, vaBitOk, vfOk, vcOk, ldOk, anyTyOk, lrdSumOk] at h; simp [h]
  rw [decodeWord, decodeVxFull_trigger e r g i _ (by decide) (by decide) hs]
  simp (disch := decide) [decodeTrigger, decodeVs, checked, h, extract_lower, extract_upper]

theorem vsRsqrt (e s r g i) : Statement (.vsRsqrt e s r g i) := by
  intro h x hx
  cases hx
  have hs : portReads s = true := by simp [Instr.wf, vaArithOk, vaSelOk, vaBitOk, vfOk, vcOk, ldOk, anyTyOk, lrdSumOk] at h; simp [h]
  rw [decodeWord, decodeVxFull_trigger e r g i _ (by decide) (by decide) hs]
  simp (disch := decide) [decodeTrigger, decodeVs, checked, h, extract_lower, extract_upper]

theorem vsSqrt (e s r g i) : Statement (.vsSqrt e s r g i) := by
  intro h x hx
  cases hx
  have hs : portReads s = true := by simp [Instr.wf, vaArithOk, vaSelOk, vaBitOk, vfOk, vcOk, ldOk, anyTyOk, lrdSumOk] at h; simp [h]
  rw [decodeWord, decodeVxFull_trigger e r g i _ (by decide) (by decide) hs]
  simp (disch := decide) [decodeTrigger, decodeVs, checked, h, extract_lower, extract_upper]

theorem vsTanh (e s r g i) : Statement (.vsTanh e s r g i) := by
  intro h x hx
  cases hx
  have hs : portReads s = true := by simp [Instr.wf, vaArithOk, vaSelOk, vaBitOk, vfOk, vcOk, ldOk, anyTyOk, lrdSumOk] at h; simp [h]
  rw [decodeWord, decodeVxFull_trigger e r g i _ (by decide) (by decide) hs]
  simp (disch := decide) [decodeTrigger, decodeVs, checked, h, extract_lower, extract_upper]

theorem vsSigmoid (e s r g i) : Statement (.vsSigmoid e s r g i) := by
  intro h x hx
  cases hx
  have hs : portReads s = true := by simp [Instr.wf, vaArithOk, vaSelOk, vaBitOk, vfOk, vcOk, ldOk, anyTyOk, lrdSumOk] at h; simp [h]
  rw [decodeWord, decodeVxFull_trigger e r g i _ (by decide) (by decide) hs]
  simp (disch := decide) [decodeTrigger, decodeVs, checked, h, extract_lower, extract_upper]

theorem vsSilu (e s r g i) : Statement (.vsSilu e s r g i) := by
  intro h x hx
  cases hx
  have hs : portReads s = true := by simp [Instr.wf, vaArithOk, vaSelOk, vaBitOk, vfOk, vcOk, ldOk, anyTyOk, lrdSumOk] at h; simp [h]
  rw [decodeWord, decodeVxFull_trigger e r g i _ (by decide) (by decide) hs]
  simp (disch := decide) [decodeTrigger, decodeVs, checked, h, extract_lower, extract_upper]

theorem vsGelu (e s r g i) : Statement (.vsGelu e s r g i) := by
  intro h x hx
  cases hx
  have hs : portReads s = true := by simp [Instr.wf, vaArithOk, vaSelOk, vaBitOk, vfOk, vcOk, ldOk, anyTyOk, lrdSumOk] at h; simp [h]
  rw [decodeWord, decodeVxFull_trigger e r g i _ (by decide) (by decide) hs]
  simp (disch := decide) [decodeTrigger, decodeVs, checked, h, extract_lower, extract_upper]

theorem vsSin (e s r g i) : Statement (.vsSin e s r g i) := by
  intro h x hx
  cases hx
  have hs : portReads s = true := by simp [Instr.wf, vaArithOk, vaSelOk, vaBitOk, vfOk, vcOk, ldOk, anyTyOk, lrdSumOk] at h; simp [h]
  rw [decodeWord, decodeVxFull_trigger e r g i _ (by decide) (by decide) hs]
  simp (disch := decide) [decodeTrigger, decodeVs, checked, h, extract_lower, extract_upper]

theorem vsCos (e s r g i) : Statement (.vsCos e s r g i) := by
  intro h x hx
  cases hx
  have hs : portReads s = true := by simp [Instr.wf, vaArithOk, vaSelOk, vaBitOk, vfOk, vcOk, ldOk, anyTyOk, lrdSumOk] at h; simp [h]
  rw [decodeWord, decodeVxFull_trigger e r g i _ (by decide) (by decide) hs]
  simp (disch := decide) [decodeTrigger, decodeVs, checked, h, extract_lower, extract_upper]

theorem vcCvt (e s r g i t m n) : Statement (.vcCvt e s r g i t m n) := by
  intro h x hx
  cases hx
  have hs : portReads s = true := by simp [Instr.wf, vaArithOk, vaSelOk, vaBitOk, vfOk, vcOk, ldOk, anyTyOk, lrdSumOk] at h; simp [h]
  have ht : t ≠ 6#3 := by rintro rfl; simp [Instr.wf, vaArithOk, vaSelOk, vaBitOk, vfOk, vcOk, ldOk, anyTyOk, lrdSumOk] at h
  rw [decodeWord, decodeVxFull_trigger e r g i _ (by decide) (by decide) hs]
  simp (disch := decide) [decodeTrigger, ht, checked, h, extract_lower, extract_upper]

theorem vcPack (e s r g i t m n) : Statement (.vcPack e s r g i t m n) := by
  intro h x hx
  cases hx
  have hs : portReads s = true := by simp [Instr.wf, vaArithOk, vaSelOk, vaBitOk, vfOk, vcOk, ldOk, anyTyOk, lrdSumOk] at h; simp [h]
  have ht : t ≠ 6#3 := by rintro rfl; simp [Instr.wf, vaArithOk, vaSelOk, vaBitOk, vfOk, vcOk, ldOk, anyTyOk, lrdSumOk] at h
  rw [decodeWord, decodeVxFull_trigger e r g i _ (by decide) (by decide) hs]
  simp (disch := decide) [decodeTrigger, ht, checked, h, extract_lower, extract_upper]

theorem vcWvcc (e s r g i) : Statement (.vcWvcc e s r g i) := by
  intro h x hx
  cases hx
  have hs : portReads s = true := by simp [Instr.wf, vaArithOk, vaSelOk, vaBitOk, vfOk, vcOk, ldOk, anyTyOk, lrdSumOk] at h; simp [h]
  rw [decodeWord, decodeVxFull_trigger e r g i _ (by decide) (by decide) hs]
  simp (disch := decide) [decodeTrigger, checked, h, extract_lower, extract_upper]

theorem vcWphase (e s r g i) : Statement (.vcWphase e s r g i) := by
  intro h x hx
  cases hx
  have hs : portReads s = true := by simp [Instr.wf, vaArithOk, vaSelOk, vaBitOk, vfOk, vcOk, ldOk, anyTyOk, lrdSumOk] at h; simp [h]
  rw [decodeWord, decodeVxFull_trigger e r g i _ (by decide) (by decide) hs]
  simp (disch := decide) [decodeTrigger, checked, h, extract_lower, extract_upper]

theorem ldVec (e s r g i t) : Statement (.ldVec e s r g i t) := by
  intro h x hx
  cases hx
  have hs : portReads s = true := by simp [Instr.wf, vaArithOk, vaSelOk, vaBitOk, vfOk, vcOk, ldOk, anyTyOk, lrdSumOk] at h; simp [h]
  rw [decodeWord, decodeVxFull_trigger e r g i _ (by decide) (by decide) hs]
  simp (disch := decide) [decodeTrigger, checked, h, extract_lower, extract_upper]

theorem ldGather (e s r g i t) : Statement (.ldGather e s r g i t) := by
  intro h x hx
  cases hx
  have hs : portReads s = true := by simp [Instr.wf, vaArithOk, vaSelOk, vaBitOk, vfOk, vcOk, ldOk, anyTyOk, lrdSumOk] at h; simp [h]
  rw [decodeWord, decodeVxFull_trigger e r g i _ (by decide) (by decide) hs]
  simp (disch := decide) [decodeTrigger, checked, h, extract_lower, extract_upper]

theorem ldBcast (e s r g i t) : Statement (.ldBcast e s r g i t) := by
  intro h x hx
  cases hx
  have hs : portReads s = true := by simp [Instr.wf, vaArithOk, vaSelOk, vaBitOk, vfOk, vcOk, ldOk, anyTyOk, lrdSumOk] at h; simp [h]
  rw [decodeWord, decodeVxFull_trigger e r g i _ (by decide) (by decide) hs]
  simp (disch := decide) [decodeTrigger, checked, h, extract_lower, extract_upper]

theorem ldRing (e s r g i t) : Statement (.ldRing e s r g i t) := by
  intro h x hx
  cases hx
  have hs : portReads s = true := by simp [Instr.wf, vaArithOk, vaSelOk, vaBitOk, vfOk, vcOk, ldOk, anyTyOk, lrdSumOk] at h; simp [h]
  rw [decodeWord, decodeVxFull_trigger e r g i _ (by decide) (by decide) hs]
  simp (disch := decide) [decodeTrigger, checked, h, extract_lower, extract_upper]

theorem ldRaw (e s r g i) : Statement (.ldRaw e s r g i) := by
  intro h x hx
  cases hx
  have hs : portReads s = true := by simp [Instr.wf, vaArithOk, vaSelOk, vaBitOk, vfOk, vcOk, ldOk, anyTyOk, lrdSumOk] at h; simp [h]
  rw [decodeWord, decodeVxFull_trigger e r g i _ (by decide) (by decide) hs]
  simp (disch := decide) [decodeTrigger, checked, h, extract_lower, extract_upper]

theorem stVec (e s r g i t) : Statement (.stVec e s r g i t) := by
  intro h x hx
  cases hx
  have hs : portReads s = true := by simp [Instr.wf, vaArithOk, vaSelOk, vaBitOk, vfOk, vcOk, ldOk, anyTyOk, lrdSumOk] at h; simp [h]
  rw [decodeWord, decodeVxFull_trigger e r g i _ (by decide) (by decide) hs]
  simp (disch := decide) [decodeTrigger, checked, h, extract_lower, extract_upper]

theorem stScatter (e s r g i t) : Statement (.stScatter e s r g i t) := by
  intro h x hx
  cases hx
  have hs : portReads s = true := by simp [Instr.wf, vaArithOk, vaSelOk, vaBitOk, vfOk, vcOk, ldOk, anyTyOk, lrdSumOk] at h; simp [h]
  rw [decodeWord, decodeVxFull_trigger e r g i _ (by decide) (by decide) hs]
  simp (disch := decide) [decodeTrigger, checked, h, extract_lower, extract_upper]

theorem stScalar (e s r g i t) : Statement (.stScalar e s r g i t) := by
  intro h x hx
  cases hx
  have hs : portReads s = true := by simp [Instr.wf, vaArithOk, vaSelOk, vaBitOk, vfOk, vcOk, ldOk, anyTyOk, lrdSumOk] at h; simp [h]
  rw [decodeWord, decodeVxFull_trigger e r g i _ (by decide) (by decide) hs]
  simp (disch := decide) [decodeTrigger, checked, h, extract_lower, extract_upper]

theorem swPush (e s r g i t) : Statement (.swPush e s r g i t) := by
  intro h x hx
  cases hx
  have hs : portReads s = true := by simp [Instr.wf, vaArithOk, vaSelOk, vaBitOk, vfOk, vcOk, ldOk, anyTyOk, lrdSumOk] at h; simp [h]
  rw [decodeWord, decodeVxFull_trigger e r g i _ (by decide) (by decide) hs]
  simp (disch := decide) [decodeTrigger, checked, h, extract_lower, extract_upper]

theorem swPushn (e s r g i t) : Statement (.swPushn e s r g i t) := by
  intro h x hx
  cases hx
  have hs : portReads s = true := by simp [Instr.wf, vaArithOk, vaSelOk, vaBitOk, vfOk, vcOk, ldOk, anyTyOk, lrdSumOk] at h; simp [h]
  rw [decodeWord, decodeVxFull_trigger e r g i _ (by decide) (by decide) hs]
  simp (disch := decide) [decodeTrigger, checked, h, extract_lower, extract_upper]

theorem swDrain (e s r g i t) : Statement (.swDrain e s r g i t) := by
  intro h x hx
  cases hx
  have hs : portReads s = true := by simp [Instr.wf, vaArithOk, vaSelOk, vaBitOk, vfOk, vcOk, ldOk, anyTyOk, lrdSumOk] at h; simp [h]
  rw [decodeWord, decodeVxFull_trigger e r g i _ (by decide) (by decide) hs]
  simp (disch := decide) [decodeTrigger, checked, h, extract_lower, extract_upper]

theorem lrdSum (e s r g i t m) : Statement (.lrdSum e s r g i t m) := by
  intro h x hx
  cases hx
  have hs : portReads s = true := by simp [Instr.wf, vaArithOk, vaSelOk, vaBitOk, vfOk, vcOk, ldOk, anyTyOk, lrdSumOk] at h; simp [h]
  rw [decodeWord, decodeVxFull_trigger e r g i _ (by decide) (by decide) hs]
  simp (disch := decide) [decodeTrigger, checked, h, extract_lower, extract_upper]

theorem lrdMax (e s r g i t) : Statement (.lrdMax e s r g i t) := by
  intro h x hx
  cases hx
  have hs : portReads s = true := by simp [Instr.wf, vaArithOk, vaSelOk, vaBitOk, vfOk, vcOk, ldOk, anyTyOk, lrdSumOk] at h; simp [h]
  rw [decodeWord, decodeVxFull_trigger e r g i _ (by decide) (by decide) hs]
  simp (disch := decide) [decodeTrigger, checked, h, extract_lower, extract_upper]

theorem lrdMin (e s r g i t) : Statement (.lrdMin e s r g i t) := by
  intro h x hx
  cases hx
  have hs : portReads s = true := by simp [Instr.wf, vaArithOk, vaSelOk, vaBitOk, vfOk, vcOk, ldOk, anyTyOk, lrdSumOk] at h; simp [h]
  rw [decodeWord, decodeVxFull_trigger e r g i _ (by decide) (by decide) hs]
  simp (disch := decide) [decodeTrigger, checked, h, extract_lower, extract_upper]

theorem mxMma (c a b n d h s l) : Statement (.mxMma c a b n d h s l) := by
  intro h x hx
  cases hx
  simp (disch := decide) [decodeWord, decodeMxFull, checked, h, extract_lower, extract_upper]

theorem mxFill (s w t g p) : Statement (.mxFill s w t g p) := by
  intro h x hx
  cases hx
  simp (disch := decide) [decodeWord, decodeMxFull, checked, h, extract_lower, extract_upper]

theorem mxFillRing (s t k) : Statement (.mxFillRing s t k) := by
  intro h x hx
  cases hx
  simp (disch := decide) [decodeWord, decodeMxFull, checked, h, extract_lower, extract_upper]

theorem mxClaim (s) : Statement (.mxClaim s) := by
  intro h x hx
  cases hx
  simp (disch := decide) [decodeWord, decodeMxFull, checked, h, extract_lower, extract_upper]

theorem mxRelease (s) : Statement (.mxRelease s) := by
  intro h x hx
  cases hx
  simp (disch := decide) [decodeWord, decodeMxFull, checked, h, extract_lower, extract_upper]

theorem mxReleaseShort (s) : Statement (.mxReleaseShort s) := by
  intro h x hx
  cases hx
  simp (disch := decide) [decodeWord, decodeMxHalf, extract_lower, extract_upper]

theorem mxTanch (c m a) : Statement (.mxTanch c m a) := by
  intro h x hx
  cases hx
  simp (disch := decide) [decodeWord, decodeMxFull, checked, h, extract_lower, extract_upper]

theorem mxTinit (c) : Statement (.mxTinit c) := by
  intro h x hx
  cases hx
  simp (disch := decide) [decodeWord, decodeMxFull, checked, h, extract_lower, extract_upper]

theorem mxTcfg (c r k) : Statement (.mxTcfg c r k) := by
  intro h x hx
  cases hx
  simp (disch := decide) [decodeWord, decodeMxFull, checked, h, extract_lower, extract_upper]

theorem mxResolveMfile (c f m n t) : Statement (.mxResolveMfile c f m n t) := by
  intro h x hx
  cases hx
  simp (disch := decide) [decodeWord, decodeMxFull, checked, h, extract_lower, extract_upper]

theorem mxResolveAbuf (c f m n g p) : Statement (.mxResolveAbuf c f m n g p) := by
  intro h x hx
  cases hx
  simp (disch := decide) [decodeWord, decodeMxFull, checked, h, extract_lower, extract_upper]

theorem mxResolveSelf (c m n) : Statement (.mxResolveSelf c m n) := by
  intro h x hx
  cases hx
  simp (disch := decide) [decodeWord, decodeMxFull, checked, h, extract_lower, extract_upper]

theorem mxTcmp (a b r p g s) : Statement (.mxTcmp a b r p g s) := by
  intro h x hx
  cases hx
  simp (disch := decide) [decodeWord, decodeMxFull, checked, h, extract_lower, extract_upper]

theorem mxTcmpThreshold (a r p g s) : Statement (.mxTcmpThreshold a r p g s) := by
  intro h x hx
  cases hx
  simp (disch := decide) [decodeWord, decodeMxFull, checked, h, extract_lower, extract_upper]

theorem mxSpill (c g s) : Statement (.mxSpill c g s) := by
  intro h x hx
  cases hx
  simp (disch := decide) [decodeWord, decodeMxFull, checked, h, extract_lower, extract_upper]

theorem mxReload (c g s) : Statement (.mxReload c g s) := by
  intro h x hx
  cases hx
  simp (disch := decide) [decodeWord, decodeMxFull, checked, h, extract_lower, extract_upper]

theorem mxMark (n) : Statement (.mxMark n) := by
  intro h x hx
  cases hx
  simp (disch := decide) [decodeWord, decodeMxHalf, extract_lower, extract_upper]

theorem mxGate (m) : Statement (.mxGate m) := by
  intro h x hx
  cases hx
  simp (disch := decide) [decodeWord, decodeMxHalf, extract_lower, extract_upper]

theorem subarrayIdleGate (q) : Statement (.subarrayIdleGate q) := by
  intro _ x hx
  cases hx

theorem cxCommandEnd (k) : Statement (.cxCommandEnd k) := by
  intro _ x hx
  cases hx

theorem engineCommandRetire (a k) : Statement (.engineCommandRetire a k) := by
  intro _ x hx
  cases hx

theorem markerRetire (a) : Statement (.markerRetire a) := by
  intro _ x hx
  cases hx

theorem faultActionRestart (a) : Statement (.faultActionRestart a) := by
  intro _ x hx
  cases hx

theorem faultActionDiscard (a) : Statement (.faultActionDiscard a) := by
  intro _ x hx
  cases hx

theorem faultActionFreeze (a) : Statement (.faultActionFreeze a) := by
  intro _ x hx
  cases hx

theorem correctedError (sram line a) : Statement (.correctedError sram line a) := by
  intro _ x hx
  cases hx

theorem placement (team chosen) : Statement (.placement team chosen) := by
  intro _ x hx
  cases hx

theorem preemptionDecision (newcomer) : Statement (.preemptionDecision newcomer) := by
  intro _ x hx
  cases hx

theorem saveComplete (team) : Statement (.saveComplete team) := by
  intro _ x hx
  cases hx

theorem resume (team) : Statement (.resume team) := by
  intro _ x hx
  cases hx

theorem islandRampComplete (i) : Statement (.islandRampComplete i) := by
  intro _ x hx
  cases hx

theorem droop (i) : Statement (.droop i) := by
  intro _ x hx
  cases hx

theorem droopStretchEnd (i) : Statement (.droopStretchEnd i) := by
  intro _ x hx
  cases hx

theorem overCurrent (i) : Statement (.overCurrent i) := by
  intro _ x hx
  cases hx

theorem regulatorPhaseFailure (i phase) : Statement (.regulatorPhaseFailure i phase) := by
  intro _ x hx
  cases hx

theorem regulatorFailure (i) : Statement (.regulatorFailure i) := by
  intro _ x hx
  cases hx

theorem serviceCompletion (k err value data) : Statement (.serviceCompletion k err value data) := by
  intro _ x hx
  cases hx

theorem lentPageReturn (part page) : Statement (.lentPageReturn part page) := by
  intro _ x hx
  cases hx

theorem hostAccess (write path stream pa bytes) : Statement (.hostAccess write path stream pa bytes) := by
  intro _ x hx
  cases hx

theorem peerAccess (write pa bytes) : Statement (.peerAccess write pa bytes) := by
  intro _ x hx
  cases hx

theorem chimneyFlit (port tx crcFails head body) : Statement (.chimneyFlit port tx crcFails head body) := by
  intro _ x hx
  cases hx

theorem chimneyPortDown (port) : Statement (.chimneyPortDown port) := by
  intro _ x hx
  cases hx

theorem interfaceError (tdi) : Statement (.interfaceError tdi) := by
  intro _ x hx
  cases hx

theorem sessionExpiry (tdi) : Statement (.sessionExpiry tdi) := by
  intro _ x hx
  cases hx

theorem stopInterface (tdi) : Statement (.stopInterface tdi) := by
  intro _ x hx
  cases hx

theorem startInterface (tdi) : Statement (.startInterface tdi) := by
  intro _ x hx
  cases hx

theorem resetRelease (image) : Statement (.resetRelease image) := by
  intro _ x hx
  cases hx

theorem queueTailWrite (p q v) : Statement (.queueTailWrite p q v) := by
  intro _ x hx
  cases hx

theorem queueEnable (p q v) : Statement (.queueEnable p q v) := by
  intro _ x hx
  cases hx

theorem queueSkip (p q) : Statement (.queueSkip p q) := by
  intro _ x hx
  cases hx

theorem packetNop (p q) : Statement (.packetNop p q) := by
  intro _ x hx
  cases hx

theorem packetLaunch (p q) : Statement (.packetLaunch p q) := by
  intro _ x hx
  cases hx

theorem packetFeed (p q) : Statement (.packetFeed p q) := by
  intro _ x hx
  cases hx

theorem feedAppend (p q) : Statement (.feedAppend p q) := by
  intro _ x hx
  cases hx

theorem packetPred (p q) : Statement (.packetPred p q) := by
  intro _ x hx
  cases hx

theorem packetGraph (p q) : Statement (.packetGraph p q) := by
  intro _ x hx
  cases hx

theorem packetSignal (p q) : Statement (.packetSignal p q) := by
  intro _ x hx
  cases hx

theorem packetInval (p q) : Statement (.packetInval p q) := by
  intro _ x hx
  cases hx

theorem packetLoop (p q) : Statement (.packetLoop p q) := by
  intro _ x hx
  cases hx

theorem loopIteration (p q) : Statement (.loopIteration p q) := by
  intro _ x hx
  cases hx

theorem packetBreak (p q) : Statement (.packetBreak p q) := by
  intro _ x hx
  cases hx

theorem placementOrder (team) : Statement (.placementOrder team) := by
  intro _ x hx
  cases hx

theorem partitionConfigWrite (p off v) : Statement (.partitionConfigWrite p off v) := by
  intro _ x hx
  cases hx

theorem tlbInvalidate (p v) : Statement (.tlbInvalidate p v) := by
  intro _ x hx
  cases hx

theorem freezeResume (p tcb) : Statement (.freezeResume p tcb) := by
  intro _ x hx
  cases hx

theorem freezeKill (p tcb) : Statement (.freezeKill p tcb) := by
  intro _ x hx
  cases hx

theorem haltRequest (c v) : Statement (.haltRequest c v) := by
  intro _ x hx
  cases hx

theorem shadowBankRead (c) : Statement (.shadowBankRead c) := by
  intro _ x hx
  cases hx

theorem timetableEntryWrite (c off v) : Statement (.timetableEntryWrite c off v) := by
  intro _ x hx
  cases hx

theorem registerWrite (off v) : Statement (.registerWrite off v) := by
  intro _ x hx
  cases hx

theorem contractCommit (v) : Statement (.contractCommit v) := by
  intro _ x hx
  cases hx

theorem islandOn (i) : Statement (.islandOn i) := by
  intro _ x hx
  cases hx

theorem islandOff (i) : Statement (.islandOff i) := by
  intro _ x hx
  cases hx

theorem islandRetainedOff (i) : Statement (.islandRetainedOff i) := by
  intro _ x hx
  cases hx

theorem errcfgWrite (v) : Statement (.errcfgWrite v) := by
  intro _ x hx
  cases hx

theorem errorInjectArm (k v) : Statement (.errorInjectArm k v) := by
  intro _ x hx
  cases hx

theorem recoveryGo (image) : Statement (.recoveryGo image) := by
  intro _ x hx
  cases hx

theorem chimneyModeWrite (port v) : Statement (.chimneyModeWrite port v) := by
  intro _ x hx
  cases hx

theorem digclr (port) : Statement (.digclr port) := by
  intro _ x hx
  cases hx

theorem breakpointStop (k) : Statement (.breakpointStop k) := by
  intro _ x hx
  cases hx

theorem latencyInjectArm (k v) : Statement (.latencyInjectArm k v) := by
  intro _ x hx
  cases hx

theorem overCurrentEnd (i) : Statement (.overCurrentEnd i) := by
  intro _ x hx
  cases hx

theorem chimneyPortUp (port ok lanes) : Statement (.chimneyPortUp port ok lanes) := by
  intro _ x hx
  cases hx

theorem lockInterface (tdi) : Statement (.lockInterface tdi) := by
  intro _ x hx
  cases hx

theorem keyExchange (tdi period) : Statement (.keyExchange tdi period) := by
  intro _ x hx
  cases hx

theorem heartbeat (tdi) : Statement (.heartbeat tdi) := by
  intro _ x hx
  cases hx

theorem measurementReportRequest (tdi) : Statement (.measurementReportRequest tdi) := by
  intro _ x hx
  cases hx

theorem preheaterBuildComplete (p q r) : Statement (.preheaterBuildComplete p q r) := by
  intro _ x hx
  cases hx

theorem rv64Base (i) : Statement (.rv64Base i) := by
  intro h x hx
  cases hx
  exact rv_all i h

theorem tagWrite : Statement (.tagWrite) := by
  intro _ x hx
  cases hx

theorem skSegend : Statement (.skSegend) := by
  intro _ x hx
  cases hx
  rfl

theorem skSegendTask : Statement (.skSegendTask) := by
  intro _ x hx
  cases hx
  rfl

theorem fenceI : Statement (.fenceI) := by
  intro _ x hx
  cases hx
  rfl

theorem wfi : Statement (.wfi) := by
  intro _ x hx
  cases hx
  rfl

theorem sret : Statement (.sret) := by
  intro _ x hx
  cases hx
  rfl

theorem interruptTake : Statement (.interruptTake) := by
  intro _ x hx
  cases hx

theorem queueLowEntry : Statement (.queueLowEntry) := by
  intro _ x hx
  cases hx

theorem lateSegmentTrap : Statement (.lateSegmentTrap) := by
  intro _ x hx
  cases hx

theorem watchdogFreeze : Statement (.watchdogFreeze) := by
  intro _ x hx
  cases hx

theorem vxRunStart : Statement (.vxRunStart) := by
  intro _ x hx
  cases hx

theorem vxResultLand : Statement (.vxResultLand) := by
  intro _ x hx
  cases hx

theorem vxClusterWake : Statement (.vxClusterWake) := by
  intro _ x hx
  cases hx

theorem mxNop : Statement (.mxNop) := by
  intro _ x hx
  cases hx
  rfl

theorem mxRunStart : Statement (.mxRunStart) := by
  intro _ x hx
  cases hx

theorem cxCopyStart : Statement (.cxCopyStart) := by
  intro _ x hx
  cases hx

theorem cxPeerStart : Statement (.cxPeerStart) := by
  intro _ x hx
  cases hx

theorem cxFillStart : Statement (.cxFillStart) := by
  intro _ x hx
  cases hx

theorem cxRingStart : Statement (.cxRingStart) := by
  intro _ x hx
  cases hx

theorem cxPretrStart : Statement (.cxPretrStart) := by
  intro _ x hx
  cases hx

theorem cxFlushStart : Statement (.cxFlushStart) := by
  intro _ x hx
  cases hx

theorem gxGatherStart : Statement (.gxGatherStart) := by
  intro _ x hx
  cases hx

theorem gxBagStart : Statement (.gxBagStart) := by
  intro _ x hx
  cases hx

theorem gxScaddStart : Statement (.gxScaddStart) := by
  intro _ x hx
  cases hx

theorem gxCountStart : Statement (.gxCountStart) := by
  intro _ x hx
  cases hx

theorem fxCfgStart : Statement (.fxCfgStart) := by
  intro _ x hx
  cases hx

theorem fxPassStart : Statement (.fxPassStart) := by
  intro _ x hx
  cases hx

theorem clAllredStart : Statement (.clAllredStart) := by
  intro _ x hx
  cases hx

theorem clRedscStart : Statement (.clRedscStart) := by
  intro _ x hx
  cases hx

theorem clAllgatStart : Statement (.clAllgatStart) := by
  intro _ x hx
  cases hx

theorem clBcastStart : Statement (.clBcastStart) := by
  intro _ x hx
  cases hx

theorem clBarrierStart : Statement (.clBarrierStart) := by
  intro _ x hx
  cases hx

theorem collectiveCompletion : Statement (.collectiveCompletion) := by
  intro _ x hx
  cases hx

theorem taskRetirement : Statement (.taskRetirement) := by
  intro _ x hx
  cases hx

theorem intervalStep : Statement (.intervalStep) := by
  intro _ x hx
  cases hx

theorem breachClear : Statement (.breachClear) := by
  intro _ x hx
  cases hx

theorem fwcommit : Statement (.fwcommit) := by
  intro _ x hx
  cases hx

theorem sootStop : Statement (.sootStop) := by
  intro _ x hx
  cases hx

theorem sampleRecord : Statement (.sampleRecord) := by
  intro _ x hx
  cases hx

theorem hostPortDown : Statement (.hostPortDown) := by
  intro _ x hx
  cases hx

end Sys2Proof.Laws.RoundTrip
end

