-- ==== Sys2Proof/Tests/Slice0.lean ====
section
/-! SUPPORT. The model's own tests: words written out from the spec's encodings, refused terms, one step on small states, and
for every statement of Certificates/Slice0/Obligations.lean states and operands that meet its premises. -/
namespace Sys2Proof.Tests

open Sys2Proof Sys2Proof.Machine

-- The kernel evaluates one test at a time.
set_option Elab.async false

/-! ### Words of the spec and their instructions -/

/-- Each word decodes to its instruction, and the instruction encodes to its word. -/
def reads (l : List (EncWord × Instr)) : Bool :=
  l.all fun p => decide (accepted (decodeWord p.1) = some p.2 ∧ encode p.2 = some p.1)

/-- Words of custom-0 pushes (07_encoding.md R116, R117). -/
def words_skPush : List (EncWord × Instr) :=
  [(.stoker 0b0000000_01011_01010_000000000001011#32, .vxRun 11 10),
   (.stoker 0b1111101_01011_01010_001000000001011#32, .mxRun 11 10),
   (.stoker 0b1111100_01011_01010_001000000001011#32, .mxPushw 11 10),
   (.stoker 0b00000_1_1_00010_00001_001_00101_0001011#32, .mxMmaInline 1 1 2 1 5),
   (.stoker 0b00010000000000000001_10101_0001011#32, .mxClaimInline 21),
   (.stoker 0b00011000000000000001_10101_0001011#32, .mxReleaseInline 21),
   (.stoker 0b00101000000000000001_00101_0001011#32, .mxTinitInline 5),
   (.stoker 0b000000000000_01010_010_01100_0001011#32, .cxCopy 10 12),
   (.stoker 0b000000100000_01010_010_01100_0001011#32, .cxCopy2 10 12),
   (.stoker 0b000001000000_01010_010_01100_0001011#32, .cxPeer 10 12),
   (.stoker 0b000001100000_01010_010_01100_0001011#32, .cxFill 10 12),
   (.stoker 0b000010000000_01010_010_01100_0001011#32, .cxRing 10 12),
   (.stoker 0b000010100000_01010_010_01100_0001011#32, .cxPretr 10 12),
   (.stoker 0b000011100000_01010_010_01100_0001011#32, .cxFlush 10 12),
   (.stoker 0b000011000000_01010_010000000001011#32, .cxCancel 10),
   (.stoker 0b000100000000_01010_010_01100_0001011#32, .cxWait 10 12),
   (.stoker 0b000100100000_01010_010_01100_0001011#32, .cxTest 10 12),
   (.stoker 0b000000000000_01010_011000000001011#32, .gxGather 10),
   (.stoker 0b000000100000_01010_011000000001011#32, .gxBag 10),
   (.stoker 0b000001000000_01010_011000000001011#32, .gxScadd 10),
   (.stoker 0b000001100000_01010_011000000001011#32, .gxCount 10),
   (.stoker 0b000000000000_01010_100000000001011#32, .fxPass 10),
   (.stoker 0b000000100000_01010_100000000001011#32, .fxCfg 10),
   (.stoker 0b000000000000_01010_101000000001011#32, .clAllred 10),
   (.stoker 0b000000100000_01010_101000000001011#32, .clRedsc 10),
   (.stoker 0b000001000000_01010_101000000001011#32, .clAllgat 10),
   (.stoker 0b000001100000_01010_101000000001011#32, .clBcast 10),
   (.stoker 0b00001000_1_010_00000101000000001011#32, .clBarrier 1 2)]

theorem test_decode_skPush : reads words_skPush = true := by decide +kernel

/-- Words of rings and tags (R116). -/
def words_skRing : List (EncWord × Instr) :=
  [(.stoker 0b000000000000_00011_110_01100_0001011#32, .ringTake 3 12),
   (.stoker 0b000000100000_00011_110000000001011#32, .ringGive 3),
   (.stoker 0b000001000000_00011_110_01100_0001011#32, .ringStat 3 12),
   (.stoker 0b10_00100_01011_01010_110_00010_0001011#32, .skBuffmtA 4 11 10 2),
   (.stoker 0b11_01001_01011_01010_110_00001_0001011#32, .skBuffmtW 9 11 10 1)]

theorem test_decode_skRing : reads words_skRing = true := by decide +kernel

/-- Words of custom-1 (R118). -/
def words_skOrder : List (EncWord × Instr) :=
  [(.stoker 0b000_1_011_10101_01001_000_10010_0101011#32, .skFence 1 3 21 9 18),
   (.stoker 0b001000_1_10011_01010_000_00110_0101011#32, .skMark 1 19 10 6),
   (.stoker 0b000000000000_00110_001000000101011#32, .skRdvwait 6),
   (.stoker 0b000000100000_00110_001_01100_0101011#32, .skRdvtest 6 12),
   (.stoker 0b00000100000000000001_01100_0101011#32, .skWfe 12),
   (.stoker 0b000001100000_01101_001000000101011#32, .skSev 13),
   (.stoker 0b000010000000_01010_001_01101_0101011#32, .skSend 10 13),
   (.stoker 0b00001010000000000001_01100_0101011#32, .skRecv 12),
   (.stoker 0b000000000000_01010_010_01100_0101011#32, .dqPush 10 12),
   (.stoker 0b00000010000000000010_01100_0101011#32, .dqPop 12),
   (.stoker 0b00000100000000000010_01100_0101011#32, .dqSteal 12),
   (.stoker 0b000001100000_00001_010000000101011#32, .dqExport 1),
   (.stoker 0b000010000000_01010_010_01100_0101011#32, .feedPop 10 12),
   (.stoker 0b00000000000000000011000000101011#32, .skSegend),
   (.stoker 0b00000000000000001011000000101011#32, .skSegendTask),
   (.stoker 0b00000010000000000011_01100_0101011#32, .skBudget 12),
   (.stoker 0b000000000000_01010_101_01100_0101011#32, .skSvc 10 12),
   (.stoker 0b000000100000_01010_101_01100_0101011#32, .skLend 10 12)]

theorem test_decode_skOrder : reads words_skOrder = true := by decide +kernel

/-- Words of ABUF atomics (R118). -/
def words_abAtomics : List (EncWord × Instr) :=
  [(.stoker 0b000000_1_01011_01010_100_01100_0101011#32, .abAmoadd 1 11 10 12),
   (.stoker 0b000010_1_01011_01010_100_01100_0101011#32, .abAmoswap 1 11 10 12),
   (.stoker 0b001000_1_01011_01010_100_01100_0101011#32, .abAmoxor 1 11 10 12),
   (.stoker 0b010000_1_01011_01010_100_01100_0101011#32, .abAmoor 1 11 10 12),
   (.stoker 0b011000_1_01011_01010_100_01100_0101011#32, .abAmoand 1 11 10 12),
   (.stoker 0b100000_1_01011_01010_100_01100_0101011#32, .abAmomin 1 11 10 12),
   (.stoker 0b101000_1_01011_01010_100_01100_0101011#32, .abAmomax 1 11 10 12),
   (.stoker 0b110000_1_01011_01010_100_01100_0101011#32, .abAmominu 1 11 10 12),
   (.stoker 0b111000_1_01011_01010_100_01100_0101011#32, .abAmomaxu 1 11 10 12)]

theorem test_decode_abAtomics : reads words_abAtomics = true := by decide +kernel

/-- Words of custom-2 (R119). -/
def words_typed : List (EncWord × Instr) :=
  [(.stoker 0b00_1001_1_01011_01010_0_10_01100_1011011#32, .abLoad 9 1 11 10 2 12),
   (.stoker 0b00_1001_0_01011_01010_1_11_000001011011#32, .abStore 9 11 10 3),
   (.stoker 0b01_1001_1_01011_01010_0_10_01100_1011011#32, .wbLoad 9 1 11 10 2 12),
   (.stoker 0b01_1001_0_01011_01010_1_11_000001011011#32, .wbStore 9 11 10 3),
   (.stoker 0b10_1110_1_01011_01010_0_10_01100_1011011#32, .skClLoad 14 1 11 10 2 12),
   (.stoker 0b10_1110_0_01011_01010_1_01_000001011011#32, .skCsStore 14 11 10 1)]

theorem test_decode_typed : reads words_typed = true := by decide +kernel

/-- Words of custom-3 and segment ends (R118, R120). -/
def words_skBind : List (EncWord × Instr) :=
  [(.stoker 0b000000000000_01010_000_01001_1111011#32, .skShape 10 9),
   (.stoker 0b0000000_01001_10100_001_10001_1111011#32, .skView 9 20 17),
   (.stoker 0b000000000000_01010_010_00101_1111011#32, .skTgeom 10 5),
   (.stoker 0b000000000000_00011_011000001111011#32, .skRfcl 3),
   (.stoker 0b0000000_01011_01010_100_00011_1111011#32, .ringCfg 11 10 3),
   (.stoker 0b0000000_00100_01010_101_01100_1111011#32, .skVariant 4 10 12)]

theorem test_decode_skBind : reads words_skBind = true := by decide +kernel

/-- Words of VX moves (R126, R129). -/
def words_vxMoves : List (EncWord × Instr) :=
  [(.vxHalf 0b0_1_100001_100010_10#16, .vxMoveShort 1 33 34 2),
   (.vxFull 0b1_1_100001_100010_10_1001_0110_00000000#32, .vxMoveLong 1 33 34 2 9 6 0),
   (.vxHalf 0b0_1_111111110010_10#16, .vxNop 1 2),
   (.vxFull 0b11111111110010_10_1001_0110_00010_011#32, .vxRfcl 2 9 6 3)]

theorem test_decode_vxMoves : reads words_vxMoves = true := by decide +kernel

/-- Words of va (R130). -/
def words_vaArith : List (EncWord × Instr) :=
  [(.vxFull 0b1_1_001100_100010_10_1001_0110_001_00_011#32, .vaAdd 1 12 34 2 9 6 1 3),
   (.vxFull 0b1_1_001100_100010_10_1001_0110_001_01_011#32, .vaSub 1 12 34 2 9 6 1 3),
   (.vxFull 0b1_1_001100_100010_10_1001_0110_001_10_011#32, .vaMul 1 12 34 2 9 6 1 3),
   (.vxFull 0b1_1_001100_100010_10_1001_0110_001_11000#32, .vaMin 1 12 34 2 9 6 1),
   (.vxFull 0b1_1_001100_100010_10_1001_0110_001_11001#32, .vaMax 1 12 34 2 9 6 1),
   (.vxFull 0b1_1_001100_100010_10_1001_0110_001_11010#32, .vaAbs 1 12 34 2 9 6 1),
   (.vxFull 0b1_1_001100_100010_10_1001_0110_001_11011#32, .vaNeg 1 12 34 2 9 6 1),
   (.vxFull 0b1_1_001100_100010_10_1001_0110_001_11100#32, .vaCmpeq 1 12 34 2 9 6 1),
   (.vxFull 0b1_1_001100_100010_10_1001_0110_001_11101#32, .vaCmplt 1 12 34 2 9 6 1),
   (.vxFull 0b1_1_001100_100010_10_1001_0110_001_11110#32, .vaCmple 1 12 34 2 9 6 1),
   (.vxFull 0b1_1_001100_100010_10_1001_0110_001_11111#32, .vaMov 1 12 34 2 9 6 1)]

theorem test_decode_vaArith : reads words_vaArith = true := by decide +kernel

/-- Words of va bit operations (R130). -/
def words_vaBits : List (EncWord × Instr) :=
  [(.vxFull 0b1_1_001100_100010_10_1001_0110_11000000#32, .vaAnd 1 12 34 2 9 6),
   (.vxFull 0b1_1_001100_100010_10_1001_0110_11000001#32, .vaOr 1 12 34 2 9 6),
   (.vxFull 0b1_1_001100_100010_10_1001_0110_11000010#32, .vaXor 1 12 34 2 9 6),
   (.vxFull 0b1_1_001100_100010_10_1001_0110_11000011#32, .vaAndn 1 12 34 2 9 6),
   (.vxFull 0b1_1_001100_100010_10_1001_0110_11000100#32, .vaShl 1 12 34 2 9 6),
   (.vxFull 0b1_1_001100_100010_10_1001_0110_11000101#32, .vaShr 1 12 34 2 9 6),
   (.vxFull 0b1_1_001100_100010_10_1001_0110_11000110#32, .vaSra 1 12 34 2 9 6),
   (.vxFull 0b1_1_001100_100010_10_1001_0110_11000111#32, .vaRotl 1 12 34 2 9 6),
   (.vxFull 0b1_1_001100_100010_10_1001_0110_11001000#32, .vaPopc 1 12 34 2 9 6),
   (.vxFull 0b1_1_001100_100010_10_1001_0110_11001001#32, .vaClz 1 12 34 2 9 6)]

theorem test_decode_vaBits : reads words_vaBits = true := by decide +kernel

/-- Words of vf and vs (R131). -/
def words_vfVs : List (EncWord × Instr) :=
  [(.vxFull 0b1_1_010000_100010_10_1001_0110_001_00_011#32, .vfFma 1 34 2 9 6 1 3),
   (.vxFull 0b1_1_010000_100010_10_1001_0110_001_01_011#32, .vfFms 1 34 2 9 6 1 3),
   (.vxFull 0b1_1_010000_100010_10_1001_0110_001_10_011#32, .vfNfma 1 34 2 9 6 1 3),
   (.vxFull 0b1_1_010000_100010_10_1001_0110_001_11_011#32, .vfNfms 1 34 2 9 6 1 3),
   (.vxFull 0b1_1_010010_100010_10_1001_0110_00000000#32, .vsExp2 1 34 2 9 6),
   (.vxFull 0b1_1_010010_100010_10_1001_0110_00000001#32, .vsLog2 1 34 2 9 6),
   (.vxFull 0b1_1_010010_100010_10_1001_0110_00000010#32, .vsRecip 1 34 2 9 6),
   (.vxFull 0b1_1_010010_100010_10_1001_0110_00000011#32, .vsRsqrt 1 34 2 9 6),
   (.vxFull 0b1_1_010010_100010_10_1001_0110_00000100#32, .vsSqrt 1 34 2 9 6),
   (.vxFull 0b1_1_010010_100010_10_1001_0110_00000101#32, .vsTanh 1 34 2 9 6),
   (.vxFull 0b1_1_010010_100010_10_1001_0110_00000110#32, .vsSigmoid 1 34 2 9 6),
   (.vxFull 0b1_1_010010_100010_10_1001_0110_00000111#32, .vsSilu 1 34 2 9 6),
   (.vxFull 0b1_1_010010_100010_10_1001_0110_00001000#32, .vsGelu 1 34 2 9 6),
   (.vxFull 0b1_1_010010_100010_10_1001_0110_00001001#32, .vsSin 1 34 2 9 6),
   (.vxFull 0b1_1_010010_100010_10_1001_0110_00001010#32, .vsCos 1 34 2 9 6)]

theorem test_decode_vfVs : reads words_vfVs = true := by decide +kernel

/-- Words of vc, ld, st, sw, lrd (R132). -/
def words_vcMemory : List (EncWord × Instr) :=
  [(.vxFull 0b1_1_010100_100010_10_1001_0110_001_011_1_0#32, .vcCvt 1 34 2 9 6 1 3 1),
   (.vxFull 0b1_1_010100_100010_10_1001_0110_001_011_1_1#32, .vcPack 1 34 2 9 6 1 3 1),
   (.vxFull 0b1_1_010100_100010_10_1001_0110_11000000#32, .vcWvcc 1 34 2 9 6),
   (.vxFull 0b1_1_010100_100010_10_1001_0110_11000001#32, .vcWphase 1 34 2 9 6),
   (.vxFull 0b1_1_010111_100010_10_1001_0110_001_00000#32, .ldVec 1 34 2 9 6 1),
   (.vxFull 0b1_1_010111_100010_10_1001_0110_001_00001#32, .ldGather 1 34 2 9 6 1),
   (.vxFull 0b1_1_010111_100010_10_1001_0110_001_00010#32, .ldBcast 1 34 2 9 6 1),
   (.vxFull 0b1_1_010111_100010_10_1001_0110_001_00011#32, .ldRing 1 34 2 9 6 1),
   (.vxFull 0b1_1_010111_100010_10_1001_0110_11000100#32, .ldRaw 1 34 2 9 6),
   (.vxFull 0b1_1_011010_100010_10_1001_0110_001_00000#32, .stVec 1 34 2 9 6 1),
   (.vxFull 0b1_1_011010_100010_10_1001_0110_001_00001#32, .stScatter 1 34 2 9 6 1),
   (.vxFull 0b1_1_011010_100010_10_1001_0110_001_00010#32, .stScalar 1 34 2 9 6 1),
   (.vxFull 0b1_1_011100_100010_10_1001_0110_001_00000#32, .swPush 1 34 2 9 6 1),
   (.vxFull 0b1_1_011100_100010_10_1001_0110_001_00001#32, .swPushn 1 34 2 9 6 1),
   (.vxFull 0b1_1_011100_100010_10_1001_0110_001_00010#32, .swDrain 1 34 2 9 6 1),
   (.vxFull 0b1_1_011110_100010_10_1001_0110_001_00_011#32, .lrdSum 1 34 2 9 6 1 3),
   (.vxFull 0b1_1_011110_100010_10_1001_0110_001_01000#32, .lrdMax 1 34 2 9 6 1),
   (.vxFull 0b1_1_011110_100010_10_1001_0110_001_10000#32, .lrdMin 1 34 2 9 6 1)]

theorem test_decode_vcMemory : reads words_vcMemory = true := by decide +kernel

/-- Words of MX words (R134, R135). -/
def words_mx : List (EncWord × Instr) :=
  [(.mxFull 0b100000_00101_10100_01011_1_1_1_010_101_00#32, .mxMma 5 20 11 1 1 1 2 5),
   (.mxFull 0b100001_10101_0_1_10_10_001001000110100#32, .mxFill 21 1 2 2 4660),
   (.mxFull 0b100001_10101_10_10_011_00000000000000#32, .mxFillRing 21 2 3),
   (.mxFull 0b100010_10101_000000000000000000000#32, .mxClaim 21),
   (.mxFull 0b100011_10101_000000000000000000000#32, .mxRelease 21),
   (.mxHalf 0b0001_10101_0000000#16, .mxReleaseShort 21),
   (.mxFull 0b100100_00101_0_0000101110_0000000000#32, .mxTanch 5 0 46),
   (.mxFull 0b100101_00101_000000000000000000000#32, .mxTinit 5),
   (.mxFull 0b100110_00101_101111_011111_000000000#32, .mxTcfg 5 47 31),
   (.mxFull 0b100111_00101_00_011_100_1_110_000000000#32, .mxResolveMfile 5 3 4 1 6),
   (.mxFull 0b100111_00101_01_011_100_1_10_1100001001#32, .mxResolveAbuf 5 3 4 1 2 777),
   (.mxFull 0b100111_00101_10000_100_1_000000000000#32, .mxResolveSelf 5 4 1),
   (.mxFull 0b101000_00101_00110_0_100_110_10_1001101#32, .mxTcmp 5 6 4 6 2 77),
   (.mxFull 0b101000_00101_000001_100_110_10_1001101#32, .mxTcmpThreshold 5 4 6 2 77),
   (.mxFull 0b101001_00101_0000_10_001001000110100#32, .mxSpill 5 2 4660),
   (.mxFull 0b101010_00101_0000_10_001001000110100#32, .mxReload 5 2 4660),
   (.mxHalf 0b0000000000000000#16, .mxNop),
   (.mxHalf 0b0010_101010111100#16, .mxMark 2748),
   (.mxHalf 0b0011_1011_00000000#16, .mxGate 11)]

theorem test_decode_mx : reads words_mx = true := by decide +kernel

/-- Words of RV64IMAFDC with Zbb (R121). -/
def words_rv64 : List (EncWord × Instr) :=
  [(.stoker 0b0001001_00011_01000_101_00101_0110111#32, .rv64Base (.lui 5 0x12345)),
   (.stoker 0b0000000_00000_00000_001_00110_0010111#32, .rv64Base (.auipc 6 1)),
   (.stoker 0b0000000_10000_00000_000_00001_1101111#32, .rv64Base (.jal 1 8)),
   (.stoker 0b0000000_00000_00001_000_00000_1100111#32, .rv64Base (.jalr 0 1 0)),
   (.stoker 0b0000000_01011_01010_000_01000_1100011#32, .rv64Base (.branch .eq 10 11 4)),
   (.stoker 0b0000000_00111_00110_000_00101_0110011#32, .rv64Base (.alu .add 5 6 7)),
   (.stoker 0b1111111_11111_00110_000_00101_0010011#32, .rv64Base (.aluImm .addi 5 6 0xFFF)),
   (.stoker 0b0000001_00001_00110_001_00101_0010011#32, .rv64Base (.shift .slli 5 6 33)),
   (.stoker 0b0110000_00000_00110_001_00101_0010011#32, .rv64Base (.unary .clz 5 6)),
   (.stoker 0b1100000_00000_00000_010_00101_1110011#32, .rv64Base (.csrRead .rs false 5 0xC00)),
   (.stoker 0b0000000_00000_00000_000_00000_1110011#32, .rv64Base .ecall),
   (.stoker 0b0000000_00001_00000_000_00000_1110011#32, .rv64Base .ebreak),
   (.stoker 0b0011000_00010_00000_000_00000_1110011#32, .rv64Base .mret),
   (.stoker 0b0000000_00011_00010_000_00001_1010011#32, .rv64Base (.fpArith .fadd false 0 1 2 3)),
   (.stoker 0b0101101_00000_00010_111_00001_1010011#32, .rv64Base (.fpSqrt true 7 1 2)),
   (.stoker 0b0010001_00011_00010_111_00001_1000011#32, .rv64Base (.fpFma .fmadd true 7 1 2 3 4)),
   (.stoker 0b0010000_00011_00010_000_00001_1010011#32, .rv64Base (.fpSel .fsgnj false 1 2 3)),
   (.stoker 0b1010001_00011_00010_010_00001_1010011#32, .rv64Base (.fpCmp .feq true 1 2 3)),
   (.stoker 0b1110000_00000_00010_001_00001_1010011#32, .rv64Base (.fpClass false 1 2)),
   (.stoker 0b1100000_00000_00010_001_00001_1010011#32, .rv64Base (.fpToInt .w false 1 1 2)),
   (.stoker 0b1101001_00010_00010_111_00001_1010011#32, .rv64Base (.intToFp .l true 7 1 2)),
   (.stoker 0b0100001_00000_00010_000_00001_1010011#32, .rv64Base (.fpCvt true 0 1 2)),
   (.stoker 0b1110001_00000_00010_000_00001_1010011#32, .rv64Base (.fpMvToInt true 1 2)),
   (.stoker 0b1111000_00000_00010_000_00001_1010011#32, .rv64Base (.intMvToFp false 1 2))]

theorem test_decode_rv64 : reads words_rv64 = true := by decide +kernel

/-- Words of RV64 memory, ordering, CSR and system words (R121). -/
def words_rvMemory : List (EncWord × Instr) :=
  [(.stoker 0b0001000_00010_00000_000_00000_1110011#32, .sret),
   (.stoker 0b0001000_00101_00000_000_00000_1110011#32, .wfi),
   (.stoker 0b0000001_10011_00000_000_00000_0001111#32, .fence 0 3 3 0 0),
   (.stoker 0b0000000_00000_00000_001_00000_0001111#32, .fenceI),
   (.stoker 0b0001001_00110_00111_000_00000_1110011#32, .sfenceVma 7 6),
   (.stoker 0b0000000_01000_00110_011_00101_0000011#32, .rv64Load .ld 5 6 8),
   (.stoker 0b0000000_00111_00110_011_10000_0100011#32, .rv64Store .sd 7 6 16),
   (.stoker 0b0000011_00111_00110_011_00101_0101111#32, .amo .add true true true 5 6 7),
   (.stoker 0b0001000_00000_00110_010_00101_0101111#32, .lr false false false 5 6),
   (.stoker 0b0001100_00111_00110_011_00101_0101111#32, .sc true false false 5 6 7),
   (.stoker 0b1000000_00000_00110_001_00101_1110011#32, .csrWrite .rw false 5 6 0x800),
   (.stoker 0b1000000_00010_00110_001_00101_1110011#32, .yeventWrite .rw false 5 6),
   (.stoker 0b1000000_00011_00110_001_00101_1110011#32, .ywmWrite .rw false 5 6),
   (.stoker 0b1000000_00100_00110_001_00101_1110011#32, .ymxstAccess .rw false 5 6),
   (.stoker 0b1000000_00101_00110_001_00101_1110011#32, .ydxstAccess .rw false 5 6)]

theorem test_decode_rvMemory : reads words_rvMemory = true := by decide +kernel
/-- Compressed words: c.addi x8, 1; c.li x10, 5; c.ldsp x1, 8(sp); c.jr x1; c.sdsp x8, 16(sp) (RISC-V C). -/
theorem test_decode_compressed :
    accepted (decodeCompressed 0b000_0_01000_00001_01#16) = some (.rv64Base (.aluImm .addi 8 8 1)) ∧
    accepted (decodeCompressed 0b010_0_01010_00101_01#16) = some (.rv64Base (.aluImm .addi 10 0 5)) ∧
    accepted (decodeCompressed 0b011_0_00001_01000_10#16) = some (.rv64Load .ld 1 2 8) ∧
    accepted (decodeCompressed 0b100_0_00001_00000_10#16) = some (.rv64Base (.jalr 0 1 0)) ∧
    accepted (decodeCompressed 0b111_010000_01000_10#16) = some (.rv64Store .sd 8 2 16) := by decide +kernel

/-- Words the spec reserves: the zero word, a nonzero zero field, tile 8, funct7 of no form, a reserved port, a store to a
read-only port, an unassigned rounding mode, an MX short operation above 3 (07_encoding.md R115, R121, R128, R130, R134). -/
theorem test_reserved_words :
    accepted (decodeStoker 0x00000000#32) = none ∧ accepted (decodeStoker 0x0200108B#32) = some (.mxMmaInline 0 1 0 0 1) ∧
    accepted (decodeStoker 0x00B5008B#32) = none ∧ accepted (decodeStoker 0x2800140B#32) = none ∧
    accepted (decodeStoker 0x3000100B#32) = none ∧ accepted (decodeVxHalf 0b0_1_100001_111000_10#16) = none ∧
    accepted (decodeVxHalf 0b0_1_001010_100010_10#16) = none ∧
    accepted (decodeVxFull 0b1_1_001100_100010_10_1001_0110_001_00_101#32) = none ∧
    accepted (decodeMxHalf 0x4000#16) = none := by decide +kernel

/-- One ill-formed term for each check of WellFormed.lean; the same term within its limits is well formed. -/
theorem test_ill_formed : ([
    .mxMmaInline 0 0 0 0 8, .mxTinitInline 8, .clBarrier 0 0, .clBarrier 0 4, .ringTake 8 0, .ringGive 8, .ringStat 8 0,
    .skBuffmtA 0 0 0 1, .skBuffmtA 11 0 0 6, .skBuffmtW 14 0 0 0, .skBuffmtW 4 0 0 8, .skFence 0 5 0 0 0, .skMark 0 0 0 1,
    .skMark 1 0 0 8, .skRdvwait 8, .skRdvtest 8 0, .dqExport 2, .abLoad 0 1 0 0 3 0, .wbLoad 0 1 0 0 3 0, .skClLoad 0 1 0 0 3 0,
    .skShape 0 16, .skView 16 0 0, .skTgeom 0 8, .skRfcl 5, .ringCfg 0 0 8, .skVariant 7 0 0, .csrWrite .rs false 1 0 0x800,
    .csrWrite .rw false 1 2 0x802, .yeventWrite .rc true 1 0, .ywmWrite .rs false 1 0, .rv64Base (.shift .slliw 1 2 32),
    .rv64Base (.csrRead .rw false 1 0xC00), .rv64Base (.csrRead .rs false 1 0x804), .rv64Base (.fpArith .fadd false 5 1 2 3),
    .rv64Base (.fpSqrt true 6 1 2), .rv64Base (.fpFma .fmadd true 5 1 2 3 4), .rv64Base (.fpToInt .w false 6 1 2),
    .rv64Base (.intToFp .w false 5 1 2), .rv64Base (.fpCvt true 5 1 2), .vxMoveShort 1 10 34 0, .vxMoveShort 1 63 50 0,
    .vxMoveLong 1 9 34 0 0 0 0, .vxMoveLong 1 33 34 0 0 0 1, .vxRfcl 0 0 0 5, .vaAdd 1 9 34 0 0 0 0 5, .vaSub 1 9 34 0 0 0 3 2,
    .vaMul 1 10 34 0 0 0 0 0, .vaMin 1 9 34 0 0 0 6, .vaMov 1 9 34 0 0 0 7, .vaAnd 1 16 34 0 0 0, .vfFma 1 34 0 0 0 4 0,
    .vfFms 1 34 0 0 0 3 1, .vsExp2 1 9 0 0 0, .vcCvt 1 34 0 0 0 6 0 0, .vcPack 1 34 0 0 0 0 5 0, .vcWvcc 1 11 0 0 0,
    .ldVec 1 34 0 0 0 4, .ldRaw 1 9 0 0 0, .stVec 1 34 0 0 0 7, .swPush 1 9 0 0 0 0, .lrdSum 1 34 0 0 0 0 5,
    .lrdMax 1 34 0 0 0 6, .mxMma 8 0 0 0 0 0 0 0, .mxMma 0 0 0 0 0 0 4 5, .mxTanch 8 0 0, .mxTinit 8, .mxTcfg 8 0 0,
    .mxResolveMfile 0 5 0 0 0, .mxResolveAbuf 0 0 5 0 0 0, .mxResolveSelf 8 0 0, .mxTcmp 0 8 0 0 0 0, .mxTcmp 0 0 6 0 0 0,
    .mxTcmpThreshold 0 6 0 0 0, .mxSpill 8 0 0, .mxReload 8 0 0] : List Instr).all (fun i => !i.wf) = true ∧
    ([.mxMmaInline 0 0 0 0 7, .clBarrier 0 3, .ringTake 7 0, .skBuffmtA 11 0 0 5, .skFence 0 4 0 0 0, .skMark 0 1 0 7,
    .abLoad 0 1 0 0 2 0, .skView 15 0 0, .skRfcl 4, .skVariant 6 0 0, .vaAdd 1 9 34 0 0 0 0 4, .mxMma 7 0 0 0 0 0 3 5,
    .mxTcmp 7 7 5 0 0 0] : List Instr).all Instr.wf = true := by decide +kernel

/-- decodeTableWord reads each kind of table word (log 12). -/
theorem test_table_words :
    decodeTableWord 32 0x00B5000B = some (.vxRun 11 10) ∧ decodeTableWord 16 0x0000 = some .mxNop ∧
    decodeTableWord 16 0x1180 = some (.mxReleaseShort 3) ∧ decodeTableWord 32 0x88600000 = some (.mxClaim 3) ∧
    decodeTableWord 8 0 = none := by decide +kernel

/-! ### Small states -/

/-- A device that is up, whose core 0 is powered and issues, in a mode and with the context that f makes. -/
def live (mode : Mode) (f : Ctx → Ctx) : State :=
  { State.reset with
    up := true
    islands := [(0, { Island.reset 0 with cmd := 1, pstate := 2 })]
    cores := [(0, { Core.reset with
      halted := false, haltReq := false, b := { Binding.reset with aLimit := 8, wLimit := 8 },
      ctx := f { Ctx.reset with mode := mode } })] }

/-- Field f of the context after an outcome. -/
def gives {α : Type} [DecidableEq α] (r : Res) (f : Ctx → α) (v : α) : Bool :=
  match r with
  | .next t => decide (f t.my = v)
  | _ => false

/-! ### One step -/

/-- add wraps at 64 bits, and its destination may be its source (RISC-V). -/
theorem test_add_wraps :
    gives (exec (.rv64Base (.alu .add 5 5 6)) (live .u fun x => (x.setX 5 (BitVec.allOnes 64)).setX 6 2))
      (·.getX 5) 1 = true := by decide +kernel

/-- A write of x0 is discarded (RISC-V). -/
theorem test_x0 : gives (exec (.rv64Base (.aluImm .addi 0 0 5)) (live .u id)) (·.getX 0) 0 = true := by decide +kernel

/-- The least integer divided by -1 is itself, and a division by 0 gives -1 (RISC-V M). -/
theorem test_division_corners :
    aluVal .div (BitVec.intMin 64) (BitVec.allOnes 64) = BitVec.intMin 64 ∧ aluVal .div 7 0 = BitVec.allOnes 64 := by
  decide +kernel

/-- A program stored at the pc is what the step runs: addi x5, x0, 7 after withFetchWord. -/
theorem test_step_runs_word :
    gives (step (State.reset.withFetchWord 32 0x00700293)) (·.getX 5) 7 = true := by decide +kernel

/-- The illegal word 0 traps with cause 2 in M-mode, to mtvec (16_system_state.md R273). -/
theorem test_step_illegal :
    gives (step (State.reset.withFetchWord 32 0)) (·.csr.mcause) 2 = true := by decide +kernel

/-- ECALL from U-mode goes to stvec in S-mode, with sepc the address of the ECALL and cause 8 (16_system_state.md R273). -/
theorem test_ecall :
    let s := live .u fun x => { x with pc := 0x40, csr := { x.csr with stvec := 0x1000 } }
    let r := exec (.rv64Base .ecall) s
    gives r (fun x => (x.mode, x.pc, x.csr.sepc, x.csr.scause)) (.s, 0x1000, 0x40, 8) = true := by decide +kernel

/-- SRET goes back to U-mode at sepc and clears SVC and QLACT (08_stoker_isa.md R176). -/
theorem test_sret :
    let s := live .s fun x => { x with csr := { x.csr with sepc := 0x44 }, ywm := { x.ywm with svc := true, qlact := true } }
    gives (exec .sret s) (fun x => (x.mode, x.pc, x.ywm.svc, x.ywm.qlact)) (.u, 0x44, false, false) = true := by
  decide +kernel

/-- `yscope` keeps its value when a scope above 4 is written (06_ordering.md R100). -/
theorem test_yscope_reserved :
    gives (exec (.csrWrite .rw true 0 5 0x801) (live .u id)) (·.yscope) Ctx.reset.yscope = true := by decide +kernel

/-- `yident` is read-only: a write is illegal, with cause 2 (08_stoker_isa.md R152). -/
theorem test_read_only_csr :
    gives (exec (.csrWrite .rw true 0 5 0xCC5) (live .u id)) (·.csr.scause) 2 = true := by decide +kernel

/-- The inline `mx.tinit acc1` pushes 0x9420_0000 (10_matrix_isa.md R219). -/
theorem test_tinit_inline :
    gives (exec (.mxTinitInline 1) (live .u id)) (fun x => x.mxq.map (·.cmd)) [.mxWord 0x94200000 0] = true := by
  decide +kernel

/-- The inline `mx.claim os3` pushes 0x8860_0000 (10_matrix_isa.md R211). -/
theorem test_claim_inline :
    gives (exec (.mxClaimInline 3) (live .u id)) (fun x => x.mxq.map (·.cmd)) [.mxWord 0x88600000 0] = true := by
  decide +kernel

/-- A typed store joins its class queue with its bytes, least significant first (08_stoker_isa.md R162). -/
theorem test_typed_store :
    gives (exec (.abStore 9 6 5 1) (live .u fun x => (x.setX 5 0x10).setX 6 0x12345)) (fun x => x.sq.map (·.kind))
      [.store (.abuf 0 0x10) [0x45, 0x23]] = true := by decide +kernel

/-- A misaligned typed store raises cause 6 with its address (08_stoker_isa.md R149). -/
theorem test_typed_misaligned :
    gives (exec (.abStore 9 6 5 1) (live .u fun x => x.setX 5 0x11)) (fun x => (x.csr.scause, x.csr.stval)) (6, 0x11) = true := by
  decide +kernel

/-- Words of a deque, pushed with no older write on its way. -/
def words (l : List Word) : List DqWord := l.map fun v => { v := v, older := [] }

/-- dq.pop is last in, first out (01_machine.md R17; 08_stoker_isa.md R164). -/
theorem test_dq_pop :
    gives (exec (.dqPop 5) (live .u fun x => { x with deque := words [3, 4] })) (·.deque) (words [3]) = true := by
  decide +kernel

/-- SC without a reservation answers 1 (06_ordering.md R108). -/
theorem test_sc_fails :
    let e : SqEnt := { classes := 1, kind := .sc (.dev 0x100) 8 7 0 0, dest := .x 5, typed := false }
    gives (exec (.pendingRegisterWrite 0) (live .u fun x => { x with sq := [e] })) (·.getX 5) 1 = true := by decide +kernel

/-- E8M0, FP8 and FP4 codes of the spec's tables: 0x7F is 1, 0x78 in E4M3 is 256, 0x7 in E2M1 is 6 (03_numbers.md R47, R50). -/
theorem test_formats :
    (decodeEl .e4m3 0x78).cmp (.fin false 1 8) = some Ordering.eq ∧ (decodeEl .e2m1 7).cmp (.fin false 6 0) = some Ordering.eq := by
  decide +kernel

/-- CRC-32C of the nine characters 1 to 9 (the value every description of that CRC gives; log 118). -/
theorem test_crc32c : crc32c [0x31, 0x32, 0x33, 0x34, 0x35, 0x36, 0x37, 0x38, 0x39] = 0xE3069283 := by decide +kernel

/-- The body of the spec's example, which stores i + 100 at 4 i (12_portable_form.md, "a uniform loop specialised away"). -/
def exampleKernel : KernelRec :=
  { bytes := 64, arch := 1, flaja := true, sections := [], abuf := 4096, wbuf := 0, codebase := 0, uniforms := [⟨4, 1⟩],
    rings := [], segs := [⟨0, 5, 6⟩], variants := [], granules := []
    body := [0x0210000000000000, 0x0050001000000000, 0x2131001000000002, 0x2031002000000064, 0xC024002001000000,
             0x0100000000000000, 0x0140000000000800] }

/-- The example's residual for n = 3: three stores with their values and addresses, and the task end; its back map as the
spec gives it; a launch with n = 100 keeps the loop (R255, R256, R257, R262). -/
theorem test_preheater_example :
    (match exampleKernel.build [3] [] 0 with
      | .ok r =>
        decide (r.back = [(0x00, 3, 0), (0x04, 4, 0), (0x08, 3, 1), (0x0C, 2, 1), (0x10, 4, 1), (0x14, 3, 2), (0x18, 2, 2),
          (0x1C, 4, 2), (0x20, 6, 0)].map fun e => (⟨e.1, e.2.1, e.2.2⟩ : BackEntry)) && decide (r.code.length = 36)
      | .error _ => false) = true ∧
    (match exampleKernel.build [100] [] 0 with
      | .ok r => r.code != [] && r.back.any (fun e => e.opidx == 1)
      | .error _ => false) = true := by decide +kernel

/-! ### Premises met: the Stoker -/

theorem witness_registers : (1 : Reg) ≠ 0 ∧ (2 : Reg) ≠ 1 := by decide

theorem witness_noWait : (live .u id).noWait := by unfold State.noWait; decide +kernel

theorem witness_ready : (live .u id).regsReady [destX 1, destX 2, .f 3] [destX 31] := by
  unfold State.regsReady; decide +kernel

/-- A context that owes x5 a result, and one that holds an uncorrectable load's mark in x6. -/
def owing : State := live .u fun x => { x with
  sq := [{ classes := 0, kind := .ready 1, dest := .x 5, typed := false }], poison := [(.x 6, 0x80)] }

theorem witness_owed :
    [destX 5, destX 0].any owing.my.pending = true ∧ [destX 6, destX 1].any owing.my.pending = false ∧
    owing.my.pending (destX 7) = false ∧ [destX 6, destX 1].findSome? owing.my.poisoned = some 0x80 ∧
    owing.stokerRegs (.rv64Base (.alu .add 7 5 0)) = some ([destX 5, destX 0], [destX 7]) ∧
    owing.stokerRegs (.rv64Load .ld 7 6 0) = some ([destX 6], [destX 7]) := by decide +kernel

theorem witness_rounding : rvRm 7 (live .u id).my.frm = some .rne ∧ rvRm 5 0 = none := by decide +kernel

theorem witness_modes : (live .u id).my.mode = .u ∧ (live .s id).my.mode = .s ∧ (live .m id).my.mode = .m ∧
    (live .s id).my.csr.mstatus.getLsbD 22 = false ∧ (live .s id).my.csr.mstatus.getLsbD 20 = false ∧
    (let s := live .s fun x => { x with csr := { x.csr with mstatus := BitVec.ofNat 64 (2 ^ 22 + 2 ^ 20) } }
     s.my.mode = .s ∧ s.my.csr.mstatus.getLsbD 22 = true ∧ s.my.csr.mstatus.getLsbD 20 = true) := by decide +kernel

theorem witness_csr_access :
    csrMode .u 0x800 = true ∧ (live .u id).csrRead 0x800 = some 0 ∧
    ((live .u id).csrWrite 0x800 3).isSome = true ∧ csrMode .u 0xCC5 = true ∧ ((live .u id).csrRead 0xCC5).isSome = true ∧
    (live .u id).csrWrite 0xCC5 5 = none ∧ csrMode .u 0x105 = false ∧ (live .m id).csrRead 0x7FF = none := by
  decide +kernel

theorem witness_csr_writes :
    ((4 : Word).setWidth 3 : BitVec 3).toNat ≤ 4 ∧ 4 < ((5 : Word).setWidth 3 : BitVec 3).toNat ∧
    csrDoesWrite .rw 0 = true ∧ csrDoesWrite .rs 0 = false ∧ (live .u id).my.mxq = [] ∧ (live .u id).my.cxq = [] ∧
    (live .u id).my.gxq = [] ∧ (live .u id).my.fxq = [] := by decide +kernel

/-! ### Global and typed accesses -/

/-- M-mode addresses are physical: address 0x1000 lands in the device's memory. -/
theorem witness_lands : (live .m id).lands .read 0x1000 (.dev 0x1000) 0 (live .m id) ∧
    (live .m id).lands .write 0x1000 (.dev 0x1000) 0 (live .m id) ∧ (live .m id).unlent 0x1000 :=
  ⟨Or.inl ⟨by decide, by decide, by decide, rfl, rfl⟩, Or.inl ⟨by decide, by decide, by decide, rfl, rfl⟩,
    by unfold State.unlent; decide +kernel⟩

/-- A device whose partition 0 maps a page of 2 MiB to itself for U-mode with every right, and that lends it. -/
def paged : State := { live .u id with
  tlb := [{ tlb := .sk 0, part := 0, va := 0x200000, size := 0x200000, pte := 0x2000FF, attr := 0 }]
  parts := [(0, { Part.reset with pwlim := 2 ^ 30 })]
  lent := [{ part := 0, page := 0x200000, size := 0x200000, team := 0, member := 0 }] }

theorem witness_lands_lent :
    paged.lands .write 0x200040 (.dev 0x200040) 0 paged ∧ ¬paged.unlent 0x200040 :=
  ⟨Or.inr ⟨by decide, Prod.ext (by decide +kernel) rfl⟩, by unfold State.unlent; decide +kernel⟩

theorem witness_misaligned : (0x1001 : Word).toNat % 8 ≠ 0 ∧ (0x1000 : Word).toNat % 8 = 0 := by decide

theorem witness_typed :
    (live .u id).typedLands false ((live .u id).aSpace 0 0x40 8) 8 true (.abuf 0 0x40) ∧
    (live .u id).typedLands true ((live .u id).wSpace 0 0x40 8) 8 false (.wbuf 0 0x40) ∧
    (live .u id).aSpace 0 (8 * 4096) 8 = .bound (8 * 4096) :=
  ⟨Or.inr ⟨0x40, by decide +kernel, by decide +kernel⟩, Or.inr ⟨0x40, by decide +kernel, by decide +kernel⟩, by decide +kernel⟩

theorem witness_fences :
    (live .u id).my.sq.any (fun e => e.classes != 0) = false ∧
    (live .u fun x => { x with sq := [acquireEnt] }).my.sq.any (fun e => e.classes != 0) = true := by decide +kernel

/-! ### Premises met: events, performing, memory -/

theorem witness_rendezvous :
    ((live .u id).my.rvAt 7).fired = true ∧
    ((live .u fun x => { x with rv := [(7, { armed := true, owing := 1, n := 5 })] }).my.rvAt 7).fired = false := by
  decide +kernel

theorem witness_events :
    (live .u id).my.arm = 0 ∧
    (let x := (live .u fun x => { x with arm := 3, latch := 2 }).my
     x.latch &&& x.arm ≠ 0) ∧
    (live .u fun x => { x with arm := 1 }).my.arm ≠ 0 := by decide +kernel

theorem witness_members :
    (live .u fun x => { x with yteam := 0x20 }).my.teamSize = 4 ∧ 3 < 4 ∧ 4 ≤ 4 ∧
    ((live .u id).homeCtx ((live .u id).home 0 0)).recvq.length < 8 ∧
    (live .u fun x => { x with recvq := [9] }).my.recvq = 9 :: [] ∧
    (live .u id).my.classQuiet (classBit (live .u id).my.ycls) = true ∧
    (let s := live .u fun x => { x with recvq := List.replicate 8 1 }
     8 ≤ (s.homeCtx (s.home 0 0)).recvq.length) := by decide +kernel

/-- A Stoker whose class queues hold one access. -/
def queued (e : SqEnt) : State := live .u fun x => { x with sq := [e] }

/-- Whatever it is, the only access may perform: so each kind of PerformAccesses, PerformAtomics and PerformMessages is met. -/
theorem witness_mayPerform (e : SqEnt) : (queued e).mayPerform 0 e := ⟨rfl, rfl, rfl⟩

theorem witness_clean (e : SqEnt) : (queued e).clean (.dev 0x100) 8 true 0x100 ∧ (queued e).clean (.abuf 0 64) 8 false 64 :=
  ⟨rfl, rfl⟩

/-- A load of a line on which the host has armed an uncorrectable error, on a page with UEZ and on one without. -/
theorem witness_readError (uez : Bool) :
    let s : State := { live .u id with err := { (live .u id).err with inj := [(0, 0x105)] } }
    ∃ u, s.readError 0 (.dev 0x100) 8 uez 0x100 = (u, true) :=
  ⟨_, Prod.ext rfl (by cases uez <;> decide +kernel)⟩

/-- A write of the own core that stands at core scope keeps an AMO at device scope waiting; without it the AMO has caught up. -/
theorem witness_caughtUp (e : SqEnt) :
    (queued e).caughtUp (.core 0 .sk) [] 2 (.dev 0x100) 8 = true ∧
    ({ queued e with
        pend := [{ id := 0, actor := .core 0 .sk, cls := 1, scope := 0, inHost := false, part := 0, cells := [(0x104, 1)] }] } : State).caughtUp (.core 0 .sk) [] 2 (.dev 0x100) 8 = false := ⟨rfl, rfl⟩

theorem witness_reservation :
    let r : Resv := { place := .dev 0x100, size := 8, scope := 2, since := 0, broken := false }
    (live .u fun x => { x with resv := some r }).my.resv = some r ∧
    (live .u fun x => { x with resv := some { r with broken := true } }).my.resv = some { r with broken := true } ∧
    (live .u id).my.resv = none := by decide +kernel

theorem witness_deque_push :
    (live .u id).ownVisible 0 0xFFFF 1 = true ∧
    ¬64 ≤ (live .u fun x => { x with deque := words (List.replicate 63 1) }).my.deque.length ∧
    64 ≤ (live .u fun x => { x with deque := words (List.replicate 64 1) }).my.deque.length := by decide +kernel

/-- A device on which member 0 of team 0 has lent pages. -/
def lending (pages : List Nat) : State :=
  { live .u id with lent := pages.map fun a => { part := 0, page := a, size := 4096, team := 0, member := 0 } }

theorem witness_lend :
    ((lending [0x1000]).lentBy (0, 0)).any (·.page == 0x1000) = true ∧
    ((lending (List.replicate 16 0x2000)).lentBy (0, 0)).any (·.page == 0x1000) = false ∧
    16 ≤ ((lending (List.replicate 16 0x2000)).lentBy (0, 0)).length ∧
    ((lending [0x2000]).lentBy (0, 0)).any (·.page == 0x1000) = false ∧ ((lending [0x2000]).lentBy (0, 0)).length < 16 ∧
    (lending []).ownVisible 0 0xFFFF 4 = true := by decide +kernel

/-- A write at device scope and one at core scope, as agents of the core and of the host see them. -/
theorem witness_visibility :
    let w : Wr := { id := 0, actor := .core 0 .sk, cls := 1, scope := 0, inHost := false, part := 0, cells := [(0x104, 1)] }
    w.visibleAt (.core 0 .sk) 0 = true ∧ w.visibleAt .host 4 = false ∧ cellAt w.cells 0x104 = some 1 ∧
    cellAt w.cells 0x105 = none := by decide +kernel

theorem witness_settle :
    ({ live .u id with
      pend := [{ id := 0, actor := .core 0 .sk, cls := 1, scope := 4, inHost := false, part := 0, cells := [(1, 2), (3, 4)] }] } :
      State).distinct ∧ Memory.wf [(1, 2), (3, 4)] = true ∧ Memory.wf [(1, 0)] = false ∧ (live .u id).memOk :=
  ⟨by intro w h; simp only [List.mem_singleton] at h; subst h; decide, by decide, by decide, by unfold State.memOk; decide +kernel⟩

/-! ### Premises met: pushes -/

/-- A 64-byte record in ABUF at offset 0x40, which x10 names. -/
def withRecord (bs : List Byte) : State :=
  let s := live .u fun x => x.setX 10 0x40
  s.modCore 0 fun k => { k with aBytes := Memory.writeN [] 0x40 bs }

/-- A record of class 3 at device scope. -/
def plainRecord (kind : Byte) : List Byte := kind :: 0x23 :: List.replicate 62 0

theorem witness_record :
    (withRecord (plainRecord 0)).record 0x40 (plainRecord 0) :=
  ⟨by decide, .abuf 0 0x40, Or.inr ⟨0x40, by decide +kernel, by decide +kernel⟩, by decide +kernel, by decide +kernel⟩

/-- A push has room in an empty core, and none where its queue is full or the scoreboard holds 64 commands. -/
theorem witness_room (r : PushReq) : r.agent = .gx → (withRecord (plainRecord 0)).room r := by
  intro h
  refine ⟨by decide +kernel, ?_, fun _ => by decide +kernel⟩
  rw [h]; decide +kernel

/-- The entry of a command that has performed its push and not started. -/
def waitingEntry (id : Nat) (cmd : Cmd) : Entry :=
  { id := id, qpos := id, cmd := cmd, cls := 1, binds := Binds.reset, rd := [], wr := [], scored := true, pushed := true,
    started := false, begun := false, held := false, complete := false, todo := [], top := none, prog := 0, token := none,
    code := 0, seq := 0, writes := [], scope := 2, met := [], tops := [], tiles := [] }

theorem witness_full :
    (live .u fun x => { x with gxq := List.replicate (queueDepth .gx) (waitingEntry 0 (.record 0 0)) }).my.full .gx = true ∧
    (queued { acquireEnt with typed := true }).my.sq.any (·.typed) = true ∧ (live .u id).my.sq.any (·.typed) = false := by
  decide +kernel

theorem witness_push_forms :
    pushForm (.clBcast 10) = some (.cl, 3, 10) ∧ cxForm (.cxFlush 10 11) = some (7, 10, 11) ∧
    (withRecord []).regsReady [destX 10] [destX 11] ∧ ((0x41 : Word).toNat % 64 ≠ 0) := by
  unfold State.regsReady; decide +kernel

theorem witness_tokens :
    (live .u id).my.freeToken = some 0 ∧
    (live .u fun x => { x with tokens := (List.range 64).map fun n => (n, { value := 1, ended := none }) }).my.freeToken = none := by
  decide +kernel

theorem witness_token_codes :
    let x := (live .u fun x => { x with
      tokens := [(0, { value := 64, ended := none }), (1, { value := 129, ended := some 0 })],
      cxq := [{ waitingEntry 0 (.record 0 0) with token := some 0 }] }).my
    x.tokenCode 64 = 3 ∧ x.tokenCode 129 = 0 ∧ x.tokenAt 65 = none ∧
    x.cxq.find? (fun e => e.token == some 0) = some { waitingEntry 0 (.record 0 0) with token := some 0 } := by decide +kernel

/-- A command that has begun, with its first granule still to be written and its second behind it: cancelling keeps the first
(11_data_engines_isa.md R237). -/
theorem witness_cancel :
    let e := { waitingEntry 0 (.record 1 0) with begun := true, top := some 10,
                                                 todo := [.bytes (.abuf 0 11) [1], .bytes (.abuf 0 4096) [2]] }
    e.begun = true ∧ (waitingEntry 0 (.record 1 0)).begun = false ∧ e.cancelRest = [.bytes (.abuf 0 11) [1]] := by decide +kernel

theorem witness_inline_words :
    let w := 0x94200000#32
    w.getLsbD 31 = true ∧ w.extractLsb' 26 5 ≠ 31#5 ∧ (∀ c r k, accepted (decodeMxFull w) ≠ some (.mxTcfg c r k)) ∧
    (0x00001180 : BitVec 32).getLsbD 31 = false :=
  ⟨by decide, by decide, by
    intro c r k; rw [show accepted (decodeMxFull 0x94200000#32) = some (.mxTinit 1) from rfl]; simp, by decide⟩

/-- A shape of 64 rows, a shape word whose reserved bits are set, and a geometry of 48 rows by 32 columns. -/
theorem witness_bindings :
    (shapeOf 0x30040).isSome = true ∧ shapeOf 0 = none ∧
    accepted (decodeMxFull (1#1 ++ 6#5 ++ 5#5 ++ (0x1F2F#64).extractLsb' 0 6 ++ (0x1F2F#64).extractLsb' 8 6 ++ 0#9)) =
      some (.mxTcfg 5 47 31) ∧ bitsNat (0x1F2F#64).toNat 63 14 = 0 ∧ bitsNat (0x1F2F#64).toNat 7 6 = 0 := by decide +kernel

theorem witness_mark :
    let s := live .u fun x => x.setX 10 9
    (s.my.rvAt 2).fired = true ∧ (maskAgents 3#6).find? s.my.full = none := by decide +kernel

/-! ### Premises met: rings, deques, feeds, tasks -/

/-- A ring of eight 64-byte slots at 0x1000 with `filled` of them full. -/
def ring8 (filled : Nat) : Ring :=
  { Ring.none with configured := true, base := 0x1000, slotB := 64, nSlot := 8, free := 8 - filled, filled := filled }

def ringed (r : Ring) : State := live .u fun x => x.setRing 3 r

theorem witness_rings :
    ((ringed (ring8 1)).my.ring 3).configured = true ∧ ((ringed (ring8 1)).my.ring 3).heldSk = none ∧
    0 < ((ringed (ring8 1)).my.ring 3).filled ∧ ((ringed (ring8 0)).my.ring 3).filled = 0 ∧
    ((ringed Ring.none).my.ring 3).configured = false ∧
    ((ringed { ring8 1 with heldSk := some 0 }).my.ring 3).heldSk.isSome = true := by decide +kernel

/-- The largest ring the footprint holds is accepted; one slot more, no slot, a misaligned base are refused. -/
theorem witness_ring_cfg :
    (live .u id).me.ringRefused 3 0 (2 * 2 ^ 16 + 256) = false ∧ (live .u id).me.ringRefused 3 0 (3 * 2 ^ 16 + 256) = true ∧
    (live .u id).me.ringRefused 3 0 1 = true ∧ (live .u id).me.ringRefused 3 32 (1 * 2 ^ 16 + 1) = true := by decide +kernel

/-- A table entry of 16 bytes. -/
def entry (pte : Nat) : List Byte := leBytes 8 pte ++ List.replicate 8 0

/-- Partition 0 maps the pages 0 to 16, of 4 KiB, to themselves, with a root table at 0x20000; its host queues are given. -/
def mapped (qs : Tbl HostQueue) (s : State) : State := { s with
  mem := [(0x20000, 0x40001), (0x40000, 0x41001), (0x41000, 0x42001), (0x42000, 0x43001)].foldl
    (fun m e => Memory.writeN m e.1 (leBytes 8 e.2))
    (Memory.writeN [] 0x43000 ((List.range 17).flatMap fun n => leBytes 16 (0x1000 * n + 0xDF)))
  tlb := [{ tlb := .sk 0, part := 0, va := 0, size := 2 ^ 30, pte := 0x7DF, attr := 0 }]
  parts := [(0, { Part.reset with state := 2, root := 0x20000, pwlim := 2 ^ 30, queues := qs, clmask := 1 })] }

/-- A kernel with one segment at 0x2000, native or in Flaja form. -/
def kernel0 (flaja : Bool) : KernelRec :=
  { bytes := 64, arch := 0, flaja := flaja, sections := [], abuf := 4096, wbuf := 4096, codebase := 0x2000, uniforms := [],
    rings := [], segs := [{ pc := 0x2000, cost := 100, remain := 200 }], variants := [], granules := [], body := [] }

/-- A launch with a feed of 16 records at 0x6000, one segment at 0x2000 and one task. -/
def launch0 : Launch :=
  { part := 0, queue := 0, number := 1, size := 1, count := 1, uniforms := [], segs := [{ pc := 0x2000, cost := 100, remain := 200 }],
    abuf := 8, wbuf := 8, rings := 0, codebase := 0x2000, kernel := kernel0 false, residual := none, built := true,
    cacheKey := none, feedK := 4, feedAt := 0x6000, feedIn := 0, feedOut := 0 }

def team0 : Team :=
  { part := 0, launch := 0, teamNo := 0, members := [{ tcb := 0x3000, core := 0, ent := 0 }, { tcb := 0x3080, core := 1, ent := 0 }],
    state := .running, stamp := 0, prio := 0, cluster := some 0, ordered := false, done := [], admittedAt := 0, drained := [],
    lostImage := false }

/-- A team of two that runs on cores 0 and 1 in U-mode; core 1 holds the word 9 in its deque. -/
def running (f : Core → Core) : State :=
  let k : Core := { (live .u id).me with b := { (live .u id).me.b with tcb := 0x3000 } }
  mapped [] { live .u id with
    cores := [(0, f { k with task := some (0, 0) }), (1, { k with task := some (0, 1), ctx := { k.ctx with deque := words [9] } })]
    teams := [(0, team0)], launches := [(0, launch0)] }

theorem witness_deques :
    (live .u id).my.dequeQuiet = true ∧
    (live .u fun x => { x with deque := words [4, 7] }).my.deque.getLast? = some { v := 7, older := [] } ∧
    (running id).victim 0 = some 1 ∧ ((running id).ctx 1).deque.head? = some { v := 9, older := [] } ∧ (live .u id).victim 0 = none := by
  decide +kernel

theorem witness_feed :
    (running id).launchOf 0 = some 0 ∧ Tbl.get? (running id).launches 0 = some launch0 ∧ launch0.feedK ≠ 0 ∧
    launch0.feedIn = launch0.feedOut ∧ (0x40 : Word).toNat % 64 = 0 ∧ (0x41 : Word).toNat % 64 ≠ 0 := by decide +kernel

theorem witness_feed_lands : (live .u id).typedLands false ((live .u id).aSpace 0 0x40 64) 64 true (.abuf 0 0x40) :=
  Or.inr ⟨0x40, by decide +kernel, by decide +kernel⟩

/-- The task's TCB names class 5 and no variant: a variant of class 4 at a segment's pc fits, an odd entry and an unknown one
do not. -/
theorem witness_variant :
    (let s := running id
     let t : State := { s with mem := Memory.writeN s.mem 0x3000 (leBytes 8 (5 * 2 ^ 39)) }
     (t.variantStatus 0x2000 4).1 = 0 ∧ (t.variantStatus 0x2001 4).1 = 3 ∧ (t.variantStatus 0x2002 4).1 = 4) := by
  decide +kernel

theorem witness_segments :
    (running fun k => { k with ctx := { k.ctx with pc := 0x1FFC } }).segmentAt 0
      ((running fun k => { k with ctx := { k.ctx with pc := 0x1FFC } }).nextPc.toNat) =
        some { pc := 0x2000, cost := 100, remain := 200 } ∧
    (running id).segmentAt 0 (running id).nextPc.toNat = none ∧ (running id).me.task = some (0, 0) ∧
    (live .u id).me.task = none ∧ (running fun k => { k with haltReq := true }).me.haltReq = true ∧
    (running id).me.drain = false := by decide +kernel

theorem witness_retirement :
    (running fun k => { k with hold := .retiring }).me.hold = .retiring ∧ (running id).my.quiet = true ∧
    (running id).released 0 = true ∧ (queued acquireEnt).my.quiet = false ∧
    bitsNat ((running id).tcbGet 0 0x3000 0) 63 48 = 0 := by decide +kernel

/-- M-mode and S-mode interrupts of each kind pending and enabled. -/
def pendingIrq (n : Nat) : State := live .u fun x => { x with
  csr := { x.csr with mie := BitVec.allOnes 64, mip := BitVec.ofNat 64 (2 ^ n), mideleg := BitVec.ofNat 64 (2 ^ 1 + 2 ^ 5 + 2 ^ 9) } }

theorem witness_interrupts :
    (pendingIrq 11).me.interruptM = some 11 ∧ (live .u id).me.interruptM = none ∧ (live .u id).me.interruptS = none ∧
    (pendingIrq 1).me.interruptS = some 1 ∧ (pendingIrq 1).me.interruptM = none := by decide +kernel

/-- Every interrupt enabled, with a throttle warning or a fault of VX pending. -/
def special (th : Option (BitVec 32)) (fs : Tbl FaultRec) : State :=
  (live .u fun x => { x with csr := { x.csr with mie := BitVec.allOnes 64 }, faults := fs }).modCore 0 fun k =>
    { k with throttle := th }

theorem witness_special_interrupts :
    (special (some 5) []).me.interruptS = some 17 ∧
    (special (some 5) [(1, { FaultRec.none with fstat := BitVec.ofNat 64 (2 ^ 63) })]).me.interruptS = some 18 := by
  decide +kernel

theorem witness_queueLow :
    (let s := live .u fun x => { x with queueLow := true, ywm := { x.ywm with svc := true, qlact := false } }
     s.my.queueLow = true ∧ s.my.ywm.svc = true ∧ s.my.ywm.qlact = false) ∧
    (live .u fun x => { x with queueLow := true, ywm := { x.ywm with svc := false } }).my.ywm.svc = false := by decide +kernel

theorem witness_overrun :
    (let s := running fun k => { k with ctx := { k.ctx with segCost := 10, segCount := 20 } }
     s.overrun 2 = true ∧ s.my.lateDone = false ∧ s.my.mode = .u) ∧
    (running fun k => { k with ctx := { k.ctx with segCost := 10, segCount := 40 } }).overrun 4 = true ∧
    (running id).me.issues = true ∧ (running fun k => { k with halted := true }).me.issues = false := by decide +kernel

/-! ### Premises met: VX and MX -/

/-- A VX run with an open bundle, and the state that executes it. -/
def vxRun0 (bundle : List Move) : VxRun :=
  { entry := 0, hws := [], code := 0, length := 0, count := 1, n := 1, stages := 1, rot := false, k := 0, pos := 0, first := 0,
    st := 1, bundle := bundle }

def vxEntry : Entry := { waitingEntry 0 (.vxRun 0 0 (runRec false 0x8000 0x8000 [])) with started := true }

def inRun (bundle : List Move) (f : Vx → Vx) : State :=
  live .u fun x => { x with vxq := [vxEntry], vx := { f x.vx with run := some (vxRun0 bundle) } }

/-- A move from vfr2 to vfr1, and one of a constant to ld.t at a misaligned address. -/
def move (dst src : Nat) : Move := { dst := dst, src := src, dir := 0, idx := 0, op := 0, stage := 0, imm := 2 }

theorem witness_inVx (b : List Move) (f : Vx → Vx) : (inRun b f).inVx (vxRun0 b) vxEntry :=
  ⟨rfl, by show Ctx.reset.stopped .vx = false; decide +kernel, rfl, rfl⟩

theorem witness_vx_bundles :
    vxWord (.vxMoveShort 0 33 34 0) = some ⟨1, 0, 33, 34, 0, 15, 0, 0⟩ ∧
    vxWord (.vaAdd 1 9 34 0 0 0 0 0) = some ⟨2, 1, 9, 34, 0, 0, 0, 0⟩ ∧
    [move 33 34, move 34 35].length < 3 ∧ 3 ≤ [move 33 34, move 34 35, move 35 36].length ∧
    bundleBad 1 [{ dst := 63, src := 50, dir := 0, idx := 0, op := 0, stage := 0, imm := 0 }] = false ∧
    bundleBad 1 [move 33 34] = false ∧ bundleBad 1 [move 33 34, move 33 35] = true := by decide +kernel

theorem witness_vx_enables :
    (vxRun0 []).enables { dst := 63, src := 50, dir := 0, idx := 0, op := 0, stage := 0, imm := 0 } = true ∧
    (vxRun0 []).enables { dst := 63, src := 50, dir := 0, idx := 0, op := 0, stage := 1, imm := 0 } = false := by decide +kernel

/-- A cycle with no trigger, one whose load is misaligned, one that waits for an empty ring. -/
theorem witness_vx_cycle :
    let s := inRun [] id
    let a : VxAt := { e := vxEntry, r := vxRun0 [move 33 34] }
    [move 33 34].findSome? (s.my.vxHeld a) = none ∧ isTrigger 33 = false ∧ isOperand 33 = false ∧
    (∃ v ring, s.fireAll a 0 [] (s.my.before a [move 33 34]) none = .ok v ring) ∧
    (∃ f, s.fireAll a 0 [(move 23 48, List.replicate 64 2)] s.my.vx none = .fault f) :=
  ⟨by decide +kernel, by decide, by decide, ⟨_, _, rfl⟩, ⟨_, rfl⟩⟩

theorem witness_vx_store_misaligned :
    (laneAt ((inRun [] fun v => { v with ports := [(25, List.replicate 64 2)] }).my.vx.port 25) 0).toNat % 4 ≠ 0 := by
  decide +kernel

theorem witness_vx_convert :
    (vcConvert 0 0 (fun _ => .rne) false zeroLanes).isSome = true ∧ (vcPackOp 0x24 0 (fun _ => .rne) false zeroLanes).isSome = true := by
  decide +kernel

/-- Results on their way, with no run: one that lands in this cycle, one that comes nearer, bytes of a store, a cluster. -/
def flying (fl : List Flight) (w : List (Nat × Nat)) : State :=
  live .u fun x => { x with vx := { x.vx with flight := fl, waking := w } }

theorem witness_vx_landing (fl : List Flight) (w : List (Nat × Nat)) :
    (flying fl w).me.enginesRun = true ∧ (flying fl w).my.stopped .vx = false ∧ (flying fl w).my.vx.run = none ∧
    (flying fl w).my.vx.flight = fl ∧ (flying fl w).my.vx.waking = w :=
  ⟨rfl, by show Ctx.reset.stopped .vx = false; decide +kernel, rfl, rfl, rfl⟩

/-- MX with an inline word at the head of its queue. -/
def mxEntry (prog : Nat) : Entry := { waitingEntry 0 (.mxWord 0x90000000 0) with prog := prog }

def inlineMx (prog : Nat) (f : Mx → Mx) : State :=
  live .u fun x => { x with mxq := [mxEntry prog], mx := f x.mx }

def mxAt (prog : Nat) : MxAt := { e := mxEntry prog, run := none }

theorem witness_inMx (prog : Nat) (f : Mx → Mx) (h : (f Mx.reset).run = none) :
    (inlineMx prog f).inMx (mxAt prog) (inlineMx prog f) :=
  ⟨rfl, Or.inr ⟨rfl, h, ⟨rfl, by show Ctx.reset.stopped .mx = false; decide +kernel, rfl, by
    unfold State.broken; rw [show (inlineMx prog f).soot = State.reset.soot from rfl]; rfl, rfl⟩, rfl, rfl⟩⟩

/-- MX that executes a word of a run. -/
def runMx : State :=
  live .u fun x => { x with mxq := [mxEntry 0],
                            mx := { x.mx with run := some { entry := 0, hws := [], code := 0, length := 0, n := 1, k := 0, pos := 0 } } }

theorem witness_inMx_run :
    runMx.inMx { e := mxEntry 0, run := some { entry := 0, hws := [], code := 0, length := 0, n := 1, k := 0, pos := 0 } } runMx :=
  ⟨rfl, Or.inl ⟨_, rfl, rfl, rfl, by decide +kernel, rfl, rfl⟩⟩

theorem witness_mx_masks (prog n : Nat) : (mxAt prog).mayWrite n ∧ (mxAt prog).mayRead n ∧ (mxAt prog).inWindow true false [(0, 64)] :=
  ⟨fun _ h => (by cases h), fun _ h => (by cases h), fun _ h => (by cases h)⟩

/-- Slots 1 and 2 are Filled with FP8, slot 3 with FP32 scaled no less; slot 4 is Free. -/
def slots (m : Mx) : Mx :=
  { m with slots := [(1, { Slot.reset with state := .filled, fmt := 4 }), (2, { Slot.reset with state := .filled, fmt := 4 }),
      (3, { Slot.reset with state := .filled, fmt := 3 })] }

theorem witness_slots :
    ((inlineMx 0 slots).my.slot 1).state = .filled ∧ ((inlineMx 0 slots).my.slot 4).state = .free ∧
    widthClass 4 = widthClass 4 ∧ widthClass 4 ≠ widthClass 3 ∧
    ((inlineMx 0 slots).my.acc 7).inflight = none ∧ ((inlineMx 0 slots).my.acc 7).valid = false ∧
    (inlineMx 0 slots).my.fxBefore 0 = false ∧
    (inlineMx 0 fun m => { m with tiles := [(7, { AccTile.reset with valid := true })] }).my.acc 7 =
      { AccTile.reset with valid := true } ∧
    (inlineMx 0 id).my.mx.st.gateidle ≠ 0 ∧
    (inlineMx 0 id).sootOn 0 = false ∧ ((inlineMx 0 id).my.mxq.any fun e => decide (e.id < 0)) = false := by decide +kernel

/-- Operands of one row and no K units lie inside their slots; an FX pass older than the command holds it. -/
theorem witness_mma :
    let o : Operand := { sl := Slot.reset, sh := { Shape.reset with rows := 1 }, b := 8 }
    o.beyond 1 0 0 = false ∧
    (live .u fun x => { x with fxq := [waitingEntry 0 (.record 0 0)] }).my.fxBefore 1 = true := by decide +kernel

/-- A fill whose last byte was placed before a restart: granules 0 to 5 of A space, which are BF16 and hold no scales. -/
theorem witness_fill :
    let s := (inlineMx 24576 slots).modCore 0 fun k => { k with aTags := (List.range 7).map fun i => (i, 16) }
    (s.space false 0 1).place 0 0 = .ok (.abuf 0 0) ∧ slotFmt (s.tagOf (.abuf 0 0)) = some .bf16 ∧
    (∃ v, s.fillLoop (fun _ => none) false 0 (s.tagOf (.abuf 0 0)) 0 1 0 24576 (fillSpans .bf16 0 16 0 24576) 0 0 (s.my.slot 1) = .done v) :=
  ⟨rfl, by decide +kernel, ⟨_, rfl⟩⟩

theorem witness_fill_ring :
    (live .u fun x => { x with ringDecl := 8 }).my.ringDecl.getLsbD 3 = true ∧ (ring8 1).heldMx = none ∧
    (ring8 1).filled ≠ 0 ∧ (ring8 0).filled = 0 := by decide +kernel

/-- A resolve, a spill and a reload that had done all their rows and granules before a restart. -/
theorem witness_resolves :
    (inlineMx 64 id).my.vx.awake 0 = true ∧
    ((inlineMx 64 id).resolveOut 0 256 8 (fun _ => none) (fun _ => []) (64 - 64) 64).2 = none ∧
    ((inlineMx 77824 id).spillLoop (fun _ => none) 0 AccTile.reset 64 4096 (77824 / 4096 - 77824 / 4096) (77824 / 4096)).2 = none ∧
    ((inlineMx 77824 id).reloadLoop (fun _ => none) 0 64 4096 (77824 / 4096 - 77824 / 4096) (77824 / 4096) AccTile.reset).2 = none ∧
    (inlineMx 0 id).aSpace 0 0 4096 = .own 0 (.abuf 0 0) := by decide +kernel

/-! ### Premises met: the data engines -/

/-- A record of a KIND at a scope, with fields (first byte, value). -/
def record (kind scope : Nat) (fs : List (Nat × Nat)) : List Byte :=
  leBytes 64 (fs.foldl (fun v f => v + f.2 * 2 ^ (8 * f.1)) (32 * scope + 256 * kind))

/-- A place in own A space. -/
def inA (off : Nat) : Nat := 2 ^ 62 + off

/-- Engine a has the command at the head of its queue, whose record stands at 0x40. -/
def starting (a : Agent) (f : Nat) (r : List Byte) (g : Ctx → Ctx) : State :=
  let e := waitingEntry 0 (.record f 0x40)
  (live .u fun x => match a with
    | .gx => { g x with gxq := [e] }
    | .fx => { g x with fxq := [e] }
    | .cl => { g x with clq := [e] }
    | _ => { g x with cxq := [e] }).modCore 0 fun k => { k with aBytes := Memory.writeN [] 0x40 r }

/-- Whether engine a starts the command, and what holds of the job that has read its record. -/
def startsWith (a : Agent) (f : Nat) (r : List Byte) (g : Ctx → Ctx) (p : Job → Bool) : Prop :=
  ∃ j, (starting a f r g).starts a f (waitingEntry 0 (.record f 0x40)) j r ∧ p j = true

/-- `startsWith`, computed. -/
def startsB (a : Agent) (f : Nat) (r : List Byte) (g : Ctx → Ctx) (p : Job → Bool) : Bool :=
  let s := starting a f r g
  let e := waitingEntry 0 (.record f 0x40)
  s.me.enginesRun && !s.my.stopped a && decide (s.my.nextEntry a = some e) && !s.broken s.cur a e &&
    decide (s.my.holders e.id e.rd e.wr = []) && e.cmd.isRecord f &&
    match ((s.endWaitOf s.cur a 5).cmdJob a e).readBytes 0 (.a e.cmd.recOff) 64 with
    | .ok bs i => decide (bs = r) && p { i with cls := recCls bs, pdef := recPdef bs }
    | _ => false

theorem startsWith_of_startsB {a : Agent} {f : Nat} {r : List Byte} {g : Ctx → Ctx} {p : Job → Bool}
    (h : startsB a f r g p = true) : startsWith a f r g p := by
  simp only [startsB, Bool.and_eq_true, decide_eq_true_eq, Bool.not_eq_true'] at h
  obtain ⟨⟨⟨⟨⟨⟨h1, h2⟩, h3⟩, h4⟩, h5⟩, h6⟩, h7⟩ := h
  split at h7
  · next bs i hr =>
    simp only [Bool.and_eq_true, decide_eq_true_eq] at h7
    obtain ⟨rfl, h7⟩ := h7
    exact ⟨_, ⟨⟨h1, h2, h3, h4, h5⟩, h6, i, hr, rfl⟩, h7⟩
  · cases h7

/-- A copy of two rows of 8 bytes, a peer copy of no bytes, a fill of 8 bytes, and records with a byte out of place. -/
theorem witness_copies :
    startsWith .cx 1 (record 1 2 [(8, inA 0x1000), (16, inA 0x2000), (24, 8), (28, 2), (32, 8), (36, 8)]) id (fun j =>
      j.s.my.copyOk (record 1 2 [(8, inA 0x1000), (16, inA 0x2000), (24, 8), (28, 2), (32, 8), (36, 8)]) 1) ∧
    startsWith .cx 0 (record 1 2 []) id (fun j => !j.s.my.copyOk (record 1 2 []) 0) ∧
    peerOk (record 2 2 [(8, inA 0x1000), (16, 2 ^ 52), (28, 1)]) = false ∧
    startsWith .cx 3 (record 3 2 [(16, inA 0x1000), (24, 8), (28, 1)]) id (fun _ =>
      fillOk (record 3 2 [(16, inA 0x1000), (24, 8), (28, 1)])) ∧ fillOk (record 3 2 [(8, 1), (28, 1)]) = false :=
  ⟨startsWith_of_startsB (by decide +kernel),
   startsWith_of_startsB (by decide +kernel), by decide +kernel,
   startsWith_of_startsB (by decide +kernel), by decide +kernel⟩

/-- The fill of 8 bytes moves to its end. -/
theorem witness_moves :
    let m := copyMove (record 3 2 [(16, inA 0x1000), (24, 8), (28, 1)]) none 3
    ∃ j', ((live .u id).job 0 .cx 0 false).moveRows m (m.rows + 1) 0 0 = .done j' := ⟨_, rfl⟩

theorem witness_ring_command :
    startsWith .cx 4 (record 4 2 [(8, inA 0x1000), (24, 8), (28, 1), (48, 3)]) (fun x => x.setRing 3 (ring8 7)) (fun j =>
      j.s.my.ringOk (record 4 2 [(8, inA 0x1000), (24, 8), (28, 1), (48, 3)]) && decide (((j.s.homeCtx (j.s.home j.c 0)).ring 3).free ≠ 0)) ∧
    (ring8 8).free = 0 ∧ (ring8 8).prod = (live .u id).my.member ∧ 8 ≤ (ring8 8).slotB :=
  ⟨startsWith_of_startsB (by decide +kernel), by decide +kernel, by decide +kernel,
    by decide +kernel⟩

theorem witness_ranges :
    startsWith .cx 5 (record 5 2 [(8, 0x1000), (24, 0x2000), (28, 1)]) id (fun _ => rangeOk (record 5 2 [(8, 0x1000), (24, 0x2000), (28, 1)]) 5) ∧
    rangeOk (record 7 2 [(8, 0x1000), (28, 1)]) 7 = true ∧ rangeOk (record 7 2 [(8, inA 0), (28, 1)]) 7 = false :=
  ⟨startsWith_of_startsB (by decide +kernel), by decide +kernel, by decide +kernel⟩

/-- A count of one index, a gather of none, a count at an address that is no multiple of 4, a width of 5. -/
theorem witness_gather :
    startsWith .gx 3 (record 3 2 [(20, 1), (24, 0x3000), (28, 4), (32, inA 0x1000)]) id (fun _ =>
      gxOk (record 3 2 [(20, 1), (24, 0x3000), (28, 4), (32, inA 0x1000)]) 3) ∧
    gxOk (record 0 2 [(8, inA 0x1000), (16, 4), (28, 4), (32, inA 0x2000)]) 0 = true ∧
    (gxRec (record 3 2 [(20, 1), (28, 4), (32, inA 0x1001)]) 3).dst.addr % 4 ≠ 0 ∧ gxOk (record 3 2 [(28, 5)]) 3 = false :=
  ⟨startsWith_of_startsB (by decide +kernel), by decide +kernel, by decide +kernel,
    by decide +kernel⟩

/-- OUTW 1 and 64 and CONCAT 2 are in range; 0, 65 and 3 are not. -/
theorem witness_fx_cfg :
    startsWith .fx 1 (record 1 2 [(8, 64), (9, 2)]) id (fun j => decide (j.s.my.fxOutw = 64)) ∧
    headerOk (record 1 2 [(8, 64)]) 1 0 = true ∧ zeroBytes (record 1 2 [(8, 64), (9, 2)]) 10 54 = true ∧
    fld (record 1 2 [(8, 0)]) 8 1 < 1 ∧ 64 < fld (record 1 2 [(8, 65)]) 8 1 ∧ 2 < fld (record 1 2 [(9, 3)]) 9 1 :=
  ⟨startsWith_of_startsB (by decide +kernel), by decide +kernel, by decide +kernel,
    by decide +kernel, by decide +kernel, by decide +kernel⟩

/-- A pass over no edges: without weights it faults, with a filled slot it runs at once to its end. -/
theorem witness_fx_pass :
    let r := record 0 2 [(8, inA 0x1000), (24, inA 0x2000)]
    startsWith .fx 0 r id (fun j => fxOk r && decide ((j.s.my.fxPass (waitingEntry 0 (.record 0 0x40)) r).fault = some slotFault)) ∧
    (let x := (live .u fun x => { x with mx := { x.mx with slots := [(0, { Slot.reset with state := .filled, fmt := 4 })] } }).my
     let e := { waitingEntry 0 (.record 0 0x40) with binds := { Binds.reset with shapes := [(0, { Shape.reset with rows := 64 })] } }
     (x.fxPass e r).fault = none ∧
     ∃ j2, ((live .u id).job 0 .fx 0 false).fxLoop (x.fxPass e r) (0 + 1) 0 = .done j2) ∧
    (live .u id).my.mxBefore 0 = false ∧ ((live .u id).my.acc 0).inflight ≠ some .mx ∧ fxOk (record 0 2 [(40, 32)]) = false :=
  ⟨startsWith_of_startsB (by decide +kernel),
   ⟨by decide +kernel, ⟨_, rfl⟩⟩, by decide +kernel, by decide +kernel, by decide +kernel⟩

theorem witness_collectives :
    startsWith .cl 3 (record 3 1 [(8, inA 0x1000), (16, 64), (24, inA 0x1000)]) id (fun j =>
      j.s.clOk 0 (record 3 1 [(8, inA 0x1000), (16, 64), (24, inA 0x1000)]) 3 &&
      decide (j.s.clRange 0 false 0 0x1000 64 = none)) ∧
    (live .u id).clOk 0 (record 3 0 []) 3 = false ∧
    (clRec 3 (record 3 3 [])).scope = 3 ∧ (live .u id).fabricUp = false ∧
    ({ live .u id with chimney := [(0, { Chimney.reset with lstate := 2, mode := 1 })] } : State).fabricUp = true :=
  ⟨startsWith_of_startsB (by decide +kernel), by decide +kernel, by decide +kernel,
    by decide +kernel, by decide +kernel⟩

/-- A barrier at the head of the collective port, not started and started, and one whose team member has not reached it. -/
def barriers (started : Bool) : State :=
  live .u fun x => { x with clq := [{ waitingEntry 0 (.barrier true 1) with started := started }] }

theorem witness_barriers :
    (barriers false).mayStart .cl (waitingEntry 0 (.barrier true 1)) ∧ (barriers false).clDomain 0 1 (clTeam 1 true) = true ∧
    ((barriers false).my.entries.any fun o => decide (o.id < 0)) = false ∧ (barriers false).fenceDone 0 allClasses 1 = true ∧
    (barriers true).my.clHead = some { waitingEntry 0 (.barrier true 1) with started := true } ∧
    (barriers true).clCores 0 (clTeam 1 true) = some [0] ∧ (barriers true).clReady [0] (1, true, 0) = true ∧
    (barriers true).clAgree [0] (4, 0, 0, 0) = true ∧ (barriers true).clAgree [0] (3, 0, 0, 0) = false ∧
    (barriers true).clReady [0, 1] (1, true, 0) = false :=
  ⟨⟨rfl, by decide +kernel, rfl, rfl, rfl⟩, by decide +kernel, by decide +kernel, by decide +kernel, by decide +kernel, by decide +kernel, by decide +kernel, by decide +kernel,
    by decide +kernel, by decide +kernel⟩

/-- A code image at 0x2000: a header of one halfword and REPS 0, then an MX no-op. -/
def codeAt : State :=
  let s := mapped [] (live .u fun x => { x with mxq := [waitingEntry 0 (.mxRun 0x2000 0x40 (runRec true 0x8000 0x8000 (record 0 0 [])))] })
  { s with mem := Memory.writeN s.mem 0x2000 (leBytes 8 0x00000000_0000_B001) }

theorem witness_runs :
    codeAt.mayStart .mx (waitingEntry 0 (.mxRun 0x2000 0x40 (runRec true 0x8000 0x8000 (record 0 0 [])))) ∧
    codeAt.my.mx.run = none ∧ (runRec true 0x8000 0x8000 (record 0 0 [])).ok = true ∧
    (runRec true 0x8000 0x8000 (record 0 0 [(37, 1)])).ok = false ∧
    (match codeAt.fetchBlock 0 .mx 0x2000 2 0 [] with
      | .ok h v => (match v.fetchBlock 0 .mx 0x2000 1 2 [] with
        | .ok b _ => decide (h = [0xB001, 0] ∧ b = [0])
        | _ => false)
      | _ => false) = true ∧
    blockHdr true 0xB001 0 = some { length := 1, reps := 0, stages := 0, rot := false } ∧ blockHdr true 0 0 = none ∧
    framed true 2 [0] = true :=
  ⟨⟨rfl, by decide +kernel, rfl, rfl, rfl⟩, rfl, by decide +kernel, by decide +kernel, by decide +kernel, by decide +kernel,
    by decide +kernel, by decide +kernel⟩

/-! ### Premises met: host queues -/

/-- An enabled queue of partition 0 whose ring stands at 0x8000 and holds one packet. -/
def queue0 : HostQueue :=
  { base := 0x8000, log2n := 4, en := true, tail := 1, head := 0, err := 0, stop := false, stopAt := 0, errOp := 0, busy := [],
    pre := 0, arm := 0, skip := 0, graphs := [] }

/-- The queue inside a graph of four nodes at 0x8000. -/
def graphQueue (pos : Nat) (ls : List Loop) : HostQueue :=
  let g : GraphRun := { at' := 0, base := 0x8000, count := 4, pos := pos, loops := ls, busy := [], pre := 0, arm := 0, skip := 0 }
  { queue0 with graphs := [g] }

/-- Doublewords d stand at 0x8000, doublewords t at 0x9000, and a launch with a feed exists. -/
def packet (x : HostQueue) (d t : List Nat) : State :=
  let s := mapped [(0, x)] (live .u id)
  let m := Memory.writeN s.mem 0x8000 (d.flatMap (leBytes 8))
  { s with mem := Memory.writeN m 0x9000 (t.flatMap (leBytes 8)), launches := [(0, launch0)] }

/-- Whether a stream of the queue of partition 0 begins a packet of type ty, and what holds of its doublewords after their
read. -/
def beginsAt (st : Stream) (s : State) (ty : Nat) (h : State → List Nat → Bool) : Prop :=
  ∃ u d, s.begins 0 0 ty st u d ∧ h u d = true

/-- `beginsAt` of the ring. -/
def beginsWith (s : State) (ty : Nat) (h : State → List Nat → Bool) : Prop := beginsAt none s ty h

/-- `beginsAt`, computed. -/
def beginsB (st : Stream) (s : State) (ty : Nat) (h : State → List Nat → Bool) : Bool :=
  let x := s.queue 0 0
  let pre := x.streams.takeWhile fun y => (x.packetAt y).isNone
  s.queueRuns 0 0 && decide ((x.streams.drop pre.length).head? = some st) && !x.held && x.fetched st && !x.badType st ty &&
  match x.packetAt st with
  | none => false
  | some va =>
    match s.grateRead 0 va 64 64 with
    | none => false
    | some (bs, u) =>
      let d := dwords bs
      decide (dw d 0 % 256 = ty) &&
      decide ((bitNat (dw d 0) 15 || ty == 3 || ty == 5 || ty == 7 || ty == 8) = true → x.clear st = true) &&
      decide (bitsNat (dw d 0) 31 16 = 0) && decide (bitsNat (dw d 0) 14 8 = 0) && h u d

theorem takeWhile_pass {α : Type} (p : α → Bool) : ∀ (l : List α) (a : α), a ∈ l.takeWhile p → p a = true
  | [], _, h => by cases h
  | b :: l, a, h => by
    cases hb : p b
    · simp [hb] at h
    · simp only [List.takeWhile_cons, hb, if_true, List.mem_cons] at h
      rcases h with rfl | h
      · exact hb
      · exact takeWhile_pass p l a h

theorem drop_takeWhile {α : Type} (p : α → Bool) : ∀ l : List α, l.takeWhile p ++ l.drop (l.takeWhile p).length = l
  | [] => rfl
  | a :: l => by
    cases h : p a
    · simp [h]
    · simp [h, drop_takeWhile p l]

theorem beginsAt_of_beginsB {st : Stream} {s : State} {ty : Nat} {h : State → List Nat → Bool} (b : beginsB st s ty h = true) :
    beginsAt st s ty h := by
  simp only [beginsB, Bool.and_eq_true, Bool.not_eq_true'] at b
  obtain ⟨⟨⟨⟨⟨h1, h0⟩, h2⟩, hx⟩, h3⟩, b⟩ := b
  have hf : (s.queue 0 0).firstStream st := by
    refine ⟨hx, (s.queue 0 0).streams.takeWhile fun y => ((s.queue 0 0).packetAt y).isNone,
      ((s.queue 0 0).streams.drop ((s.queue 0 0).streams.takeWhile fun y =>
        ((s.queue 0 0).packetAt y).isNone).length).tail, ?_, fun y hy => ?_⟩
    · rw [decide_eq_true_eq] at h0
      refine (drop_takeWhile _ _).symm.trans (congrArg _ ?_)
      cases hl : (s.queue 0 0).streams.drop ((s.queue 0 0).streams.takeWhile fun y =>
        ((s.queue 0 0).packetAt y).isNone).length with
      | nil => rw [hl] at h0; cases h0
      | cons a l => rw [hl] at h0; cases h0; rfl
    · simpa using takeWhile_pass _ _ y hy
  split at b
  · cases b
  · next va hva =>
    split at b
    · cases b
    · next bs u hr =>
      simp only [Bool.and_eq_true, decide_eq_true_eq] at b
      obtain ⟨⟨⟨⟨h4, h5⟩, h6⟩, h7⟩, h8⟩ := b
      exact ⟨u, dwords bs, ⟨h1, h2, hf, ⟨va, bs, hva, hr, rfl⟩, h4, h5, h3, h6, h7⟩, h8⟩

theorem beginsWith_of_beginsB {s : State} {ty : Nat} {h : State → List Nat → Bool} (b : beginsB none s ty h = true) :
    beginsWith s ty h := beginsAt_of_beginsB b

/-- NOP, with and without ARG; SIGNAL to a mapped word, to an address no page maps, and with an odd address; INVAL. -/
theorem witness_packets :
    beginsWith (packet queue0 [0] []) 0 (fun _ d => decide (argOf d = 0) && zeroFrom d 1) ∧
    beginsWith (packet queue0 [2 ^ 32] []) 0 (fun _ d => decide (argOf d ≠ 0)) ∧
    beginsWith (packet queue0 [5, 0x10000, 7] []) 5 (fun u d =>
      zeroFrom d 3 && (u.grateWrite 0 (dw d 1) 8 (leBytes 8 (dw d 2))).isSome) ∧
    beginsWith (packet queue0 [5, 2 ^ 40, 7] []) 5 (fun u d =>
      zeroFrom d 3 && (u.grateWrite 0 (dw d 1) 8 (leBytes 8 (dw d 2))).isNone) ∧
    beginsWith (packet queue0 [5, 1] []) 5 (fun _ d => decide (dw d 1 % 8 ≠ 0)) ∧
    beginsWith (packet queue0 [6 + 2 ^ 32, 9] []) 6 (fun _ d => decide (argOf d ≤ 1) && zeroFrom d 2) ∧
    beginsWith (packet queue0 [6 + 2 ^ 33] []) 6 (fun _ d => decide (1 < argOf d)) :=
  ⟨beginsWith_of_beginsB (by decide +kernel), beginsWith_of_beginsB (by decide +kernel),
   beginsWith_of_beginsB (by decide +kernel), beginsWith_of_beginsB (by decide +kernel),
   beginsWith_of_beginsB (by decide +kernel), beginsWith_of_beginsB (by decide +kernel),
   beginsWith_of_beginsB (by decide +kernel)⟩

/-- PRED and FEED: a readable word or record, an unreadable one, a malformed field; a feed of 16 records has room for 16, a
FEED of 17 is longer than the queue, and an unknown feed queue. -/
theorem witness_pred_feed :
    beginsWith (packet queue0 [3, 0x9000, 255, 1] [1]) 3 (fun u d => zeroFrom d 4 && (u.grateRead 0 (dw d 1) 8 8).isSome) ∧
    beginsWith (packet queue0 [3, 2 ^ 40] []) 3 (fun u d => zeroFrom d 4 && (u.grateRead 0 (dw d 1) 8 8).isNone) ∧
    beginsWith (packet queue0 [3 + 6 * 2 ^ 40] []) 3 (fun _ d => decide (¬bitsNat (dw d 0) 42 40 < 6)) ∧
    beginsWith (packet queue0 [2 + 2 ^ 32, 0x9000, 0] [1]) 2 (fun u d =>
      decide (u.feedTarget 0 (argOf d) = some (0, launch0)) && (u.grateRead 0 (dw d 1) 64 64).isSome) ∧
    beginsWith (packet queue0 [2 + 2 ^ 32, 2 ^ 40, 0] []) 2 (fun u d =>
      decide (u.feedTarget 0 (argOf d) = some (0, launch0)) && (u.grateRead 0 (dw d 1) 64 64).isNone) ∧
    beginsWith (packet queue0 [2 + 2 ^ 32, 0x9000, 16] []) 2 (fun _ d => decide (2 ^ launch0.feedK < bitsNat (dw d 2) 15 0 + 1)) ∧
    beginsWith (packet queue0 [2 + 2 ^ 33, 0x9000, 0] []) 2 (fun u d => (u.feedTarget 0 (argOf d)).isNone) ∧
    beginsWith (packet queue0 [2, 0x9001, 0] []) 2 (fun _ d => decide (dw d 1 % 64 ≠ 0)) ∧
    launch0.room 1 = true ∧ ({ launch0 with feedIn := 16 } : Launch).room 1 = false :=
  ⟨beginsWith_of_beginsB (by decide +kernel), beginsWith_of_beginsB (by decide +kernel),
   beginsWith_of_beginsB (by decide +kernel), beginsWith_of_beginsB (by decide +kernel),
   beginsWith_of_beginsB (by decide +kernel), beginsWith_of_beginsB (by decide +kernel),
   beginsWith_of_beginsB (by decide +kernel), beginsWith_of_beginsB (by decide +kernel), by decide +kernel, by decide +kernel⟩

/-- A FEED that is held while its queue has room again. -/
theorem witness_feed_append :
    let s := packet { queue0 with busy := [.feed 0 [[1]]] } [] []
    s.queueRuns 0 0 = true ∧ (s.queue 0 0).feedHeld = some (none, 0, [[1]]) ∧ Tbl.get? s.launches 0 = some launch0 ∧
    launch0.room [[(1 : Byte)]].length = true := by decide +kernel

/-- A graph of two nodes: well formed, with a loop whose body leaves the graph, and at an address no page maps; a malformed GRAPH. -/
theorem witness_graph :
    beginsWith (packet queue0 [4, 0x9000, 1] [0]) 4 (fun u d => zeroFrom d 3 &&
      (u.nodeHeaders 0 (dw d 1) 2).any fun h => loopsOk 2 h.1 0 []) ∧
    beginsWith (packet queue0 [4, 0x9000, 1] [7 + 5 * 2 ^ 48]) 4 (fun u d => zeroFrom d 3 &&
      (u.nodeHeaders 0 (dw d 1) 2).any fun h => !loopsOk 2 h.1 0 []) ∧
    beginsWith (packet queue0 [4, 2 ^ 40, 1] []) 4 (fun u d => zeroFrom d 3 && (u.nodeHeaders 0 (dw d 1) 2).isNone) ∧
    beginsWith (packet queue0 [4 + 2 ^ 32] []) 4 (fun _ d => decide (argOf d ≠ 0)) :=
  ⟨beginsWith_of_beginsB (by decide +kernel), beginsWith_of_beginsB (by decide +kernel),
   beginsWith_of_beginsB (by decide +kernel), beginsWith_of_beginsB (by decide +kernel)⟩

/-- LOOP and BREAK inside a graph, in and outside a loop, and a loop whose second iteration may begin. -/
theorem witness_loops :
    beginsAt (some 0) (packet (graphQueue 0 []) [7 + 2 ^ 48, 3] []) 7 (fun u d =>
      decide (dw d 1 = 3) && zeroFrom d 2 && ((u.queue 0 0).graphs[0]?).isSome) ∧
    beginsAt (some 0) (packet (graphQueue 0 []) [7 + 2 ^ 48, 0] []) 7 (fun _ d => decide (dw d 1 = 0)) ∧
    beginsAt (some 0) (packet (graphQueue 1 [⟨1, 2, 3⟩]) [0, 0, 0, 0, 0, 0, 0, 0, 8] []) 8 (fun u d =>
      decide ((u.queue 0 0).graphs = (graphQueue 1 [⟨1, 2, 3⟩]).graphs) && decide (argOf d = 0) && zeroFrom d 1) ∧
    beginsAt (some 0) (packet (graphQueue 0 []) [8] []) 8 (fun u _ =>
      decide ((u.queue 0 0).graphs = (graphQueue 0 []).graphs)) ∧
    (let s := packet (graphQueue 3 [⟨1, 2, 3⟩]) [] []
     s.queueRuns 0 0 = true ∧ ((s.queue 0 0).graphs[0]?).any fun g =>
       decide (g.limit ≤ g.pos ∧ g.busy = [] ∧ 1 < 3) && g.again.isSome) :=
  ⟨beginsAt_of_beginsB (by decide +kernel), beginsAt_of_beginsB (by decide +kernel),
   beginsAt_of_beginsB (by decide +kernel), beginsAt_of_beginsB (by decide +kernel), by decide +kernel⟩

/-- A LAUNCH of one task of the kernel at 0x9000, whose TCB stands at 0xA000 and holds t, with the cache given. -/
def launching (flaja : Bool) (t : List Nat) (cache : List CacheEnt) (x : HostQueue) : State :=
  let s := packet x [1, if flaja then 2 ^ 63 else 0, 0, 0x9000, 0xA000, 0x9000, 0, 0] []
  { s with mem := Memory.writeN s.mem 0xA000 (t.flatMap (leBytes 8)), kernels := [(0x9000, kernel0 flaja)], cache := cache }

/-- A TCB of member 0 of a team of 1 whose entry is 0x2000. -/
def tcb0 (state : Nat) : List Nat := [state * 2 ^ 45, 0, 0x2000, 0, 0, 0, 0, 0, 0, 0, 0, 0, 0, 0, 0, 0]

/-- A residual with no code and no tables. -/
def residual0 : Residual := { code := [], segs := [], back := [] }

/-- A cache entry of the empty body. -/
def cached : CacheEnt :=
  { key := 0, part := 0, khash := fnv1a [], udigest := fnv1a [], bodyLen := 0, ubytes := [], res := residual0, addr := 0,
    pins := 0, valid := true, doomed := false, used := 0 }

/-- The TCBs of a launch that passes every check but what h says of it. -/
def launchedB (u : State) (d : List Nat) (flaja : Bool) (h : List (List Nat) → State → Bool) : Bool :=
  !launchBad d &&
  match u.grateRead 0 (dw d 3) 8 8 with
  | none => false
  | some (_, u1) =>
    decide (u.kernelAt 0 (dw d 3) = some (kernel0 flaja)) &&
    match u1.grateRead 0 (dw d 5) 0 0 with
    | none => false
    | some (_, u2) =>
      match u2.readTcbs 0 (dw d 4) (lCount d) with
      | none => false
      | some (ts, u3) => h ts u3

/-- A launch that begins; one whose TCB is in use; one with a TCB of another stage; an unknown kernel; an unreadable one; a shape
code of 5; a Flaja launch that misses the cache and one that hits it. -/
theorem witness_launches :
    beginsWith (launching false (tcb0 0) [] queue0) 1 (fun u d => launchedB u d false fun ts _ =>
      !launchRefused d (kernel0 false) ts && !(ts.any fun t => tcbState t != 0 && tcbState t != 6)) ∧
    beginsWith (launching false (tcb0 3) [] queue0) 1 (fun u d => launchedB u d false fun ts _ =>
      !launchRefused d (kernel0 false) ts && ts.any fun t => tcbState t != 0 && tcbState t != 6) ∧
    beginsWith (launching false [2 ^ 23] [] queue0) 1 (fun u d => launchedB u d false fun ts _ =>
      launchRefused d (kernel0 false) ts) ∧
    beginsWith (packet queue0 [1, 0, 0, 0x9000] []) 1 (fun u d => !launchBad d &&
      (u.grateRead 0 (dw d 3) 8 8).isSome && (u.kernelAt 0 (dw d 3)).isNone) ∧
    beginsWith (packet queue0 [1, 0, 0, 2 ^ 40] []) 1 (fun u d => !launchBad d && (u.grateRead 0 (dw d 3) 8 8).isNone) ∧
    beginsWith (packet queue0 [1, 5 * 2 ^ 55] []) 1 (fun _ d => launchBad d) ∧
    beginsWith (launching true (tcb0 0) [] queue0) 1 (fun u d => launchedB u d true fun ts u3 =>
      !launchRefused d (kernel0 true) ts && (u3.cacheHit (kernel0 true) []).isNone) ∧
    beginsWith (launching true (tcb0 0) [cached] queue0) 1 (fun u d =>
      launchedB u d true fun ts u3 => !launchRefused d (kernel0 true) ts && (u3.cacheHit (kernel0 true) []).isSome) :=
  ⟨beginsWith_of_beginsB (by decide +kernel), beginsWith_of_beginsB (by decide +kernel),
   beginsWith_of_beginsB (by decide +kernel), beginsWith_of_beginsB (by decide +kernel),
   beginsWith_of_beginsB (by decide +kernel), beginsWith_of_beginsB (by decide +kernel),
   beginsWith_of_beginsB (by decide +kernel), beginsWith_of_beginsB (by decide +kernel)⟩

/-- A body of one task end, and one that stops at its first word. -/
def body1 (ok : Bool) : KernelRec := { kernel0 true with body := [if ok then 0x0140000000000800#64 else 0xFFFFFFFFFFFFFFFF#64] }

/-- A build that a launch waits for, of a body that is refused or passes. -/
theorem witness_build :
    (let s := launching true (tcb0 0) [] { queue0 with busy := [.build 0 0 [1, 0, 0, 0x9000]] }
     s.queueRuns 0 0 = true ∧ (s.queue 0 0).builds.head? = some (none, 0, 0, [1, 0, 0, 0x9000]) ∧
     s.kernelAt 0 0x9000 = some (kernel0 true)) ∧
    ((body1 false).bodyError []).isSome = true ∧ (body1 true).bodyError [] = none ∧
    (match (body1 true).build [] [] 0 with
      | .ok r => decide (r.code = [0x2B, 0xB0, 0, 0])
      | .error _ => false) = true := by
  decide +kernel

/-- An entry of n bytes, which a launch pins. -/
def pinnedEnt (n : Nat) : CacheEnt := { cached with res := { residual0 with code := List.replicate n 0 }, pins := 1 }

theorem pinnedEnt_size (n : Nat) (h : n % 8 = 0) : residualSize (pinnedEnt n).res = n := by
  simp only [residualSize, residualBytes, pinnedEnt, residual0, List.length_append, List.length_replicate, List.flatMap_nil,
    List.length_nil]
  omega

theorem pinnedEnt_room (n m : Nat) (h : n % 8 = 0) (hf : firstFit cacheBytes [(0, n)] m = none) :
    makeRoom 2 [pinnedEnt n] m = none := by
  have hs := pinnedEnt_size n h
  have ha : (pinnedEnt n).addr = 0 := rfl
  have hp : ((pinnedEnt n).pins == 0) = false := rfl
  generalize pinnedEnt n = e at hs ha hp
  simp [makeRoom, hs, ha, hf, hp]

/-- The empty cache has room for a small residual, and a pinned cache has none for one of 8 bytes. -/
theorem witness_build_room :
    residualSize residual0 ≤ cacheBytes ∧ makeRoom 1 [] (residualSize residual0) = some ([], 0) ∧
    makeRoom 2 [pinnedEnt (2 ^ 24)] 8 = none := by
  have h : firstFit cacheBytes [(0, 2 ^ 24)] 8 = none := by decide +kernel
  exact ⟨by simp [residualSize, residualBytes, residual0, cacheBytes],
    by simp [residualSize, residualBytes, residual0, cacheBytes, makeRoom, firstFit], pinnedEnt_room _ _ (by omega) h⟩

theorem witness_up : (live .u id).up = true ∧ State.reset.up = false ∧ queue0.stop = false ∧ queue0.en = true ∧
    ({ queue0 with stop := true } : HostQueue).stop = true := by decide +kernel

/-! ### Premises met: retirement, faults, scheduling, energy -/

/-- A CX command that has started, and that is complete or not, with or without a token. -/
def cxDone (done : Bool) (tok : Option Nat) : State :=
  live .u fun x => { x with cxq := [{ waitingEntry 0 (.record 1 0x40) with started := true, complete := done, token := tok }] }

theorem witness_retire :
    (let s := cxDone true none
     s.me.enginesRun = true ∧ s.my.cxq[0]?.any (fun e =>
       !e.isMarker && s.my.mayRetire .cx e && e.complete && s.allVisible (.core s.cur .cx) e.scope e.writes && e.token.isNone) = true) ∧
    ((cxDone true (some 3)).my.cxq[0]?.any fun e => e.complete && e.token == some 3) = true ∧
    ((cxDone false none).my.cxq[0]?.any fun e => !e.complete && !e.isMarker) = true ∧
    (live .u fun x => { x with gxq := [waitingEntry 0 (.record 0 0)] }).my.mayRetire .gx (waitingEntry 1 (.record 0 0)) = false := by
  decide +kernel

/-- A marker at the head of the gather engine's queue, whose rendezvous register that engine or another owes. -/
def marked (owing : BitVec 6) : State :=
  live .u fun x => { x with gxq := [waitingEntry 0 (.marker 2 5)], rv := [(2, { armed := true, owing := owing, n := 5 })] }

theorem witness_markers :
    (marked (markBit .gx)).my.gxq.head? = some (waitingEntry 0 (.marker 2 5)) ∧ (marked (markBit .gx)).me.enginesRun = true ∧
    (let r := (marked (markBit .gx)).my.rvAt 2
     r.armed = true ∧ r.n = 5 ∧ r.owing ≠ 0 ∧ r.owing &&& ~~~(markBit .gx) = 0) ∧
    ((marked (markBit .gx ||| markBit .vx)).my.rvAt 2).owing &&& ~~~(markBit .gx) ≠ 0 := by decide +kernel

theorem witness_tags :
    let e := waitingEntry 0 (.tag true 0x24 4096 8192)
    let s := live .u fun x => { x with tagq := [e] }
    s.me.enginesRun = true ∧ s.my.stopped .sk = false ∧ s.my.nextEntry .sk = some e ∧ s.broken s.cur .sk e = false ∧
    s.my.holders e.id e.rd e.wr = [] := by decide +kernel

/-- A gather fault that is resolved, with an action written; entry 0 is the command it stopped. -/
def resolved (action : BitVec 2) : State :=
  live .u fun x => { x with gxq := [{ waitingEntry 0 (.record 0 0) with started := true, token := some 3 }], faults := [(4, { FaultRec.none with action := action, todo := action })] }

theorem witness_actions :
    ((resolved 1).my.fault .gx).valid = false ∧ ((resolved 1).my.fault .gx).todo = 1 ∧ ((resolved 2).my.fault .gx).todo = 2 ∧
    ((resolved 3).my.fault .gx).todo = 3 ∧ ((resolved 2).my.stoppedEntry .gx).any (fun e => e.token == some 3) = true ∧
    (live .u id).my.stoppedEntry .gx = none ∧
    ((cxDone false none).my.stoppedEntry .cx).any (fun e => e.token.isNone) = true ∧
    (special none [(4, { FaultRec.none with fstat := BitVec.ofNat 64 (2 ^ 63) })]).my.fault .gx = { FaultRec.none with fstat := BitVec.ofNat 64 (2 ^ 63) } ∧
    ({ FaultRec.none with fstat := BitVec.ofNat 64 (2 ^ 63) } : FaultRec).valid = true ∧
    (codeAt.my.mx.run = none ∧ runMx.my.mx.run.isSome = true) := by decide +kernel

/-- One team of one member in a state, in a partition that runs on cluster 0, whose islands 0 and 1 are on; core 0 is free or
holds another team. -/
def teamed (st : TeamState) (ordered : Bool) (cluster : Option Nat) (ent0 ent1 : Bool) : State :=
  let m : Member := { tcb := 0x3000, core := 0, ent := 0 }
  let y : Team := { team0 with members := [m], state := st, ordered := ordered, cluster := cluster }
  let v : Team := { team0 with members := [{ m with tcb := 0x3080 }], stamp := 1 }
  let k := { (live .u id).me with ent0 := { TtEnt.reset with v := ent0 }, ent1 := { TtEnt.reset with v := ent1 }, task := none }
  { mapped [] (live .u id) with
    cores := [(0, k)], teams := [(0, y), (1, v)], launches := [(0, { launch0 with abuf := 1, wbuf := 1 })] }

theorem witness_orders :
    (let s := teamed .ready false none false false
     (s.part 0).state = 2 ∧ s.chosenCluster 0 (s.teams.head?.getD (0, team0)).2 = some 0 ∧ (s.link 0).permits ≠ 0) ∧
    ({ teamed .ready false none false false with links := [(0, { orders := 0, permits := 0, queue := [] })] }.link 0).permits = 0 := by
  decide +kernel

/-- The one free core of cluster 0 is picked for a team that is ordered there. -/
theorem witness_placement :
    let s := (teamed .ready true (some 0) false false).takeOrders 0
    (Tbl.get? s.teams 0).any (fun x => s.waitsAt 0 x && s.holds 0 x 0 && s.isNext 0 x && s.prefers 0 x 0 &&
      decide (x.size = 1) && ((s.freeCores 0 x 0).take 1).all [0].contains) = true ∧
    ((teamed .suspended false none false false).waitsAt 0 { team0 with state := .suspended }) = true := by decide +kernel

/-- A timetable whose entries are both taken leaves no placement: no victim suffices where the team outranks nobody, and the
other team does where it has priority 0. -/
theorem witness_preemption :
    (let s := (teamed .ready true (some 0) true true).takeOrders 0
     (Tbl.get? s.teams 0).any (fun x => !(List.range 8).any (s.holds 0 x) && (s.enough x 0 [] (s.victims x 0)).isNone)) = true ∧
    (let s := (teamed .ready true (some 0) true true).takeOrders 0
     let t : State := { s with mem := Memory.writeN s.mem 0x3000 (leBytes 8 (2 ^ 31)) }
     (Tbl.get? t.teams 0).any (fun x => !(List.range 8).any (t.holds 0 x) &&
       decide (t.enough x 0 [] (t.victims x 0) = some [1]))) = true ∧
    (let s := (teamed .ready true (some 0) false false).takeOrders 0
     (Tbl.get? s.teams 0).any fun x => (List.range 8).any (s.holds 0 x)) = true := by decide +kernel

theorem witness_actionOf :
    actionOf true false (1620, 0, 0) = .kill ∧ actionOf true false (1621, 1620, 0) = .drain ∧
    actionOf false false (0, 16384, 1621) = .drain ∧ actionOf false true (0, 1621, 1621) = .checkpoint := by decide +kernel

/-- A team that is being saved, one on its way back, and one whose saved state has an injected error. -/
theorem witness_saves :
    (∃ x, Tbl.get? (teamed .suspending false none true false).teams 0 = some x ∧ x.state = .suspending) ∧
    (∃ x, Tbl.get? (teamed .moving false none true false).teams 0 = some x ∧ x.state = .moving ∧
      ((teamed .moving false none true false).teamErrors 0 x).2 = false) ∧
    (let s := teamed .moving false none true false
     let g : Image := { team := 0, member := 0, ctx := Ctx.reset, pcore := 0, wher := 2, bank := false, b := Binding.reset,
                        resident := false, aBytes := [], wBytes := [], aTags := [], wTags := [], lost := false,
                        stopped := false }
     let t : State := { s with images := [{ g with bank := true, wher := 1 }], bad := [.bank 0] }
     (Tbl.get? t.teams 0).any fun x => (t.teamErrors 0 x).2) = true :=
  ⟨⟨_, rfl, rfl⟩, ⟨_, rfl, rfl, by decide +kernel⟩, by decide +kernel⟩

/-- A staged commit that is in order, and one whose sustained power is less than the grants. -/
theorem witness_commit :
    let d := (live .u id).damper
    let c : Contract := { d.staged with psust := 150, window := 2, tceil := 95, strk := 1 }
    ({ live .u id with damper := { d with pend := true, staged := c } } : State).stagedNow.ok = true ∧
    ({ live .u id with damper := { d with pend := true, staged := { c with window := 0 } } } : State).stagedNow.ok = false ∧
    (live .u id).damper.pend = false ∧ { d with pend := true, pendEc := 1 }.pendEc = (live .u id).ec + 1 ∧
    { d with pend := true, pendEc := 0 }.pendEc ≠ (live .u id).ec + 1 ∧ ((live .u id).island 0).lateEc ≠ 1 := by decide +kernel

/-! ### Premises met: power, links, trust, services -/

/-- A device that is up, with a change. -/
def device (f : State → State) : State := f (live .u id)

theorem witness_power :
    (let s := { live .u id with cores := [(1, { Core.reset with haltReq := false })] }
     s.up = true ∧ (s.core 1).halted = true ∧ (s.core 1).ent0.v = false ∧ (s.core 1).ent1.v = false ∧ s.bankFull 1 = false) ∧
    (live .u id).me.halted = false ∧
    (let g : Image := { team := 0, member := 0, ctx := Ctx.reset, pcore := 1, wher := 1, bank := true, b := Binding.reset,
                        resident := true, aBytes := [], wBytes := [], aTags := [], wTags := [], lost := false,
                        stopped := false }
     ({ live .u id with images := [g] } : State).bankFull 1 = true) ∧
    (State.reset.island 0).pstate = 0 ∧ (∀ k, k < 16 → (State.reset.island (16 * (128 - 128) + k)).pstate = 0) ∧
    (running id).ownerOf 0 = some 0 ∧ (live .u id).ownerOf 0 = none ∧ (running id).hitBy 0 0 team0 = true := by decide +kernel

/-- A partition whose interface 3 is in a state. -/
def trusted (st : TdiState) (session : Bool) : State := device fun s =>
  { s with
    parts := [(0, { Part.reset with tdi := 3, state := 1, pwlim := 2 ^ 30 })]
    tdis := [(3, { Tdi.reset with state := st, session := session, period := 1 })], hostUp := true }

theorem witness_links :
    (trusted .run true).hostUp = true ∧ ((trusted .run true).interfaceAt 0x1000).any (fun x => x.passes true && !x.passes false) = true ∧
    (trusted .run true).interfaceAt (2 ^ 30) = none ∧ isPeer (2 ^ 51) = true ∧ isPeer 0x1000 = false ∧
    (trusted .run true).decoded 0x1000 8 = false ∧
    ({ trusted .run true with hdm := [(0, (0x1000, 64))] } : State).decoded 0x1000 8 = true ∧
    ({ trusted .run true with hdm := [(0, (0x1000, 64))] } : State).decoded 0x1040 1 = false ∧ ((0x1000 : BitVec 52).toNat + 8 ≤ Config.lp6Bytes) ∧
    (let s := device fun s => { s with chimney := [(0, { Chimney.reset with lstate := 2, mode := 1 }), (1, { Chimney.reset with lstate := 1 })] }
     (s.port 0).carries = true ∧ (s.port 0).crcerr ≠ 0xFFFFFFFF#32 ∧ (s.port 0).lstate ≠ 0 ∧ (s.port 1).lstate = 1 ∧ s.fabricUp = true) ∧
    ((live .u id).port 0).lstate = 0 ∧ (live .u id).fabricUp = false := by decide +kernel

theorem witness_trust :
    (trusted .locked true).partOf 3 = some 0 ∧ (trusted .locked true).partOf 4 = none ∧ ((trusted .locked true).part 0).state = 1 ∧
    ((trusted .unlocked false).tdi 3).state = .unlocked ∧ ((trusted .locked true).tdi 3).session = true ∧
    ((trusted .locked false).tdi 3).session = false ∧ ((trusted .error false).tdi 3).state = .error ∧
    (let s := { trusted .run true with time := 3 * second }
     (s.tdi 3).lastBeat + 2 * (s.tdi 3).period * second < s.time) ∧
    ((live .u id).part 0).state ≠ 1 := by decide +kernel

/-- A firmware image with an SVN. -/
def image (svn : Nat) (ok : Bool) : FirmwareImage :=
  { edOk := ok, mlOk := true, revision := 1, svn := svn, length := 4096, measured := 0, mode0 := 1, elanes0 := 3, mode1 := 0,
    elanes1 := 3, lp6Trains := true, cacheBase := 0, serves := [1, 2] }

theorem witness_firmware :
    State.reset.up = false ∧ ({ State.reset with fw := { State.reset.fw with fuse := 5 } } : State).fw.fuseCount = 2 ∧
    State.reset.fw.rstage.toNat + (image 0 true).length ≤ Config.lp6Bytes ∧
    ¬0xFFFFFFFFFFFF + (image 0 true).length ≤ Config.lp6Bytes ∧ (image 63 true).svn ≤ 63 ∧ 63 < (image 64 true).svn ∧
    (image 0 false).edOk = false ∧ (∀ p, p < 8 → ((live .u id).part p).state ≠ 2) ∧ ((running id).part 0).state = 2 ∧
    (device fun s => { s with fw := { s.fw with image := some (image 1 true) } }).fw.image = some (image 1 true) ∧
    (live .u id).fw.image = none := by decide +kernel

/-- A request of the running team's member 0, a lent page it names or does not name. -/
def serving (buf : Nat) : State :=
  { running id with
    requests := [{ part := 0, team := 0, member := 0, bytes := leBytes 8 2 ++ leBytes 8 buf ++ leBytes 8 64, payload := none, core := 136 }]
    lent := [{ part := 0, page := 0x200000, size := 0x200000, team := 0, member := 0 }] }

theorem witness_services :
    (serving 0).requests[0]?.isSome = true ∧
    (serving 0).requests[0]?.any (fun r => r.delivers && !(serving 0).mute r && !(serving 0).foreign r) = true ∧
    ({ serving 0 with handles := [(0, 3)] } : State).requests[0]?.any ({ serving 0 with handles := [(0, 3)] } : State).foreign = true ∧
    (let t : State := { trusted .error false with requests := (serving 0).requests }
     t.requests[0]?.any t.mute) = true ∧
    (let t : State := { serving 0 with requests := (serving 0).requests.map fun r => { r with bytes := leBytes 8 1 ++ leBytes 8 0x1000 ++ leBytes 8 8 } }
     (t.readPayload 0).requests[0]?.any fun r => !r.delivers && r.payload.isSome) = true ∧
    (serving 0).lent.find? (fun l => l.part == 0 && l.page == (0x200000 : BitVec 57).toNat) =
      some { part := 0, page := 0x200000, size := 0x200000, team := 0, member := 0 } ∧
    (serving 0).pageNamed { part := 0, page := 0x200000, size := 0x200000, team := 0, member := 0 } = false ∧
    (serving 0x200040).pageNamed { part := 0, page := 0x200000, size := 0x200000, team := 0, member := 0 } = true ∧
    ((serving 0).tdi ((serving 0).part 0).tdi.toNat).state ≠ .error ∧
    ((serving 0).memberHome 0 ({ tcb := 0x3000, core := 0, ent := 0 }, 0)) = some (.core 0) := by decide +kernel

/-- Soot on with sampling; a breakpoint on core 0's Stoker at its pc, and the core in a task or in none. -/
def stopping (s : State) : State := { s with soot := { s.soot with ctl := 5, brk := [(0, BitVec.ofNat 64 (2 ^ 63))] } }

theorem witness_soot :
    ({ stopping (live .u id) with ec := 65536 } : State).sampleDue = true ∧ (live .u id).sampleDue = false ∧
    ({ stopping (live .u id) with ec := 65535 } : State).sampleDue = false ∧ (stopping (live .u id)).brkHit 0 = some (0, .sk) ∧
    ((stopping (live .u id)).core 0).hold = .none ∧ ((stopping (live .u id)).core 0).halted = false ∧
    ((stopping (live .u id)).core 0).task = none ∧ ((stopping (running id)).core 0).task = some (0, 0) ∧
    (stopping (running id)).brkHit 0 = some (0, .sk) := by decide +kernel

/-! ### Premises met: register windows -/

theorem witness_windows :
    (trusted .locked true).windowLocked 0 = true ∧ (trusted .unlocked false).windowLocked 0 = false ∧
    (live .u id).configRefused 0 0x300 = true ∧ (live .u id).configRefused 0 0x101 = false ∧
    (running id).configRefused 0 0x101 = false ∧ ((running id).part 0).state = 2 ∧ bitsNat (0x101 : Word).toNat 9 8 = 1 ∧
    ((running id).part 0).root ≠ bitsNat (0x1000 : Word).toNat 51 12 * 4096 ∧ (0x1 : Word).getLsbD 0 = true := by decide +kernel

/-- The running team frozen in place or with its state saved, or with an image lost. -/
def frozen (st : TeamState) (lost : Bool) : State :=
  { running id with teams := [(0, { team0 with state := st, lostImage := lost })] }

theorem witness_freezes :
    (frozen .frozenHere false).teamAt 0 ((0x3010 : BitVec 57).toNat / 128 * 128) =
      some (0, { team0 with state := .frozenHere }, 0) ∧
    (frozen .frozenSaved false).teamAt 0 0x3080 = some (0, { team0 with state := .frozenSaved }, 1) ∧
    (frozen .frozenHere true).teamAt 0 0x3000 = some (0, { team0 with state := .frozenHere, lostImage := true }, 0) ∧
    (running id).teamAt 0 0x3000 = some (0, team0, 0) := by decide +kernel

/-- A halted core takes a binding; one that runs does not. Its other timetable entry may be written; its own, and one that
meets it, may not. -/
theorem witness_core_windows :
    (live .u id).up = true ∧ 0 < Config.nCores ∧ ((live .u id).core 0).hold = .none ∧ (live .u id).islandUp 0 = true ∧
    ((live .u id).core 1).halted = true ∧ ((live .u id).core 0).halted = false ∧ ((live .u id).core 1).b.load 0 1 ≠ none ∧
    (live .u id).me.cur = 0 ∧
    (let v := (live .u id).me.b
     meets v v = true ∧ meets v { v with aBase := 8, wBase := 8 } = false) := by decide +kernel

theorem witness_registers_up : State.reset.up = false ∧ (live .u id).up = true ∧ ¬(0x70000 ≤ 0x20000 ∧ 0x20000 < 0x80000) := by decide

/-! ### Premises met: a step -/

/-- Core 0 in M-mode, with bytes at its pc 0x2000. -/
def fetching (bs : List Byte) : State :=
  let s := live .m fun x => { x with pc := 0x2000 }
  { s with mem := Memory.writeN s.mem 0x2000 bs }

theorem witness_boundary :
    (fetching []).boundary = none ∧ (fetching []).coreOn (fetching []).cur = true ∧ (fetching []).me.hold = .none ∧
    (pendingIrq 11).boundary = some .interruptTake ∧ (pendingIrq 11).wfeReady = false := by decide +kernel

/-- An interrupt waits at the boundary before an `sk.wfe` that nothing arms, which is executed first (08_stoker_isa.md R159). -/
theorem witness_wfeReady :
    let s := live .m fun x => { x with pc := 0x2000, csr := { x.csr with mie := BitVec.allOnes 64, mip := 0x800, mstatus := 8 } }
    let s : State := { s with mem := Memory.writeN s.mem 0x2000 (leBytes 4 0x040012AB) }
    s.boundary = some .interruptTake ∧ s.wfeReady = true := by decide +kernel

/-- `addi x5, x0, 1` of four bytes, `c.nop` of two, and two zero bytes, which are no instruction. -/
theorem witness_fetch :
    (∃ b u, (fetching [0x93, 2, 0x10, 0]).fetchAt 0 2 = .ok b u ∧ isLong b = true ∧ ∃ b' v, u.fetchAt 2 2 = .ok b' v ∧
      decodeBytes (b ++ b') = .ok (.rv64Base (.aluImm .addi 5 0 1), 4)) ∧
    (∃ b u, (fetching [1, 0]).fetchAt 0 2 = .ok b u ∧ isLong b = false ∧ ∃ i, decodeBytes b = .ok (i, 2)) ∧
    (∃ b u, (fetching []).fetchAt 0 2 = .ok b u ∧ isLong b = false ∧ ∃ e, decodeBytes b = .error e) :=
  ⟨⟨_, _, rfl, by decide +kernel, _, _, rfl, rfl⟩, ⟨_, _, rfl, by decide +kernel, _, rfl⟩,
   ⟨_, _, rfl, by decide +kernel, _, rfl⟩⟩

/-- Turns of VX and MX in a run that has read its block, of MX at an inline word, and of an event that has no word. -/
theorem witness_turns :
    (live .u id).coreOn 0 = true ∧ encode (.islandOn 3) = none ∧
    (let r : VxRun := { vxRun0 [] with hws := [0b0_1_100001_100010_10] }
     r.hws ≠ [] ∧ ∃ i n, decodeStream false (r.hws.drop r.pos) = .ok (i, n)) ∧
    (∃ i n, decodeStream true (([0x1180] : List (BitVec 16)).drop 0) = .ok (i, n)) ∧
    ((inlineMx 0 id).my.mx.run = none ∧ (inlineMx 0 id).my.nextEntry .mx = some (mxEntry 0) ∧
      ∃ i, decodeMxFull 0x90000000#32 = .ok i) :=
  ⟨by decide +kernel, rfl, ⟨by decide, _, _, rfl⟩, ⟨_, _, rfl⟩, ⟨rfl, by decide +kernel, _, rfl⟩⟩

/-- A valid tile with another anchor than the command's, one with the same, and a number that has a tile. -/
theorem witness_anchors :
    let t : AccTile := { (live .u id).my.acc 0 with valid := true, anchor := 3 }
    ((inlineMx 0 fun x => { x with tiles := [(0, t)] }).my.acc 0).inflight = none ∧
    ((inlineMx 0 fun x => { x with tiles := [(0, t)] }).my.acc 0).valid = true ∧
    ((inlineMx 0 fun x => { x with tiles := [(0, t)] }).my.acc 0).anchor ≠ (46 : BitVec 10).toInt ∧
    ((live .u id).my.acc 0).valid = false ∧ outWindow (2 ^ 65) = true ∧ outWindow (2 ^ 65 - 1) = false ∧
    (7 : BitVec 5).toNat < 8 := by decide +kernel

theorem witness_mark_word :
    ((inlineMx 0 id).my.mxq.any fun e => decide (e.id < (mxAt 0).e.id)) = false ∧
    ([waitingEntry 0 (.mxBind), waitingEntry 1 (.mxBind)].any fun e => decide (e.id < (waitingEntry 1 .mxBind).id)) = true ∧
    (0x1180 : BitVec 16).extractLsb' 15 1 = 0#1 ∧ (0x8000 : BitVec 16).extractLsb' 15 1 = 1#1 := by decide +kernel

theorem witness_step_next :
    (live .u id).memOk ∧ ∃ t, step { live .u id with plan := [.tick 1 1] } = .next t :=
  ⟨by unfold State.memOk; decide +kernel, _, rfl⟩

theorem witness_encodes :
    (Instr.mxMma 7 0 0 0 0 0 3 5).wf = true ∧ (encode (.mxMma 7 0 0 0 0 0 3 5)).isSome = true := by decide +kernel

/-! ### Premises met: the clauses beside the first of each statement -/

/-- The values' own premises, at their corners: divisors, the least integer, shift amounts, and NaNs, zeros and infinities. -/
theorem witness_values :
    (3 : Word) ≠ 0 ∧ ¬((7 : Word) = BitVec.intMin 64 ∧ (3 : Word) = BitVec.ofInt 64 (-1)) ∧
    (0x80000000 : BitVec 32) = BitVec.intMin 32 ∧ (31 : BitVec 6).toNat < 32 ∧ (1 : Word).toNat / 2 ^ (63 - 63) = 1 ∧
    (1 : Word).toNat % 2 ^ (0 + 1) = 2 ^ 0 ∧ (Val.nan true).isNan = true ∧ ((Val.inf false).mul (.fin false 0 0)).isNan = true ∧
    ((Val.fin false 1 0).mul (.fin false 1 0)).isNan = false ∧
    (decodeEl .fp32 0x3F800000).cmp (decodeEl .fp32 0x40000000) = some .lt ∧ Fmt.emin .fp32 ≤ 0 ∧ (-200 : Int) < Fmt.emin .fp32 := by
  decide +kernel

theorem misses_fault (s : State) (acc : Acc) (va : Word) (hm : s.my.mode ≠ .m)
    (h : (s.translate (.core s.cur .sk) s.me.b.part.toNat acc (s.my.mode == .u) va.toNat).1 = .fault) :
    ∃ r, s.misses acc va r := ⟨_, Or.inr ⟨hm, _, Or.inl ⟨Prod.ext h rfl, rfl⟩⟩⟩

theorem misses_violation (s : State) (acc : Acc) (va : Word) (hm : s.my.mode ≠ .m)
    (h : (s.translate (.core s.cur .sk) s.me.b.part.toNat acc (s.my.mode == .u) va.toNat).1 = .violation) :
    ∃ r, s.misses acc va r := ⟨_, Or.inr ⟨hm, _, Or.inr (Or.inl ⟨Prod.ext h rfl, rfl⟩)⟩⟩

/-- No page of partition 0 maps an address; a page outside the partition's window breaks isolation; and M-mode
addresses end with the memory. -/
theorem witness_misses :
    (∃ r, (mapped [] (live .u id)).misses .read (2 ^ 31) r) ∧ (∃ r, (mapped [] (live .u id)).misses .write (2 ^ 31) r) ∧
    (let s : State := { paged with parts := [(0, { Part.reset with pwlim := 0x1000 })] }
     ∃ r, s.misses .read 0x200000 r) ∧
    (live .m id).misses .read (2 ^ 38) (.fault .noSuchMemory) :=
  ⟨misses_fault _ _ _ (by decide +kernel) (by decide +kernel),
   misses_fault _ _ _ (by decide +kernel) (by decide +kernel),
   misses_violation _ _ _ (by decide +kernel) (by decide +kernel),
   Or.inl ⟨by decide, by decide, rfl⟩⟩

/-- How a fetch ends. -/
def fetchKind (f : Fetch) : Nat :=
  match f with
  | .ok _ _ => 0
  | .page _ => 1
  | .violation _ => 2
  | .error _ => 3
  | .image _ => 4
  | .hole => 5

theorem page_of_kind {f : Fetch} (h : fetchKind f = 1) : ∃ u, f = .page u := by cases f <;> first | exact ⟨_, rfl⟩ | cases h
theorem violation_of_kind {f : Fetch} (h : fetchKind f = 2) : ∃ u, f = .violation u := by
  cases f <;> first | exact ⟨_, rfl⟩ | cases h
theorem error_of_kind {f : Fetch} (h : fetchKind f = 3) : ∃ u, f = .error u := by cases f <;> first | exact ⟨_, rfl⟩ | cases h

/-- A fetch at an address that no page maps, one that breaks isolation, one of a line with an armed uncorrectable error, and
one of a code image whose shared header is not there. -/
theorem witness_fetch_faults :
    (∃ u, ((mapped [] (live .u id)).upd fun x => { x with pc := 2 ^ 31 }).fetchAt 0 2 = .page u) ∧
    (let s : State := { paged with parts := [(0, { Part.reset with pwlim := 0x1000 })] }
     ∃ u, (s.upd fun x => { x with pc := 0x200000 }).fetchAt 0 2 = .violation u) ∧
    (let s := fetching [1, 0]
     ∃ u, ({ s with err := { s.err with inj := [(0, 0x2000 + 5)] } } : State).fetchAt 0 2 = .error u) ∧
    (live .u id).my.mode ≠ .m ∧ (live .u id).me.b.codebase = 0 ∧ (0x5000 : Word).toNat % 4096 ≠ 4095 :=
  ⟨page_of_kind (by decide +kernel), violation_of_kind (by decide +kernel), error_of_kind (by decide +kernel), by decide,
    by decide, by decide⟩

/-- A member beyond the team, through the window (05_local_memory.md R79). -/
theorem witness_window :
    (live .u id).aSpace 0 0x1F00000 8 = .badMember 15 ∧ (live .u id).my.teamSize ≤ 15 ∧
    (live .u fun x => { x with yteam := 0x20 }).aSpace 0 0x1100000 8 = .team (.abuf 0 0) := by decide +kernel

/-- A reservation at another address, and one of another size. -/
theorem witness_other_reservation :
    let r : Resv := { place := .dev 0x100, size := 8, scope := 2, since := 0, broken := false }
    (live .u fun x => { x with resv := some r }).my.resv = some r ∧ r.place ≠ .dev 0x108 ∧ r.size ≠ 4 := by decide +kernel

/-- A launch whose feed holds one record; the record's page translates to itself and holds no error. -/
theorem witness_feed_record :
    (let s : State := { running id with launches := [(0, { launch0 with feedIn := 1 })] }
     let q := Actor.core 0 .sk
     (Tbl.get? s.launches 0).any (fun l => decide (l.feedIn ≠ l.feedOut) && decide (l.feedAt + 64 * (l.feedOut % 2 ^ l.feedK) = 0x6000)) = true ∧
     s.my.sq.any (fun e => e.typed || e.classes &&& classBit s.my.ycls != 0) = false ∧
     (s.translate q 0 .read false 0x6000).1 = .ok (.dev 0x6000) 0 ∧
     (s.translate q 0 .read false 0x6000).2 = s ∧
     s.readErrors q 0 false (.dev 0x6000) 64 0x6000 = (s, false) ∧
     s.launchOf (s.meter 0 (lineEvent (.dev 0x6000) 0 false) 1).cur = some 0) :=
  ⟨by decide +kernel, by decide +kernel, by decide +kernel, rfl, rfl, rfl⟩

/-- Words that a retired task of launch 0 left on core 0 stand above those of the task that runs there. -/
theorem witness_left :
    (let s := running fun k => { k with left := [(0, { v := 5, older := [] }), (1, { v := 6, older := [] })] }
     s.dequeOf 0 0 = words [5] ∧ s.dequeOf 0 1 = words [6] ∧ s.dequeOf 1 0 = words [9] ∧ (running id).dequeOf 0 0 = []) := by
  decide +kernel

/-- A team of two of which member 1 is switched out of core 0, where member 0 runs: its entry and its saved context. -/
def switching : State :=
  let g : Image := { team := 0, member := 1, ctx := Ctx.reset, pcore := 0, wher := 1, bank := true, b := Binding.reset,
                     resident := true, aBytes := [], wBytes := [], aTags := [], wTags := [], lost := false, stopped := false }
  { running fun k => { k with ent1 := { TtEnt.reset with v := true } } with
    teams := [(0, { team0 with members := [{ tcb := 0x3000, core := 0, ent := 0 }, { tcb := 0x3080, core := 0, ent := 1 }] })]
    images := [g] }

theorem witness_segment_end_waits :
    (switching.alternate 0).isSome = true ∧ (running id).alternate 0 = none ∧ (switching.core 0).drain = false := by
  decide +kernel

/-- A task's TCB that names no successor, read without a violation, and one whose read breaks isolation, which freezes the team;
counts of 0, 1 and 2 of a successor, of a team that waits. -/
theorem witness_successors :
    (let s := running fun k => { k with hold := .retiring }
     let r := s.succs 0 0 (Config.lp6Bytes / 128) 0x3000 6 8
     (r.2.core 0).hold = .retiring ∧ (s.tcbLook 0 0x3000).tcbBreaks 0 0x3000 = false ∧
     (let t : State := { s with parts := s.parts.map fun e => (e.1, { e.2 with pwlim := 0x3000 }) }
      ((t.succs 0 0 (Config.lp6Bytes / 128) 0x3000 6 8).2.core 0).hold ≠ .retiring ∧
      (t.tcbLook 0 0x3000).tcbBreaks 0 0x3000 = true)) ∧
    (let one : State := { running id with mem := Memory.writeN (running id).mem 0x3080 (leBytes 8 (2 ^ 48)), teams := [(0, { team0 with state := .waiting })] }
     let two : State := { running id with mem := Memory.writeN (running id).mem 0x3080 (leBytes 8 (2 ^ 49)) }
     bitsNat (one.tcbGet 0 0x3080 0) 63 48 = 1 ∧ bitsNat (two.tcbGet 0 0x3080 0) 63 48 = 2 ∧
     ((one.tcbSet 0 0x3080 0 63 48 0).teamAt 0 0x3080).any (fun x => x.2.1.state == .waiting) = true ∧
     ((running id).teamAt 0 0x3080).any (fun x => x.2.1.state == .waiting) = false) := by decide +kernel

/-- A move held by a tile in flight for MX, and a tile of the vector file that holds an uncorrectable error. -/
theorem witness_vx_held :
    (let s := inRun [] fun v => { v with tiles := [(0, { MTile.reset with inflight := some .mx, valid := true })] }
     [move 33 0].findSome? (s.my.vxHeld { e := vxEntry, r := vxRun0 [move 33 0] }) = some (8, Agent.mx.code)) ∧
    (let s : State := { inRun [] id with bad := [.mfile 0 0] }
     (s.sramErrors (.core 0 .vx) 0 ([move 33 0].flatMap (VxAt.tilesRead { e := vxEntry, r := vxRun0 [] } 0 s.my.vx))).2 = true) := by
  decide +kernel

/-- A run of entry 0 with windows of 4,096 bytes. -/
def windowedAt : VxAt :=
  let r : RunRec := { runRec false 0x8000 0x8000 [] with rdLen := 4096, wrLen := 4096 }
  { e := { waitingEntry 0 (.vxRun 0 0 r) with started := true }, r := vxRun0 [] }

/-- A load, store or switch move with its operation byte. -/
def unitMove (dst op : Nat) : Move := { dst := dst, src := 48, dir := 0, idx := 0, op := BitVec.ofNat 8 op, stage := 0, imm := 0 }

/-- VX with ring 3 in A space, of eight slots of n bytes, with ring number 3 in port 22. -/
def ringVx (n : Nat) (r : Ring → Ring) : State :=
  live .u fun x => { (x.setRing 3 (r { ring8 1 with slotB := n })) with vx := { x.vx with ports := [(22, List.replicate 64 3)] } }

/-- A ring load of int32: a slot that holds it, one it leaves before its end, one it begins behind; no byte to take, and a slot
that VX holds already; a ring in WBUF and one that is not configured. -/
theorem witness_ring_loads :
    (unitMove 23 0x63).dst = 23 ∧ (unitMove 23 0x63).code = 3 ∧ (unitMove 23 0x63).ty = 3 ∧ (live .u id).bad = [] ∧
    (match loadElems ((ringVx 256 id).aTag 0) ((ringVx 256 id).aByte 0) 3 64 vecUnit 0x1000 with
      | .ok _ ranges => decide (ranges.findSome? (fun p => firstOut 0x1000 (0x1000 + 256) p.1 p.2) = none ∧
          ranges.findSome? (fun p => firstOut 0x1000 (0x1000 + 64) p.1 p.2) = some (0x1000 + 64))
      | _ => false) = true ∧
    ((ringVx 256 id).my.ring 3).filled ≠ 0 ∧ ((ringVx 256 id).my.ring 3).inW = false ∧
    ((ringVx 64 fun r => { r with filled := 0 }).my.ring 3).filled = 0 ∧
    ((ringVx 64 fun r => { r with heldVx := some 0 }).my.ring 3).heldVx.isSome = true ∧
    ((ringVx 64 fun r => { r with inW := true }).my.ring 3).inW = true ∧ ((ringVx 64 fun _ => Ring.none).my.ring 3).configured = false ∧
    (laneAt ((ringVx 64 id).my.vx.port 22) 0).toNat % 8 = 3 := by decide +kernel

/-- The raw load, and the three stores with every lane in the window, one beyond it, one misaligned. -/
theorem witness_vx_windows :
    (windowedAt.rec?.any fun r => decide (r.outside false 0 1 = none ∧ r.outside false 0 256 = none ∧ r.outside true 0 256 = none ∧
      r.outside true 4092 4 = none ∧ r.outside true 3844 256 = some 4096)) = true ∧
    (unitMove 23 0xC4).code = 4 ∧ (unitMove 26 0).code = 0 ∧ (unitMove 26 1).code = 1 ∧ (unitMove 26 2).code = 2 ∧
    (laneAt (List.replicate 64 4) 63).toNat % 4 = 0 ∧ (laneAt (List.replicate 64 2) 0).toNat % 4 ≠ 0 := by decide +kernel

/-- The writes of VCC and of the phase, the three words of the switch, and a conversion whose format VCC does not assign. -/
theorem witness_vx_units :
    (unitMove 20 0xC0).ty = 6 ∧ (unitMove 20 0xC0).code = 0 ∧ (unitMove 20 0xC1).code ≠ 0 ∧ (unitMove 28 0).code = 0 ∧
    (unitMove 28 1).code = 1 ∧ (unitMove 28 2).code = 2 ∧ (unitMove 20 0x20).ty ≠ 6 ∧ (unitMove 20 0x20).op.getLsbD 0 = false ∧
    vcConvert 0x1F 0 (fun _ => .rne) false zeroLanes = none ∧ vcPackOp 0x1F 0 (fun _ => .rne) false zeroLanes = none := by
  decide +kernel

/-- Values of the vector units: comparable codes, NaNs, an infinite product, a sum of infinities, and codes at the ends. -/
theorem witness_vx_values :
    (decodeEl .fp32 0x3F800000).cmp (decodeEl .fp32 0x40000000) = some .lt ∧
    (decodeEl .fp32 0x40000000).cmp (decodeEl .fp32 0x3F800000) = some .gt ∧ (decodeEl .fp32 0x7FC00000).isNan = true ∧
    ((decodeEl .fp32 0x7F800000).mul (decodeEl .fp32 0)).isNan = true ∧ (decodeEl .fp32 0).isNan = false ∧
    ((decodeEl .fp32 0).mul (decodeEl .fp32 0)).isNan = false ∧ vtySubs 2 = 2 ∧ vtySubs 0 = 1 ∧
    [Val.inf false, .inf true].contains (.inf true) = true := by decide +kernel

/-- A sub-array idle for its whole time and one that is not, by GATEIDLE; and a word of a run at a tile that is valid. -/
theorem witness_idle_gate :
    (let s := live .u fun x => { x with mx := { x.mx with st := { x.mx.st with gateidle := 4 } } }
     ({ s with ec := 64 } : State).my.mx.st.gateidle ≠ 0 ∧
     Tbl.get 0 s.my.mx.idle (3 : BitVec 2).toNat + 16 * s.my.mx.st.gateidle.toNat ≤ ({ s with ec := 64 } : State).ec ∧
     ¬(Tbl.get 0 s.my.mx.idle (3 : BitVec 2).toNat + 16 * s.my.mx.st.gateidle.toNat ≤ ({ s with ec := 63 } : State).ec)) ∧
    (let s := runMx.upd fun x => x.setAcc 2 { AccTile.reset with valid := true }
     (s.my.acc 2).inflight = none ∧ (s.my.acc 2).valid = true ∧ (runMx.my.acc 2).valid = false) := by decide +kernel

/-- Sums on both sides of the window's end, a product that loses bits, and the automatic anchor with and without a product. -/
theorem witness_accumulate :
    (-(2 ^ 65) : Int) ≤ 2 ^ 65 - 1 ∧ ((2 ^ 65 - 1 : Int)) < 2 ^ 65 ∧ ((2 : Int) ^ 65 ≤ (2 ^ 65 - 1) + 1 * (2 ^ 0 : Nat)) ∧
    (-46 : Int) = 0 - 48 + (2 : Nat) ∧ (-50 : Int) + (2 : Nat) = 0 - 48 ∧
    (autoAnchor (some (.fin false 1 0)) (some (.fin false 1 3))).isSome = true ∧ autoAnchor none (some (.fin false 1 0)) = none ∧
    (csaAdd 0 Elem.zero (.fin false 3 (-49))).inx = true := by decide +kernel

/-- A fill that has read the granule before the end of A space, and stops there. -/
theorem witness_fill_stop :
    (let s := (inlineMx 4096 slots).modCore 0 fun k => { k with aTags := (List.range 8).map fun i => (i, 16) }
     (s.space false 28672 1).place 0 28672 = .ok (.abuf 0 28672) ∧
     (∃ e own v, s.fillLoop ((mxAt 4096).outside false) false 28672 (s.tagOf (.abuf 0 28672)) 0 1 0 4096
       (fillSpans .bf16 0 16 28672 24576) 0 0 (s.my.slot 1) = .stop e own v ∧ e.sub ≠ .uncorrectable)) :=
  ⟨rfl, _, _, _, rfl, by decide⟩

/-- Rows, granules to spill and granules to reload that stop at the end of A space, and addresses that are not aligned. -/
theorem witness_resolve_stops :
    ((inlineMx 0 id).resolveOut 32768 256 8 (fun i => (mxAt 0).writeFault (32768 + i * 256) 256) (fun _ => []) 64 0).2.isSome = true ∧
    ((inlineMx 0 id).spillLoop ((mxAt 0).writeFault · 4096) 32768 AccTile.reset 64 4096 19 0).2.isSome = true ∧
    ((inlineMx 0 id).reloadLoop ((mxAt 0).outside false) 32768 64 4096 19 0 AccTile.reset).2.any (fun f => f.1.sub != .uncorrectable) = true ∧
    (32 : Nat) % 64 ≠ 0 ∧ (64 : Nat) % 64 = 0 ∧ 64 % 4096 ≠ 0 ∧ 32768 % 4096 = 0 := by decide +kernel

/-- A copy behind a held copy of another class and far away, and of the same class. -/
def behind (cls : Nat) : State :=
  let r := fun (c dst : Nat) => record 0 2 [(0, c), (8, inA 0), (16, dst), (24, 8), (28, 1)]
  let e := waitingEntry 1 (.record 0 0x80)
  (live .u fun x => { x with cxq := [{ waitingEntry 0 (.record 0 0x40) with held := true, started := true }, e] }).modCore 0 fun k =>
    { k with aBytes := Memory.writeN (Memory.writeN [] 0x40 (r 3 0x10000)) 0x80 (r cls 0x20000) }

theorem witness_passing :
    (behind 4).mayPass 0 (waitingEntry 1 (.record 0 0x80)) = true ∧ (behind 3).mayPass 0 (waitingEntry 1 (.record 0 0x80)) = false ∧
    (behind 4).my.nextEntry .cx = some (waitingEntry 1 (.record 0 0x80)) ∧
    (behind 3).mayStart .cx (waitingEntry 1 (.record 0 0x80)) ∧ (waitingEntry 1 (.record 0 0x80)).cmd.isRecord 0 = true :=
  ⟨by decide +kernel, by decide +kernel, by decide +kernel, ⟨rfl, by decide +kernel, by decide +kernel, rfl, by decide +kernel⟩, rfl⟩

/-- The slot that a produce has taken, and a member beyond the team; an older produce to the ring stands before a younger. -/
theorem witness_produce :
    decide (2 ^ 63 ≤ 2 ^ 63 + 3 * 2 ^ 32 + 16) = true ∧
    (live .u id).my.ringOk (record 4 2 [(8, inA 0x1000), (24, 8), (28, 1), (48, 3), (49, 1)]) = false ∧
    (let e := fun (n : Nat) => { waitingEntry n (.record 4 0x40) with started := true, begun := true, todo := [.filled 0 3] }
     let s := (live .u fun x => { (x.setRing 3 (ring8 6)) with cxq := [e 0, e 1] }).modCore 0 fun k =>
       { k with aBytes := Memory.writeN [] 0x40 (record 4 2 [(8, inA 0x1000), (24, 8), (28, 1), (48, 3)]) }
     s.olderFills 0 1 (.filled 0 3) = true ∧ s.olderFills 0 0 (.filled 0 3) = false) := by decide +kernel

/-- A produce whose source reaches beyond A space stops there, and one of 8 bytes moves to its end. -/
theorem witness_produce_moves :
    let s := live .u fun x => x.setRing 3 (ring8 7)
    let j := s.job 0 .cx 0 false
    (∃ j', j.moveSlot (rplace (inA 0x1000)) (s.slotPlace 0 0 1 (ring8 7)) 8 9 0 = .done j') ∧
    (∃ f r k j', j.moveSlot (rplace (inA 0x8000)) (s.slotPlace 0 0 1 (ring8 7)) 8 9 0 = .stop f r k j') := ⟨⟨_, rfl⟩, ⟨_, _, _, _, rfl⟩⟩

/-- A pass of one edge whose vertex is beyond NVERT, and one that reads its rows while its weight slot holds an error. -/
theorem witness_fx_stops :
    let x := (live .u fun x => { x with mx := { x.mx with slots := [(0, { Slot.reset with state := .filled, fmt := 4 })] } }).my
    let e := { waitingEntry 0 (.record 0 0x40) with binds := { Binds.reset with shapes := [(0, { Shape.reset with rows := 64 })] } }
    let p := x.fxPass e (record 0 2 [(8, inA 0x1000), (16, 1), (24, inA 0x2000)])
    let k := ({ live .u id with bad := [.slot 0 0] } : State).job 0 .fx 0 false
    p.fault = none ∧ (∃ f e0 j2, ((live .u id).job 0 .fx 0 false).fxLoop p (p.nedge + 1) 0 = .stop f e0 j2) ∧
    (∃ rows k', (k.readBytes 0 (p.edges.shift (8 * 0)) (8 * 0)).bind (fun bs k =>
      k.fxRows p 0 ((List.range 0).map fun i => (fld bs (8 * i) 4, fld bs (8 * i + 4) 4))) = .ok rows k' ∧
      (k'.s.sramErrors (.core k'.c .fx) (k'.s.core k'.c).b.part.toNat [.slot k'.c p.slot]).2 = true) :=
  ⟨by decide +kernel, ⟨_, _, _, rfl⟩, ⟨_, _, rfl, by decide +kernel⟩⟩

/-- A count whose counter lies beyond A space stops there. -/
theorem witness_gx_stop :
    let g := gxRec (record 3 2 [(20, 1), (24, 0x3000), (28, 4), (32, inA 0x8000)]) 3
    (match (gxLoop (countStep g) 1 2 0 ((mapped [] (live .u id)).job 0 .gx 0 false)).1 with
      | .stop _ _ _ => true
      | _ => false) = true := by decide +kernel

/-- A barrier behind an older command; a collective that waits outside the domain of its launch; a reduction alone in its team,
with an uncorrectable error in what it reads. -/
theorem witness_collective_faults :
    (let s := live .u fun x => { x with clq := [waitingEntry 1 (.barrier true 1)], gxq := [waitingEntry 0 (.record 0 0)] }
     (s.my.entries.any fun o => decide (o.id < 1)) = true) ∧
    (let s : State := { running id with
       teams := [(0, team0), (1, { team0 with cluster := some 3 })] }
     s.clDomain 0 1 false = false ∧ s.clDomain 0 1 true = true) ∧
    (let r := record 0 1 [(8, inA 0x1000), (16, 64), (24, inA 0x1000)]
     let e := { waitingEntry 0 (.record 0 0x40) with started := true }
     let s : State := { live .u fun x => { x with clq := [e], cl := { x.cl with record := r } } with bad := [.abuf 0 (0x1000 / 64)] }
     s.my.clHead = some e ∧ s.clCores 0 (s.my.clKey e).2.1 = some [0] ∧ s.clReady [0] (s.my.clKey e) = true ∧
     s.clAgree [0] (s.my.clForm e) = true ∧ (s.clReads 0).2 = true) := by decide +kernel

/-- A FEED that waits for room, in a queue that runs; a feed whose memory can be written, and one whose memory no page maps. -/
theorem witness_feed_waits :
    (let s := packet { queue0 with busy := [.feed 0 [[1]]] } [2] []
     s.queueRuns 0 0 = true ∧ (s.queue 0 0).feedHeld = some (none, 0, [[1]]) ∧ (s.queue 0 0).held = true ∧
     (s.feedIn 0 launch0 [List.replicate 64 1]).isSome = true ∧
     (s.feedIn 0 { launch0 with feedAt := 2 ^ 40 } [List.replicate 64 1]).isNone = true) ∧ launch0.room 16 = true := by
  decide +kernel

/-- A loop at its body's end, with iterations left and with none. -/
theorem witness_loop_ends :
    (let g : GraphRun := { at' := 0, base := 0x8000, count := 4, pos := 3, loops := [⟨1, 2, 3⟩], busy := [], pre := 0, arm := 0, skip := 0 }
     g.limit ≤ g.pos ∧ g.busy = [] ∧ g.again.isSome = true ∧
     ({ g with loops := [⟨1, 2, 1⟩] } : GraphRun).again = none) ∧
    ((packet (graphQueue 3 [⟨1, 2, 3⟩]) [] []).queue 0 0).held = false := by decide +kernel

/-- Queue control: a queue that runs keeps LOG2N; a stopped one rests at HEAD or before it. -/
theorem witness_queue_control :
    queue0.en = true ∧ queue0.stop = false ∧ ({ queue0 with stop := true } : HostQueue).stopAt = ({ queue0 with stop := true } : HostQueue).head ∧
    ({ queue0 with stop := true, stopAt := 5 } : HostQueue).stopAt ≠ ({ queue0 with stop := true, stopAt := 5 } : HostQueue).head ∧
    (2 : Word).getLsbD 0 = false := by decide +kernel

/-- A launch whose TCBs can be written and one whose TCB's page is read-only; a body that can be read and one that cannot. -/
theorem witness_launch_memory :
    (let s := launching true (tcb0 0) [] queue0
     s.tcbsWritable 0 0xA000 1 = true ∧ (s.readBody 0 0x9000 (kernel0 true)).isSome = true ∧
     (s.readBody 0 (2 ^ 40) { kernel0 true with sections := [(0, 8)] }).isNone = true ∧
     (let t : State := { s with tlb := s.tlb.map fun e => { e with pte := e.pte &&& ~~~4#64 }, mem := Memory.writeN s.mem 0x43000 ((List.range 17).flatMap fun n => leBytes 16 (0x1000 * n + 0xDB)) }
      t.tcbsWritable 0 0xA000 1 = false)) := by decide +kernel

/-- A queue with two builds: the first, of a launch that is gone, cannot end, and the second ends in a refusal. -/
theorem witness_builds :
    (let x := { queue0 with busy := [.build 7 0 [1, 0, 0, 0x9000], .build 0 0 [1, 0, 0, 0x9000]] }
     let s : State := { launching true (tcb0 0) [] x with launches := [(0, { launch0 with kernel := body1 false })] }
     s.queueRuns 0 0 = true ∧ (s.queue 0 0).builds = [(none, 7, 0, [1, 0, 0, 0x9000]), (none, 0, 0, [1, 0, 0, 0x9000])] ∧
     (s.buildEnd 0 0 [] (none, 7, 0, [1, 0, 0, 0x9000])).isNone = true ∧
     (s.buildEnd 0 0 [] (none, 0, 0, [1, 0, 0, 0x9000])).isSome = true ∧ dw [1, 0, 0, 0x9000] 6 = 0) := by decide +kernel

/-- A residual of the body of one task end is placed in an empty cache, and would be written to memory that is mapped, or not. -/
theorem witness_build_placed :
    (match ({ body1 true with segs := [] } : KernelRec).build [] [] 0 with
      | .ok r => decide (r.segs.length = 0 ∧ residualSize r = 16)
      | .error _ => false) = true ∧
    ((launching true (tcb0 0) [] queue0).grateWrite 0 0xB000 17 (List.replicate 16 0)).isSome = true ∧
    ((launching true (tcb0 0) [] queue0).grateWrite 0 (2 ^ 40) 17 (List.replicate 16 0)).isNone = true := by decide +kernel

/-- MX holds a slot of ring 3, which a discard returns; a CX copy and a run of MX are what the discard drops; a fault without an
action. -/
theorem witness_discard :
    (let s := ringed { ring8 1 with heldMx := some 0 }
     (List.range 8).filter (fun i => ((s.ctx 0).ring i).heldMx.isSome) = [3]) ∧
    (runMx.my.mx.run.any fun m => m.entry == 0) = true ∧
    ((special none [(4, { FaultRec.none with fstat := BitVec.ofNat 64 (2 ^ 63) })]).my.fault .gx).valid = true := by
  decide +kernel

/-- The Trivet of cluster 0 runs where its island does; a team that waits keeps its place once the hardware has looked at its TCB;
a Ready team that no cluster holds; victims that run. -/
theorem witness_trivet :
    (teamed .ready true (some 0) false false).trivetRuns 0 = true ∧
    (let s := teamed .ready true (some 0) false false
     ({ s with islands := (128, { Island.reset 128 with pstate := 0 }) :: s.islands } : State).trivetRuns 0 = false) ∧
    (let u := (teamed .ready true (some 0) false false).takeOrders 0
     (Tbl.get? u.teams 0).any (fun x => (Tbl.get? ((u.lookWaiting 0).lookTcbs x).teams 0).any (u.waitsAt 0 ·)) = true) ∧
    (let u := (teamed .ready true (some 0) true true).takeOrders 0
     (Tbl.get? u.teams 0).any (fun x => (Tbl.get? (u.tcbLook x.part x.tcb).teams 0).any (·.state == .ready)) = true ∧
     (Tbl.get? u.teams 1).any (fun y => (Tbl.get? (u.lookTcbs y).teams 1).any (·.state == .running)) = true) := by
  decide +kernel

/-- A commit that is older than the one of this ec; an island with a full bucket, an empty one and a grant, and one that the
debit takes below 0; an episode that goes on and one that ends. -/
theorem witness_energy :
    (let d := (live .u id).damper
     let e := { d with pend := true, pendEc := 1, pendOld := some (live .u id).stagedNow }
     e.pend = true ∧ e.pendEc = (live .u id).ec + 1 ∧ e.pendOld = some (live .u id).stagedNow ∧
       { d with pend := true, pendEc := 1 }.pendOld = none ∧ (live .u id).stagedNow.table.length = 140) ∧
    (0 : Int) - 0 < 1000 ∧ (1000 : Int) ≤ 2000 - 0 ∧
    (let x := { (live .u id).island 0 with owed := 5 }
     x.episode = none ∧ bucketAfter x.bucket 5 0 0 0 < 0) ∧
    (let x := { (live .u id).island 0 with cap := 10, grant := 10 }
     0 ≤ bucketAfter x.bucket 0 0 10000 10000 ∧ 0 ≤ bucketAfter x.bucket 0 0 10000 10000 + 2 * (10000 - 0)) ∧
    throttleNext (some 3) 0 0 = (false, none, false) ∧ (throttleNext (some 1) (-1) 0).2.2 = true ∧
    ((live .u id).island 0).lateEc ≠ 1 ∧ { (live .u id).island 0 with lateEc := 1 }.lateEc = 1 := by decide +kernel

/-- An uncore island whose core islands are all off, and one of a cluster that still has one on. -/
theorem witness_uncore_power :
    (∀ k, k < 16 → (State.reset.island (16 * (128 - 128) + k)).pstate = 0) ∧ ((live .u id).island (16 * (128 - 128) + 0)).pstate ≠ 0 ∧
    (live .u id).ownerOf 128 = none := by decide +kernel

/-- A port in collective transport, alone: its end leaves no port that carries the fabric, and stops a fabric collective on a
core and in a saved context. -/
theorem witness_fabric_end :
    (let r := record 3 3 [(8, inA 0x1000), (16, 64), (24, inA 0x1000)]
     let f := fun (x : Ctx) => { x with clq := [{ waitingEntry 0 (.record 3 0x40) with started := true }], cl := { x.cl with record := r } }
     let s := live .u f
     let g : Image := { team := 0, member := 0, ctx := f Ctx.reset, pcore := 0, wher := 2, bank := false, b := Binding.reset,
                        resident := false, aBytes := [], wBytes := [], aTags := [], wTags := [], lost := false, stopped := false }
     s.fabricUp = false ∧ (s.ctx 0).clFabric.isSome = true ∧ ((live .u id).ctx 0).clFabric = none ∧
     ({ s with images := [g] } : State).images[0]?.any (fun g => g.ctx.clFabric.isSome) = true) ∧
    (let s := device fun s => { s with chimney := [(0, { Chimney.reset with lstate := 2, mode := 1 })] }
     s.fabricUp = true ∧ (s.port 0).mode ≠ BitVec.ofNat 2 6 ∧ (s.port 0).mode = BitVec.ofNat 2 5 ∧ 6 < 2 ^ 4 ∧ 6 % 4 ≠ 3 ∧ 6 / 4 ≠ 0) := by
  decide +kernel

/-- A heartbeat in time, and one after twice the period. -/
theorem witness_heartbeats :
    (let s := trusted .run true
     (s.tdi 3).session = true ∧ s.time ≤ (s.tdi 3).lastBeat + 2 * (s.tdi 3).period * second) ∧
    (let s := { trusted .run true with time := 3 * second }
     (s.tdi 3).lastBeat + 2 * (s.tdi 3).period * second < s.time) ∧ (1 : Nat) ≤ 600 ∧ 600 < 601 := by decide +kernel


/-- A stop finds member 0 on its core and member 1 switched out. -/
theorem witness_stops :
    (Tbl.get? switching.teams 0).any (·.state == .running) = true ∧ switching.imageOf 0 1 = some 0 ∧
    switching.images[0]?.any (fun g => g.team == 0 && g.member == 1) = true ∧ (switching.core 0).hold = .none ∧
    (Tbl.get? (frozen .frozenHere false).teams 0).any (fun x => x.state != .running && x.state != .suspending) = true ∧
    (stopping (running id)).sootOn 0 = false := by decide +kernel

/-- The window of a partition that runs keeps its bounds; an interface in ERROR refuses a resume. -/
theorem witness_window_bounds :
    ((running id).part 0).pwbase ≠ bitsNat (0x1000 : Word).toNat 51 12 * 4096 ∧
    ((running id).part 0).pwlim ≠ bitsNat (0x1000 : Word).toNat 51 12 * 4096 ∧ (running id).windowLocked 0 = false ∧
    (running id).inError 0 = false ∧ (trusted .error false).inError 0 = true ∧ (running id).busyPart 0 = true := by decide +kernel

/-- A core that holds a task, and one with none whose alternate is not valid: HALT = 0 lets both go on; the core without a task
whose other entry is valid is not covered. -/
theorem witness_let_in :
    ((running id).core 0).task.isSome = true ∧ ((live .u id).core 0).task = none ∧
    (((live .u id).core 0).ent ((live .u id).core 0).other).v = false ∧
    ¬(Config.nCores ≤ 0) ∧ (0 = ((live .u id).core 0).cur ∧ ((live .u id).core 0).halted = false) := by decide +kernel

end Sys2Proof.Tests
end

section
/-! SUPPORT. The 16-bit MX words: the decoder's answer for each short operation, and what a mark does (07_encoding.md R134,
10_matrix_isa.md R225). -/
namespace Sys2Proof.Machine

/-! ### The table of short operations -/

section
variable {w : BitVec 16}

/-- A word with bit 15 = 1 is no 16-bit MX word. -/
theorem decodeMxHalf_of_long (hw : w.extractLsb' 15 1 = 1#1) : decodeMxHalf w = .error .illegalWord := by
  rw [decodeMxHalf, if_pos hw]

variable (hw : w.extractLsb' 15 1 = 0#1)
include hw

theorem decodeMxHalf_nop (hop : w.extractLsb' 12 3 = 0#3) :
    decodeMxHalf w = if w = 0#16 then .ok .mxNop else .error .illegalWord := by
  simp [decodeMxHalf, hw, hop]

theorem decodeMxHalf_release (hop : w.extractLsb' 12 3 = 1#3) :
    decodeMxHalf w =
      if w.extractLsb' 0 7 = 0#7 then .ok (.mxReleaseShort (w.extractLsb' 7 5)) else .error .illegalWord := by
  simp [decodeMxHalf, hw, hop]

theorem decodeMxHalf_mark (hop : w.extractLsb' 12 3 = 2#3) : decodeMxHalf w = .ok (.mxMark (w.extractLsb' 0 12)) := by
  simp [decodeMxHalf, hw, hop]

theorem decodeMxHalf_gate (hop : w.extractLsb' 12 3 = 3#3) :
    decodeMxHalf w = if w.extractLsb' 0 8 = 0#8 then .ok (.mxGate (w.extractLsb' 8 4)) else .error .illegalWord := by
  simp [decodeMxHalf, hw, hop]

/-- The short operations 100 to 111 are reserved. -/
theorem decodeMxHalf_reserved (hop : 4#3 ≤ w.extractLsb' 12 3) : decodeMxHalf w = .error .illegalWord := by
  have h4 : 4 ≤ (w.extractLsb' 12 3).toNat := hop
  rw [decodeMxHalf, if_neg (by simp [hw])]
  split
  case h_5 => rfl
  all_goals omega

end

/-- A word under a condition is accepted exactly where the condition holds. -/
theorem accepted_ite (c : Prop) [Decidable c] (i : Instr) (e : DecodeErr) :
    accepted (if c then .ok i else .error e) = if c then some i else none := by
  split <;> rfl

/-! ### The mark -/

section
variable {s u : State} {m : MxAt} (h : s.inMx m u)
include h

/-- A mark waits while an older MX command has not retired. -/
theorem exec_mxMark_waits (n : BitVec 12) (hold : (u.my.mxq.any fun e => decide (e.id < m.e.id)) = true) :
    exec (.mxMark n) s = .next u :=
  (State.withMx_at h _).trans (if_pos hold)

/-- A mark with no older MX command left is recorded, where Soot traces the core, and ends. -/
theorem exec_mxMark_records (n : BitVec 12) (hold : (u.my.mxq.any fun e => decide (e.id < m.e.id)) = false) :
    exec (.mxMark n) s = .next ((if u.sootOn u.cur then u.sootRecord (sootDw0 5 Agent.mx.code u.cur m.e.qpos) n.toNat
      (u.launchNo u.cur * 2 ^ 32) else u).mxNext m) :=
  (State.withMx_at h _).trans (if_neg (by simp [hold]))

end

/-- Settles O60: the decoder's answer for each short operation, and the mark before and after the older commands retire. -/
theorem shortMatrixWords : Obligations.ShortMatrixWords := by
  unfold Obligations.ShortMatrixWords
  refine ⟨fun w hw => ⟨fun hop => ?nop, fun hop => ?release, fun hop => ?mark, fun hop => ?gate, fun hop => ?reserved⟩,
    fun w hw => ?long, fun s u m n h => ⟨exec_mxMark_waits h n, exec_mxMark_records h n⟩⟩
  case nop => rw [decodeMxHalf_nop hw hop, accepted_ite]
  case release => rw [decodeMxHalf_release hw hop, accepted_ite]
  case mark => rw [decodeMxHalf_mark hw hop, accepted]
  case gate => rw [decodeMxHalf_gate hw hop, accepted_ite]
  case reserved => rw [decodeMxHalf_reserved hw hop, accepted]
  case long => rw [decodeMxHalf_of_long hw, accepted]

end Sys2Proof.Machine
end

section
/-! SUPPORT. The rendezvous registers under `sk.rdvwait` and `sk.rdvtest`, and what retiring an instruction leaves of the
acting context: beside the pc, the count, the energy and the waits, at most a reservation breaks (08_stoker_isa.md R158,
06_ordering.md R108). -/
namespace Sys2Proof.Machine

/-! ### Reservations that a write breaks -/

/-- The entry at a key after a change of every entry that leaves the default there. -/
theorem Tbl.get_map {α : Type} {d : α} {f : Nat → α → α} {n : Nat} (h : f n d = d) :
    ∀ t : Tbl α, Tbl.get d (t.map fun e => (e.1, f e.1 e.2)) n = f n (Tbl.get d t n)
  | [] => h.symm
  | (k, v) :: t => by
    simp only [List.map_cons, Tbl.get]
    split
    case isTrue hk => rw [hk]
    case isFalse => exact Tbl.get_map h t

theorem Ctx.breakResv_eq (c : Nat) (w : Wr) (x : Ctx) : ∃ r, x.breakResv c w = { x with resv := r } := by
  unfold Ctx.breakResv
  split
  case h_1 r _ =>
    split
    · exact ⟨some { r with broken := true }, rfl⟩
    · exact ⟨x.resv, rfl⟩
  case h_2 => exact ⟨x.resv, rfl⟩

@[simp] theorem State.ctx_breakResvs (s : State) (w : Wr) (c : Nat) :
    (s.breakResvs w).ctx c = (s.ctx c).breakResv c w := by
  have h := Tbl.get_map (f := fun c (k : Core) => { k with ctx := k.ctx.breakResv c w })
    (show { Core.reset with ctx := Core.reset.ctx.breakResv c w } = Core.reset from rfl) s.cores
  exact congrArg Core.ctx h

/-- From s to t the acting core stays, and of no core's context more than the reservation changes. -/
def State.onlyResvs (s t : State) : Prop := t.cur = s.cur ∧ ∀ c, ∃ r, t.ctx c = { s.ctx c with resv := r }

/-- States with the same acting core and the same cores. -/
theorem State.onlyResvs_of_cores {s t : State} (hcur : t.cur = s.cur) (hcores : t.cores = s.cores) : s.onlyResvs t :=
  ⟨hcur, fun c => ⟨(s.ctx c).resv, by simp only [State.ctx, State.core, hcores]⟩⟩

theorem State.onlyResvs_trans {s t u : State} (hst : s.onlyResvs t) (htu : t.onlyResvs u) : s.onlyResvs u := by
  obtain ⟨hcur, hctx⟩ := hst
  obtain ⟨hcur', hctx'⟩ := htu
  refine ⟨hcur'.trans hcur, fun c => ?_⟩
  obtain ⟨r, hr⟩ := hctx c
  obtain ⟨r', hr'⟩ := hctx' c
  exact ⟨r', by rw [hr', hr]⟩

theorem State.onlyResvs_breakResvs (s : State) (w : Wr) : s.onlyResvs (s.breakResvs w) := by
  refine ⟨rfl, fun c => ?_⟩
  rw [State.ctx_breakResvs]
  exact Ctx.breakResv_eq c w _

theorem State.onlyResvs_foldl_breakResvs {α : Type} (wr : α → Wr) (l : List α) (s : State) :
    s.onlyResvs (l.foldl (fun s p => s.breakResvs (wr p)) s) := by
  induction l generalizing s with
  | nil => exact State.onlyResvs_of_cores rfl rfl
  | cons p l ih => exact State.onlyResvs_trans (State.onlyResvs_breakResvs s (wr p)) (ih _)

theorem State.onlyResvs_settle (s : State) : s.onlyResvs s.settle := State.onlyResvs_of_cores rfl rfl

theorem State.onlyResvs_mendLines (s : State) (cells : Memory) : s.onlyResvs (s.mendLines cells) := by
  unfold State.mendLines
  split <;> exact State.onlyResvs_of_cores rfl rfl

/-- Writes that join the coherence order: marks of SRAM, the order itself, reservations, and memory. -/
theorem State.onlyResvs_addWrites (s : State) (q : Actor) (scope : Nat) (parts : List (Nat × BitVec 4 × Bool × Memory)) :
    s.onlyResvs (s.addWrites q scope parts) := by
  unfold State.addWrites
  dsimp only
  refine State.onlyResvs_trans ?_ (State.onlyResvs_settle _)
  refine State.onlyResvs_trans ?_ (State.onlyResvs_foldl_breakResvs _ parts _)
  exact State.onlyResvs_trans (State.onlyResvs_mendLines s _) (State.onlyResvs_of_cores rfl rfl)

theorem State.onlyResvs_hwWrite (s : State) (sc pa : Nat) (bs : List Byte) : s.onlyResvs (s.hwWrite sc pa bs) :=
  State.onlyResvs_addWrites s _ _ _

theorem State.onlyResvs_soot (s : State) (o : Soot) : s.onlyResvs { s with soot := o } := State.onlyResvs_of_cores rfl rfl

theorem State.onlyResvs_meterUncore (s : State) (i q n : Nat) : s.onlyResvs (s.meterUncore i q n) :=
  State.onlyResvs_of_cores (s.meterUncore_cur i q n) (s.meterUncore_cores i q n)

theorem State.onlyResvs_sootRecord (s : State) (dw0 dw2 dw3 : Nat) : s.onlyResvs (s.sootRecord dw0 dw2 dw3) := by
  unfold State.sootRecord
  dsimp only
  split
  · exact State.onlyResvs_of_cores rfl rfl
  · refine State.onlyResvs_trans ?_ (State.onlyResvs_meterUncore _ 136 1 1)
    exact State.onlyResvs_trans (State.onlyResvs_hwWrite s _ _ _) (State.onlyResvs_soot _ _)

/-! ### What the acting context keeps -/

/-- A Soot record after an update of the acting context. -/
theorem State.my_upd_sootRecord (s : State) (f : Ctx → Ctx) (dw0 dw2 dw3 : Nat) :
    ∃ r, ((s.upd f).sootRecord dw0 dw2 dw3).my = { f s.my with resv := r } := by
  obtain ⟨hcur, hctx⟩ := State.onlyResvs_sootRecord (s.upd f) dw0 dw2 dw3
  obtain ⟨r, hr⟩ := hctx (s.upd f).cur
  exact ⟨r, by rw [← State.ctx_cur, hcur, hr, State.ctx_cur, State.my_upd]⟩

/-- The end of a wait of the acting core. -/
theorem State.my_endWait (s : State) (a : Agent) :
    ∃ ws r, (s.endWait s.cur a).my = { s.my with waits := ws, resv := r } := by
  unfold State.endWait
  split
  case h_1 => exact ⟨s.my.waits, s.my.resv, rfl⟩
  case h_2 =>
    dsimp only [State.modCtx_acting]
    split
    case isTrue => exact ⟨_, State.my_upd_sootRecord s _ _ _ _⟩
    case isFalse => exact ⟨_, s.my.resv, State.my_upd s _⟩

/-- Metering charges the acting context and changes nothing else of it. -/
theorem State.my_meter (s : State) (q n : Nat) : ∃ e es, (s.meter s.cur q n).my = { s.my with fa := e, fai := es } := by
  unfold State.meter
  split
  case isTrue => exact ⟨s.my.fa, s.my.fai, rfl⟩
  case isFalse => exact ⟨_, _, State.my_upd s fun x => x.charge s.cur (n * s.cost q)⟩

/-- What retiring an instruction leaves of the acting context, whether or not a wait of it ends. -/
theorem State.my_retireAt (s : State) (pc : Word) :
    ∃ e es ws r, (s.retireAt pc).my = { s.my.goTo pc with fa := e, fai := es, waits := ws, resv := r } := by
  obtain ⟨e, es, hmeter⟩ := State.my_meter (s.upd fun x => x.goTo pc) 16 1
  obtain ⟨ws, r, hwait⟩ := State.my_endWait ((s.upd fun x => x.goTo pc).meter s.cur 16 1) .sk
  rw [State.cur_meter] at hwait
  rw [State.upd_cur] at hmeter hwait
  refine ⟨e, es, ws, r, ?_⟩
  rw [State.retireAt, hwait, hmeter, State.my_upd]

@[simp] theorem State.rv_retireAt (s : State) (pc : Word) : (s.retireAt pc).my.rv = s.my.rv := by
  obtain ⟨e, es, ws, r, h⟩ := State.my_retireAt s pc
  rw [h]
  rfl

@[simp] theorem State.my_enqueue (s : State) (e : SqEnt) : (s.enqueue e).my = { s.my with sq := s.my.sq ++ [e] } :=
  State.my_upd s _

@[simp] theorem State.rv_acquire (s : State) : s.acquire.my.rv = s.my.rv := by rw [State.acquire, State.my_enqueue]

@[simp] theorem State.rv_owe (s : State) (rd : Reg) (v : Word) : (s.owe rd v).my.rv = s.my.rv := by
  unfold State.owe
  split
  · rfl
  · rw [State.my_enqueue]

/-- A wait that is noted changes the waits alone of the acting context. -/
theorem State.my_noteWait (s : State) (a : Agent) (flag : Nat) (num : BitVec 32) (setter setterCore : Nat) :
    ∃ ws, (s.noteWait s.cur a flag num setter setterCore).my = { s.my with waits := ws } :=
  ⟨_, State.my_upd s _⟩

/-! ### The two instructions -/

/-- At task start every rendezvous register is idle. -/
@[simp] theorem Ctx.rvAt_fresh (x : Ctx) (k : Nat) : x.fresh.rvAt k = Rv.idle := rfl

/-- An idle register counts as fired. -/
@[simp] theorem Rv.fired_idle : Rv.idle.fired = true := rfl

section
variable {s : State} {k : BitVec 5}

theorem exec_skRdvwait_fired (h : (s.my.rvAt k.toNat).fired = true) :
    exec (.skRdvwait k) s = .next (s.acquire.retireAt s.nextPc) := by
  show execSkRdvwait k s = _
  rw [execSkRdvwait, if_pos h, State.finish, State.nextPc_acquire]

/-- `sk.rdvwait` of a register that has not fired notes the wait, and stays where it is. -/
theorem exec_skRdvwait_blocks (h : (s.my.rvAt k.toNat).fired = false) :
    ∃ t ws, exec (.skRdvwait k) s = .next t ∧ t.my = { s.my with waits := ws } := by
  obtain ⟨ws, hws⟩ := State.my_noteWait s .sk 1
    (BitVec.ofNat 32 ((s.my.rvAt k.toNat).n.toNat * 65536 + k.toNat)) (s.my.rvAt k.toNat).owes s.cur
  refine ⟨_, ws, ?_, hws⟩
  show execSkRdvwait k s = _
  rw [execSkRdvwait, if_neg (Bool.eq_false_iff.1 h), State.waitRv]

variable {rd : BitVec 5} (hready : s.regsReady [] [destX rd])
include hready

theorem exec_skRdvtest_fired (h : (s.my.rvAt k.toNat).fired = true) :
    exec (.skRdvtest k rd) s = .next ((s.acquire.owe rd 1).retireAt s.nextPc) := by
  show execSkRdvtest k rd s = _
  rw [execSkRdvtest, State.withRegs_ready hready, if_pos h, State.finish, State.nextPc_owe, State.nextPc_acquire]

theorem exec_skRdvtest_unfired (h : (s.my.rvAt k.toNat).fired = false) :
    exec (.skRdvtest k rd) s = .next ((s.owe rd 0).retireAt s.nextPc) := by
  show execSkRdvtest k rd s = _
  rw [execSkRdvtest, State.withRegs_ready hready, if_neg (Bool.eq_false_iff.1 h), State.finish, State.nextPc_owe]

end

/-- Settles O15: the two instructions by whether the register has fired, and the frame of retiring for the registers. -/
theorem rendezvous : Obligations.Rendezvous := by
  unfold Obligations.Rendezvous
  refine ⟨fun x k => ⟨Ctx.rvAt_fresh x k, Rv.fired_idle⟩, fun s k rd =>
    ⟨exec_skRdvwait_fired, fun h => ?blocks, fun hready => ⟨exec_skRdvtest_fired hready, exec_skRdvtest_unfired hready⟩,
      ?waited, ?tested, ?unfired⟩⟩
  case blocks =>
    obtain ⟨t, ws, hexec, hmy⟩ := exec_skRdvwait_blocks h
    exact ⟨t, hexec, by rw [hmy], by rw [hmy], by rw [hmy]⟩
  case waited => rw [State.rv_retireAt, State.rv_acquire]
  case tested => rw [State.rv_retireAt, State.rv_owe, State.rv_acquire]
  case unfired => rw [State.rv_retireAt, State.rv_owe]

end Sys2Proof.Machine
end

section
/-! SUPPORT. The tile commands of the matrix engine: what a region written with one element reads as, the rescale of an
element, and a push of one MX word (10_matrix_isa.md R218, R219; 04_accumulators.md R70). -/
namespace Sys2Proof.Machine

/-! ### A region written with one element -/

/-- Writes of one value to a list of keys. -/
theorem Tbl.get_foldl_put {α : Type} [DecidableEq α] (d v : α) (n : Nat) (keys : List Nat) (t : Tbl α) :
    Tbl.get d (keys.foldl (fun t k => Tbl.put d t k v) t) n = if n ∈ keys then v else Tbl.get d t n := by
  induction keys generalizing t with
  | nil => simp
  | cons k keys ih =>
    rw [List.foldl_cons, ih, Tbl.get_put]
    by_cases hk : n = k <;> simp [hk]

/-- The keys of the elements (i, j), i < rows and j < cols. -/
def regionKeys (rows cols : Nat) : List Nat := (List.range rows).flatMap fun i => (List.range cols).map fun j => 64 * i + j

theorem mem_regionKeys {rows cols n : Nat} : n ∈ regionKeys rows cols ↔ ∃ i < rows, ∃ j < cols, 64 * i + j = n := by
  simp [regionKeys]

/-- Of a tile of at most 64 columns, the region holds the key of an element exactly where it holds the element. -/
theorem key_mem_regionKeys {rows cols i j : Nat} (hcols : cols ≤ 64) (hj : j < 64) :
    64 * i + j ∈ regionKeys rows cols ↔ i < rows ∧ j < cols := by
  rw [mem_regionKeys]
  constructor
  · rintro ⟨i', hi', j', hj', hkey⟩
    obtain ⟨rfl, rfl⟩ : i' = i ∧ j' = j := by omega
    exact ⟨hi', hj'⟩
  · rintro ⟨hi, hj⟩
    exact ⟨i, hi, j, hj, rfl⟩

/-- A region with one element throughout: of the tile, only the elements at the region's keys change. -/
theorem AccTile.mapRegion_const (t : AccTile) (rows cols : Nat) (e : Elem) :
    t.mapRegion rows cols (fun _ _ _ => e) =
      { t with els := (regionKeys rows cols).foldl (fun l k => Tbl.put Elem.zero l k e) t.els } := by
  have hels := List.foldl_hom (fun els => { t with els := els }) (g₁ := fun l k => Tbl.put Elem.zero l k e)
    (g₂ := fun u k => { u with els := Tbl.put Elem.zero u.els k e }) (l := regionKeys rows cols) (init := t.els)
    fun _ _ => rfl
  rw [← hels, regionKeys, List.foldl_flatMap]
  simp only [List.foldl_map]
  rfl

/-! ### The tile command mx.tinit -/

/-- The tile that `mx.tinit` leaves under the geometry g (R219). -/
def AccTile.zeroed (t : AccTile) (g : Geom) : AccTile :=
  { t.mapRegion g.rows g.cols (fun _ _ _ => Elem.zero) with valid := true, dirty := true }

/-- Beside the elements, VALID and DIRTY, an initialisation changes nothing of the tile. -/
theorem AccTile.zeroed_eq (t : AccTile) (g : Geom) :
    t.zeroed g = { t with
      els := (regionKeys g.rows g.cols).foldl (fun l k => Tbl.put Elem.zero l k Elem.zero) t.els
      valid := true
      dirty := true } := by
  rw [AccTile.zeroed, AccTile.mapRegion_const]

theorem AccTile.el_zeroed (t : AccTile) (g : Geom) (i j : Nat) :
    (t.zeroed g).el i j = if 64 * i + j ∈ regionKeys g.rows g.cols then Elem.zero else t.el i j := by
  rw [AccTile.zeroed_eq]
  exact Tbl.get_foldl_put Elem.zero Elem.zero _ _ t.els

theorem AccTile.el_zeroed_inside {t : AccTile} {g : Geom} {i j : Nat} (hi : i < g.rows) (hj : j < g.cols) :
    (t.zeroed g).el i j = Elem.zero := by
  rw [AccTile.el_zeroed, if_pos (mem_regionKeys.2 ⟨i, hi, j, hj, rfl⟩)]

theorem AccTile.el_zeroed_outside {t : AccTile} {g : Geom} {i j : Nat} (hcols : g.cols ≤ 64) (hj : j < 64)
    (hout : ¬(i < g.rows ∧ j < g.cols)) : (t.zeroed g).el i j = t.el i j := by
  rw [AccTile.el_zeroed, if_neg (mt (key_mem_regionKeys hcols hj).1 hout)]

/-- `mx.tinit` of a tile that FX does not hold. -/
theorem exec_mxTinit {s u : State} {m : MxAt} {c : BitVec 5} (h : s.inMx m u)
    (hfx : (u.my.acc c.toNat).inflight ≠ some .fx) :
    exec (.mxTinit c) s =
      .next ((((u.mend [.acc u.cur c.toNat]).upd fun x =>
        x.setAcc c.toNat ((u.my.acc c.toNat).zeroed (m.e.binds.geom c.toNat))).meter
          u.cur 15 (m.e.binds.geom c.toNat).rows).mxNext m) := by
  show execMxTinit c s = _
  rw [execMxTinit, State.withMx_at h, State.withAcc_ok hfx Bool.noConfusion]
  rfl

/-! ### A push of one MX word -/

/-- A word that is no `mx.tcfg` is pushed as its request and binds nothing (R206). -/
theorem State.pushMx_plain {s : State} {w : BitVec 32} {addr : Nat} (h : s.room (s.mxReq w addr))
    (hw : ∀ c r k, accepted (decodeMxFull w) ≠ some (.mxTcfg c r k)) :
    s.pushMx w addr = .next ((s.register (s.mxReq w addr)).retireAt s.nextPc) := by
  rw [← State.nextPc_register s (s.mxReq w addr)]
  unfold State.pushMx
  dsimp only
  refine (State.push_plain (r := s.mxReq w addr) h rfl _).trans ?_
  split
  next c r k hi => exact absurd hi (hw c r k)
  next => rfl

/-- The inline `mx.tinit` pushes the word of `mx.tinit` (R117, R219). -/
theorem exec_mxTinitInline {s : State} {c : BitVec 5} (hc : accepted (decodeMxFull (inlineWord 5 c 0 0 0)) = some (.mxTinit c))
    (h : s.room (s.mxReq (inlineWord 5 c 0 0 0) 0)) :
    exec (.mxTinitInline c) s = .next ((s.register (s.mxReq (inlineWord 5 c 0 0 0) 0)).retireAt s.nextPc) :=
  State.pushMx_plain h fun _ _ _ hi => by cases hc.symm.trans hi

/-- Settles O57: the initialised tile inside and outside its geometry, and the push of the inline word. -/
theorem tileInitialisation : Obligations.TileInitialisation := by
  unfold Obligations.TileInitialisation
  refine ⟨fun s u m c h hfx => ⟨_, exec_mxTinit h hfx, fun i j hi hj => AccTile.el_zeroed_inside hi hj,
    fun hcols i j hj hout => AccTile.el_zeroed_outside hcols hj hout, ?fields⟩, rfl, rfl, fun s hroom => ?push⟩
  case fields =>
    rw [AccTile.zeroed_eq]
    exact ⟨rfl, rfl, rfl, rfl, rfl⟩
  case push => exact exec_mxTinitInline rfl hroom

/-! ### The rescale of an element -/

theorem outWindow_iff {v : Int} : outWindow v = true ↔ v < -2 ^ 65 ∨ 2 ^ 65 ≤ v := by
  simp [outWindow]

/-- A value in the window is its own 66-bit two's complement number. -/
theorem wrap66_of_inWindow {v : Int} (h : outWindow v = false) : wrap66 v = v := by
  have hv : ¬(v < -2 ^ 65 ∨ 2 ^ 65 ≤ v) := fun hout => by simp [outWindow_iff.2 hout] at h
  unfold wrap66 sextNat codeInt
  dsimp only
  split <;> omega

theorem Val.sign_ofInt (v : Int) : (if decide (v < 0) then -(v.natAbs : Int) else v.natAbs) = v := by
  simp only [decide_eq_true_eq]
  split <;> omega

/-- To a window that reaches lower, or as low, no bits are lost. -/
theorem Val.floorAt_ofInt_nonpos {k : Int} (hk : k ≤ 0) (v : Int) :
    (Val.ofInt v 0).floorAt k = (v * (2 ^ (-k).toNat : Nat), false) := by
  simp only [Val.ofInt, Val.floorAt, if_pos hk, Val.sign_ofInt, Int.zero_sub]

/-- To a window that starts k bits higher, the low k bits are lost. -/
theorem Val.floorAt_ofInt_pos {k : Int} (hk : 0 < k) (v : Int) :
    (Val.ofInt v 0).floorAt k = (v / (2 ^ k.toNat : Nat), decide (v % (2 ^ k.toNat : Nat) ≠ 0)) := by
  have hlost : (v.natAbs % 2 ^ k.toNat != 0) = decide (v % (2 ^ k.toNat : Nat) ≠ 0) := by
    rw [Bool.eq_iff_iff, bne_iff_ne, decide_eq_true_iff, ne_eq, ne_eq, ← Int.dvd_iff_emod_eq_zero, Int.ofNat_dvd_left,
      Nat.dvd_iff_mod_eq_zero]
  simp only [Val.ofInt, Val.floorAt, if_neg (Int.not_le.2 hk), Val.sign_ofInt, Int.sub_zero, hlost]

/-- The rescale of V from anchor a to a': the value before it is brought into the window, and whether bits are lost (R70). -/
theorem Val.floorAt_ofInt_anchors (a a' v : Int) :
    (Val.ofInt v 0).floorAt (a' - a) =
      (if a' ≤ a then v * (2 ^ (a - a').toNat : Nat) else v / (2 ^ (a' - a).toNat : Nat),
        decide (a < a' ∧ v % (2 ^ (a' - a).toNat : Nat) ≠ 0)) := by
  by_cases h : a' ≤ a
  · rw [Val.floorAt_ofInt_nonpos (by omega), Int.neg_sub, if_pos h, decide_eq_false fun hl => Int.not_lt.2 h hl.1]
  · rw [Val.floorAt_ofInt_pos (by omega), if_neg h]
    simp only [Int.not_le.1 h, true_and]

/-- What a rescale gives: floor(V × 2^(a − a')) where that lies in the window, INX where bits are lost, RNG where the value
leaves the window, and the other flags as they were (R70). -/
theorem rescaleElem_spec (a a' : Int) (e : Elem) :
    let v : Int := if a' ≤ a then e.v * (2 ^ (a - a').toNat : Nat) else e.v / (2 ^ (a' - a).toNat : Nat)
    (outWindow v = false → (rescaleElem a a' e).v = v) ∧
    (rescaleElem a a' e).inx = (e.inx || decide (a < a' ∧ e.v % (2 ^ (a' - a).toNat : Nat) ≠ 0)) ∧
    (rescaleElem a a' e).rng = (e.rng || outWindow v) ∧
    (rescaleElem a a' e).nan = e.nan ∧ (rescaleElem a a' e).pinf = e.pinf ∧ (rescaleElem a a' e).ninf = e.ninf := by
  rw [rescaleElem, Val.floorAt_ofInt_anchors]
  exact ⟨wrap66_of_inWindow, rfl, rfl, rfl, rfl, rfl⟩

/-- An element with V = 0 and all flags clear stays so under every rescale. -/
theorem rescaleElem_zero (a a' : Int) : rescaleElem a a' Elem.zero = Elem.zero := by
  have hk : (Val.ofInt 0 0).floorAt (a' - a) = (0, false) := by simp [Val.floorAt_ofInt_anchors]
  show rescaleElem a a' { v := 0, nan := false, ninf := false, pinf := false, rng := false, inx := false } = _
  simp only [rescaleElem, hk]
  decide

/-! ### A new anchor -/

section
variable (t : AccTile) (a : Int)

@[simp] theorem AccTile.anchor_moveAnchor : (t.moveAnchor a).anchor = a := by
  unfold AccTile.moveAnchor
  split <;> rfl

@[simp] theorem AccTile.phase_moveAnchor : (t.moveAnchor a).phase = t.phase := by
  unfold AccTile.moveAnchor
  split <;> rfl

@[simp] theorem AccTile.valid_moveAnchor : (t.moveAnchor a).valid = t.valid := by
  unfold AccTile.moveAnchor
  split <;> rfl

variable {t a}

/-- Of an invalid tile, or at the anchor it has, no element changes. -/
theorem AccTile.els_moveAnchor_kept (h : t.valid = false ∨ t.anchor = a) : (t.moveAnchor a).els = t.els := by
  rw [AccTile.moveAnchor, if_neg]
  rcases h with h | h <;> simp [h]

/-- A valid tile that takes another anchor has every element rescaled. -/
theorem AccTile.el_moveAnchor (hvalid : t.valid = true) (hne : t.anchor ≠ a) (i j : Nat) :
    (t.moveAnchor a).el i j = rescaleElem t.anchor a (t.el i j) := by
  rw [AccTile.moveAnchor, if_pos (by simp [hvalid, hne])]
  exact Tbl.get_map (f := fun _ => rescaleElem t.anchor a) (rescaleElem_zero _ _) t.els

end

/-! ### The command mx.tanch -/

/-- The tile that `mx.tanch accN, a` leaves (R218). -/
def AccTile.anchored (t : AccTile) (a : Int) : AccTile := { t.moveAnchor a with auto := false }

theorem AccTile.el_anchored {t : AccTile} {a : Int} (hvalid : t.valid = true) (hne : t.anchor ≠ a) (i j : Nat) :
    (t.anchored a).el i j = rescaleElem t.anchor a (t.el i j) := AccTile.el_moveAnchor hvalid hne i j

section
variable {s u : State} {m : MxAt} {c : BitVec 5} (h : s.inMx m u) (hstill : (u.my.acc c.toNat).inflight = none)
include h hstill

/-- `mx.tanch accN, auto` of a tile that no engine has in flight sets AMODE alone, whatever its anchor field holds. -/
theorem exec_mxTanch_auto (a : BitVec 10) :
    exec (.mxTanch c 1 a) s =
      .next ((u.upd fun x => x.setAcc c.toNat { u.my.acc c.toNat with auto := true }).mxNext m) := by
  show execMxTanch c 1 a s = _
  rw [execMxTanch, State.withMx_at h, State.withStillAcc_ok hstill]
  rfl

/-- `mx.tanch accN, a` of such a tile moves it to the anchor, in fixed mode. -/
theorem exec_mxTanch_fixed (a : BitVec 10) :
    exec (.mxTanch c 0 a) s =
      .next ((u.upd fun x => x.setAcc c.toNat ((u.my.acc c.toNat).anchored a.toInt)).mxNext m) := by
  show execMxTanch c 0 a s = _
  rw [execMxTanch, State.withMx_at h, State.withStillAcc_ok hstill]
  rfl

end

/-! ### Tiles at task start -/

/-- What holds of the default and of every value listed holds of every entry. -/
theorem Tbl.get_of_forall {α : Type} {P : α → Prop} {d : α} (hd : P d) (n : Nat) :
    ∀ t : Tbl α, (∀ e ∈ t, P e.2) → P (Tbl.get d t n)
  | [], _ => hd
  | (k, v) :: t, h => by
    rw [Tbl.get]
    split
    · exact h (k, v) List.mem_cons_self
    · exact Tbl.get_of_forall hd n t fun e he => h e (List.mem_cons_of_mem _ he)

/-- A changed table of tiles lists changed tiles alone. -/
theorem forall_modTiles {α : Type} [DecidableEq α] {P : α → Prop} {d : α} {f : α → α} (hf : ∀ v, P (f v)) (t : Tbl α) :
    ∀ e ∈ modTiles d f t, P e.2 := by
  intro e he
  obtain ⟨v, -, rfl⟩ := List.mem_map.1 (List.mem_filter.1 he).1
  exact hf v.2

/-- What a task's start leaves of a tile: its elements, VALID and DIRTY, in auto mode with anchor 0 (R218). -/
def AccTile.atStart (t : AccTile) : AccTile :=
  { AccTile.reset with els := t.els, valid := t.valid, dirty := t.dirty }

theorem Ctx.tiles_fresh (x : Ctx) : x.fresh.mx.tiles = modTiles AccTile.reset AccTile.atStart x.mx.tiles := rfl

theorem Ctx.acc_fresh (x : Ctx) (n : Nat) : (x.fresh.acc n).auto = true ∧ (x.fresh.acc n).anchor = 0 := by
  rw [Ctx.acc, Ctx.tiles_fresh]
  exact Tbl.get_of_forall (P := fun t : AccTile => t.auto = true ∧ t.anchor = 0) ⟨rfl, rfl⟩ n _
    (forall_modTiles (P := fun t : AccTile => t.auto = true ∧ t.anchor = 0) (fun _ => ⟨rfl, rfl⟩) x.mx.tiles)

/-! ### The word of mx.tanch -/

/-- The word of an anchor command decodes to it, and carries AMODE in bit 20 and the anchor in bits [19:10]. -/
theorem encode_mxTanch {c : BitVec 5} (m : BitVec 1) (a : BitVec 10) (hc : c.toNat < 8) :
    ∃ w : BitVec 32, encode (.mxTanch c m a) = some (.mxFull w) ∧ decodeMxFull w = .ok (.mxTanch c m a) ∧
      w.extractLsb' 20 1 = m ∧ w.extractLsb' 10 10 = a := by
  have hwf : (Instr.mxTanch c m a).wf = true := decide_eq_true (Nat.le_of_lt_succ hc)
  refine ⟨1#1 ++ 4#5 ++ c ++ m ++ a ++ 0#10, rfl, Laws.RoundTrip.mxTanch c m a hwf _ rfl, ?_, ?_⟩ <;>
    simp (disch := decide) [extract_lower, extract_upper]

/-- Settles O58: the two forms of the command, the elements of a valid tile under the new anchor, the word, and the tiles at
task start. -/
theorem anchorCommands : Obligations.AnchorCommands := by
  unfold Obligations.AnchorCommands
  refine ⟨fun s u m c a h hstill => ⟨exec_mxTanch_auto h hstill a, _, exec_mxTanch_fixed h hstill a, rfl,
    AccTile.anchor_moveAnchor .., AccTile.phase_moveAnchor .., AccTile.valid_moveAnchor .., AccTile.els_moveAnchor_kept,
    fun hvalid hne i j => ?rescaled⟩, fun v => outWindow_iff, fun c m a hc => encode_mxTanch m a hc, rfl, Ctx.acc_fresh⟩
  rw [AccTile.el_anchored hvalid hne]
  exact rescaleElem_spec ..

end Sys2Proof.Machine
end

section
/-! SUPPORT. FX's OUTW and CONCAT under `fx.cfg`: what reading a record from a buffer and stopping at a fault that is no
violation leave of them (11_data_engines_isa.md R244, 07_encoding.md R136, 20_translation_faults.md R312). -/
namespace Sys2Proof.Machine

/-! ### States with the same OUTW and CONCAT -/

/-- The values that FX has in force in a context. -/
def Ctx.flue (x : Ctx) : Nat × Nat := (x.fxOutw, x.fxConcat)

/-- From s to t the acting core stays, and every core's context keeps OUTW and CONCAT. -/
def State.keepsFlue (s t : State) : Prop := t.cur = s.cur ∧ ∀ c, (t.ctx c).flue = (s.ctx c).flue

theorem State.keepsFlue_my {s t : State} (h : s.keepsFlue t) :
    t.cur = s.cur ∧ t.my.fxOutw = s.my.fxOutw ∧ t.my.fxConcat = s.my.fxConcat := by
  obtain ⟨hcur, hctx⟩ := h
  have hmy : t.my.flue = s.my.flue := by rw [← State.ctx_cur, hcur, hctx, State.ctx_cur]
  exact ⟨hcur, Prod.mk.inj hmy⟩

theorem State.keepsFlue_refl (s : State) : s.keepsFlue s := ⟨rfl, fun _ => rfl⟩

theorem State.keepsFlue_trans {s t u : State} (hst : s.keepsFlue t) (htu : t.keepsFlue u) : s.keepsFlue u := by
  obtain ⟨hcur, hctx⟩ := hst
  obtain ⟨hcur', hctx'⟩ := htu
  exact ⟨hcur'.trans hcur, fun c => (hctx' c).trans (hctx c)⟩

theorem State.keepsFlue_of_onlyResvs {s t : State} (h : s.onlyResvs t) : s.keepsFlue t := by
  obtain ⟨hcur, hctx⟩ := h
  refine ⟨hcur, fun c => ?_⟩
  obtain ⟨r, hr⟩ := hctx c
  rw [hr, Ctx.flue, Ctx.flue]

/-- An update of a context that leaves the two values. -/
theorem State.keepsFlue_modCtx (s : State) (c : Nat) {f : Ctx → Ctx} (hf : ∀ x, (f x).flue = x.flue) :
    s.keepsFlue (s.modCtx c f) := by
  refine ⟨s.modCtx_cur c f, fun d => ?_⟩
  rw [State.ctx_modCtx]
  split
  case isTrue hd => rw [hf, hd]
  case isFalse => rfl

@[simp] theorem Ctx.flue_modEntry (x : Ctx) (a : Agent) (id : Nat) (f : Entry → Entry) : (x.modEntry a id f).flue = x.flue := by
  cases a <;> rfl

@[simp] theorem Ctx.flue_setFault (x : Ctx) (a : Agent) (f : FaultRec) : (x.setFault a f).flue = x.flue := rfl

/-! ### Metering and the end of a wait -/

theorem State.keepsFlue_meter (s : State) (c q n : Nat) : s.keepsFlue (s.meter c q n) := by
  unfold State.meter
  split
  case isTrue => exact s.keepsFlue_refl
  case isFalse => exact s.keepsFlue_modCtx c fun _ => rfl

theorem State.keepsFlue_meterNoted (c : Nat) (l : List Todo) (s : State) : s.keepsFlue (s.meterNoted c l) := by
  unfold State.meterNoted
  induction l generalizing s with
  | nil => exact s.keepsFlue_refl
  | cons o l ih =>
    refine State.keepsFlue_trans ?_ (ih _)
    cases o with
    | meter q => exact s.keepsFlue_meter c q 1
    | _ => exact s.keepsFlue_refl

theorem State.keepsFlue_setWaits (s : State) (c : Nat) (ws : Ctx → List Wait) :
    s.keepsFlue (s.modCtx c fun x => { x with waits := ws x }) := s.keepsFlue_modCtx c fun _ => rfl

theorem State.keepsFlue_endWait (s : State) (c : Nat) (a : Agent) : s.keepsFlue (s.endWait c a) := by
  unfold State.endWait
  split
  case h_1 => exact s.keepsFlue_refl
  case h_2 =>
    refine State.keepsFlue_trans (s.keepsFlue_setWaits c fun x => x.waits.filter fun y => y.agent != a.code) ?_
    dsimp only
    split
    case isTrue => exact State.keepsFlue_of_onlyResvs (State.onlyResvs_sootRecord ..)
    case isFalse => exact State.keepsFlue_refl _

theorem State.keepsFlue_endWaitOf (s : State) (c : Nat) (a : Agent) (flag : Nat) :
    s.keepsFlue (s.endWaitOf c a flag) := by
  unfold State.endWaitOf
  split
  case isTrue => exact s.keepsFlue_endWait c a
  case isFalse => exact s.keepsFlue_refl

/-! ### Reading the record -/

theorem Got.bind_ok {α β : Type} {r : Got α} {k : α → Job → Got β} {v : β} {j : Job} (h : r.bind k = .ok v j) :
    ∃ a i, r = .ok a i ∧ k a i = .ok v j := by
  cases r with
  | ok a i => exact ⟨a, i, rfl, h⟩
  | stop f i => cases h
  | hole => cases h

theorem Job.keepsFlue_once (j : Job) (q mem unit : Nat) : j.s.keepsFlue (j.once q mem unit).2.s := by
  unfold Job.once
  split
  case isTrue => exact j.s.keepsFlue_refl
  case isFalse => exact j.s.keepsFlue_meter j.c q 1

theorem Job.keepsFlue_unit (j : Job) (p : Place) : j.s.keepsFlue (j.unit p).s := by
  cases p with
  | abuf d o => exact j.keepsFlue_once 24 (8 * d) (o / 64)
  | wbuf d o => exact j.keepsFlue_once 24 (8 * d + 2) (o / 64)
  | _ => exact j.s.keepsFlue_refl

/-- A read of a buffer that succeeds meters its unit, and changes nothing else of the state. -/
theorem Job.keepsFlue_readBuf {j i : Job} {t : Typed} {a n : Nat} {v : List Byte × Nat} (h : j.readBuf t a n = .ok v i) :
    j.s.keepsFlue i.s := by
  unfold Job.readBuf at h
  split at h
  case h_1 => cases h
  case h_2 p _ =>
    dsimp only at h
    split at h
    case isTrue => cases h
    case isFalse =>
      cases h
      exact j.keepsFlue_unit p

theorem Job.keepsFlue_read {first : Nat} : ∀ (fuel : Nat) {o n : Nat} {j i : Job} {v : List (Byte × Nat)},
    j.read first (.a o) fuel n = .ok v i → j.s.keepsFlue i.s
  | 0, _, _, j, _, _, h => by
    cases h
    exact j.s.keepsFlue_refl
  | fuel + 1, o, n, j, i, v, h => by
    unfold Job.read at h
    split at h
    case isTrue =>
      cases h
      exact j.s.keepsFlue_refl
    case isFalse =>
      obtain ⟨chunk, j₁, hchunk, hrest⟩ := Got.bind_ok h
      obtain ⟨rest, j₂, hread, hdone⟩ := Got.bind_ok hrest
      cases hdone
      exact State.keepsFlue_trans (Job.keepsFlue_readBuf hchunk) (Job.keepsFlue_read fuel hread)

theorem Job.keepsFlue_readBytes {first o n : Nat} {j i : Job} {bs : List Byte} (h : j.readBytes first (.a o) n = .ok bs i) :
    j.s.keepsFlue i.s := by
  obtain ⟨v, i', hread, hdone⟩ := Got.bind_ok h
  cases hdone
  exact Job.keepsFlue_read n hread

theorem State.keepsFlue_cmdRecord {s : State} {a : Agent} {e : Entry} {j : Job} {r : List Byte} (h : s.cmdRecord a e j r) :
    s.keepsFlue j.s := by
  obtain ⟨i, hbytes, rfl⟩ := h
  exact Job.keepsFlue_readBytes hbytes

/-- Until its record is read, a record command has ended a wait and metered its units. -/
theorem State.keepsFlue_starts {s : State} {a : Agent} {f : Nat} {e : Entry} {j : Job} {r : List Byte}
    (h : s.starts a f e j r) : s.keepsFlue j.s := by
  obtain ⟨-, -, hrecord⟩ := h
  exact State.keepsFlue_trans (s.keepsFlue_endWaitOf s.cur a 5) (State.keepsFlue_cmdRecord hrecord)

/-! ### Stopping at a fault -/

theorem Job.keepsFlue_flush (j : Job) : j.s.keepsFlue j.flush.1 := by
  unfold Job.flush
  split
  case isTrue => exact j.s.keepsFlue_refl
  case isFalse => exact State.keepsFlue_of_onlyResvs (State.onlyResvs_addWrites ..)

theorem State.keepsFlue_faultAddr (s : State) (f : EFault) : s.keepsFlue (s.faultAddr f).2 := by
  unfold State.faultAddr
  split
  case h_1 => exact s.keepsFlue_refl
  case h_2 => exact State.keepsFlue_of_onlyResvs (State.onlyResvs_of_cores rfl rfl)

/-- A fault that is no violation freezes no team, and so leaves the two values. -/
theorem State.keepsFlue_engineFault (s : State) (c : Nat) (a : Agent) (e : Entry) {f : EFault} (p : Nat)
    (hf : f.sub ≠ .violation) : s.keepsFlue (s.engineFault c a e f p) := by
  rw [State.engineFault_eq s c a e p hf]
  exact State.keepsFlue_trans (s.keepsFlue_faultAddr f) (State.keepsFlue_modCtx _ c fun x => x.flue_setFault a _)

theorem Job.keepsFlue_stopAt (j : Job) (e : Entry) {f : EFault} (p from' : Nat) (hf : f.sub ≠ .violation) :
    ∃ t, j.stopAt e f p from' = .next t ∧ j.s.keepsFlue t := by
  refine ⟨_, rfl, ?_⟩
  refine State.keepsFlue_trans ?_ (State.keepsFlue_engineFault _ j.c j.a e p hf)
  refine State.keepsFlue_trans ?_ (State.keepsFlue_modCtx _ j.c fun x => x.flue_modEntry ..)
  exact State.keepsFlue_trans j.keepsFlue_flush (State.keepsFlue_meterNoted ..)

/-! ### The command -/

section
variable {s : State} {e : Entry} {j : Job} {r : List Byte} (h : s.starts .fx 1 e j r)
include h

/-- What `fx.cfg` does with its record, by whether the record meets R140 and R142. -/
theorem exec_fxCfgStart :
    exec .fxCfgStart s =
      if headerOk r 1 0 && zeroBytes r 10 54 && decide (1 ≤ fld r 8 1) && decide (fld r 8 1 ≤ 64) &&
          decide (fld r 9 1 ≤ 2) then
        ({ j with s := j.s.upd fun x => { x with fxOutw := fld r 8 1, fxConcat := fld r 9 1 } } : Job).finish e
      else j.badRecord e := by
  have ⟨_, hcmd, _⟩ := h
  show execFxCfgStart s = _
  rw [execFxCfgStart, State.startEntry_record h hcmd]

theorem exec_fxCfgStart_sets (hheader : headerOk r 1 0 = true) (hzero : zeroBytes r 10 54 = true) (hmin : 1 ≤ fld r 8 1)
    (hmax : fld r 8 1 ≤ 64) (hconcat : fld r 9 1 ≤ 2) :
    exec .fxCfgStart s =
      .next (({ j with s := j.s.upd fun x => { x with fxOutw := fld r 8 1, fxConcat := fld r 9 1 } } : Job).ended e) := by
  rw [exec_fxCfgStart h, if_pos (by simp only [hheader, hzero, hmin, hmax, hconcat, decide_true, Bool.and_self]), Job.finish]

theorem exec_fxCfgStart_badRecord (hrange : fld r 8 1 < 1 ∨ 64 < fld r 8 1 ∨ 2 < fld r 9 1) :
    exec .fxCfgStart s = j.badRecord e := by
  rw [exec_fxCfgStart h, if_neg]
  simp only [Bool.and_eq_true, decide_eq_true_eq]
  rintro ⟨⟨⟨-, hmin⟩, hmax⟩, hconcat⟩
  omega

end

/-- Settles O59: the record in range and out of range, with the frame of the record fault, the capture by a pass, and the
values at task start. -/
theorem flueConfiguration : Obligations.FlueConfiguration := by
  unfold Obligations.FlueConfiguration
  refine ⟨rfl, fun s e j r h => ⟨exec_fxCfgStart_sets h, fun hrange => ⟨exec_fxCfgStart_badRecord h hrange, ?kept⟩⟩,
    fun x e r => ⟨rfl, rfl⟩, fun x => ⟨rfl, rfl⟩⟩
  obtain ⟨t, hstop, hkeeps⟩ := j.keepsFlue_stopAt e 0 0 (f := { sub := .record, acc := 0, addr := none })
    FaultSub.noConfusion
  exact ⟨t, (exec_fxCfgStart_badRecord h hrange).trans hstop,
    State.keepsFlue_my (State.keepsFlue_trans (State.keepsFlue_starts h) hkeeps)⟩

end Sys2Proof.Machine
end

section
/-! SUPPORT. The decoder inverts the encoder, over all instructions at once; fixed words of the spec; the device at reset
(07_encoding.md R114 to R135; 24_power_bringup.md R343). -/
namespace Sys2Proof.Laws.RoundTrip

/-- Every instruction's word decodes to it: the lemma of its own constructor. -/
theorem statement : ∀ i : Instr, Statement i
  | .vxRun b a => vxRun b a
  | .mxRun b a => mxRun b a
  | .mxPushw b a => mxPushw b a
  | .mxMmaInline n d b a c => mxMmaInline n d b a c
  | .mxClaimInline s => mxClaimInline s
  | .mxReleaseInline s => mxReleaseInline s
  | .mxTinitInline c => mxTinitInline c
  | .cxCopy a d => cxCopy a d
  | .cxCopy2 a d => cxCopy2 a d
  | .cxPeer a d => cxPeer a d
  | .cxFill a d => cxFill a d
  | .cxRing a d => cxRing a d
  | .cxPretr a d => cxPretr a d
  | .cxFlush a d => cxFlush a d
  | .cxCancel a => cxCancel a
  | .cxWait a d => cxWait a d
  | .cxTest a d => cxTest a d
  | .gxGather a => gxGather a
  | .gxBag a => gxBag a
  | .gxScadd a => gxScadd a
  | .gxCount a => gxCount a
  | .fxPass a => fxPass a
  | .fxCfg a => fxCfg a
  | .clAllred a => clAllred a
  | .clRedsc a => clRedsc a
  | .clAllgat a => clAllgat a
  | .clBcast a => clBcast a
  | .clBarrier t s => clBarrier t s
  | .ringTake n d => ringTake n d
  | .ringGive n => ringGive n
  | .ringStat n d => ringStat n d
  | .skBuffmtA f b a g => skBuffmtA f b a g
  | .skBuffmtW f b a g => skBuffmtW f b a g
  | .skFence m c e d k => skFence m c e d k
  | .skMark c e a k => skMark c e a k
  | .skRdvwait k => skRdvwait k
  | .skRdvtest k d => skRdvtest k d
  | .skWfe d => skWfe d
  | .skSev m => skSev m
  | .skSend a m => skSend a m
  | .skRecv d => skRecv d
  | .dqPush a d => dqPush a d
  | .dqPop d => dqPop d
  | .dqSteal d => dqSteal d
  | .dqExport n => dqExport n
  | .feedPop a d => feedPop a d
  | .skBudget d => skBudget d
  | .abAmoadd w b a d => abAmoadd w b a d
  | .abAmoswap w b a d => abAmoswap w b a d
  | .abAmoxor w b a d => abAmoxor w b a d
  | .abAmoor w b a d => abAmoor w b a d
  | .abAmoand w b a d => abAmoand w b a d
  | .abAmomin w b a d => abAmomin w b a d
  | .abAmomax w b a d => abAmomax w b a d
  | .abAmominu w b a d => abAmominu w b a d
  | .abAmomaxu w b a d => abAmomaxu w b a d
  | .skSvc a d => skSvc a d
  | .skLend a d => skLend a d
  | .abLoad c u b a w d => abLoad c u b a w d
  | .abStore c b a w => abStore c b a w
  | .wbLoad c u b a w d => wbLoad c u b a w d
  | .wbStore c b a w => wbStore c b a w
  | .skClLoad c u b a w d => skClLoad c u b a w d
  | .skCsStore c b a w => skCsStore c b a w
  | .skShape a s => skShape a s
  | .skView h s v => skView h s v
  | .skTgeom a c => skTgeom a c
  | .skRfcl n => skRfcl n
  | .ringCfg b a n => ringCfg b a n
  | .skVariant c a d => skVariant c a d
  | .fence fm pred succ rs1 rd => fence fm pred succ rs1 rd
  | .rv64Load k rd rs1 imm => rv64Load k rd rs1 imm
  | .rv64Store k rs2 rs1 imm => rv64Store k rs2 rs1 imm
  | .amo op dbl aq rl rd rs1 rs2 => amo op dbl aq rl rd rs1 rs2
  | .lr dbl aq rl rd rs1 => lr dbl aq rl rd rs1
  | .sc dbl aq rl rd rs1 rs2 => sc dbl aq rl rd rs1 rs2
  | .sfenceVma rs1 rs2 => sfenceVma rs1 rs2
  | .csrWrite op uimm rd rs1 csr => csrWrite op uimm rd rs1 csr
  | .yeventWrite op uimm rd rs1 => yeventWrite op uimm rd rs1
  | .ywmWrite op uimm rd rs1 => ywmWrite op uimm rd rs1
  | .ymxstAccess op uimm rd rs1 => ymxstAccess op uimm rd rs1
  | .ydxstAccess op uimm rd rs1 => ydxstAccess op uimm rd rs1
  | .pendingRegisterWrite k => pendingRegisterWrite k
  | .trapEntry cause tval info => trapEntry cause tval info
  | .vxMoveShort e d s r => vxMoveShort e d s r
  | .vxMoveLong e d s r g i o => vxMoveLong e d s r g i o
  | .vxNop e r => vxNop e r
  | .vxRfcl r g i n => vxRfcl r g i n
  | .vaAdd e d s r g i t m => vaAdd e d s r g i t m
  | .vaSub e d s r g i t m => vaSub e d s r g i t m
  | .vaMul e d s r g i t m => vaMul e d s r g i t m
  | .vaMin e d s r g i t => vaMin e d s r g i t
  | .vaMax e d s r g i t => vaMax e d s r g i t
  | .vaAbs e d s r g i t => vaAbs e d s r g i t
  | .vaNeg e d s r g i t => vaNeg e d s r g i t
  | .vaCmpeq e d s r g i t => vaCmpeq e d s r g i t
  | .vaCmplt e d s r g i t => vaCmplt e d s r g i t
  | .vaCmple e d s r g i t => vaCmple e d s r g i t
  | .vaMov e d s r g i t => vaMov e d s r g i t
  | .vaAnd e d s r g i => vaAnd e d s r g i
  | .vaOr e d s r g i => vaOr e d s r g i
  | .vaXor e d s r g i => vaXor e d s r g i
  | .vaAndn e d s r g i => vaAndn e d s r g i
  | .vaShl e d s r g i => vaShl e d s r g i
  | .vaShr e d s r g i => vaShr e d s r g i
  | .vaSra e d s r g i => vaSra e d s r g i
  | .vaRotl e d s r g i => vaRotl e d s r g i
  | .vaPopc e d s r g i => vaPopc e d s r g i
  | .vaClz e d s r g i => vaClz e d s r g i
  | .vfFma e s r g i t m => vfFma e s r g i t m
  | .vfFms e s r g i t m => vfFms e s r g i t m
  | .vfNfma e s r g i t m => vfNfma e s r g i t m
  | .vfNfms e s r g i t m => vfNfms e s r g i t m
  | .vsExp2 e s r g i => vsExp2 e s r g i
  | .vsLog2 e s r g i => vsLog2 e s r g i
  | .vsRecip e s r g i => vsRecip e s r g i
  | .vsRsqrt e s r g i => vsRsqrt e s r g i
  | .vsSqrt e s r g i => vsSqrt e s r g i
  | .vsTanh e s r g i => vsTanh e s r g i
  | .vsSigmoid e s r g i => vsSigmoid e s r g i
  | .vsSilu e s r g i => vsSilu e s r g i
  | .vsGelu e s r g i => vsGelu e s r g i
  | .vsSin e s r g i => vsSin e s r g i
  | .vsCos e s r g i => vsCos e s r g i
  | .vcCvt e s r g i t m n => vcCvt e s r g i t m n
  | .vcPack e s r g i t m n => vcPack e s r g i t m n
  | .vcWvcc e s r g i => vcWvcc e s r g i
  | .vcWphase e s r g i => vcWphase e s r g i
  | .ldVec e s r g i t => ldVec e s r g i t
  | .ldGather e s r g i t => ldGather e s r g i t
  | .ldBcast e s r g i t => ldBcast e s r g i t
  | .ldRing e s r g i t => ldRing e s r g i t
  | .ldRaw e s r g i => ldRaw e s r g i
  | .stVec e s r g i t => stVec e s r g i t
  | .stScatter e s r g i t => stScatter e s r g i t
  | .stScalar e s r g i t => stScalar e s r g i t
  | .swPush e s r g i t => swPush e s r g i t
  | .swPushn e s r g i t => swPushn e s r g i t
  | .swDrain e s r g i t => swDrain e s r g i t
  | .lrdSum e s r g i t m => lrdSum e s r g i t m
  | .lrdMax e s r g i t => lrdMax e s r g i t
  | .lrdMin e s r g i t => lrdMin e s r g i t
  | .mxMma c a b n d h s l => mxMma c a b n d h s l
  | .mxFill s w t g p => mxFill s w t g p
  | .mxFillRing s t k => mxFillRing s t k
  | .mxClaim s => mxClaim s
  | .mxRelease s => mxRelease s
  | .mxReleaseShort s => mxReleaseShort s
  | .mxTanch c m a => mxTanch c m a
  | .mxTinit c => mxTinit c
  | .mxTcfg c r k => mxTcfg c r k
  | .mxResolveMfile c f m n t => mxResolveMfile c f m n t
  | .mxResolveAbuf c f m n g p => mxResolveAbuf c f m n g p
  | .mxResolveSelf c m n => mxResolveSelf c m n
  | .mxTcmp a b r p g s => mxTcmp a b r p g s
  | .mxTcmpThreshold a r p g s => mxTcmpThreshold a r p g s
  | .mxSpill c g s => mxSpill c g s
  | .mxReload c g s => mxReload c g s
  | .mxMark n => mxMark n
  | .mxGate m => mxGate m
  | .subarrayIdleGate q => subarrayIdleGate q
  | .cxCommandEnd k => cxCommandEnd k
  | .engineCommandRetire a k => engineCommandRetire a k
  | .markerRetire a => markerRetire a
  | .faultActionRestart a => faultActionRestart a
  | .faultActionDiscard a => faultActionDiscard a
  | .faultActionFreeze a => faultActionFreeze a
  | .correctedError sram line a => correctedError sram line a
  | .placement team chosen => placement team chosen
  | .preemptionDecision newcomer => preemptionDecision newcomer
  | .saveComplete team => saveComplete team
  | .resume team => resume team
  | .islandRampComplete i => islandRampComplete i
  | .droop i => droop i
  | .droopStretchEnd i => droopStretchEnd i
  | .overCurrent i => overCurrent i
  | .regulatorPhaseFailure i phase => regulatorPhaseFailure i phase
  | .regulatorFailure i => regulatorFailure i
  | .serviceCompletion k err value data => serviceCompletion k err value data
  | .lentPageReturn part page => lentPageReturn part page
  | .hostAccess write path stream pa bytes => hostAccess write path stream pa bytes
  | .peerAccess write pa bytes => peerAccess write pa bytes
  | .chimneyFlit port tx crcFails head body => chimneyFlit port tx crcFails head body
  | .chimneyPortDown port => chimneyPortDown port
  | .interfaceError tdi => interfaceError tdi
  | .sessionExpiry tdi => sessionExpiry tdi
  | .stopInterface tdi => stopInterface tdi
  | .startInterface tdi => startInterface tdi
  | .resetRelease image => resetRelease image
  | .queueTailWrite p q v => queueTailWrite p q v
  | .queueEnable p q v => queueEnable p q v
  | .queueSkip p q => queueSkip p q
  | .packetNop p q => packetNop p q
  | .packetLaunch p q => packetLaunch p q
  | .packetFeed p q => packetFeed p q
  | .feedAppend p q => feedAppend p q
  | .packetPred p q => packetPred p q
  | .packetGraph p q => packetGraph p q
  | .packetSignal p q => packetSignal p q
  | .packetInval p q => packetInval p q
  | .packetLoop p q => packetLoop p q
  | .loopIteration p q => loopIteration p q
  | .packetBreak p q => packetBreak p q
  | .placementOrder team => placementOrder team
  | .partitionConfigWrite p off v => partitionConfigWrite p off v
  | .tlbInvalidate p v => tlbInvalidate p v
  | .freezeResume p tcb => freezeResume p tcb
  | .freezeKill p tcb => freezeKill p tcb
  | .haltRequest c v => haltRequest c v
  | .shadowBankRead c => shadowBankRead c
  | .timetableEntryWrite c off v => timetableEntryWrite c off v
  | .registerWrite off v => registerWrite off v
  | .contractCommit v => contractCommit v
  | .islandOn i => islandOn i
  | .islandOff i => islandOff i
  | .islandRetainedOff i => islandRetainedOff i
  | .errcfgWrite v => errcfgWrite v
  | .errorInjectArm k v => errorInjectArm k v
  | .recoveryGo image => recoveryGo image
  | .chimneyModeWrite port v => chimneyModeWrite port v
  | .digclr port => digclr port
  | .breakpointStop k => breakpointStop k
  | .latencyInjectArm k v => latencyInjectArm k v
  | .overCurrentEnd i => overCurrentEnd i
  | .chimneyPortUp port ok lanes => chimneyPortUp port ok lanes
  | .lockInterface tdi => lockInterface tdi
  | .keyExchange tdi period => keyExchange tdi period
  | .heartbeat tdi => heartbeat tdi
  | .measurementReportRequest tdi => measurementReportRequest tdi
  | .preheaterBuildComplete p q r => preheaterBuildComplete p q r
  | .rv64Base i => rv64Base i
  | .tagWrite => tagWrite
  | .skSegend => skSegend
  | .skSegendTask => skSegendTask
  | .fenceI => fenceI
  | .wfi => wfi
  | .sret => sret
  | .interruptTake => interruptTake
  | .queueLowEntry => queueLowEntry
  | .lateSegmentTrap => lateSegmentTrap
  | .watchdogFreeze => watchdogFreeze
  | .vxRunStart => vxRunStart
  | .vxResultLand => vxResultLand
  | .vxClusterWake => vxClusterWake
  | .mxNop => mxNop
  | .mxRunStart => mxRunStart
  | .cxCopyStart => cxCopyStart
  | .cxPeerStart => cxPeerStart
  | .cxFillStart => cxFillStart
  | .cxRingStart => cxRingStart
  | .cxPretrStart => cxPretrStart
  | .cxFlushStart => cxFlushStart
  | .gxGatherStart => gxGatherStart
  | .gxBagStart => gxBagStart
  | .gxScaddStart => gxScaddStart
  | .gxCountStart => gxCountStart
  | .fxCfgStart => fxCfgStart
  | .fxPassStart => fxPassStart
  | .clAllredStart => clAllredStart
  | .clRedscStart => clRedscStart
  | .clAllgatStart => clAllgatStart
  | .clBcastStart => clBcastStart
  | .clBarrierStart => clBarrierStart
  | .collectiveCompletion => collectiveCompletion
  | .taskRetirement => taskRetirement
  | .intervalStep => intervalStep
  | .breachClear => breachClear
  | .fwcommit => fwcommit
  | .sootStop => sootStop
  | .sampleRecord => sampleRecord
  | .hostPortDown => hostPortDown

/-- Two well-formed instructions with one word are one instruction: the decoder has one answer. -/
theorem encode_injective {i j : Instr} (hi : i.wf = true) (hj : j.wf = true) (hw : (encode i).isSome = true)
    (h : encode i = encode j) : i = j := by
  obtain ⟨w, hiw⟩ := Option.isSome_iff_exists.1 hw
  have hdi : decodeWord w = .ok i := statement i hi w hiw
  have hdj : decodeWord w = .ok j := statement j hj w (h ▸ hiw)
  exact Except.ok.inj (hdi.symm.trans hdj)

/-- Settles O53: the round trip of each constructor, and that the decoder is a function. -/
theorem decodeEncode : Obligations.DecodeEncode := by
  unfold Obligations.DecodeEncode
  exact ⟨fun i w hi => statement i hi w, fun _ _ => encode_injective⟩

/-- Settles O52: the decoder evaluated at each word. -/
theorem decodeSamples : Obligations.DecodeSamples := by
  unfold Obligations.DecodeSamples
  refine ⟨rfl, rfl, rfl, rfl, rfl, rfl, rfl, rfl, rfl, rfl, rfl, rfl, rfl⟩

end Sys2Proof.Laws.RoundTrip

namespace Sys2Proof.Machine

/-- Settles O56: both memories list nothing at reset. -/
theorem resetMemoryCanonical : Obligations.ResetMemoryCanonical := by
  unfold Obligations.ResetMemoryCanonical
  exact ⟨rfl, rfl⟩

theorem State.island_reset (i : Nat) : State.reset.island i = Island.reset i := rfl

/-- A core island starts off. -/
theorem Island.reset_core {i : Nat} (h : i < 128) : (Island.reset i).cmd = 0 ∧ (Island.reset i).pstate = 0 :=
  ⟨if_pos h, if_pos h⟩

/-- An uncore island starts on. -/
theorem Island.reset_uncore {i : Nat} (h : 128 ≤ i) : (Island.reset i).cmd = 1 ∧ (Island.reset i).pstate = 2 :=
  ⟨if_neg (Nat.not_lt.2 h), if_neg (Nat.not_lt.2 h)⟩

theorem Ctx.getX_reset (c : Nat) (r : Reg) : (State.reset.ctx c).getX r = 0 := by
  unfold Ctx.getX
  split <;> rfl

/-- Settles O54: islands by their number; every other part reads as its reset value by definition. -/
theorem resetState : Obligations.ResetState := by
  unfold Obligations.ResetState
  refine ⟨fun i => ⟨fun h => ?core, fun h => ?uncore, rfl, rfl⟩, fun c => ⟨rfl, rfl, rfl, rfl, rfl, rfl, rfl, rfl,
    fun _ => rfl, fun _ => ⟨rfl, rfl⟩, fun _ => rfl, Ctx.getX_reset c⟩, fun _ => rfl, rfl, rfl, rfl,
    resetMemoryCanonical, fun _ => rfl⟩
  case core => rw [State.island_reset]; exact Island.reset_core h
  case uncore => rw [State.island_reset]; exact Island.reset_uncore h

end Sys2Proof.Machine
end

section
/-! SUPPORT. The register files, the frame of an update of the acting context, retiring, the wait for an owed register, and
the jumps and branches (08_stoker_isa.md R149, R150, R357; RISC-V). -/
namespace Sys2Proof.Machine

/-! ### Registers and the frame of an update -/

@[simp] theorem Ctx.getF_setX (x : Ctx) (r q : Reg) (v : Word) : (x.setX r v).getF q = x.getF q := by
  unfold Ctx.getF
  rw [Ctx.setX_f]

@[simp] theorem Ctx.getX_setF (x : Ctx) (r q : Reg) (v : Word) : (x.setF r v).getX q = x.getX q := rfl

/-- Settles O1: reads after writes by the laws of the register tables, and the frame of an update of the acting context. -/
theorem registerFileAndContextFrame : Obligations.RegisterFileAndContextFrame := by
  unfold Obligations.RegisterFileAndContextFrame
  refine ⟨fun x r q v => ⟨x.getX_zero, x.setX_zero v, fun hr => ?same, fun hq => ?other, x.getF_setX r q v, ?sameF,
    fun hq => ?otherF, x.getX_setF r q v⟩, fun s f => ⟨s.my_upd f, s.me_upd f, fun d hd => ?core, rfl⟩⟩
  case same => rw [Ctx.getX_setX, if_pos rfl, if_neg hr]
  case other => rw [Ctx.getX_setX, if_neg hq]
  case sameF => rw [Ctx.getF_setF, if_pos rfl]
  case otherF => rw [Ctx.getF_setF, if_neg hq]
  case core => rw [State.core_upd, if_neg hd]

/-! ### Owed and poisoned registers -/

/-- An instruction that names an owed register waits. -/
theorem State.withRegs_pending {s : State} {srcs dsts : List Dest} (k : Res)
    (h : srcs.any s.my.pending = true ∨ dsts.any s.my.pending = true) : s.withRegs srcs dsts k = .next s := by
  rw [State.withRegs, if_pos (by simpa using h), State.wait]

/-- A source that an uncorrectable load left traps. -/
theorem State.withRegs_poisoned {s : State} {srcs dsts : List Dest} {a : Word} (k : Res)
    (hsrcs : srcs.any s.my.pending = false) (hdsts : dsts.any s.my.pending = false)
    (h : srcs.findSome? s.my.poisoned = some a) : s.withRegs srcs dsts k = .next (s.takeTrap 5 a 0) := by
  rw [State.withRegs, if_neg (by simp [hsrcs, hdsts]), h]
  rfl

/-- Settles O2: what retiring is where nothing waits, and the check of the registers an instruction names. -/
theorem retireEffectAndOwedRegisters : Obligations.RetireEffectAndOwedRegisters := by
  unfold Obligations.RetireEffectAndOwedRegisters
  refine ⟨fun s pc h => State.retireAt_eq h pc, fun s i srcs dsts h => ?owed⟩
  case owed =>
    obtain ⟨k, hk⟩ := exec_withRegs h
    rw [hk]
    exact ⟨State.withRegs_pending k, fun _ => State.withRegs_poisoned k⟩

/-! ### Jumps and branches -/

/-- Settles O4: the conditions as comparisons of integers, and each jump past the check of its registers. -/
theorem controlFlow : Obligations.ControlFlow := by
  unfold Obligations.ControlFlow
  refine ⟨fun a b => ?conds, fun s rd rs1 rs2 => ⟨fun imm h => ?jal, fun imm h => ?jalr, fun c imm h => ?branch⟩⟩
  case conds =>
    refine ⟨beq_iff_eq, bne_iff_ne, BitVec.slt_iff_toInt_lt, ?_, BitVec.ult_iff_toNat_lt, ?_⟩
    · rw [condVal, Bool.not_eq_true', ← Bool.not_eq_true, BitVec.slt_iff_toInt_lt, Int.not_lt]
    · rw [condVal, Bool.not_eq_true', ← Bool.not_eq_true, BitVec.ult_iff_toNat_lt, Nat.not_lt]
  case jal => exact State.withRegs_ready h _
  case jalr => exact State.withRegs_ready h _
  case branch =>
    refine (State.withRegs_ready h _).trans ?_
    by_cases hc : condVal c (s.my.getX rs1) (s.my.getX rs2) = true
    · rw [if_pos hc]
      exact if_pos hc
    · rw [if_neg hc]
      exact if_neg hc

end Sys2Proof.Machine
end

section
/-! SUPPORT. The values of the integer operations (RISC-V unprivileged specification, PRESUMED, log 20): high products,
divisions, rotations, the word forms, and the counts and byte orders of Zbb. -/
namespace Sys2Proof.Machine

theorem ite_of_iff {α : Type} {p q : Prop} [Decidable p] [Decidable q] {a b : α} (h : p ↔ q) :
    (if p then a else b) = if q then a else b := ite_congr (propext h) (fun _ => rfl) fun _ => rfl

/-! ### Products, divisions and rotations -/

/-- The upper half of a product that 128 bits hold. -/
theorem mulHigh_toInt {x y : Int} (hlo : -2 ^ 127 ≤ x * y) (hhi : x * y < 2 ^ 127) :
    (mulHigh x y).toInt = x * y / 2 ^ 64 := by
  unfold mulHigh
  generalize x * y = p at *
  rw [BitVec.toInt_ofInt, Int.bmod_eq_of_le] <;> omega

theorem Word.toInt_bounds (a : Word) : -2 ^ 63 ≤ a.toInt ∧ a.toInt < 2 ^ 63 := ⟨BitVec.le_toInt a, BitVec.toInt_lt⟩

/-- A product that 128 bits hold, by the magnitudes of its factors. -/
theorem mulHigh_of_natAbs {x y : Int} (hx : x.natAbs ≤ 2 ^ 63) (hy : y.natAbs < 2 ^ 64) :
    (mulHigh x y).toInt = x * y / 2 ^ 64 := by
  have h : (x * y).natAbs ≤ 2 ^ 63 * (2 ^ 64 - 1) := by
    rw [Int.natAbs_mul]
    exact Nat.mul_le_mul hx (by omega)
  exact mulHigh_toInt (by omega) (by omega)

theorem aluVal_mulh_toInt (a b : Word) : (aluVal .mulh a b).toInt = a.toInt * b.toInt / 2 ^ 64 := by
  obtain ⟨ha, ha'⟩ := Word.toInt_bounds a
  obtain ⟨hb, hb'⟩ := Word.toInt_bounds b
  exact mulHigh_of_natAbs (by omega) (by omega)

theorem aluVal_mulhsu_toInt (a b : Word) : (aluVal .mulhsu a b).toInt = a.toInt * b.toNat / 2 ^ 64 := by
  obtain ⟨ha, ha'⟩ := Word.toInt_bounds a
  exact mulHigh_of_natAbs (by omega) b.isLt

theorem aluVal_mulhu_eq (a b : Word) : aluVal .mulhu a b = BitVec.ofNat 64 (a.toNat * b.toNat / 2 ^ 64) := by
  show BitVec.ofInt 64 ((a.toNat : Int) * b.toNat / ((2 ^ 64 : Nat) : Int)) = _
  rw [← Int.natCast_mul, ← Int.natCast_ediv, BitVec.ofInt_natCast]

section
variable {w : Nat} {a b : BitVec w} (hb : b ≠ 0)
include hb

theorem sdivW_toInt (h : ¬(a = BitVec.intMin w ∧ b = BitVec.ofInt w (-1))) :
    (sdivW a b).toInt = a.toInt.tdiv b.toInt := by
  rw [sdivW, if_neg hb, BitVec.toInt_sdiv_of_ne_or_ne]
  rw [Classical.not_and_iff_not_or_not] at h
  refine h.imp_right fun h e => h (e.trans ?_)
  rw [BitVec.ofInt_neg, BitVec.ofInt_ofNat]

theorem sremW_toInt : (sremW a b).toInt = a.toInt.tmod b.toInt := by rw [sremW, if_neg hb, BitVec.toInt_srem]

theorem udivW_toNat : (udivW a b).toNat = a.toNat / b.toNat := by rw [udivW, if_neg hb, BitVec.toNat_udiv]

theorem uremW_toNat : (uremW a b).toNat = a.toNat % b.toNat := by rw [uremW, if_neg hb, BitVec.toNat_umod]

theorem udivW_eq_ofNat : udivW a b = BitVec.ofNat w (a.toNat / b.toNat) := by
  rw [← udivW_toNat hb, BitVec.ofNat_toNat, BitVec.setWidth_eq]

theorem uremW_eq_ofNat : uremW a b = BitVec.ofNat w (a.toNat % b.toNat) := by
  rw [← uremW_toNat hb, BitVec.ofNat_toNat, BitVec.setWidth_eq]

end

/-- The overflowing division of the least number by -1. -/
theorem divw_intMin : sdivW (BitVec.intMin 32) (BitVec.ofInt 32 (-1)) = BitVec.intMin 32 ∧
    sremW (BitVec.intMin 32) (BitVec.ofInt 32 (-1)) = 0 := by decide

theorem rotateLeft_of_lt {w k : Nat} (x : BitVec w) (h : k < w) : x.rotateLeft k = x <<< k ||| x >>> (w - k) := by
  rw [BitVec.rotateLeft_def, Nat.mod_eq_of_lt h]

theorem rotateRight_of_lt {w k : Nat} (x : BitVec w) (h : k < w) : x.rotateRight k = x >>> k ||| x <<< (w - k) := by
  rw [BitVec.rotateRight_def, Nat.mod_eq_of_lt h]

/-! ### Selections and word forms -/

theorem max_toInt (a b : Word) : (if a.slt b then b else a).toInt = max a.toInt b.toInt := by
  by_cases h : a.toInt < b.toInt
  · rw [if_pos (BitVec.slt_iff_toInt_lt.2 h), Int.max_eq_right (Int.le_of_lt h)]
  · rw [if_neg (mt BitVec.slt_iff_toInt_lt.1 h), Int.max_eq_left (Int.not_lt.1 h)]

theorem min_toInt (a b : Word) : (if a.slt b then a else b).toInt = min a.toInt b.toInt := by
  by_cases h : a.toInt < b.toInt
  · rw [if_pos (BitVec.slt_iff_toInt_lt.2 h), Int.min_eq_left (Int.le_of_lt h)]
  · rw [if_neg (mt BitVec.slt_iff_toInt_lt.1 h), Int.min_eq_right (Int.not_lt.1 h)]

theorem max_toNat (a b : Word) : (if a.ult b then b else a).toNat = max a.toNat b.toNat := by
  by_cases h : a.toNat < b.toNat
  · rw [if_pos (BitVec.ult_iff_toNat_lt.2 h), Nat.max_eq_right (Nat.le_of_lt h)]
  · rw [if_neg (mt BitVec.ult_iff_toNat_lt.1 h), Nat.max_eq_left (Nat.not_lt.1 h)]

theorem min_toNat (a b : Word) : (if a.ult b then a else b).toNat = min a.toNat b.toNat := by
  by_cases h : a.toNat < b.toNat
  · rw [if_pos (BitVec.ult_iff_toNat_lt.2 h), Nat.min_eq_left (Nat.le_of_lt h)]
  · rw [if_neg (mt BitVec.ult_iff_toNat_lt.1 h), Nat.min_eq_right (Nat.not_lt.1 h)]

@[simp] theorem zext32_toNat (a : Word) : (zext32 a).toNat = a.toNat % 2 ^ 32 := by
  simp only [zext32, BitVec.toNat_setWidth]
  omega

/-- An operation on the zero-extended low half, shifted by k and added. -/
theorem shAddUw_toNat (a b : Word) (k : Nat) (hk : k ≤ 3) :
    (b + (zext32 a <<< k)).toNat = (2 ^ k * (a.toNat % 2 ^ 32) + b.toNat) % 2 ^ 64 := by
  rw [BitVec.toNat_add, BitVec.toNat_shiftLeft, zext32_toNat, Nat.shiftLeft_eq]
  match k, hk with
  | 0, _ | 1, _ | 2, _ | 3, _ => omega

theorem sext32_add (a b : Word) : sext32 (a + b) = (a.setWidth 32 + b.setWidth 32).signExtend 64 := by
  rw [sext32, BitVec.setWidth_add _ _ (by decide)]

theorem sext32_mul (a b : Word) : sext32 (a * b) = (a.setWidth 32 * b.setWidth 32 : BitVec 32).signExtend 64 := by
  rw [sext32, BitVec.setWidth_mul _ _ (by decide)]

theorem sext32_sub (a b : Word) : sext32 (a - b) = (a.setWidth 32 - b.setWidth 32 : BitVec 32).signExtend 64 := by
  rw [sext32]
  congr 1
  apply BitVec.eq_of_toNat_eq
  simp only [BitVec.toNat_setWidth, BitVec.toNat_sub]
  omega

/-- The sign extension of a word keeps its value. -/
theorem toInt_signExtend64 (x : BitVec 32) : (x.signExtend 64).toInt = x.toInt := by
  rw [BitVec.toInt_signExtend, Nat.min_eq_right (by decide), Int.bmod_eq_of_le] <;>
  · have h1 := BitVec.le_toInt x
    have h2 := @BitVec.toInt_lt _ x
    omega

/-- The sign-extended low half of a sign-extended immediate. -/
theorem setWidth_signExtend_imm (imm : BitVec 12) : (imm.signExtend 64).setWidth 32 = imm.signExtend 32 := by
  apply BitVec.eq_of_getLsbD_eq
  intro i hi
  simp only [BitVec.getLsbD_setWidth, BitVec.getLsbD_signExtend, hi, decide_true, Bool.true_and, show i < 64 by omega]

/-! ### Counts -/

theorem leadingZeros_zero : ∀ w, leadingZeros w 0 = w
  | 0 => rfl
  | w + 1 => by
    rw [leadingZeros, Nat.zero_div, if_neg (by decide), leadingZeros_zero w]
    omega

/-- n leading zeros: the number's highest one stands n places from the top. -/
theorem leadingZeros_eq : ∀ {w n v : Nat}, n < w → v / 2 ^ (w - 1 - n) = 1 → leadingZeros w v = n
  | w + 1, 0, v, _, h => by
    rw [show w + 1 - 1 - 0 = w by omega] at h
    rw [leadingZeros, h, if_pos rfl]
  | w + 1, n + 1, v, hn, h => by
    have ih : leadingZeros w v = n := leadingZeros_eq (by omega) (by rwa [show w - 1 - n = w + 1 - 1 - (n + 1) by omega])
    have hlt : v < 2 ^ w := by
      have h2 : v < 2 * 2 ^ (w + 1 - 1 - (n + 1)) := by
        rw [← Nat.div_lt_iff_lt_mul (Nat.two_pow_pos _), h]
        decide
      calc v < 2 ^ (w + 1 - 1 - (n + 1) + 1) := by rwa [Nat.pow_succ', ]
        _ ≤ 2 ^ w := Nat.pow_le_pow_right (by decide) (by omega)
    rw [leadingZeros, Nat.div_eq_of_lt hlt, if_neg (by decide), ih, Nat.add_comm]

/-- A number whose low w bits are zero has w trailing zeros among them. -/
theorem trailingZeros_of_mod : ∀ {w v : Nat}, v % 2 ^ w = 0 → trailingZeros w v = w
  | 0, _, _ => rfl
  | w + 1, v, h => by
    rw [Nat.pow_succ', Nat.mod_mul] at h
    rw [trailingZeros, if_neg (by omega), trailingZeros_of_mod (by omega), Nat.add_comm]

/-- n trailing zeros: the number's lowest one stands at place n. -/
theorem trailingZeros_eq : ∀ {w n v : Nat}, n < w → v % 2 ^ (n + 1) = 2 ^ n → trailingZeros w v = n
  | w + 1, 0, v, _, h => by rw [trailingZeros, if_pos (by simpa using h)]
  | w + 1, n + 1, v, hn, h => by
    have hmod : v % 2 = 0 ∧ v / 2 % 2 ^ (n + 1) = 2 ^ n := by
      rw [Nat.pow_succ', Nat.mod_mul] at h
      rw [Nat.pow_succ' (n := n)] at h ⊢
      omega
    rw [trailingZeros, if_neg (by omega), trailingZeros_eq (by omega) hmod.2, Nat.add_comm]

/-- The ones among the low n bits. -/
theorem popCount_eq : ∀ n v : Nat, popCount n v = ((List.range n).filter v.testBit).length
  | 0, _ => rfl
  | n + 1, v => by
    have hbits : v.testBit ∘ Nat.succ = (v / 2).testBit := funext fun i => Nat.testBit_succ v i
    rw [popCount, popCount_eq n, List.range_succ_eq_map, List.filter_cons, List.filter_map, hbits, Nat.testBit_zero]
    rcases Nat.mod_two_eq_zero_or_one v with h | h <;> simp [h, Nat.add_comm]

/-! ### Bytes -/

/-- Byte i of a number. -/
def byteOf (v i : Nat) : Byte := BitVec.ofNat 8 (v / 256 ^ i)

theorem leBytes_getElem? : ∀ {n i : Nat} (v : Nat), i < n → (leBytes n v)[i]? = some (byteOf v i)
  | n + 1, 0, v, _ => by simp [leBytes, byteOf]
  | n + 1, i + 1, v, h => by
    rw [leBytes, List.getElem?_cons_succ, leBytes_getElem? _ (by omega), byteOf, byteOf, Nat.div_div_eq_div_mul,
      Nat.pow_succ']

theorem leNat_byte : ∀ {bs : List Byte} {i : Nat} {b : Byte}, bs[i]? = some b → byteOf (leNat bs) i = b
  | c :: bs, 0, b, h => by
    obtain rfl : c = b := by simpa using h
    apply BitVec.eq_of_toNat_eq
    simp only [byteOf, leNat, BitVec.toNat_ofNat]
    omega
  | c :: bs, i + 1, b, h => by
    have ih : byteOf (leNat bs) i = b := leNat_byte (by simpa using h)
    have hc := c.isLt
    rw [← ih, byteOf, byteOf, leNat, Nat.pow_succ', ← Nat.div_div_eq_div_mul, show (c.toNat + 256 * leNat bs) / 256 = leNat bs by omega]

theorem extract_byte (a : Word) (i : Nat) : a.extractLsb' (8 * i) 8 = byteOf a.toNat i := by
  apply BitVec.eq_of_toNat_eq
  simp only [BitVec.extractLsb'_toNat, byteOf, BitVec.toNat_ofNat, Nat.shiftRight_eq_div_pow, Nat.pow_mul]

theorem leNat_lt (bs : List Byte) : leNat bs < 256 ^ bs.length := by
  induction bs with
  | nil => simp [leNat]
  | cons b bs ih =>
    have hb := b.isLt
    rw [leNat, List.length_cons, Nat.pow_succ']
    omega

/-- Byte i of the word that eight bytes make. -/
theorem ofNat_leNat_byte {bs : List Byte} {i : Nat} {b : Byte} (hlen : bs.length = 8) (h : bs[i]? = some b) :
    (BitVec.ofNat 64 (leNat bs)).extractLsb' (8 * i) 8 = b := by
  have hlt := leNat_lt bs
  rw [hlen] at hlt
  rw [extract_byte, BitVec.toNat_ofNat, Nat.mod_eq_of_lt (by omega), leNat_byte h]

theorem orcB_byte (a : Word) {i : Nat} (hi : i < 8) :
    (unVal .orcB a).extractLsb' (8 * i) 8 = if a.extractLsb' (8 * i) 8 = 0 then 0 else 0xFF#8 := by
  rw [extract_byte a]
  refine ofNat_leNat_byte (by simp) ?_
  rw [List.getElem?_map, leBytes_getElem? _ hi, Option.map_some]

theorem rev8_byte (a : Word) {i : Nat} (hi : i < 8) :
    (unVal .rev8 a).extractLsb' (8 * i) 8 = a.extractLsb' (8 * (7 - i)) 8 := by
  rw [extract_byte a]
  refine ofNat_leNat_byte (by simp) ?_
  rw [List.getElem?_reverse (by simpa using hi), leBytes_length, leBytes_getElem? _ (by omega)]

/-- The low n bytes as a two's complement number. -/
theorem extend_signed {n : Nat} (hn : 0 < n) (a : Word) : extend n true a.toNat = (a.setWidth (8 * n)).signExtend 64 := by
  rw [extend, if_pos rfl, BitVec.signExtend, BitVec.toInt_eq_toNat_cond, sextNat, BitVec.toNat_setWidth]
  have hpow : 2 ^ (8 * n) = 2 * 2 ^ (8 * n - 1) := by rw [← Nat.pow_succ']; congr 1; omega
  congr 1
  by_cases h : a.toNat % 2 ^ (8 * n) < 2 ^ (8 * n - 1)
  · exact (if_pos h).trans (if_pos (by omega)).symm
  · exact (if_neg h).trans (if_neg (by omega)).symm

/-! ### The operations -/

/-- Settles O3: the writes of rd past the check of the registers, and the value of each operation. -/
theorem integerComputationAndIntegerValues : Obligations.IntegerComputationAndIntegerValues := by
  unfold Obligations.IntegerComputationAndIntegerValues
  refine ⟨fun s rd rs1 rs2 => ?writes, fun a b => ?plain, fun a b => ?wide, fun a b => ?word, fun a imm => ?imm,
    fun a sh => ?shift, fun a => ?unary⟩
  case writes =>
    have hset (srcs : List Dest) (v : Word) (h : s.regsReady srcs [destX rd]) : s.withRegs srcs [destX rd] (s.setRd rd v) =
        .next ((s.upd fun x => x.setX rd v).retireAt s.nextPc) := (State.withRegs_ready h _).trans (State.setRd_eq s rd v)
    exact ⟨fun _ => hset _ _, fun _ _ => hset _ _, fun _ _ => hset _ _, fun _ => hset _ _, fun _ => hset _ _,
      fun _ => hset _ _⟩
  case plain =>
    exact ⟨rfl, rfl, rfl, rfl, rfl, rfl, rfl, rfl, ite_of_iff BitVec.slt_iff_toInt_lt,
      ite_of_iff BitVec.ult_iff_toNat_lt, rfl, aluVal_mulhu_eq a b, rfl, rfl, rfl, rfl, by decide, by decide,
      sext32_add a b, BitVec.add_comm .., rfl⟩
  case wide =>
    have hk : b.toNat % 64 < 64 := Nat.mod_lt _ (by decide)
    refine ⟨aluVal_mulh_toInt a b, aluVal_mulhsu_toInt a b, fun hb h => ⟨sdivW_toInt hb h, sremW_toInt hb⟩,
      fun hb => ⟨udivW_toNat hb, uremW_toNat hb⟩, BitVec.add_comm .., BitVec.add_comm .., rfl, ?xnor, max_toInt a b,
      min_toInt a b, max_toNat a b, min_toNat a b, rotateLeft_of_lt a hk, rotateRight_of_lt a hk, ?uw,
      shAddUw_toNat a b 1 (by decide), shAddUw_toNat a b 2 (by decide), shAddUw_toNat a b 3 (by decide)⟩
    case xnor => exact BitVec.not_xor_right ..
    case uw =>
      refine Eq.trans ?_ ((shAddUw_toNat a b 0 (by decide)).trans (by rw [Nat.pow_zero, Nat.one_mul]))
      rw [BitVec.shiftLeft_zero]
      rfl
  case word =>
    have hk : b.toNat % 32 < 32 := Nat.mod_lt _ (by decide)
    refine ⟨sext32_sub a b, sext32_mul a b, rfl, rfl, rfl, ?rolw, ?rorw, fun hy h => ?div, fun hx hy => ?least,
      fun hy => ?divu, fun hy => ?zero⟩
    case rolw => exact congrArg (BitVec.signExtend 64) (rotateLeft_of_lt _ hk)
    case rorw => exact congrArg (BitVec.signExtend 64) (rotateRight_of_lt _ hk)
    case div => exact ⟨(toInt_signExtend64 _).trans (sdivW_toInt hy h), (toInt_signExtend64 _).trans (sremW_toInt hy)⟩
    case least =>
      obtain ⟨hdiv, hrem⟩ := divw_intMin
      have hdivw : sdivW (a.setWidth 32) (b.setWidth 32) = (a.setWidth 32 : BitVec 32) := by rw [hx, hy, hdiv]
      have hremw : sremW (a.setWidth 32) (b.setWidth 32 : BitVec 32) = 0 := by rw [hx, hy, hrem]
      exact ⟨congrArg (BitVec.signExtend 64) hdivw, congrArg (BitVec.signExtend 64) hremw⟩
    case divu =>
      exact ⟨congrArg (BitVec.signExtend 64) (udivW_eq_ofNat hy), congrArg (BitVec.signExtend 64) (uremW_eq_ofNat hy)⟩
    case zero =>
      exact ⟨congrArg (BitVec.signExtend 64) (if_pos hy), congrArg (BitVec.signExtend 64) (if_pos hy),
        congrArg (BitVec.signExtend 64) (if_pos hy), congrArg (BitVec.signExtend 64) (if_pos hy)⟩
  case imm =>
    refine ⟨rfl, ite_of_iff BitVec.slt_iff_toInt_lt, ite_of_iff BitVec.ult_iff_toNat_lt, rfl, rfl, rfl, ?_⟩
    rw [← setWidth_signExtend_imm]
    exact sext32_add a _
  case shift =>
    refine ⟨rfl, rfl, rfl, rotateRight_of_lt a sh.isLt, ?uw, rfl, rfl, rfl, fun hk => ?rorw⟩
    case uw =>
      show (zext32 a <<< sh.toNat).toNat = _
      rw [BitVec.toNat_shiftLeft, zext32_toNat, Nat.shiftLeft_eq, BitVec.toNat_setWidth]
    case rorw => exact congrArg (BitVec.signExtend 64) (rotateRight_of_lt _ hk)
  case unary =>
    refine ⟨fun n hn h => ?clz, ?clz0, fun n hn h => ?ctz, ?ctz0, fun n hn h => ?clzw, fun n hn h => ?ctzw, fun h => ?zerow,
      ?cpop, ?cpopw, extend_signed (by decide) a, extend_signed (by decide) a, ?zextH, fun i hi => ⟨orcB_byte a hi, rev8_byte a hi⟩⟩
    case clz => exact congrArg (BitVec.ofNat 64) (leadingZeros_eq hn h)
    case clz0 => rintro rfl; rfl
    case ctz => exact congrArg (BitVec.ofNat 64) (trailingZeros_eq hn h)
    case ctz0 => rintro rfl; rfl
    case clzw => exact congrArg (BitVec.ofNat 64) (leadingZeros_eq hn h)
    case ctzw => exact congrArg (BitVec.ofNat 64) (trailingZeros_eq hn h)
    case zerow =>
      refine ⟨congrArg (BitVec.ofNat 64) ?_, congrArg (BitVec.ofNat 64) (trailingZeros_of_mod h)⟩
      rw [h, leadingZeros_zero]
    case cpop => exact congrArg (BitVec.ofNat 64) (popCount_eq 64 a.toNat)
    case cpopw => exact congrArg (BitVec.ofNat 64) (popCount_eq 32 a.toNat)
    case zextH =>
      show (BitVec.ofNat 64 (a.toNat % 2 ^ 16)).toNat = _
      rw [BitVec.toNat_ofNat]
      omega

end Sys2Proof.Machine
end

section
/-! SUPPORT. The floating-point arithmetic of the Stoker: NaNs and invalid operations, exact values rounded once, selections
and conversions, and the instructions that use them (RISC-V unprivileged specification, PRESUMED, log 20). -/
namespace Sys2Proof.Machine

/-! ### Values -/

@[simp] theorem Val.isNan_negate (a : Val) : a.negate.isNan = a.isNan := by cases a <;> rfl

theorem Val.add_nan_left {a : Val} (h : a.isNan = true) (d : Bool) (b : Val) : (a.add d b).isNan = true := by
  cases a with
  | nan s => cases b <;> rfl
  | inf s => cases h
  | fin s m e => cases h

theorem Val.add_nan_right {b : Val} (h : b.isNan = true) (d : Bool) (a : Val) : (a.add d b).isNan = true := by
  cases b with
  | nan s => cases a <;> rfl
  | inf s => cases h
  | fin s m e => cases h

theorem Val.mul_nan_left {a : Val} (h : a.isNan = true) (b : Val) : (a.mul b).isNan = true := by
  cases a with
  | nan s => cases b <;> rfl
  | inf s => cases h
  | fin s m e => cases h

theorem Val.mul_nan_right {b : Val} (h : b.isNan = true) (a : Val) : (a.mul b).isNan = true := by
  cases b with
  | nan s => cases a <;> rfl
  | inf s => cases h
  | fin s m e => cases h

theorem Val.add_fin_isNan (d : Bool) (s t : Bool) (m n : Nat) (e k : Int) :
    ((Val.fin s m e).add d (.fin t n k)).isNan = false := by
  simp only [Val.add, Val.ofInt]
  split <;> rfl

/-- The sum of a finite value and of no NaN is no NaN. -/
theorem Val.fin_add_isNan (d s : Bool) (m : Nat) (e : Int) {c : Val} (h : c.isNan = false) :
    ((Val.fin s m e).add d c).isNan = false := by
  cases c with
  | nan q => cases h
  | inf t => rfl
  | fin t n k => exact Val.add_fin_isNan d s t m n e k

/-- A value that is less compares greater the other way round. -/
theorem Val.cmp_gt_of_lt {a b : Val} (h : a.cmp b = some .lt) : b.cmp a = some .gt := by
  cases a with
  | nan s => cases b <;> cases h
  | inf s =>
    cases b with
    | nan t => cases h
    | inf t => cases s <;> cases t <;> simp_all [Val.cmp]
    | fin t n d => cases s <;> simp_all [Val.cmp]
  | fin s m e =>
    cases b with
    | nan t => cases h
    | inf t => cases t <;> simp_all [Val.cmp]
    | fin t n d =>
      simp only [Val.cmp, Option.some.injEq] at h ⊢
      rw [Int.min_comm d e]
      have hlt : (Val.fin s m e).intAt (min e d) - (Val.fin t n d).intAt (min e d) < 0 := by
        split at h
        · assumption
        · split at h <;> cases h
      rw [if_neg (by omega), if_neg (by omega)]

theorem Val.notNan_of_cmp {a b : Val} {o : Ordering} (h : a.cmp b = some o) : a.isNan = false ∧ b.isNan = false := by
  cases a <;> cases b <;> simp_all [Val.cmp, Val.isNan]

theorem Val.isSig_of_notNan {a : Val} (h : a.isNan = false) : a.isSig = false := by
  cases a with
  | nan s => cases h
  | inf s => rfl
  | fin s m e => rfl

/-! ### Sums, products and fused forms -/

section
variable {f : Fmt} {m : Rm}

/-- A result that is no NaN is rounded. -/
theorem rvFinish_number {ins : List Val} {v : Val} (h : v.isNan = false) : rvFinish f m ins v = rvRound f m v := by
  rw [rvFinish, if_neg (by simp [h])]

/-- With a NaN operand the result is the canonical NaN, with NV for a signalling one. -/
theorem rvFinish_nanOperand {ins : List Val} {v : Val} (h : v.isNan = true) (hin : ∃ a ∈ ins, a.isNan = true) :
    rvFinish f m ins v = (f.nanCode, Fl.nvIf (ins.any Val.isSig)) := by
  obtain ⟨a, ha, hnan⟩ := hin
  have hall : ins.all (fun x => !x.isNan) = false := List.all_eq_false.2 ⟨a, ha, by simp [hnan]⟩
  rw [rvFinish, if_pos h, hall, Bool.or_false]

/-- A NaN of operands that are none is an invalid operation. -/
theorem rvFinish_invalid {ins : List Val} {v : Val} (h : v.isNan = true) (hin : ∀ a ∈ ins, a.isNan = false) :
    rvFinish f m ins v = (f.nanCode, Fl.nvIf true) := by
  have hall : ins.all (fun x => !x.isNan) = true := List.all_eq_true.2 fun a ha => by simp [hin a ha]
  rw [rvFinish, if_pos h, hall, Bool.or_true]

theorem rvArith_nan (op : FpArith) {a b : Val} (h : a.isNan = true ∨ b.isNan = true) :
    rvArith op f m a b = (f.nanCode, Fl.nvIf (a.isSig || b.isSig)) := by
  have hin : ∃ x ∈ [a, b], x.isNan = true := by simpa using h
  have hsig : [a, b].any Val.isSig = (a.isSig || b.isSig) := by simp
  cases op with
  | fadd => exact (rvFinish_nanOperand (h.elim (Val.add_nan_left · _ _) (Val.add_nan_right · _ _)) hin).trans (by rw [hsig])
  | fsub =>
    refine (rvFinish_nanOperand (h.elim (Val.add_nan_left · _ _) fun hb => Val.add_nan_right ?_ _ _) hin).trans
      (by rw [hsig])
    rwa [Val.isNan_negate]
  | fmul => exact (rvFinish_nanOperand (h.elim (Val.mul_nan_left · _) (Val.mul_nan_right · _)) hin).trans (by rw [hsig])
  | fdiv =>
    cases a with
    | nan s => cases b <;> rfl
    | inf s =>
      cases b with
      | nan t => rfl
      | inf t => simp [Val.isNan] at h
      | fin t n d => simp [Val.isNan] at h
    | fin s k e =>
      cases b with
      | nan t => rfl
      | inf t => simp [Val.isNan] at h
      | fin t n d => simp [Val.isNan] at h

/-- A NaN operand of a fused form, or one added to a product that is a number. -/
theorem rvFma_nan (op : FpFma) {a b c : Val}
    (h : a.isNan = true ∨ b.isNan = true ∨ (c.isNan = true ∧ (a.mul b).isNan = false)) :
    rvFma op f m a b c = (f.nanCode, Fl.nvIf (a.isSig || b.isSig || c.isSig)) := by
  have hvalid : ¬((a.mul b).isNan = true ∧ ¬a.isNan = true ∧ ¬b.isNan = true) := by
    rcases h with h | h | ⟨_, h⟩ <;> simp [h]
  have hin : ∃ x ∈ [a, b, c], x.isNan = true := by
    rcases h with h | h | ⟨h, _⟩ <;> simp [h]
  have hsig : [a, b, c].any Val.isSig = (a.isSig || b.isSig || c.isSig) := by simp [Bool.or_assoc]
  have hsum : (a.mul b).isNan = true ∨ c.isNan = true :=
    h.elim (fun ha => .inl (Val.mul_nan_left ha b)) fun h => h.elim (fun hb => .inl (Val.mul_nan_right hb a)) fun h => .inr h.1
  unfold rvFma
  rw [if_neg hvalid, rvFinish_nanOperand ?_ hin, hsig]
  refine hsum.elim (fun hp => Val.add_nan_left ?_ _ _) fun hc => Val.add_nan_right ?_ _ _ <;> split <;> simpa

/-- A product of numbers that is a NaN is an invalid operation, whatever is added. -/
theorem rvFma_invalid (op : FpFma) {a b : Val} (c : Val) (ha : a.isNan = false) (hb : b.isNan = false)
    (h : (a.mul b).isNan = true) : rvFma op f m a b c = (f.nanCode, Fl.nvIf true) := by
  unfold rvFma
  exact if_pos ⟨h, by simp [ha], by simp [hb]⟩

theorem rvFma_fin (s t : Bool) (k n : Nat) (e d : Int) {c : Val} (hc : c.isNan = false) :
    rvFma .fmadd f m (.fin s k e) (.fin t n d) c = rvRound f m (((Val.fin s k e).mul (.fin t n d)).add m.down c) := by
  unfold rvFma
  rw [if_neg (fun h => absurd h.1 (by decide : ¬false = true))]
  exact rvFinish_number (Val.fin_add_isNan _ _ _ _ hc)

theorem Val.negate_mul (a b : Val) : a.negate.mul b = (a.mul b).negate := by
  cases a <;> cases b <;> simp [Val.negate, Val.mul] <;> split <;> rfl

@[simp] theorem Val.isSig_negate (a : Val) : a.negate.isSig = a.isSig := by cases a <;> rfl

/-- The fused forms by the first of them: of a negated product, of a negated addend, and of both. -/
theorem rvFma_forms (a b c : Val) :
    rvFma .fmsub f m a b c = rvFma .fmadd f m a b c.negate ∧ rvFma .fnmsub f m a b c = rvFma .fmadd f m a.negate b c ∧
    rvFma .fnmadd f m a b c = rvFma .fmadd f m a.negate b c.negate := by
  simp [rvFma, Val.negate_mul, rvFinish]

/-! ### Conversions from and to integers -/

theorem sextNat_toNat {w : Nat} (hw : 0 < w) (x : BitVec w) : sextNat w x.toNat = x.toInt := by
  have hpow : 2 ^ w = 2 * 2 ^ (w - 1) := by rw [← Nat.pow_succ']; congr 1; omega
  rw [sextNat, BitVec.toInt_eq_toNat_cond, Nat.mod_eq_of_lt x.isLt]
  by_cases h : x.toNat < 2 ^ (w - 1)
  · exact (if_pos h).trans (if_pos (by omega)).symm
  · exact (if_neg h).trans (if_neg (by omega)).symm

theorem sextNat_mod (n v : Nat) : sextNat n (v % 2 ^ n) = sextNat n v := by
  rw [sextNat, sextNat, Nat.mod_mod]

theorem rvOfInt_forms (x : Word) :
    rvOfInt .l f m x = rvRound f m (Val.ofInt x.toInt 0) ∧ rvOfInt .lu f m x = rvRound f m (Val.ofInt x.toNat 0) ∧
    rvOfInt .w f m x = rvRound f m (Val.ofInt (x.setWidth 32).toInt 0) ∧
    rvOfInt .wu f m x = rvRound f m (Val.ofInt (x.setWidth 32).toNat 0) := by
  refine ⟨?_, ?_, ?_, ?_⟩
  · exact congrArg (fun v => rvRound f m (Val.ofInt v 0)) (sextNat_toNat (by decide) x)
  · exact congrArg (fun v : Nat => rvRound f m (Val.ofInt v 0)) (Nat.mod_eq_of_lt x.isLt)
  · refine congrArg (fun v => rvRound f m (Val.ofInt v 0)) ?_
    rw [← sextNat_toNat (by decide), BitVec.toNat_setWidth]
    exact (sextNat_mod 32 x.toNat).symm
  · exact congrArg (fun v : Nat => rvRound f m (Val.ofInt v 0)) (BitVec.toNat_setWidth 32 x).symm

end

/-- An integer in range keeps its value. -/
theorem roundMag_one {m : Rm} (h : m ∈ [Rm.rne, .rtz, .rdn, .rup, .rmm]) (s : Bool) (n : Nat) : roundMag m s n 1 = n := by
  simp only [List.mem_cons, List.not_mem_nil, or_false] at h
  rcases h with rfl | rfl | rfl | rfl | rfl <;> simp [roundMag, Nat.mod_one]

/-- A 64-bit two's complement code. -/
theorem ofInt_codeInt (v : Int) : BitVec.ofInt 64 (sextNat 64 (codeInt 64 v)) = BitVec.ofInt 64 v := by
  have h : codeInt 64 v = (BitVec.ofInt 64 v).toNat := (BitVec.toNat_ofInt v).symm
  rw [h, sextNat_toNat (by decide), BitVec.ofInt_toInt]

/-- An integer of 63 bits converts to itself. -/
theorem rvToInt_integer {m : Rm} (h : m ∈ [Rm.rne, .rtz, .rdn, .rup, .rmm]) {n : Nat} (hn : n < 2 ^ 63) (s : Bool) :
    rvToInt .l m (.fin s n 0) = (BitVec.ofInt 64 (if s then -(n : Int) else n), Fl.none) := by
  have hs : shiftQ n 1 0 = (n, 1) := by simp [shiftQ]
  have hhi : ¬(if s then -(n : Int) else n) > ((2 ^ (64 - 1) - 1 : Nat) : Int) := by
    split <;> omega
  have hlo : ¬(if s then -(n : Int) else n) < -((2 ^ (64 - 1) : Nat) : Int) := by
    split <;> omega
  simp only [rvToInt, hs, roundMag_one h, intTyBits, intTyUnsigned, Bool.false_eq_true, if_false]
  rw [if_neg hhi, if_neg hlo, if_pos (Nat.mul_one n), ofInt_codeInt]

/-! ### Selections -/

section
variable {f : Fmt}

theorem rvSel_less {x y : Nat} (h : (decodeEl f x).cmp (decodeEl f y) = some .lt) :
    rvSel .fmin f x y = (x, Fl.none) ∧ rvSel .fmax f x y = (y, Fl.none) ∧
    rvSel .fmin f y x = (x, Fl.none) ∧ rvSel .fmax f y x = (y, Fl.none) := by
  obtain ⟨hx, hy⟩ := Val.notNan_of_cmp h
  simp [rvSel, pickMin, h, Val.cmp_gt_of_lt h, hx, hy, Val.isSig_of_notNan hx, Val.isSig_of_notNan hy, Fl.nvIf]

theorem rvSel_nan {x y : Nat} (hx : (decodeEl f x).isNan = true) (hy : (decodeEl f y).isNan = false) :
    rvSel .fmin f x y = (y, Fl.nvIf (decodeEl f x).isSig) ∧ rvSel .fmax f y x = (y, Fl.nvIf (decodeEl f x).isSig) := by
  simp [rvSel, pickMin, hx, hy, Val.isSig_of_notNan hy]

end

theorem rvCmp_forms (a b : Val) :
    (rvCmp .feq a b = (decide (a.cmp b = some .eq), Fl.nvIf (a.isSig || b.isSig))) ∧
    rvCmp .flt a b = (decide (a.cmp b = some .lt), Fl.nvIf (a.isNan || b.isNan)) ∧
    rvCmp .fle a b = (decide (a.cmp b = some .lt ∨ a.cmp b = some .eq), Fl.nvIf (a.isNan || b.isNan)) := by
  refine ⟨?_, ?_, ?_⟩ <;> refine Prod.ext (Bool.eq_iff_iff.2 ?_) rfl <;> simp [rvCmp]

/-- A double with sign s and magnitude the other bits of a. -/
theorem signed_fp64 (s : Bool) (a : Word) :
    Fmt.fp64.signed s (a.toNat % 2 ^ 63) = (BitVec.ofBool s ++ a.extractLsb' 0 63).toNat := by
  rw [toNat_append]
  cases s <;> simp [Fmt.signed, Fmt.bits]

theorem bitNat_eq_getLsbD (a : Word) (i : Nat) : bitNat a.toNat i = a.getLsbD i := by
  rw [bitNat, BitVec.getLsbD, Nat.testBit_eq_decide_div_mod_eq, Bool.eq_iff_iff, beq_iff_eq, decide_eq_true_iff]

theorem xor_eq_bne (x y : Bool) : (x ^^ y) = (x != y) := by cases x <;> cases y <;> rfl

theorem ofBool_bit63 (a : Word) : BitVec.ofBool (a.getLsbD 63) = a.extractLsb' 63 1 := by
  apply BitVec.eq_of_getLsbD_eq
  intro i hi
  obtain rfl : i = 0 := by omega
  simp

theorem decodeEl_mod (f : Fmt) (b : Nat) : decodeEl f (b % 2 ^ f.bits) = decodeEl f b := by
  unfold decodeEl
  rw [Nat.mod_mod]

/-- A single in a register: the code of its low half where the upper half is all ones. -/
theorem rvVal_single (a : Word) :
    rvVal false a = if a.extractLsb' 32 32 = BitVec.allOnes 32 then decodeEl .fp32 (a.setWidth 32).toNat else .nan false := by
  have hboxed : bitsNat a.toNat 63 32 = 0xFFFFFFFF ↔ a.extractLsb' 32 32 = BitVec.allOnes 32 := by
    rw [← BitVec.toNat_inj, BitVec.extractLsb'_toNat, Nat.shiftRight_eq_div_pow]
    rfl
  have hlow : decodeEl .fp32 (a.setWidth 32).toNat = decodeEl .fp32 a.toNat := by
    rw [BitVec.toNat_setWidth]
    exact decodeEl_mod .fp32 a.toNat
  rw [hlow, rvVal, if_neg (by decide)]
  exact ite_of_iff hboxed

theorem rvBox_single (a : Word) : rvBox false a.toNat = BitVec.allOnes 32 ++ (a.setWidth 32 : BitVec 32) := by
  apply BitVec.eq_of_toNat_eq
  rw [toNat_append, BitVec.toNat_setWidth, rvBox, if_neg (by decide), BitVec.toNat_ofNat, Nat.mod_eq_of_lt (by omega)]
  rfl

theorem rvClass_forms {f : Fmt} :
    (∀ e, f.emin ≤ e → rvClass f (.fin true 1 e) = 2 ∧ rvClass f (.fin false 1 e) = 64) ∧
    (∀ e, e < f.emin → rvClass f (.fin true 1 e) = 4 ∧ rvClass f (.fin false 1 e) = 32) := by
  have hlog : Nat.log2 1 = 0 := by decide
  constructor <;> intro e h <;> simp [rvClass, hlog, h]

/-- The formats of the F and D instructions encode infinities. -/
theorem infConvert_float {f : Fmt} (hf : f = .fp32 ∨ f = .fp64) (s : Bool) :
    infConvert f false s = (f.signed s (2 ^ (f.ebits + f.mbits) - 2 ^ f.mbits), Fl.none) := by
  rcases hf with rfl | rfl <;> rfl

theorem zeroOf_float {f : Fmt} (hf : f = .fp32 ∨ f = .fp64) (s : Bool) : zeroOf f s = f.signed s 0 := by
  rcases hf with rfl | rfl <;> rfl

/-! ### The instructions -/

theorem State.withRm_illegal {s : State} {rm : BitVec 3} (h : rvRm rm s.my.frm = none) (k : Rm → Res) :
    s.withRm rm k = .next (s.takeTrapFree 2 0) := by
  unfold State.withRm
  rw [h]
  rfl

theorem State.withRm_mode {s : State} {rm : BitVec 3} {m : Rm} (h : rvRm rm s.my.frm = some m) (k : Rm → Res) :
    s.withRm rm k = k m := by
  unfold State.withRm
  rw [h]

/-- Settles O5: operands that are NaNs, invalid operations and exact values by the lemmas above, samples by evaluation, and
the instructions past their rounding mode and registers. -/
theorem floatComputation : Obligations.FloatComputation := by
  unfold Obligations.FloatComputation
  refine ⟨fun f m hf => ?values, fun a b => ?codes, ?samples, fun m hm => ?toInt, ?toIntSamples, fun f _ => ?fclasses,
    fun s dbl rm rd rs1 rs2 rs3 h => ?illegal, fun s dbl rm rd rs1 rs2 rs3 m h => ?instrs⟩
  case values =>
    refine ⟨fun op a b => rvArith_nan op, fun op a b c => rvFma_nan op, fun op a b c => rvFma_invalid op c, fun s t => ?infs,
      fun s t e => ⟨?zeroInf, ?zeros, ?twoInfs⟩, fun s t k e d hk => ⟨?byZero, ?byInf, ?root⟩, fun s e => ?rootZero,
      fun a b => ?sub, fun s t k n e d => ⟨?add, ?mul, fun c => rvFma_fin s t k n e d⟩, rvFma_forms, rvOfInt_forms,
      fun x y => rvSel_less, fun x y => rvSel_nan, rvCmp_forms⟩
    case infs =>
      by_cases hst : s = t
      · rw [if_pos hst, ← infConvert_float hf]
        subst hst
        exact (rvFinish_number (v := (Val.inf s).add m.down (.inf s)) (by simp [Val.add, Val.isNan])).trans
          (by simp [Val.add, rvRound])
      · rw [if_neg hst]
        exact rvFinish_invalid (by simp [Val.add, hst, Val.isNan]) (by simp [Val.isNan])
    case zeroInf => exact rvFinish_invalid rfl (by simp [Val.isNan])
    case zeros => rfl
    case twoInfs => rfl
    case byZero =>
      simp only [rvArith, if_true, if_neg hk, infConvert_float hf]
    case byInf =>
      rw [← zeroOf_float hf]
      rfl
    case root => exact (if_neg hk).trans (if_pos rfl)
    case rootZero =>
      rw [← zeroOf_float hf, rvSqrt, if_pos rfl]
    case sub => simp [rvArith, rvFinish]
    case add => exact rvFinish_number (Val.add_fin_isNan ..)
    case mul => exact rvFinish_number rfl
  case codes =>
    refine ⟨?sgnj, ?sgnjn, ?sgnjx, rvVal_single a, rvBox_single a, (BitVec.ofNat_toNat 64 a).trans (BitVec.setWidth_eq a)⟩
    case sgnj => rw [← ofBool_bit63, ← signed_fp64, ← bitNat_eq_getLsbD]; rfl
    case sgnjn => rw [← ofBool_bit63, show ~~~BitVec.ofBool (b.getLsbD 63) = BitVec.ofBool (!b.getLsbD 63) by cases b.getLsbD 63 <;> rfl,
      ← signed_fp64, ← bitNat_eq_getLsbD]; rfl
    case sgnjx => rw [← ofBool_bit63, BitVec.getLsbD_xor, ← signed_fp64, ← bitNat_eq_getLsbD, ← bitNat_eq_getLsbD, xor_eq_bne]; rfl
  case samples => decide +kernel
  case toInt =>
    refine ⟨fun q => ⟨rfl, rfl, rfl, rfl⟩, rfl, rfl, rfl, rfl, fun n hn => ⟨rvToInt_integer hm hn false, ?neg⟩⟩
    case neg =>
      rw [rvToInt_integer hm hn true, if_pos rfl, BitVec.ofInt_neg, BitVec.ofInt_natCast]
  case toIntSamples => decide +kernel
  case fclasses => exact ⟨rfl, rfl, rfl, rfl, fun _ => ⟨rfl, rfl⟩, rvClass_forms⟩
  case illegal =>
    exact ⟨fun _ => State.withRm_illegal h _, State.withRm_illegal h _, fun _ => State.withRm_illegal h _,
      State.withRm_illegal h _, fun _ => ⟨State.withRm_illegal h _, State.withRm_illegal h _⟩⟩
  case instrs =>
    have hset (srcs : List Dest) (r : Nat × Fl) (hr : s.regsReady srcs [.f rd]) :
        s.withRegs srcs [.f rd] (s.setFd dbl rd r) = .next
          ((s.upd fun x => { x.setF rd (rvBox dbl r.1) with fflags := x.fflags ||| r.2.bits }).retireAt s.nextPc) :=
      (State.withRegs_ready hr _).trans (State.setFd_eq s dbl rd r)
    refine ⟨fun op hr => ?arith, fun hr => ?sqrt, fun op hr => ?fma, fun op => hset _ _, fun hr => ?cvt, fun ty hr => ?ofInt,
      fun ty hr => ?toInt, fun op hr => ?cmp, fun hr => ?fclass, fun hr => ?mvToInt, fun hr => ?mvToFp⟩
    case arith => exact (State.withRm_mode h _).trans (hset _ _ hr)
    case sqrt => exact (State.withRm_mode h _).trans (hset _ _ hr)
    case fma => exact (State.withRm_mode h _).trans (hset _ _ hr)
    case cvt => exact (State.withRm_mode h _).trans (hset _ _ hr)
    case ofInt => exact (State.withRm_mode h _).trans (hset _ _ hr)
    case toInt => exact (State.withRm_mode h _).trans ((State.withRegs_ready hr _).trans (State.setXd_eq s rd _ _))
    case cmp => exact (State.withRegs_ready hr _).trans (State.setXd_eq s rd _ _)
    case fclass => exact (State.withRegs_ready hr _).trans (State.setRd_eq s rd _)
    case mvToInt => exact (State.withRegs_ready hr _).trans (State.setRd_eq s rd _)
    case mvToFp => exact (State.withRegs_ready hr _).trans (State.finish_upd rfl)

end Sys2Proof.Machine
end

section
/-! SUPPORT. Traps and returns, and the control and status registers (16_system_state.md R273, R274; 08_stoker_isa.md R152 to
R154, R175, R176; RISC-V, PRESUMED, logs 19 and 20). -/
namespace Sys2Proof.Machine

/-! ### Traps -/

/-- An update is known by what it makes of the acting context. -/
theorem State.upd_congr {s : State} {f g : Ctx → Ctx} (h : f s.my = g s.my) : s.upd f = s.upd g := by
  show s.setCore s.cur { s.core s.cur with ctx := f s.my } = s.setCore s.cur { s.core s.cur with ctx := g s.my }
  rw [h]

theorem State.takeTrap_user {s : State} (h : s.my.mode = .u) (cause : Nat) (tval : Word) (info : Nat) :
    s.takeTrap cause tval info = s.upd (enterS cause false tval info 0 0 (s.fopOf s.cur s.my.pc)) := by
  rw [State.takeTrap, h]

theorem State.takeTrap_supervisor {s : State} (h : s.my.mode = .s) (cause : Nat) (tval : Word) (info : Nat) :
    s.takeTrap cause tval info = (s.upd (enterM cause tval)).freezeCore s.cur 3 0 0 := by
  rw [State.takeTrap, h]

theorem State.takeTrap_machine {s : State} (h : s.my.mode = .m) (cause : Nat) (tval : Word) (info : Nat) :
    s.takeTrap cause tval info = s.upd (enterM cause tval) := by
  rw [State.takeTrap, h]

/-- Settles O6: the trap of each mode, by what it makes of the acting context; the causes of ECALL and EBREAK. -/
theorem trapFromUserAndEnvironmentCalls : Obligations.TrapFromUserAndEnvironmentCalls := by
  unfold Obligations.TrapFromUserAndEnvironmentCalls
  refine ⟨fun s cause tval info h => ?user, fun s cause tval info => ⟨fun h => ?machine, fun h => ?supervisor⟩,
    fun s => ⟨fun h => ?callU, fun h => ?callS, fun h => ?callM, rfl⟩⟩
  case user =>
    refine (congrArg Host.Outcome.next ((State.takeTrap_user h ..).trans (State.upd_congr ?_)))
    simp only [enterS, h, Nat.mod_eq_of_lt info.isLt, Nat.zero_mul, Nat.add_zero, Bool.false_eq_true, if_false, Nat.zero_add,
      if_true]
    rfl
  case machine =>
    refine (congrArg Host.Outcome.next ((State.takeTrap_machine h ..).trans (State.upd_congr ?_)))
    simp only [enterM, h]
    rfl
  case supervisor =>
    refine (congrArg Host.Outcome.next ((State.takeTrap_supervisor h ..).trans ?_))
    rw [State.upd_congr]
    simp only [enterM, h]
    rfl
  case callU => exact congrArg (fun c => s.trap c 0 0) (by rw [h])
  case callS => exact congrArg (fun c => s.trap c 0 0) (by rw [h])
  case callM => exact congrArg (fun c => s.trap c 0 0) (by rw [h])

/-- Settles O7: each return where its mode admits it, and the trap where it does not. -/
theorem trapReturn : Obligations.TrapReturn := by
  unfold Obligations.TrapReturn
  refine fun s => ⟨fun hu hs => ?sret, fun h => ?user, fun h htsr => ?tsr, fun h => ?mret, fun h => ?mretIllegal⟩
  case sret =>
    refine if_neg fun h => h.elim hu fun h => ?_
    rw [hs h.1] at h
    exact absurd h.2 (by decide)
  case user => exact if_pos (.inl h)
  case tsr => exact if_pos (.inr ⟨h, htsr⟩)
  case mret => exact if_pos h
  case mretIllegal => exact if_neg h

/-! ### Access to a CSR -/

theorem bitsNat_extract {w : Nat} (n : BitVec w) (lo k : Nat) :
    bitsNat n.toNat (lo + k) lo = (n.extractLsb' lo (k + 1)).toNat := by
  rw [bitsNat, BitVec.extractLsb'_toNat, Nat.shiftRight_eq_div_pow, show lo + k + 1 - lo = k + 1 by omega]

/-- The mode a CSR number asks for stands in its bits [9:8]. -/
theorem csrMode_eq (n : BitVec 12) : (csrMode .u n.toNat = true ↔ n.extractLsb' 8 2 = 0#2) ∧
    (csrMode .s n.toNat = true ↔ n.extractLsb' 8 2 = 0#2 ∨ n.extractLsb' 8 2 = 1#2) := by
  have hbits : bitsNat n.toNat 9 8 = (n.extractLsb' 8 2).toNat := bitsNat_extract n 8 1
  simp only [csrMode, hbits]
  generalize n.extractLsb' 8 2 = b
  revert b
  decide

/-- Settles O8: the reads and writes past the checks, and the checks themselves. -/
theorem csrAccessAndCsrPrivilege : Obligations.CsrAccessAndCsrPrivilege := by
  unfold Obligations.CsrAccessAndCsrPrivilege
  refine ⟨fun s op uimm rd rs1 csr => ⟨fun old t hm hr hw h => ?write, fun old hm hr h => ?read, fun old hm hr hw h => ?readOnly,
    fun h => ⟨?noRead, fun hregs => ?noWrite⟩⟩, fun n => ⟨(csrMode_eq n).1, (csrMode_eq n).2, rfl⟩⟩
  case write =>
    refine (State.withRegs_ready h _).trans ?_
    rw [hm, hr]
    exact (congrArg (fun o => match o with | none => s.illegal | some t => t.setRd rd old) hw).trans (State.setRd_eq ..)
  case read =>
    show s.readCsr rd csr.toNat = _
    rw [State.readCsr, hm, hr]
    exact (State.withRegs_ready h _).trans (State.setRd_eq ..)
  case readOnly =>
    refine (State.withRegs_ready h _).trans ?_
    rw [hm, hr]
    exact congrArg (fun o => match o with | none => s.illegal | some t => t.setRd rd old) hw
  case noRead =>
    show s.readCsr rd csr.toNat = _
    rw [State.readCsr]
    rcases h with h | h
    · rw [h]; rfl
    · rw [h, ite_id]; rfl
  case noWrite =>
    refine (State.withRegs_ready hregs _).trans ?_
    rcases h with h | h
    · rw [h]; rfl
    · rw [h, ite_id]; rfl

/-! ### What a write stores -/

/-- A write through a mask changes the bits of the mask alone. -/
theorem maskWrite_getLsbD (old mask v : Word) (i : Nat) :
    (maskWrite old mask v).getLsbD i = if mask.getLsbD i then v.getLsbD i else old.getLsbD i := by
  simp only [maskWrite, BitVec.getLsbD_or, BitVec.getLsbD_and, BitVec.getLsbD_not]
  by_cases hi : i < 64
  · cases mask.getLsbD i <;> simp [hi]
  · simp [BitVec.getLsbD_of_ge _ _ (Nat.le_of_not_lt hi)]

/-- The mask of the bits of a list, and a write through it. -/
theorem maskWrite_bits {mask : Word} {l : List Nat} (h : ∀ i < 64, mask.getLsbD i = decide (i ∈ l)) (old v : Word) (i : Nat) :
    (maskWrite old mask v).getLsbD i = if i ∈ l then v.getLsbD i else old.getLsbD i := by
  rw [maskWrite_getLsbD]
  by_cases hi : i < 64
  · simp [h i hi]
  · simp [BitVec.getLsbD_of_ge _ _ (Nat.le_of_not_lt hi)]

/-- The wait of the Stoker for an engine leaves the rest of the acting context. -/
theorem State.drainWait_eq (s : State) (a : Agent) : ∃ t ws, s.drainWait a = .next t ∧ t.my = { s.my with waits := ws } := by
  obtain ⟨ws, h⟩ := State.my_noteWait s .sk 5 (BitVec.ofNat 32 (((s.my.queue a).getLast?.map (·.qpos)).getD 0)) a.code s.cur
  exact ⟨_, ws, rfl, h⟩

theorem State.csrWrite_scope (s : State) (v : Word) :
    s.csrWrite 0x801 v = some (s.upd fun x => { x with yscope := if (v.setWidth 3).toNat ≤ 4 then v.setWidth 3 else x.yscope }) :=
  rfl

/-- The rows of the write table, S-mode's and U-mode's. -/
theorem State.csrWrite_readOnly (s : State) (v : Word) {n : Nat}
    (h : n ∈ [0xCC0, 0xCC1, 0xCC2, 0xCC3, 0xCC4, 0xCC5, 0xCC6, 0xCC7, 0xCC8, 0xC00, 0xC01, 0xC02, 0x5C2, 0x5C3, 0x5C4,
      0x5C5, 0x5C6, 0x5C7, 0x5C8]) : s.csrWrite n v = none := by
  simp only [List.mem_cons, List.not_mem_nil, or_false] at h
  rcases h with rfl | rfl | rfl | rfl | rfl | rfl | rfl | rfl | rfl | rfl | rfl | rfl | rfl | rfl | rfl | rfl | rfl | rfl | rfl <;>
    rfl

section
variable {s : State} {op : CsrOp} {uimm : Bool} {rd rs1 : Reg}
  (h : s.regsReady (if uimm then [] else [destX rs1]) [destX rd])
include h

theorem exec_ymxstAccess_ready (hq : s.my.mxq = []) : exec (.ymxstAccess op uimm rd rs1) s =
    let v := csrNew op s.my.mx.st.word (s.csrArg uimm rs1)
    (if csrDoesWrite op rs1 then s.upd fun x => { x with mx := { x.mx with st := x.mx.st.write v } } else s).setRd rd
      s.my.mx.st.word := by
  refine (State.withRegs_ready h _).trans ?_
  rw [hq]
  rfl

theorem exec_ymxstAccess_waits (hq : s.my.mxq ≠ []) : exec (.ymxstAccess op uimm rd rs1) s = s.drainWait .mx := by
  refine (State.withRegs_ready h _).trans (if_pos ?_)
  simpa using hq

theorem exec_ydxstAccess_ready (hc : s.my.cxq = []) (hg : s.my.gxq = []) (hf : s.my.fxq = []) :
    exec (.ydxstAccess op uimm rd rs1) s =
    let v := csrNew op s.my.ydxst.word (s.csrArg uimm rs1)
    (if csrDoesWrite op rs1 then s.upd fun x => { x with ydxst := x.ydxst.write v } else s).setRd rd s.my.ydxst.word := by
  have hnone : [Agent.cx, .gx, .fx].find? (fun a => !(s.my.queue a).isEmpty) = none := by simp [Ctx.queue, hc, hg, hf]
  refine (State.withRegs_ready h _).trans ?_
  rw [hnone]

theorem exec_ydxstAccess_waits (hq : s.my.cxq ≠ [] ∨ s.my.gxq ≠ [] ∨ s.my.fxq ≠ []) :
    ∃ a, exec (.ydxstAccess op uimm rd rs1) s = s.drainWait a := by
  have hsome : ([Agent.cx, .gx, .fx].find? (fun a => !(s.my.queue a).isEmpty)).isSome = true := by
    simpa [Ctx.queue] using hq
  obtain ⟨a, ha⟩ := Option.isSome_iff_exists.1 hsome
  refine ⟨a, (State.withRegs_ready h _).trans ?_⟩
  rw [ha]

end

/-- Settles O9: each row of the table by evaluation, the masked ones bit by bit; the three registers with an instruction of
their own past the check of the registers. -/
theorem csrWriteTableAndEngineStatusAccess : Obligations.CsrWriteTableAndEngineStatusAccess := by
  unfold Obligations.CsrWriteTableAndEngineStatusAccess
  refine ⟨fun s v => ?table, fun s op uimm rd rs1 h => ⟨?yevent, ?ywm, fun w v => ?watermarks⟩,
    fun s op uimm rd rs1 h => ⟨fun hq hw => ?mxWrite, fun hq hw => ?mxRead, fun hq => ?mxWait, fun hc hg hf hw => ?dxWrite,
      fun hc hg hf hw => ?dxRead, fun hq => ?dxWait⟩⟩
  case table =>
    refine ⟨rfl, fun h => ⟨_, s.csrWrite_scope v, ?scope⟩, fun h => ⟨_, s.csrWrite_scope v, ?scopeKept⟩, rfl, rfl, rfl, rfl, rfl,
      rfl, rfl, rfl, rfl, rfl, rfl,
      ⟨maskWrite s.my.csr.mstatus sstatusWrite v, congrArg some (State.upd_congr rfl), maskWrite_bits (by decide) _ v⟩,
      ⟨maskWrite s.my.csr.mie 0x60222#64 v, congrArg some (State.upd_congr rfl), maskWrite_bits (by decide) _ v⟩,
      ⟨maskWrite s.my.csr.mip 2#64 v, congrArg some (State.upd_congr rfl), fun i => ?sip⟩,
      fun n hn => s.csrWrite_readOnly v hn⟩
    case scope => rw [State.my_upd, if_pos h]
    case scopeKept => rw [State.my_upd, if_neg (Nat.not_le.2 h)]
    case sip => simpa using maskWrite_bits (l := [1]) (by decide) s.my.csr.mip v i
  case yevent => exact (State.withRegs_ready h _).trans (State.setRd_upd rfl ..)
  case ywm => exact (State.withRegs_ready h _).trans (State.setRd_upd rfl ..)
  case watermarks => exact ⟨rfl, rfl, rfl, rfl, rfl, rfl, rfl, rfl, rfl, rfl⟩
  case mxWrite =>
    refine (exec_ymxstAccess_ready h hq).trans ?_
    dsimp only
    rw [if_pos hw]
    exact State.setRd_upd rfl ..
  case mxRead =>
    rw [exec_ymxstAccess_ready h hq, hw]
    exact State.setRd_eq ..
  case mxWait =>
    obtain ⟨t, ws, ht, hmy⟩ := State.drainWait_eq s .mx
    exact ⟨t, (exec_ymxstAccess_waits h hq).trans ht, by rw [hmy], by rw [hmy], by rw [hmy]⟩
  case dxWrite =>
    refine (exec_ydxstAccess_ready h hc hg hf).trans ?_
    dsimp only
    rw [if_pos hw]
    exact State.setRd_upd rfl ..
  case dxRead =>
    rw [exec_ydxstAccess_ready h hc hg hf, hw]
    exact State.setRd_eq ..
  case dxWait =>
    obtain ⟨a, ha⟩ := exec_ydxstAccess_waits h hq
    obtain ⟨t, ws, ht, hmy⟩ := State.drainWait_eq s a
    exact ⟨t, ha.trans ht, by rw [hmy], by rw [hmy], by rw [hmy]⟩

end Sys2Proof.Machine
end

section
/-! SUPPORT. Global loads, stores and atomics, and typed-buffer accesses, past the checks of their address
(06_ordering.md R99, R107 to R109; 08_stoker_isa.md R162, R163, R174; 05_local_memory.md R78, R79). -/
namespace Sys2Proof.Machine

/-! ### Global loads -/

section
variable {s t : State} {cls : BitVec 4} {d : Dest} {n : Nat} {sext : Bool} {va : Word}

theorem State.issueLoad_lands {p : Place} {attr : Nat} (ha : va.toNat % n = 0) (h : s.lands .read va p attr t) :
    s.issueLoad cls d n sext va =
      .next (((t.enqueue { classes := classBit cls, kind := .load p n sext (bitNat attr 5) va, dest := d, typed := false }).meter
        t.cur (lineEvent p attr false) 1).retireAt t.nextPc) := by
  rw [State.issueLoad, if_neg (Classical.not_not.2 ha), State.withGlobal_lands h]
  exact State.enqueue_finish ..

theorem State.issueLoad_misses {r : Res} (ha : va.toNat % n = 0) (h : s.misses .read va r) :
    s.issueLoad cls d n sext va = r := by
  rw [State.issueLoad, if_neg (Classical.not_not.2 ha), State.withGlobal_misses (by decide) h]

theorem State.issueLoad_misaligned (ha : va.toNat % n ≠ 0) : s.issueLoad cls d n sext va = .next (s.takeTrap 4 va 0) := by
  rw [State.issueLoad, if_pos ha]
  rfl

end

/-- Settles O10: a load past its registers, by where its address lands. -/
theorem globalLoads : Obligations.GlobalLoads := by
  unfold Obligations.GlobalLoads
  constructor
  · intro s t k rd rs1 imm p attr va d h
    exact ⟨fun ha hl => (State.withRegs_ready h _).trans (State.issueLoad_lands ha hl),
      fun r ha hm => (State.withRegs_ready h _).trans (State.issueLoad_misses ha hm),
      fun ha => (State.withRegs_ready h _).trans (State.issueLoad_misaligned ha)⟩
  · intro s t c u b a w rd p attr va h
    exact ⟨fun ha hl => (State.withRegs_ready h _).trans (State.issueLoad_lands ha hl),
      fun r ha hm => (State.withRegs_ready h _).trans (State.issueLoad_misses ha hm),
      fun ha => (State.withRegs_ready h _).trans (State.issueLoad_misaligned ha)⟩

/-! ### Global stores -/

section
variable {s t : State} {cls : BitVec 4} {n v : Nat} {va : Word} {p : Place} {attr : Nat}

theorem State.issueStore_lands (ha : va.toNat % n = 0) (h : s.lands .write va p attr t) (hl : t.unlent va) :
    s.issueStore cls (leBytes n v) va =
      .next (((t.enqueue { classes := classBit cls, kind := .store p (leBytes n v), dest := .none, typed := false }).meter
        t.cur (lineEvent p attr true) 1).retireAt t.nextPc) := by
  rw [State.issueStore, leBytes_length, if_neg (Classical.not_not.2 ha), State.withGlobal_lands h, if_neg (Bool.eq_false_iff.1 hl)]
  exact State.enqueue_finish ..

theorem State.issueStore_lent (ha : va.toNat % n = 0) (h : s.lands .write va p attr t) (hl : ¬t.unlent va) :
    s.issueStore cls (leBytes n v) va = .next (t.takeTrapFree 27 (t.lentOffset t.me.b.part.toNat va.toNat)) := by
  rw [State.issueStore, leBytes_length, if_neg (Classical.not_not.2 ha), State.withGlobal_lands h, if_pos (Bool.of_not_eq_false hl)]
  rfl

theorem State.issueStore_misses {r : Res} (ha : va.toNat % n = 0) (h : s.misses .write va r) :
    s.issueStore cls (leBytes n v) va = r := by
  rw [State.issueStore, leBytes_length, if_neg (Classical.not_not.2 ha), State.withGlobal_misses (by decide) h]

theorem State.issueStore_misaligned (ha : va.toNat % n ≠ 0) :
    s.issueStore cls (leBytes n v) va = .next (s.takeTrap 6 va 0) := by
  rw [State.issueStore, leBytes_length, if_pos ha]
  rfl

end

/-- Settles O11: a store past its registers, by where its address lands and whether its page is lent. -/
theorem globalStores : Obligations.GlobalStores := by
  unfold Obligations.GlobalStores
  constructor
  · intro s t k rs2 rs1 imm p attr va v h
    exact ⟨fun ha hl => ⟨fun hu => (State.withRegs_ready h _).trans (State.issueStore_lands ha hl hu),
        fun hu => (State.withRegs_ready h _).trans (State.issueStore_lent ha hl hu)⟩,
      fun r ha hm => (State.withRegs_ready h _).trans (State.issueStore_misses ha hm),
      fun ha => (State.withRegs_ready h _).trans (State.issueStore_misaligned ha)⟩
  · intro s t c b a w p attr va h
    exact ⟨fun ha hl => ⟨fun hu => (State.withRegs_ready h _).trans (State.issueStore_lands ha hl hu),
        fun hu => (State.withRegs_ready h _).trans (State.issueStore_lent ha hl hu)⟩,
      fun r ha hm => (State.withRegs_ready h _).trans (State.issueStore_misses ha hm),
      fun ha => (State.withRegs_ready h _).trans (State.issueStore_misaligned ha)⟩

/-! ### Atomics -/

@[simp] theorem State.cur_enqueue (s : State) (e : SqEnt) : (s.enqueue e).cur = s.cur := rfl

/-- The address of the next instruction behind an atomic with its fences. -/
theorem State.nextPc_atomic (t : State) (e : SqEnt) (aq rl : Bool) :
    (((t.releaseIf rl).enqueue e).acquireIf aq).nextPc = t.nextPc := by
  rw [State.nextPc_acquireIf, State.nextPc_enqueue, State.nextPc_releaseIf]

/-- Settles O12: each atomic past its registers, by where its address lands and whether its page is lent. -/
theorem globalAtomics : Obligations.GlobalAtomics := by
  unfold Obligations.GlobalAtomics
  intro s t dbl aq rl rd rs1 rs2 p attr n va ent
  refine ⟨fun op h => ⟨fun ha hl hu => ?amo, fun ha hl hu => ?amoLent, fun r ha hm => ?amoMisses, fun ha => ?amoMisaligned⟩,
    fun h => ⟨fun ha hl => ?lr, fun r ha hm => ?lrMisses, fun ha => ?lrMisaligned⟩,
    fun h => ⟨fun ha hl hu => ?sc, fun ha hl hu => ?scLent, fun r ha hm => ?scMisses, fun ha => ?scMisaligned⟩⟩
  all_goals refine (State.withRegs_ready h _).trans ?_
  case amo =>
    rw [if_neg (Classical.not_not.2 ha), State.withGlobal_lands hl, if_neg (Bool.eq_false_iff.1 hu)]
    dsimp only [State.finish]
    rw [State.nextPc_meter _ _ _ _ (by simp), State.nextPc_meter _ _ _ _ (by simp), State.nextPc_atomic]
    rfl
  case lr =>
    rw [if_neg (Classical.not_not.2 ha), State.withGlobal_lands hl]
    dsimp only [State.finish]
    rw [State.nextPc_meter _ _ _ _ (by simp), State.nextPc_acquireIf, State.nextPc_enqueue]
    rfl
  case sc =>
    rw [if_neg (Classical.not_not.2 ha), State.withGlobal_lands hl, if_neg (Bool.eq_false_iff.1 hu)]
    dsimp only [State.finish]
    rw [State.nextPc_atomic]
    rfl
  case amoLent | scLent =>
    rw [if_neg (Classical.not_not.2 ha), State.withGlobal_lands hl, if_pos (Bool.of_not_eq_false hu)]
    rfl
  case amoMisses | lrMisses | scMisses => rw [if_neg (Classical.not_not.2 ha), State.withGlobal_misses (by decide) hm]
  case amoMisaligned | lrMisaligned | scMisaligned => exact if_pos ha

/-! ### Typed accesses -/

section
variable {s : State} {inW : Bool} {n : Nat} {write : Bool}

theorem State.withTyped_bound {t : Typed} {off : Nat} (h : t = .bound off) (k : Place → Res) :
    s.withTyped inW t n write k = .next (s.takeTrapFree 24 off) := by
  subst h
  rfl

theorem State.withTyped_badMember {t : Typed} {m : Nat} (h : t = .badMember m) (k : Place → Res) :
    s.withTyped inW t n write k = .next (s.takeTrapFree 25 m) := by
  subst h
  rfl

end

theorem exec_abAmoOf (op : AmoOp) (w : BitVec 1) (b a d : Reg) (s : State) :
    exec (abAmoOf op w b a d) s = s.abAmo op w b a d := by
  cases op <;> rfl

/-- The offsets of the two spaces, by where they lie. -/
theorem State.aSpace_own {s : State} {a n : Nat} (h : a < 0x100000) :
    s.aSpace s.cur a n = if a + n ≤ 4096 * s.me.b.aLimit then .own a (.abuf s.cur (4096 * s.me.b.aBase + a))
      else .bound (max a (4096 * s.me.b.aLimit)) := by
  rw [State.aSpace, if_pos h]
  dsimp only
  rw [Nat.sub_self, Nat.zero_add]
  rfl

theorem State.aSpace_outside {s : State} {a n : Nat} (h : (0x100000 ≤ a ∧ a < 0x1000000) ∨ 0x2000000 ≤ a) :
    s.aSpace s.cur a n = .bound a := by
  rw [State.aSpace, if_neg (by omega), if_pos (by omega)]

section
variable {s : State} {a n : Nat} (hlo : 0x1000000 ≤ a) (hhi : a < 0x2000000)
include hlo hhi

theorem State.aSpace_noMember (h : s.my.teamSize ≤ (a - 0x1000000) / 0x100000) :
    s.aSpace s.cur a n = .badMember ((a - 0x1000000) / 0x100000) := by
  rw [State.aSpace, if_neg (by omega), if_neg (by omega)]
  exact if_pos h

theorem State.aSpace_member (hm : (a - 0x1000000) / 0x100000 < s.my.teamSize) (hne : (a - 0x1000000) / 0x100000 ≠ s.my.member)
    (hfit : (a - 0x1000000) % 0x100000 + n ≤ 4096 * (s.memberBind s.cur ((a - 0x1000000) / 0x100000)).2.aLimit) :
    s.aSpace s.cur a n = .team (.abuf (s.memberBind s.cur ((a - 0x1000000) / 0x100000)).1
      (4096 * (s.memberBind s.cur ((a - 0x1000000) / 0x100000)).2.aBase + (a - 0x1000000) % 0x100000)) := by
  rw [State.aSpace, if_neg (by omega), if_neg (by omega)]
  exact (if_neg (Nat.not_le.2 hm)).trans ((if_neg hne).trans (if_pos hfit))

end

/-- Settles O13: each access past its registers and its alignment, by where its offset lies; and where the offsets lie. -/
theorem typedAccesses : Obligations.TypedAccesses := by
  unfold Obligations.TypedAccesses
  refine ⟨fun s c u b a w rd p => ?loads, fun s c b a w p => ?stores, fun s op w b a rd p => ?atomics, fun s a n => ?spaces⟩
  case loads =>
    intro va n e h
    have hreg (k : Res) := State.withRegs_ready h k
    refine ⟨fun ha hl => (hreg _).trans ?aLands, fun ha hl => (hreg _).trans ?wLands, fun off ha ht => (hreg _).trans ?aBound,
      fun m ha ht => (hreg _).trans ?aMember, fun off ha ht => (hreg _).trans ?wBound,
      fun ha => ⟨(hreg _).trans (if_pos ha), (hreg _).trans (if_pos ha)⟩⟩
    all_goals rw [if_neg (Classical.not_not.2 ha)]
    case aLands => rw [if_neg Bool.false_ne_true]; exact (State.withTyped_lands hl _).trans (State.enqueue_finish ..)
    case wLands => rw [if_pos rfl]; exact (State.withTyped_lands hl _).trans (State.enqueue_finish ..)
    case aBound => rw [if_neg Bool.false_ne_true]; exact State.withTyped_bound ht _
    case aMember => rw [if_neg Bool.false_ne_true]; exact State.withTyped_badMember ht _
    case wBound => rw [if_pos rfl]; exact State.withTyped_bound ht _
  case stores =>
    intro va n e h
    have hreg (k : Res) := State.withRegs_ready h k
    refine ⟨fun ha hl => (hreg _).trans ?aLands, fun ha hl => (hreg _).trans ?wLands, fun off ha ht => (hreg _).trans ?aBound,
      fun m ha ht => (hreg _).trans ?aMember, fun off ha ht => (hreg _).trans ?wBound,
      fun ha => ⟨(hreg _).trans (if_pos ha), (hreg _).trans (if_pos ha)⟩⟩
    all_goals rw [if_neg (Classical.not_not.2 ha)]
    case aLands => rw [if_neg Bool.false_ne_true]; exact (State.withTyped_lands hl _).trans (State.enqueue_finish ..)
    case wLands => rw [if_pos rfl]; exact (State.withTyped_lands hl _).trans (State.enqueue_finish ..)
    case aBound => rw [if_neg Bool.false_ne_true]; exact State.withTyped_bound ht _
    case aMember => rw [if_neg Bool.false_ne_true]; exact State.withTyped_badMember ht _
    case wBound => rw [if_pos rfl]; exact State.withTyped_bound ht _
  case atomics =>
    intro va n typed scope h
    simp only [exec_abAmoOf]
    have hreg (k : Res) := State.withRegs_ready h k
    refine ⟨fun ha hl => (hreg _).trans ?lands, fun off ha ht => (hreg _).trans ?bound, fun m ha ht => (hreg _).trans ?member,
      fun ha => (hreg _).trans (if_pos ha)⟩
    all_goals rw [if_neg (Classical.not_not.2 ha)]
    case lands => exact (State.withTyped_lands hl _).trans (State.enqueue_finish ..)
    case bound => exact State.withTyped_bound ht _
    case member => exact State.withTyped_badMember ht _
  case spaces =>
    exact ⟨rfl, State.aSpace_own, State.aSpace_outside, State.aSpace_noMember, State.aSpace_member⟩

end Sys2Proof.Machine
end

section
/-! SUPPORT. Fences, events and messages of the Stoker, and the Perform step of an entry of its class queues
(06_ordering.md R101, R106 to R108; 08_stoker_isa.md R149, R159 to R161, R164, R174; 20_translation_faults.md R310). -/
namespace Sys2Proof.Machine

/-! ### Fences -/

theorem State.fence_none (s : State) (scope : Nat) : s.fence 0 scope = s := if_pos rfl

theorem State.fence_some (s : State) {mask : BitVec 16} (h : mask ≠ 0) (scope : Nat) :
    s.fence mask scope = s.enqueue { classes := mask, kind := .fence scope, dest := .none, typed := false } := if_neg h

theorem State.finish_enqueue (s : State) (e : SqEnt) : (s.enqueue e).finish = .next ((s.enqueue e).retireAt s.nextPc) := by
  rw [State.finish, State.nextPc_enqueue]

/-- What SFENCE.VMA drops of a partition's translations (20_translation_faults.md R310). -/
theorem mem_sfence_filter {part va : Nat} {rs1 rs2 : Reg} {l : List TlbEnt} {e : TlbEnt} :
    (e ∈ l.filter fun e => !(e.part == part && (rs1 == 0 || (decide (e.va ≤ va) && decide (va < e.va + e.size))) &&
      (rs2 == 0 || !e.pte.getLsbD 5))) ↔
    e ∈ l ∧ ¬(e.part = part ∧ (rs1 = 0 ∨ (e.va ≤ va ∧ va < e.va + e.size)) ∧ (rs2 = 0 ∨ e.pte.getLsbD 5 = false)) := by
  rw [List.mem_filter, Bool.not_eq_true', ← Bool.not_eq_true]
  simp only [Bool.and_eq_true, Bool.or_eq_true, beq_iff_eq, decide_eq_true_eq, Bool.not_eq_true', and_assoc]

/-- Settles O14: a fence by whether its sets are empty, and SFENCE.VMA by the mode. -/
theorem fencesAndTlbFence : Obligations.FencesAndTlbFence := by
  unfold Obligations.FencesAndTlbFence
  refine ⟨fun s => ⟨fun fm pred succ rs1 rd => ?fence, fun m c e d k => ?skFence, fun h => ?fenceI, fun h => ?fenceIWaits, rfl,
    fun n => State.finish_upd rfl⟩, fun s rs1 rs2 => ⟨fun hu hs h => ⟨_, ?drops, fun e => mem_sfence_filter⟩, fun h => ?user,
    fun h htvm => ?tvm⟩⟩
  case fence =>
    show (if pred ≠ 0 ∧ succ ≠ 0 then s.fence allClasses s.amoScope else s).finish = _
    split
    · rw [State.fence_some s (by decide)]
      exact s.finish_enqueue _
    · rfl
  case skFence =>
    show (s.fence (m ++ e ++ d ++ k) c.toNat).finish = _
    split
    case isTrue h =>
      rw [h, State.fence_none]
      rfl
    case isFalse h =>
      rw [State.fence_some s h]
      exact s.finish_enqueue _
  case fenceI => exact if_neg (by simpa using h)
  case fenceIWaits => exact if_pos h
  case drops =>
    refine (if_neg fun h => ?_).trans (State.withRegs_ready h _)
    rcases h with h | ⟨h, htvm⟩
    · exact hu h
    · rw [hs h] at htvm
      cases htvm
  case user => exact if_pos (.inl h)
  case tvm => exact if_pos (.inr ⟨h, htvm⟩)

/-! ### Events and messages -/

/-- A context whose Stoker has an acquire behind its accesses. -/
def Ctx.acquired (x : Ctx) : Ctx := { x with sq := x.sq ++ [acquireEnt] }

theorem State.acquire_upd (s : State) (f : Ctx → Ctx) : (s.upd f).acquire = s.upd fun x => (f x).acquired :=
  State.upd_upd s f Ctx.acquired

/-- A result with an acquire, behind an update of the acting context that leaves the pc. -/
theorem State.setRd_acquire_upd {s : State} {f : Ctx → Ctx} (h : (f s.my).pc = s.my.pc) (rd : Reg) (v : Word) :
    ((s.upd f).acquire).setRd rd v = .next ((s.upd fun x => (f x).acquired.setX rd v).retireAt s.nextPc) := by
  rw [State.acquire_upd, State.setRd_upd (f := fun x => (f x).acquired) h]

section
variable {s : State} {rd a m : BitVec 5}

theorem exec_skWfe_unarmed (h : s.regsReady [] [destX rd]) (harm : s.my.arm = 0) :
    exec (.skWfe rd) s = .next ((s.upd fun x => x.setX rd 0).retireAt s.nextPc) :=
  (State.withRegs_ready h _).trans ((if_pos harm).trans (State.setRd_eq ..))

theorem exec_skWfe_event (h : s.regsReady [] [destX rd]) (hev : s.my.latch &&& s.my.arm ≠ 0) :
    exec (.skWfe rd) s = (((s.upd fun x => { x with latch := x.latch &&& ~~~(s.my.latch &&& s.my.arm) }).acquire).setRd rd
      ((s.my.latch &&& s.my.arm).setWidth 64)) := by
  have harm : s.my.arm ≠ 0 := fun h0 => hev (by rw [h0]; exact BitVec.and_zero)
  exact (State.withRegs_ready h _).trans ((if_neg harm).trans (if_neg hev))

theorem exec_skWfe_waits (h : s.regsReady [] [destX rd]) (harm : s.my.arm ≠ 0) (hev : s.my.latch &&& s.my.arm = 0) :
    exec (.skWfe rd) s = .next (s.noteWait s.cur .sk 6 0 15 s.cur) :=
  (State.withRegs_ready h _).trans ((if_neg harm).trans (if_pos hev))

theorem State.withMember_in (h : m.toNat < s.my.teamSize) (k : Res) : s.withMember m.toNat k = k := if_neg (Nat.not_le.2 h)

theorem State.withMember_out (h : s.my.teamSize ≤ m.toNat) (k : Res) :
    s.withMember m.toNat k = .next (s.takeTrapFree 25 m.toNat) := if_pos h

theorem exec_skSend_ready (hm : m.toNat < s.my.teamSize) (h : s.regsReady [destX a] [])
    (hq : s.my.classQuiet (classBit s.my.ycls) = true) :
    exec (.skSend a m) s =
      if 8 ≤ (s.homeCtx (s.home s.cur m.toNat)).recvq.length then
        .next (s.noteWait s.cur .sk 10 15 0 ((s.home s.cur m.toNat).coreOr s.cur))
      else ((s.modHome (s.home s.cur m.toNat) fun y => { y with recvq := y.recvq ++ [s.rx a] }).eventAt
        (s.home s.cur m.toNat) 9 0 s.cur).finish :=
  (State.withRegs_ready h _).trans ((State.withMember_in hm _).trans (if_neg (by simp [hq])))

end

theorem not_bnot_of {b : Bool} (h : b = true) : ¬(!b) = true := by simp [h]

/-- Settles O16: the instructions past their checks, and the Perform step by the kind of the entry. -/
theorem eventsAndMessagesAndPerformMessages : Obligations.EventsAndMessagesAndPerformMessages := by
  unfold Obligations.EventsAndMessagesAndPerformMessages
  refine ⟨fun s a m rd => ?instrs, fun s k e h => ?performs⟩
  case instrs =>
    refine ⟨exec_skWfe_unarmed, fun h hev => (exec_skWfe_event h hev).trans (State.setRd_acquire_upd rfl ..), fun hm => ?sev,
      fun hm => State.withMember_out hm _, fun h harm hev => ?wfeWaits, fun hm h hq => ⟨fun hroom => ?send, fun hfull => ?sendWaits⟩,
      fun hm h => (State.withRegs_ready h _).trans (State.withMember_out hm _), fun v rest h hv => ?recv⟩
    case sev => exact (State.withMember_in hm _).trans (s.finish_enqueue _)
    case wfeWaits =>
      obtain ⟨ws, hws⟩ := State.my_noteWait s .sk 6 0 15 s.cur
      exact ⟨_, exec_skWfe_waits h harm hev, by rw [hws], by rw [hws], by rw [hws]⟩
    case send => exact (exec_skSend_ready hm h hq).trans (if_neg (Nat.not_le.2 hroom))
    case sendWaits =>
      obtain ⟨ws, hws⟩ := State.my_noteWait s .sk 10 15 0 ((s.home s.cur m.toNat).coreOr s.cur)
      exact ⟨_, (exec_skSend_ready hm h hq).trans (if_pos hfull), by rw [hws], by rw [hws]⟩
    case recv =>
      refine (State.withRegs_ready h _).trans ?_
      rw [hv]
      exact State.setRd_acquire_upd rfl ..
  case performs =>
    obtain ⟨hsq, hrun, hhead⟩ := h
    refine ⟨fun m hk => ?sev, fun v hk => ⟨fun hv => ?zero, fun hv hvis => ⟨fun hfull => ?full, fun hroom => ?pushed⟩⟩,
      fun page size hk hvis => ⟨fun hlent => ?lent, fun hlent hmany => ?many, fun hlent hroom => ?lends⟩⟩
    all_goals refine congrArg Host.Outcome.next ?_
    all_goals simp only [State.performEntry, State.ctx_cur, State.core_cur, hsq, hrun, hhead, hk, Bool.not_true, Bool.or_false,
      Bool.false_eq_true, if_false]
    case zero => exact if_pos hv
    case full => exact (if_neg hv).trans ((if_neg (not_bnot_of hvis)).trans (if_pos (by simpa [dequeFull] using hfull)))
    case pushed => exact (if_neg hv).trans ((if_neg (not_bnot_of hvis)).trans (if_neg (by simpa [dequeFull] using hroom)))
    case lent => exact (if_neg (by simp [hvis])).trans (if_pos hlent)
    case many => exact (if_neg (by simp [hvis])).trans ((if_neg (by simp [hlent])).trans (if_pos hmany))
    case lends =>
      exact (if_neg (by simp [hvis])).trans ((if_neg (by simp [hlent])).trans (if_neg (Nat.not_le.2 hroom)))

/-- Settles O17: the Perform step by the kind of the entry, and an SC by the reservation it finds. -/
theorem performAccessesAndPerformAtomics : Obligations.PerformAccessesAndPerformAtomics := by
  unfold Obligations.PerformAccessesAndPerformAtomics
  refine ⟨fun s k e h => ?accesses, fun s k e h => ?atomics⟩
  case accesses =>
    obtain ⟨hsq, hrun, hhead⟩ := h
    refine ⟨fun p n sext uez va hk hc => ?load, fun p n sext uez va u hk hc => ?loadError, fun p bs hk => ?store, fun v hk => ?ready,
      fun hk => ?acquire, fun scope hk => ?fence, fun v => rfl⟩
    all_goals refine congrArg Host.Outcome.next ?_
    all_goals simp only [State.performEntry, State.ctx_cur, State.core_cur, hsq, hrun, hhead, hk, Bool.not_true, Bool.or_false,
      Bool.false_eq_true, if_false]
    case load =>
      rw [show s.readError s.cur p n uez va = (s, false) from hc]
      rfl
    case loadError =>
      rw [hc]
      rfl
  case atomics =>
    obtain ⟨hsq, hrun, hhead⟩ := h
    refine ⟨fun op p n v sc uez va hk hup hc => ?amo, fun p n sc uez va hk hup hc => ?lr, fun p n v sc ev hk hup =>
      ⟨fun r hr hp hn hb => ?stores, fun r hr hb => ?broken, fun r hr hpn => ?elsewhere, fun hr => ?noResv⟩,
      fun op p n v sc uez va hk hup => ?waits⟩
    all_goals refine congrArg Host.Outcome.next ?_
    all_goals simp only [State.performEntry, State.ctx_cur, State.core_cur, hsq, hrun, hhead, hk, hup, Bool.not_true, Bool.not_false,
      Bool.or_false, Bool.false_eq_true, if_false, if_true]
    case amo =>
      have hclean : s.readError s.cur p n uez va = (s, false) := hc
      simp only [hclean, Bool.false_and, Bool.false_eq_true, if_false]
    case lr =>
      have hclean : s.readError s.cur p n uez va = (s, false) := hc
      simp only [hclean, Bool.false_and, Bool.false_eq_true, if_false]
    case stores => rw [hr]; exact if_pos ⟨hp, hn, by simp [hb]⟩
    case broken => rw [hr]; exact if_neg (by simp [hb])
    case elsewhere => rw [hr]; exact if_neg fun h => hpn.elim (fun hp => hp h.1) fun hn => hn h.2.1
    case noResv => rw [hr]

end Sys2Proof.Machine
end

section
/-! SUPPORT. Reads after writes: in the coherence order, as it becomes memory, and in the typed buffers with the granules in
transit; and that writes keep the canonical form of memory (06_ordering.md R101, R102; 05_local_memory.md R79, R91; log 2). -/
namespace Sys2Proof.Machine

/-! ### Tables as lists of entries -/

section
variable {α : Type}

theorem Tbl.get_eq_getD (d : α) : ∀ (t : Tbl α) (n : Nat), Tbl.get d t n = (Tbl.get? t n).getD d
  | [], _ => rfl
  | (k, v) :: t, n => by
    have ih := Tbl.get_eq_getD d t n
    by_cases h : n = k
    · simp [Tbl.get, Tbl.get?, h]
    · simpa [Tbl.get, Tbl.get?, h, Ne.symm h] using ih

theorem Tbl.get?_append (t u : Tbl α) (n : Nat) : Tbl.get? (t ++ u) n = (Tbl.get? t n).or (Tbl.get? u n) := by
  rw [Tbl.get?, List.find?_append, Option.map_or]
  rfl

/-- The entries whose keys a condition holds of. -/
theorem Tbl.get?_filter (p : Nat → Bool) (n : Nat) :
    ∀ t : Tbl α, Tbl.get? (t.filter fun e => p e.1) n = if p n then Tbl.get? t n else none
  | [] => by simp [Tbl.get?]
  | (k, v) :: t => by
    have ih := Tbl.get?_filter p n t
    unfold Tbl.get? at ih ⊢
    by_cases hk : k = n
    · subst hk
      by_cases hp : p k = true
      · simp [hp]
      · simp [hp] at ih ⊢
        exact ih
    · by_cases hp : p k = true
      · simpa [hp, hk] using ih
      · simpa [hp, hk] using ih

end

theorem Memory.read_eq (m : Memory) (a : Nat) : m.read a = (cellAt m a).getD unlisted := Tbl.get_eq_getD unlisted m a

/-- A read after a store of cells, no address of which is listed twice. -/
theorem Memory.read_writeAll : ∀ (cells m : Memory) (a : Nat), (cells.map (·.1)).Nodup →
    (m.writeAll cells).read a = (cellAt cells a).getD (m.read a)
  | [], _, _, _ => rfl
  | (k, b) :: t, m, a, h => by
    rw [List.map_cons, List.nodup_cons] at h
    rw [Memory.writeAll, Memory.read_writeAll t _ a h.2, Memory.read_write]
    by_cases hk : a = k
    · have hnone : cellAt t a = none := by
        simp only [cellAt, Option.map_eq_none_iff, List.find?_eq_none, beq_iff_eq]
        exact fun e he hea => h.1 (List.mem_map.2 ⟨e, he, hea.trans hk⟩)
      rw [hnone, if_pos hk]
      simp [cellAt, hk]
    · rw [if_neg hk]
      simp [cellAt, Ne.symm hk]

/-! ### The coherence order -/

/-- The byte that an order of writes over the two memories reads as (R102). -/
def readOrder (pend : List Wr) (m h : Memory) (q : Actor) (need : Nat) (inHost : Bool) (a : Nat) : Byte :=
  match (pend.filter fun w => w.inHost == inHost && w.visibleAt q need && (cellAt w.cells a).isSome).getLast? with
  | some w => (cellAt w.cells a).getD 0
  | none => if inHost then h.read a else m.read a

theorem State.readByte_eq (s : State) : s.readByte = readOrder s.pend s.mem s.hmem := rfl

section
variable {w : Wr} {q : Actor} {need : Nat} {inHost : Bool} {a : Nat}

theorem readOrder_append_hit {pend : List Wr} {m h : Memory} {b : Byte} (hin : w.inHost = inHost)
    (hvis : w.visibleAt q need = true) (hb : cellAt w.cells a = some b) : readOrder (pend ++ [w]) m h q need inHost a = b := by
  simp [readOrder, List.filter_append, hin, hvis, hb]

theorem readOrder_append_miss {pend : List Wr} {m h : Memory}
    (hw : w.inHost ≠ inHost ∨ w.visibleAt q need = false ∨ cellAt w.cells a = none) :
    readOrder (pend ++ [w]) m h q need inHost a = readOrder pend m h q need inHost a := by
  have hmiss : (w.inHost == inHost && w.visibleAt q need && (cellAt w.cells a).isSome) = false := by
    rcases hw with h | h | h <;> simp [h]
  simp only [readOrder, List.filter_append, List.filter_cons, hmiss, List.filter_nil, List.append_nil, Bool.false_eq_true,
    if_false]

theorem sharedScope_le (q r : Actor) : sharedScope q r ≤ 4 := by
  cases q <;> cases r <;> simp only [sharedScope] <;> (repeat' split) <;> omega

/-- A write that every agent sees is visible at every scope. -/
theorem Wr.visibleAt_all (hw : 4 ≤ w.scope) (hneed : need ≤ 4) : w.visibleAt q need = true := by
  have h := sharedScope_le q w.actor
  simp only [Wr.visibleAt, decide_eq_true_eq]
  omega

/-- The oldest write becomes memory, and no byte reads otherwise. -/
theorem readOrder_mergeHead {pend : List Wr} {m h : Memory} (hw : 4 ≤ w.scope) (hneed : need ≤ 4)
    (hnodup : (w.cells.map (·.1)).Nodup) :
    readOrder pend (if w.inHost then m else m.writeAll w.cells) (if w.inHost then h.writeAll w.cells else h) q need inHost a =
      readOrder (w :: pend) m h q need inHost a := by
  unfold readOrder
  rw [List.filter_cons, Wr.visibleAt_all hw hneed, Bool.and_true]
  generalize pend.filter (fun w => w.inHost == inHost && w.visibleAt q need && (cellAt w.cells a).isSome) = l
  have hbase : (if inHost then (if w.inHost then h.writeAll w.cells else h).read a
      else (if w.inHost then m else m.writeAll w.cells).read a) =
      if w.inHost = inHost then (cellAt w.cells a).getD (if inHost then h.read a else m.read a)
      else if inHost then h.read a else m.read a := by
    cases hin : w.inHost <;> cases inHost <;> simp [Memory.read_writeAll _ _ _ hnodup]
  by_cases hit : (w.inHost == inHost && (cellAt w.cells a).isSome) = true
  · rw [if_pos hit, List.getLast?_cons]
    cases hl : l.getLast? with
    | some x => rfl
    | none =>
      obtain ⟨hin, hsome⟩ := Bool.and_eq_true_iff.1 hit
      obtain ⟨b, hb⟩ := Option.isSome_iff_exists.1 hsome
      refine hbase.trans ?_
      rw [if_pos (beq_iff_eq.1 hin)]
      show _ = (cellAt w.cells a).getD 0
      rw [hb]
      rfl
  · rw [if_neg hit]
    cases hl : l.getLast? with
    | some x => rfl
    | none =>
      refine hbase.trans ?_
      by_cases hin : w.inHost = inHost
      · have hnone : cellAt w.cells a = none := by simpa [hin] using hit
        rw [if_pos hin, hnone]
        rfl
      · exact if_neg hin

end

theorem readOrder_mergeHeads {q : Actor} {need : Nat} {inHost : Bool} {a : Nat} (hneed : need ≤ 4) :
    ∀ (pend : List Wr) (m h : Memory), (∀ w ∈ pend, (w.cells.map (·.1)).Nodup) →
      readOrder (mergeHeads pend m h).1 (mergeHeads pend m h).2.1 (mergeHeads pend m h).2.2 q need inHost a =
        readOrder pend m h q need inHost a
  | [], _, _, _ => rfl
  | w :: t, m, h, hd => by
    have ih (m h : Memory) := readOrder_mergeHeads hneed (q := q) (inHost := inHost) (a := a) t m h
      fun x hx => hd x (List.mem_cons_of_mem _ hx)
    rw [mergeHeads]
    by_cases hw : 4 ≤ w.scope
    · have hstep := readOrder_mergeHead (q := q) (inHost := inHost) (a := a) (pend := t) (m := m) (h := h) hw hneed
        (hd w (List.mem_cons_self ..))
      rw [if_pos hw]
      by_cases hin : w.inHost = true
      · rw [if_pos hin, if_pos hin] at hstep
        rw [if_pos hin, ih, hstep]
      · rw [if_neg hin, if_neg hin] at hstep
        rw [if_neg hin, ih, hstep]
    · rw [if_neg hw]

theorem State.readByte_settle {s : State} (hd : s.distinct) {need : Nat} (hneed : need ≤ 4) (q : Actor) (inHost : Bool) (a : Nat) :
    s.settle.readByte q need inHost a = s.readByte q need inHost a := readOrder_mergeHeads hneed s.pend s.mem s.hmem hd

/-! ### The typed buffers -/

/-- A range of one memory put over another reads as the first there and as the second elsewhere. -/
theorem Memory.read_paste_cut (m m' : Memory) (o n b : Nat) :
    (pasteBytes m o n (cutBytes m' o n)).read b = if o ≤ b ∧ b < o + n then m'.read b else m.read b := by
  have hcut : (cutBytes m' o n).map (fun e => (e.1 + o, e.2)) =
      m'.filter fun e => decide (o ≤ e.1) && decide (e.1 < o + n) := by
    rw [cutBytes, List.map_map]
    refine (List.map_congr_left fun e he => ?_).trans (List.map_id _)
    have hle : o ≤ e.1 := by
      have := (List.mem_filter.1 he).2
      simp only [Bool.and_eq_true, decide_eq_true_eq] at this
      exact this.1
    exact Prod.ext (Nat.sub_add_cancel hle) rfl
  simp only [Memory.read_eq, pasteBytes, hcut]
  rw [show cellAt = Tbl.get? from rfl, Tbl.get?_append, Tbl.get?_append, Tbl.get?_filter (fun k => decide (k < o)),
    Tbl.get?_filter (fun k => decide (o ≤ k) && decide (k < o + n)), Tbl.get?_filter (fun k => decide (o + n ≤ k))]
  by_cases h1 : b < o
  · simp [h1, show ¬o ≤ b by omega, show ¬o + n ≤ b by omega]
  · by_cases h2 : b < o + n
    · simp [h1, h2, show o ≤ b by omega, show ¬o + n ≤ b by omega]
    · simp [h1, h2, show o + n ≤ b by omega]

/-- What a granule in transit adds to a buffer. -/
def serveGranule (inW : Bool) (m : Memory) (e : FwdEnt) : Memory :=
  match e.into with
  | some g => if e.inW = inW then pasteBytes m (4096 * g) 4096 e.bytes else m
  | none => m

/-- A granule in transit takes its bytes of a buffer that becomes m. -/
def refreshGranule (inW : Bool) (m : Memory) (e : FwdEnt) : FwdEnt :=
  match e.into with
  | some g => if e.inW = inW then { e with bytes := cutBytes m (4096 * g) 4096 } else e
  | none => e

theorem Core.buf_eq (k : Core) (inW : Bool) : k.buf inW = k.fwd.foldl (serveGranule inW) (k.bytes inW) := rfl

theorem Core.fwd_setBuf (k : Core) (inW : Bool) (m : Memory) : (k.setBuf inW m).fwd = k.fwd.map (refreshGranule inW m) := by
  cases inW <;> rfl

theorem Core.bytes_setBuf (k : Core) (inW inW' : Bool) (m : Memory) :
    (k.setBuf inW m).bytes inW' = if inW' = inW then m else k.bytes inW' := by
  cases inW <;> cases inW' <;> rfl

/-- A refreshed granule serves what the buffer already holds. -/
theorem serveGranule_refreshed {inW : Bool} {m acc : Memory} (h : ∀ b, acc.read b = m.read b) (e : FwdEnt) (b : Nat) :
    (serveGranule inW acc (refreshGranule inW m e)).read b = m.read b := by
  cases hi : e.into with
  | none => simp only [refreshGranule, serveGranule, hi, h]
  | some g =>
    by_cases hw : e.inW = inW
    · simp only [refreshGranule, serveGranule, hi, hw, if_true, Memory.read_paste_cut, h, ite_self]
    · simp only [refreshGranule, serveGranule, hi, hw, if_false, h]

/-- A granule of the other buffer serves as before. -/
theorem serveGranule_other {inW inW' : Bool} (h : inW' ≠ inW) (m acc : Memory) (e : FwdEnt) :
    serveGranule inW' acc (refreshGranule inW m e) = serveGranule inW' acc e := by
  cases hi : e.into with
  | none => simp only [refreshGranule, serveGranule, hi]
  | some g =>
    by_cases hw : e.inW = inW
    · simp only [refreshGranule, serveGranule, hi, hw, if_true, if_neg (Ne.symm h)]
    · simp only [refreshGranule, serveGranule, hi, hw, if_false]

/-- A buffer reads as what it was set to, with the granules in transit. -/
theorem Core.read_buf_setBuf (k : Core) (inW : Bool) (m : Memory) (b : Nat) :
    ((k.setBuf inW m).buf inW).read b = m.read b := by
  rw [Core.buf_eq, Core.fwd_setBuf, Core.bytes_setBuf, if_pos rfl]
  suffices h : ∀ (l : List FwdEnt) (acc : Memory), (∀ b, acc.read b = m.read b) →
      ∀ b, ((l.map (refreshGranule inW m)).foldl (serveGranule inW) acc).read b = m.read b from h _ _ (fun _ => rfl) b
  intro l
  induction l with
  | nil => exact fun acc h => h
  | cons e l ih => exact fun acc h => ih _ (serveGranule_refreshed h e)

theorem Core.buf_setBuf_other (k : Core) {inW inW' : Bool} (h : inW' ≠ inW) (m : Memory) :
    (k.setBuf inW m).buf inW' = k.buf inW' := by
  rw [Core.buf_eq, Core.buf_eq, Core.fwd_setBuf, Core.bytes_setBuf, if_neg h, List.foldl_map]
  simp only [serveGranule_other h]

/-! ### The canonical form -/

/-- An update that leaves both memories leaves their form. -/
theorem State.memOk_of_eq {s t : State} (h : s.memOk) (hm : t.mem = s.mem) (hh : t.hmem = s.hmem) : t.memOk :=
  ⟨hm ▸ h.1, hh ▸ h.2⟩

theorem mergeHeads_wf : ∀ (pend : List Wr) {m h : Memory}, m.wf = true → h.wf = true →
    (mergeHeads pend m h).2.1.wf = true ∧ (mergeHeads pend m h).2.2.wf = true
  | [], _, _, hm, hh => ⟨hm, hh⟩
  | w :: t, m, h, hm, hh => by
    rw [mergeHeads]
    split
    · split
      · exact mergeHeads_wf t hm (Memory.wf_writeAll _ hh)
      · exact mergeHeads_wf t (Memory.wf_writeAll _ hm) hh
    · exact ⟨hm, hh⟩

theorem State.memOk_settle {s : State} (h : s.memOk) : s.settle.memOk := mergeHeads_wf s.pend h.1 h.2

theorem State.memOk_breakResvs {s : State} (h : s.memOk) (w : Wr) : (s.breakResvs w).memOk := h

theorem State.memOk_mendLines {s : State} (h : s.memOk) (cells : Memory) : (s.mendLines cells).memOk := by
  unfold State.mendLines
  split <;> exact h

theorem State.memOk_mend {s : State} (h : s.memOk) (l : List Sram) : (s.mend l).memOk :=
  State.memOk_of_eq h (State.mem_mend s l) (State.hmem_mend s l)

/-- Updates of memory's form kept along a list. -/
theorem State.memOk_foldl {α : Type} {f : State → α → State} (hf : ∀ s a, s.memOk → (f s a).memOk) (l : List α) {s : State}
    (h : s.memOk) : (l.foldl f s).memOk := by
  induction l generalizing s with
  | nil => exact h
  | cons a l ih => exact ih (hf s a h)

theorem State.memOk_addWrites {s : State} (h : s.memOk) (q : Actor) (scope : Nat)
    (parts : List (Nat × BitVec 4 × Bool × Memory)) : (s.addWrites q scope parts).memOk := by
  unfold State.addWrites
  exact State.memOk_settle (State.memOk_foldl (fun s p hs => State.memOk_breakResvs hs _) parts
    (s := { s.mendLines _ with pend := _, nextId := _ }) (State.memOk_mendLines h _))

theorem State.memOk_writePlace {s : State} (h : s.memOk) (q : Actor) (cls : BitVec 4) (scope : Nat) (p : Place)
    (bs : List Byte) : (s.writePlace q cls scope p bs).memOk := by
  cases p with
  | dev a => exact State.memOk_addWrites h ..
  | host a => exact State.memOk_addWrites h ..
  | abuf c o => exact State.memOk_mend h _
  | wbuf c o => exact State.memOk_mend h _

theorem State.memOk_atomicWrite {s : State} (h : s.memOk) (q : Actor) (cls : BitVec 4) (scope : Nat) (p : Place)
    (bs : List Byte) : (s.atomicWrite q cls scope p bs).memOk := by
  cases p with
  | dev a => exact State.memOk_addWrites h ..
  | host a => exact State.memOk_addWrites h ..
  | abuf c o => exact State.memOk_writePlace h ..
  | wbuf c o => exact State.memOk_writePlace h ..

/-- Settles O18: reads by the order of the writes, buffers by the granules in transit, and the canonical form of memory. -/
theorem joinedWriteReadsAndMemoryCanonical : Obligations.JoinedWriteReadsAndMemoryCanonical := by
  unfold Obligations.JoinedWriteReadsAndMemoryCanonical
  refine ⟨fun s w q need inHost a => ⟨fun hin hvis b hb => readOrder_append_hit hin hvis hb, readOrder_append_miss⟩,
    fun s q need inHost a hd hneed => State.readByte_settle hd hneed q inHost a,
    ⟨fun s q cls sc c o bs b => ?buffer, leNat_leBytes⟩,
    fun m a bs h => Memory.wf_writeN a bs h, fun s h => State.memOk_settle h, resetMemoryCanonical,
    fun s q cls sc p bs h => State.memOk_atomicWrite h q cls sc p bs⟩
  case buffer =>
    intro t m
    have ht : t = (s.mend ((Place.abuf c o).sram true bs.length)).modCore c fun k =>
      k.setBuf false ((k.buf false).writeN o bs) := rfl
    have hcore : t.core c = (s.core c).setBuf false (m.writeN o bs) := by
      rw [ht, State.core_modCore, if_pos rfl, State.core_mend]
    refine ⟨?read, ?other, by rw [hcore]; rfl, fun d hd => ?cores, fun x hx => ?bad, ?frame⟩
    case read => rw [hcore, Core.read_buf_setBuf, Memory.read_writeN]
    case other => rw [hcore, Core.buf_setBuf_other _ (by decide)]
    case cores => rw [ht, State.core_modCore, if_neg hd, State.core_mend]
    case bad =>
      rw [ht, State.modCore_bad, State.mend_eq] at hx
      exact (List.mem_filter.1 hx).1
    case frame => rw [ht, State.mend_eq]; rfl

end Sys2Proof.Machine
end

section
/-! SUPPORT. Pushes: what registering an entry changes, the waits of a push, record pushes and runs, and the tokens of the
copy engine (08_stoker_isa.md R155, R156; 05_local_memory.md R87, R89, R90; 11_data_engines_isa.md R233, R237). -/
namespace Sys2Proof.Machine

/-! ### The entry at the tail of its queue -/

theorem Ctx.queue_setQueue (x : Ctx) (a b : Agent) (q : List Entry) :
    (x.setQueue a q).queue b = if b = a then q else x.queue b := by
  cases a <;> cases b <;> rfl

section
variable (x : Ctx) (a : Agent) (e : Entry)

theorem Ctx.queue_append (b : Agent) : (x.append a e).queue b =
    if b = a then x.queue a ++ [{ e with qpos := Tbl.get 0 x.qpos a.code % 2 ^ 32 }] else x.queue b := by
  rw [← Ctx.queue_setQueue]
  unfold Ctx.append
  dsimp only
  split
  · rfl
  · cases b <;> rfl

theorem Ctx.sq_append : (x.append a e).sq = x.sq := by cases a <;> rfl

theorem Ctx.x_append : (x.append a e).x = x.x := by cases a <;> rfl

theorem Ctx.csr_append : (x.append a e).csr = x.csr := by cases a <;> rfl

end

/-! ### The waits of a push -/

section
variable {s : State} {r : PushReq} (k : State → Res)

theorem State.push_undecoupled (h : s.my.sq.any (·.typed) = true) : s.push r k = s.undecoupled := if_pos h

theorem State.push_stalls (h : s.my.sq.any (·.typed) = false) (hfull : s.my.full r.agent = true) :
    s.push r k = s.stall r.agent :=
  (if_neg (Bool.eq_false_iff.1 h)).trans (if_pos (by rw [hfull, Bool.true_or]))

end

/-- Settles O19: the entry registered, the push with room, and the two waits. -/
theorem pushRegisters : Obligations.PushRegisters := by
  unfold Obligations.PushRegisters
  refine fun s r k hr => ⟨⟨_, s.register_eq r, (Ctx.queue_append _ _ _ _).trans (if_pos rfl),
    fun a ha => (Ctx.queue_append _ _ _ _).trans (if_neg ha), ?sq, rfl, Ctx.x_append .., Ctx.append_pc .., Ctx.csr_append ..⟩,
    fun h => State.push_room h k, fun f off c l q => ⟨rfl, rfl, rfl⟩, fun h => ?typed, fun h hfull => ?full⟩
  case sq => exact congrArg (· ++ _) (Ctx.sq_append ..)
  case typed =>
    obtain ⟨ws, hws⟩ := s.my_noteWait .sk 5 (BitVec.ofNat 32 (s.my.position .sk)) 0 s.cur
    exact ⟨_, State.push_undecoupled k h, by rw [hws], by rw [hws], by rw [hws], by rw [hws]; rfl⟩
  case full =>
    obtain ⟨ws, hws⟩ := s.my_noteWait .sk 10 (BitVec.ofNat 32 r.agent.code) r.agent.code s.cur
    exact ⟨_, State.push_stalls k h hfull, by rw [hws], by rw [hws], by rw [hws], by rw [hws]; rfl⟩

/-! ### Record pushes and runs -/

section
variable {s : State} {ag : Agent} {f off : Nat} {tok : Option Nat} {bs : List Byte}

/-- A collective push counts itself in its scope and team and clears the restartable mark. -/
def State.countCollective (s : State) (key n : Nat) : State :=
  s.clearRstbl.upd fun x => { x with cl := { x.cl with counts := Tbl.put 0 x.cl.counts key n } }

theorem State.pushRecord_ready (h : s.record off bs) (hroom : s.room (s.recordReq ag f off tok bs)) (k : State → Res) :
    s.pushRecord ag f off tok k =
      if ag = .cl then
        k (((s.register (s.recordReq ag f off tok bs)).meter s.cur 24 0).countCollective
          (2 * recScope bs + bitsNat (recFlags bs) 0 0)
          (Tbl.get 0 s.my.cl.counts (2 * recScope bs + bitsNat (recFlags bs) 0 0) + 1))
      else k ((s.register (s.recordReq ag f off tok bs)).meter s.cur 24 0) :=
  (if_neg fun hne => hne h.1).trans ((State.withRecord_ready h _).trans (State.push_room hroom _))

theorem State.pushRecord_misaligned (h : off % 64 ≠ 0) (k : State → Res) :
    s.pushRecord ag f off tok k = .next (s.takeTrapFree 2 0) := if_pos h

theorem exec_pushForm {i : Instr} {a : Reg} (h : pushForm i = some (ag, f, a)) (s : State) : exec i s = s.pushRec ag f a := by
  cases i
  case gxGather | gxBag | gxScadd | gxCount | fxPass | fxCfg | clAllred | clRedsc | clAllgat | clBcast =>
    cases h
    rfl
  all_goals cases h

theorem exec_cxForm {i : Instr} {a d : Reg} (h : cxForm i = some (f, a, d)) (s : State) : exec i s = s.pushCx f a d := by
  cases i
  case cxCopy | cxCopy2 | cxPeer | cxFill | cxRing | cxPretr | cxFlush =>
    cases h
    rfl
  all_goals cases h

theorem State.nextPc_register_meter (s : State) (r : PushReq) (q n : Nat) :
    ((s.register r).meter s.cur q n).nextPc = s.nextPc :=
  (State.nextPc_meter _ _ _ _ rfl).trans (s.nextPc_register r)

theorem State.pushRun_ready {mx : Bool} {b a : Reg} (hregs : s.regsReady [destX b, destX a] [])
    (h : s.record (s.rx a).toNat bs) (hroom : s.room (s.runReq mx (s.rx b).toNat (s.rx a).toNat bs))
    (hread : (s.runReq mx (s.rx b).toNat (s.rx a).toNat bs).cmd.recordsRead = 1) :
    s.pushRun mx b a =
      .next (((s.register (s.runReq mx (s.rx b).toNat (s.rx a).toNat bs)).meter s.cur 24 1).retireAt s.nextPc) := by
  refine (State.withRegs_ready hregs _).trans ((if_neg fun hne => hne h.1).trans
    ((State.withRecord_ready h _).trans ((State.push_room hroom _).trans ?_)))
  rw [hread, State.finish, State.nextPc_register_meter]

end

/-- Settles O20: the form of a record push, its record read and its room, and the two runs. -/
theorem recordPushesAndRunPushes : Obligations.RecordPushesAndRunPushes := by
  unfold Obligations.RecordPushesAndRunPushes
  refine ⟨fun s i ag f a bs hf hregs => ⟨fun h hroom => ?pushed, fun h => ?misaligned⟩, fun s b a bs hregs h =>
    ⟨fun hroom => State.pushRun_ready hregs h hroom rfl, fun hroom => State.pushRun_ready hregs h hroom rfl⟩⟩
  case pushed =>
    refine (exec_pushForm hf s).trans ((State.withRegs_ready hregs _).trans ((State.pushRecord_ready h hroom _).trans ?_))
    dsimp only
    split <;> rfl
  case misaligned =>
    exact (exec_pushForm hf s).trans ((State.withRegs_ready hregs _).trans (State.pushRecord_misaligned h _))

/-! ### Tokens -/

section
variable {s : State} {a d : Reg}

theorem exec_cxCancel_unheld (hregs : s.regsReady [destX a] []) (h : s.my.tokenAt (s.rx a) = none) :
    exec (.cxCancel a) s = s.finish := by
  refine (State.withRegs_ready hregs _).trans ?_
  rw [h]

theorem exec_cxCancel_held {n : Nat} {t : Token} {e : Entry} (hregs : s.regsReady [destX a] [])
    (h : s.my.tokenAt (s.rx a) = some (n, t)) (he : s.my.cxq.find? (fun e => e.token == some n) = some e)
    (ht : t.ended = none) :
    exec (.cxCancel a) s =
      if e.begun then
        (s.upd fun x => x.modEntry .cx e.id fun y => { y with
          started := true, held := false, code := 1, todo := e.cancelRest ++ s.ownSlot s.cur e,
          complete := (e.cancelRest ++ s.ownSlot s.cur e).isEmpty }).finish
      else ((s.upd fun x => { x with cxq := x.cxq.filter (fun y => y.id != e.id) }).endToken s.cur n 1).finish := by
  refine (State.withRegs_ready hregs _).trans ?_
  rw [h]
  dsimp only
  rw [he, ht]
  rfl

theorem exec_cxWait_ended (hregs : s.regsReady [destX a] [destX d]) (h : s.my.tokenCode (s.rx a) ≠ 3) :
    exec (.cxWait a d) s =
      (s.report (s.rx a) (s.my.tokenCode (s.rx a))).setRd d (BitVec.ofNat 64 (s.my.tokenCode (s.rx a))) :=
  (State.withRegs_ready hregs _).trans (if_neg h)

theorem exec_cxWait_waits (hregs : s.regsReady [destX a] [destX d]) (h : s.my.tokenCode (s.rx a) = 3) :
    exec (.cxWait a d) s = .next (s.noteWait s.cur .sk 2 ((s.rx a).setWidth 32) 3 s.cur) :=
  (State.withRegs_ready hregs _).trans (if_pos h)

theorem State.pushCx_ready {n f : Nat} {bs : List Byte} (hregs : s.regsReady [destX a] [destX d])
    (hn : s.my.freeToken = some n) (h : s.record (s.rx a).toNat bs)
    (hroom : s.room (s.recordReq .cx f (s.rx a).toNat (some n) bs)) :
    s.pushCx f a d =
      (((s.register (s.recordReq .cx f (s.rx a).toNat (some n) bs)).meter s.cur 24 0).upd fun x => { x with
        tokens := Tbl.set x.tokens n { value := BitVec.ofNat 64 (64 * s.my.nextSeq + n), ended := none }
        cxPushes := s.my.nextSeq }).setRd d (BitVec.ofNat 64 (64 * s.my.nextSeq + n)) := by
  refine (State.withRegs_ready hregs _).trans ((if_neg fun hne => hne h.1).trans ?_)
  rw [hn]
  exact State.pushRecord_ready h hroom _

theorem State.pushCx_noToken {f : Nat} (hregs : s.regsReady [destX a] [destX d]) (hoff : (s.rx a).toNat % 64 = 0)
    (hn : s.my.freeToken = none) : s.pushCx f a d = .next (s.takeTrapFree 29 0) := by
  refine (State.withRegs_ready hregs _).trans ((if_neg fun hne => hne hoff).trans ?_)
  rw [hn]
  rfl

end

/-- Settles O21: a CX push by whether a token entry is free, and the three reports by how the token stands. -/
theorem copyPushesAndTokenReports : Obligations.CopyPushesAndTokenReports := by
  unfold Obligations.CopyPushesAndTokenReports
  refine ⟨fun s i f a d bs hf hregs hoff => ⟨fun n hn h hroom => ?pushed,
    fun hn => (exec_cxForm hf s).trans (State.pushCx_noToken hregs hoff hn)⟩, fun s a d =>
    ⟨fun hregs => ⟨fun h => (exec_cxWait_ended hregs h).trans (State.setRd_eq ..), fun h => ?waits,
      State.withRegs_ready hregs _⟩, fun h => ?unheld, fun n t h => ?held, fun hregs => ⟨exec_cxCancel_unheld hregs,
      fun n t e h he ht => ⟨fun hb => ?queued, fun hb => ?begun⟩⟩⟩⟩
  case pushed =>
    refine ((exec_cxForm hf s).trans (State.pushCx_ready hregs hn h hroom)).trans ?_
    rw [State.setRd_upd (by rfl), State.nextPc_register_meter]
    rfl
  case waits =>
    obtain ⟨ws, hws⟩ := s.my_noteWait .sk 2 ((s.rx a).setWidth 32) 3 s.cur
    exact ⟨_, exec_cxWait_waits hregs h, by rw [hws], by rw [hws], by rw [hws]⟩
  case unheld => simp only [Ctx.tokenCode, h]
  case held => simp only [Ctx.tokenCode, h]
  case queued => exact (exec_cxCancel_held hregs h he ht).trans (if_neg (Bool.eq_false_iff.1 hb))
  case begun => exact (exec_cxCancel_held hregs h he ht).trans ((if_pos hb).trans (State.finish_upd rfl))

end Sys2Proof.Machine
end

section
/-! SUPPORT. The pushes of MX words and bindings, of tag writes, of barriers and of markers (07_encoding.md R117;
08_stoker_isa.md R157, R171, R172; 11_data_engines_isa.md R249). -/
namespace Sys2Proof.Machine

/-! ### MX words and bindings -/

section
variable {s : State} {w : BitVec 32} {addr : Nat}

/-- A word that changes a geometry changes what later pushes capture (10_matrix_isa.md R220). -/
theorem State.pushMx_tcfg {c : BitVec 5} {r k : BitVec 6} (h : s.room (s.mxReq w addr))
    (hw : accepted (decodeMxFull w) = some (.mxTcfg c r k)) :
    s.pushMx w addr = .next (((s.register (s.mxReq w addr)).upd fun x => { x with mx := { x.mx with binds := { x.mx.binds with
      geoms := Tbl.put Geom.reset x.mx.binds.geoms c.toNat { rows := r.toNat + 1, cols := k.toNat + 1 } } } }).retireAt
      s.nextPc) := by
  rw [← State.nextPc_register s (s.mxReq w addr)]
  unfold State.pushMx
  dsimp only
  refine (State.push_plain (r := s.mxReq w addr) h rfl _).trans ?_
  rw [hw]
  exact State.finish_upd rfl

theorem State.pushPlain_room {a : Agent} {cmd : Cmd} (h : s.room (s.plainReq a cmd)) (h0 : cmd.recordsRead = 0)
    (k : State → State) : s.pushPlain a cmd k = (k (s.register (s.plainReq a cmd))).finish :=
  State.push_plain (r := s.plainReq a cmd) h h0 _

theorem State.finish_register (s : State) (r : PushReq) : (s.register r).finish = .next ((s.register r).retireAt s.nextPc) := by
  rw [State.finish, State.nextPc_register]

/-- A binding set behind a registration. -/
theorem State.finish_register_upd (s : State) (r : PushReq) {f : Ctx → Ctx} (h : ∀ x, (f x).pc = x.pc) :
    ((s.register r).upd f).finish = .next (((s.register r).upd f).retireAt s.nextPc) := by
  rw [State.finish_upd (h _), State.nextPc_register]

end

theorem accepted_checked {e : DecodeErr} {i j : Instr} (h : accepted (checked e i) = some j) : i = j := by
  unfold checked at h
  split at h
  · exact Option.some.inj h
  · cases h

theorem accepted_zero {z : Bool} {e e' : DecodeErr} {i j : Instr}
    (h : accepted (if z then checked e i else .error e') = some j) : i = j := by
  split at h
  · exact accepted_checked h
  · cases h

/-- Only the operation 6 is `mx.tcfg` (07_encoding.md R133). -/
theorem decodeMxFull_tcfg {w : BitVec 32} {c : BitVec 5} {r k : BitVec 6}
    (h : accepted (decodeMxFull w) = some (.mxTcfg c r k)) : (w.extractLsb' 26 5).toNat = 6 := by
  unfold decodeMxFull at h
  dsimp only at h
  split at h
  · cases h
  split at h
  case h_7 hop => exact hop
  case h_1 | h_3 | h_4 | h_5 | h_6 | h_10 | h_11 => cases accepted_zero h
  case h_2 =>
    split at h
    · cases accepted_checked h
    · cases accepted_zero h
  case h_8 =>
    split at h
    · cases accepted_zero h
    · cases accepted_checked h
    · cases accepted_zero h
    · cases h
  case h_9 =>
    split at h
    · cases accepted_checked h
    · cases accepted_zero h
  case h_12 => cases h

theorem inlineWord_op (op rd rs1 rs2 : BitVec 5) (m : BitVec 2) : (inlineWord op rd rs1 rs2 m).extractLsb' 26 5 = op := by
  simp (disch := decide) [inlineWord, extract_lower, extract_upper]

section
variable {s : State}

/-- The inline forms but that of the operation 6 push their word. -/
theorem State.pushMx_inline {op rd rs1 rs2 : BitVec 5} {m : BitVec 2} (hop : op.toNat ≠ 6)
    (h : s.room (s.mxReq (inlineWord op rd rs1 rs2 m) 0)) :
    s.pushMx (inlineWord op rd rs1 rs2 m) 0 =
      .next ((s.register (s.mxReq (inlineWord op rd rs1 rs2 m) 0)).retireAt s.nextPc) :=
  State.pushMx_plain h fun _ _ _ hi => hop (inlineWord_op op rd rs1 rs2 m ▸ decodeMxFull_tcfg hi)

theorem exec_skShape_ready {a sh : Reg} (h : s.regsReady [destX a] []) :
    exec (.skShape a sh) s =
      match shapeOf (s.rx a).toNat with
      | none => s.illegal
      | some r => s.pushPlain .mx .mxBind fun s => s.upd fun x => { x with mx := { x.mx with binds := { x.mx.binds with
          shapes := Tbl.put Shape.reset x.mx.binds.shapes sh.toNat r } } } := State.withRegs_ready h _

theorem exec_skTgeom_ready {a c : Reg} (h : s.regsReady [destX a] []) (h63 : bitsNat (s.rx a).toNat 63 14 = 0)
    (h7 : bitsNat (s.rx a).toNat 7 6 = 0) :
    exec (.skTgeom a c) s =
      s.pushMx (1#1 ++ 6#5 ++ c ++ (s.rx a).extractLsb' 0 6 ++ (s.rx a).extractLsb' 8 6 ++ 0#9) 0 :=
  (State.withRegs_ready h _).trans (if_neg (not_or.2 ⟨Classical.not_not.2 h63, Classical.not_not.2 h7⟩))

end

/-- Settles O22: the words pushed, by the operation that binds, and the bindings behind their entries. -/
theorem matrixPushesAndBindingPushes : Obligations.MatrixPushesAndBindingPushes := by
  unfold Obligations.MatrixPushesAndBindingPushes
  refine ⟨fun s => ⟨fun n d b a c h => State.pushMx_inline (by decide) h, fun sl h => State.pushMx_inline (by decide) h,
    fun sl h => State.pushMx_inline (by decide) h, fun c h => State.pushMx_inline (by decide) h, fun b a hregs =>
    ⟨fun h31 hop htcfg hroom => ?pushw, fun h31 => ?illegal⟩⟩, fun s => ⟨fun a sh r hregs hr hroom => ?shape,
    fun a sh hregs hr => ?badShape, fun h sl v hroom => ?view, fun a c hregs h63 h7 hw hroom => ?tgeom, fun n hroom => ?rfcl⟩⟩
  case pushw =>
    refine (State.withRegs_ready hregs _).trans ((if_neg fun h => ?_).trans (State.pushMx_plain hroom htcfg))
    rw [h31, Bool.not_true, Bool.false_or] at h
    exact hop (beq_iff_eq.1 h)
  case illegal => exact (State.withRegs_ready hregs _).trans (if_pos (by rw [h31]; rfl))
  case shape =>
    rw [exec_skShape_ready hregs, hr]
    exact (State.pushPlain_room hroom rfl _).trans (State.finish_register_upd s _ fun _ => rfl)
  case badShape =>
    rw [exec_skShape_ready hregs, hr]
    rfl
  case view =>
    show execSkView h sl v s = _
    rw [execSkView]
    exact (State.pushPlain_room hroom rfl _).trans (State.finish_register_upd s _ fun _ => rfl)
  case tgeom =>
    rw [exec_skTgeom_ready hregs h63 h7]
    exact State.pushMx_tcfg hroom hw
  case rfcl =>
    show execSkRfcl n s = _
    rw [execSkRfcl]
    exact (State.pushPlain_room hroom rfl _).trans (State.finish_register s _)

/-! ### Tag writes, barriers and markers -/

theorem exec_skBuffmt (inW : Bool) (f b a g : BitVec 5) (s : State) :
    exec (if inW then .skBuffmtW f b a g else .skBuffmtA f b a g) s = s.pushTag inW f (g.setWidth 3) a b := by
  cases inW <;> rfl

/-- Settles O23: the range of a tag write, the entry of a barrier, and a marker by whether its register has fired. -/
theorem tagAndBarrierPushesAndMarkPush : Obligations.TagAndBarrierPushesAndMarkPush := by
  unfold Obligations.TagAndBarrierPushesAndMarkPush
  refine ⟨fun s => ⟨fun inW f b a g hregs => ⟨fun h1 h2 h3 h4 hroom => ?tag, fun h => ?badRange⟩, fun t sc hroom => ?barrier⟩,
    fun s c e a k hregs => ⟨fun hf ht hroom => ?mark, fun hf => ?waits⟩⟩
  case tag =>
    have hbad : ¬((s.rx a).toNat % 4096 ≠ 0 ∨ (s.rx b).toNat = 0 ∨ (s.rx b).toNat % 4096 ≠ 0 ∨
        4096 * (if inW then s.me.b.wLimit else s.me.b.aLimit) < (s.rx a).toNat + (s.rx b).toNat) := by
      rintro (h | h | h | h)
      · exact h h1
      · exact h2 h
      · exact h h3
      · exact Nat.not_lt.2 h4 h
    exact (exec_skBuffmt ..).trans ((State.withRegs_ready hregs _).trans ((if_neg hbad).trans
      ((State.push_plain hroom rfl _).trans (State.finish_register s _))))
  case badRange => exact (exec_skBuffmt ..).trans ((State.withRegs_ready hregs _).trans (if_pos h))
  case barrier =>
    show execClBarrier t sc s = _
    rw [execClBarrier]
    exact State.push_plain hroom rfl _
  case mark =>
    refine (State.withRegs_ready hregs _).trans ((if_neg (by simp [hf])).trans ((if_neg (by simp [ht])).trans ?_))
    rw [hroom]
    rfl
  case waits =>
    obtain ⟨ws, hws⟩ := s.my_noteWait .sk 1 (BitVec.ofNat 32 ((s.my.rvAt k.toNat).n.toNat * 65536 + k.toNat))
      (s.my.rvAt k.toNat).owes s.cur
    exact ⟨_, (State.withRegs_ready hregs _).trans (if_pos (by simp [hf])), by rw [hws], by rw [hws]⟩

end Sys2Proof.Machine
end

section
/-! SUPPORT. Rings, deques, feeds, the budget, variants, service requests and lends (08_stoker_isa.md R164, R165, R167 to R170,
R173, R174; 05_local_memory.md R82, R84, R85; 01_machine.md R16 to R18). -/
namespace Sys2Proof.Machine

/-! ### Rings -/

section
variable {s : State} {n a b d : Reg}

theorem Ring.outOfTurn {r : Ring} (h : r.configured = false ∨ r.heldSk.isSome = true) :
    (!r.configured || r.heldSk.isSome) = true := by
  rcases h with h | h <;> simp [h]

theorem exec_ringTake_fault (hregs : s.regsReady [] [destX d])
    (h : (s.my.ring n.toNat).configured = false ∨ (s.my.ring n.toNat).heldSk.isSome = true) :
    exec (.ringTake n d) s = .next (s.takeTrapFree 26 n.toNat) :=
  (State.withRegs_ready hregs _).trans (if_pos (Ring.outOfTurn h))

theorem exec_ringTake_turn (hregs : s.regsReady [] [destX d]) (hc : (s.my.ring n.toNat).configured = true)
    (hh : (s.my.ring n.toNat).heldSk = none) :
    exec (.ringTake n d) s =
      if (s.my.ring n.toNat).filled = 0 then .next (s.noteRing s.cur .sk n.toNat)
      else ((s.upd fun x => x.setRing n.toNat { (s.my.ring n.toNat).take with
        heldSk := some (s.my.ring n.toNat).tail }).acquire).setRd d
          (BitVec.ofNat 64 ((s.my.ring n.toNat).slotOff (s.my.ring n.toNat).tail)) :=
  (State.withRegs_ready hregs _).trans (if_neg (by simp [hc, hh]))

theorem exec_ringGive_held (hc : (s.my.ring n.toNat).configured = true) (hh : (s.my.ring n.toNat).heldSk.isSome = true)
    (hsq : s.my.sq.any (·.typed) = false) : exec (.ringGive n) s = (s.ringReturn s.cur n.toNat .sk).finish :=
  (if_neg (by simp [hc, Option.isSome_iff_ne_none.1 hh])).trans (if_neg (Bool.eq_false_iff.1 hsq))

theorem exec_ringGive_fault (h : (s.my.ring n.toNat).configured = false ∨ (s.my.ring n.toNat).heldSk = none) :
    exec (.ringGive n) s = .next (s.takeTrapFree 26 n.toNat) := if_pos (by rcases h with h | h <;> simp [h])

/-- The configurations that R169 refuses, of those the statement names. -/
theorem Core.ringRefused_of {k : Core} {i v w : Nat}
    (h : v % 64 ≠ 0 ∨ bitsNat w 24 16 = 0 ∨ bitsNat w 15 0 = 0 ∨
      ((k.ctx.ring i).configured = true ∧ (k.ctx.ring i).filled ≠ 0)) (hv : v < 2 ^ 21) : k.ringRefused i v w = true := by
  have hbase : bitsNat v 20 0 = v := by
    rw [bitsNat, Nat.pow_zero, Nat.div_one]
    exact Nat.mod_eq_of_lt hv
  unfold Core.ringRefused
  rcases h with h | h | h | ⟨hc, hf⟩
  · simp [hbase, h]
  · simp [h]
  · simp [h]
  · simp [hc, hf]

end

/-! ### Deques -/

theorem filter_pairs {α : Type} (l m : Nat) (ws : List α) :
    (ws.map fun w => (l, w)).filter (·.1 == m) = if l = m then ws.map fun w => (l, w) else [] := by
  by_cases h : l = m
  · rw [if_pos h]
    refine List.filter_eq_self.2 fun x hx => ?_
    obtain ⟨w, -, rfl⟩ := List.mem_map.1 hx
    exact beq_iff_eq.2 h
  · rw [if_neg h]
    refine List.filter_eq_nil_iff.2 fun x hx => ?_
    obtain ⟨w, -, rfl⟩ := List.mem_map.1 hx
    exact fun e => h (beq_iff_eq.1 e)

/-- How many of a core's words of a launch its running task does not hold. -/
def State.leftCount (s : State) (g l own : Nat) (ws : List DqWord) : Nat :=
  ws.length - min (if s.launchOf g = some l then own else 0) ws.length

section
variable (s : State) (g l n : Nat) (ws : List DqWord)

theorem State.core_setDeque_other {d : Nat} (h : d ≠ g) : (s.setDeque g l n ws).core d = s.core d := by
  rw [State.setDeque, State.core_modCtx, if_neg h, State.core_modCore, if_neg h]

theorem State.core_setDeque_same : (s.setDeque g l n ws).core g = { s.core g with
    left := (s.core g).left.filter (·.1 != l) ++ (ws.take (s.leftCount g l n ws)).map fun w => (l, w)
    ctx := if s.launchOf g = some l then { s.ctx g with deque := ws.drop (s.leftCount g l n ws) } else s.ctx g } := by
  rw [State.setDeque, State.core_modCtx, if_pos rfl, State.ctx, State.core_modCore, if_pos rfl]
  rfl

theorem State.leftOf_setDeque_same : (s.setDeque g l n ws).leftOf g l = ws.take (s.leftCount g l n ws) := by
  rw [State.leftOf, State.core_setDeque_same]
  have hold : ((s.core g).left.filter (·.1 != l)).filter (·.1 == l) = [] := by simp [List.filter_filter]
  rw [List.filter_append, hold, filter_pairs, if_pos rfl, List.nil_append, List.map_map]
  exact List.map_id _

theorem State.leftOf_setDeque_other {m : Nat} (h : m ≠ l) : (s.setDeque g l n ws).leftOf g m = s.leftOf g m := by
  rw [State.leftOf, State.core_setDeque_same, State.leftOf]
  have hkeep : ((s.core g).left.filter (·.1 != l)).filter (·.1 == m) = (s.core g).left.filter (·.1 == m) := by
    rw [List.filter_filter]
    refine List.filter_congr fun e _ => ?_
    by_cases he : e.1 = m <;> simp [he, h]
  rw [List.filter_append, hkeep, filter_pairs, if_neg (Ne.symm h), List.append_nil]

theorem State.launchOf_setDeque : (s.setDeque g l n ws).launchOf g = s.launchOf g := by
  rw [State.launchOf, State.core_setDeque_same]
  rfl

/-- The words set are the words of the launch. -/
theorem State.dequeOf_setDeque : (s.setDeque g l n ws).dequeOf g l = ws := by
  rw [State.dequeOf, State.leftOf_setDeque_same, State.launchOf_setDeque, State.ctx, State.core_setDeque_same]
  split
  case isTrue h => exact List.take_append_drop ..
  case isFalse h =>
    rw [State.leftCount, if_neg h, Nat.zero_min, Nat.sub_zero, List.take_length, List.append_nil]

end

/-- A victim is another core of the cluster that has a word. -/
theorem State.victim_spec {s : State} {c l g : Nat} (hl : s.launchOf c = some l) (h : s.victim c = some g) :
    g / 16 = c / 16 ∧ g ≠ c ∧ s.dequeOf g l ≠ [] := by
  rw [State.victim, hl] at h
  obtain ⟨i, hi, rfl⟩ := List.mem_map.1 (List.mem_of_find?_eq_some h)
  have hi15 := List.mem_range.1 hi
  refine ⟨by omega, by omega, fun hnil => ?_⟩
  have := List.find?_some h
  rw [hnil] at this
  cases this

section
variable {s : State} {d : Reg} {l : Nat} (hregs : s.regsReady [] [destX d]) (hq : s.my.dequeQuiet = true)
  (hl : s.launchOf s.cur = some l)
include hregs hq hl

theorem exec_dqPop_launch :
    exec (.dqPop d) s = (s.clearRstbl.setDeque s.cur l (s.my.deque.length - 1) (s.dequeOf s.cur l).dropLast).giveWord d
      (((s.dequeOf s.cur l).getLast?.map (·.v)).getD 0) := by
  refine (State.withRegs_ready hregs _).trans ((if_neg (by simp [hq])).trans ?_)
  rw [hl]

theorem exec_dqSteal_victim {g : Nat} (hg : s.victim s.cur = some g) :
    exec (.dqSteal d) s = (s.clearRstbl.setDeque g l (s.ctx g).deque.length ((s.dequeOf g l).drop 1)).giveWord d
      (((s.dequeOf g l).head?.map (·.v)).getD 0) := by
  refine (State.withRegs_ready hregs _).trans ((if_neg (by simp [hq])).trans ?_)
  rw [hl, hg]

theorem exec_dqSteal_none (hg : s.victim s.cur = none) : exec (.dqSteal d) s = s.clearRstbl.giveWord d 0 := by
  refine (State.withRegs_ready hregs _).trans ((if_neg (by simp [hq])).trans ?_)
  rw [hl, hg]

end

/-- Settles O24: the ring instructions by the ring's state, and the deques by the words they hold. -/
theorem ringOperationsAndDeques : Obligations.RingOperationsAndDeques := by
  unfold Obligations.RingOperationsAndDeques
  refine ⟨fun s n => ⟨fun d hregs => ⟨fun hc hh hf => ?take, fun hc hh hf => ?takeWaits, exec_ringTake_fault hregs,
    fun hc => ?stat, fun hc => ?statFault⟩, fun hc hh hsq => exec_ringGive_held hc hh hsq, exec_ringGive_fault,
    fun a b hregs => ⟨fun h => ?cfg, fun h => ?refused, Core.ringRefused_of⟩⟩,
    fun s a d => ⟨fun hregs => State.withRegs_ready hregs _, fun l hregs hq hl => ⟨fun w hw => ?pop, fun h => ?popNone,
      fun g w hg hw => ?steal, exec_dqSteal_none hregs hq hl, fun g => State.victim_spec hl⟩, fun l g n ws =>
      ⟨s.dequeOf_setDeque g l n ws, fun m => s.leftOf_setDeque_other g l n ws, fun e => s.core_setDeque_other g l n ws, rfl⟩,
      fun n => State.finish_upd rfl⟩⟩
  case take =>
    refine (exec_ringTake_turn hregs hc hh).trans ((if_neg (Nat.ne_of_gt hf)).trans ?_)
    rw [State.setRd_eq, State.nextPc_acquire, State.nextPc_upd rfl]
    rfl
  case takeWaits =>
    obtain ⟨ws, hws⟩ := s.my_noteWait .sk 3 (BitVec.ofNat 32 n.toNat) 3
      ((s.home s.cur ((s.ctx s.cur).ring n.toNat).prod).coreOr s.cur)
    exact ⟨_, (exec_ringTake_turn hregs hc hh).trans (if_pos hf), by rw [State.noteRing, hws], by rw [State.noteRing, hws],
      by rw [State.noteRing, hws]⟩
  case stat => exact (State.withRegs_ready hregs _).trans ((if_neg (by simp [hc])).trans (by rw [State.finish, State.nextPc_owe]; rfl))
  case statFault => exact (State.withRegs_ready hregs _).trans (if_pos (by simp [hc]))
  case cfg => exact (State.withRegs_ready hregs _).trans ((if_neg (Bool.eq_false_iff.1 h)).trans (State.finish_upd rfl))
  case refused => exact (State.withRegs_ready hregs _).trans ((if_pos h).trans (State.finish_upd rfl))
  case pop =>
    rw [exec_dqPop_launch hregs hq hl, hw]
    rfl
  case popNone =>
    rw [exec_dqPop_launch hregs hq hl, h]
    rfl
  case steal =>
    rw [exec_dqSteal_victim hregs hq hl hg, hw]
    rfl

/-! ### Feeds, variants, services and lends -/

section
variable {s : State} {a d : Reg} {l : Launch} {id : Nat}

section
variable (hregs : s.regsReady [destX a] [destX d]) (hid : s.launchOf s.cur = some id) (hl : Tbl.get? s.launches id = some l)
include hregs hid hl

/-- `feed.pop` of a task whose launch is l. -/
theorem exec_feedPop_launch :
    exec (.feedPop a d) s =
      if l.feedK = 0 then s.illegal
      else if (s.rx a).toNat % 64 ≠ 0 then s.trap 6 (s.rx a) 0
      else if l.feedIn = l.feedOut then (s.clearRstbl.owe d 0).finish
      else s.withTyped false (s.aSpace s.cur (s.rx a).toNat 64) 64 true fun p =>
        if s.my.sq.any (fun e => e.typed || e.classes &&& classBit s.my.ycls != 0) then s.wait
        else s.withFeed l fun s r =>
          ((((s.clearRstbl.modLaunch ((s.launchOf s.cur).getD 0) fun y => { y with feedOut := y.feedOut + 1 }).writePlace
            (.core s.cur .sk) s.my.ycls 4 p r).meter s.cur 24 1).acquire.owe d 1).finish := by
  refine (State.withRegs_ready hregs _).trans ?_
  rw [hid, Option.bind_some, hl]

theorem exec_feedPop_record {p : Place} (hk : l.feedK ≠ 0) (hoff : (s.rx a).toNat % 64 = 0) (hne : l.feedIn ≠ l.feedOut)
    (hp : s.typedLands false (s.aSpace s.cur (s.rx a).toNat 64) 64 true p)
    (hsq : s.my.sq.any (fun e => e.typed || e.classes &&& classBit s.my.ycls != 0) = false) :
    exec (.feedPop a d) s = s.withFeed l fun s r =>
      ((((s.clearRstbl.modLaunch ((s.launchOf s.cur).getD 0) fun y => { y with feedOut := y.feedOut + 1 }).writePlace
        (.core s.cur .sk) s.my.ycls 4 p r).meter s.cur 24 1).acquire.owe d 1).finish := by
  rw [exec_feedPop_launch hregs hid hl, if_neg hk, if_neg (Classical.not_not.2 hoff), if_neg hne, State.withTyped_lands hp, hsq]
  exact if_neg Bool.false_ne_true

end

/-- The oldest record of a feed, where its address translates and no error is met. -/
theorem State.withFeed_ready {q : Place} {attr : Nat} {t : State}
    (htr : s.translate (.core s.cur .sk) l.part .read false (l.feedSlot l.feedOut) = (.ok q attr, t))
    (herr : t.readErrors (.core s.cur .sk) l.part (bitNat attr 5) q 64 (l.feedSlot l.feedOut) = (t, false))
    (k : State → List Byte → Res) :
    s.withFeed l k = k (t.meter t.cur (lineEvent q attr false) 1) (t.readPlace (.core s.cur .sk) q 64) := by
  unfold State.withFeed
  dsimp only
  rw [htr]
  dsimp only
  rw [herr]
  rfl

/-- What `sk.variant` stores of an entry and a class. -/
def variantWord (entry c : Nat) : Nat := c * 2 ^ 61 + 2 ^ 60 + entry % 2 ^ 57

theorem exec_skVariant_ready {c : BitVec 5} (hregs : s.regsReady [destX a] [destX d]) :
    exec (.skVariant c a d) s =
      ((if (s.variantStatus (s.rx a) c.toNat).1 = 0 then
          s.tcbUpd s.me.b.part.toNat s.me.b.tcb.toNat (s.variantStatus (s.rx a) c.toNat).2
            fun _ => variantWord (s.rx a).toNat c.toNat
        else s).owe d (BitVec.ofNat 64 (s.variantStatus (s.rx a) c.toNat).1)).finish := State.withRegs_ready hregs _

/-- A variant that is accepted takes one of the slots 4 to 6 of the TCB. -/
theorem State.variantStatus_slot {entry : Word} {c : Nat} (h : (s.variantStatus entry c).1 = 0) :
    4 ≤ (s.variantStatus entry c).2 ∧ (s.variantStatus entry c).2 ≤ 6 := by
  unfold State.variantStatus at h ⊢
  dsimp only at h ⊢
  split at h
  · cases h
  split at h
  · cases h
  split at h
  · cases h
  split at h
  · cases h
  next h3 h4 h1 _ i hi =>
    rw [if_neg h3, if_neg h4, if_neg h1]
    have := List.mem_range.1 (List.mem_of_find?_eq_some hi)
    exact ⟨Nat.le_add_right 4 i, by dsimp only; omega⟩

end

/-- Settles O25: the feed by whether it has a record, the variant by its status, and the two requests where their address
translates. -/
theorem feedsAndBudgetsAndServicesAndLending : Obligations.FeedsAndBudgetsAndServicesAndLending := by
  unfold Obligations.FeedsAndBudgetsAndServicesAndLending
  refine ⟨fun s a d => ⟨fun hregs id l hid hl => ⟨fun hk hoff he => ?empty, fun p q attr t hk hoff hne hp hsq htr herr _ => ?record,
    fun hk hoff => ?misaligned, fun hk => ?noFeed⟩, fun hregs => ?budget, fun c hregs => ⟨fun h => ?accepted, fun h => ?refused,
    State.variantStatus_slot, fun h => congrArg Prod.fst (if_pos h), fun h hseg => ?noSegment⟩⟩, fun s t a d p attr hregs =>
    ⟨fun hp => ⟨fun h => ?svc, ?lend⟩, fun h => (State.withRegs_ready hregs _).trans (if_pos h)⟩⟩
  case empty =>
    rw [exec_feedPop_launch hregs hid hl, if_neg hk, if_neg (Classical.not_not.2 hoff), if_pos he]
    rfl
  case record =>
    rw [exec_feedPop_record hregs hid hl hk hoff hne hp hsq]
    exact State.withFeed_ready htr herr _
  case misaligned =>
    rw [exec_feedPop_launch hregs hid hl, if_neg hk, if_pos hoff]
    rfl
  case noFeed =>
    rw [exec_feedPop_launch hregs hid hl, if_pos hk]
    rfl
  case budget => exact (State.withRegs_ready hregs _).trans (by rw [State.finish, State.nextPc_owe])
  case accepted =>
    rw [exec_skVariant_ready hregs, if_pos h, h]
    rfl
  case refused => rw [exec_skVariant_ready hregs, if_neg h, State.finish, State.nextPc_owe]
  case noSegment => exact congrArg Prod.fst ((if_neg (Classical.not_not.2 h)).trans (if_pos (by rw [hseg]; rfl)))
  case svc =>
    exact (State.withRegs_ready hregs _).trans ((if_neg (Classical.not_not.2 h)).trans (State.withGlobal_lands hp _))
  case lend => exact (State.withRegs_ready hregs _).trans (State.withGlobal_lands hp _)

end Sys2Proof.Machine
end

section
/-! SUPPORT. The retirement of a task whose successor's TCB cannot be read, and what comes at an instruction boundary of the
Stoker (16_system_state.md R273, R277; 20_translation_faults.md R311, R314, R315; 08_stoker_isa.md R176). -/
namespace Sys2Proof.Machine

/-! ### A decrement whose notification changes the walk -/

/-- A team whose one task, at TCB 0, has retired. -/
def retiredMemberTeam : Team :=
  { part := 0, launch := 0, teamNo := 0, members := [{ tcb := 0, core := 0, ent := 0 }], state := .running, stamp := 0, prio := 0,
    cluster := none, ordered := false, done := [0], admittedAt := 0, drained := [], lostImage := false }

/-- A partition whose root entry names a table outside its window, and whose notification queue lies over that entry. -/
def overlaidRoot : State := { State.reset with
  mem := [(0, 1#8), (2, 0x10#8)]
  parts := [(0, { Part.reset with pwlim := 2 ^ 17 })]
  teams := [(0, retiredMemberTeam)]
  cores := [(0, { Core.reset with task := some (0, 0) })] }

/-- The look at TCB 0 breaks isolation and freezes the team; the freeze's notification overwrites the entry, so that a second
look breaks nothing. -/
theorem tcbBreaks_overlaidRoot : (overlaidRoot.tcbLook 0 0).tcbBreaks 0 0 = false := by decide +kernel

theorem nqcnt_decrement_overlaidRoot : ((overlaidRoot.decrement 0 0).part 0).nqcnt = 1 := by decide +kernel

theorem nqcnt_notify_overlaidRoot : (((overlaidRoot.tcbLook 0 0).notify 0 4 0 0 0).part 0).nqcnt = 2 := by decide +kernel

/-- Refutes O26: the statement asks whether the look breaks isolation in the state behind it, the model in the state before
it. In `overlaidRoot` the first look does, and the notification of the freeze changes the entry that a second one would walk:
the decrement leaves one notification, and the statement says two. -/
theorem not_segmentEndsAndTaskRetirement : ¬Obligations.SegmentEndsAndTaskRetirement := by
  unfold Obligations.SegmentEndsAndTaskRetirement
  rintro ⟨-, h⟩
  obtain ⟨-, -, -, hdecrement⟩ := h overlaidRoot 0 0 (by decide)
  obtain ⟨hnotifies, -⟩ := hdecrement 0
  have hcount : bitsNat (overlaidRoot.tcbGet 0 0 0) 63 48 = 0 := by decide +kernel
  have heq : overlaidRoot.decrement 0 0 = (overlaidRoot.tcbLook 0 0).notify 0 4 0 0 0 := hnotifies hcount tcbBreaks_overlaidRoot
  have hone := nqcnt_decrement_overlaidRoot
  rw [heq, nqcnt_notify_overlaidRoot] at hone
  cases hone

/-! ### Instruction boundaries -/

section
variable {s : State}

theorem exec_interruptTake_idle (h : s.me.issues = false) : exec .interruptTake s = .next s := if_pos (by rw [h]; rfl)

theorem exec_interruptTake_issues (h : s.me.issues = true) :
    exec .interruptTake s =
      match s.me.interruptM with
      | some c => .next ((s.endWait s.cur .sk).upd fun x =>
          let y := enterM c 0 x
          { y with csr := { y.csr with mcause := BitVec.ofNat 64 (2 ^ 63 + c) }, pc := vectorOf x.csr.mtvec c true })
      | none =>
        match s.me.interruptS with
        | none => .next s
        | some 18 => .next ((s.endWait s.cur .sk).upd (enterS 18 true 0 s.my.faultInfo.1 s.my.faultInfo.2.1 s.my.faultInfo.2.2
            (s.fopOf s.cur s.my.pc)))
        | some 17 => .next ((s.endWait s.cur .sk).modCore s.cur fun k =>
            { k with ctx := enterS 17 true 0 k.throttleInfo 0 0 (s.fopOf s.cur s.my.pc) k.ctx, throttle := none })
        | some c => .next ((s.endWait s.cur .sk).upd (enterS c true 0 0 0 0 (s.fopOf s.cur s.my.pc))) := by
  show execInterruptTake s = _
  unfold execInterruptTake
  dsimp only
  rw [h]
  rfl

/-- With no M-mode interrupt, the Stoker takes the one of S-mode. -/
theorem exec_interruptTake_supervisor (h : s.me.issues = true) (hm : s.me.interruptM = none) :
    exec .interruptTake s =
      match s.me.interruptS with
      | none => .next s
      | some 18 => .next ((s.endWait s.cur .sk).upd (enterS 18 true 0 s.my.faultInfo.1 s.my.faultInfo.2.1 s.my.faultInfo.2.2
          (s.fopOf s.cur s.my.pc)))
      | some 17 => .next ((s.endWait s.cur .sk).modCore s.cur fun k =>
          { k with ctx := enterS 17 true 0 k.throttleInfo 0 0 (s.fopOf s.cur s.my.pc) k.ctx, throttle := none })
      | some c => .next ((s.endWait s.cur .sk).upd (enterS c true 0 0 0 0 (s.fopOf s.cur s.my.pc))) := by
  rw [exec_interruptTake_issues h, hm]

theorem State.overrun_iff {n : Nat} :
    s.overrun n = true ↔ s.me.task.isSome = true ∧ s.my.segCost ≠ 0 ∧ n * s.my.segCost.toNat ≤ s.my.segCount := by
  simp only [State.overrun, Bool.and_eq_true, bne_iff_ne, decide_eq_true_eq, and_assoc]

theorem exec_lateSegmentTrap_idle (h : s.my.lateDone = true ∨ s.my.mode ≠ .u ∨ s.me.issues = false) :
    exec .lateSegmentTrap s = .next s := by
  refine if_pos ?_
  rcases h with h | h | h <;> simp [h]

theorem exec_lateSegmentTrap_late (hi : s.me.issues = true) (ho : s.overrun 2 = true) (hd : s.my.lateDone = false)
    (hm : s.my.mode = .u) :
    exec .lateSegmentTrap s =
      .next (((s.endWait s.cur .sk).upd fun x => { x with lateDone := true }).takeTrapFree 30 (min s.my.segCount (2 ^ 32 - 1))) :=
  if_neg (by simp [hi, ho, hd, hm])

theorem exec_queueLowEntry_low (hi : s.me.issues = true) (hq : s.my.queueLow = true) :
    exec .queueLowEntry s = .next (s.upd fun x =>
      if x.ywm.svc && !x.ywm.qlact then
        { x with queueLow := false, yqlepc := x.pc, pc := x.yqlvec, ywm := { x.ywm with qlact := true } }
      else { x with queueLow := false }) := if_neg (by simp [hi, hq])

theorem exec_watchdogFreeze_task {t i : Nat} (ht : s.me.task = some (t, i)) :
    exec .watchdogFreeze s =
      if !s.overrun 4 || !s.me.issues then .next s
      else .next ((s.saveTeam t true).notify s.me.b.part.toNat 1 s.me.b.tcb.toNat 0 0) := by
  show execWatchdogFreeze s = _
  unfold execWatchdogFreeze
  rw [ht]

theorem exec_watchdogFreeze_idle (h : s.me.issues = false) : exec .watchdogFreeze s = .next s := by
  cases ht : s.me.task with
  | none =>
    show execWatchdogFreeze s = _
    unfold execWatchdogFreeze
    rw [ht]
  | some m => exact (exec_watchdogFreeze_task ht).trans (if_pos (by simp [h]))

/-- An interrupt that S-mode takes now is one of the five, pending and enabled, in a mode that lets it in. -/
theorem Core.interruptS_some {k : Core} {c : Nat} (h : k.interruptS = some c) :
    c ∈ [18, 17, 9, 1, 5] ∧ k.sip.getLsbD c = true ∧ k.ctx.csr.mie.getLsbD c = true ∧
      (k.ctx.mode = .u ∨ (k.ctx.mode = .s ∧ k.ctx.csr.mstatus.getLsbD 1 = true)) := by
  unfold Core.interruptS at h
  dsimp only at h
  obtain ⟨hon, hfind⟩ := Option.ite_none_right_eq_some.1 h
  have hready := List.find?_some hfind
  simp only [BitVec.getLsbD_and, Bool.and_eq_true] at hready
  simp only [Bool.or_eq_true, Bool.and_eq_true, beq_iff_eq] at hon
  exact ⟨List.mem_of_find?_eq_some hfind, hready.1.1, hready.1.2, hon⟩

end

theorem getLsbD_putBit {w : Word} {i j : Nat} {v : Bool} (hj : j < 64) :
    (putBit w i v).getLsbD j = if j = i then v else w.getLsbD j := by
  have hbit : (BitVec.ofNat 64 (2 ^ i)).getLsbD j = decide (i = j) := by
    rw [BitVec.getLsbD_ofNat, Nat.testBit_two_pow, decide_eq_true hj, Bool.true_and]
  by_cases hij : j = i
  · rw [if_pos hij]
    rw [decide_eq_true hij.symm] at hbit
    cases v <;> simp only [putBit, if_true, Bool.false_eq_true, if_false, BitVec.getLsbD_or, BitVec.getLsbD_and,
      BitVec.getLsbD_not, hbit] <;> simp
  · cases v <;> simp only [putBit, if_true, Bool.false_eq_true, if_false, BitVec.getLsbD_or, BitVec.getLsbD_and,
      BitVec.getLsbD_not, hbit, if_neg hij, decide_eq_false (Ne.symm hij)] <;> simp [hj]

/-- Settles O27: each boundary event by whether it is due. -/
theorem stokerBoundaries : Obligations.StokerBoundaries := by
  unfold Obligations.StokerBoundaries
  refine fun s => ⟨fun h => ⟨exec_interruptTake_idle h, if_pos (by simp [h]), exec_lateSegmentTrap_idle (.inr (.inr h)),
    exec_watchdogFreeze_idle h⟩, fun c h hm => ?machine, fun h hm => ⟨fun hs => ?none, fun hs => ?engine, fun hs => ?throttle,
    fun c hs h18 h17 => ?other⟩, rfl, fun c => Core.interruptS_some, fun hi hq hsvc hact => ?low, fun hi hq h => ?active,
    fun hi ho hd hm => exec_lateSegmentTrap_late hi ho hd hm, fun h => exec_lateSegmentTrap_idle (h.imp_right .inl),
    fun t i ht ho hi => (exec_watchdogFreeze_task ht).trans (if_neg (by simp [ho, hi])), fun n => State.overrun_iff,
    fun c => ?sip17, fun c => ?sip18⟩
  case machine => rw [exec_interruptTake_issues h, hm]
  case none => rw [exec_interruptTake_issues h, hm, hs]
  case engine => rw [exec_interruptTake_supervisor h hm, hs]; rfl
  case throttle => rw [exec_interruptTake_supervisor h hm, hs]; rfl
  case other =>
    rw [exec_interruptTake_supervisor h hm, hs]
    split
    case h_1 hc => cases hc
    case h_2 hc => exact absurd (Option.some.inj hc) h18
    case h_3 hc => exact absurd (Option.some.inj hc) h17
    case h_4 hc => rw [Option.some.inj hc]
  case low =>
    rw [exec_queueLowEntry_low hi hq]
    exact congrArg Host.Outcome.next (State.upd_congr (if_pos (by simp [hsvc, hact])))
  case active =>
    rw [exec_queueLowEntry_low hi hq]
    refine congrArg Host.Outcome.next (State.upd_congr (if_neg ?_))
    rcases h with h | h <;> simp [h]
  case sip17 => rw [Core.sip, getLsbD_putBit (by decide), if_pos rfl]
  case sip18 =>
    rw [Core.sip, getLsbD_putBit (by decide), if_neg (by decide), getLsbD_putBit (by decide), if_pos rfl]
    rfl

end Sys2Proof.Machine
end

section
/-! SUPPORT. The words of VX: what a move adds to its bundle, and the cycle that executes the bundle
(07_encoding.md R126, R129; 09_vector_isa.md R178, R184, R202). -/
namespace Sys2Proof.Machine

/-! ### Words and moves -/

theorem exec_vxWord {i : Instr} {w : VxWord} (h : vxWord i = some w) (s : State) :
    exec i s = s.vxMove w.halves w.e w.dst w.src w.dir w.stage w.idx w.op := by
  unfold vxWord at h
  split at h
  case h_58 => cases h
  all_goals
    cases h
    rfl

/-- The immediate of a word, where its source is the immediate. -/
def VxRun.immOf (r : VxRun) (w : VxWord) : BitVec 16 := if w.src == 48 then r.hws.getD (r.pos + w.halves) 0 else 0

/-- The run with a word's move in its bundle. -/
def VxRun.joined (r : VxRun) (w : VxWord) : VxRun :=
  { r with pos := r.pos + w.halves + (if w.src == 48 then 1 else 0), bundle := r.bundle ++ [w.move (r.immOf w)] }

section
variable {s : State} {r : VxRun} {e : Entry} (h : s.inVx r e)
include h

theorem exec_vxWord_run {i : Instr} {w : VxWord} (hw : vxWord i = some w) :
    exec i s =
      if w.e = 1 then s.vxCycle { e := e, r := r.joined w }
      else if 4 ≤ (r.joined w).bundle.length then
        s.vxFault { e := e, r := r } { sub := .illegalWord, acc := 2, addr := none }
      else .next (s.upd fun x => { x with vx := { x.vx with run := some (r.joined w) } }) :=
  (exec_vxWord hw s).trans (State.withVx_run h _)

/-- The control word as a move: zero to null, under its stage. -/
def controlMove (g : BitVec 4) : Move := { dst := 63, src := 50, dir := 0, idx := 0, op := 0, stage := g.toNat, imm := 0 }

/-- The end of the control word's cycle. -/
def State.controlEnd (s : State) (a : VxAt) : State := ((s.vxNext a).vxAdvance s.cur).endWait s.cur .vx

theorem exec_vxRfcl_run (d : BitVec 2) (g i : BitVec 4) (n : BitVec 3) :
    exec (.vxRfcl d g i n) s =
      if !r.bundle.isEmpty || bundleBad r.stages [controlMove g] then
        s.vxFault { e := e, r := r } { sub := .illegalWord, acc := 2, addr := none }
      else
        let u := if r.enables (controlMove g) then s.rfclCycle n.toNat else (s.meter s.cur 17 1).meter s.cur 18 s.my.vx.inUse
        .next (u.controlEnd { e := e, r := { r with pos := r.pos + 2 } }) :=
  (show execVxRfcl d g i n s = _ by rw [execVxRfcl]; exact State.withVx_run h _)

end

/-- An update of the acting context of a state with the same cores, which leaves the unit. -/
theorem State.vx_modCtx {s u : State} (hcur : u.cur = s.cur) (hcores : u.cores = s.cores) {f : Ctx → Ctx}
    (hf : ∀ x, (f x).vx = x.vx) : (u.modCtx s.cur f).my.vx = s.my.vx := by
  rw [← State.ctx_cur, State.modCtx_cur, hcur, State.ctx_modCtx, if_pos rfl, hf, State.ctx, State.core, hcores]
  rfl

theorem Ctx.vx_setFault (x : Ctx) (a : Agent) (f : FaultRec) : (x.setFault a f).vx = x.vx := rfl

theorem State.cur_faultAddr (s : State) (f : EFault) : (s.faultAddr f).2.cur = s.cur := by
  unfold State.faultAddr
  split <;> rfl

theorem State.cores_faultAddr (s : State) (f : EFault) : (s.faultAddr f).2.cores = s.cores := by
  unfold State.faultAddr
  split <;> rfl

/-- A fault that is no violation leaves the unit as it is. -/
theorem State.vx_engineFault (s : State) (a : Agent) (e : Entry) {f : EFault} (p : Nat) (hf : f.sub ≠ .violation) :
    (s.engineFault s.cur a e f p).my.vx = s.my.vx := by
  rw [State.engineFault_eq s s.cur a e p hf]
  exact State.vx_modCtx (s.cur_faultAddr f) (s.cores_faultAddr f) fun x => x.vx_setFault a _

/-- Settles O28: a word that ends no bundle by the bundle's length, and the control word by the bundle it stands in. -/
theorem vectorMoves : Obligations.VectorMoves := by
  unfold Obligations.VectorMoves
  refine fun s r e h => ⟨fun i w hw he => ⟨fun hlen => ?joins, fun hlen => ?fourth⟩, fun d g i n =>
    ⟨fun hb hbad => ⟨fun hon => ?on, fun hoff => ?off⟩, fun hb => ?alone⟩⟩
  case joins =>
    refine (exec_vxWord_run h hw).trans ((if_neg (by rw [he]; decide)).trans (if_neg ?_))
    simp only [VxRun.joined, List.length_append, List.length_singleton]
    omega
  case fourth =>
    refine (exec_vxWord_run h hw).trans ((if_neg (by rw [he]; decide)).trans (if_pos ?_))
    simp only [VxRun.joined, List.length_append, List.length_singleton]
    omega
  case on =>
    refine (exec_vxRfcl_run h d g i n).trans ((if_neg ?_).trans (congrArg (fun u : State => Host.Outcome.next (u.controlEnd _)) (if_pos hon)))
    rw [hb]
    exact Bool.eq_false_iff.1 hbad
  case off =>
    refine (exec_vxRfcl_run h d g i n).trans ((if_neg ?_).trans
      (congrArg (fun u : State => Host.Outcome.next (u.controlEnd _)) (if_neg (Bool.eq_false_iff.1 hoff))))
    rw [hb]
    exact Bool.eq_false_iff.1 hbad
  case alone =>
    refine ⟨_, (exec_vxRfcl_run h d g i n).trans (if_pos (by simp [hb])), ?_⟩
    refine (congrArg Vx.inUse (State.vx_engineFault (s.upd _) .vx e _ FaultSub.noConfusion)).trans ?_
    rw [State.my_upd]

/-! ### The cycle of a bundle -/

section
variable {s : State} {a : VxAt}

theorem State.vxCycle_bad (h : bundleBad a.r.stages a.r.bundle = true) :
    s.vxCycle a = s.vxFault a { sub := .illegalWord, acc := 2, addr := none } := if_pos h

theorem State.vxCycle_held {w : Nat × Nat} (h : bundleBad a.r.stages a.r.bundle = false)
    (hw : (a.r.bundle.filter a.r.enables).findSome? (s.my.vxHeld a) = some w) :
    s.vxCycle a = .next (s.noteWait s.cur .vx 4 (BitVec.ofNat 32 w.1) w.2 s.cur) := by
  refine (if_neg (Bool.eq_false_iff.1 h)).trans ?_
  rw [hw]

theorem State.vxCycle_free (h : bundleBad a.r.stages a.r.bundle = false)
    (hw : (a.r.bundle.filter a.r.enables).findSome? (s.my.vxHeld a) = none) :
    s.vxCycle a =
      let on := a.r.bundle.filter a.r.enables
      let e := s.sramErrors (.core s.cur .vx) s.me.b.part.toNat (on.flatMap (a.tilesRead s.cur s.my.vx))
      if e.2 then e.1.vxFault a { sub := .uncorrectable, acc := 0, addr := none } else s.vxMoves a on := by
  refine (if_neg (Bool.eq_false_iff.1 h)).trans ?_
  rw [hw]

end

/-- A cycle of one move that reads neither the M-file nor the switch queue. -/
theorem Ctx.before_one {x : Ctx} {a : VxAt} {m : Move} (h8 : 8 ≤ m.src) (h29 : m.src ≠ 29) :
    x.before a [m] = if isOperand m.dst then x.vx.write a.r m (x.source a x.vx.pop.1 m) else x.vx := by
  cases hop : isOperand m.dst <;> simp [Ctx.before, Ctx.values, Nat.not_lt.2 h8, h29, hop]

theorem Vx.after_one {v : Vx} {r : VxRun} {m : Move} {t : Lanes} (hop : isOperand m.dst = false) (ht : isTrigger m.dst = false) :
    v.after r [(m, t)] = v.write r m t := by
  by_cases h32 : 32 ≤ m.dst <;> by_cases h40 : m.dst < 40 <;> simp [Vx.after, hop, ht, h32, h40]

theorem State.sramErrors_nil (s : State) (q : Actor) (p : Nat) : (s.sramErrors q p []).2 = false := by
  simp [State.sramErrors]

theorem State.vxMoves_none {s : State} {a : VxAt} : s.vxMoves a [] = .next (s.vxEnd a s.my.vx none [] []) := rfl

/-- Settles O29: the last word of a bundle by whether the bundle is bad, waits, meets an error, or starts its triggers. -/
theorem vectorCycle : Obligations.VectorCycle := by
  unfold Obligations.VectorCycle
  intro s r e i w h hw he
  have hcycle : exec i s = s.vxCycle { e := e, r := r.joined w } := (exec_vxWord_run h hw).trans (if_pos he)
  refine ⟨fun hbad => ?bad, fun hgood => ⟨fun g hg => ?held, fun hfree her => ?error, fun hfree her =>
    ⟨fun v ring hv => ?fires, fun f hf => ?faults, fun n hn => ?frozen⟩⟩, fun hon h8 h29 => ?before, fun v hon hop ht => ?after,
    fun hon hgood => ?none⟩
  case bad => exact hcycle.trans (State.vxCycle_bad hbad)
  case held => exact hcycle.trans (State.vxCycle_held hgood hg)
  case error => exact hcycle.trans ((State.vxCycle_free hgood hfree).trans (if_pos her))
  case fires =>
    refine hcycle.trans ((State.vxCycle_free hgood hfree).trans ((if_neg (Bool.eq_false_iff.1 her)).trans ?_))
    unfold State.vxMoves
    dsimp only
    rw [hv]
  case faults =>
    refine hcycle.trans ((State.vxCycle_free hgood hfree).trans ((if_neg (Bool.eq_false_iff.1 her)).trans ?_))
    unfold State.vxMoves
    dsimp only
    rw [hf]
    rfl
  case frozen =>
    refine hcycle.trans ((State.vxCycle_free hgood hfree).trans ((if_neg (Bool.eq_false_iff.1 her)).trans ?_))
    unfold State.vxMoves
    dsimp only
    rw [hn]
  case before =>
    rw [hon]
    exact Ctx.before_one h8 h29
  case after =>
    rw [hon]
    exact Vx.after_one hop ht
  case none =>
    have hempty : (r.joined w).bundle.filter (r.joined w).enables = [] := hon
    refine hcycle.trans ((State.vxCycle_free hgood (by rw [hempty]; rfl)).trans ?_)
    dsimp only
    rw [hempty]
    exact (if_neg (Bool.eq_false_iff.1 (s.sramErrors_nil _ _))).trans State.vxMoves_none

end Sys2Proof.Machine
end

section
/-! SUPPORT. The words of MX over slots, tiles, marks and gates, and the idle gating of its sub-arrays
(10_matrix_isa.md R208, R211, R218 to R220, R225; 05_local_memory.md R93). -/
namespace Sys2Proof.Machine

/-! ### Slots and tiles -/

section
variable {s u : State} {m : MxAt} (h : s.inMx m u)
include h

theorem exec_mxClaim_at {sl : BitVec 5} (hw : m.mayWrite sl.toNat) :
    exec (.mxClaim sl) s =
      if (u.my.slot sl.toNat).state = .free then
        .next ((u.upd fun x => x.setSlot sl.toNat { u.my.slot sl.toNat with state := .claimed }).mxNext m)
      else u.mxFault m { sub := .slot, acc := 0, addr := none } 0 :=
  (State.withMx_at h _).trans (State.withSlot_ok hw _)

theorem State.mxFree_at {n : Nat} (hw : m.mayWrite n) :
    s.mxFree n =
      if (u.my.slot n).state = .free then u.mxFault m { sub := .slot, acc := 0, addr := none } 0
      else .next ((u.upd fun x => x.setSlot n { u.my.slot n with state := .free }).mxNext m) :=
  (State.withMx_at h _).trans (State.withSlot_ok hw _)

/-- A context whose valid tile of geometry c has been configured anew. -/
def Ctx.loseTile (x : Ctx) (c : Nat) (t : AccTile) : Ctx :=
  let y := x.setAcc c { t with valid := false }
  { y with mx := { y.mx with st := { y.mx.st with cfglost := y.mx.st.cfglost ||| BitVec.ofNat 8 (2 ^ c) } } }

/-- A context whose run of entry e has a geometry of its own for tile c. -/
def Ctx.bindGeom (x : Ctx) (id c : Nat) (g : Geom) : Ctx :=
  x.modEntry .mx id fun y => { y with binds := { y.binds with geoms := Tbl.put Geom.reset y.binds.geoms c g } }

theorem exec_mxTcfg_at {c : BitVec 5} (hstill : (u.my.acc c.toNat).inflight = none) (r k : BitVec 6) :
    exec (.mxTcfg c r k) s =
      let v := if (u.my.acc c.toNat).valid then u.upd fun x => x.loseTile c.toNat (u.my.acc c.toNat) else u
      let w := if m.run.isSome then v.upd fun x => x.bindGeom m.e.id c.toNat { rows := r.toNat + 1, cols := k.toNat + 1 } else v
      .next (w.mxNext m) := by
  show execMxTcfg c r k s = _
  rw [execMxTcfg, State.withMx_at h, State.withStillAcc_ok hstill]
  rfl

end

/-! ### Idle gating -/

theorem exec_subarrayIdleGate (s : State) (q : BitVec 2) :
    exec (.subarrayIdleGate q) s =
      if s.my.mx.st.gateidle ≠ 0 ∧ Tbl.get 0 s.my.mx.idle q.toNat + 16 * s.my.mx.st.gateidle.toNat ≤ s.ec then
        .next (s.upd fun y => { y with mx := { y.mx with idleGated := y.mx.idleGated ||| BitVec.ofNat 4 (2 ^ q.toNat) } })
      else .next s := by
  refine ite_of_iff (and_congr_left fun _ => not_congr ?_)
  rw [BitVec.toNat_eq]
  rfl

/-- Settles O31: each word by the state of its slot or tile, and the gate by the idle time. -/
theorem matrixSlotsAndTiles : Obligations.MatrixSlotsAndTiles := by
  unfold Obligations.MatrixSlotsAndTiles
  refine ⟨fun s q => ⟨fun hdue => ?gates, fun hdue => ?stays⟩, fun s u m h => ⟨fun sl hw => ⟨fun hf => ?claims, fun hf => ?claimFault,
    fun hf => ⟨?releases, ?releasesShort⟩, fun hf => ⟨?releaseFault, ?releaseShortFault⟩⟩, fun c => ⟨fun hstill =>
    ⟨exec_mxTanch_auto h hstill, exec_mxTanch_fixed h hstill, fun r k hrun hv => ?tcfg, fun r k hrun hv => ?tcfgRun,
      fun r k hrun hv => ?tcfgValid, fun r k hrun hv => ?tcfgValidRun⟩, exec_mxTinit h⟩, State.withMx_at h _,
    fun k => State.withMx_at h _, fun n hold hsoot => ?mark⟩⟩
  case gates => exact (exec_subarrayIdleGate s q).trans (if_pos hdue)
  case stays => exact (exec_subarrayIdleGate s q).trans (if_neg hdue)
  case claims => exact (exec_mxClaim_at h hw).trans (if_pos hf)
  case claimFault => exact (exec_mxClaim_at h hw).trans (if_neg hf)
  case releases => exact (State.mxFree_at h hw).trans (if_neg hf)
  case releasesShort => exact (State.mxFree_at h hw).trans (if_neg hf)
  case releaseFault => exact (State.mxFree_at h hw).trans (if_pos hf)
  case releaseShortFault => exact (State.mxFree_at h hw).trans (if_pos hf)
  case tcfg =>
    rw [exec_mxTcfg_at h hstill, hrun, hv]
    rfl
  case tcfgRun =>
    rw [exec_mxTcfg_at h hstill, hrun, hv]
    rfl
  case tcfgValid =>
    rw [exec_mxTcfg_at h hstill, hrun, hv]
    rfl
  case tcfgValidRun =>
    rw [exec_mxTcfg_at h hstill, hrun, hv]
    rfl
  case mark => rw [exec_mxMark_records h n hold, hsoot]; rfl

end Sys2Proof.Machine
end

section
/-! SUPPORT. The multiply-accumulate of MX and its fills: the exact sum of products in an element, the region a
multiplication writes, and the words (04_accumulators.md R67; 10_matrix_isa.md R212 to R217, R227). -/
namespace Sys2Proof.Machine

/-! ### One product added -/

/-- A signed magnitude. -/
def signedMag (g : Bool) (n : Nat) : Int := if g then -(n : Int) else n

theorem Val.floorAt_fin_up (g : Bool) (n sh : Nat) (k : Int) :
    (Val.fin g n (k + sh)).floorAt k = (signedMag g n * (2 ^ sh : Nat), false) := by
  have hle : k ≤ k + sh := by omega
  have hsh : (k + sh - k).toNat = sh := by omega
  simp only [Val.floorAt, if_pos hle, hsh, signedMag]

theorem signedMag_mod_ne (g : Bool) (n d : Nat) : decide (signedMag g n % (d : Int) ≠ 0) = (n % d != 0) := by
  rw [Bool.eq_iff_iff, bne_iff_ne, decide_eq_true_iff, ne_eq, ne_eq, ← Int.dvd_iff_emod_eq_zero, ← Nat.dvd_iff_mod_eq_zero,
    Int.ofNat_dvd_left]
  cases g <;> simp [signedMag]

theorem Val.floorAt_fin_down (g : Bool) (n sh : Nat) (d : Int) :
    (Val.fin g n d).floorAt (d + sh) =
      (signedMag g n / (2 ^ sh : Nat), decide (signedMag g n % ((2 ^ sh : Nat) : Int) ≠ 0)) := by
  cases sh with
  | zero =>
    rw [show d + ((0 : Nat) : Int) = d by omega]
    have := Val.floorAt_fin_up g n 0 d
    simpa using this
  | succ sh =>
    have hlt : ¬(d + (sh + 1 : Nat) ≤ d) := by omega
    have hsh : (d + (sh + 1 : Nat) - d).toNat = sh + 1 := by omega
    rw [signedMag_mod_ne]
    simp only [Val.floorAt, if_neg hlt, hsh, signedMag]

theorem wrap66_sub_mod (y : Int) : (wrap66 y - y) % 2 ^ 66 = 0 := by
  unfold wrap66 sextNat codeInt
  dsimp only
  split <;> omega

section
variable {x : Int} {e : Elem} {p : Int × Bool} {g : Bool} {n : Nat} {d : Int}

theorem csaAdd_fin (hp : (Val.fin g n d).floorAt (x - 48) = p) :
    csaAdd x e (.fin g n d) = { e with
      v := wrap66 (e.v + p.1), inx := e.inx || p.2, rng := e.rng || outWindow (e.v + p.1) } := by
  rw [← hp]
  rfl

theorem csaAdd_inWindow (hp : (Val.fin g n d).floorAt (x - 48) = p) (h : outWindow (e.v + p.1) = false) :
    csaAdd x e (.fin g n d) = { e with v := e.v + p.1, inx := e.inx || p.2 } := by
  rw [csaAdd_fin hp, wrap66_of_inWindow h, h, Bool.or_false]

end

theorem outWindow_false {y : Int} (hlo : -(2 ^ 65) ≤ y) (hhi : y < 2 ^ 65) : outWindow y = false := by
  rw [← Bool.not_eq_true, outWindow_iff]
  omega

/-! ### The region of a multiplication -/

theorem AccTile.el_setEl (t : AccTile) (i j a b : Nat) (e : Elem) :
    (t.setEl i j e).el a b = if 64 * a + b = 64 * i + j then e else t.el a b := Tbl.get_put ..

/-- One row of a region replaced. -/
def AccTile.mapRow (t : AccTile) (i cols : Nat) (f : Nat → Nat → Elem → Elem) : AccTile :=
  (List.range cols).foldl (fun t j => t.setEl i j (f i j (t.el i j))) t

section
variable {f : Nat → Nat → Elem → Elem} {a b : Nat}

theorem AccTile.mapRow_succ (t : AccTile) (i cols : Nat) :
    t.mapRow i (cols + 1) f = (t.mapRow i cols f).setEl i cols (f i cols ((t.mapRow i cols f).el i cols)) := by
  rw [AccTile.mapRow, List.range_succ, List.foldl_append]
  rfl

theorem AccTile.el_mapRow (t : AccTile) (i : Nat) {cols : Nat} (hb : b < 64) (hc : cols ≤ 64) :
    (t.mapRow i cols f).el a b = if a = i ∧ b < cols then f a b (t.el a b) else t.el a b := by
  induction cols generalizing a b with
  | zero => exact (if_neg fun h => Nat.not_lt_zero _ h.2).symm
  | succ cols ih =>
    have hself : (t.mapRow i cols f).el i cols = t.el i cols :=
      (ih (by omega) (Nat.le_of_succ_le hc)).trans (if_neg fun h => Nat.lt_irrefl _ h.2)
    rw [AccTile.mapRow_succ, AccTile.el_setEl, hself, ih hb (Nat.le_of_succ_le hc)]
    by_cases hkey : 64 * a + b = 64 * i + cols
    · obtain ⟨rfl, rfl⟩ : a = i ∧ b = cols := by omega
      rw [if_pos rfl, if_pos ⟨rfl, Nat.lt_succ_self _⟩]
    · rw [if_neg hkey]
      refine ite_of_iff ?_
      omega

theorem AccTile.mapRegion_eq (t : AccTile) (rows cols : Nat) :
    t.mapRegion rows cols f = (List.range rows).foldl (fun t i => t.mapRow i cols f) t := rfl

theorem AccTile.mapRegion_succ (t : AccTile) (rows cols : Nat) :
    t.mapRegion (rows + 1) cols f = (t.mapRegion rows cols f).mapRow rows cols f := by
  rw [AccTile.mapRegion_eq, List.range_succ, List.foldl_append]
  rfl

theorem AccTile.el_mapRegion (t : AccTile) {rows cols : Nat} (hb : b < 64) (hc : cols ≤ 64) :
    (t.mapRegion rows cols f).el a b = if a < rows ∧ b < cols then f a b (t.el a b) else t.el a b := by
  induction rows with
  | zero => exact (if_neg fun h => Nat.not_lt_zero _ h.1).symm
  | succ rows ih =>
    rw [AccTile.mapRegion_succ, AccTile.el_mapRow _ _ hb hc, ih]
    by_cases ha : a = rows
    · subst ha
      simp
    · rw [if_neg (fun h => ha h.1)]
      refine ite_of_iff ?_
      omega

end

theorem AccTile.mapRow_fields (t : AccTile) (i cols : Nat) (f : Nat → Nat → Elem → Elem) :
    (t.mapRow i cols f).anchor = t.anchor ∧ (t.mapRow i cols f).auto = t.auto :=
  List.foldlRecOn (motive := fun u : AccTile => u.anchor = t.anchor ∧ u.auto = t.auto) _ _ ⟨rfl, rfl⟩ fun _ h _ _ => h

theorem AccTile.mapRegion_fields (t : AccTile) (rows cols : Nat) (f : Nat → Nat → Elem → Elem) :
    (t.mapRegion rows cols f).anchor = t.anchor ∧ (t.mapRegion rows cols f).auto = t.auto :=
  List.foldlRecOn (motive := fun u : AccTile => u.anchor = t.anchor ∧ u.auto = t.auto) _ _ ⟨rfl, rfl⟩ fun u h i _ =>
    ⟨(u.mapRow_fields i cols f).1.trans h.1, (u.mapRow_fields i cols f).2.trans h.2⟩

/-- The products of an element, in ascending k. -/
def Operand.products (a b : Operand) (neg : Bool) (k0 k1 i j : Nat) : List Val :=
  (List.range (k1 - k0)).map fun k => product (a.val i (k0 + k)) (b.val j (k0 + k)) neg

/-- The tile as the accumulation finds it: under the auto rule its anchor has moved (04_accumulators.md R69). -/
def AccTile.anchoredFor (t : AccTile) (a b : Operand) (ad anch : Bool) (ra cb k0 k1 : Nat) : AccTile :=
  if ad && (t.auto || anch) then
    match autoAnchor (a.maxMag ra k0 k1) (b.maxMag cb k0 k1) with
    | some x => { t.moveAnchor x with auto := t.auto && !anch }
    | none => t
  else t

section
variable (t : AccTile) (a b : Operand) (neg ad anch : Bool) (ra cb k0 k1 : Nat)

/-- The sum that the accumulation puts in element (i, j), whose element was e. -/
def mmaEl (x : Int) (i j : Nat) (e : Elem) : Elem :=
  (((((List.range ra).map fun i => ((List.range (k1 - k0)).map (k0 + ·)).map (a.val i)).getD i []).zip
    (((List.range cb).map fun j => ((List.range (k1 - k0)).map (k0 + ·)).map (b.val j)).getD j [])).foldl
      (fun e p => csaAdd x e (product p.1 p.2 neg)) (if ad then Elem.zero else e))

theorem AccTile.mma_eq : t.mma a b neg ad anch ra cb k0 k1 =
    { (t.anchoredFor a b ad anch ra cb k0 k1).mapRegion ra cb
        (mmaEl a b neg ad ra cb k0 k1 (t.anchoredFor a b ad anch ra cb k0 k1).anchor) with valid := true, dirty := true } := rfl

variable {i j : Nat}

theorem mmaEl_eq (x : Int) (hi : i < ra) (hj : j < cb) (e : Elem) :
    mmaEl a b neg ad ra cb k0 k1 x i j e = (a.products b neg k0 k1 i j).foldl (csaAdd x) (if ad then Elem.zero else e) := by
  have hrow (o : Operand) {n r : Nat} (h : n < r) :
      ((List.range r).map fun i => ((List.range (k1 - k0)).map (k0 + ·)).map (o.val i)).getD n [] =
        (List.range (k1 - k0)).map fun k => o.val n (k0 + k) := by
    simp [List.getD, h, Function.comp_def]
  rw [mmaEl, hrow a hi, hrow b hj, List.zip_map', List.foldl_map, Operand.products, List.foldl_map]

theorem AccTile.el_mma_inside (hj64 : j < 64) (hcb : cb ≤ 64) (hi : i < ra) (hj : j < cb) :
    (t.mma a b neg ad anch ra cb k0 k1).el i j = (a.products b neg k0 k1 i j).foldl
      (csaAdd (t.anchoredFor a b ad anch ra cb k0 k1).anchor)
      (if ad then Elem.zero else (t.anchoredFor a b ad anch ra cb k0 k1).el i j) :=
  (AccTile.el_mapRegion _ hj64 hcb).trans ((if_pos ⟨hi, hj⟩).trans (mmaEl_eq a b neg ad ra cb k0 k1 _ hi hj _))

theorem AccTile.el_mma_outside (hj64 : j < 64) (hcb : cb ≤ 64) (h : ra ≤ i ∨ cb ≤ j) :
    (t.mma a b neg ad anch ra cb k0 k1).el i j = (t.anchoredFor a b ad anch ra cb k0 k1).el i j :=
  (AccTile.el_mapRegion _ hj64 hcb).trans (if_neg (by omega))

theorem AccTile.mma_fields :
    (t.mma a b neg ad anch ra cb k0 k1).anchor = (t.anchoredFor a b ad anch ra cb k0 k1).anchor ∧
      (t.mma a b neg ad anch ra cb k0 k1).auto = (t.anchoredFor a b ad anch ra cb k0 k1).auto :=
  AccTile.mapRegion_fields ..

theorem AccTile.anchoredFor_kept (h : ad = false) : t.anchoredFor a b ad anch ra cb k0 k1 = t := by
  rw [AccTile.anchoredFor, h, Bool.false_and]
  rfl

theorem AccTile.anchoredFor_auto (had : ad = true) (h : t.auto = true ∨ anch = true) :
    t.anchoredFor a b ad anch ra cb k0 k1 =
      match autoAnchor (a.maxMag ra k0 k1) (b.maxMag cb k0 k1) with
      | some x => { t.moveAnchor x with auto := t.auto && !anch }
      | none => t := if_pos (by rcases h with h | h <;> simp [had, h])

end

/-! ### The multiplication as a word -/

section
variable {s u : State} {m : MxAt} (h : s.inMx m u)
include h

/-- A slot that holds an operand of an mma. -/
def MxAt.operand (m : MxAt) (u : State) (v : BitVec 5) (bits : Nat) : Operand :=
  { sl := u.my.slot (m.e.binds.view v.toNat).slot, sh := m.e.binds.shape v.toNat, b := bits }

theorem exec_mxMma_at {c a b : BitVec 5} (n d h' : BitVec 1) (ks l : BitVec 3)
    (hra : m.mayRead (m.e.binds.view a.toNat).slot) (hrb : m.mayRead (m.e.binds.view b.toNat).slot) :
    exec (.mxMma c a b n d h' ks l) s =
      let sa := u.my.slot (m.e.binds.view a.toNat).slot
      let sb := u.my.slot (m.e.binds.view b.toNat).slot
      let cls := widthClass sa.fmt.toNat
      let bits := classBits cls
      let oa := m.operand u a bits
      let ob := m.operand u b bits
      let g := m.e.binds.geom c.toNat
      let ra := min g.rows oa.sh.rows
      let cb := min g.cols ob.sh.rows
      let k0 := ks.toNat * (384 / bits)
      let k1 := min (if l = 0 then 3072 / bits else (ks.toNat + l.toNat) * (384 / bits)) (min oa.sh.klen ob.sh.klen)
      if sa.state ≠ .filled ∨ sb.state ≠ .filled then u.mxFault m { sub := .slot, acc := 0, addr := none } 0
      else if cls ≠ widthClass sb.fmt.toNat ∨ (bits = 6 ∧ (oa.sh.rstr % 48 ≠ 0 ∨ ob.sh.rstr % 48 ≠ 0)) then
        u.mxFault m { sub := .format, acc := 0, addr := none } 0
      else if oa.beyond ra k0 k1 || ob.beyond cb k0 k1 then u.mxFault m slotFault 0
      else if u.my.fxBefore m.e.id then u.mxWait 4 c.toNat Agent.fx.code
      else u.withAcc c.toNat (d == 0) fun t =>
        .next (((u.arrayRun cls (if l = 0 then 8 - ks.toNat else l.toNat) ra cb).upd fun x =>
          x.setAcc c.toNat (t.mma oa ob (n == 1) (d == 1) (h' == 1) ra cb k0 k1)).mxNext m) :=
  (State.withMx_at h _).trans ((State.withSlot_ok hra _).trans (State.withSlot_ok hrb _))

end

/-! ### Fills -/

/-- The slot that a fill starts from. -/
def MxAt.fillStart (m : MxAt) (v : Slot) : Slot := if m.e.prog = 0 then { v with side := [] } else v

section
variable {u : State} {m : MxAt} {n a : Nat} {inW : Bool} {t : BitVec 2} {p : Place} {f : Fmt}
  {out : List (Nat × Nat) → Option Nat} {atEnd : State → State}

/-- The parts of a fill of elements of format f from address a, whose granules have the tag. -/
def State.fillParts (u : State) (m : MxAt) (n : Nat) (inW : Bool) (a : Nat) (t : BitVec 2) (tag : Nat) (f : Fmt)
    (out : List (Nat × Nat) → Option Nat) : Filled :=
  u.fillLoop out inW a tag (tagGeo tag) (geoBlock (tagGeo tag) * f.bits / 8) (transposeUnit t) m.e.prog
    (fillSpans f (tagGeo tag) 16 a 24576) 0 0 (m.fillStart (u.my.slot n))

theorem State.fillFrom_aligned (hp : (u.space inW a 1).place 0 a = .ok p) (hf : slotFmt (u.tagOf p) = some f)
    (hu : ¬(transposeUnit t ≠ 0 ∧ (tagGeo (u.tagOf p) ≠ 0 ∨ 8 * transposeUnit t % f.bits ≠ 0)))
    (ho : ¬(8 * (a % 4096) % f.bits ≠ 0 ∨ (tagGeo (u.tagOf p) ≠ 0 ∧
      (a % 4096 % (geoBlock (tagGeo (u.tagOf p)) * f.bits / 8) ≠ 0 ∨ granuleScales f (tagGeo (u.tagOf p)) ≤ a % 4096)))) :
    u.fillFrom m n inW a t out atEnd =
      match u.fillParts m n inW a t (u.tagOf p) f out with
      | .stop g own sl =>
        (((u.logBuffer inW g).upd fun x => x.setSlot n sl).meter u.cur 12
          (filledBytes (fillSpans f (tagGeo (u.tagOf p)) 16 a 24576) a own / 1024 -
            filledBytes (fillSpans f (tagGeo (u.tagOf p)) 16 a 24576) a m.e.prog / 1024)).mxFault m g own
      | .done sl =>
        .next ((atEnd (((u.mend [.slot u.cur n]).upd fun x => x.setSlot n { sl with
          state := .filled, fmt := BitVec.ofNat 5 (tagFmt (u.tagOf p)), geo := BitVec.ofNat 3 (tagGeo (u.tagOf p)) }).meter u.cur 12
            (24 - filledBytes (fillSpans f (tagGeo (u.tagOf p)) 16 a 24576) a m.e.prog / 1024))).mxNext m) := by
  unfold State.fillFrom
  dsimp only
  rw [hp]
  dsimp only
  rw [hf]
  dsimp only
  rw [if_neg hu, if_neg ho]
  rfl

theorem State.logBuffer_clean {g : EFault} (hg : g.sub ≠ .uncorrectable) : u.logBuffer inW g = u := if_neg (by simpa using hg)

end

section
variable {s u : State} {m : MxAt} (h : s.inMx m u) {sl : BitVec 5} (hw : m.mayWrite sl.toNat)
  (hs : (u.my.slot sl.toNat).state ≠ .free)
include h hw hs

theorem exec_mxFill_at (w : BitVec 1) (t g : BitVec 2) (p : BitVec 15) :
    exec (.mxFill sl w t g p) s =
      u.fillFrom m sl.toNat (w == 1) (m.addr g p.toNat) t (m.outside (w == 1)) id :=
  (State.withMx_at h _).trans ((State.withSlot_ok hw _).trans (if_neg hs))

/-- MX takes slot TAIL of ring n. -/
def State.mxTake (u : State) (n : Nat) : State :=
  u.upd fun x => x.setRing n { (u.my.ring n).take with heldMx := some (u.my.ring n).tail }

theorem exec_mxFillRing_at {t : BitVec 2} {k : BitVec 3} (hd : u.my.ringDecl.getLsbD k.toNat = true)
    (hc : (u.my.ring k.toNat).configured = true) (hh : (u.my.ring k.toNat).heldMx = none) :
    exec (.mxFillRing sl t k) s =
      if (u.my.ring k.toNat).filled = 0 then .next (u.noteRing u.cur .mx k.toNat)
      else (u.mxTake k.toNat).fillFrom m sl.toNat (u.my.ring k.toNat).inW ((u.my.ring k.toNat).slotOff (u.my.ring k.toNat).tail) t
        (fun ranges => ranges.findSome? fun p => firstOut ((u.my.ring k.toNat).slotOff (u.my.ring k.toNat).tail)
          ((u.my.ring k.toNat).slotOff (u.my.ring k.toNat).tail + (u.my.ring k.toNat).slotB) p.1 p.2)
        (fun s => s.ringReturn s.cur k.toNat .mx) := by
  show execMxFillRing sl t k s = _
  rw [execMxFillRing, State.withMx_at h]
  dsimp only
  rw [hd, Bool.not_true, if_neg Bool.false_ne_true, State.withSlot_ok hw, if_neg hs, hc, Bool.not_true,
    if_neg Bool.false_ne_true, hh]
  rw [Option.isNone_none, Bool.true_and, Option.getD_none, if_pos rfl, State.mxTake]
  refine ite_of_iff beq_iff_eq

end

theorem not_or_true {p q : Bool} (hp : p = false) (hq : q = false) : ¬(p || q) = true := by simp [hp, hq]

/-- Two operands of one width class whose rows of 6-bit elements are whole blocks. -/
theorem mmaFormats {ca cb bits ra rb : Nat} (hcls : ca = cb) (h6 : bits = 6 → ra % 48 = 0 ∧ rb % 48 = 0) :
    ¬(ca ≠ cb ∨ (bits = 6 ∧ (ra % 48 ≠ 0 ∨ rb % 48 ≠ 0))) := by
  rintro (h | ⟨h, hra | hrb⟩)
  · exact h hcls
  · exact hra (h6 h).1
  · exact hrb (h6 h).2

/-- Settles O32: the word by its operands' slots, the tile inside and outside the region, one product by its kind, and the
fills by where their loop ends. -/
theorem matrixMultiplyAndMatrixFills : Obligations.MatrixMultiplyAndMatrixFills := by
  unfold Obligations.MatrixMultiplyAndMatrixFills
  refine ⟨fun s u m c a b n d h' ks l h => ?word, fun t a b neg ad anch ra cb k0 k1 hra hcb => ?tile, fun x e => ?product,
    fun s u m sl h hw hs => ?fills⟩
  case word =>
    dsimp only
    intro hra hrb
    have hword := exec_mxMma_at h n d h' ks l hra hrb (c := c)
    refine ⟨fun ha hb hcls h6 hba hbb hfx hfly hv => ?runs, fun ha hb hcls h6 hba hbb hfx => ?waits, fun hs => ?slot,
      fun ha hb hcls => ?format⟩
    case runs =>
      exact hword.trans ((if_neg (not_or.2 ⟨Classical.not_not.2 ha, Classical.not_not.2 hb⟩)).trans ((if_neg (mmaFormats hcls h6)).trans
        ((if_neg (not_or_true hba hbb)).trans ((if_neg (Bool.eq_false_iff.1 hfx)).trans
          (State.withAcc_ok hfly (fun hd => hv (beq_iff_eq.1 hd)) _)))))
    case waits =>
      exact hword.trans ((if_neg (not_or.2 ⟨Classical.not_not.2 ha, Classical.not_not.2 hb⟩)).trans ((if_neg (mmaFormats hcls h6)).trans
        ((if_neg (not_or_true hba hbb)).trans (if_pos hfx))))
    case slot => exact hword.trans (if_pos hs)
    case format =>
      exact hword.trans ((if_neg (not_or.2 ⟨Classical.not_not.2 ha, Classical.not_not.2 hb⟩)).trans (if_pos (.inl hcls)))
  case tile =>
    have hanchor := (t.mma_fields a b neg ad anch ra cb k0 k1).1
    have hauto := (t.mma_fields a b neg ad anch ra cb k0 k1).2
    refine ⟨rfl, rfl, fun i j hi hj had => ?fresh, fun had => ⟨?anchor, ?auto, fun i j hi hj => ?inside, fun i j hi hj hout => ?outside⟩,
      fun had hauto' => ?moved⟩
    case fresh => rw [t.el_mma_inside a b neg ad anch ra cb k0 k1 (by omega) hcb hi hj, hanchor, if_pos had]; rfl
    case anchor => rw [hanchor, t.anchoredFor_kept a b ad anch ra cb k0 k1 had]
    case auto => rw [hauto, t.anchoredFor_kept a b ad anch ra cb k0 k1 had]
    case inside =>
      rw [t.el_mma_inside a b neg ad anch ra cb k0 k1 (by omega) hcb hi hj, t.anchoredFor_kept a b ad anch ra cb k0 k1 had,
        if_neg (Bool.eq_false_iff.1 had)]
      rfl
    case outside =>
      rw [t.el_mma_outside a b neg ad anch ra cb k0 k1 hj hcb hout, t.anchoredFor_kept a b ad anch ra cb k0 k1 had]
    case moved =>
      rw [hanchor, hauto, t.anchoredFor_auto a b ad anch ra cb k0 k1 had hauto']
      cases autoAnchor (a.maxMag ra k0 k1) (b.maxMag cb k0 k1) with
      | none => exact ⟨rfl, rfl⟩
      | some x => exact ⟨AccTile.anchor_moveAnchor .., rfl⟩
  case product =>
    refine ⟨fun q => rfl, rfl, rfl, fun g n d => ⟨fun sh y hd hy => ⟨fun hlo hhi => ?up, fun hout => ?wraps⟩,
      fun sh y hd hy hlo hhi => ?down⟩⟩
    case up =>
      subst hd
      have hp := Val.floorAt_fin_up g n sh (x - 48)
      have hyp : y = e.v + signedMag g n * (2 ^ sh : Nat) := hy
      rw [csaAdd_inWindow hp (by rw [← hyp]; exact outWindow_false hlo hhi), ← hyp, Bool.or_false]
    case wraps =>
      subst hd
      have hp := Val.floorAt_fin_up g n sh (x - 48)
      have hyp : y = e.v + signedMag g n * (2 ^ sh : Nat) := hy
      rw [csaAdd_fin hp, ← hyp, outWindow_iff.2 hout]
      exact ⟨Bool.or_true _, wrap66_sub_mod y⟩
    case down =>
      have hp := Val.floorAt_fin_down g n sh d
      rw [hd] at hp
      have hyp : y = e.v + signedMag g n / (2 ^ sh : Nat) := hy
      rw [csaAdd_inWindow hp (by rw [← hyp]; exact outWindow_false hlo hhi), ← hyp]
      rfl
  case fills =>
    refine ⟨fun w t g p q f v hp hf hu ho => ⟨fun hout => ?done, fun e own hout hsub => ?stops⟩,
      fun t k q f v hd hc hh hfull hp hf hu ho hout => ?ring, fun t k hd hc hh hempty => ?empty⟩
    case done =>
      have hparts : u.fillParts m sl.toNat (w == 1) (m.addr g p.toNat) t (u.tagOf q) f (m.outside (w == 1)) = .done v := hout
      rw [exec_mxFill_at h hw hs, State.fillFrom_aligned hp hf hu ho, hparts]
      rfl
    case stops =>
      have hparts : u.fillParts m sl.toNat (w == 1) (m.addr g p.toNat) t (u.tagOf q) f (m.outside (w == 1)) = .stop e own v := hout
      rw [exec_mxFill_at h hw hs, State.fillFrom_aligned hp hf hu ho, hparts]
      dsimp only
      rw [State.logBuffer_clean hsub]
    case ring =>
      have hparts : (u.mxTake k.toNat).fillParts m sl.toNat (u.my.ring k.toNat).inW
          ((u.my.ring k.toNat).slotOff (u.my.ring k.toNat).tail) t ((u.mxTake k.toNat).tagOf q) f
          (fun l => l.findSome? fun p => firstOut ((u.my.ring k.toNat).slotOff (u.my.ring k.toNat).tail)
            ((u.my.ring k.toNat).slotOff (u.my.ring k.toNat).tail + (u.my.ring k.toNat).slotB) p.1 p.2) = .done v := hout
      refine (exec_mxFillRing_at h hw hs hd hc hh).trans ((if_neg hfull).trans
        ((State.fillFrom_aligned (u := u.mxTake k.toNat) (a := (u.my.ring k.toNat).slotOff (u.my.ring k.toNat).tail)
          hp hf hu ho).trans ?_))
      rw [hparts]
      dsimp only
      rw [State.cur_meter, State.upd_cur, State.cur_mend]
      rfl
    case empty => exact (exec_mxFillRing_at h hw hs hd hc hh).trans (if_pos hempty)

end Sys2Proof.Machine
end

section
/-! SUPPORT. The words of MX that resolve, compare, spill and reload a tile (10_matrix_isa.md R221 to R223). -/
namespace Sys2Proof.Machine

/-- An M-file tile of an awake cluster that VX does not hold is not waited for. -/
theorem mfile_ready {b : Bool} {o : Option Agent} (hw : b = true) (hfly : o ≠ some .vx) : ¬(!b || o == some .vx) = true := by
  simp [hw, hfly]

/-- Settles O33: each word by the validity of its tile, its operand's alignment and where its loop ends. -/
theorem matrixResolves : Obligations.MatrixResolves := by
  unfold Obligations.MatrixResolves
  intro s u m c h
  dsimp only
  intro hfly
  refine ⟨fun f md n d hv hw hd => ?mfile, fun f md n k p v hv => ⟨fun ha => ?abufMisaligned, fun ha hout => ?abufDone,
    fun e i ha hout => ?abufStops⟩, fun md n hv => ?self, fun b r p k q hv hb hbv => ?compare,
    fun r p k st q f hv hp hf ho hn hwin hbad => ?threshold, fun k st => ⟨fun ha => ⟨fun hv => ?spillMisaligned, ?reloadMisaligned⟩,
    fun v ha hv => ⟨fun hout => ?spillDone, fun f o hout => ?spillStops⟩,
    fun t' ha => ⟨fun hgot => ?reloadDone, fun f o hgot hsub => ?reloadStops⟩⟩⟩
  case mfile =>
    show execMxResolveMfile c f md n d s = _
    rw [execMxResolveMfile, State.withMx_at h, State.withAcc_ok hfly (fun _ => hv), if_neg (mfile_ready hw hd)]
    rfl
  case abufMisaligned =>
    show execMxResolveAbuf c f md n k p s = _
    rw [execMxResolveAbuf, State.withMx_at h, State.withAcc_ok hfly (fun _ => hv)]
    exact if_pos ha
  case abufDone =>
    show execMxResolveAbuf c f md n k p s = _
    rw [execMxResolveAbuf, State.withMx_at h, State.withAcc_ok hfly (fun _ => hv)]
    dsimp only
    rw [if_neg (Classical.not_not.2 ha), hout]
    rfl
  case abufStops =>
    show execMxResolveAbuf c f md n k p s = _
    rw [execMxResolveAbuf, State.withMx_at h, State.withAcc_ok hfly (fun _ => hv)]
    dsimp only
    rw [if_neg (Classical.not_not.2 ha), hout]
  case self =>
    show execMxResolveSelf c md n s = _
    rw [execMxResolveSelf, State.withMx_at h, State.withAcc_ok hfly (fun _ => hv)]
    rfl
  case compare =>
    show execMxTcmp c b r p k q s = _
    rw [execMxTcmp, State.withMx_at h, State.withAcc_ok hfly (fun _ => hv), State.withAcc_ok hb (fun _ => hbv)]
    rfl
  case threshold =>
    show execMxTcmpThreshold c r p k st s = _
    rw [execMxTcmpThreshold, State.withMx_at h, State.withAcc_ok hfly (fun _ => hv)]
    dsimp only
    rw [hp]
    dsimp only
    rw [hf]
    dsimp only
    rw [if_neg (Classical.not_not.2 ho), if_neg (Nat.not_lt.2 hn), State.withWindow_in hwin, if_neg (Bool.eq_false_iff.1 hbad)]
    rfl
  case spillMisaligned =>
    show execMxSpill c k st s = _
    rw [execMxSpill, State.withMx_at h, State.withAcc_ok hfly (fun _ => hv)]
    exact if_pos ha
  case reloadMisaligned =>
    show execMxReload c k st s = _
    rw [execMxReload, State.withMx_at h, State.withAcc_ok hfly Bool.noConfusion]
    exact if_pos ha
  case spillDone =>
    show execMxSpill c k st s = _
    rw [execMxSpill, State.withMx_at h, State.withAcc_ok hfly (fun _ => hv)]
    dsimp only
    rw [if_neg (Classical.not_not.2 ha), hout]
    rfl
  case spillStops =>
    show execMxSpill c k st s = _
    rw [execMxSpill, State.withMx_at h, State.withAcc_ok hfly (fun _ => hv)]
    dsimp only
    rw [if_neg (Classical.not_not.2 ha), hout]
  case reloadDone =>
    show execMxReload c k st s = _
    rw [execMxReload, State.withMx_at h, State.withAcc_ok hfly Bool.noConfusion]
    dsimp only
    rw [if_neg (Classical.not_not.2 ha), hgot]
    rfl
  case reloadStops =>
    show execMxReload c k st s = _
    rw [execMxReload, State.withMx_at h, State.withAcc_ok hfly Bool.noConfusion]
    dsimp only
    rw [if_neg (Classical.not_not.2 ha), hgot]
    dsimp only
    rw [State.logBuffer_clean hsub]

end Sys2Proof.Machine
end

section
/-! SUPPORT. The copy engine: what its commands do with their records (11_data_engines_isa.md R232 to R238). -/
namespace Sys2Proof.Machine

theorem State.cur_endWaitOf (s : State) (c : Nat) (a : Agent) (flag : Nat) : (s.endWaitOf c a flag).cur = s.cur :=
  (s.keepsFlue_endWaitOf c a flag).1

theorem Cmd.isRecord_of_ne {cmd : Cmd} {f g : Nat} (h : cmd.isRecord f = true) (hg : f ≠ g) : cmd.isRecord g = false := by
  cases cmd with
  | record k off => exact beq_eq_false_iff_ne.2 fun hk => hg ((beq_iff_eq.1 h).symm.trans hk)
  | _ => cases h

/-! ### Reading a record leaves the state the job began in -/

theorem Job.s0_once (j : Job) (q mem unit : Nat) : (j.once q mem unit).2.s0 = j.s0 := by
  unfold Job.once
  split
  · rfl
  · rfl

theorem Job.s0_unit (j : Job) (p : Place) : (j.unit p).s0 = j.s0 := by
  cases p with
  | abuf d o => exact j.s0_once 24 (8 * d) (o / 64)
  | wbuf d o => exact j.s0_once 24 (8 * d + 2) (o / 64)
  | _ => rfl

theorem Job.s0_readBuf {j i : Job} {t : Typed} {a n : Nat} {v : List Byte × Nat} (h : j.readBuf t a n = .ok v i) :
    i.s0 = j.s0 := by
  unfold Job.readBuf at h
  split at h
  case h_1 => cases h
  case h_2 p _ =>
    dsimp only at h
    split at h
    case isTrue => cases h
    case isFalse =>
      cases h
      exact j.s0_unit p

theorem Job.s0_read {first : Nat} : ∀ (fuel : Nat) {o n : Nat} {j i : Job} {v : List (Byte × Nat)},
    j.read first (.a o) fuel n = .ok v i → i.s0 = j.s0
  | 0, _, _, _, _, _, h => by
    cases h
    rfl
  | fuel + 1, o, n, j, i, v, h => by
    unfold Job.read at h
    split at h
    case isTrue =>
      cases h
      rfl
    case isFalse =>
      obtain ⟨chunk, j₁, hchunk, hrest⟩ := Got.bind_ok h
      obtain ⟨rest, j₂, hread, hdone⟩ := Got.bind_ok hrest
      cases hdone
      exact (Job.s0_read fuel hread).trans (Job.s0_readBuf hchunk)

/-- The job that has read its record began in the state that its engine's wait had left. -/
theorem State.starts_s0 {s : State} {a : Agent} {f : Nat} {e : Entry} {j : Job} {r : List Byte} (h : s.starts a f e j r) :
    j.s0 = s.endWaitOf s.cur a 5 := by
  obtain ⟨-, -, i, hbytes, rfl⟩ := h
  obtain ⟨v, i', hread, hdone⟩ := Got.bind_ok hbytes
  cases hdone
  exact Job.s0_read 64 hread

/-! ### Starting a copy -/

section
variable {s : State} {e : Entry}

theorem State.startCopy_waits (h : s.mayStart .cx e) (hpass : (s.endWaitOf s.cur .cx 5).mayPass s.cur e = false)
    {want : Cmd → Bool} (hw : want e.cmd = true) (k : Entry → Job → List Byte → Res) :
    s.startCopy want k = .next (s.endWaitOf s.cur .cx 5) := by
  rw [State.startCopy, State.startEntry_ready h hw, State.cur_endWaitOf, if_neg (Bool.eq_false_iff.1 hpass)]

variable {f : Nat} {j : Job} {r : List Byte}

theorem State.startCopy_record (h : s.starts .cx f e j r) (hpass : (s.endWaitOf s.cur .cx 5).mayPass s.cur e = true)
    {want : Cmd → Bool} (hw : want e.cmd = true) (k : Entry → Job → List Byte → Res) : s.startCopy want k = k e j r := by
  rw [State.startCopy, State.startEntry_ready h.1 hw, State.cur_endWaitOf, if_pos hpass, State.withCmdRecord_ok h.2.2]

/-- The commands that `startCopy` starts, by their number. -/
theorem exec_copy_waits {i : Instr}
    (hi : (f, i) ∈ [(0, Instr.cxCopyStart), (1, .cxCopyStart), (2, .cxPeerStart), (3, .cxFillStart), (4, .cxRingStart)])
    (h : s.mayStart .cx e) (hcmd : e.cmd.isRecord f = true)
    (hpass : (s.endWaitOf s.cur .cx 5).mayPass s.cur e = false) : exec i s = .next (s.endWaitOf s.cur .cx 5) := by
  simp only [List.mem_cons, Prod.mk.injEq, List.not_mem_nil, or_false] at hi
  obtain ⟨rfl, rfl⟩ | ⟨rfl, rfl⟩ | ⟨rfl, rfl⟩ | ⟨rfl, rfl⟩ | ⟨rfl, rfl⟩ := hi
  · exact State.startCopy_waits h hpass (want := fun c => c.isRecord 0 || c.isRecord 1) (by rw [hcmd, Bool.true_or]) _
  · exact State.startCopy_waits h hpass (want := fun c => c.isRecord 0 || c.isRecord 1) (by rw [hcmd, Bool.or_true]) _
  all_goals exact State.startCopy_waits h hpass hcmd _

theorem exec_cxCopyStart_record (hf : f ≤ 1) (h : s.starts .cx f e j r)
    (hpass : (s.endWaitOf s.cur .cx 5).mayPass s.cur e = true) :
    exec .cxCopyStart s =
      if !j.s.my.copyOk r f then j.badRecord e else j.move e (copyMove r (some (rplace (fld r 8 8))) f) := by
  have hcmd := h.2.1
  have hnum : (if e.cmd.isRecord 1 = true then 1 else 0) = f := by
    obtain rfl | rfl : f = 0 ∨ f = 1 := by omega
    · exact if_neg (Bool.eq_false_iff.1 (Cmd.isRecord_of_ne hcmd (by decide)))
    · exact if_pos hcmd
  have hwant : (e.cmd.isRecord 0 || e.cmd.isRecord 1) = true := by
    obtain rfl | rfl : f = 0 ∨ f = 1 := by omega
    · rw [hcmd, Bool.true_or]
    · rw [hcmd, Bool.or_true]
  show execCxCopyStart s = _
  rw [execCxCopyStart, State.startCopy_record h hpass hwant]
  dsimp only
  rw [hnum]

theorem Job.move_done {m : Move2} {j' : Job}
    (h : j.moveRows m (m.rows + 1) (e.prog / 2 ^ 32 % 2 ^ 31) (e.prog % 2 ^ 32) = .done j') :
    j.move e m = .next (j'.ended e) := by
  rw [Job.move, h]
  rfl

theorem Job.move_stop {m : Move2} {flt : EFault} {row k : Nat} {j' : Job}
    (h : j.moveRows m (m.rows + 1) (e.prog / 2 ^ 32 % 2 ^ 31) (e.prog % 2 ^ 32) = .stop flt row k j') :
    j.move e m = j'.stopKeep e flt (row * 2 ^ 32 + k) (row * 2 ^ 32 + k) (j'.moveLeft e m row k) := by
  rw [Job.move, h]

end

/-! ### Filling a slot waits for the older fills of its ring -/

theorem State.ready_filled_waits {v : State} {c id m n : Nat} (h : v.olderFills c id (.filled m n) = true) (l : List Todo) :
    v.ready c id (.filled m n :: l) = [] :=
  List.takeWhile_cons_of_neg (by simp [h])

theorem State.ready_filled {v : State} {c id m n : Nat} (h : v.olderFills c id (.filled m n) = false) :
    v.ready c id [.filled m n] = [.filled m n] :=
  List.takeWhile_cons_of_pos (by simp [h])

/-- A slot that is taken already, or a ring with a free slot, is not waited for. -/
theorem slot_ready {taken : Bool} {free : Nat} (h : taken = true ∨ free ≠ 0) : ¬(!taken && free == 0) = true := by
  obtain rfl | h := h
  · exact Bool.false_ne_true
  · simp [h]

/-- Settles O34: each command by whether an older copy holds it back, by its record, and by where its loop ends. -/
theorem copyEngine : Obligations.CopyEngine := by
  unfold Obligations.CopyEngine
  intro s e j r
  dsimp only
  refine ⟨fun f i hi h hcmd hpass => exec_copy_waits hi h hcmd hpass, fun f hf h hpass => ?copy, fun h hpass => ?peer,
    fun h hpass => ?fill, fun h hpass => ?ring, fun v c m n => rfl, fun v c id t l ht => ?older, fun h => ?pretranslate,
    fun h => ?flush⟩
  case copy =>
    have hexec := exec_cxCopyStart_record hf h hpass
    refine ⟨fun hok => ?_, fun hok => hexec.trans (if_pos (by rw [hok]; rfl))⟩
    have hmove := hexec.trans (if_neg (by rw [hok]; exact Bool.false_ne_true))
    exact ⟨fun j' hd => hmove.trans (Job.move_done hd), fun flt row k j' hd => hmove.trans (Job.move_stop hd)⟩
  case peer =>
    have hexec : exec .cxPeerStart s =
        if !peerOk r then j.badRecord e else j.move e (copyMove r (some (rplace (fld r 8 8))) 2) :=
      State.startCopy_record h hpass h.2.1 _
    refine ⟨fun hok => ?_, fun hok => hexec.trans (if_pos (by rw [hok]; rfl))⟩
    have hmove := hexec.trans (if_neg (by rw [hok]; exact Bool.false_ne_true))
    exact ⟨fun j' hd => hmove.trans (Job.move_done hd), fun flt row k j' hd => hmove.trans (Job.move_stop hd)⟩
  case fill =>
    have hexec : exec .cxFillStart s = if !fillOk r then j.badRecord e else j.move e (copyMove r none 3) :=
      State.startCopy_record h hpass h.2.1 _
    refine ⟨fun hok => ?_, fun hok => hexec.trans (if_pos (by rw [hok]; rfl))⟩
    have hmove := hexec.trans (if_neg (by rw [hok]; exact Bool.false_ne_true))
    exact ⟨fun j' hd => hmove.trans (Job.move_done hd), fun flt row k j' hd => hmove.trans (Job.move_stop hd)⟩
  case ring =>
    have hexec : exec .cxRingStart s = _ := State.startCopy_record h hpass h.2.1 _
    refine ⟨fun hok => hexec.trans (if_pos (by rw [hok]; rfl)), fun hok hring => ?refused, fun hok hconf hprod =>
      ⟨fun hlen => ?long, fun hlen ht hfree => ?full, fun hlen ht => ⟨fun j' hd => ?done, fun flt row k j' hd => ?stops⟩⟩⟩
    all_goals
      have hgo := hexec.trans (if_neg (by rw [hok]; exact Bool.false_ne_true))
    case refused =>
      refine hgo.trans (if_pos (hring.imp_left fun hc => ?_))
      rw [hc]
      rfl
    all_goals
      have hgo' := hgo.trans (if_neg (not_or.2 ⟨by rw [hconf]; exact Bool.false_ne_true, Classical.not_not.2 hprod⟩))
    case long => exact hgo'.trans (if_pos hlen)
    case full =>
      refine hgo'.trans ((if_neg (Nat.not_lt.2 hlen)).trans ((if_pos ?_).trans ?_))
      · rw [ht, hfree]
        rfl
      · rw [State.starts_s0 h]
    all_goals
      have hmove := hgo'.trans ((if_neg (Nat.not_lt.2 hlen)).trans (if_neg (slot_ready ht)))
    case done =>
      rw [hmove]
      dsimp only
      rw [hd]
      rfl
    case stops =>
      rw [hmove]
      dsimp only
      rw [hd]
  case older =>
    subst ht
    exact ⟨fun ho => State.ready_filled_waits ho l, State.ready_filled⟩
  case pretranslate =>
    change (_ → execCxPretrStart s = _) ∧ (_ → execCxPretrStart s = _)
    rw [execCxPretrStart, State.startEntry_record h h.2.1]
    exact ⟨fun hok => if_neg (by rw [hok]; exact Bool.false_ne_true), fun hok => if_pos (by rw [hok]; rfl)⟩
  case flush =>
    change (_ → execCxFlushStart s = _) ∧ (_ → execCxFlushStart s = _)
    rw [execCxFlushStart, State.startEntry_record h h.2.1]
    exact ⟨fun hok => if_neg (by rw [hok]; exact Bool.false_ne_true), fun hok => if_pos (by rw [hok]; rfl)⟩

end Sys2Proof.Machine
end

section
/-! SUPPORT. The gather engine and the Flue engine: what their commands do with their records (11_data_engines_isa.md R239
to R246). -/
namespace Sys2Proof.Machine

/-! ### The gather engine -/

section
variable {s : State} {f : Nat} {e : Entry} {j : Job} {r : List Byte}

theorem State.startGx_record (h : s.starts .gx f e j r) (k : Job → Entry → GxRec → Res) :
    s.startGx f k =
      if !gxOk r f then j.badRecord e else if (gxRec r f).nidx = 0 then j.finish e else k j e (gxRec r f) :=
  State.startEntry_record h h.2.1 fun _ e j r =>
    if !gxOk r f then j.badRecord e else if fld r 20 4 = 0 then j.finish e else k j e (gxRec r f)

theorem Job.gxRun_next {g : GxRec} {step : Job → Nat → Gx} {j' : Job} {n : Nat}
    (h : gxLoop step g.nidx (g.nidx + 1) e.prog j = (.next j', n)) (low : Nat → Nat) :
    j.gxRun e g low step = .next (j'.ended e) := by
  rw [Job.gxRun, h]
  rfl

theorem Job.gxRun_stop {g : GxRec} {step : Job → Nat → Gx} {flt : EFault} {p : Nat} {j' : Job} {n : Nat}
    (h : gxLoop step g.nidx (g.nidx + 1) e.prog j = (.stop flt p j', n)) (low : Nat → Nat) :
    j.gxRun e g low step = j'.stopKeep e flt p n (g.left e (low n) n) := by
  rw [Job.gxRun, h]

/-- A gather copies row `x` of the table for index number i. -/
def gatherStep (g : GxRec) (j : Job) (i : Nat) : Gx :=
  j.gxIndex g i fun x j =>
    (j.readBytes i (g.table.shift (x * g.rowb)) g.rowb).gx i fun row j =>
      (j.writeBytes (g.dst.shift (i * g.rowb)) row).gx i fun _ j => .next j

/-- What a GX command whose destination must be `al`-aligned does with its record: `step` on each of its indices. -/
def Job.gxCommand (j : Job) (e : Entry) (r : List Byte) (f al : Nat) (low : Nat → Nat) (step : Job → Nat → Gx) : Res :=
  if !gxOk r f then j.badRecord e
  else if (gxRec r f).nidx = 0 then j.finish e
  else if (gxRec r f).dst.addr % al ≠ 0 then
    j.stopAt e { sub := .misaligned, acc := 1, addr := some (gxRec r f).dst.addr } 0 e.prog
  else j.gxRun e (gxRec r f) low step

theorem Job.gxCommand_cases (j : Job) (e : Entry) (r : List Byte) (f al : Nat) (low : Nat → Nat) (step : Job → Nat → Gx) :
    (gxOk r f = false → j.gxCommand e r f al low step = j.stopAt e { sub := .record, acc := 0, addr := none } 0 0) ∧
    (gxOk r f = true → (gxRec r f).nidx = 0 → j.gxCommand e r f al low step = .next (j.ended e)) ∧
    (gxOk r f = true → (gxRec r f).nidx ≠ 0 → (gxRec r f).dst.addr % al ≠ 0 →
      j.gxCommand e r f al low step =
        j.stopAt e { sub := .misaligned, acc := 1, addr := some (gxRec r f).dst.addr } 0 e.prog) ∧
    (gxOk r f = true → (gxRec r f).nidx ≠ 0 → (gxRec r f).dst.addr % al = 0 →
      j.gxCommand e r f al low step = j.gxRun e (gxRec r f) low step) := by
  unfold Job.gxCommand
  refine ⟨fun hok => if_pos (by rw [hok]; rfl), fun hok hn => ?_, fun hok hn hal => ?_, fun hok hn hal => ?_⟩
  all_goals rw [hok, Bool.not_true, if_neg Bool.false_ne_true]
  · exact if_pos hn
  · rw [if_neg hn, if_pos hal]
  · rw [if_neg hn, if_neg (Classical.not_not.2 hal)]

theorem exec_gxGatherStart (h : s.starts .gx 0 e j r) :
    exec .gxGatherStart s = j.gxCommand e r 0 1 (fun i => i * (gxRec r 0).rowb) (gatherStep (gxRec r 0)) := by
  show execGxGatherStart s = _
  rw [execGxGatherStart, State.startGx_record h, Job.gxCommand, if_neg (c := (gxRec r 0).dst.addr % 1 ≠ 0) (Classical.not_not.2 (Nat.mod_one _))]
  rfl

theorem exec_gxBagStart (h : s.starts .gx 1 e j r) :
    exec .gxBagStart s =
      j.gxCommand e r 1 4096 (fun i => rawOff (i / (gxRec r 1).bag * j.bagWidth (gxRec r 1))) (bagStep (gxRec r 1)) := by
  show execGxBagStart s = _
  rw [execGxBagStart, State.startGx_record h]
  rfl

theorem exec_gxScaddStart (h : s.starts .gx 2 e j r) :
    exec .gxScaddStart s = j.gxCommand e r 2 4096 (fun _ => 0) (scaddStep (gxRec r 2)) := by
  show execGxScaddStart s = _
  rw [execGxScaddStart, State.startGx_record h]
  rfl

theorem exec_gxCountStart (h : s.starts .gx 3 e j r) :
    exec .gxCountStart s = j.gxCommand e r 3 4 (fun _ => 0) (countStep (gxRec r 3)) := by
  show execGxCountStart s = _
  rw [execGxCountStart, State.startGx_record h]
  rfl

end

/-! ### The Flue engine -/

/-- An uncorrectable error in the weight slot stops a batch whose rows have been read. -/
theorem Job.fxBatch_weights {k k' : Job} {p : FxPass} {e0 n : Nat} {rows : List (Nat × List Val)}
    (h : (k.readBytes e0 (p.edges.shift (8 * e0)) (8 * n)).bind (fun bs k =>
      k.fxRows p e0 ((List.range n).map fun i => (fld bs (8 * i) 4, fld bs (8 * i + 4) 4))) = .ok rows k')
    (hbad : (k'.s.sramErrors (.core k'.c .fx) (k'.s.core k'.c).b.part.toNat [.slot k'.c p.slot]).2 = true) :
    k.fxBatch p e0 n = .stop { sub := .uncorrectable, acc := 0, addr := none }
      { k' with s := (k'.s.sramErrors (.core k'.c .fx) (k'.s.core k'.c).b.part.toNat [.slot k'.c p.slot]).1 } := by
  obtain ⟨bs, k₁, hbytes, hrows⟩ := Got.bind_ok h
  unfold Job.fxBatch
  rw [hbytes]
  show Got.bind (Job.fxRows ..) _ = _
  rw [hrows]
  show Got.bind (Job.fxWeights ..) _ = _
  rw [Job.fxWeights]
  dsimp only
  rw [if_pos hbad]
  rfl

/-- Settles O35: each command by its record, its bindings and its alignment, and by where its loop ends. -/
theorem gatherEngineAndFlueEngine : Obligations.GatherEngineAndFlueEngine := by
  unfold Obligations.GatherEngineAndFlueEngine
  refine ⟨fun s f i step al e j r hi h1 h2 h3 h0 h => ?gather, fun s e j r => ⟨fun h => ?configure, fun h => ?pass⟩⟩
  case gather =>
    have hexec : exec i s = j.gxCommand e r f al
        (fun n => if f = 0 then n * (gxRec r f).rowb else
          if f = 1 then rawOff (n / (gxRec r f).bag * j.bagWidth (gxRec r f)) else 0) (step (gxRec r f)) := by
      simp only [List.mem_cons, Prod.mk.injEq, List.not_mem_nil, or_false] at hi
      obtain ⟨rfl, rfl, rfl⟩ | ⟨rfl, rfl, rfl⟩ | ⟨rfl, rfl, rfl⟩ | ⟨rfl, rfl, rfl⟩ := hi
      · rw [h0 rfl]
        exact exec_gxGatherStart h
      · rw [h1 rfl]
        exact exec_gxBagStart h
      · rw [h2 rfl]
        exact exec_gxScaddStart h
      · rw [h3 rfl]
        exact exec_gxCountStart h
    obtain ⟨hbad, hempty, hmis, hruns⟩ := j.gxCommand_cases e r f al (fun n => if f = 0 then n * (gxRec r f).rowb else
      if f = 1 then rawOff (n / (gxRec r f).bag * j.bagWidth (gxRec r f)) else 0) (step (gxRec r f))
    refine ⟨fun hok => hexec.trans (hbad hok), fun hok hn => hexec.trans (hempty hok hn),
      fun hok hn hal => hexec.trans (hmis hok hn hal), fun hok hn hal => ⟨fun j' n hl => ?_, fun flt p j' n hl => ?_⟩⟩
    · exact hexec.trans ((hruns hok hn hal).trans (Job.gxRun_next hl _))
    · exact hexec.trans ((hruns hok hn hal).trans (Job.gxRun_stop hl _))
  case configure =>
    exact ⟨fun hok => (exec_fxCfgStart h).trans (if_pos hok),
      fun hok => (exec_fxCfgStart h).trans (if_neg (Bool.eq_false_iff.1 hok))⟩
  case pass =>
    have hexec : ∀ t, execFxPassStart s = t → exec .fxPassStart s = t := fun t ht => ht
    dsimp only
    refine ⟨fun hok => hexec _ ?record, fun f hok hf => hexec _ ?fault, fun hok hf hm hfly => hexec _ ?waits,
      fun k e0 n rows k' hrows hbad => ⟨_, Job.fxBatch_weights hrows hbad, rfl, rfl⟩,
      fun j1 j2 f e0 hok hf hm hfly h1 h2 => hexec _ ?stops, fun j1 j2 hok hf hm hfly h1 h2 => hexec _ ?done⟩
    all_goals rw [execFxPassStart, State.startEntry_record h h.2.1]
    case record => exact if_pos (by rw [hok]; rfl)
    all_goals rw [hok, Bool.not_true, if_neg Bool.false_ne_true]; dsimp only; rw [hf]
    all_goals dsimp only
    case waits => rw [hm, if_neg Bool.false_ne_true, if_pos hfly]
    all_goals rw [hm, if_neg Bool.false_ne_true, if_neg hfly, h1]; dsimp only
    case stops => rw [h2]
    case done =>
      rw [h2]
      rfl

end Sys2Proof.Machine
end

section
/-! SUPPORT. The collective port (11_data_engines_isa.md R247 to R250) and the start of a run (07_encoding.md R122 to R125). -/
namespace Sys2Proof.Machine

/-! ### Where a command's participants may lie -/

section
variable {s : State} {c scope : Nat} {team : Bool}

theorem State.clScopeFault_outside (h : s.clDomain c scope team = false) :
    s.clScopeFault c scope team = some { sub := .record, acc := 0, addr := none } :=
  if_pos (by rw [h]; rfl)

theorem State.clScopeFault_fabric (h : s.clDomain c scope team = true) (hs : scope = 3) (hf : s.fabricUp = false) :
    s.clScopeFault c scope team = some { sub := .fabric, acc := 0, addr := none } :=
  (if_neg (by rw [h]; exact Bool.false_ne_true)).trans (if_pos ⟨hs, by rw [hf]; rfl⟩)

theorem State.clScopeFault_none (h : s.clDomain c scope team = true) (hf : scope = 3 → s.fabricUp = true) :
    s.clScopeFault c scope team = none :=
  (if_neg (by rw [h]; exact Bool.false_ne_true)).trans (if_neg fun ⟨hs, hd⟩ => by rw [hf hs] at hd; exact Bool.false_ne_true hd)

end

/-! ### Reading the participants' buffers -/

theorem State.clReads_clean {s : State} (h : s.bad = []) (d : Nat) : s.clReads d = (s, false) := by
  have hnone : ∀ g, s.clBadGranule d g = none := fun g => if_pos (by rw [h]; rfl)
  unfold State.clReads
  split
  · rfl
  · split
    · dsimp only
      rw [hnone, ite_self]
    · rfl

theorem State.clMeet_clean {s : State} (h : s.bad = []) (cores : List Nat) : s.clMeet cores = s.clComplete cores := by
  have hfold : ∀ l : List Nat, l.foldl (fun r d => ((r.1.clReads d).1, r.2 || (r.1.clReads d).2)) (s, false) = (s, false) := by
    intro l
    induction l with
    | nil => rfl
    | cons d l ih =>
      rw [List.foldl_cons, State.clReads_clean h]
      exact ih
  unfold State.clMeet
  dsimp only
  rw [hfold]
  exact if_neg Bool.false_ne_true

theorem State.clMeet_stops {s : State} {d : Nat} (h : (s.clReads d).2 = true) : s.clMeet [d] = (s.clReads d).1 :=
  if_pos (show (false || (s.clReads d).2) = true by rw [h]; rfl)

/-! ### Starting and completing -/

theorem State.startCl_record {s : State} {f : Nat} {e : Entry} {j : Job} {r : List Byte} (h : s.starts .cl f e j r) :
    (j.s.clOk j.c r f = false → s.startCl f = j.badRecord e) ∧
    (j.s.clOk j.c r f = true → (clRec f r).scope = 3 → j.s.fabricUp = false →
      s.startCl f = j.stopAt e { sub := .fabric, acc := 0, addr := none } 0 0) ∧
    (j.s.clOk j.c r f = true → ((clRec f r).scope = 3 → j.s.fabricUp = true) →
      (if (clRec f r).readsBuf (j.s.clRank j.c (clRec f r).team) then
        j.s.clRange j.c (clRec f r).reduces 0 (clRec f r).buf (clRec f r).len else none) = none →
      j.s.clRange j.c (clRec f r).reduces 1 (clRec f r).dst ((clRec f r).dstLen (j.s.participants j.c (clRec f r).team)) = none →
      s.startCl f = .next (j.s.modCtx j.c fun x =>
        let y := x.modEntry .cl e.id fun y => { y with started := true }
        { y with cl := { y.cl with record := r } })) := by
  unfold State.startCl
  rw [State.startEntry_record h h.2.1]
  dsimp only
  refine ⟨fun hok => if_pos (by rw [hok]; rfl), fun hok hs hf => ?_, fun hok hf hreads hwrites => ?_⟩
  all_goals rw [hok, Bool.not_true, if_neg Bool.false_ne_true]
  · exact if_pos ⟨hs, by rw [hf]; rfl⟩
  · rw [if_neg fun ⟨hs, hd⟩ => by rw [hf hs] at hd; exact Bool.false_ne_true hd, hreads, hwrites]
    rfl

theorem exec_clBarrierStart_at {s : State} {e : Entry} {team : Bool} {scope : Nat} (h : s.mayStart .cl e)
    (hcmd : e.cmd = .barrier team scope) :
    exec .clBarrierStart s =
      let u := s.endWaitOf s.cur .cl 5
      match u.clScopeFault u.cur scope (clTeam scope team) with
      | some f => .next (u.clFault u.cur e f 0)
      | none =>
        if (u.my.entries.any fun o => decide (o.id < e.id)) || !u.fenceDone u.cur allClasses scope then u.clWait u.cur e
        else .next (u.upd fun x => x.modEntry .cl e.id fun y => { y with started := true }) := by
  show execClBarrierStart s = _
  rw [execClBarrierStart, State.startEntry_ready h (by rw [hcmd]), hcmd] <;> rfl

theorem exec_collectiveCompletion_at {s : State} {e : Entry} (hhead : s.my.clHead = some e) (hruns : s.me.enginesRun = true)
    (hgoes : s.my.stopped .cl = false) :
    exec .collectiveCompletion s =
      let key := s.my.clKey e
      let team := clTeam key.1 key.2.1
      match s.clScopeFault s.cur key.1 team, s.clCores s.cur team with
      | some f, _ => .next (s.clFault s.cur e f 0)
      | none, none => s.clWait s.cur e
      | none, some cores =>
        if !s.clReady cores key then s.clWait s.cur e
        else if s.clAgree cores (s.my.clForm e) then .next (s.clMeet cores)
        else .next (s.clMismatch cores) := by
  show execCollectiveCompletion s = _
  rw [execCollectiveCompletion]
  dsimp only
  rw [hhead]
  dsimp only
  rw [hruns, hgoes]
  exact if_neg Bool.false_ne_true

/-- Settles O36: each start by its record and domain, and the completion by its match and its form. -/
theorem collectivePort : Obligations.CollectivePort := by
  unfold Obligations.CollectivePort
  refine fun s => ⟨fun f i e j r hi h => ?starts, fun e team scope h hcmd => ?barrier, fun e hhead hruns hgoes => ?completion⟩
  case starts =>
    have hexec : exec i s = s.startCl f := by
      simp only [List.mem_cons, Prod.mk.injEq, List.not_mem_nil, or_false] at hi
      obtain ⟨rfl, rfl⟩ | ⟨rfl, rfl⟩ | ⟨rfl, rfl⟩ | ⟨rfl, rfl⟩ := hi
      all_goals rfl
    rw [hexec]
    exact State.startCl_record h
  case barrier =>
    dsimp only
    have hexec := exec_clBarrierStart_at h hcmd
    refine ⟨fun hd => ?_, fun hd hs hf => ?_, fun hd hf hwait => ?_, fun hd hf hold hdone => ?_⟩
    · rw [hexec]
      dsimp only
      rw [State.clScopeFault_outside hd]
      rfl
    · rw [hexec]
      dsimp only
      rw [State.clScopeFault_fabric hd hs hf]
      rfl
    all_goals rw [hexec]; dsimp only; rw [State.clScopeFault_none hd hf]; dsimp only
    · refine if_pos (Bool.or_eq_true_iff.2 (hwait.imp_right fun hn => ?_))
      rw [hn]
      rfl
    · refine if_neg (not_or_true hold ?_)
      rw [hdone]
      rfl
  case completion =>
    dsimp only
    have hexec := exec_collectiveCompletion_at hhead hruns hgoes
    dsimp only at hexec
    refine ⟨fun hd => ?_, fun hd hs hf => ?_, fun hd hf => ⟨fun hnone => ?_, fun cores hcores => ⟨fun hready hform hbad => ?_,
      fun d hone hready hform hread => ?_, fun hready hform => ?_, fun hready => ?_⟩⟩⟩
    · rw [hexec, State.clScopeFault_outside hd]
    · rw [hexec, State.clScopeFault_fabric hd hs hf]
    all_goals rw [State.clScopeFault_none hd hf] at hexec
    · rw [hexec, hnone]
      rfl
    all_goals rw [hcores] at hexec; refine hexec.trans ?_; dsimp only; rw [hready]
    · refine (if_neg Bool.false_ne_true).trans ((if_pos hform).trans ?_)
      rw [State.clMeet_clean hbad]
    · subst hone
      refine (if_neg Bool.false_ne_true).trans ((if_pos hform).trans ?_)
      rw [State.clMeet_stops hread]
    · exact (if_neg Bool.false_ne_true).trans (if_neg (Bool.eq_false_iff.1 hform))
    · rfl

end Sys2Proof.Machine
end

section
/-! SUPPORT. The start of a run of VX or MX (07_encoding.md R122 to R125; 09_vector_isa.md R185; 10_matrix_isa.md R224). -/
namespace Sys2Proof.Machine

/-! ### The block and its iterations -/

section
variable {s v w : State} {c code : Nat} {a : Agent} {e : Entry} {r : RunRec} {hh body : List (BitVec 16)} {hdr : BlockHdr}
  (k : State → List (BitVec 16) → BlockHdr → Nat → State)

theorem State.startRun_badRecord (hr : r.ok = false) :
    s.startRun c a e code r k = s.runStop c a e { sub := .record, acc := 0, addr := none } 0 :=
  if_pos (by rw [hr]; rfl)

theorem State.startRun_badHeader (hr : r.ok = true) (hf : s.fetchBlock c a code 2 0 [] = .ok hh v)
    (hh' : blockHdr (a == .mx) (hh.getD 0 0) (hh.getD 1 0) = none) :
    s.startRun c a e code r k = v.runStop c a e { sub := .illegalWord, acc := 2, addr := none } 0 := by
  unfold State.startRun
  dsimp only
  rw [hr, Bool.not_true, if_neg Bool.false_ne_true, hf]
  dsimp only
  rw [hh']

/-- Iterations of a block: HDR's REPS, or the record's REPEAT. -/
def BlockHdr.count (hdr : BlockHdr) (r : RunRec) : Nat := if hdr.reps = 0 then r.repeatN else hdr.reps

theorem State.startRun_framed (hr : r.ok = true) (hf : s.fetchBlock c a code 2 0 [] = .ok hh v)
    (hh' : blockHdr (a == .mx) (hh.getD 0 0) (hh.getD 1 0) = some hdr)
    (hb : v.fetchBlock c a code hdr.length 2 [] = .ok body w) (hframed : framed (a == .mx) (hdr.length + 1) body = true) :
    s.startRun c a e code r k =
      if hdr.count r = 0 then
        .next (w.modCtx c fun x => x.modEntry a e.id fun y => { y with started := true, begun := true, complete := true })
      else
        .next (k (w.modCtx c fun x => x.modEntry a e.id fun y => { y with started := true, begun := true, complete := false })
          body hdr (hdr.count r)) := by
  unfold State.startRun
  dsimp only
  rw [hr, Bool.not_true, if_neg Bool.false_ne_true, hf]
  dsimp only
  rw [hh']
  dsimp only
  rw [hb]
  dsimp only
  rw [hframed]
  exact if_neg Bool.false_ne_true

end

/-! ### The two engines -/

/-- VX's run of a block. -/
def vxRunOf (e : Entry) (code : Nat) (body : List (BitVec 16)) (hdr : BlockHdr) (count : Nat) : VxRun :=
  { entry := e.id, hws := body, code := code, length := hdr.length, count := count,
    n := if hdr.rot then count + hdr.stages else count, stages := hdr.stages, rot := hdr.rot, k := 0, pos := 0, first := 0,
    st := 1, bundle := [] }

/-- MX's run of a block. -/
def mxRunOf (e : Entry) (code : Nat) (body : List (BitVec 16)) (hdr : BlockHdr) (count : Nat) : MxRun :=
  { entry := e.id, hws := body, code := code, length := hdr.length, n := count, k := 0, pos := 0 }

section
variable {s : State} {e : Entry} {code off : Nat} {r : RunRec}

theorem exec_vxRunStart_at (h : s.mayStart .vx e) (hcmd : e.cmd = .vxRun code off r) (hrun : s.my.vx.run = none)
    (hflight : s.my.vx.flight = []) :
    exec .vxRunStart s = (s.endWaitOf s.cur .vx 5).startRun (s.endWaitOf s.cur .vx 5).cur .vx e code r
      fun s body hdr count => s.upd fun x => { x with vx := { x.vx with run := some (vxRunOf e code body hdr count) } } := by
  show execVxRunStart s = _
  rw [execVxRunStart, hrun, hflight, Option.isSome_none, List.isEmpty_nil, Bool.not_true, Bool.or_false,
    if_neg Bool.false_ne_true, State.startEntry_ready h (by rw [hcmd]), hcmd]
  rfl

theorem exec_mxRunStart_at (h : s.mayStart .mx e) (hcmd : e.cmd = .mxRun code off r) (hrun : s.my.mx.run = none) :
    exec .mxRunStart s = (s.endWaitOf s.cur .mx 5).startRun (s.endWaitOf s.cur .mx 5).cur .mx e code r
      fun s body hdr count => s.upd fun x => { x with mx := { x.mx with run := some (mxRunOf e code body hdr count) } } := by
  show execMxRunStart s = _
  rw [execMxRunStart, hrun, Option.isSome_none, if_neg Bool.false_ne_true, State.startEntry_ready h (by rw [hcmd]), hcmd]
  rfl

end

/-- Settles O37: the record, the header, the framing, and the iterations, for each of the two engines. -/
theorem runStarts : Obligations.RunStarts := by
  unfold Obligations.RunStarts
  intro s e mx code off r
  cases mx with
  | false =>
    dsimp only
    intro h hcmd hidle
    rw [if_neg Bool.false_ne_true] at h hcmd hidle
    simp only [if_neg Bool.false_ne_true]
    obtain ⟨hrun, hflight⟩ := hidle
    have hexec := exec_vxRunStart_at h hcmd hrun hflight
    refine ⟨fun hr => hexec.trans (State.startRun_badRecord _ hr),
      fun hh v hr hf hb => hexec.trans (State.startRun_badHeader _ hr hf hb), fun hh v hdr body w hr hf hb hw hframed => ?_⟩
    have hruns := hexec.trans (State.startRun_framed _ hr hf hb hw hframed)
    exact ⟨fun hn => hruns.trans (if_pos hn), fun hn => ⟨_, hruns.trans (if_neg hn), Bool.noConfusion, fun _ x => rfl⟩⟩
  | true =>
    dsimp only
    intro h hcmd hidle
    rw [if_pos rfl] at h hcmd hidle
    simp only
    have hexec := exec_mxRunStart_at h hcmd hidle
    refine ⟨fun hr => hexec.trans (State.startRun_badRecord _ hr),
      fun hh v hr hf hb => hexec.trans (State.startRun_badHeader _ hr hf hb), fun hh v hdr body w hr hf hb hw hframed => ?_⟩
    have hruns := hexec.trans (State.startRun_framed _ hr hf hb hw hframed)
    exact ⟨fun hn => hruns.trans (if_pos hn), fun hn => ⟨_, hruns.trans (if_neg hn), fun _ x => rfl, Bool.noConfusion⟩⟩

end Sys2Proof.Machine
end

section
/-! SUPPORT. The packets of the host queues, graphs, and the registers of a queue (21_command_processor.md R321, R322, R326,
R327). -/
namespace Sys2Proof.Machine

/-! ### Packets whose fields are not as the spec has them -/

theorem nopFields_bad {d : List Nat} : (argOf d ≠ 0 ∨ (!zeroFrom d 1) = true) ↔ argOf d ≠ 0 ∨ zeroFrom d 1 = false := by
  rw [Bool.not_eq_true']

theorem signalFields_bad {d : List Nat} :
    (1 < argOf d ∨ dw d 1 % 8 ≠ 0 ∨ 2 ^ 57 ≤ dw d 1 ∨ (!zeroFrom d 3) = true) ↔
      ¬(argOf d ≤ 1 ∧ dw d 1 % 8 = 0 ∧ dw d 1 < 2 ^ 57 ∧ zeroFrom d 3 = true) := by
  simp only [Classical.not_and_iff_not_or_not, Nat.not_le, Nat.not_lt, Bool.not_eq_true', Bool.not_eq_true]

theorem invalFields_bad {d : List Nat} :
    (1 < argOf d ∨ (!zeroFrom d 2) = true) ↔ ¬(argOf d ≤ 1 ∧ zeroFrom d 2 = true) := by
  simp only [Classical.not_and_iff_not_or_not, Nat.not_le, Bool.not_eq_true', Bool.not_eq_true]

theorem predFields_bad {d : List Nat} {h : Nat} :
    (bitsNat h 47 43 ≠ 0 ∨ bitsNat h 39 32 ≠ 0 ∨ 6 ≤ bitsNat h 42 40 ∨ dw d 1 % 8 ≠ 0 ∨ 2 ^ 57 ≤ dw d 1 ∨
      (!zeroFrom d 4) = true) ↔
      ¬(bitsNat h 47 43 = 0 ∧ bitsNat h 39 32 = 0 ∧ bitsNat h 42 40 < 6 ∧ dw d 1 % 8 = 0 ∧ dw d 1 < 2 ^ 57 ∧
        zeroFrom d 4 = true) := by
  simp only [Classical.not_and_iff_not_or_not, Nat.not_lt, Bool.not_eq_true', Bool.not_eq_true]

theorem feedFields_bad {d : List Nat} :
    (dw d 1 % 64 ≠ 0 ∨ 2 ^ 57 ≤ dw d 1 ∨ bitsNat (dw d 2) 63 16 ≠ 0 ∨ (!zeroFrom d 3) = true) ↔
      ¬(dw d 1 % 64 = 0 ∧ dw d 1 < 2 ^ 57 ∧ bitsNat (dw d 2) 63 16 = 0 ∧ zeroFrom d 3 = true) := by
  simp only [Classical.not_and_iff_not_or_not, Nat.not_lt, Bool.not_eq_true', Bool.not_eq_true]

theorem graphFields_bad {d : List Nat} :
    (argOf d ≠ 0 ∨ 2 ^ 57 ≤ dw d 1 ∨ bitsNat (dw d 2) 63 12 ≠ 0 ∨ (!zeroFrom d 3) = true) ↔
      ¬(argOf d = 0 ∧ dw d 1 < 2 ^ 57 ∧ bitsNat (dw d 2) 63 12 = 0 ∧ zeroFrom d 3 = true) := by
  simp only [Classical.not_and_iff_not_or_not, Nat.not_lt, Bool.not_eq_true', Bool.not_eq_true]

theorem loopFields_bad {d : List Nat} {len : Nat} :
    (len = 0 ∨ 4095 < len ∨ bitsNat (dw d 0) 47 32 ≠ 0 ∨ dw d 1 = 0 ∨ 2 ^ 32 ≤ dw d 1 ∨ (!zeroFrom d 2) = true) ↔
      ¬(1 ≤ len ∧ len ≤ 4095 ∧ bitsNat (dw d 0) 47 32 = 0 ∧ dw d 1 ≠ 0 ∧ dw d 1 < 2 ^ 32 ∧ zeroFrom d 2 = true) := by
  simp only [Classical.not_and_iff_not_or_not, Nat.not_le, Nat.not_lt, Classical.not_not, Nat.lt_one_iff, Bool.not_eq_true', Bool.not_eq_true, ne_eq]

/-! ### Feeds -/

theorem State.feedIn_one (s : State) (id : Nat) (l : Launch) (r : List Byte) :
    s.feedIn id l [r] = (s.grateWrite l.part (l.feedSlot l.feedIn) 64 r).map fun z =>
      (z.modLaunch id fun l => { l with feedIn := l.feedIn + 1 }).eventLaunch id 10 9 := by
  show Option.map _ (Option.bind _ some) = _
  rw [Option.bind_fun_some]
  rfl

section
variable {s u : State} {p q : Nat} {st : Stream} {d : List Nat}

theorem exec_packetFeed_begins (h : s.begins p q 2 st u d) :
    exec (.packetFeed p q) s =
      let n := bitsNat (dw d 2) 15 0 + 1
      if dw d 1 % 64 ≠ 0 ∨ 2 ^ 57 ≤ dw d 1 ∨ bitsNat (dw d 2) 63 16 ≠ 0 ∨ !zeroFrom d 3 then u.stopQueue p q st 1
      else
        match u.feedTarget p (argOf d) with
        | none => u.stopQueue p q st 4
        | some (id, l) =>
          if 2 ^ l.feedK < n then u.stopQueue p q st 1
          else
            match u.grateRead p (dw d 1) (64 * n) (64 * n) with
            | none => u.stopQueue p q st 6
            | some (bs, v) =>
              if l.room n then
                match v.feedIn id l (records64 bs) with
                | some z => .next (z.passPacket p q st)
                | none => v.stopQueue p q st 6
              else .next (v.modQueue p q fun x => x.addNow st (.feed id (records64 bs))) :=
  State.withPacket_begins h _

theorem exec_packetPred_begins (h : s.begins p q 3 st u d) :
    exec (.packetPred p q) s =
      let h := dw d 0
      let na := bitsNat h 63 56
      let nb := bitsNat h 55 48
      if bitsNat h 47 43 ≠ 0 ∨ bitsNat h 39 32 ≠ 0 ∨ 6 ≤ bitsNat h 42 40 ∨ dw d 1 % 8 ≠ 0 ∨ 2 ^ 57 ≤ dw d 1 ∨ !zeroFrom d 4 then
        u.stopQueue p q st 1
      else
        match u.grateRead p (dw d 1) 8 8 with
        | none => u.stopQueue p q st 6
        | some (bs, v) =>
          let taken := predHolds (bitsNat h 42 40) (leNat bs &&& dw d 2) (dw d 3)
          if (if taken then v.badArm p q st 0 na else v.badArm p q st na nb) then v.stopQueue p q st 1
          else .next (v.modQueue p q fun x => x.pass st (armTaken taken na nb)) :=
  State.withPacket_begins h _

theorem exec_feedAppend_held {id : Nat} {recs : List (List Byte)} {l : Launch} (hruns : s.queueRuns p q = true)
    (hheld : (s.queue p q).feedHeld = some (st, id, recs)) (hl : Tbl.get? s.launches id = some l) :
    exec (.feedAppend p q) s =
      if l.room recs.length then
        match s.feedIn id l recs with
        | some z => .next ((z.modQueue p q fun x => x.mapBusy fun b => if b == .feed id recs then none else some b).passPacket p q st)
        | none => s.stopQueue p q st 6
      else .next s := by
  show execFeedAppend p q s = _
  rw [execFeedAppend, hruns, Bool.not_true, if_neg Bool.false_ne_true, hheld]
  dsimp only
  rw [hl] <;> rfl

end

/-- Settles O38: each packet by its fields, and by what its accesses answer. -/
theorem packets : Obligations.Packets := by
  unfold Obligations.Packets
  intro s u p q st d
  dsimp only
  refine ⟨fun h => ?nop, fun h => ?signal, fun h => ?inval, fun h => ?pred, fun h => ?feed,
    fun id recs l hruns hheld hl => ?append, fun id l r => s.feedIn_one id l r⟩
  case nop =>
    have hexec : exec (.packetNop p q) s = _ := State.withPacket_begins h _
    refine ⟨fun ha hz => hexec.trans (if_neg ?_), fun hbad => hexec.trans ((if_pos (nopFields_bad.2 hbad)).trans (u.stopQueue_eq ..))⟩
    rw [nopFields_bad, ha, hz]
    decide
  case signal =>
    have hexec : exec (.packetSignal p q) s = _ := State.withPacket_begins h _
    refine ⟨fun hok => hexec.trans ((if_pos (signalFields_bad.2 hok)).trans (u.stopQueue_eq ..)), fun hok hw => ?_, fun v hok hw => ?_⟩
    all_goals refine hexec.trans ((if_neg fun hbad => signalFields_bad.1 hbad hok).trans ?_); rw [hw]
    · exact u.stopQueue_eq ..
  case inval =>
    have hexec : exec (.packetInval p q) s = _ := State.withPacket_begins h _
    exact ⟨fun hok => hexec.trans ((if_pos (invalFields_bad.2 hok)).trans (u.stopQueue_eq ..)),
      fun hok => hexec.trans (if_neg fun hbad => invalFields_bad.1 hbad hok)⟩
  case pred =>
    have hexec := exec_packetPred_begins h
    refine ⟨fun hok => hexec.trans ((if_pos (predFields_bad.2 hok)).trans (u.stopQueue_eq ..)), fun hok hr => ?_,
      fun bs v hok hr => ⟨fun hbad => ?_, fun hbad => ?_⟩⟩
    all_goals refine hexec.trans ((if_neg fun hf => predFields_bad.1 hf hok).trans ?_); rw [hr]
    · exact u.stopQueue_eq ..
    · exact (if_pos hbad).trans (v.stopQueue_eq ..)
    · exact if_neg (Bool.eq_false_iff.1 hbad)
  case feed =>
    have hexec := exec_packetFeed_begins h
    refine ⟨fun hok => hexec.trans ((if_pos (feedFields_bad.2 hok)).trans (u.stopQueue_eq ..)), fun hok ht => ?_,
      fun id l hok ht => ⟨fun hn => ?_, fun hn hr => ?_,
      fun bs v hn hr => ⟨fun z hroom hf => ?_, fun hroom hf => ?_, fun hroom => ?_⟩⟩⟩
    all_goals refine hexec.trans ((if_neg fun hf => feedFields_bad.1 hf hok).trans ?_); rw [ht]
    · exact u.stopQueue_eq ..
    · exact (if_pos hn).trans (u.stopQueue_eq ..)
    all_goals refine (if_neg (Nat.not_lt.2 hn)).trans ?_; rw [hr]
    · exact u.stopQueue_eq ..
    · refine (if_pos hroom).trans ?_
      rw [hf]
    · refine (if_pos hroom).trans ?_
      rw [hf]
      exact v.stopQueue_eq ..
    · exact if_neg (Bool.eq_false_iff.1 hroom)
  case append =>
    have hexec := exec_feedAppend_held hruns hheld hl
    refine ⟨fun z hroom hf => ?_, fun hroom hf => ?_, fun hroom => hexec.trans (if_neg (Bool.eq_false_iff.1 hroom))⟩
    all_goals refine hexec.trans ((if_pos hroom).trans ?_); rw [hf]
    · exact s.stopQueue_eq ..

/-! ### Graphs -/

section
variable {s u : State} {p q : Nat} {st : Stream} {d : List Nat}

theorem exec_packetGraph_begins (h : s.begins p q 4 st u d) :
    exec (.packetGraph p q) s =
      let n := bitsNat (dw d 2) 11 0 + 1
      if argOf d ≠ 0 ∨ 2 ^ 57 ≤ dw d 1 ∨ bitsNat (dw d 2) 63 12 ≠ 0 ∨ !zeroFrom d 3 then u.stopQueue p q st 1
      else
        match u.nodeHeaders p (dw d 1) n with
        | none => u.stopQueue p q st 6
        | some (hs, v) =>
          if !loopsOk n hs 0 [] then v.stopQueue p q st 1
          else
            let g := fun (x : HostQueue) => ({ at' := x.head, base := dw d 1, count := n, pos := 0, loops := [], busy := [],
                                               pre := 0, arm := 0, skip := 0 } : GraphRun)
            .next (v.modQueue p q fun x => { x with graphs := x.graphs ++ [g x] }.move (0, 0, 0)) :=
  State.withPacket_begins h _

theorem exec_packetBreak_begins {i : Nat} {g : GraphRun} (h : s.begins p q 8 (some i) u d)
    (hg : (u.queue p q).graphs[i]? = some g) :
    exec (.packetBreak p q) s =
      match g.loops with
      | l :: rest =>
        if argOf d ≠ 0 ∨ !zeroFrom d 1 then u.stopQueue p q (some i) 1
        else .next (u.modQueue p q fun x =>
          (x.modGraph i fun g => { g with pos := l.first + l.len, loops := rest, pre := 0, arm := 0, skip := 0 }).tidy)
      | [] => u.stopQueue p q (some i) 1 := by
  refine (State.withPacket_begins h _).trans ?_
  rw [Option.bind_some, hg, Option.map_some]
  cases g.loops <;> rfl

/-- The first graph whose loop may begin its next iteration begins it. -/
theorem exec_loopIteration_again {pre rest : List GraphRun} {g : GraphRun} (hruns : s.queueRuns p q = true)
    (hheld : (s.queue p q).held = false) (hgs : (s.queue p q).graphs = pre ++ g :: rest) (hpre : ∀ h ∈ pre, h.again = none)
    (hg : g.again.isSome = true) :
    exec (.loopIteration p q) s = .next (s.modQueue p q fun x => x.modGraph pre.length fun h => h.again.getD h) := by
  have hfirst : (s.queue p q).graphs.findIdx? (fun g => g.again.isSome) = some pre.length := by
    have hskip : pre.findIdx? (fun g => g.again.isSome) = none :=
      List.findIdx?_eq_none_iff.2 fun h hh => by rw [hpre h hh]; rfl
    rw [hgs, List.findIdx?_append, hskip, List.findIdx?_cons, hg]
    simp
  show execLoopIteration p q s = _
  rw [execLoopIteration, hruns, hheld, Bool.not_true, Bool.false_or, if_neg Bool.false_ne_true, hfirst]

end

theorem GraphRun.again_of_left {g : GraphRun} {l : Loop} {rest : List Loop} (hl : g.loops = l :: rest) (hpos : g.limit ≤ g.pos)
    (hbusy : g.busy = []) (hleft : 1 < l.left) :
    g.again = some { g with pos := l.first, loops := { l with left := l.left - 1 } :: rest } := by
  unfold GraphRun.again
  rw [hl]
  refine if_neg ?_
  rw [hbusy, List.isEmpty_nil]
  simp only [Bool.not_true, Bool.false_eq_true, false_or]
  omega

theorem GraphRun.tidy_of_last {g : GraphRun} {l : Loop} {rest : List Loop} (hl : g.loops = l :: rest) (hpos : g.limit ≤ g.pos)
    (hleft : l.left ≤ 1) (n : Nat) : g.tidy (n + 1) = GraphRun.tidy n { g with loops := rest } := by
  rw [GraphRun.tidy, if_neg (Nat.not_lt.2 hpos), hl]
  exact if_pos hleft

/-! ### The registers of a queue -/

/-- A write of a partition's window: its effect, the refusal of a locked interface, and nothing before bring-up. -/
theorem State.atWindow_cases (s : State) (p : Nat) (t : State) :
    (s.up = true → s.windowLocked p = false → s.atWindow p t = .next t) ∧
    (s.up = true → s.windowLocked p = true → s.atWindow p t = .next (s.refusePart p)) ∧
    (s.up = false → s.atWindow p t = .next s) := by
  unfold State.atWindow State.atHost
  refine ⟨fun hu hl => ?_, fun hu hl => ?_, fun hu => ?_⟩
  · rw [hu, hl]
    rfl
  · rw [hu, hl]
    rfl
  · rw [hu]
    rfl

theorem HostQueue.skipped_running {x : HostQueue} (h : x.stop = false) : x.skipped = x := if_pos (by rw [h]; rfl)

theorem HostQueue.skipped_stopped {x : HostQueue} (h : x.stop = true) :
    x.skipped = if x.stopAt = x.head then ({ x with stop := false, err := 0 } : HostQueue).move (armNext x.arm x.skip)
      else { x with stop := false, err := 0 } :=
  if_neg (by rw [h]; exact Bool.false_ne_true)

theorem HostQueue.en_control (x : HostQueue) (w : Word) : (x.control w.toNat).en = w.getLsbD 0 := by
  rw [← bitNat_eq_getLsbD]
  unfold HostQueue.control
  dsimp only
  cases bitNat w.toNat 0 <;> rfl

/-- With EN clear a write of QCTL ends a stop. -/
theorem HostQueue.control_off (x : HostQueue) {w : Word} (h : w.getLsbD 0 = false) :
    (x.control w.toNat).stop = false ∧ (x.control w.toNat).err = 0 := by
  unfold HostQueue.control
  dsimp only
  rw [bitNat_eq_getLsbD, h]
  exact ⟨rfl, rfl⟩

/-- LOG2N holds while the queue is on. -/
theorem HostQueue.log2n_control_on {x : HostQueue} (hen : x.en = true) (hstop : x.stop = false) (v : Nat) :
    (x.control v).log2n = x.log2n := by
  unfold HostQueue.control
  dsimp only
  rw [hen, Bool.not_true, Bool.false_and, Bool.false_and, if_neg Bool.false_ne_true, HostQueue.skipped_running hstop, ite_self]
  cases bitNat v 0 <;> rfl

/-- Settles O39: the packets of graphs by their fields and the structure, and the registers by what refuses a write. -/
theorem graphPacketsAndQueueRegisters : Obligations.GraphPacketsAndQueueRegisters := by
  unfold Obligations.GraphPacketsAndQueueRegisters
  refine ⟨fun s u p q st d => ?packets, fun s p q v w => ?registers⟩
  case packets =>
    dsimp only
    refine ⟨fun h => ?graph, fun i h hst => ?loop, fun pre g rest hruns hheld hgs hpre hg => exec_loopIteration_again hruns hheld hgs hpre hg,
      fun g l rest hl hpos hbusy hleft => GraphRun.again_of_left hl hpos hbusy hleft,
      fun g l rest n hl hpos hleft => GraphRun.tidy_of_last hl hpos hleft n, fun i g h hst hg => ?breaks⟩
    case graph =>
      have hexec := exec_packetGraph_begins h
      refine ⟨fun hok => hexec.trans ((if_pos (graphFields_bad.2 hok)).trans (u.stopQueue_eq ..)), fun hok hr => ?_,
        fun hs v hok hr => ⟨fun hl => ?_, fun hl => ?_⟩⟩
      all_goals refine hexec.trans ((if_neg fun hf => graphFields_bad.1 hf hok).trans ?_); rw [hr]
      · exact u.stopQueue_eq ..
      · exact (if_pos (by rw [hl]; rfl)).trans (v.stopQueue_eq ..)
      · exact if_neg (by rw [hl]; exact Bool.false_ne_true)
    case loop =>
      subst hst
      have hexec : exec (.packetLoop p q) s = _ := State.withPacket_begins h _
      exact ⟨fun hok => hexec.trans ((if_pos (loopFields_bad.2 hok)).trans (u.stopQueue_eq ..)),
        fun hok => hexec.trans (if_neg fun hf => loopFields_bad.1 hf hok)⟩
    case breaks =>
      subst hst
      have hexec := exec_packetBreak_begins h hg
      refine ⟨fun l rest hl => ⟨fun ha hz => ?_, fun hbad => ?_⟩, fun hl => ?_⟩
      all_goals rw [hl] at hexec; refine hexec.trans ?_
      · refine if_neg ?_
        rw [nopFields_bad, ha, hz]
        decide
      · exact (if_pos (nopFields_bad.2 hbad)).trans (u.stopQueue_eq ..)
      · exact u.stopQueue_eq ..
  case registers =>
    have htail := s.atWindow_cases p (s.modQueue p q fun x => { x with tail := v }.discard)
    have hctl := s.atWindow_cases p (s.modQueue p q fun x => x.control w.toNat)
    have hskip := s.atWindow_cases p (s.modQueue p q HostQueue.skipped)
    exact ⟨fun hu hl => ⟨htail.1 hu hl, hctl.1 hu hl, hskip.1 hu hl⟩,
      fun hu hl => ⟨htail.2.1 hu hl, hctl.2.1 hu hl, hskip.2.1 hu hl⟩,
      fun hu => ⟨htail.2.2 hu, hctl.2.2 hu, hskip.2.2 hu⟩,
      fun x => ⟨x.en_control w, fun hen hstop => HostQueue.log2n_control_on hen hstop _, x.control_off,
        HostQueue.skipped_running, fun hs ha => (HostQueue.skipped_stopped hs).trans (if_pos ha),
        fun hs ha => (HostQueue.skipped_stopped hs).trans (if_neg ha)⟩⟩

end Sys2Proof.Machine
end

section
/-! SUPPORT. Launches and the builds they wait for (21_command_processor.md R323 to R325; 12_portable_form.md R258 to
R261). -/
namespace Sys2Proof.Machine

/-! ### LAUNCH packets -/

section
variable {s u u1 u2 u3 u4 : State} {p q : Nat} {st : Stream} {d : List Nat} {k k' : KernelRec} {kb ub : List Byte}
  {ts : List (List Nat)}

/-- A launch goes on: it is in progress, with its code or the build it waits for. -/
def State.launchBegun (v : State) (p q : Nat) (st : Stream) (b : Busy) : Res :=
  .next ((v.modQueue p q fun x => x.addNow st b).passPacket p q st)

/-- What a LAUNCH does with a kernel record whose body has been read. -/
def State.launchGo (u : State) (p q : Nat) (st : Stream) (d : List Nat) (us : List Word) (k : KernelRec) : Res :=
  let a := u.launchArm p q d us k
  match k.flaja, u.cacheHit k us with
  | false, _ => a.1.launchBegun p q st (.launch a.2)
  | true, some b => (a.1.launchCode a.2 b).launchBegun p q st (.launch a.2)
  | true, none => a.1.launchBegun p q st (.build a.2 ((u.queue p q).placeOf st) d)

/-- What a LAUNCH does with its kernel record, uniforms and TCBs. -/
def State.launchChecked (u : State) (p q : Nat) (st : Stream) (d : List Nat) (k : KernelRec) (us : List Word)
    (ts : List (List Nat)) : Res :=
  if launchRefused d k ts then u.stopQueue p q st 2
  else if ts.any (fun t => tcbState t != 0 && tcbState t != 6) then u.stopQueue p q st 5
  else if !u.tcbsWritable p (dw d 4) (lCount d) then u.stopQueue p q st 6
  else
    match u.readBody p (dw d 3) k with
    | none => u.stopQueue p q st 6
    | some (k, u) => u.launchGo p q st d us k

/-- Bytes of a kernel record that a LAUNCH reads. -/
def State.kernelBytes (u : State) (p : Nat) (d : List Nat) : Nat := max 8 ((u.kernelAt p (dw d 3)).elim 0 (·.bytes))

section
variable (h : s.begins p q 1 st u d)
include h

theorem exec_packetLaunch_malformed (hbad : launchBad d = true) : exec (.packetLaunch p q) s = u.stopQueue p q st 1 :=
  (State.withPacket_begins h _).trans (if_pos hbad)

variable (hok : launchBad d = false)
include hok

theorem exec_packetLaunch_unreadable (hr : u.grateRead p (dw d 3) (u.kernelBytes p d) (u.kernelBytes p d) = none) :
    exec (.packetLaunch p q) s = u.stopQueue p q st 6 := by
  refine (State.withPacket_begins h _).trans ((if_neg (Bool.eq_false_iff.1 hok)).trans ?_)
  unfold State.kernelBytes at hr
  dsimp only
  rw [hr]

variable (hr : u.grateRead p (dw d 3) (u.kernelBytes p d) (u.kernelBytes p d) = some (kb, u1))
include hr

theorem exec_packetLaunch_unknown (hk : u.kernelAt p (dw d 3) = none) :
    exec (.packetLaunch p q) s = u.stopQueue p q st 2 := by
  refine (State.withPacket_begins h _).trans ((if_neg (Bool.eq_false_iff.1 hok)).trans ?_)
  unfold State.kernelBytes at hr
  dsimp only
  rw [hr, hk]

theorem exec_packetLaunch_read (hk : u.kernelAt p (dw d 3) = some k)
    (hu : u1.grateRead p (dw d 5) (8 * min 8 k.uniforms.length) (8 * min 8 k.uniforms.length) = some (ub, u2))
    (ht : u2.readTcbs p (dw d 4) (lCount d) = some (ts, u3)) :
    exec (.packetLaunch p q) s = u3.launchChecked p q st d k (uniformVals k (dwords ub)) ts := by
  refine (State.withPacket_begins h _).trans ((if_neg (Bool.eq_false_iff.1 hok)).trans ?_)
  unfold State.kernelBytes at hr
  dsimp only
  rw [hr, hk]
  dsimp only
  rw [hu]
  dsimp only
  rw [ht] <;> rfl

end

theorem State.launchChecked_body {us : List Word} (hr : launchRefused d k ts = false)
    (hb : ts.any (fun t => tcbState t != 0 && tcbState t != 6) = false) (hw : u.tcbsWritable p (dw d 4) (lCount d) = true) :
    u.launchChecked p q st d k us ts =
      match u.readBody p (dw d 3) k with
      | none => u.stopQueue p q st 6
      | some (k, u) => u.launchGo p q st d us k := by
  unfold State.launchChecked
  rw [hr, if_neg Bool.false_ne_true, hb, if_neg Bool.false_ne_true, hw]
  exact if_neg Bool.false_ne_true

end

/-! ### Builds -/

section
variable {s : State} {p q : Nat} {picks : List Nat} {w : Stream × Nat × BitVec 32 × List Nat}

theorem State.buildFirst_ends {pre post : List (Stream × Nat × BitVec 32 × List Nat)} {r : Res}
    (hpre : ∀ v ∈ pre, s.buildEnd p q picks v = none) (hw : s.buildEnd p q picks w = some r) :
    s.buildFirst p q picks (pre ++ w :: post) = r := by
  induction pre with
  | nil => rw [List.nil_append, State.buildFirst, hw]
  | cons v pre ih =>
    rw [List.cons_append, State.buildFirst, hpre v (List.mem_cons_self ..)]
    exact ih fun x hx => hpre x (List.mem_cons_of_mem _ hx)

theorem State.buildFirst_none {ws : List (Stream × Nat × BitVec 32 × List Nat)} (h : ∀ v ∈ ws, s.buildEnd p q picks v = none) :
    s.buildFirst p q picks ws = .next s := by
  induction ws with
  | nil => rfl
  | cons v ws ih =>
    rw [State.buildFirst, h v (List.mem_cons_self ..)]
    exact ih fun x hx => h x (List.mem_cons_of_mem _ hx)

theorem exec_preheaterBuildComplete_runs (hruns : s.queueRuns p q = true) :
    exec (.preheaterBuildComplete p q picks) s = s.buildFirst p q picks (s.queue p q).builds :=
  if_neg (by rw [hruns]; exact Bool.false_ne_true)

theorem KernelRec.build_bodyError {k : KernelRec} {us : List Word} {op : Nat} (h : k.bodyError us = some op)
    (picks : List Nat) (base : Nat) : k.build us picks base = .error op := by
  rw [KernelRec.build, h]

/-- The code at a base address, of which every other build of the same body has the size. -/
theorem placed_eq {k : KernelRec} {us : List Word} {base : Nat} {r r' : Residual} (h : k.build us picks base = .ok r') :
    (k.build us picks base).toOption.getD r = r' := by rw [h]; rfl

variable {l : Launch} (hl : Tbl.get? s.launches w.2.1 = some l)
include hl

theorem State.buildEnd_bodyError {op : Nat} (h : l.kernel.bodyError l.uniforms = some op) :
    s.buildEnd p q picks w = some (s.buildRefused p q w 3 op) := by
  unfold State.buildEnd
  rw [hl, Option.bind_some]
  dsimp only
  rw [KernelRec.build_bodyError h]

variable {r : Residual} (hb : l.kernel.build l.uniforms picks 0 = .ok r)
include hb

theorem State.buildEnd_long (hn : cacheBytes < residualSize r) :
    s.buildEnd p q picks w = some (s.buildRefused p q w 3 0) := by
  unfold State.buildEnd
  rw [hl, Option.bind_some]
  dsimp only
  rw [hb]
  exact if_pos hn

variable (hn : residualSize r ≤ cacheBytes)
include hn

/-- The cache's new entry for the code of launch l. -/
def State.builtEntry (s : State) (p : Nat) (l : Launch) (r : Residual) (a : Nat) : CacheEnt :=
  { key := s.stamp, part := p, khash := fnv1a l.kernel.bodyBytes, udigest := fnv1a (l.kernel.keyBytes l.uniforms),
    bodyLen := l.kernel.body.length, ubytes := l.kernel.keyBytes l.uniforms, res := r, addr := a, pins := 0, valid := true,
    doomed := false, used := s.stamp }

theorem State.buildEnd_cached {es : List CacheEnt} {a : Nat} {r' : Residual}
    (hroom : makeRoom (s.cache.length + 1) s.cache (residualSize r) = some (es, a))
    (hb' : l.kernel.build l.uniforms picks (s.cacheBase + a) = .ok r') :
    s.buildEnd p q picks w = some (.next (({ s with cache := es ++ [s.builtEntry p l r' a], stamp := s.stamp + 1 } :
      State).cacheWrite (s.cacheBase + a) (residualBytes r')).resolveBuilds) := by
  unfold State.buildEnd
  rw [hl, Option.bind_some]
  dsimp only
  rw [hb]
  dsimp only
  rw [if_neg (Nat.not_lt.2 hn), hroom]
  dsimp only
  rw [placed_eq hb'] <;> rfl

variable (hroom : makeRoom (s.cache.length + 1) s.cache (residualSize r) = none)
include hroom

theorem State.buildEnd_noRoom :
    s.buildEnd p q picks w =
      if dw w.2.2.2 6 = 0 ∨ 5 * 2 ^ 16 < residualSize r then none
      else
        match s.grateWrite p (dw w.2.2.2 6) (residualSize r + 1)
            (residualBytes ((l.kernel.build l.uniforms picks (dw w.2.2.2 6)).toOption.getD r)) with
        | none => some (s.buildRefused p q w 6 0)
        | some z => some (.next ((z.launchCode w.2.1
            ⟨dw w.2.2.2 6, (l.kernel.build l.uniforms picks (dw w.2.2.2 6)).toOption.getD r, none⟩).modQueue p q
              fun x => x.hasCode w.2.1)) := by
  unfold State.buildEnd
  rw [hl, Option.bind_some]
  dsimp only
  rw [hb]
  dsimp only
  rw [if_neg (Nat.not_lt.2 hn), hroom] <;> rfl

end

theorem State.queue_raiseMsix (s : State) (v p q : Nat) : (s.raiseMsix v).queue p q = s.queue p q := rfl

/-- A refused build takes its launch with it, and its queue rests at the launch. -/
theorem State.buildRefused_next (s : State) (p q : Nat) (w : Stream × Nat × BitVec 32 × List Nat) (op : Nat) :
    ∃ t, s.buildRefused p q w 3 op = .next t ∧ (t.queue p q).err = 3 ∧ (t.queue p q).errOp = op ∧
      (t.queue p q).stop = true ∧ (t.queue p q).headReg = w.2.2.1 ∧ Tbl.get? t.launches w.2.1 = none := by
  have hlaunch : Tbl.get? (s.launchDrop p w.2.1).launches w.2.1 = none := by
    unfold State.launchDrop
    exact (Tbl.get?_filter (fun n => n != w.2.1) w.2.1 _).trans (if_neg (by simp))
  obtain ⟨st, id, a, d⟩ := w
  refine ⟨_, rfl, ?_, ?_, ?_, ?_, hlaunch⟩
  all_goals
    rw [State.queue_modQueue, if_pos ⟨rfl, rfl⟩, State.queue_raiseMsix, State.queue_modQueue, if_pos ⟨rfl, rfl⟩]
    cases st <;> rfl

/-- Settles O40: each launch by its checks in their order, and each build by the room for its code. -/
theorem launches : Obligations.Launches := by
  unfold Obligations.Launches
  intro s u p q st d
  dsimp only
  refine ⟨fun h => ?launch, fun pre w post picks r hruns hbs hpre hw => ?first, fun picks hruns hbs => ?none,
    fun w l picks hl => ?build, fun w op => s.buildRefused_next p q w op⟩
  case launch =>
    refine ⟨fun hbad => (exec_packetLaunch_malformed h hbad).trans (u.stopQueue_eq ..),
      fun hok hr => (exec_packetLaunch_unreadable h hok hr).trans (u.stopQueue_eq ..),
      fun kb u1 hok hr hk => (exec_packetLaunch_unknown h hok hr hk).trans (u.stopQueue_eq ..),
      fun kb u1 k ub u2 ts u3 hok hr hk hu ht => ?_⟩
    have hexec := exec_packetLaunch_read h hok hr hk hu ht
    refine ⟨fun href => hexec.trans ((if_pos href).trans (u3.stopQueue_eq ..)),
      fun href hb => hexec.trans ((if_neg (Bool.eq_false_iff.1 href)).trans ((if_pos hb).trans (u3.stopQueue_eq ..))),
      fun href hb hw => hexec.trans ((if_neg (Bool.eq_false_iff.1 href)).trans ((if_neg (Bool.eq_false_iff.1 hb)).trans
        ((if_pos (by rw [hw]; rfl)).trans (u3.stopQueue_eq ..)))), fun href hb hw => ?_⟩
    have hbody := hexec.trans (State.launchChecked_body href hb hw)
    refine ⟨fun hn => ?_, fun k' u4 hs => ⟨fun hflaja => ?_, fun b hflaja hhit => ?_, fun hflaja hmiss => ?_⟩⟩
    · refine hbody.trans ?_
      rw [hn]
      exact u3.stopQueue_eq ..
    all_goals refine hbody.trans ?_; rw [hs]; dsimp only; unfold State.launchGo; rw [hflaja]
    · rfl
    · rw [hhit]
      rfl
    · rw [hmiss]
      rfl
  case first =>
    rw [exec_preheaterBuildComplete_runs hruns, hbs]
    exact State.buildFirst_ends hpre hw
  case none =>
    rw [exec_preheaterBuildComplete_runs hruns]
    exact State.buildFirst_none hbs
  case build =>
    refine ⟨fun op hop => State.buildEnd_bodyError hl hop, fun r hb hn => State.buildEnd_long hl hb hn,
      fun r r' es a hb hn hroom hb' => State.buildEnd_cached hl hb hn hroom hb', fun r hb hn hroom => ?_⟩
    have hend := State.buildEnd_noRoom (p := p) (q := q) hl hb hn hroom
    refine ⟨fun hno => hend.trans (if_pos hno), fun r' hown hsize hb' => ?_⟩
    have hplaced := hend.trans (if_neg (not_or.2 ⟨hown, Nat.not_lt.2 hsize⟩))
    rw [placed_eq hb'] at hplaced
    refine ⟨fun hw => ?_, fun z hw => ?_⟩
    all_goals rw [hplaced, hw]

end Sys2Proof.Machine
end

section
/-! SUPPORT. How commands, markers and tag writes retire, and what follows a fault (05_local_memory.md R88, R94, R95;
20_translation_faults.md R313). -/
namespace Sys2Proof.Machine

/-! ### Retiring -/

/-- The state in which a started command of CX, GX or FX has done the rest of its list. -/
def State.drained (s : State) (c : Nat) (a : Agent) (e : Entry) : State :=
  if e.started && !e.complete && goesOn a then s.drain c a e.id e.todo.length else s

/-- The state in which entry y of engine a has retired. -/
def State.ended (v : State) (c : Nat) (a : Agent) (y : Entry) : State :=
  match y.token with
  | some n => ((v.dropEntry c a y).modCtx c fun x => x.landTiles a y).endToken c n y.code
  | none => (v.dropEntry c a y).modCtx c fun x => x.landTiles a y

section
variable {s : State} {c : Nat} {a : Agent} {e y : Entry} (hy : ((s.drained c a e).ctx c).entry? a e.id = some y)
include hy

theorem State.retireEntry_ends (hdone : y.complete = true)
    (hseen : (s.drained c a e).allVisible (.core c a) e.scope e.writes = true) :
    s.retireEntry c a e = (s.drained c a e).ended c a y := by
  unfold State.drained at hy hseen
  unfold State.retireEntry
  dsimp only
  rw [hy, Option.any_some, hdone, hseen, Bool.not_true, Bool.or_false, if_neg Bool.false_ne_true, Option.getD_some]
  rfl

theorem State.retireEntry_stays
    (h : y.complete = false ∨ ¬(s.drained c a e).allVisible (.core c a) e.scope e.writes = true) :
    s.retireEntry c a e = s.drained c a e := by
  unfold State.drained at hy h
  unfold State.retireEntry
  dsimp only
  rw [hy, Option.any_some]
  refine if_pos ?_
  obtain h | h := h
  · rw [h]
    rfl
  · rw [Bool.eq_false_iff.2 h, Bool.not_false, Bool.or_true]

end

section
variable {s : State} {a : Agent} {k : Nat} {e : Entry} (hk : (s.my.queue a)[k]? = some e) (hruns : s.me.enginesRun = true)
  (hmark : e.isMarker = false)
include hk hruns hmark

theorem exec_engineCommandRetire_at :
    exec (.engineCommandRetire a k) s = if s.my.mayRetire a e then .next (s.retireEntry s.cur a e) else .next s := by
  show execEngineCommandRetire a k s = _
  rw [execEngineCommandRetire, hk]
  dsimp only
  rw [hruns, hmark, Bool.not_false, Bool.true_and, Bool.true_and]

theorem exec_cxCommandEnd_at (ha : a = .cx) : exec (.cxCommandEnd k) s = .next (s.retireEntry s.cur a e) := by
  subst ha
  show execCxCommandEnd k s = _
  rw [execCxCommandEnd]
  have hk' : s.my.cxq[k]? = some e := hk
  rw [hk']
  dsimp only
  rw [hruns, hmark]
  rfl

end

/-! ### Markers -/

section
variable {s : State} {a : Agent} {e : Entry} {k : Nat} {n : BitVec 16}

/-- What a rendezvous register still owes once engine a has retired marker n. -/
def Rv.afterMark (r : Rv) (n : BitVec 16) (a : Agent) : BitVec 6 :=
  if r.armed && r.n == n then r.owing &&& ~~~(markBit a) else r.owing

theorem exec_markerRetire_at (he : (s.my.queue a).head? = some e) (hcmd : e.cmd = .marker k n) (hpushed : e.pushed = true)
    (hruns : s.me.enginesRun = true) (hbrk : s.broken s.cur a e = false) :
    exec (.markerRetire a) s =
      let r := s.my.rvAt k
      let t := (s.dropEntry s.cur a e).modCtx s.cur fun x =>
        { x with rv := Tbl.put Rv.idle x.rv k { r with owing := r.afterMark n a } }
      if r.armed && r.owing != 0 && r.afterMark n a == 0 then
        .next ((t.endedBy s.cur .sk 1 (BitVec.ofNat 32 (n.toNat * 65536 + k)) a.code s.cur).latchEvent s.cur k a.code s.cur)
      else .next t := by
  show execMarkerRetire a s = _
  rw [execMarkerRetire, he]
  dsimp only
  rw [hcmd]
  dsimp only
  rw [hruns, hpushed, hbrk]
  exact if_neg Bool.false_ne_true

end

theorem exec_tagWrite_at {s : State} {e : Entry} {inW : Bool} {tag : BitVec 8} {off len : Nat} (h : s.mayStart .sk e)
    (hcmd : e.cmd = .tag inW tag off len) :
    exec .tagWrite s = .next (((s.endWaitOf s.cur .sk 5).tagRange (s.endWaitOf s.cur .sk 5).cur inW tag.toNat off
      (len / 4096)).dropEntry (s.endWaitOf s.cur .sk 5).cur .sk e) := by
  show execTagWrite s = _
  rw [execTagWrite, State.startEntry_ready h rfl, hcmd]

/-! ### The actions of a fault record -/

section
variable {s : State} {a : Agent}

theorem State.withAction_valid (h : (s.my.fault a).valid = true) (n : Nat) (k : State → Res) : s.withAction a n k = .next s :=
  if_pos (by rw [h]; rfl)

theorem State.withAction_due {n : Nat} (h : (s.my.fault a).valid = false) (hn : (s.my.fault a).todo.toNat = n)
    (k : State → Res) : s.withAction a n k = k s :=
  if_neg (by simp [h, hn])

theorem exec_faultActionRestart_eq (s : State) (a : Agent) :
    exec (.faultActionRestart a) s = s.withAction a 1 fun s => .next (s.clearAction a) := rfl

theorem exec_faultActionFreeze_eq (s : State) (a : Agent) :
    exec (.faultActionFreeze a) s = s.withAction a 3 fun s =>
      .next ((s.clearAction a).freezeCore s.cur 5 (s.my.fault a).fstat.toNat (s.my.fault a).addr.toNat) := rfl

/-- What a DISCARD does once it is due. -/
def State.discard (s : State) (a : Agent) : Res :=
  match s.my.stoppedEntry a with
  | none => .next (s.clearAction a)
  | some e =>
    let slot := if a = .cx then (s.clearAction a).ownSlot s.cur e else []
    .next ((((s.clearAction a).upd fun x => x.dropRun a e.id).freeSlots s.cur a).upd fun x => x.modEntry a e.id fun y =>
      { y with started := true, held := false, complete := slot.isEmpty, todo := slot, rd := [], wr := [], code := 2 })

theorem exec_faultActionDiscard_eq (s : State) (a : Agent) :
    exec (.faultActionDiscard a) s = s.withAction a 2 fun s => s.discard a := rfl

end

theorem State.freeSlots_ne (v : State) (c : Nat) {a : Agent} (h : a ≠ .mx) : v.freeSlots c a = v := by
  cases a with
  | mx => exact absurd rfl h
  | _ => rfl

theorem State.freeSlots_one {v : State} {c n : Nat}
    (h : (List.range 8).filter (fun i => ((v.ctx c).ring i).heldMx.isSome) = [n]) :
    v.freeSlots c .mx = v.ringReturn c n .mx := by
  unfold State.freeSlots
  dsimp only
  rw [h]
  rfl

theorem Ctx.dropRun_mx {x : Ctx} {id : Nat} {m : MxRun} (hm : x.mx.run = some m) (hid : m.entry = id) :
    x.dropRun .mx id = { x with mx := { x.mx with run := none } } := by
  unfold Ctx.dropRun
  rw [hm]
  exact if_pos hid

theorem Ctx.dropRun_other (x : Ctx) (id : Nat) {a : Agent} (hv : a ≠ .vx) (hm : a ≠ .mx) : x.dropRun a id = x := by
  cases a with
  | vx => exact absurd rfl hv
  | mx => exact absurd rfl hm
  | _ => rfl

theorem Ctx.dropRun_vx (x : Ctx) (id : Nat) : x.dropRun .vx id = { x with vx := { x.vx with run := none } } := rfl

/-- Settles O41: an entry by whether it is complete and seen, a marker by what its register owes, and a fault record by its
action. -/
theorem commandRetirementAndFaultActions : Obligations.CommandRetirementAndFaultActions := by
  unfold Obligations.CommandRetirementAndFaultActions
  refine ⟨fun s => ⟨fun a k e hk hruns hmark => ?retire, fun a e k n he hcmd hpushed hruns hbrk => ?marker,
    fun e inW tag off len h hcmd => exec_tagWrite_at h hcmd⟩, fun s a => ?actions⟩
  case retire =>
    dsimp only
    have hexec := exec_engineCommandRetire_at hk hruns hmark
    refine ⟨fun y hy => ?_, fun hmay => hexec.trans (if_neg (Bool.eq_false_iff.1 hmay))⟩
    have hcx := exec_cxCommandEnd_at hk hruns hmark
    exact ⟨fun hmay hdone hseen => hexec.trans ((if_pos hmay).trans
        (congrArg Host.Outcome.next (State.retireEntry_ends hy hdone hseen))),
      fun hmay hnot => hexec.trans ((if_pos hmay).trans (congrArg Host.Outcome.next (State.retireEntry_stays hy hnot))),
      fun ha hdone hseen => (hcx ha).trans (congrArg Host.Outcome.next (State.retireEntry_ends hy hdone hseen)),
      fun ha hnot => (hcx ha).trans (congrArg Host.Outcome.next (State.retireEntry_stays hy hnot))⟩
  case marker =>
    dsimp only
    have hexec := exec_markerRetire_at he hcmd hpushed hruns hbrk
    refine ⟨fun harmed howed hnone => hexec.trans (if_pos ?_), fun howes => hexec.trans (if_neg ?_)⟩
    · have hnone' : (s.my.rvAt k).afterMark n a = 0 := hnone
      rw [harmed, hnone', bne_iff_ne.2 howed]
      rfl
    · have howes' : ((s.my.rvAt k).afterMark n a == 0) = false := beq_eq_false_iff_ne.2 howes
      rw [howes', Bool.and_false]
      exact Bool.false_ne_true
  case actions =>
    dsimp only
    rw [exec_faultActionRestart_eq, exec_faultActionFreeze_eq, exec_faultActionDiscard_eq]
    refine ⟨fun hv ht => State.withAction_due hv (by rw [ht]; rfl) _, fun hv ht => State.withAction_due hv (by rw [ht]; rfl) _,
      fun hv ht => ?discard, fun v c => ⟨fun ha => v.freeSlots_ne c ha, fun n _ h => State.freeSlots_one h⟩,
      fun hv => ⟨State.withAction_valid hv 1 _, State.withAction_valid hv 3 _, State.withAction_valid hv 2 _⟩,
      fun x id => ⟨fun ha => ha ▸ x.dropRun_vx id, fun m ha hm hid => ha ▸ Ctx.dropRun_mx hm hid, x.dropRun_other id⟩,
      fun sram line => rfl⟩
    case discard =>
      rw [State.withAction_due hv (by rw [ht]; rfl), State.discard]
      refine ⟨fun hnone => ?_, fun e he => ?_⟩
      · rw [hnone]
        rfl
      · rw [he]
        rfl

end Sys2Proof.Machine
end

section
/-! SUPPORT. Orders, placements, pre-emptions, saves and resumes (19_scheduling.md R297 to R306; 21_command_processor.md
R328). -/
namespace Sys2Proof.Machine

/-! ### Orders -/

theorem exec_placementOrder_chosen {s : State} {t k : Nat} {x : Team} (hx : Tbl.get? s.teams t = some x)
    (hready : x.state = .ready) (hnone : x.cluster = none) (hon : (s.part x.part).state = 2)
    (hcode : (Tbl.get? s.launches x.launch).any (·.built) = true) (hk : s.chosenCluster t x = some k) :
    exec (.placementOrder t) s =
      if (s.link k).permits = 0 then .next s
      else .next ((s.modLink k fun l =>
        { l with orders := (l.orders + 1) % 2 ^ 32, permits := l.permits - 1, queue := l.queue ++ [t] }).modTeam t
          fun y => { y with cluster := some k }) := by
  have hgo : ¬(x.state ≠ .ready ∨ x.cluster.isSome = true ∨ (s.part x.part).state ≠ 2 ∨
      (!(Tbl.get? s.launches x.launch).any (·.built)) = true) := by
    rw [hready, hnone, hon, hcode]
    decide
  show execPlacementOrder t s = _
  rw [execPlacementOrder, hx]
  dsimp only
  rw [if_neg hgo, hk]

/-! ### Placements -/

section
variable {s : State} {t c0 : Nat} {cs : List Nat} {x0 x : Team}

theorem exec_placement_dark (hrun : s.trivetRuns (c0 / 16) = false) : exec (.placement t (c0 :: cs)) s = .next s := by
  show execPlacement t (c0 :: cs) s = _
  rw [execPlacement, List.head?_cons]
  cases Tbl.get? s.teams t with
  | none => rfl
  | some x => exact if_pos (by rw [hrun]; rfl)

/-- The members of a team that do not stay where they are take the chosen cores. -/
def State.placeAll (w : State) (t : Nat) (x : Team) (chosen : List Nat) : State :=
  (x.members.zipIdx.zip chosen).foldl (fun v e =>
    if ((w.staying t x).map (·.2)).contains e.1.2 then v.placeMember t x (tmapOf chosen) e.1 e.2 else v) w

theorem exec_placement_picked (hx0 : Tbl.get? s.teams t = some x0) (hrun : s.trivetRuns (c0 / 16) = true)
    (hx : Tbl.get? (s.takeOrders (c0 / 16)).teams t = some x)
    (hwaits : (s.takeOrders (c0 / 16)).waitsAt (c0 / 16) x = true)
    (hholds : (s.takeOrders (c0 / 16)).holds t x (c0 / 16) = true)
    (hnext : (s.takeOrders (c0 / 16)).isNext (c0 / 16) x = true)
    (hprefers : (s.takeOrders (c0 / 16)).prefers t x (c0 / 16) = true) (hlen : (c0 :: cs).length = x.size)
    (hpicked : ∀ c ∈ ((s.takeOrders (c0 / 16)).freeCores t x (c0 / 16)).take x.size, c ∈ c0 :: cs)
    (hstill : (Tbl.get? (((s.takeOrders (c0 / 16)).lookWaiting (c0 / 16)).lookTcbs x).teams t).any
      ((((s.takeOrders (c0 / 16)).lookWaiting (c0 / 16)).lookTcbs x).waitsAt (c0 / 16) ·) = true) :
    exec (.placement t (c0 :: cs)) s =
      .next ((((((s.takeOrders (c0 / 16)).lookWaiting (c0 / 16)).lookTcbs x).placeAll t x (c0 :: cs)).modTeam t
        fun y => { y with cluster := some (c0 / 16) }).restamp t (if x.state = .ready then .placed else .moving)) := by
  have hall : (((s.takeOrders (c0 / 16)).freeCores t x (c0 / 16)).take x.size).all (c0 :: cs).contains = true :=
    List.all_eq_true.2 fun c hc => List.contains_iff_mem.2 (hpicked c hc)
  have hsize : decide ((c0 :: cs).length ≠ x.size) = false := decide_eq_false (Classical.not_not.2 hlen)
  have hgo : ¬(((((!(s.takeOrders (c0 / 16)).waitsAt (c0 / 16) x || !(s.takeOrders (c0 / 16)).holds t x (c0 / 16)) ||
      !(s.takeOrders (c0 / 16)).isNext (c0 / 16) x) || !(s.takeOrders (c0 / 16)).prefers t x (c0 / 16)) ||
      decide ((c0 :: cs).length ≠ x.size)) ||
      !(((s.takeOrders (c0 / 16)).freeCores t x (c0 / 16)).take x.size).all (c0 :: cs).contains) = true := by
    rw [hwaits, hholds, hnext, hprefers, hsize, hall]
    decide
  show execPlacement t (c0 :: cs) s = _
  rw [execPlacement, List.head?_cons, hx0]
  dsimp only
  rw [hrun, Bool.not_true, if_neg Bool.false_ne_true, hx]
  dsimp only
  rw [if_neg hgo, hstill]
  exact if_neg Bool.false_ne_true

end

/-! ### Pre-emptions -/

section
variable {s : State} {t k : Nat} {x0 x : Team}

theorem exec_preemptionDecision_dark (hx : Tbl.get? s.teams t = some x) (hk : x.cluster = some k)
    (hrun : s.trivetRuns k = false) : exec (.preemptionDecision t) s = .next s := by
  show execPreemptionDecision t s = _
  rw [execPreemptionDecision, hx, Option.bind_some, hk]
  exact if_pos (by rw [hrun]; rfl)

section
variable (hx0 : Tbl.get? s.teams t = some x0) (hk : x0.cluster = some k) (hx : Tbl.get? (s.takeOrders k).teams t = some x)
  (hrun : s.trivetRuns k = true)
include hx0 hk hx hrun

theorem exec_preemptionDecision_held (hheld : (List.range 8).any ((s.takeOrders k).holds t x) = true) :
    exec (.preemptionDecision t) s = .next (s.takeOrders k) := by
  show execPreemptionDecision t s = _
  rw [execPreemptionDecision, hx0, Option.bind_some, hk]
  dsimp only
  rw [hrun, Bool.not_true, if_neg Bool.false_ne_true, hx]
  exact if_pos (.inr (.inr hheld))

theorem exec_preemptionDecision_victims {vs : List Nat} (hready : x.state = .ready)
    (hon : ((s.takeOrders k).part x.part).state = 2) (hheld : (List.range 8).any ((s.takeOrders k).holds t x) = false)
    (hvs : (s.takeOrders k).enough x k ((s.takeOrders k).leavers x.part) ((s.takeOrders k).victims x k) = some vs)
    (hstill : (Tbl.get? ((s.takeOrders k).tcbLook x.part x.tcb).teams t).any (·.state == .ready) = true) :
    exec (.preemptionDecision t) s =
      .next (vs.foldl (State.preempt (decide (0 < ((s.takeOrders k).tcbLook x.part x.tcb).tokens x)))
        ((s.takeOrders k).tcbLook x.part x.tcb)) := by
  have hgo : ¬(x.state ≠ .ready ∨ ((s.takeOrders k).part x.part).state ≠ 2 ∨
      (List.range 8).any ((s.takeOrders k).holds t x) = true) := by
    rw [hready, hon, hheld]
    decide
  show execPreemptionDecision t s = _
  rw [execPreemptionDecision, hx0, Option.bind_some, hk]
  dsimp only
  rw [hrun, Bool.not_true, if_neg Bool.false_ne_true, hx]
  dsimp only
  rw [if_neg hgo, hvs]
  dsimp only
  rw [hstill]
  exact if_neg Bool.false_ne_true

end
end

/-- A victim that still runs is killed, drained or saved. -/
theorem State.preempt_running {v : State} {w : Nat} {y : Team} (hy : Tbl.get? v.teams w = some y)
    (hrun : (Tbl.get? (v.lookTcbs y).teams w).any (·.state == .running) = true) (tok : Bool) :
    v.preempt tok w =
      match actionOf ((v.lookTcbs y).restartable y) tok ((v.lookTcbs y).runOf w y) with
      | .kill => (v.lookTcbs y).killTeam w
      | .drain => (v.lookTcbs y).beginDrain w
      | .checkpoint => (v.lookTcbs y).beginSave w := by
  unfold State.preempt
  rw [hy]
  dsimp only
  rw [hrun]
  exact if_neg Bool.false_ne_true

/-! ### The action on a victim -/

section
variable {rs tok : Bool} {run seg rem : Nat}

theorem actionOf_kill (hrs : rs = true) (hrun : run ≤ 1620) : actionOf rs tok (run, seg, rem) = .kill :=
  if_pos ⟨hrs, hrun⟩

theorem actionOf_drain (hkill : ¬(rs = true ∧ run ≤ 1620))
    (h : seg ≤ 1620 ∨ rem ≤ 1620 ∨ (tok = false ∧ seg ≤ 16384)) : actionOf rs tok (run, seg, rem) = .drain := by
  refine (if_neg hkill).trans ?_
  by_cases hshort : seg ≤ 1620 ∨ rem ≤ 1620
  · exact if_pos hshort
  · obtain h | h | ⟨htok, hseg⟩ := h
    · exact absurd (.inl h) hshort
    · exact absurd (.inr h) hshort
    · exact (if_neg hshort).trans (if_pos ⟨by rw [htok]; rfl, hseg⟩)

theorem actionOf_checkpoint (hkill : ¬(rs = true ∧ run ≤ 1620)) (hseg : 1620 < seg) (hrem : 1620 < rem)
    (h : tok = true ∨ 16384 < seg) : actionOf rs tok (run, seg, rem) = .checkpoint := by
  refine (if_neg hkill).trans ((if_neg ?_).trans (if_neg ?_))
  · exact not_or.2 ⟨Nat.not_le.2 hseg, Nat.not_le.2 hrem⟩
  · rintro ⟨htok, hle⟩
    obtain rfl | h := h
    · exact Bool.false_ne_true htok
    · exact Nat.not_le.2 h hle

end

/-! ### Saves and resumes -/

section
variable {s : State} {t : Nat} {x : Team} (hx : Tbl.get? s.teams t = some x)
include hx

theorem exec_saveComplete_team :
    exec (.saveComplete t) s =
      if x.state = .suspending ∧ x.cluster.all s.trivetRuns = true then .next (s.saveTeam t false) else .next s := by
  show execSaveComplete t s = _
  rw [execSaveComplete, hx]

theorem exec_resume_stays (h : x.state ≠ .moving ∨ (!x.cluster.all s.trivetRuns) = true) :
    exec (.resume t) s = .next s := by
  show execResume t s = _
  rw [execResume, hx]
  exact if_pos h

theorem exec_resume_moving (hm : x.state = .moving) (hall : x.cluster.all s.trivetRuns = true) :
    exec (.resume t) s =
      match (s.flushTeam t).teamErrors t x with
      | (s, true) => .next (s.freezeSaved t x 3 0 false)
      | (s, false) => .next ((x.live.foldl (fun v m =>
          v.restoreMember t x (movePlace (s.movesOf t x)) (s.liftTeam t x) m) s).modTeam t fun y => { y with state := .restored }) := by
  show execResume t s = _
  rw [execResume, hx]
  exact if_neg (not_or.2 ⟨Classical.not_not.2 hm, by rw [hall]; exact Bool.false_ne_true⟩)

end

/-- A cluster whose Trivet does not run does nothing for a team that it was given. -/
theorem Team.cluster_all {x : Team} {k : Nat} {f : Nat → Bool} (hk : x.cluster = some k) : x.cluster.all f = f k := by
  rw [hk, Option.all_some]

/-- Settles O42: an order by its permit, a placement by the Trivet's rule, a pre-emption by its victims, and a save or resume
by the state of its team. -/
theorem placementsAndSavesAndResumes : Obligations.PlacementsAndSavesAndResumes := by
  unfold Obligations.PlacementsAndSavesAndResumes
  refine ⟨fun s t => ⟨fun x k hx hready hnone hon hcode hk => ?order, fun c0 cs x0 x => ?place, fun x0 x k => ?preempt,
    fun c0 cs hrun => exec_placement_dark hrun, fun x k hx hk hrun => ?dark,
    fun tok v w y hy hrun => State.preempt_running hy hrun tok,
    fun rs tok run seg rem => ⟨fun hrs hrun => actionOf_kill hrs hrun, fun hkill h => actionOf_drain hkill h,
      fun hkill hseg hrem h => actionOf_checkpoint hkill hseg hrem h⟩⟩, fun s t x hx => ?save⟩
  case order =>
    have hexec := exec_placementOrder_chosen hx hready hnone hon hcode hk
    exact ⟨fun hp => hexec.trans (if_neg hp), fun hp => hexec.trans (if_pos hp)⟩
  case place =>
    dsimp only
    intro hx0 hx hwaits hholds hnext hprefers hlen hpicked hrun hstill
    exact exec_placement_picked hx0 hrun hx hwaits hholds hnext hprefers hlen hpicked hstill
  case preempt =>
    dsimp only
    intro hx0 hk hx hready hon hrun
    exact ⟨exec_preemptionDecision_held hx0 hk hx hrun,
      fun vs hheld hvs hstill => exec_preemptionDecision_victims hx0 hk hx hrun hready hon hheld hvs hstill⟩
  case dark =>
    have hall : x.cluster.all s.trivetRuns = false := (Team.cluster_all hk).trans hrun
    refine ⟨exec_preemptionDecision_dark hx hk hrun, (exec_saveComplete_team hx).trans (if_neg ?_),
      exec_resume_stays hx (.inr ?_)⟩
    · rw [hall]
      exact fun h => Bool.false_ne_true h.2
    · rw [hall]
      rfl
  case save =>
    dsimp only
    refine ⟨fun hs hall => (exec_saveComplete_team hx).trans (if_pos ⟨hs, hall⟩),
      fun hs => (exec_saveComplete_team hx).trans (if_neg fun h => hs h.1), ⟨fun hm hall hgood => ?_, fun hm hall hbad => ?_⟩,
      fun hm => exec_resume_stays hx (.inl hm)⟩
    all_goals
      rw [exec_resume_moving hx hm hall]
      generalize (s.flushTeam t).teamErrors t x = r at *
      obtain ⟨u, b⟩ := r
    · have hb : b = false := hgood
      rw [hb]
    · have hb : b = true := hbad
      rw [hb]

end Sys2Proof.Machine
end

section
/-! SUPPORT. The energy contract: commits, the interval step, buckets and throttle episodes (17_energy.md R283 to R291). -/
namespace Sys2Proof.Machine

theorem bitNat_putBits_one (v i : Nat) : bitNat (putBits v i i 1) i = true := by
  have hone : i + 1 - i = 1 := by omega
  have hlow : v / 2 ^ i % 2 * 2 ^ i ≤ v :=
    Nat.le_trans (Nat.mul_le_mul_right _ (Nat.mod_le ..)) (Nat.div_mul_le_self v (2 ^ i))
  have hpos : 0 < 2 ^ i := Nat.two_pow_pos i
  unfold bitNat putBits bitsNat
  rw [hone, Nat.pow_one, show 1 % 2 = 1 from rfl, Nat.one_mul, Nat.add_div_right _ hpos, Nat.mul_comm, Nat.sub_mul_div,
    beq_iff_eq]
  omega

/-! ### Commits -/

section
variable {s : State}

theorem exec_contractCommit_up (hu : s.up = true) (v : Word) :
    exec (.contractCommit v) s =
      .next { s with damper := { s.damper with
        staged := Contract.ofWord (putBits v.toNat 16 16 1), pend := true, pendEc := s.ec + 1
        pendOld := if s.damper.pend ∧ s.damper.pendEc ≠ s.ec + 1 then some s.stagedNow else s.damper.pendOld } } := by
  have hold : (if true && s.damper.pend && s.damper.pendEc != s.ec + 1 then some s.stagedNow else s.damper.pendOld) =
      if s.damper.pend ∧ s.damper.pendEc ≠ s.ec + 1 then some s.stagedNow else s.damper.pendOld :=
    ite_of_iff (by simp)
  show s.atHost (s.contractWrite (putBits v.toNat 16 16 1)) = _
  rw [State.atHost, if_pos hu, State.contractWrite]
  dsimp only
  rw [bitNat_putBits_one, Bool.or_true, if_pos rfl, hold]

theorem State.toApply_none (h : s.damper.pend = false ∨ (s.damper.pendEc = s.ec + 1 ∧ s.damper.pendOld = none)) :
    s.toApply = none := by
  unfold State.toApply Damper.late
  obtain h | ⟨hec, hold⟩ := h
  · rw [h]
    rfl
  · rw [hec, hold]
    cases s.damper.pend <;> simp

/-- What a step applies, and whether a later commit stays pending behind it. -/
theorem State.toApply_some {x : Staged}
    (h : (s.damper.pend = true ∧ s.damper.pendEc ≠ s.ec + 1 ∧ x = s.stagedNow) ∨
      (s.damper.pend = true ∧ s.damper.pendEc = s.ec + 1 ∧ s.damper.pendOld = some x)) :
    s.toApply = some x ∧ s.damper.late s.ec = decide (s.damper.pendEc = s.ec + 1) := by
  unfold State.toApply Damper.late
  obtain ⟨hp, hec, rfl⟩ | ⟨hp, hec, hold⟩ := h
  · have hlate : (s.damper.pendEc == s.ec + 1) = false := beq_eq_false_iff_ne.2 hec
    rw [hp, hlate, decide_eq_false hec]
    exact ⟨rfl, rfl⟩
  · have hlate : (s.damper.pendEc == s.ec + 1) = true := beq_iff_eq.2 hec
    rw [hp, hlate, hold, decide_eq_true hec]
    exact ⟨rfl, rfl⟩

/-- The island i after a change of the islands of a list, each by its own function. -/
theorem State.island_foldl_modIsland (f : Nat → Island → Island) (i : Nat) :
    ∀ (l : List Nat) (s : State), l.Nodup →
      (l.foldl (fun s i => s.modIsland i (f i)) s).island i = if i ∈ l then f i (s.island i) else s.island i
  | [], _, _ => by simp
  | j :: l, s, hl => by
    obtain ⟨hj, hl⟩ := List.nodup_cons.1 hl
    rw [List.foldl_cons, State.island_foldl_modIsland f i l _ hl, State.island_modIsland]
    by_cases hij : i = j
    · subst hij
      rw [if_neg hj, if_pos rfl, if_pos (List.mem_cons_self ..)]
    · rw [if_neg hij]
      exact ite_of_iff (by simp [hij])

theorem State.island_setDamper (s : State) (d : Damper) (i : Nat) : ({ s with damper := d } : State).island i = s.island i := rfl

theorem State.applyCommit_none (h : s.toApply = none) : s.applyCommit = s := by
  rw [State.applyCommit, h]

variable {x : Staged} (hx : s.toApply = some x)
include hx

theorem State.applyCommit_refused (hok : x.ok = false) :
    s.applyCommit = { s with damper := { s.damper with pend := s.damper.late s.ec, pendOld := none, cerr := true } } := by
  rw [State.applyCommit, hx]
  exact if_neg (by rw [hok]; exact Bool.false_ne_true)

theorem State.applyCommit_applied (hok : x.ok = true) :
    s.applyCommit.damper = { s.damper with pend := s.damper.late s.ec, pendOld := none, applied := x.contract } ∧
      ∀ i, i < Config.nIslands → (s.applyCommit.island i).cap = (x.at i).1 ∧ (s.applyCommit.island i).grant = (x.at i).2 := by
  have happly : s.applyCommit =
      { allIslands.foldl (fun s i => s.modIsland i fun y => { y with cap := (x.at i).1, grant := (x.at i).2 }) s with
        damper := { s.damper with pend := s.damper.late s.ec, pendOld := none, applied := x.contract } } := by
    rw [State.applyCommit, hx]
    exact if_pos hok
  refine ⟨congrArg State.damper happly, fun i hi => ?_⟩
  have hisland : s.applyCommit.island i = { s.island i with cap := (x.at i).1, grant := (x.at i).2 } := by
    have hmem : i ∈ allIslands := List.mem_range.2 hi
    have hnodup : allIslands.Nodup := List.nodup_range
    generalize allIslands = l at happly hmem hnodup
    rw [happly, State.island_setDamper]
    exact (State.island_foldl_modIsland (fun i y => { y with cap := (x.at i).1, grant := (x.at i).2 }) i l s hnodup).trans
      (if_pos hmem)
  rw [hisland]
  exact ⟨rfl, rfl⟩

end

theorem Staged.ok_iff (x : Staged) : x.ok = true ↔ x.contract.ok = true ∧ (∀ e ∈ x.table, e.2.toNat ≤ e.1.toNat) ∧
    (x.table.map fun e => e.2.toNat).foldl (· + ·) 0 ≤ 10 * x.contract.psust.toNat := by
  unfold Staged.ok
  simp only [Bool.and_eq_true, List.all_eq_true, decide_eq_true_eq, and_assoc]

theorem State.stagedNow_at (s : State) {i : Nat} (hi : i < Config.nIslands) :
    s.stagedNow.at i = ((s.island i).capS, (s.island i).grantS) := by
  unfold Staged.at State.stagedNow allIslands
  rw [List.getElem?_map, List.getElem?_range hi]
  rfl

/-! ### Buckets -/

theorem bucketAfter_below {b d r cap g : Int} (hg : 0 ≤ g) (h : b - d < cap) :
    bucketAfter b d r cap g = min (b - d + r + g) cap := by
  unfold bucketAfter
  dsimp only
  split <;> omega

theorem bucketAfter_above {b d r cap : Int} (hr : 0 ≤ r) (g : Int) (h : cap ≤ b - d) : bucketAfter b d r cap g = b - d := by
  unfold bucketAfter
  dsimp only
  split <;> omega

theorem throttleNext_none (b p : Int) :
    throttleNext none b p = if p < 0 ∨ b < 0 then (true, some 0, false) else (false, none, false) := rfl

theorem throttleNext_opens {ep : Option Nat} {b p : Int} : (throttleNext ep b p).1 = true ↔ ep = none ∧ (p < 0 ∨ b < 0) := by
  cases ep with
  | none =>
    rw [throttleNext_none]
    split <;> simp_all
  | some n =>
    unfold throttleNext
    dsimp only
    split <;> simp

theorem throttleNext_ends {n : Nat} {b p : Int} (hp : 0 ≤ p) (hb : 0 ≤ b) : throttleNext (some n) b p = (false, none, false) :=
  if_pos ⟨hp, hb⟩

theorem throttleNext_lasts {n : Nat} {b p : Int} (h : ¬(0 ≤ p ∧ 0 ≤ b)) :
    throttleNext (some n) b p = (false, some (n + 1), decide (b < 0) && decide (2 ≤ n + 1)) := if_neg h

/-! ### What an event leaves of the islands and the warnings -/

/-- From s to t no warning changes, and no island but the command processor's. -/
def State.keepsIslands (s t : State) : Prop :=
  (∀ c, (t.core c).throttle = (s.core c).throttle) ∧ ∀ i, i ≠ 136 → t.island i = s.island i

theorem State.keepsIslands_of_eq {s t : State} (hc : t.cores = s.cores) (hi : t.islands = s.islands) : s.keepsIslands t :=
  ⟨fun c => by rw [State.core, State.core, hc], fun i _ => by rw [State.island, State.island, hi]⟩

theorem State.keepsIslands_trans {s t u : State} (hst : s.keepsIslands t) (htu : t.keepsIslands u) : s.keepsIslands u :=
  ⟨fun c => (htu.1 c).trans (hst.1 c), fun i hi => (htu.2 i hi).trans (hst.2 i hi)⟩

theorem State.keepsIslands_modCtx (s : State) (c : Nat) (f : Ctx → Ctx) : s.keepsIslands (s.modCtx c f) := by
  refine ⟨fun d => ?_, fun i _ => rfl⟩
  rw [State.core_modCtx]
  split
  case isTrue h => rw [h]
  case isFalse => rfl

theorem State.keepsIslands_breakResvs (s : State) (w : Wr) : s.keepsIslands (s.breakResvs w) := by
  refine ⟨fun c => ?_, fun i _ => rfl⟩
  have h := Tbl.get_map (f := fun c (k : Core) => { k with ctx := k.ctx.breakResv c w })
    (show { Core.reset with ctx := Core.reset.ctx.breakResv c w } = Core.reset from rfl) s.cores
  have ht := congrArg Core.throttle h
  exact ht

theorem State.keepsIslands_addWrites (s : State) (q : Actor) (scope : Nat) (parts : List (Nat × BitVec 4 × Bool × Memory)) :
    s.keepsIslands (s.addWrites q scope parts) := by
  have hfold : ∀ (wr : (Nat × BitVec 4 × Bool × Memory) → Wr) (s : State),
      s.keepsIslands (parts.foldl (fun s p => s.breakResvs (wr p)) s) := by
    intro wr
    induction parts with
    | nil => exact fun s => State.keepsIslands_of_eq rfl rfl
    | cons p l ih => exact fun s => State.keepsIslands_trans (s.keepsIslands_breakResvs _) (ih _)
  have hmend : ∀ cells, s.keepsIslands (s.mendLines cells) := by
    intro cells
    unfold State.mendLines
    split <;> exact State.keepsIslands_of_eq rfl rfl
  unfold State.addWrites
  dsimp only
  refine State.keepsIslands_trans ?_ (State.keepsIslands_of_eq rfl rfl)
  refine State.keepsIslands_trans ?_ (hfold _ _)
  exact State.keepsIslands_trans (hmend _) (State.keepsIslands_of_eq rfl rfl)

theorem State.keepsIslands_hwWrite (s : State) (sc pa : Nat) (bs : List Byte) : s.keepsIslands (s.hwWrite sc pa bs) :=
  s.keepsIslands_addWrites ..

theorem State.keepsIslands_meterUncore (s : State) (q n : Nat) : s.keepsIslands (s.meterUncore 136 q n) :=
  ⟨fun _ => rfl, fun _ hi => (State.island_modIsland ..).trans (if_neg hi)⟩

theorem State.keepsIslands_sootRecord (s : State) (dw0 dw2 dw3 : Nat) : s.keepsIslands (s.sootRecord dw0 dw2 dw3) := by
  unfold State.sootRecord
  dsimp only
  split
  · exact State.keepsIslands_of_eq rfl rfl
  · refine State.keepsIslands_trans ?_ (State.keepsIslands_meterUncore _ 1 1)
    exact State.keepsIslands_trans (s.keepsIslands_hwWrite ..) (State.keepsIslands_of_eq rfl rfl)

theorem State.keepsIslands_endWait (s : State) (c : Nat) (a : Agent) : s.keepsIslands (s.endWait c a) := by
  unfold State.endWait
  split
  · exact State.keepsIslands_of_eq rfl rfl
  · dsimp only
    split
    · exact State.keepsIslands_trans (s.keepsIslands_modCtx ..) (State.keepsIslands_sootRecord ..)
    · exact s.keepsIslands_modCtx ..

theorem State.keepsIslands_endedBy (s : State) (c : Nat) (a : Agent) (flag : Nat) (num : BitVec 32) (setter sc : Nat) :
    s.keepsIslands (s.endedBy c a flag num setter sc) := by
  unfold State.endedBy
  dsimp only
  split
  · exact State.keepsIslands_trans (s.keepsIslands_modCtx c _) (State.keepsIslands_endWait ..)
  · exact State.keepsIslands_of_eq rfl rfl

theorem State.keepsIslands_latchEvent (s : State) (c k setter sc : Nat) : s.keepsIslands (s.latchEvent c k setter sc) := by
  unfold State.latchEvent
  dsimp only
  split
  · exact State.keepsIslands_trans (State.keepsIslands_trans (s.keepsIslands_modCtx ..) (State.keepsIslands_modCtx ..))
      (State.keepsIslands_endWait ..)
  · split
    · exact State.keepsIslands_trans (s.keepsIslands_modCtx ..) (State.keepsIslands_endedBy ..)
    · exact s.keepsIslands_modCtx ..

/-! ### The step of one island -/

/-- The island after a step's part of its own, where b is its bucket and e its episode and stretch. -/
def Island.stepped (x : Island) (b : Int) (e : Bool × Option Nat × Bool) : Island :=
  { x with bucket := saturate24 b, was := x.bucket, owed := 0, deposits := 0, uncoreJ := x.uncoreFa / 64, episode := e.2.1, stretched := e.2.2 }

section
variable (s : State) (i : Nat)

/-- The island's debit, grant and bucket at a step. -/
def State.stepDebit : Int :=
  ((s.island i).due s.ec).owed + (((s.island i).due s.ec).uncoreFa / 64 - ((s.island i).due s.ec).uncoreJ)

def State.stepGrant : Int := 1000 * (s.grantBu ((s.island i).due s.ec) : Int)

def State.stepBucket : Int :=
  bucketAfter ((s.island i).due s.ec).bucket (s.stepDebit i) ((s.island i).due s.ec).deposits
    (1000 * (((s.island i).due s.ec).capOf : Int)) (s.stepGrant i)

def State.stepProjected : Int := s.stepBucket i + 2 * (s.stepGrant i - s.stepDebit i)

/-- The state before the warning that a step may raise. -/
def State.stepQuiet : State :=
  let x := (s.island i).due s.ec
  let v := s.modIsland i fun _ => x.stepped (s.stepBucket i) (throttleNext x.episode (s.stepBucket i) (s.stepProjected i))
  if i < Config.nCores ∧ x.bucket < s.stepBucket i then v.latchEvent i 12 7 i else v

theorem State.islandStep_eq : s.islandStep i =
    if (throttleNext ((s.island i).due s.ec).episode (s.stepBucket i) (s.stepProjected i)).1 then
      (s.stepQuiet i).warnThrottle i (s.stepProjected i) else s.stepQuiet i := rfl

theorem State.keepsIslands_stepQuiet : (s.modIsland i fun _ => ((s.island i).due s.ec).stepped (s.stepBucket i)
    (throttleNext ((s.island i).due s.ec).episode (s.stepBucket i) (s.stepProjected i))).keepsIslands (s.stepQuiet i) := by
  unfold State.stepQuiet
  dsimp only
  split
  · exact State.keepsIslands_latchEvent ..
  · exact State.keepsIslands_of_eq rfl rfl

variable {s i} (hi : i < Config.nCores)
include hi

theorem State.island_stepQuiet : (s.stepQuiet i).island i = ((s.island i).due s.ec).stepped (s.stepBucket i)
    (throttleNext ((s.island i).due s.ec).episode (s.stepBucket i) (s.stepProjected i)) := by
  have hne : i ≠ 136 := Nat.ne_of_lt (Nat.lt_trans hi (by decide))
  rw [(s.keepsIslands_stepQuiet i).2 i hne, State.island_modIsland, if_pos rfl]

omit hi in
theorem State.throttle_stepQuiet (c : Nat) : ((s.stepQuiet i).core c).throttle = (s.core c).throttle :=
  (s.keepsIslands_stepQuiet i).1 c

theorem State.island_islandStep : (s.islandStep i).island i = ((s.island i).due s.ec).stepped (s.stepBucket i)
    (throttleNext ((s.island i).due s.ec).episode (s.stepBucket i) (s.stepProjected i)) := by
  rw [State.islandStep_eq, ← State.island_stepQuiet hi]
  split
  · unfold State.warnThrottle
    split <;> rfl
  · rfl

theorem State.throttle_islandStep : ((s.islandStep i).core i).throttle =
    if (throttleNext ((s.island i).due s.ec).episode (s.stepBucket i) (s.stepProjected i)).1 then
      some (BitVec.ofInt 32 (s.stepProjected i)) else (s.core i).throttle := by
  rw [State.islandStep_eq]
  split
  · rw [State.warnThrottle, if_pos hi, State.core_modCore, if_pos rfl]
  · exact State.throttle_stepQuiet i

end

/-! ### Breaches -/

theorem State.breached_iff (s : State) :
    let t := s.damper.applied
    let n := min (100 * t.window.toNat) (max 1 s.damper.steps)
    s.breached = true ↔ t.psust.toNat * n < ((List.range n).map fun i => Config.boardPower (s.damper.steps - i)).sum ∨
      ∃ i, i < Config.nIslands ∧ 8 * t.tceil.toNat < (Config.telemetry i s.damper.steps).2.1.toNat := by
  unfold State.breached State.overPower allIslands stepsPerMs
  simp only [Bool.or_eq_true, decide_eq_true_eq, List.any_eq_true, List.mem_range]

theorem State.noteBreach_sets {s : State} (hb : s.breached = true) (hn : s.damper.breach = false) :
    s.noteBreach = { s with damper := { s.damper with breach := true } }.raiseMsix 9 :=
  if_pos (by rw [hb, hn]; rfl)

theorem State.noteBreach_keeps {s : State} (h : s.breached = false ∨ s.damper.breach = true) : s.noteBreach = s := by
  refine if_neg ?_
  obtain h | h := h <;> simp [h]

/-! ### The whole step -/

/-- The state of an interval step before its breach and digest records. -/
def State.stepped (s : State) : State :=
  let t := (List.range 9).foldl State.startZone (allIslands.foldl State.islandStep s.applyCommit.settleAll).admitAll.exportDeques
  { t with damper := { t.damper with steps := (t.damper.steps + 1) % 2 ^ 32, stepEc := s.ec + 1, pcur := t.damper.pset } }

theorem exec_intervalStep_eq (s : State) : exec .intervalStep s = .next s.stepped.noteBreach.digestRecords := rfl

/-- Settles O43: commits by their ec and order, the step by its parts, and each island's part by its bucket. -/
theorem energyContract : Obligations.EnergyContract := by
  unfold Obligations.EnergyContract
  intro s
  refine ⟨exec_contractCommit_up, fun hu => if_pos hu, fun h => State.applyCommit_none (State.toApply_none h),
    fun x hx => ?commit, Staged.ok_iff, fun i hi => s.stagedNow_at hi, rfl, ⟨s.stepped, exec_intervalStep_eq s, rfl, rfl, rfl⟩,
    fun x ec => ?due, fun b d r cap g hg hr => ⟨bucketAfter_below hg, bucketAfter_above hr g⟩, fun i hi => ?island,
    ⟨s.breached_iff, State.noteBreach_sets, State.noteBreach_keeps⟩,
    fun ep b p => ⟨throttleNext_opens, fun n hn hp hb => hn ▸ throttleNext_ends hp hb, fun n hn h => hn ▸ throttleNext_lasts h⟩⟩
  case commit =>
    obtain ⟨happly, hlate⟩ := State.toApply_some hx
    dsimp only
    rw [← hlate]
    exact ⟨State.applyCommit_applied happly, State.applyCommit_refused happly⟩
  case due =>
    unfold Island.due
    refine ⟨fun h => if_pos h, fun h => ?_⟩
    dsimp only
    rw [if_neg h]
    exact ⟨rfl, rfl⟩
  case island =>
    have hisland := State.island_islandStep (s := s) hi
    have hthrottle := State.throttle_islandStep (s := s) hi
    refine ⟨congrArg Island.bucket hisland, congrArg Island.was hisland, congrArg Island.deposits hisland, fun hep hlow => ?_,
      fun hep hp hb => ?_⟩
    · have hnext : throttleNext ((s.island i).due s.ec).episode (s.stepBucket i) (s.stepProjected i) = (true, some 0, false) := by
        rw [hep, throttleNext_none]
        exact if_pos hlow
      rw [hnext] at hisland hthrottle
      exact ⟨congrArg Island.episode hisland, hthrottle⟩
    · have hnext : throttleNext ((s.island i).due s.ec).episode (s.stepBucket i) (s.stepProjected i) = (false, none, false) := by
        rw [hep, throttleNext_none]
        exact if_neg (not_or.2 ⟨Int.not_lt.2 hp, Int.not_lt.2 hb⟩)
      rw [hnext] at hisland hthrottle
      exact ⟨congrArg Island.episode hisland, hthrottle⟩

end Sys2Proof.Machine
end

section
/-! SUPPORT. The power commands and the failures of regulators (24_power_bringup.md R345 to R348). -/
namespace Sys2Proof.Machine

theorem State.atHost_up {s : State} (h : s.up = true) (t : State) : s.atHost t = .next t := if_pos h

/-- A core may stop when it is halted with no valid timetable entry. -/
theorem State.mayStop_iff (s : State) (i : Nat) :
    s.mayStop i = true ↔ (s.core i).halted = true ∧ (s.core i).ent0.v = false ∧ (s.core i).ent1.v = false := by
  unfold State.mayStop
  simp only [Bool.and_eq_true, Bool.not_eq_true', and_assoc]

section
variable {s : State} {i : Nat} (hu : s.up = true)
include hu

theorem exec_islandOff_core (hi : i < 128) (hidle : s.mayStop i = true) (hbank : s.bankFull i = false) :
    exec (.islandOff i) s = .next ((s.stopIsland i 0 0).modCore i Core.unpowered) :=
  (if_pos hi).trans ((if_neg (by rw [hidle, hbank]; exact Bool.false_ne_true)).trans (State.atHost_up hu _))

theorem exec_islandOff_busy (hi : i < 128) (h : ¬s.mayStop i = true ∨ s.bankFull i = true) :
    exec (.islandOff i) s = .next (s.refusePower i) := by
  refine (if_pos hi).trans ((if_pos ?_).trans (State.atHost_up hu _))
  obtain h | h := h
  · rw [Bool.eq_false_iff.2 h]
    rfl
  · rw [h, Bool.or_true]

theorem exec_islandOff_uncore (hlo : 128 ≤ i) (hhi : i < 136)
    (hoff : ∀ k, k < 16 → (s.island (16 * (i - 128) + k)).pstate = 0) :
    exec (.islandOff i) s = .next (s.stopIsland i 0 0) := by
  refine (if_neg (Nat.not_lt.2 hlo)).trans ((if_neg ?_).trans (State.atHost_up hu _))
  rintro (h | h)
  · exact absurd hhi (Nat.not_lt.2 h)
  · obtain ⟨k, hk, hon⟩ := List.any_eq_true.1 h
    exact bne_iff_ne.1 hon (hoff k (List.mem_range.1 hk))

theorem exec_islandOff_uncoreBusy (hlo : 128 ≤ i) {k : Nat} (hk : k < 16)
    (hon : (s.island (16 * (i - 128) + k)).pstate ≠ 0) : exec (.islandOff i) s = .next (s.refusePower i) :=
  (if_neg (Nat.not_lt.2 hlo)).trans ((if_pos (.inr (List.any_eq_true.2 ⟨k, List.mem_range.2 hk, bne_iff_ne.2 hon⟩))).trans
    (State.atHost_up hu _))

theorem exec_islandRetainedOff_stops (h : i < 136 ∧ (i < 128 → s.mayStop i = true)) :
    exec (.islandRetainedOff i) s = .next (s.stopIsland i 2 (if (s.island i).pstate = 0 then 0 else 3)) := by
  refine (if_neg ?_).trans (State.atHost_up hu _)
  rintro (hi | ⟨hi, hbusy⟩)
  · exact absurd h.1 (Nat.not_lt.2 hi)
  · rw [h.2 hi] at hbusy
    exact Bool.false_ne_true hbusy

theorem exec_islandRetainedOff_busy (h : 136 ≤ i ∨ (i < 128 ∧ ¬s.mayStop i = true)) :
    exec (.islandRetainedOff i) s = .next (s.refusePower i) :=
  (if_pos (h.imp_right fun h => ⟨h.1, by rw [Bool.eq_false_iff.2 h.2]; rfl⟩)).trans (State.atHost_up hu _)

theorem exec_islandOff_shared (hi : 136 ≤ i) : exec (.islandOff i) s = .next (s.refusePower i) :=
  (if_neg (Nat.not_lt.2 (Nat.le_trans (by decide) hi))).trans ((if_pos (.inl hi)).trans (State.atHost_up hu _))

end

/-! ### Regulators -/

/-- An island one of whose regulator phases has failed. -/
def Island.losePhase (x : Island) (phase : BitVec 2) : Island :=
  { x with phase := x.phase &&& ~~~(BitVec.ofNat 4 (2 ^ phase.toNat)), derate := true }

theorem State.ownerOf_modIsland (s : State) (i j : Nat) (f : Island → Island) : (s.modIsland i f).ownerOf j = s.ownerOf j := rfl

theorem exec_regulatorPhaseFailure_eq (s : State) (i : Nat) (phase : BitVec 2) :
    exec (.regulatorPhaseFailure i phase) s =
      let u := s.modIsland i fun x => x.losePhase phase
      .next ((match s.ownerOf i with
        | some p => u.notify p 7 0 ((u.island i).report i) 0
        | none => u).raiseMsix 9) := by
  rw [← s.ownerOf_modIsland i i fun x => x.losePhase phase]
  rfl

/-- Settles O44: each command by the island's kind and what holds it, and each failure by its owner or its kind. -/
theorem powerAndProtection : Obligations.PowerAndProtection := by
  unfold Obligations.PowerAndProtection
  intro s i
  dsimp only
  rw [← s.mayStop_iff i]
  refine ⟨fun hu => ⟨State.atHost_up hu _, fun hi hidle hbank => exec_islandOff_core hu hi hidle hbank,
    fun hi h => exec_islandOff_busy hu hi h, fun hlo hhi hoff => exec_islandOff_uncore hu hlo hhi hoff,
    fun hlo _ k hk hon => exec_islandOff_uncoreBusy hu hlo hk hon,
    fun hlo hhi => exec_islandRetainedOff_stops hu ⟨hhi, fun hi => absurd hi (Nat.not_lt.2 hlo)⟩,
    fun hi hidle => exec_islandRetainedOff_stops hu ⟨Nat.lt_trans hi (by decide), fun _ => hidle⟩,
    fun hi hbusy => exec_islandRetainedOff_busy hu (.inr ⟨hi, hbusy⟩),
    fun hi => ⟨exec_islandOff_shared hu hi, exec_islandRetainedOff_busy hu (.inl hi)⟩⟩, rfl, ⟨rfl, rfl, rfl, rfl⟩,
    fun phase => ⟨fun p hp => ?owned, fun hp => ?free⟩, fun hi => if_pos hi, fun hi => if_neg (Nat.not_le.2 hi)⟩
  case owned =>
    rw [exec_regulatorPhaseFailure_eq, hp] <;> rfl
  case free =>
    rw [exec_regulatorPhaseFailure_eq, hp] <;> rfl

end Sys2Proof.Machine
end

section
/-! SUPPORT. The fabric's end at a saved context, and trusted interfaces (23_host_links_security.md R335 to R337). -/
namespace Sys2Proof.Machine

/-! ### A saved context whose command stands at a position that no 32-bit counter reaches -/

/-- A barrier at fabric scope that waits, at queue position 2^63. -/
def farBarrier : Entry :=
  { id := 0, qpos := 2 ^ 63, cmd := .barrier true 3, cls := 1, binds := Binds.reset, rd := [], wr := [], scored := true, pushed := true,
    started := true, begun := true, held := false, complete := false, todo := [], top := none, prog := 0, token := none, code := 0,
    seq := 0, writes := [], scope := 3, met := [], tops := [], tiles := [] }

/-- A saved context at whose CL head that barrier waits. -/
def farImage : Image :=
  { team := 0, member := 0, ctx := { Ctx.reset with clq := [farBarrier] }, pcore := 0, wher := 1, bank := false, b := Binding.reset,
    resident := true, aBytes := [], wBytes := [], aTags := [], wTags := [], lost := false, stopped := false }

def farSaved : State := { State.reset with images := [farImage] }

theorem clFabric_farImage : farImage.ctx.clFabric = some farBarrier := by decide +kernel

/-- The position runs into bit 63 of FSTAT, so that V of the record is clear. -/
theorem valid_stopFabricSaved_farSaved :
    (farSaved.stopFabricSaved 0).images[0]?.all (fun g => !(g.ctx.fault .cl).valid) = true := by decide +kernel

/-- Refutes O45: the statement says that the record of a saved context's fabric collective is valid whatever its queue position
is; at position 2^63 (`farSaved`) the sum that makes FSTAT overflows and V is clear. -/
theorem not_links : ¬Obligations.Links := by
  unfold Obligations.Links
  intro h
  obtain ⟨-, -, -, -, -, -, -, hsaved, -⟩ := h farSaved
  obtain ⟨g, hg, hvalid⟩ := hsaved 0 farImage farBarrier rfl clFabric_farImage
  have hclear := valid_stopFabricSaved_farSaved
  rw [hg, Option.all_some, hvalid] at hclear
  exact Bool.false_ne_true hclear

end Sys2Proof.Machine
end

section
/-! SUPPORT. Trusted interfaces, firmware and recovery (23_host_links_security.md R335, R336, R340 to R342;
24_power_bringup.md R349). -/
namespace Sys2Proof.Machine

/-! ### Trusted interfaces -/

/-- An interface takes the value that a change makes of it. -/
theorem State.modTdi_const (s : State) (n : Nat) (f : Tdi → Tdi) : s.modTdi n f = s.modTdi n fun _ => f (s.tdi n) := rfl

/-- The state that stopping interface n of partition p leaves (R336). -/
def State.interfaceStopped (s : State) (n p : Nat) : State :=
  let ts := (s.teams.filter fun e => e.2.part == p && (e.2.state == .running || e.2.state == .suspending)).map (·.1)
  (((ts.foldl State.freezeQuiet s).zeroPart p).modPart p fun x => { x with state := if x.state = 0 then 0 else 1 }).modTdi n
    fun x => { x with state := .unlocked }

section
variable {s : State} {n : BitVec 8}

theorem Tdi.alive_iff {x : Tdi} {now : Nat} : x.alive now = true ↔ x.session = true ∧ now ≤ x.lastBeat + 2 * x.period * second := by
  unfold Tdi.alive
  rw [Bool.and_eq_true, decide_eq_true_eq]

/-- An interface whose number no partition has is not there. -/
theorem exec_interface_absent (h : s.partOf n.toNat = none) :
    exec (.lockInterface n) s = .next s ∧ exec (.stopInterface n) s = .next s ∧ exec (.interfaceError n) s = .next s ∧
      exec (.sessionExpiry n) s = .next s ∧ ∀ p, exec (.keyExchange n p) s = .next s := by
  refine ⟨?_, ?_, ?_, ?_, fun p => if_pos (.inr (.inr (by rw [h]; rfl)))⟩
  · show execLockInterface n s = _
    rw [execLockInterface, h]
  · show execStopInterface n s = _
    rw [execStopInterface, h]
  · show execInterfaceError n s = _
    rw [execInterfaceError, h]
  · show execSessionExpiry n s = _
    rw [execSessionExpiry, h]

section
variable {p : Nat} (h : s.partOf n.toNat = some p)
include h

theorem exec_keyExchange_opens {t : Nat} (hlo : 1 ≤ t) (hhi : t ≤ 600) :
    exec (.keyExchange n t) s =
      .next (s.modTdi n.toNat fun x => { x with session := true, period := t, lastBeat := s.time }) := by
  refine if_neg ?_
  rintro (h0 | h600 | hnone)
  · omega
  · omega
  · rw [h] at hnone
    exact Bool.false_ne_true hnone

theorem exec_lockInterface_part :
    exec (.lockInterface n) s =
      if (s.part p).state = 1 then
        .next (s.modTdi n.toNat fun x => if x.state = .unlocked then { x with state := .locked } else x)
      else .next s := by
  show execLockInterface n s = _
  rw [execLockInterface, h]

theorem exec_interfaceError_part :
    exec (.interfaceError n) s =
      if (s.tdi n.toNat).state = .error ∨ ((s.tdi n.toNat).state ≠ .run ∧ (!(s.tdi n.toNat).session) = true) then .next s
      else .next (s.interfaceFails n.toNat p) := by
  show execInterfaceError n s = _
  rw [execInterfaceError, h]

theorem exec_sessionExpiry_part :
    exec (.sessionExpiry n) s =
      if !(s.tdi n.toNat).session || (s.tdi n.toNat).state == .error || (s.tdi n.toNat).alive s.time then .next s
      else .next (s.interfaceFails n.toNat p) := by
  show execSessionExpiry n s = _
  rw [execSessionExpiry, h]

theorem exec_sessionExpiry_expires (hs : (s.tdi n.toNat).session = true) (he : (s.tdi n.toNat).state ≠ .error)
    (hlate : (s.tdi n.toNat).lastBeat + 2 * (s.tdi n.toNat).period * second < s.time) :
    exec (.sessionExpiry n) s = .next (s.interfaceFails n.toNat p) := by
  have halive : (s.tdi n.toNat).alive s.time = false := Bool.eq_false_iff.2 fun ha => Nat.not_le.2 hlate (Tdi.alive_iff.1 ha).2
  refine (exec_sessionExpiry_part h).trans (if_neg ?_)
  rw [hs, beq_eq_false_iff_ne.2 he, halive]
  exact Bool.false_ne_true

theorem exec_sessionExpiry_keeps (hin : s.time ≤ (s.tdi n.toNat).lastBeat + 2 * (s.tdi n.toNat).period * second) :
    exec (.sessionExpiry n) s = .next s := by
  refine (exec_sessionExpiry_part h).trans (if_pos ?_)
  by_cases hs : (s.tdi n.toNat).session = true
  · rw [Tdi.alive_iff.2 ⟨hs, hin⟩, Bool.or_true]
  · rw [Bool.eq_false_iff.2 hs]
    rfl

theorem exec_stopInterface_locked (hu : (s.tdi n.toNat).state ≠ .unlocked) :
    exec (.stopInterface n) s = .next (s.interfaceStopped n.toNat p) := by
  show execStopInterface n s = _
  rw [execStopInterface, h]
  exact if_neg hu

theorem exec_stopInterface_unlocks (hu : (s.tdi n.toNat).state ≠ .unlocked) :
    ∃ u : State, exec (.stopInterface n) s = .next u ∧ (u.tdi n.toNat).state = .unlocked :=
  ⟨_, exec_stopInterface_locked h hu, by rw [State.interfaceStopped, State.tdi_modTdi, if_pos rfl]⟩

end

theorem State.interfaceFails_tdi (s : State) (n p : Nat) :
    ((s.interfaceFails n p).tdi n).state = .error ∧ ((s.interfaceFails n p).tdi n).session = false := by
  unfold State.interfaceFails
  dsimp only
  rw [State.tdi_modTdi, if_pos rfl]
  exact ⟨rfl, rfl⟩

end

/-- Settles O46: each event by whether the interface is there, its state, its session and its latest heartbeat. -/
theorem trustedInterfaces : Obligations.TrustedInterfaces := by
  unfold Obligations.TrustedInterfaces
  intro s n
  dsimp only
  refine ⟨exec_interface_absent, fun p h => ⟨fun t hlo hhi => exec_keyExchange_opens h hlo hhi, fun t ht => ?ignored,
    fun hp hx => ?locks, fun hp => (exec_lockInterface_part h).trans (if_neg hp), fun he hs => ?fails,
    fun he => (exec_interfaceError_part h).trans (if_pos (.inl he)), fun hs he hlate => exec_sessionExpiry_expires h hs he hlate,
    fun hin => exec_sessionExpiry_keeps h hin, (s.interfaceFails_tdi n.toNat p).1, (s.interfaceFails_tdi n.toNat p).2,
    fun hu => exec_stopInterface_unlocks h hu⟩, fun hs hin => ?renews, fun hlate => ?late, fun hl hs => ?runs, fun hl hs => ?waits,
    fun i hu hi => ?report⟩
  case ignored => exact if_pos (ht.imp_right .inl)
  case locks =>
    refine (exec_lockInterface_part h).trans ((if_pos hp).trans ?_)
    rw [State.modTdi_const, if_pos hx]
  case fails =>
    refine (exec_interfaceError_part h).trans (if_neg ?_)
    rintro (hx | ⟨hrun, hno⟩)
    · exact he hx
    · obtain hs | hs := hs
      · exact hrun hs
      · rw [hs] at hno
        exact Bool.false_ne_true hno
  case report =>
    show execMeasurementReportRequest n s = _
    rw [execMeasurementReportRequest, hu, hi] <;> rfl
  all_goals refine congrArg Host.Outcome.next ?_
  case renews => rw [State.modTdi_const, if_pos (Tdi.alive_iff.2 ⟨hs, hin⟩)]
  case late => rw [State.modTdi_const, if_neg fun ha => Nat.not_le.2 hlate (Tdi.alive_iff.1 ha).2]
  case runs => rw [State.modTdi_const, if_pos ⟨hl, hs⟩]
  case waits =>
    rw [State.modTdi_const, if_neg]
    rw [hs]
    exact fun h => Bool.false_ne_true h.2

/-! ### Firmware -/

section
variable {s : State} {i : FirmwareImage}

theorem State.accepts_iff : s.accepts i = true ↔ i.edOk = true ∧ i.mlOk = true ∧ i.svn ≤ 63 ∧ s.fw.fuseCount ≤ i.svn := by
  unfold State.accepts
  simp only [Bool.and_eq_true, decide_eq_true_eq, and_assoc]

theorem State.partRuns_iff : s.partRuns = true ↔ ∃ p, p < 8 ∧ (s.part p).state = 2 := by
  unfold State.partRuns
  simp only [List.any_eq_true, List.mem_range, beq_iff_eq]

theorem exec_resetRelease_begins (hu : s.up = false) (hi : s.fw.image = none) :
    exec (.resetRelease i) s =
      if s.accepts i then .next (s.bringUp i) else .next { s with fw := { s.fw with rstate := 3, image := none } } :=
  if_neg (by rw [hu, hi]; exact Bool.false_ne_true)

/-- A recovery that goes ahead verifies the staged image against what the device held before it. -/
theorem exec_recoveryGo_verifies (hr : ¬s.partRuns = true) :
    exec (.recoveryGo i) s =
      if s.accepts i && s.staged i then .next (s.rebooted.bringUp i)
      else .next ({ s.haltAll with fw := { s.fw with rstate := 2, code := Config.refusalCode s.free }, free := s.free + 1 }.raiseMsix 11) := by
  refine (if_neg hr).trans ?_
  have hgo : s.recoveryGo = { s.haltAll with fw := { s.fw with rstate := 1 } } := if_neg hr
  rw [hgo]
  rfl

/-! ### Bring-up -/

theorem State.enumerate_fw (s : State) : s.enumerate.fw = s.fw := by
  unfold State.enumerate
  dsimp only
  split <;> rfl

theorem State.bringUp_image (s : State) (i : FirmwareImage) : (s.bringUp i).fw.image = some i := by
  unfold State.bringUp
  dsimp only
  split
  · rfl
  · rw [State.enumerate_fw]
    rfl

/-- The state of a bring-up whose ports have been loaded. -/
def State.portsLoaded (s : State) (i : FirmwareImage) : State :=
  (({ s with fw := { s.fw with image := some i, rstate := 0 } } : State).modPort 0 fun _ => bootPort i.mode0 i.elanes0).modPort 1
    fun _ => bootPort i.mode1 i.elanes1

theorem State.bringUp_trains (h : i.lp6Trains = true) : s.bringUp i = (s.portsLoaded i).enumerate :=
  if_neg (by rw [h]; exact Bool.false_ne_true)

theorem State.portsLoaded_ports (s : State) (i : FirmwareImage) :
    (s.portsLoaded i).port 0 = bootPort i.mode0 i.elanes0 ∧ (s.portsLoaded i).port 1 = bootPort i.mode1 i.elanes1 := by
  unfold State.portsLoaded
  simp only [State.port_modPort]
  exact ⟨rfl, rfl⟩

theorem bootPort_off (elanes : BitVec 2) : (bootPort 0 elanes).mode = 0 := by revert elanes; decide

theorem bootPort_on {elanes : BitVec 2} (h : elanes ≠ 0) : (bootPort 1 elanes).mode = 1 ∧ (bootPort 1 elanes).lstate = 1 := by
  revert elanes
  decide

theorem State.enumerate_trained (hu : s.up = false) (hi : s.fw.image = some i) (hl : i.lp6Trains = true)
    (h0 : (s.port 0).mode = 0) (h1 : (s.port 1).mode = 0) : s.enumerate = { s with hostUp := true, up := true } := by
  refine if_pos ?_
  simp [hu, hi, hl, h0, h1]

theorem State.enumerate_training (h0 : (s.port 0).mode = 1) (h1 : (s.port 0).lstate = 1) : s.enumerate = s := by
  refine if_neg ?_
  simp [h0, h1]

/-! ### The fuse counter -/

theorem State.fuseCommit_some {k : FirmwareImage} (h : s.fw.image = some k) :
    s.fuseCommit = { s with fw := { s.fw with fuse := s.fw.fuse ||| BitVec.ofNat 64 (2 ^ k.svn - 1) } } := by
  rw [State.fuseCommit, h]

theorem State.fuseCommit_none (h : s.fw.image = none) : s.fuseCommit = s := by
  rw [State.fuseCommit, h]

theorem State.fuseCommit_keeps {n : Nat} (h : s.fw.fuse.getLsbD n = true) : s.fuseCommit.fw.fuse.getLsbD n = true := by
  cases hi : s.fw.image with
  | none => rw [State.fuseCommit_none hi, h]
  | some k =>
    rw [State.fuseCommit_some hi]
    show (s.fw.fuse ||| BitVec.ofNat 64 (2 ^ k.svn - 1)).getLsbD n = true
    rw [BitVec.getLsbD_or, h, Bool.true_or]

/-- A row whose bits below n are set counts at least n. -/
theorem Firmware.le_fuseCount {x : Firmware} {n : Nat} (hn : n ≤ 64) (h : ∀ k, k < n → x.fuse.getLsbD k = true) :
    n ≤ x.fuseCount := by
  have hrange : List.range 64 = List.range n ++ (List.range (64 - n)).map (n + ·) := by
    rw [← List.range_add, Nat.add_sub_cancel' hn]
  have hlow : (List.range n).filter x.fuse.getLsbD = List.range n :=
    List.filter_eq_self.2 fun k hk => h k (List.mem_range.1 hk)
  rw [Firmware.fuseCount, hrange, List.filter_append, hlow, List.length_append, List.length_range]
  exact Nat.le_add_right ..

theorem State.le_fuseCount_fuseCommit {k : FirmwareImage} (h : s.fw.image = some k) (hk : k.svn ≤ 63) :
    k.svn ≤ s.fuseCommit.fw.fuseCount := by
  rw [State.fuseCommit_some h]
  refine Firmware.le_fuseCount (Nat.le_trans hk (by decide)) fun n hn => ?_
  show (s.fw.fuse ||| BitVec.ofNat 64 (2 ^ k.svn - 1)).getLsbD n = true
  rw [BitVec.getLsbD_or, BitVec.getLsbD_ofNat, Nat.testBit_two_pow_sub_one, decide_eq_true hn, Bool.and_true,
    decide_eq_true (by omega : n < 64), Bool.or_true]

end

/-- Settles O47: boot and recovery by what the boot ROM accepts, bring-up by its ports, and the commit by the row of fuses. -/
theorem firmwareAndRecovery : Obligations.FirmwareAndRecovery := by
  unfold Obligations.FirmwareAndRecovery
  intro s i
  dsimp only
  rw [← State.accepts_iff, ← State.partRuns_iff]
  refine ⟨fun hu hn ha => (exec_resetRelease_begins hu hn).trans (if_pos ha),
    fun hu hn ha => (exec_resetRelease_begins hu hn).trans (if_neg ha), fun h => if_pos (Bool.or_eq_true_iff.2 h), fun h => if_pos h,
    fun hr ha hs => (exec_recoveryGo_verifies hr).trans (if_pos ?boots), fun hr hno => ⟨_, (exec_recoveryGo_verifies hr).trans (if_neg ?refused), rfl, rfl, rfl⟩,
    s.bringUp_image i, fun hl hu => ?ports, fun hl => ?untrained,
    fun k hk => ⟨congrArg Host.Outcome.next (State.fuseCommit_some hk), State.le_fuseCount_fuseCommit hk⟩,
    fun n hn => State.fuseCommit_keeps hn, fun hn => congrArg Host.Outcome.next (State.fuseCommit_none hn)⟩
  case boots =>
    rw [ha]
    exact decide_eq_true hs
  case refused =>
    rw [Bool.and_eq_true]
    exact fun h => hno ⟨h.1, of_decide_eq_true h.2⟩
  case ports =>
    obtain ⟨hp0, hp1⟩ := s.portsLoaded_ports i
    rw [State.bringUp_trains hl]
    refine ⟨fun h0 h1 => ?_, fun h0 hlanes => ?_⟩
    · rw [State.enumerate_trained (s := s.portsLoaded i) (i := i) hu rfl hl (by rw [hp0, h0]; exact bootPort_off _)
        (by rw [hp1, h1]; exact bootPort_off _)]
      exact ⟨rfl, rfl⟩
    · have hport : (s.portsLoaded i).port 0 = bootPort 1 i.elanes0 := by rw [hp0, h0]
      rw [State.enumerate_training (by rw [hport]; exact (bootPort_on hlanes).1) (by rw [hport]; exact (bootPort_on hlanes).2),
        hport]
      exact ⟨hu, (bootPort_on hlanes).2⟩
  case untrained =>
    rw [State.bringUp, hl]
    rfl

end Sys2Proof.Machine
end

section
/-! SUPPORT. Service completions, returned pages, Soot and the error block (08_stoker_isa.md R173, R174;
20_translation_faults.md R319; and the debug chapter's R350 to R353). -/
namespace Sys2Proof.Machine

/-! ### What a trace record leaves of the holds -/

/-- From s to t no core's halt or hold changes, and no saved context becomes another's or goes on. -/
def State.keepsHolds (s t : State) : Prop :=
  (∀ c, (t.core c).halted = (s.core c).halted ∧ (t.core c).hold = (s.core c).hold) ∧
    ∀ h ∈ t.images, ∃ g ∈ s.images, h.team = g.team ∧ h.member = g.member ∧ h.stopped = g.stopped

theorem State.keepsHolds_of_eq {s t : State} (hc : t.cores = s.cores) (hi : t.images = s.images) : s.keepsHolds t :=
  ⟨fun c => by simp only [State.core, hc, and_self], fun h hh => ⟨h, hi ▸ hh, rfl, rfl, rfl⟩⟩

theorem State.keepsHolds_trans {s t u : State} (hst : s.keepsHolds t) (htu : t.keepsHolds u) : s.keepsHolds u := by
  refine ⟨fun c => ⟨(htu.1 c).1.trans (hst.1 c).1, (htu.1 c).2.trans (hst.1 c).2⟩, fun h hh => ?_⟩
  obtain ⟨g, hg, hteam, hmember, hstopped⟩ := htu.2 h hh
  obtain ⟨f, hf, gteam, gmember, gstopped⟩ := hst.2 g hg
  exact ⟨f, hf, hteam.trans gteam, hmember.trans gmember, hstopped.trans gstopped⟩

theorem State.keepsHolds_foldl {α : Type} {f : State → α → State} (hf : ∀ (u : State) a, u.keepsHolds (f u a)) (l : List α) (s : State) :
    s.keepsHolds (l.foldl f s) := by
  induction l generalizing s with
  | nil => exact State.keepsHolds_of_eq rfl rfl
  | cons a l ih => exact State.keepsHolds_trans (hf s a) (ih _)

theorem State.keepsHolds_modCtx (s : State) (c : Nat) (f : Ctx → Ctx) : s.keepsHolds (s.modCtx c f) := by
  refine ⟨fun d => ?_, fun h hh => ⟨h, hh, rfl, rfl, rfl⟩⟩
  rw [State.core_modCtx]
  split
  case isTrue h =>
    rw [h]
    exact ⟨rfl, rfl⟩
  case isFalse => exact ⟨rfl, rfl⟩

theorem State.keepsHolds_breakResvs (s : State) (w : Wr) : s.keepsHolds (s.breakResvs w) := by
  refine ⟨fun c => ?_, fun h hh => ?_⟩
  · have hmap := Tbl.get_map (f := fun c (k : Core) => { k with ctx := k.ctx.breakResv c w })
      (show { Core.reset with ctx := Core.reset.ctx.breakResv c w } = Core.reset from rfl) s.cores
    have hhalted := congrArg Core.halted hmap
    have hhold := congrArg Core.hold hmap
    exact ⟨hhalted, hhold⟩
  · obtain ⟨g, hg, rfl⟩ := List.mem_map.1 hh
    exact ⟨g, hg, rfl, rfl, rfl⟩

theorem State.keepsHolds_addWrites (s : State) (q : Actor) (scope : Nat) (parts : List (Nat × BitVec 4 × Bool × Memory)) :
    s.keepsHolds (s.addWrites q scope parts) := by
  have hmend : ∀ cells, s.keepsHolds (s.mendLines cells) := by
    intro cells
    unfold State.mendLines
    split <;> exact State.keepsHolds_of_eq rfl rfl
  unfold State.addWrites
  dsimp only
  refine State.keepsHolds_trans ?_ (State.keepsHolds_of_eq rfl rfl)
  refine State.keepsHolds_trans ?_ (State.keepsHolds_foldl (fun u _ => u.keepsHolds_breakResvs _) parts _)
  exact State.keepsHolds_trans (hmend _) (State.keepsHolds_of_eq rfl rfl)

theorem State.keepsHolds_sootRecord (s : State) (dw0 dw2 dw3 : Nat) : s.keepsHolds (s.sootRecord dw0 dw2 dw3) := by
  unfold State.sootRecord
  dsimp only
  split
  · exact State.keepsHolds_of_eq rfl rfl
  · exact State.keepsHolds_trans (s.keepsHolds_addWrites ..) (State.keepsHolds_of_eq rfl rfl)

theorem State.keepsHolds_endWait (s : State) (c : Nat) (a : Agent) : s.keepsHolds (s.endWait c a) := by
  unfold State.endWait
  split
  · exact State.keepsHolds_of_eq rfl rfl
  · dsimp only
    split
    · exact State.keepsHolds_trans (s.keepsHolds_modCtx ..) (State.keepsHolds_sootRecord ..)
    · exact s.keepsHolds_modCtx ..

theorem State.keepsHolds_openWaits (s : State) (c : Nat) : s.keepsHolds (s.openWaits c) := by
  unfold State.openWaits
  dsimp only
  split
  · exact State.keepsHolds_of_eq rfl rfl
  · refine State.keepsHolds_trans (State.keepsHolds_foldl (fun u w => ?_) _ _)
      (State.keepsHolds_foldl (fun u w => u.keepsHolds_sootRecord ..) _ _)
    cases agentCoded w.agent with
    | none => exact State.keepsHolds_of_eq rfl rfl
    | some a => exact u.keepsHolds_endWait c a

theorem State.keepsHolds_headsOf (s : State) (kind c launch : Nat) (x : Ctx) : s.keepsHolds (s.headsOf kind c launch x) :=
  State.keepsHolds_foldl (fun u _ => u.keepsHolds_sootRecord ..) _ _

theorem State.keepsHolds_headRecords (s : State) (kind c : Nat) : s.keepsHolds (s.headRecords kind c) := by
  unfold State.headRecords
  split
  · exact State.keepsHolds_of_eq rfl rfl
  · exact s.keepsHolds_headsOf ..

/-! ### Stops -/

theorem State.stopCore_holds {s : State} {c : Nat} (h : (s.core c).hold = .none) :
    ((s.stopCore c).core c).halted = true ∧ ((s.stopCore c).core c).hold = .stopped := by
  have hkeep : (s.modCore c fun k => holdCore (if k.hold = .none then .stopped else k.hold) k).keepsHolds (s.stopCore c) :=
    State.keepsHolds_trans (State.keepsHolds_openWaits _ c) (State.keepsHolds_headRecords _ 4 c)
  have hheld : (s.modCore c fun k => holdCore (if k.hold = .none then .stopped else k.hold) k).core c =
      holdCore .stopped (s.core c) := by
    rw [State.core_modCore, if_pos rfl, if_pos h]
  rw [(hkeep.1 c).1, (hkeep.1 c).2, hheld]
  exact ⟨rfl, rfl⟩

/-- The state with every saved context of a running team's member stopped. -/
def State.imagesStopped (s : State) (t : Nat) (x : Team) (m : Nat) : State :=
  { s with images := s.images.map fun g => if g.team = t ∧ g.member = m ∧ x.state = .running then { g with stopped := true } else g }

theorem State.imagesStopped_stopped {s : State} {t m : Nat} {x : Team} (hx : x.state = .running) {h : Image}
    (hh : h ∈ (s.imagesStopped t x m).images) (ht : h.team = t) (hm : h.member = m) : h.stopped = true := by
  obtain ⟨g, -, rfl⟩ := List.mem_map.1 hh
  by_cases hg : g.team = t ∧ g.member = m ∧ x.state = .running
  · rw [if_pos hg]
  · rw [if_neg hg] at ht hm
    exact absurd ⟨ht, hm, hx⟩ hg

theorem State.keepsHolds_stopImage {s : State} {t k : Nat} {x : Team} {m : Member × Nat} {g : Image}
    (hk : s.imageOf t m.2 = some k) (hg : s.images[k]? = some g) : (s.imagesStopped t x m.2).keepsHolds (s.stopImage t x m) := by
  have hfound : (s.imageOf t m.2).bind (s.images[·]?) = some g := by rw [hk]; exact hg
  unfold State.stopImage
  rw [hfound]
  dsimp only
  split
  · exact State.keepsHolds_headsOf ..
  · exact State.keepsHolds_of_eq rfl rfl

theorem State.stopImage_stopped {s : State} {t k : Nat} {x : Team} {m : Member × Nat} {g : Image} (hx : x.state = .running)
    (hk : s.imageOf t m.2 = some k) (hg : s.images[k]? = some g) {h : Image} (hh : h ∈ (s.stopImage t x m).images)
    (ht : h.team = t) (hm : h.member = m.2) : h.stopped = true := by
  obtain ⟨f, hf, hteam, hmember, hstopped⟩ := (State.keepsHolds_stopImage hk hg).2 h hh
  rw [hstopped]
  exact State.imagesStopped_stopped hx hf (hteam ▸ ht) (hmember ▸ hm)

theorem State.stopTeam_stops {s : State} {t : Nat} {x : Team} (h : Tbl.get? s.teams t = some x)
    (hx : x.state = .running ∨ x.state = .suspending) : s.stopTeam t = x.live.foldl (fun u m =>
      if (u.core m.1.core).task == some (t, m.2) then u.stopCore m.1.core else u.stopImage t x m) s := by
  rw [State.stopTeam, h]
  refine if_neg fun hno => ?_
  obtain hr | hs := hx
  · exact hno.1 hr
  · exact hno.2 hs

theorem State.stopTeam_keeps {s : State} {t : Nat} {x : Team} (h : Tbl.get? s.teams t = some x) (hr : x.state ≠ .running)
    (hs : x.state ≠ .suspending) : s.stopTeam t = s := by
  rw [State.stopTeam, h]
  exact if_pos ⟨hr, hs⟩

theorem State.sampleDue_iff {s : State} :
    s.sampleDue = true ↔ s.soot.ctl.toNat / 4 % 2 = 1 ∧ s.soot.sampled < s.ec / 65536 := by
  unfold State.sampleDue State.samplePeriod
  rw [Bool.and_eq_true, decide_eq_true_eq]
  simp [bitNat]

/-- A breakpoint that is hit at a core that nothing holds: the record, and the stop of the team or of the core. -/
theorem exec_breakpointStop_hit {s : State} {k c : Nat} {a : Agent} (h : s.brkHit k = some (c, a)) (hhold : (s.core c).hold = .none)
    (hhalted : (s.core c).halted = false) :
    let u := if s.sootOn c then s.sootRecord (sootDw0 3 a.code c ((s.ctx c).position a)) 0 (s.launchNo c * 2 ^ 32) else s
    exec (.breakpointStop k) s = match (u.core c).task with
      | some (t, _) => .next (u.stopTeam t)
      | none => .next (u.stopCore c) := by
  show execBreakpointStop k s = _
  rw [execBreakpointStop, h]
  refine if_neg ?_
  rw [hhold, hhalted]
  rintro (hno | hno)
  · exact hno rfl
  · exact Bool.false_ne_true hno

/-! ### Requests -/

section
variable {s : State} {k : Nat} {r : Request} {err : Bool} {value : BitVec 48} {data : List Byte}

/-- The state in which request k is no more. -/
def State.requestGone (s : State) (k : Nat) : State := { s with requests := dropAt s.requests k }

/-- The completion doubleword of a request, and its event. -/
def State.requestDone (s : State) (r : Request) (err : Bool) (value : Nat) : State :=
  (s.serviceWrite r r.done 8 (leBytes 8 (2 ^ 63 + (if err then 2 ^ 62 else 0) + value % 2 ^ 48))).eventMember r.team r.member

theorem State.answer_quiet {s : State} {err : Bool} {value : Nat} (h : (r.delivers && !err) = false) :
    s.answer r err value data = s.requestDone r err value := by
  unfold State.answer
  rw [h]
  rfl

theorem State.answer_delivers {s : State} {value : Nat} (h : r.delivers = true) :
    s.answer r false value data =
      (s.serviceWrite r r.buf (data.take r.len).length (data.take r.len)).requestDone r false value := by
  unfold State.answer
  rw [h]
  rfl

theorem exec_serviceCompletion_request (h : s.requests[k]? = some r) :
    exec (.serviceCompletion k err value data) s =
      if s.mute r then .next (s.requestGone k)
      else if s.foreign r then .next ((s.requestGone k).answer r true 3 [])
      else if err || r.delivers then .next ((s.requestGone k).answer r err value.toNat data)
      else .next ({ (s.readPayload k).requestGone k with
        sent := (s.readPayload k).sent ++ [(r.service, r.handle, (((s.readPayload k).requests[k]?).bind (·.payload)).getD [])] }.answer
          r false value.toNat []) := by
  show execServiceCompletion k err value data s = _
  rw [execServiceCompletion, h]
  rfl

variable (h : s.requests[k]? = some r) (hmute : s.mute r = false)
include h hmute

theorem exec_serviceCompletion_foreign (hf : s.foreign r = true) :
    exec (.serviceCompletion k err value data) s = .next ((s.requestGone k).requestDone r true 3) := by
  rw [exec_serviceCompletion_request h, hmute, hf]
  simp only [Bool.false_eq_true, if_true, if_false]
  rw [State.answer_quiet (Bool.and_false _)]

variable (hf : s.foreign r = false)
include hf

theorem exec_serviceCompletion_error (he : err = true) :
    exec (.serviceCompletion k err value data) s = .next ((s.requestGone k).requestDone r true value.toNat) := by
  rw [exec_serviceCompletion_request h, hmute, hf, he]
  simp only [Bool.false_eq_true, Bool.true_or, if_true, if_false]
  rw [State.answer_quiet (Bool.and_false _)]

theorem exec_serviceCompletion_delivers (he : err = false) (hd : r.delivers = true) :
    exec (.serviceCompletion k err value data) s = .next (((s.requestGone k).serviceWrite r r.buf (data.take r.len).length
      (data.take r.len)).requestDone r false value.toNat) := by
  rw [exec_serviceCompletion_request h, hmute, hf, he, hd, State.answer_delivers hd]
  simp only [Bool.false_eq_true, Bool.or_true, if_true, if_false]

theorem exec_serviceCompletion_sends {y : Request} {pay : List Byte} (he : err = false) (hd : r.delivers = false)
    (hy : (s.readPayload k).requests[k]? = some y) (hpay : y.payload = some pay) :
    exec (.serviceCompletion k err value data) s = .next (State.requestDone { (s.readPayload k).requestGone k with
      sent := (s.readPayload k).sent ++ [(r.service, r.handle, pay)] } r false value.toNat) := by
  have hread : (((s.readPayload k).requests[k]?).bind (·.payload)).getD [] = pay := by
    rw [hy]
    show y.payload.getD [] = pay
    rw [hpay]
    rfl
  rw [exec_serviceCompletion_request h, hmute, hf, he, hread, hd]
  simp only [Bool.false_eq_true, Bool.or_false, if_false]
  rw [State.answer_quiet (by rw [hd]; rfl)]

end

theorem exec_lentPageReturn_lent {s : State} {p : Nat} {page : BitVec 57} {l : Lent}
    (h : s.lent.find? (fun l => l.part == p && l.page == page.toNat) = some l) :
    exec (.lentPageReturn p page) s =
      if s.pageNamed l || (s.tdi (s.part p).tdi.toNat).state == .error then .next s
      else .next (({ s with lent := s.lent.filter (· != l) } : State).eventMember l.team l.member) := by
  show execLentPageReturn p page s = _
  rw [execLentPageReturn, h]

/-- Settles O48: requests by whether their interface has failed, their handle and what they deliver; stops by where a member is. -/
theorem servicesAndDebug : Obligations.ServicesAndDebug := by
  unfold Obligations.ServicesAndDebug
  intro s
  dsimp only
  refine ⟨fun k r err value data h => ⟨fun hm => ?mute, fun hm hf => exec_serviceCompletion_foreign h hm hf, fun hm hf =>
      ⟨fun he => exec_serviceCompletion_error h hm hf he, fun he hd => exec_serviceCompletion_delivers h hm hf he hd,
        fun y pay he hd hy hpay => exec_serviceCompletion_sends h hm hf he hd hy hpay⟩⟩,
    fun p page l h => ⟨fun hn => ?named, fun hn he => ?returned⟩, fun hu => State.atHost_up hu _,
    fun t x h => ⟨State.stopTeam_stops h, State.stopTeam_keeps h, fun m k g hx hk hg f hf => State.stopImage_stopped hx hk hg hf⟩,
    fun c h => State.stopCore_holds h, fun h => ?sampled, State.sampleDue_iff, fun h => ?notDue,
    fun k c a h hhold hhalted => ⟨fun hnone => ?stopsCore, fun t m htask => ?stopsTeam⟩,
    fun hu k v => ⟨State.atHost_up hu _, fun hk => ?inj, fun hk => ?latinj, rfl, rfl⟩⟩
  case mute =>
    rw [exec_serviceCompletion_request h]
    exact if_pos hm
  case named =>
    rw [exec_lentPageReturn_lent h, hn]
    rfl
  case returned =>
    rw [exec_lentPageReturn_lent h, hn, beq_eq_false_iff_ne.2 he]
    rfl
  case sampled => exact if_neg (by rw [h]; exact Bool.false_ne_true)
  case notDue => exact if_pos (by rw [h]; rfl)
  case stopsCore => rw [exec_breakpointStop_hit h hhold hhalted, hnone]
  case stopsTeam => rw [exec_breakpointStop_hit h hhold hhalted, htask]
  case inj => exact (if_neg (by omega)).trans (State.atHost_up hu _)
  case latinj => exact (if_neg (by omega)).trans (State.atHost_up hu _)

end Sys2Proof.Machine
end

section
/-! SUPPORT. The windows of BAR 0 (16_system_state.md R275, R278 to R280; 19_scheduling.md R299; 20_translation_faults.md R310,
R316; 23_host_links_security.md R335). -/
namespace Sys2Proof.Machine

/-! ### The partition window -/

section
variable {s : State} {p : Nat}

theorem exec_partitionConfigWrite_up (hu : s.up = true) (hp : p < 8) (off : Nat) (v : Word) :
    exec (.partitionConfigWrite p off v) s = .next (s.partWrite p off v.toNat) :=
  (if_neg (Nat.not_le.2 hp)).trans (State.atHost_up hu _)

theorem exec_tlbInvalidate_window (hp : p < 8) (v : Word) :
    exec (.tlbInvalidate p v) s = s.atWindow p (s.tlbinvWrite p v.toNat) := if_neg (Nat.not_le.2 hp)

theorem State.partWrite_locked (h : s.windowLocked p = true) (off v : Nat) : s.partWrite p off v = s.refusePart p := if_pos h

theorem State.tlbinvWrite_go {v : Nat} (h : bitNat v 0 = true) :
    (s.tlbinvWrite p v).tlb = s.tlb.filter fun e => !(e.part == p && tlbinvDrops v e) := by
  rw [State.tlbinvWrite, if_pos h]
  rfl

/-- A STATE of 3, another cluster mask while the partition runs, and STATE 0 with tasks left are refused. -/
theorem State.configRefused_of {v : Nat} (h : bitsNat v 9 8 = 3 ∨ ((s.part p).state = 2 ∧ bitsNat v 7 0 ≠ (s.part p).clmask.toNat) ∨
    (bitsNat v 9 8 = 0 ∧ s.busyPart p = true)) : s.configRefused p v = true := by
  unfold State.configRefused
  simp only [Bool.or_eq_true, Bool.and_eq_true, beq_iff_eq, bne_iff_ne]
  obtain h3 | ⟨h2, hmask⟩ | ⟨h0, hbusy⟩ := h
  · exact .inl (.inl (.inl (.inr h3)))
  · exact .inl (.inl (.inl (.inl (.inr ⟨h2, hmask⟩))))
  · exact .inl (.inl (.inr ⟨h0, hbusy⟩))

section
variable (h : s.windowLocked p = false)
include h

theorem State.partWrite_config (v : Nat) : s.partWrite p 0x00 v = s.configWrite p v :=
  if_neg (by rw [h]; exact Bool.false_ne_true)

theorem State.partWrite_root (v : Nat) :
    s.partWrite p 0x08 v = s.heldWrite p (s.part p).root (bitsNat v 51 12 * 4096) fun x => { x with root := bitsNat v 51 12 * 4096 } :=
  if_neg (by rw [h]; exact Bool.false_ne_true)

theorem State.partWrite_pwbase (v : Nat) :
    s.partWrite p 0x40 v =
      s.heldWrite p (s.part p).pwbase (bitsNat v 51 12 * 4096) fun x => { x with pwbase := bitsNat v 51 12 * 4096 } :=
  if_neg (by rw [h]; exact Bool.false_ne_true)

theorem State.partWrite_pwlim (v : Nat) :
    s.partWrite p 0x48 v =
      s.heldWrite p (s.part p).pwlim (bitsNat v 51 12 * 4096) fun x => { x with pwlim := bitsNat v 51 12 * 4096 } :=
  if_neg (by rw [h]; exact Bool.false_ne_true)

end

theorem State.configWrite_accepted {v : Nat} (h : s.configRefused p v = false) :
    s.configWrite p v =
      let set := s.modPart p fun x =>
        { x with tdi := BitVec.ofNat 8 (bitsNat v 23 16), state := BitVec.ofNat 2 (bitsNat v 9 8),
                 clmask := BitVec.ofNat 8 (bitsNat v 7 0) }
      if (s.part p).state = 2 ∧ bitsNat v 9 8 = 1 then
        (set.teams.filter fun e => e.2.part == p && e.2.state == .running).foldl (fun s e => s.beginDrain e.1) set
      else set := if_neg (by rw [h]; exact Bool.false_ne_true)

theorem State.heldWrite_held {old new : Nat} {f : Part → Part} (h : (s.part p).state = 2) (hne : old ≠ new) :
    s.heldWrite p old new f = s.refusePart p := if_pos ⟨h, hne⟩

/-! ### Freezes that the host resolves -/

/-- The partition with its FZCTL written: the TCB's address, and what is asked for. -/
def State.fzctlSet (s : State) (p a n : Nat) : State :=
  s.modPart p fun y => { y with fzctl := BitVec.ofNat 64 (a / 128 * 128 + n) }

theorem State.inError_fzctlSet (s : State) (p a n : Nat) : (s.fzctlSet p a n).inError p = s.inError p := by
  unfold State.inError State.fzctlSet
  rw [State.part_modPart, if_pos rfl]
  rfl

section
variable {a : BitVec 57} {t m : Nat} {x : Team} (hu : s.up = true)
include hu

theorem exec_freeze_locked (h : s.windowLocked p = true) :
    exec (.freezeResume p a) s = .next (s.refusePart p) ∧ exec (.freezeKill p a) s = .next (s.refusePart p) := by
  have hup : ¬(!s.up) = true := by rw [hu]; exact Bool.false_ne_true
  exact ⟨(if_neg hup).trans (if_pos h), (if_neg hup).trans (if_pos h)⟩

variable (ht : s.teamAt p (a.toNat / 128 * 128) = some (t, x, m)) (hl : s.windowLocked p = false)
include ht hl

theorem exec_freezeResume_team :
    exec (.freezeResume p a) s =
      let u := s.fzctlSet p a.toNat 1
      if x.state ≠ .frozenHere ∧ x.state ≠ .frozenSaved then .next u
      else if x.lostImage ∨ s.inError p then .next (u.modPart p fun y => { y with resref := true })
      else if x.state = .frozenHere then
        .next (((x.live.foldl (fun s m => s.thawMember p t m) u).modTeam t fun y => { y with state := .running }).loadMembers x)
      else .next (((u.staying t x).foldl (fun s m => s.setFrz p m.1.tcb false) u).restamp t .suspended) := by
  have hup : ¬(!s.up) = true := by rw [hu]; exact Bool.false_ne_true
  have hunlocked : ¬s.windowLocked p = true := by rw [hl]; exact Bool.false_ne_true
  have hteam : (s.fzctlSet p a.toNat 1).teamAt p (a.toNat / 128 * 128) = some (t, x, m) := ht
  refine ((if_neg hup).trans (if_neg hunlocked)).trans ?_
  show (match (s.fzctlSet p a.toNat 1).teamAt p (a.toNat / 128 * 128) with | none => _ | some (t, x, _) => _) = _
  rw [hteam, ← State.inError_fzctlSet s p a.toNat 1] <;> rfl

theorem exec_freezeKill_team :
    exec (.freezeKill p a) s =
      if x.state = .frozenHere ∨ x.state = .frozenSaved then .next ((s.fzctlSet p a.toNat 2).killTeam t)
      else .next (s.fzctlSet p a.toNat 2) := by
  have hup : ¬(!s.up) = true := by rw [hu]; exact Bool.false_ne_true
  have hunlocked : ¬s.windowLocked p = true := by rw [hl]; exact Bool.false_ne_true
  have hteam : (s.fzctlSet p a.toNat 2).teamAt p (a.toNat / 128 * 128) = some (t, x, m) := ht
  refine ((if_neg hup).trans (if_neg hunlocked)).trans ?_
  show (match (s.fzctlSet p a.toNat 2).teamAt p (a.toNat / 128 * 128) with | none => _ | some (t, x, _) => _) = _
  rw [hteam] <;> rfl

/-- A frozen team whose image is lost, or whose interface is in ERROR, is not resumed. -/
theorem exec_freezeResume_refused (hf : x.state = .frozenHere ∨ x.state = .frozenSaved) (hno : x.lostImage = true ∨ s.inError p = true) :
    exec (.freezeResume p a) s = .next ((s.fzctlSet p a.toNat 1).modPart p fun y => { y with resref := true }) :=
  (exec_freezeResume_team hu ht hl).trans ((if_neg fun h => hf.elim h.1 h.2).trans (if_pos hno))

section
variable (hi : x.lostImage = false) (he : s.inError p = false)
include hi he

theorem exec_freezeResume_here (hf : x.state = .frozenHere) :
    exec (.freezeResume p a) s = .next (((x.live.foldl (fun s m => s.thawMember p t m) (s.fzctlSet p a.toNat 1)).modTeam t fun y =>
      { y with state := .running }).loadMembers x) := by
  refine (exec_freezeResume_team hu ht hl).trans ((if_neg fun h => h.1 hf).trans ((if_neg ?_).trans (if_pos hf)))
  rw [hi, he]
  exact fun h => h.elim Bool.false_ne_true Bool.false_ne_true

theorem exec_freezeResume_saved (hf : x.state = .frozenSaved) :
    exec (.freezeResume p a) s = .next ((((s.fzctlSet p a.toNat 1).staying t x).foldl (fun s m => s.setFrz p m.1.tcb false)
      (s.fzctlSet p a.toNat 1)).restamp t .suspended) := by
  refine (exec_freezeResume_team hu ht hl).trans ((if_neg fun h => h.2 hf).trans ((if_neg ?_).trans (if_neg ?_)))
  · rw [hi, he]
    exact fun h => h.elim Bool.false_ne_true Bool.false_ne_true
  · rw [hf]
    decide

end

end

end

/-- Settles O49: each register of the window by whether the interface is locked, and each freeze by the state of its team. -/
theorem partitionWindow : Obligations.PartitionWindow := by
  unfold Obligations.PartitionWindow
  intro s p hu hp
  dsimp only
  refine ⟨fun off v => ⟨exec_partitionConfigWrite_up hu hp off v, fun hl => ?locked⟩, fun v hl => ⟨fun hr => ?refused, fun hr hno => ?set,
      fun hr h2 h1 => ?drains, State.configRefused_of, fun h2 hne => ?root, fun h2 hne => ?pwbase, fun h2 hne => ?pwlim⟩,
    fun v => ⟨fun hl => ?drops, fun hl => ?keeps, fun hgo => State.tlbinvWrite_go (by rw [bitNat_eq_getLsbD]; exact hgo)⟩,
    fun a t x m ht hl => ⟨exec_freezeResume_refused hu ht hl, fun hf hi he => exec_freezeResume_here hu ht hl hi he hf,
      fun hf hi he => exec_freezeResume_saved hu ht hl hi he hf, fun hno => ⟨?notResumed, ?notKilled⟩,
      fun hf => (exec_freezeKill_team hu ht hl).trans (if_pos hf)⟩,
    fun hl a => exec_freeze_locked hu hl⟩
  case notResumed =>
    exact (exec_freezeResume_team hu ht hl).trans (if_pos ⟨fun h => hno (.inl h), fun h => hno (.inr h)⟩)
  case notKilled => exact (exec_freezeKill_team hu ht hl).trans (if_neg hno)
  case drops => exact (exec_tlbInvalidate_window hp v).trans ((s.atWindow_cases p _).1 hu hl)
  case keeps => exact (exec_tlbInvalidate_window hp v).trans ((s.atWindow_cases p _).2.1 hu hl)
  all_goals refine (exec_partitionConfigWrite_up hu hp _ v).trans (congrArg Host.Outcome.next ?_)
  case locked => exact State.partWrite_locked hl off v.toNat
  case refused => exact (State.partWrite_config hl _).trans (if_pos hr)
  case set => exact (State.partWrite_config hl _).trans ((State.configWrite_accepted hr).trans (if_neg hno))
  case drains => exact (State.partWrite_config hl _).trans ((State.configWrite_accepted hr).trans (if_pos ⟨h2, h1⟩))
  case root => exact (State.partWrite_root hl _).trans (State.heldWrite_held h2 hne)
  case pwbase => exact (State.partWrite_pwbase hl _).trans (State.heldWrite_held h2 hne)
  case pwlim => exact (State.partWrite_pwlim hl _).trans (State.heldWrite_held h2 hne)

end Sys2Proof.Machine
end

section
/-! SUPPORT. Host writes of core windows and of BAR 0 (16_system_state.md R275, R278, R280; 19_scheduling.md R299). -/
namespace Sys2Proof.Machine

section
variable {s : State} {c : Nat}

/-! ### CORECTL -/

/-- What a write of CORECTL stores itself. -/
def Core.corectl (v : Nat) (k : Core) : Core := { k with werr := k.werr && !bitNat v 2, haltReq := bitNat v 0 }

theorem State.corectlWrite_halts {v : Nat} (h : bitNat v 0 = true) : s.corectlWrite c v = s.modCore c (Core.corectl v) := if_pos h

theorem State.alternate_none (h : ((s.core c).ent (s.core c).other).v = false) : s.alternate c = none := by
  rw [State.alternate, h]
  rfl

/-- HALT = 0 at a core that nothing holds, whose island is on, and that takes no alternate. -/
theorem State.corectlWrite_goesOn {v : Nat} (h0 : bitNat v 0 = false) (hhold : (s.core c).hold = .none) (hon : s.islandUp c = true)
    (hstays : (s.core c).task.isSome = true ∨ ((s.core c).ent (s.core c).other).v = false) :
    s.corectlWrite c v = (s.letIn c).modCore c fun k =>
      { k with werr := k.werr && !bitNat v 2, haltReq := false, halted := false, hold := .none } := by
  have hcore : ((s.modCore c (Core.corectl v)).letIn c).core c = Core.corectl v (s.core c) := by
    show (s.modCore c (Core.corectl v)).core c = _
    rw [State.core_modCore, if_pos rfl]
  have hno : ¬((((s.modCore c (Core.corectl v)).letIn c).core c).task.isNone &&
      (((s.modCore c (Core.corectl v)).letIn c).alternate c).isSome) = true := by
    obtain htask | hent := hstays
    · obtain ⟨x, hx⟩ := Option.isSome_iff_exists.1 htask
      rw [hcore, show (Core.corectl v (s.core c)).task = some x from hx]
      exact Bool.false_ne_true
    · rw [State.alternate_none (s := (s.modCore c (Core.corectl v)).letIn c) (by rw [hcore]; exact hent)]
      simp
  refine (if_neg (by rw [h0]; exact Bool.false_ne_true)).trans ((if_neg hno).trans ((if_pos hon).trans ?_))
  refine (State.modCore_modCore (s.letIn c) c (Core.corectl v) _).trans ?_
  unfold State.modCore
  refine congrArg ((s.letIn c).setCore c) ?_
  have hk : ((s.letIn c).core c).hold = .none := hhold
  simp only [Core.corectl, hk, h0, Hold.free, Bool.not_true, Bool.and_false]
  rfl

/-! ### The bank, the timetable and the binding -/

theorem exec_haltRequest_up (hu : s.up = true) (hc : c < Config.nCores) (v : Word) :
    exec (.haltRequest c v) s = .next (s.corectlWrite c v.toNat) := (if_neg (Nat.not_le.2 hc)).trans (State.atHost_up hu _)

theorem exec_shadowBankRead_halted (hu : s.up = true) (hc : c < Config.nCores) (h : (s.core c).halted = true) :
    exec (.shadowBankRead c) s = .next (({ s with
      hostRead := leBytes 8 (Config.bankWord s.free (s.core c).sbptr).toNat, free := s.free + 1 } : State).modCore c fun k =>
        { k with sbptr := sbNext k.sbptr }) := by
  refine (if_neg (Nat.not_le.2 hc)).trans ((if_neg ?_).trans (State.atHost_up hu _))
  rw [h]
  exact Bool.false_ne_true

theorem exec_shadowBankRead_running (hu : s.up = true) (hc : c < Config.nCores) (h : (s.core c).halted = false) :
    exec (.shadowBankRead c) s = .next { s with hostRead := leBytes 8 0 } := by
  refine (if_neg (Nat.not_le.2 hc)).trans ((if_pos ?_).trans (State.atHost_up hu _))
  rw [h]
  rfl

/-- A write of doubleword `off` of entry e. -/
theorem State.ttWrite_entry {e off : Nat} (he : e < 2) (hoff : off < 0x40) (v : Nat) :
    s.ttWrite c (0x40 + 0x40 * e + off) v =
      let x := ((s.core c).ent e).write off v
      let other := (s.core c).ent (1 - e)
      if (e == (s.core c).cur && !(s.core c).halted) || (x.v && other.v && meets x.b other.b) then
        s.modCore c fun k => { k with ttWerr := true }
      else s.modCore c fun k => k.setEnt e x := by
  have hdiv : (0x40 + 0x40 * e + off - 0x40) / 0x40 = e := by omega
  have hmod : (0x40 + 0x40 * e + off - 0x40) % 0x40 = off := by omega
  rw [State.ttWrite, if_neg (by omega), if_neg (by omega), hdiv, hmod]

theorem exec_timetableEntryWrite_up (hu : s.up = true) (hc : c < Config.nCores) (off : Nat) (v : Word) :
    exec (.timetableEntryWrite c off v) s = .next (s.ttWrite c off v.toNat) :=
  (if_neg (Nat.not_le.2 hc)).trans (State.atHost_up hu _)

theorem State.coreWindow_binding {off : Nat} (h : off ≤ 0x28) (v : Nat) :
    s.coreWindow c off v =
      if !(s.core c).halted then s.coreWerr c
      else match (s.core c).b.load off v with
        | some b => s.modCore c fun k => { k with b := b }
        | none => s.coreWerr c := by
  rw [State.coreWindow, if_neg (by omega), if_pos h] <;> rfl

end

/-! ### BAR 0 -/

section
variable {s : State} {o v : Nat}

theorem State.barWrite_recovery (h : o < 0x10000) : s.barWrite (0x70000 + o) v = .next (s.recoveryWindow o v) := by
  rw [State.barWrite, if_pos (by omega), Nat.add_sub_cancel_left]

theorem State.barWrite_down (hu : s.up = false) (h : ¬(0x70000 ≤ o ∧ o < 0x80000)) : s.barWrite o v = .next s := by
  rw [State.barWrite, if_neg h, hu]
  rfl

variable (hu : s.up = true)
include hu

/-- A write outside the recovery window, once the device is up. -/
theorem State.barWrite_up (h : ¬(0x70000 ≤ o ∧ o < 0x80000)) :
    s.barWrite o v =
      if 0x10000 ≤ o ∧ o < 0x10800 then s.partWindow ((o - 0x10000) / 0x100) (o % 0x100) v
      else if 0x20000 ≤ o ∧ o < 0x30000 then .next (s.damperWindow (o - 0x20000) v)
      else if 0x30000 ≤ o ∧ o < 0x38000 then .next (s.ttWrite ((o - 0x30000) / 0x100) (o % 0x100) v)
      else if 0x40000 ≤ o ∧ o < 0x4C000 then .next (s.faultWindow (o - 0x40000) v)
      else if 0x4C000 ≤ o ∧ o < 0x50000 then .next (s.errWindow (o - 0x4C000) v)
      else if 0x50000 ≤ o ∧ o < 0x60000 then .next (s.sootWindow (o - 0x50000) v)
      else if o = 0x60000 ∨ o = 0x60100 then .next (s.chctlWrite ((o - 0x60000) / 0x100) v)
      else if 0x80000 ≤ o ∧ o < 0x90000 then s.powerWindow (o - 0x80000) v
      else if 0x100000 ≤ o ∧ o < 0x180000 then .next (s.coreWindow ((o - 0x100000) / 0x1000) (o % 0x1000) v)
      else .next s := (if_neg h).trans (if_neg (by rw [hu]; exact Bool.false_ne_true))

theorem State.barWrite_partition (h : o < 0x800) : s.barWrite (0x10000 + o) v = s.partWindow (o / 0x100) (o % 0x100) v := by
  rw [State.barWrite_up hu (by omega), if_pos (by omega), Nat.add_sub_cancel_left, show (0x10000 + o) % 0x100 = o % 0x100 by omega]

theorem State.barWrite_damper (h : o < 0x10000) : s.barWrite (0x20000 + o) v = .next (s.damperWindow o v) := by
  rw [State.barWrite_up hu (by omega), if_neg (by omega), if_pos (by omega), Nat.add_sub_cancel_left]

theorem State.barWrite_timetable (h : o < 0x8000) : s.barWrite (0x30000 + o) v = .next (s.ttWrite (o / 0x100) (o % 0x100) v) := by
  rw [State.barWrite_up hu (by omega), if_neg (by omega), if_neg (by omega), if_pos (by omega), Nat.add_sub_cancel_left,
    show (0x30000 + o) % 0x100 = o % 0x100 by omega]

theorem State.barWrite_fault (h : o < 0xC000) : s.barWrite (0x40000 + o) v = .next (s.faultWindow o v) := by
  rw [State.barWrite_up hu (by omega), if_neg (by omega), if_neg (by omega), if_neg (by omega), if_pos (by omega),
    Nat.add_sub_cancel_left]

theorem State.barWrite_error (h : o < 0x4000) : s.barWrite (0x4C000 + o) v = .next (s.errWindow o v) := by
  rw [State.barWrite_up hu (by omega), if_neg (by omega), if_neg (by omega), if_neg (by omega), if_neg (by omega),
    if_pos (by omega), Nat.add_sub_cancel_left]

theorem State.barWrite_soot (h : o < 0x10000) : s.barWrite (0x50000 + o) v = .next (s.sootWindow o v) := by
  rw [State.barWrite_up hu (by omega), if_neg (by omega), if_neg (by omega), if_neg (by omega), if_neg (by omega),
    if_neg (by omega), if_pos (by omega), Nat.add_sub_cancel_left]

theorem State.barWrite_port (h : o < 2) : s.barWrite (0x60000 + 0x100 * o) v = .next (s.chctlWrite o v) := by
  rw [State.barWrite_up hu (by omega), if_neg (by omega), if_neg (by omega), if_neg (by omega), if_neg (by omega),
    if_neg (by omega), if_neg (by omega), if_pos (by omega), show (0x60000 + 0x100 * o - 0x60000) / 0x100 = o by omega]

theorem State.barWrite_power (h : o < 0x10000) : s.barWrite (0x80000 + o) v = s.powerWindow o v := by
  rw [State.barWrite_up hu (by omega), if_neg (by omega), if_neg (by omega), if_neg (by omega), if_neg (by omega),
    if_neg (by omega), if_neg (by omega), if_neg (by omega), if_pos (by omega), Nat.add_sub_cancel_left]

theorem State.barWrite_core (h : o < 0x80000) :
    s.barWrite (0x100000 + o) v = .next (s.coreWindow (o / 0x1000) (o % 0x1000) v) := by
  rw [State.barWrite_up hu (by omega), if_neg (by omega), if_neg (by omega), if_neg (by omega), if_neg (by omega),
    if_neg (by omega), if_neg (by omega), if_neg (by omega), if_neg (by omega), if_pos (by omega), Nat.add_sub_cancel_left,
    show (0x100000 + o) % 0x1000 = o % 0x1000 by omega]

theorem State.barWrite_outside (h : o < 0x10000 ∨ 0x180000 ≤ o) : s.barWrite o v = .next s := by
  rw [State.barWrite_up hu (by omega), if_neg (by omega), if_neg (by omega), if_neg (by omega), if_neg (by omega),
    if_neg (by omega), if_neg (by omega), if_neg (by omega), if_neg (by omega), if_neg (by omega)]

omit hu in
/-- A write of an island's register asks for what its low two bits name. -/
theorem State.powerWindow_island {i : Nat} (h : i < 140) :
    s.powerWindow (0x100 + 8 * i) v =
      let u := s.modIsland i fun x => { x with perr := x.perr && !bitNat v 14 }
      match bitsNat v 1 0 with
      | 0 => execIslandOff i u
      | 1 => execIslandOn i u
      | 2 => execIslandRetainedOff i u
      | _ => .next (u.refusePower i) := by
  have hn : Config.nIslands = 140 := rfl
  rw [State.powerWindow, if_neg (by omega), if_pos (by rw [hn]; omega), show (0x100 + 8 * i - 0x100) / 8 = i by omega] <;> rfl

theorem State.barWrite_island {i : Nat} (h : i < 140) :
    s.barWrite (0x80100 + 8 * i) v =
      let u := s.modIsland i fun x => { x with perr := x.perr && !bitNat v 14 }
      if bitsNat v 1 0 = 0 then exec (.islandOff i) u
      else if bitsNat v 1 0 = 1 then exec (.islandOn i) u
      else if bitsNat v 1 0 = 2 then exec (.islandRetainedOff i) u
      else .next (u.modIsland i fun x => { x with perr := true }) := by
  have hw : s.barWrite (0x80100 + 8 * i) v = s.powerWindow (0x100 + 8 * i) v := by
    rw [show 0x80100 + 8 * i = 0x80000 + (0x100 + 8 * i) by omega, State.barWrite_power hu (by omega)]
  rw [hw, State.powerWindow_island h]
  dsimp only
  split
  case h_1 h0 => rw [if_pos h0] <;> rfl
  case h_2 h1 => rw [if_neg (by omega), if_pos h1] <;> rfl
  case h_3 h2 => rw [if_neg (by omega), if_neg (by omega), if_pos h2] <;> rfl
  case h_4 h0 h1 h2 => rw [if_neg h0, if_neg h1, if_neg h2] <;> rfl

end

/-- Settles O50: CORECTL by its bit 0, the bank and the binding by whether the core is halted, and BAR 0 by the window. -/
theorem coreWindowsAndRegisterWrites : Obligations.CoreWindowsAndRegisterWrites := by
  unfold Obligations.CoreWindowsAndRegisterWrites
  refine ⟨fun s c hu hc => ⟨fun v => ⟨exec_haltRequest_up hu hc v, fun h => ?halt, fun h hhold hon hstays => ?goesOn⟩,
      exec_shadowBankRead_halted hu hc, exec_shadowBankRead_running hu hc, fun e off v he hoff => ⟨fun hok => ?written, fun hbad => ?meets⟩,
      fun off v hoff => ⟨fun h => ?running, fun b h hb => ?loads⟩⟩,
    fun s o v => ⟨State.barWrite_recovery, State.barWrite_down, fun hu => ⟨State.barWrite_partition hu, State.barWrite_damper hu,
      State.barWrite_timetable hu, State.barWrite_fault hu, State.barWrite_error hu, State.barWrite_soot hu, State.barWrite_port hu,
      State.barWrite_power hu, State.barWrite_core hu, State.barWrite_outside hu, fun i => State.barWrite_island hu⟩⟩⟩
  case halt =>
    rw [State.corectlWrite_halts (by rw [bitNat_eq_getLsbD]; exact h)]
    unfold Core.corectl
    rw [bitNat_eq_getLsbD, bitNat_eq_getLsbD, h]
  case goesOn => rw [State.corectlWrite_goesOn (by rw [bitNat_eq_getLsbD]; exact h) hhold hon hstays, bitNat_eq_getLsbD]
  case written =>
    rw [exec_timetableEntryWrite_up hu hc, State.ttWrite_entry he hoff]
    refine congrArg Host.Outcome.next (if_neg ?_)
    simp only [Bool.or_eq_true, Bool.and_eq_true, Bool.not_eq_true', beq_iff_eq, and_assoc]
    exact hok
  case meets =>
    rw [exec_timetableEntryWrite_up hu hc, State.ttWrite_entry he hoff]
    refine congrArg Host.Outcome.next (if_pos ?_)
    simp only [Bool.or_eq_true, Bool.and_eq_true, Bool.not_eq_true', beq_iff_eq, and_assoc]
    exact hbad
  case running =>
    rw [State.coreWindow_binding hoff, h]
    rfl
  case loads => rw [State.coreWindow_binding hoff, h, hb] <;> rfl

end Sys2Proof.Machine
end

section
/-! SUPPORT. A step runs the instruction it decodes (07_encoding.md R114, R122, R148; 16_system_state.md R273; 20_translation_faults.md
R307, R311, R315, R318). -/
namespace Sys2Proof.Machine

/-! ### The turns of a plan -/

theorem step_nil {s : State} (h : s.plan = []) : step s = s.stokerTurn := by
  rw [step, State.turn, h]

theorem step_cons {s : State} {t : Turn} {rest : List Turn} (h : s.plan = t :: rest) :
    step s = { s with plan := rest }.run t := by
  rw [step, State.turn, h]

/-! ### The Stoker's turn -/

section
variable {s : State}

/-- The turn of a Stoker that issues. -/
theorem State.stokerTurn_issues (hon : s.coreOn s.cur = true) (hhold : s.me.hold = .none) :
    s.stokerTurn = match s.boundary with
      | some .interruptTake => if s.wfeReady then s.fetchExec else exec .interruptTake s
      | some i => exec i s
      | none => s.fetchExec := by
  rw [State.stokerTurn, hon, hhold] <;> rfl

theorem State.stokerTurn_boundary (hon : s.coreOn s.cur = true) (hhold : s.me.hold = .none) {i : Instr} (hb : s.boundary = some i)
    (hi : i ≠ .interruptTake ∨ s.wfeReady = false) : s.stokerTurn = exec i s := by
  rw [State.stokerTurn_issues hon hhold, hb]
  by_cases hint : i = .interruptTake
  · have hw : s.wfeReady = false := hi.resolve_left fun hne => hne hint
    subst hint
    exact if_neg (by rw [hw]; exact Bool.false_ne_true)
  · split
    case h_1 heq => exact absurd (Option.some.inj heq) hint
    case h_2 heq => rw [Option.some.inj heq]
    case h_3 heq => cases heq

theorem State.stokerTurn_fetches (hon : s.coreOn s.cur = true) (hhold : s.me.hold = .none)
    (hf : s.boundary = none ∨ (s.boundary = some .interruptTake ∧ s.wfeReady = true)) : s.stokerTurn = s.fetchExec := by
  rw [State.stokerTurn_issues hon hhold]
  obtain hb | ⟨hb, hw⟩ := hf
  · rw [hb]
  · rw [hb]
    exact if_pos hw

/-! ### The fetch -/

theorem State.runBytes_ok {bs : List Byte} {i : Instr} {n : Nat} (h : decodeBytes bs = .ok (i, n)) :
    s.runBytes bs = exec i (s.modCore s.cur fun k => { k with ilen := n }) := by
  rw [State.runBytes, h]

theorem State.runBytes_error {bs : List Byte} {e : DecodeErr} (h : decodeBytes bs = .error e) : s.runBytes bs = s.illegal := by
  rw [State.runBytes, h]

theorem State.fetchExec_short {b : List Byte} {u : State} (h : s.fetchAt 0 2 = .ok b u) (hb : isLong b = false) :
    s.fetchExec = u.runBytes b := by
  rw [State.fetchExec, h]
  exact if_pos (by rw [hb]; rfl)

/-- A first halfword that has a second one. -/
theorem State.fetchExec_long {b : List Byte} {u : State} (h : s.fetchAt 0 2 = .ok b u) (hb : isLong b = true) :
    s.fetchExec = match u.fetchAt 2 2 with
      | .ok b2 v => v.runBytes (b ++ b2)
      | r => fetchStop 2 r := by
  rw [State.fetchExec, h]
  exact if_neg (by rw [hb]; exact Bool.false_ne_true)

theorem fetchStop_stops (o : Nat) (u : State) :
    fetchStop o (.page u) = .next (u.takeTrap 12 (u.my.pc + BitVec.ofNat 64 o) 0) ∧
    fetchStop o (.image u) = .next (u.takeTrap 1 (u.my.pc + BitVec.ofNat 64 o) 0) ∧
    fetchStop o (.error u) = .next (u.takeTrap 1 (u.my.pc + BitVec.ofNat 64 o) 0) ∧
    fetchStop o (.violation u) = .next (u.freezeCore u.cur 2 0 0) := ⟨rfl, rfl, rfl, rfl⟩

/-- A first fetch that brings no bytes. -/
theorem State.fetchExec_stops (u : State) :
    (s.fetchAt 0 2 = .page u → s.fetchExec = .next (u.takeTrap 12 u.my.pc 0)) ∧
    (s.fetchAt 0 2 = .image u ∨ s.fetchAt 0 2 = .error u → s.fetchExec = .next (u.takeTrap 1 u.my.pc 0)) ∧
    (s.fetchAt 0 2 = .violation u → s.fetchExec = .next (u.freezeCore u.cur 2 0 0)) := by
  have hpc : u.my.pc + BitVec.ofNat 64 0 = u.my.pc := BitVec.add_zero _
  have hstops := fetchStop_stops 0 u
  rw [hpc] at hstops
  obtain ⟨hpage, himage, herror, hviolation⟩ := hstops
  refine ⟨fun h => ?_, fun h => ?_, fun h => ?_⟩
  · rw [State.fetchExec, h]
    exact hpage
  · obtain h | h := h
    · rw [State.fetchExec, h]
      exact himage
    · rw [State.fetchExec, h]
      exact herror
  · rw [State.fetchExec, h]
    exact hviolation

/-- A second fetch that brings no bytes. -/
theorem State.fetchExec_stops_second {b : List Byte} {u : State} (h : s.fetchAt 0 2 = .ok b u) (hb : isLong b = true) (v : State) :
    (u.fetchAt 2 2 = .page v → s.fetchExec = .next (v.takeTrap 12 (v.my.pc + 2) 0)) ∧
    (u.fetchAt 2 2 = .image v ∨ u.fetchAt 2 2 = .error v → s.fetchExec = .next (v.takeTrap 1 (v.my.pc + 2) 0)) ∧
    (u.fetchAt 2 2 = .violation v → s.fetchExec = .next (v.freezeCore v.cur 2 0 0)) := by
  obtain ⟨hpage, himage, herror, hviolation⟩ := fetchStop_stops 2 v
  rw [State.fetchExec_long h hb]
  refine ⟨fun h2 => ?_, fun h2 => ?_, fun h2 => ?_⟩
  · rw [h2]
    exact hpage
  · obtain h2 | h2 := h2
    · rw [h2]
      exact himage
    · rw [h2]
      exact herror
  · rw [h2]
    exact hviolation

/-- A fetch outside M-mode, without a code image, of a halfword that does not cross a page. -/
theorem State.fetchAt_page (hm : s.my.mode ≠ .m) (hcode : s.me.b.codebase = 0) (hpc : s.my.pc.toNat % 4096 ≠ 4095) :
    s.fetchAt 0 2 = s.fetchPage s.cur .sk (s.my.mode == .u) s.my.pc.toNat 2 := by
  have hhdr : (s.core s.cur).b.codebase.toNat = 0 := congrArg BitVec.toNat hcode
  refine (if_neg hm).trans ((if_pos hhdr).trans (if_pos ?_))
  show 2 ≤ 4096 - s.my.pc.toNat % 4096
  omega

theorem State.fetchPage_stops {c n va : Nat} {a : Agent} {user : Bool} (u : State) :
    (s.translate (.core c a) (s.core c).b.part.toNat .fetch user va = (.fault, u) → s.fetchPage c a user va n = .page u) ∧
    (s.translate (.core c a) (s.core c).b.part.toNat .fetch user va = (.violation, u) → s.fetchPage c a user va n = .violation u) := by
  constructor <;> intro h <;> rw [State.fetchPage, h]

/-! ### The turns of VX and MX -/

theorem State.vxTurn_run {r : VxRun} {i : Instr} {n : Nat} (hon : s.coreOn s.cur = true) (hr : s.my.vx.run = some r)
    (hw : r.hws ≠ []) (hd : decodeStream false (r.hws.drop r.pos) = .ok (i, n)) : s.vxTurn = exec i s := by
  rw [State.vxTurn, hon, hr]
  dsimp only
  rw [List.isEmpty_eq_false_iff.2 hw, hd]
  rfl

theorem State.mxTurn_run {r : MxRun} {i : Instr} {n : Nat} (hon : s.coreOn s.cur = true) (hr : s.my.mx.run = some r)
    (hw : r.hws ≠ []) (hd : decodeStream true (r.hws.drop r.pos) = .ok (i, n)) : s.mxTurn = exec i s := by
  rw [State.mxTurn, hon, hr]
  dsimp only
  rw [List.isEmpty_eq_false_iff.2 hw, hd]
  rfl

theorem State.mxTurn_word {e : Entry} {w : BitVec 32} {a : Nat} {i : Instr} (hon : s.coreOn s.cur = true) (hr : s.my.mx.run = none)
    (he : s.my.nextEntry .mx = some e) (hw : e.cmd = .mxWord w a) (hd : decodeMxFull w = .ok i) : s.mxTurn = exec i s := by
  rw [State.mxTurn, hon, hr]
  dsimp only
  rw [he]
  dsimp only
  rw [hw]
  dsimp only
  rw [hd]
  rfl

end

/-- Settles O51: the Stoker's turn by the boundary and what each fetch answers; a turn of the plan by its form. -/
theorem stepRunsDecodedInstruction : Obligations.StepRunsDecodedInstruction := by
  unfold Obligations.StepRunsDecodedInstruction
  refine ⟨fun s hp hon hhold => ?stoker, fun s c rest => ?plan, fun s n => ?next⟩
  case stoker =>
    dsimp only
    rw [step_nil hp]
    refine ⟨fun i hb hi => State.stokerTurn_boundary hon hhold hb hi, fun b u i n hf h hb hd => ?_, fun b u b' v i n hf h hb h2 hd => ?_,
      fun b u e hf h hb hd => ?_, fun u hf => ?_, fun b u v hf h hb => ?_, fun hm hcode hpc u => ?_⟩
    · rw [State.stokerTurn_fetches hon hhold hf, State.fetchExec_short h hb, State.runBytes_ok hd]
    · rw [State.stokerTurn_fetches hon hhold hf, State.fetchExec_long h hb, h2, ← State.runBytes_ok hd]
    · rw [State.stokerTurn_fetches hon hhold hf, State.fetchExec_short h hb, State.runBytes_error hd]
    · rw [State.stokerTurn_fetches hon hhold hf]
      exact State.fetchExec_stops u
    · rw [State.stokerTurn_fetches hon hhold hf]
      exact State.fetchExec_stops_second h hb v
    · rw [State.fetchAt_page hm hcode hpc]
      exact State.fetchPage_stops u
  case plan =>
    refine ⟨fun h => step_cons h, fun i h hi => ?_, fun r i n h hon hr hw hd => (step_cons h).trans (State.vxTurn_run hon hr hw hd),
      fun r i n h hon hr hw hd => (step_cons h).trans (State.mxTurn_run hon hr hw hd),
      fun e w a i h hon hr he hw hd => (step_cons h).trans (State.mxTurn_word hon hr he hw hd), fun k h => step_cons h,
      fun ec n h => step_cons h⟩
    rw [step_cons h]
    show State.eventTurn _ i = _
    rw [State.eventTurn, hi]
  case next =>
    have hpc := congrArg (fun k => k.ctx.pc + BitVec.ofNat 64 k.ilen) (State.me_modCore (s := s) rfl fun k => { k with ilen := n })
    exact hpc

end Sys2Proof.Machine
end

section
/-! SUPPORT. A store of VX that lands while the forwarding table holds a granule whose bytes run past it (05_local_memory.md R91;
09_vector_isa.md R197). -/
namespace Sys2Proof.Machine

/-- Granule 0 of ABUF in transit, with a byte past its 4,096 listed before one inside it. -/
def longGranule : FwdEnt :=
  { team := 0, member := 0, inW := false, granule := 0, into := some 0, bytes := [(5000, 1), (3, 2)], tag := 0 }

/-- A running core with that granule in transit, at which a store of no bytes is due in VX. -/
def storeDue : State :=
  State.reset.modCore 0 fun k => { k with
    halted := false, fwd := [longGranule]
    ctx := { k.ctx with vx := { k.ctx.vx with flight := [{ left := 1, what := .store [] }] } } }

theorem storeDue_idle :
    storeDue.me.enginesRun = true ∧ storeDue.my.stopped .vx = false ∧ storeDue.my.vx.run = none ∧
      storeDue.my.vx.flight = [{ left := 1, what := .store [] }] := by decide +kernel

theorem exec_vxResultLand_idle {s : State} (hrun : s.me.enginesRun = true) (hstop : s.my.stopped .vx = false)
    (hnone : s.my.vx.run = none) : exec .vxResultLand s = .next (s.vxAdvance s.cur) := by
  refine if_neg ?_
  rw [hrun, hstop, hnone]
  exact Bool.false_ne_true

/-- The byte past the granule changes its place in the buffer's list as the granule is stored back into the table. -/
theorem buf_vxAdvance_storeDue : (storeDue.vxAdvance storeDue.cur).me.buf false ≠ storeDue.me.buf false := by decide +kernel

/-- Refutes O30: the statement has the own ABUF, as a list of bytes, be what the store writes into the one before, from every state;
where the forwarding table holds a granule whose bytes run past it (`storeDue`), the store of no bytes reorders that list. -/
theorem not_vectorUnitsAndVectorLanding : ¬Obligations.VectorUnitsAndVectorLanding := by
  unfold Obligations.VectorUnitsAndVectorLanding
  rintro ⟨-, -, -, -, -, -, -, -, -, hlands⟩
  obtain ⟨hrun, hstop, hnone, hflight⟩ := storeDue_idle
  obtain ⟨-, -, -, -, -, -, hstore, -⟩ := hlands storeDue hrun hstop hnone
  obtain ⟨t, ht, -, hbuf⟩ := hstore [] hflight
  rw [exec_vxResultLand_idle hrun hstop hnone] at ht
  rw [← Host.Outcome.next.inj ht] at hbuf
  exact buf_vxAdvance_storeDue hbuf

end Sys2Proof.Machine
end

section
/-! SUPPORT. Every step keeps the canonical form of memory (06_ordering.md R101, R102): the operations of the state. Memory changes
where writes that every agent sees leave the coherence order (`State.settle`) and where bytes are zeroed (`State.zeroMemory`); all
else is one lemma `State.memOk.f` per operation f, read in the order in which a definition chains them: `h.modCtx.endWait`. -/
namespace Sys2Proof.Machine

section
variable {s : State}

/-! ### Updates that name neither memory -/

/-- An update of a known state that leaves both memories. -/
theorem State.memOk.same {s t : State} (h : s.memOk) (hm : t.mem = s.mem) (hh : t.hmem = s.hmem) : t.memOk :=
  State.memOk_of_eq h hm hh

theorem State.memOk.foldl {α : Type} {f : State → α → State} {l : List α} (h : s.memOk)
    (hf : ∀ {u : State} {a : α}, u.memOk → (f u a).memOk) : (l.foldl f s).memOk :=
  State.memOk_foldl (fun _ _ hu => hf hu) l h

/-- A fold that carries a state and something else. -/
theorem State.memOk.foldl_fst {α β : Type} {f : State × β → α → State × β} {l : List α} {r : State × β} (h : r.1.memOk)
    (hf : ∀ {r : State × β} {a : α}, r.1.memOk → (f r a).1.memOk) : (l.foldl f r).1.memOk := by
  induction l generalizing r with
  | nil => exact h
  | cons a l ih => exact ih (hf h)

theorem State.memOk.ite {p : Prop} [Decidable p] {t u : State} (ht : t.memOk) (hu : u.memOk) : (if p then t else u).memOk := by
  split
  · exact ht
  · exact hu

theorem State.memOk.modCore (h : s.memOk) {c f} : (s.modCore c f).memOk := h

theorem State.memOk.modCtx (h : s.memOk) {c f} : (s.modCtx c f).memOk := h

theorem State.memOk.upd (h : s.memOk) {f} : (s.upd f).memOk := h

theorem State.memOk.modPart (h : s.memOk) {p f} : (s.modPart p f).memOk := h

theorem State.memOk.modIsland (h : s.memOk) {i f} : (s.modIsland i f).memOk := h

theorem State.memOk.meterUncore (h : s.memOk) {i q n} : (s.meterUncore i q n).memOk := h

theorem State.memOk.raiseMsix (h : s.memOk) {v} : (s.raiseMsix v).memOk := h

theorem State.memOk.noteWait (h : s.memOk) {c a flag num setter sc} : (s.noteWait c a flag num setter sc).memOk := h

/-! The fields beside memory, replaced one or some at a time. -/

theorem State.memOk.withErr (h : s.memOk) {a} : ({ s with err := a } : State).memOk := h

theorem State.memOk.withLent (h : s.memOk) {a} : ({ s with lent := a } : State).memOk := h

theorem State.memOk.withTlb (h : s.memOk) {a} : ({ s with tlb := a } : State).memOk := h

theorem State.memOk.withFree (h : s.memOk) {a} : ({ s with free := a } : State).memOk := h

theorem State.memOk.withImages (h : s.memOk) {a} : ({ s with images := a } : State).memOk := h

theorem State.memOk.withTeams (h : s.memOk) {a b} : ({ s with teams := a, launches := b } : State).memOk := h

theorem State.memOk.withFw (h : s.memOk) {a} : ({ s with fw := a } : State).memOk := h

theorem State.memOk.withFwFree (h : s.memOk) {a b} : ({ s with fw := a, free := b } : State).memOk := h

theorem State.memOk.withRequests (h : s.memOk) {a} : ({ s with requests := a } : State).memOk := h

theorem State.memOk.withSent (h : s.memOk) {a b} : ({ s with requests := a, sent := b } : State).memOk := h

theorem State.memOk.withHostRead (h : s.memOk) {a} : ({ s with hostRead := a } : State).memOk := h

theorem State.memOk.withHostReadFree (h : s.memOk) {a b} : ({ s with hostRead := a, free := b } : State).memOk := h

theorem State.memOk.withBad (h : s.memOk) {a} : ({ s with bad := a } : State).memOk := h

theorem State.memOk.withStores (h : s.memOk) {a b c} : ({ s with images := a, cache := b, lent := c } : State).memOk := h

theorem State.memOk.withDamper (h : s.memOk) {a} : ({ s with damper := a } : State).memOk := h

theorem State.memOk.withCur (h : s.memOk) {a} : ({ s with cur := a } : State).memOk := h

theorem State.memOk.withSoot (h : s.memOk) {o} : ({ s with soot := o } : State).memOk := h

theorem State.memOk.modTeam (h : s.memOk) {t f} : (s.modTeam t f).memOk := by
  unfold State.modTeam
  split <;> exact h.same rfl rfl

theorem State.memOk.modLaunch (h : s.memOk) {t f} : (s.modLaunch t f).memOk := by
  unfold State.modLaunch
  split <;> exact h.same rfl rfl

theorem State.memOk.modImage (h : s.memOk) {k f} : (s.modImage k f).memOk := by
  unfold State.modImage
  split <;> exact h.same rfl rfl

theorem State.memOk.modHome (h : s.memOk) {k f} : (s.modHome k f).memOk := by
  unfold State.modHome
  split
  · exact h.same rfl rfl
  · split <;> exact h.same rfl rfl
  · exact h

theorem State.memOk.takeFree (h : s.memOk) : s.takeFree.2.memOk := h

theorem State.memOk.meter (h : s.memOk) {c q n} : (s.meter c q n).memOk := h.ite (h.same rfl rfl)

theorem State.memOk.mend (h : s.memOk) {l} : (s.mend l).memOk := State.memOk_mend h l

/-! ### Writes -/

theorem State.memOk.writePlace (h : s.memOk) {q cls sc p bs} : (s.writePlace q cls sc p bs).memOk :=
  State.memOk_writePlace h q cls sc p bs

theorem State.memOk.atomicWrite (h : s.memOk) {q cls sc p bs} : (s.atomicWrite q cls sc p bs).memOk :=
  State.memOk_atomicWrite h q cls sc p bs

theorem State.memOk.widen (h : s.memOk) {k} : (s.widen k).memOk := by
  unfold State.widen
  split
  · exact h
  · dsimp only
    split
    · exact h
    · exact State.memOk_settle (State.memOk.foldl (h.same rfl rfl) fun hu => State.memOk_breakResvs hu _)

theorem State.memOk.hwWrite (h : s.memOk) {sc pa bs} : (s.hwWrite sc pa bs).memOk := h.atomicWrite

theorem State.memOk.hwUpdate (h : s.memOk) {pa n f} : (s.hwUpdate pa n f).memOk := h.ite h.hwWrite

/-! ### The error log -/

theorem State.memOk.logError (h : s.memOk) {dws} : (s.logError dws).memOk := by
  unfold State.logError
  dsimp only
  split <;> exact h.same rfl rfl

theorem State.memOk.corrected (h : s.memOk) {sram inj line part agent tcb va} :
    (s.corrected sram inj line part agent tcb va).memOk := by
  unfold State.corrected
  dsimp only
  split
  · exact h.withErr.logError
  · exact h.same rfl rfl

theorem State.memOk.uncorrectable (h : s.memOk) {zeroed inj line part agent tcb va} :
    (s.uncorrectable zeroed inj line part agent tcb va).memOk := h.logError

theorem State.memOk.lineErrorVia (h : s.memOk) {q via p zeroed pa va} : (s.lineErrorVia q via p zeroed pa va).1.memOk := by
  unfold State.lineErrorVia
  dsimp only
  split
  · exact h.uncorrectable
  · split
    · exact h.corrected
    · exact h.uncorrectable
    · exact h

theorem State.memOk.lineError (h : s.memOk) {q p zeroed pa va} : (s.lineError q p zeroed pa va).1.memOk := h.lineErrorVia

theorem State.memOk.sramErrors (h : s.memOk) {q p l} : (s.sramErrors q p l).1.memOk := h.foldl fun hu => hu.logError

theorem State.memOk.readErrors (h : s.memOk) {q p zeroed pl n va} : (s.readErrors q p zeroed pl n va).1.memOk := by
  unfold State.readErrors
  split
  · exact State.memOk.foldl_fst h fun hr => hr.lineError
  · exact h
  · exact h.sramErrors

theorem State.memOk.walkErrors (h : s.memOk) {q p va} : (s.walkErrors q p va).memOk :=
  h.ite (h.foldl fun hu => hu.lineErrorVia)

/-! ### Translation -/

theorem State.memOk.tlbPut (h : s.memOk) {e} : (s.tlbPut e).memOk := by
  unfold State.tlbPut
  dsimp only
  split <;> exact h.same rfl rfl

theorem State.memOk.tlbFill (h : s.memOk) {q e} : (s.tlbFill q e).memOk := h.foldl fun hu => hu.tlbPut

theorem State.memOk.translateWalk (h : s.memOk) {q p acc user va} : (s.translateWalk q p acc user va).2.memOk := by
  have hw : ((s.takeFree).2.walkErrors q p va).memOk := h.takeFree.walkErrors
  rw [State.translateWalk]
  split
  · split
    · exact hw.hwUpdate.tlbFill
    · exact hw
  all_goals exact hw

theorem State.memOk.translate (h : s.memOk) {q p acc user va} : (s.translate q p acc user va).2.memOk := by
  unfold State.translate
  split
  · exact h
  · split
    · split
      · exact h
      · split
        · exact h.translateWalk
        · dsimp only
          split
          · exact h.ite h.tlbPut
          · exact h
    · exact h.translateWalk

/-- The state that a translation with a known answer leaves. -/
theorem State.memOk.translate_eq (h : s.memOk) {q p acc user va} {r : Tr × State} (he : s.translate q p acc user va = r) : r.2.memOk :=
  he ▸ h.translate

theorem State.memOk.loadPage_eq (h : s.memOk) {c va} {r : State × Option Nat} (hr : s.loadPage c va = r) : r.1.memOk := by
  have hw := h.takeFree.walkErrors (q := .core c .cx) (p := (s.core c).b.part.toNat) (va := va)
  rw [State.loadPage] at hr
  dsimp only at hr
  split at hr
  · subst hr
    exact h.tlbFill
  · split at hr
    · subst hr
      exact hw.tlbFill
    · subst hr
      exact hw

theorem State.memOk.loadPage (h : s.memOk) {c va} : (s.loadPage c va).1.memOk := h.loadPage_eq rfl

/-! ### Task Control Blocks, notifications and freezes -/

theorem State.memOk.tcbSeen (h : s.memOk) {p tcb} : (s.tcbSeen p tcb).memOk := by
  rw [State.tcbSeen]
  split
  · exact h.walkErrors.hwUpdate.readErrors.meterUncore
  · exact h

theorem State.memOk.tcbPut (h : s.memOk) {p tcb i f} : (s.tcbPut p tcb i f).memOk := by
  rw [State.tcbPut]
  split
  · exact h.hwUpdate.meterUncore.ite h.hwUpdate.meterUncore.atomicWrite
  · exact h

theorem State.memOk.notify (h : s.memOk) {p kind tcb dw2 dw3} : (s.notify p kind tcb dw2 dw3).memOk := by
  unfold State.notify
  dsimp only
  split
  · exact h.same rfl rfl
  · exact h.hwWrite.meterUncore.modPart.raiseMsix

theorem State.memOk.setFrz (h : s.memOk) {p tcb v} : (s.setFrz p tcb v).memOk := h.tcbPut

theorem State.memOk.settleTask (h : s.memOk) {late x} : (s.settleTask late x).1.memOk := State.memOk.foldl_fst h fun hr => (hr.same rfl rfl)

theorem State.memOk.leave (h : s.memOk) {x} : (s.leave x).1.memOk := h.settleTask.ite h.settleTask.modIsland

theorem State.memOk.leaveCore (h : s.memOk) {c} : (s.leaveCore c).memOk := h.leave.modCtx

theorem State.memOk.freezeMember (h : s.memOk) {p t m} : (s.freezeMember p t m).memOk := by
  refine State.memOk.setFrz ?_
  split
  · exact h.leaveCore.modCore
  · split
    · split
      · exact h.leave.modImage
      · exact h
    · exact h

theorem State.memOk.freezeQuiet (h : s.memOk) {t} : (s.freezeQuiet t).memOk := by
  unfold State.freezeQuiet
  split
  · exact h
  · exact (h.foldl fun hu => hu.freezeMember).modTeam

theorem State.memOk.freezeTeam (h : s.memOk) {t kind tcb dw2 dw3} : (s.freezeTeam t kind tcb dw2 dw3).memOk := by
  unfold State.freezeTeam
  split
  · exact h
  · exact h.freezeQuiet.notify

theorem State.memOk.freezeCore (h : s.memOk) {c kind dw2 dw3} : (s.freezeCore c kind dw2 dw3).memOk := by
  unfold State.freezeCore
  split
  · exact h.freezeTeam
  · exact h.same rfl rfl

theorem State.memOk.tcbUpd (h : s.memOk) {p tcb i f} : (s.tcbUpd p tcb i f).memOk := by
  rw [State.tcbUpd]
  split
  · exact h.ite h.freezeTeam
  · exact h.tcbPut

theorem State.memOk.tcbLookFor (h : s.memOk) {t p tcb} : (s.tcbLookFor t p tcb).memOk := by
  rw [State.tcbLookFor.eq_def]
  split
  · exact h.ite h.freezeTeam
  · exact h.tcbSeen

theorem State.memOk.tcbLook (h : s.memOk) {p tcb} : (s.tcbLook p tcb).memOk := h.tcbLookFor

/-! ### Soot records, waits and events -/

theorem State.memOk.sootRecord (h : s.memOk) {dw0 dw2 dw3} : (s.sootRecord dw0 dw2 dw3).memOk := by
  unfold State.sootRecord
  dsimp only
  split
  · exact h.same rfl rfl
  · exact h.hwWrite.withSoot.meterUncore

theorem State.memOk.endWait (h : s.memOk) {c a} : (s.endWait c a).memOk := by
  unfold State.endWait
  split
  · exact h
  · exact h.modCtx.sootRecord.ite h.modCtx

theorem State.memOk.endedBy (h : s.memOk) {c a flag num setter sc} : (s.endedBy c a flag num setter sc).memOk :=
  h.modCtx.endWait.ite h

theorem State.memOk.endWaitOf (h : s.memOk) {c a flag} : (s.endWaitOf c a flag).memOk := h.endWait.ite h

theorem State.memOk.latchEvent (h : s.memOk) {c k setter sc} : (s.latchEvent c k setter sc).memOk := by
  unfold State.latchEvent
  dsimp only
  split
  · exact h.modCtx.modCtx.endWait
  · exact h.modCtx.endedBy.ite h.modCtx

theorem State.memOk.eventAt (h : s.memOk) {x k setter sc} : (s.eventAt x k setter sc).memOk := by
  unfold State.eventAt
  split
  · exact h.latchEvent
  · exact h.modHome

end

end Sys2Proof.Machine
end

section
/-! SUPPORT. Every step keeps the canonical form of memory: the Stoker's instructions, its fetches and its accesses as they perform. -/
namespace Sys2Proof.Machine

/-- An answer whose next state, if it is one, has its memories in canonical form. -/
def Res.memOk (r : Res) : Prop := ∀ t, r = .next t → t.memOk

theorem State.memOk.next {s : State} (h : s.memOk) : Res.memOk (.next s) := fun _ ht => Host.Outcome.next.inj ht ▸ h

theorem Res.memOk_fault {f : Fault} : Res.memOk (.fault f) := fun _ ht => by cases ht

theorem Res.memOk.ite {p : Prop} [Decidable p] {r q : Res} (hr : Res.memOk r) (hq : Res.memOk q) : Res.memOk (if p then r else q) := by
  split
  · exact hr
  · exact hq

section
variable {s : State} (h : s.memOk)
include h

/-! ### Completion, exceptions and operands -/

theorem State.memOk.atHost {t : State} (ht : t.memOk) : Res.memOk (s.atHost t) := ht.next.ite h.next

theorem State.memOk.retireAt {pc} : (s.retireAt pc).memOk := h.upd.meter.endWait

theorem State.memOk.finish : Res.memOk s.finish := h.retireAt.next

theorem State.memOk.takeTrap {cause tval info} : (s.takeTrap cause tval info).memOk := by
  unfold State.takeTrap
  split
  · exact h.upd
  · exact h.upd.freezeCore
  · exact h.upd

theorem State.memOk.trap {cause tval info} : Res.memOk (s.trap cause tval info) := h.takeTrap.next

theorem State.memOk.takeTrapFree {cause info} : (s.takeTrapFree cause info).memOk := h.takeFree.takeTrap

theorem State.memOk.trapFree {cause info} : Res.memOk (s.trapFree cause info) := h.takeTrapFree.next

theorem State.memOk.illegal : Res.memOk s.illegal := h.trapFree

theorem State.memOk.violate : Res.memOk s.violate := h.freezeCore.next

theorem State.memOk.withRegs {srcs dsts} {k : Res} (hk : Res.memOk k) : Res.memOk (s.withRegs srcs dsts k) := by
  unfold State.withRegs
  split
  · exact h.next
  · split
    · exact h.trap
    · exact hk

theorem State.memOk.setRd {rd v} : Res.memOk (s.setRd rd v) := h.upd.finish

theorem State.memOk.enqueue {e} : (s.enqueue e).memOk := h

theorem State.memOk.acquire : s.acquire.memOk := h

theorem State.memOk.fence {mask sc} : (s.fence mask sc).memOk := h.ite h.enqueue

theorem State.memOk.owe {rd v} : (s.owe rd v).memOk := h.ite h.enqueue

theorem State.memOk.withTyped {inW t n write} {k : Place → Res} (hk : ∀ {p}, Res.memOk (k p)) :
    Res.memOk (s.withTyped inW t n write k) := by
  unfold State.withTyped
  split
  · exact h.trapFree
  · exact h.trapFree
  · exact hk
  · dsimp only
    split
    · exact hk
    · exact h.noteWait.next

theorem State.memOk.withGlobal {acc va} {k : State → Place → Nat → Res} (hk : ∀ {u : State} {p attr}, u.memOk → Res.memOk (k u p attr)) :
    Res.memOk (s.withGlobal acc va k) := by
  unfold State.withGlobal
  dsimp only
  split
  · exact (hk h).ite Res.memOk_fault
  · split
    case h_1 heq => exact hk (h.translate_eq heq)
    case h_2 heq => exact (h.translate_eq heq).trap
    case h_3 heq => exact (h.translate_eq heq).violate
    case h_4 => exact Res.memOk_fault

/-! ### Fetches -/

omit h in
/-- What a fetch leaves. -/
def Fetch.memOk : Fetch → Prop
  | .ok _ s | .page s | .image s | .error s | .violation s => s.memOk
  | .hole => True

omit h in
theorem Fetch.memOk.bind {r : Fetch} {k : List Byte → State → Fetch} (hr : r.memOk) (hk : ∀ {bs} {u : State}, u.memOk → (k bs u).memOk) :
    (r.bind k).memOk := by
  cases r
  case ok bs u => exact hk hr
  all_goals exact hr

omit h in
theorem Fetch.memOk.ite {p : Prop} [Decidable p] {r q : Fetch} (hr : r.memOk) (hq : q.memOk) : (if p then r else q).memOk := by
  split
  · exact hr
  · exact hq

theorem State.memOk.fetchOk {bs} : (Fetch.ok bs s).memOk := h

theorem State.memOk.fetchPage {c a user va n} : (s.fetchPage c a user va n).memOk := by
  unfold State.fetchPage
  split
  case h_1 heq =>
    dsimp only
    split <;> exact State.memOk.readErrors (h.translate_eq heq)
  case h_2 heq => exact h.translate_eq heq
  case h_3 heq => exact h.translate_eq heq
  case h_4 => trivial

theorem State.memOk.fetchRaw {c a user va n} : (s.fetchRaw c a user va n).memOk :=
  h.fetchPage.ite (h.fetchPage.bind fun hu => hu.fetchPage.bind fun hv => hv.fetchOk)

omit h in
/-- A page that cannot be fetched lies outside the image. -/
theorem Fetch.memOk.outsideImage {r : Fetch} (hr : r.memOk) : (match r with | .page s => Fetch.image s | r => r).memOk := by
  cases r <;> exact hr

theorem State.memOk.imageLine {c a user hdr latt dict i} : (s.imageLine c a user hdr latt dict i).memOk := by
  refine Fetch.memOk.outsideImage (h.fetchRaw.bind fun hu => ?_)
  refine hu.fetchRaw.ite (hu.fetchRaw.bind fun hv => Fetch.memOk.ite hv ?_)
  exact hv.fetchRaw.bind fun hw => hw.fetchRaw.bind fun hx => hx.fetchOk

theorem State.memOk.fetchCode {c a user va n} : (s.fetchCode c a user va n).memOk := by
  unfold State.fetchCode
  dsimp only
  refine h.fetchRaw.ite (h.fetchRaw.bind fun hu => ?_)
  refine Fetch.memOk.ite hu (hu.fetchRaw.ite (Fetch.memOk.ite ?_ ?_))
  · exact hu.imageLine.bind fun hv => hv.fetchOk
  · refine (hu.imageLine.bind fun hv => hv.fetchOk).bind fun hv => Fetch.memOk.bind ?_ fun hw => hw.fetchOk
    exact hv.fetchRaw.ite (hv.imageLine.bind fun hw => hw.fetchOk)

/-! ### Accesses as they perform -/

theorem State.memOk.landAt {c k v} : (s.landAt c k v).memOk := h

theorem State.memOk.noteSeen {c cls need p n} : (s.noteSeen c cls need p n).memOk := h

theorem State.memOk.readError {c p n uez va} : (s.readError c p n uez va).1.memOk := h.readErrors

theorem State.memOk.poisonAt {c k d va} : (s.poisonAt c k d va).memOk := h

theorem State.memOk.svcRecord {part p n} : (s.svcRecord part p n).2.memOk := h.readErrors

theorem State.memOk.performEntry {c k} : (s.performEntry c k).memOk := by
  unfold State.performEntry
  dsimp only
  split
  · exact h
  · refine h.ite ?_
    split
    case h_1 => exact h.landAt
    case h_2 => exact h.landAt
    case h_3 => exact h.landAt.ite h
    case h_4 => exact State.memOk.ite (h.readError.landAt.ite h.readError.poisonAt) h.readError.noteSeen.landAt
    case h_5 => exact h.writePlace.landAt
    case h_6 => exact h.ite (h.readError.poisonAt.ite h.readError.noteSeen.atomicWrite.landAt)
    case h_7 => exact h.ite (h.readError.poisonAt.ite h.readError.noteSeen.landAt.modCtx)
    case h_8 =>
      refine h.ite ?_
      split
      · exact h.modCtx.atomicWrite.landAt.meter.ite h.modCtx.landAt
      · exact h.landAt
    case h_9 => exact (State.memOk.foldl h fun hu => hu.modCtx).landAt
    case h_10 => exact h.eventAt.landAt
    case h_11 =>
      refine h.ite (State.memOk.landAt (State.memOk.ite ?_ ?_))
      · exact State.memOk.same h.svcRecord rfl rfl
      · exact h.svcRecord
    case h_12 => exact h.ite (h.landAt.ite (h.landAt.ite h.withLent.landAt))
    case h_13 => exact h.landAt.ite (h.ite (h.landAt.ite h.modCtx.landAt))
    case h_14 => exact h.modCtx.landAt

end

end Sys2Proof.Machine
end

section
/-! SUPPORT. Every step keeps the canonical form of memory: the instructions of the Stoker. -/
namespace Sys2Proof.Machine

section
variable {s : State} (h : s.memOk)
include h

/-! ### RV64 -/

theorem State.memOk.setFd {dbl rd r} : Res.memOk (s.setFd dbl rd r) := h.upd.finish

theorem State.memOk.setXd {rd v fl} : Res.memOk (s.setXd rd v fl) := h.upd.finish

theorem State.memOk.withRm {rm} {k : Rm → Res} (hk : ∀ {m}, Res.memOk (k m)) : Res.memOk (s.withRm rm k) := by
  unfold State.withRm
  split
  · exact hk
  · exact h.illegal

theorem State.memOk.readCsr {rd n} : Res.memOk (s.readCsr rd n) := by
  unfold State.readCsr
  split
  · exact h.illegal
  · split
    · exact h.withRegs h.setRd
    · exact h.illegal

theorem State.memOk.jump {rd target} : Res.memOk (s.jump rd target) := h.upd.retireAt.next

theorem State.memOk.execRv64Base {i} : Res.memOk (execRv64Base i s) := by
  cases i
  case lui | auipc | alu | aluImm | shift | unary | fpClass | fpMvToInt => exact h.withRegs h.setRd
  case jal | jalr => exact h.withRegs h.jump
  case branch => exact h.withRegs (h.retireAt.next.ite h.finish)
  case csrRead => exact h.readCsr
  case ecall | ebreak => exact h.trap
  case mret => exact h.retireAt.upd.next.ite h.illegal
  case fpArith | fpSqrt | fpFma | intToFp | fpCvt => exact h.withRm (h.withRegs h.setFd)
  case fpSel => exact h.withRegs h.setFd
  case fpCmp => exact h.withRegs h.setXd
  case fpToInt => exact h.withRm (h.withRegs h.setXd)
  case intMvToFp => exact h.withRegs h.upd.finish

theorem State.memOk.issueLoad {cls d n sext va} : Res.memOk (s.issueLoad cls d n sext va) :=
  h.trap.ite (h.withGlobal fun hu => hu.enqueue.meter.finish)

theorem State.memOk.issueStore {cls bs va} : Res.memOk (s.issueStore cls bs va) :=
  h.trap.ite (h.withGlobal fun hu => hu.trapFree.ite hu.enqueue.meter.finish)

theorem State.memOk.acquireIf {aq} : (s.acquireIf aq).memOk := h.acquire.ite h

theorem State.memOk.releaseIf {rl} : (s.releaseIf rl).memOk := h.fence.ite h

theorem State.memOk.execAmo {op dbl aq rl rd rs1 rs2} : Res.memOk (execAmo op dbl aq rl rd rs1 rs2 s) :=
  h.withRegs (h.trap.ite (h.withGlobal fun hu => hu.trapFree.ite hu.releaseIf.enqueue.acquireIf.meter.meter.finish))

theorem State.memOk.execLr {dbl aq rl rd rs1} : Res.memOk (execLr dbl aq rl rd rs1 s) :=
  h.withRegs (h.trap.ite (h.withGlobal fun hu => hu.enqueue.acquireIf.meter.finish))

theorem State.memOk.execSc {dbl aq rl rd rs1 rs2} : Res.memOk (execSc dbl aq rl rd rs1 rs2 s) :=
  h.withRegs (h.trap.ite (h.withGlobal fun hu => hu.trapFree.ite hu.releaseIf.enqueue.acquireIf.finish))

theorem State.memOk.execFence {fm pred succ rs1 rd} : Res.memOk (execFence fm pred succ rs1 rd s) := (h.fence.ite h).finish

theorem State.memOk.execSfenceVma {rs1 rs2} : Res.memOk (execSfenceVma rs1 rs2 s) := h.illegal.ite (h.withRegs h.withTlb.finish)

theorem State.memOk.execSret : Res.memOk (execSret s) := h.illegal.ite h.retireAt.upd.next

/-! ### CSRs -/

theorem State.memOk.writeAction {a v} : (s.writeAction a v).memOk := h.upd.fence.enqueue.ite h.upd

theorem State.memOk.csrWrite {n v} {t : State} (ht : s.csrWrite n v = some t) : t.memOk := by
  unfold State.csrWrite at ht
  dsimp only at ht
  split at ht
  · split at ht
    · exact Option.some.inj ht ▸ h.writeAction
    · cases ht
  · split at ht <;> cases ht <;> exact h.same rfl rfl

theorem State.memOk.execCsrWrite {op uimm rd rs1 csr} : Res.memOk (execCsrWrite op uimm rd rs1 csr s) := by
  refine h.withRegs (h.illegal.ite ?_)
  split
  · exact h.illegal
  · split
    case h_1 => exact h.illegal
    case h_2 ht => exact (h.csrWrite ht).setRd

theorem State.memOk.execYeventWrite {op uimm rd rs1} : Res.memOk (execYeventWrite op uimm rd rs1 s) := h.withRegs h.upd.setRd

theorem State.memOk.execYwmWrite {op uimm rd rs1} : Res.memOk (execYwmWrite op uimm rd rs1 s) := h.withRegs h.upd.setRd

theorem State.memOk.drainWait {a} : Res.memOk (s.drainWait a) := h.noteWait.next

theorem State.memOk.execYmxstAccess {op uimm rd rs1} : Res.memOk (execYmxstAccess op uimm rd rs1 s) :=
  h.withRegs (h.drainWait.ite (h.upd.ite h).setRd)

theorem State.memOk.execYdxstAccess {op uimm rd rs1} : Res.memOk (execYdxstAccess op uimm rd rs1 s) := by
  refine h.withRegs ?_
  split
  · exact h.drainWait
  · exact (h.upd.ite h).setRd

/-! ### Pushes -/

theorem State.memOk.register {r} : (s.register r).memOk := h

theorem State.memOk.stall {a} : Res.memOk (s.stall a) := h.noteWait.next

theorem State.memOk.undecoupled : Res.memOk s.undecoupled := h.noteWait.next

theorem State.memOk.push {r} {k : State → Res} (hk : ∀ {u : State}, u.memOk → Res.memOk (k u)) : Res.memOk (s.push r k) :=
  h.undecoupled.ite (h.stall.ite (hk h.register.meter))

theorem State.memOk.withRecord {off} {k : List Byte → Res} (hk : ∀ {r}, Res.memOk (k r)) : Res.memOk (s.withRecord off k) :=
  h.withTyped (h.undecoupled.ite (h.sramErrors.trapFree.ite hk))

theorem State.memOk.pushRun {mx code off} : Res.memOk (s.pushRun mx code off) :=
  h.withRegs (h.illegal.ite (h.withRecord (h.push fun hu => hu.finish)))

theorem State.memOk.pushMx {w addr} : Res.memOk (s.pushMx w addr) := by
  unfold State.pushMx
  refine h.push fun hu => ?_
  split
  · exact hu.upd.finish
  · exact hu.finish

theorem State.memOk.pushPlain {a cmd} {k : State → State} (hk : ∀ {u : State}, u.memOk → (k u).memOk) :
    Res.memOk (s.pushPlain a cmd k) := h.push fun hu => (hk hu).finish

theorem State.memOk.clearRstbl : s.clearRstbl.memOk := h.ite h.tcbUpd

theorem State.memOk.pushRecord {a f off token} {k : State → Res} (hk : ∀ {u : State}, u.memOk → Res.memOk (k u)) :
    Res.memOk (s.pushRecord a f off token k) :=
  h.illegal.ite (h.withRecord (h.push fun hu => (hk hu.clearRstbl.upd).ite (hk hu)))

theorem State.memOk.execMxPushw {b a} : Res.memOk (execMxPushw b a s) := h.withRegs (h.illegal.ite h.pushMx)

theorem State.memOk.execSkShape {a sh} : Res.memOk (execSkShape a sh s) := by
  refine h.withRegs ?_
  split
  · exact h.illegal
  · exact h.pushPlain fun hu => hu.upd

theorem State.memOk.execSkView {x sl v} : Res.memOk (execSkView x sl v s) := h.pushPlain fun hu => hu.upd

theorem State.memOk.execSkTgeom {a c} : Res.memOk (execSkTgeom a c s) := h.withRegs (h.illegal.ite h.pushMx)

theorem State.memOk.execSkRfcl {n} : Res.memOk (execSkRfcl n s) := h.pushPlain fun hu => hu

theorem State.memOk.pushCx {f a d} : Res.memOk (s.pushCx f a d) := by
  refine h.withRegs (h.illegal.ite ?_)
  split
  · exact h.trapFree
  · exact h.pushRecord fun hu => hu.upd.setRd

theorem State.memOk.endToken {c n code} : (s.endToken c n code).memOk := by
  unfold State.endToken
  split
  · exact h.modCtx.endedBy.latchEvent
  · exact h.latchEvent

theorem State.memOk.execCxCancel {a} : Res.memOk (execCxCancel a s) := by
  refine h.withRegs ?_
  split
  · exact h.finish
  · split
    · exact h.finish
    · exact h.finish.ite (h.upd.finish.ite h.upd.endToken.finish)

theorem State.memOk.report {v code} : (s.report v code).memOk := h.ite (h.upd.acquire.ite h.upd)

theorem State.memOk.execCxWait {a d} : Res.memOk (execCxWait a d s) := h.withRegs (h.noteWait.next.ite h.report.setRd)

theorem State.memOk.execCxTest {a d} : Res.memOk (execCxTest a d s) := h.withRegs h.report.owe.finish

theorem State.memOk.pushRec {a f r} : Res.memOk (s.pushRec a f r) := h.withRegs (h.pushRecord fun hu => hu.finish)

theorem State.memOk.execClBarrier {t sc} : Res.memOk (execClBarrier t sc s) := by
  unfold Machine.execClBarrier
  refine h.push fun hu => ?_
  exact hu.clearRstbl.upd.finish

theorem State.memOk.pushTag {inW f g a b} : Res.memOk (s.pushTag inW f g a b) :=
  h.withRegs (h.illegal.ite (h.push fun hu => hu.finish))

/-! ### Markers, events and messages -/

theorem State.memOk.waitRv {k} : Res.memOk (s.waitRv k) := h.noteWait.next

theorem State.memOk.execSkMark {c e a k} : Res.memOk (execSkMark c e a k s) := by
  refine h.withRegs (h.waitRv.ite (h.undecoupled.ite ?_))
  split
  · exact h.stall
  · exact h.upd.enqueue.finish

theorem State.memOk.execSkRdvwait {k} : Res.memOk (execSkRdvwait k s) := h.acquire.finish.ite h.waitRv

theorem State.memOk.execSkRdvtest {k d} : Res.memOk (execSkRdvtest k d s) := h.withRegs (h.acquire.owe.finish.ite h.owe.finish)

theorem State.memOk.execSkWfe {d} : Res.memOk (execSkWfe d s) := h.withRegs (h.setRd.ite (h.noteWait.next.ite h.upd.acquire.setRd))

theorem State.memOk.withMember {m} {k : Res} (hk : Res.memOk k) : Res.memOk (s.withMember m k) := h.trapFree.ite hk

theorem State.memOk.execSkSev {m} : Res.memOk (execSkSev m s) := h.withMember h.enqueue.finish

theorem State.memOk.execSkSend {a m} : Res.memOk (execSkSend a m s) :=
  h.withRegs (h.withMember (h.undecoupled.ite (h.noteWait.next.ite h.modHome.eventAt.finish)))

theorem State.memOk.execSkRecv {d} : Res.memOk (execSkRecv d s) := by
  refine h.withRegs ?_
  split
  · exact h.noteWait.next
  · exact h.upd.acquire.setRd

/-! ### Rings, deques, feeds -/

theorem State.memOk.ringReturn {c n a} : (s.ringReturn c n a).memOk := h.modCtx.endedBy.eventAt

theorem State.memOk.noteRing {c a n} : (s.noteRing c a n).memOk := h

theorem State.memOk.ringFault {n} : Res.memOk (s.ringFault n) := h.trapFree

theorem State.memOk.execRingTake {n d} : Res.memOk (execRingTake n d s) :=
  h.withRegs (h.ringFault.ite (h.noteRing.next.ite h.upd.acquire.setRd))

theorem State.memOk.execRingGive {n} : Res.memOk (execRingGive n s) := h.ringFault.ite (h.next.ite h.ringReturn.finish)

theorem State.memOk.execRingStat {n d} : Res.memOk (execRingStat n d s) := h.withRegs (h.ringFault.ite h.owe.finish)

theorem State.memOk.execRingCfg {b a n} : Res.memOk (execRingCfg b a n s) := h.withRegs (h.upd.finish.ite h.upd.finish)

theorem State.memOk.execDqPush {a d} : Res.memOk (execDqPush a d s) := h.withRegs h.clearRstbl.enqueue.finish

theorem State.memOk.giveWord {d v} : Res.memOk (s.giveWord d v) := (h.ite h.acquire).owe.finish

theorem State.memOk.setDeque {c l own ws} : (s.setDeque c l own ws).memOk := h

theorem State.memOk.execDqPop {d} : Res.memOk (execDqPop d s) := by
  refine h.withRegs (h.next.ite ?_)
  split
  · exact h.clearRstbl.setDeque.giveWord
  · exact h.clearRstbl.upd.giveWord

theorem State.memOk.execDqSteal {d} : Res.memOk (execDqSteal d s) := by
  refine h.withRegs (h.next.ite ?_)
  split
  · exact h.clearRstbl.setDeque.giveWord
  · exact h.clearRstbl.giveWord

theorem State.memOk.withFeed {l} {k : State → List Byte → Res} (hk : ∀ {u : State} {bs}, u.memOk → Res.memOk (k u bs)) :
    Res.memOk (s.withFeed l k) := by
  unfold State.withFeed
  dsimp only
  split
  case h_1 heq => exact (State.memOk.readErrors (h.translate_eq heq)).trap.ite (hk (State.memOk.readErrors (h.translate_eq heq)).meter)
  case h_2 heq => exact (h.translate_eq heq).trap
  case h_3 heq => exact (h.translate_eq heq).violate
  case h_4 => exact Res.memOk_fault

theorem State.memOk.execFeedPop {a d} : Res.memOk (execFeedPop a d s) := by
  refine h.withRegs ?_
  split
  · exact h.illegal
  · refine h.illegal.ite (h.trap.ite (h.clearRstbl.owe.finish.ite (h.withTyped (h.next.ite (h.withFeed fun hu => ?_)))))
    exact hu.clearRstbl.modLaunch.writePlace.meter.acquire.owe.finish

theorem State.memOk.execSkBudget {d} : Res.memOk (execSkBudget d s) := h.withRegs h.owe.finish

theorem State.memOk.execSkVariant {c a d} : Res.memOk (execSkVariant c a d s) := h.withRegs (h.tcbUpd.ite h).owe.finish

/-! ### Typed accesses, services and lends -/

theorem State.memOk.loadTyped {inW c u b a w d} : Res.memOk (s.loadTyped inW c u b a w d) :=
  h.withRegs (h.trap.ite (h.withTyped h.enqueue.meter.finish))

theorem State.memOk.storeTyped {inW c b a w} : Res.memOk (s.storeTyped inW c b a w) :=
  h.withRegs (h.trap.ite (h.withTyped h.enqueue.meter.finish))

theorem State.memOk.abAmo {op w b a d} : Res.memOk (s.abAmo op w b a d) :=
  h.withRegs (h.trap.ite (h.withTyped h.enqueue.meter.finish))

theorem State.memOk.execSkSvc {a d} : Res.memOk (execSkSvc a d s) :=
  h.withRegs (h.clearRstbl.owe.finish.ite (h.withGlobal fun hu => hu.clearRstbl.enqueue.finish))

theorem State.memOk.execSkLend {a d} : Res.memOk (execSkLend a d s) :=
  h.withRegs (h.withGlobal fun hu => hu.clearRstbl.enqueue.finish)

end

end Sys2Proof.Machine
end

section
/-! SUPPORT. Every step keeps the canonical form of memory: the commands of the engines, their jobs, and their retirement. -/
namespace Sys2Proof.Machine

/-! ### Faults and starts -/

section
variable {s : State} (h : s.memOk)
include h

theorem State.memOk.faultRec {e f progress fop task vxst} : (s.faultRec e f progress fop task vxst).2.memOk := by
  unfold State.faultRec State.faultAddr
  dsimp only
  split <;> exact h.same rfl rfl

theorem State.memOk.engineFault {c a e f progress} : (s.engineFault c a e f progress).memOk :=
  h.faultRec.modCtx.freezeCore.ite h.faultRec.modCtx

theorem State.memOk.noteWaitAt {c a at' flag num setter sc} : (s.noteWaitAt c a at' flag num setter sc).memOk := h

theorem State.memOk.startEntry {a want} {k : State → Entry → Res} (hk : ∀ {u : State} {e}, u.memOk → Res.memOk (k u e)) :
    Res.memOk (s.startEntry a want k) := by
  unfold State.startEntry
  dsimp only
  refine h.next.ite ?_
  split
  · exact h.next
  · refine h.next.ite ?_
    split
    · exact hk h.endWaitOf
    · exact h.noteWaitAt.next

theorem State.memOk.setTag {p tag} : (s.setTag p tag).memOk := by
  unfold State.setTag
  split <;> exact h.same rfl rfl

end

/-! ### Jobs -/

/-- A job whose states, the one it began in and the present one, have their memories in canonical form. -/
def Job.memOk (j : Job) : Prop := j.s0.memOk ∧ j.s.memOk

/-- What an access of a job leaves. -/
def Got.memOk {α : Type} : Got α → Prop
  | .ok _ j | .stop _ j => j.memOk
  | .hole => True

theorem Got.memOk.bind {α β : Type} {r : Got α} {k : α → Job → Got β} (hr : r.memOk) (hk : ∀ {v j}, j.memOk → (k v j).memOk) :
    (r.bind k).memOk := by
  cases r
  case ok v j => exact hk hr
  all_goals exact hr

theorem Got.memOk.ite {α : Type} {p : Prop} [Decidable p] {r q : Got α} (hr : r.memOk) (hq : q.memOk) : (if p then r else q).memOk := by
  split
  · exact hr
  · exact hq

/-- A job begins. -/
theorem State.memOk.job {s : State} (h : s.memOk) {c a cls pdef} : (s.job c a cls pdef).memOk := ⟨h, h⟩

section
variable {j : Job} (h : j.memOk)
include h

/-- The job in another state. -/
theorem Job.memOk.inState {t : State} (ht : t.memOk) : ({ j with s := t } : Job).memOk := ⟨h.1, ht⟩

theorem Job.memOk.gotOk {α : Type} {v : α} : (Got.ok v j).memOk := h

theorem Job.memOk.gotStop {α : Type} {f} : (Got.stop f j : Got α).memOk := h

theorem Job.memOk.once {q mem unit} : (j.once q mem unit).2.memOk := by
  unfold Job.once
  split
  · exact h
  · exact ⟨h.1, h.2.meter⟩

theorem Job.memOk.note {t} : (j.note t).memOk := h

theorem Job.memOk.unit {p} : (j.unit p).memOk := by
  unfold Job.unit
  split
  · exact h.once
  · exact h.once
  · exact h

omit h in
theorem Job.memOk.ite {p : Prop} [Decidable p] {i k : Job} (hi : i.memOk) (hk : k.memOk) : (if p then i else k).memOk := by
  split
  · exact hi
  · exact hk

theorem Job.memOk.unitW {p} : (j.unitW p).memOk := Job.memOk.ite h h

theorem Job.memOk.readGlob {first va n} : (j.readGlob first va n).memOk := by
  have ht := h.2.translate (q := .core j.c j.a) (p := (j.s.core j.c).b.part.toNat) (acc := .read) (user := true) (va := va)
  unfold Job.readGlob
  dsimp only
  generalize j.s.translate (.core j.c j.a) (j.s.core j.c).b.part.toNat .read true va = x at ht ⊢
  cases x with
  | mk r u =>
    cases r with
    | ok p attr =>
      have hm : ∀ q m n, (({ j with s := u } : Job).once q m n).2.memOk := fun q m n => (h.inState ht).once
      refine Got.memOk.ite (Got.memOk.ite ?_ ?_) ?_
      · exact (hm ..).inState (((hm ..).2.lineError.ite (hm ..).2).modCtx.ite ((hm ..).2.lineError.ite (hm ..).2))
      · exact (hm ..).inState ((hm ..).2.lineError.ite (hm ..).2)
      · exact (hm ..).inState ((hm ..).2.lineError.ite (hm ..).2)
    | hole => trivial
    | fault => exact h.inState ht
    | violation => exact h.inState ht

theorem Job.memOk.readBuf {t a n} : (j.readBuf t a n).memOk := by
  unfold Job.readBuf
  split
  · exact h
  · dsimp only
    split
    · exact ⟨h.1, h.2.sramErrors⟩
    · exact h.unit.note

theorem Job.memOk.readChunk {first p n} : (j.readChunk first p n).memOk := by
  unfold Job.readChunk
  split
  · exact h.readGlob
  · exact h.readBuf
  · exact h.readBuf
  · exact h

theorem Job.memOk.writeGlob {va bs} : (j.writeGlob va bs).memOk := by
  unfold Job.writeGlob
  dsimp only
  split
  case h_1 heq => exact ⟨h.1, h.2.translate_eq heq⟩
  case h_2 heq => exact ⟨h.1, h.2.translate_eq heq⟩
  case h_3 => trivial
  case h_4 heq =>
    split
    · exact ⟨h.1, h.2.translate_eq heq⟩
    · exact Job.memOk.once (h.inState (h.2.translate_eq heq))

theorem Job.memOk.put {p bs} : (j.put p bs).memOk := (h.inState h.2.writePlace).unitW.note

theorem Job.memOk.writeBuf {t a bs} : (j.writeBuf t a bs).memOk := by
  unfold Job.writeBuf
  split
  · exact h
  · exact h.put.gotOk

theorem Job.memOk.writeChunk {p bs} : (j.writeChunk p bs).memOk := by
  unfold Job.writeChunk
  split
  · exact h.writeGlob
  · exact h.writeBuf
  · exact h.writeBuf
  · exact h

theorem Job.memOk.tagChunk {p n tag} : (j.tagChunk p n tag).memOk := by
  unfold Job.tagChunk
  cases p
  case dev | host => exact h
  all_goals
    dsimp only
    split
    · exact Job.memOk.ite h (h.inState h.2.setTag)
    · exact h.inState h.2.setTag

omit h in
theorem Job.memOk.read {first fuel} : ∀ {j : Job} {p n}, j.memOk → (j.read first p fuel n).memOk := by
  induction fuel with
  | zero => exact fun h => h
  | succ fuel ih =>
    intro j p n h
    exact h.gotOk.ite (h.readChunk.bind fun hj => (ih hj).bind fun hj => hj)

theorem Job.memOk.readBytes {first p n} : (j.readBytes first p n).memOk := (Job.memOk.read h).bind fun hj => hj

omit h in
theorem Job.memOk.write {fuel} : ∀ {j : Job} {p bs}, j.memOk → (j.write p fuel bs).memOk := by
  induction fuel with
  | zero => exact fun h => h
  | succ fuel ih =>
    intro j p bs h
    exact h.gotOk.ite (h.writeChunk.bind fun hj => ih hj)

theorem Job.memOk.writeBytes {p bs} : (j.writeBytes p bs).memOk := Job.memOk.write h

theorem Job.memOk.tagAt {acc o} : (j.tagAt acc o).memOk := by
  unfold Job.tagAt
  split <;> exact h

theorem Job.memOk.flush : j.flush.1.memOk := by
  unfold Job.flush
  split
  · exact h.2
  · exact State.memOk_addWrites h.2 ..

omit h in
theorem State.memOk.meterNoted {s : State} (h : s.memOk) {c l} : (s.meterNoted c l).memOk := by
  refine h.foldl fun hu => ?_
  split
  · exact hu.meter
  · exact hu

theorem Job.memOk.ended {e} : (j.ended e).memOk := by
  refine State.memOk.endWait (State.memOk.modCtx (State.memOk.ite ?_ ?_))
  · exact h.flush.meterNoted
  · exact h.flush.foldl fun hu => hu

theorem Job.memOk.finish {e} : Res.memOk (j.finish e) := h.ended.next

theorem Job.memOk.stopKeep {e f p from' left} : Res.memOk (j.stopKeep e f p from' left) := h.flush.meterNoted.modCtx.engineFault.next

theorem Job.memOk.stopAt {e f p from'} : Res.memOk (j.stopAt e f p from') := h.stopKeep

theorem Job.memOk.badRecord {e} : Res.memOk (j.badRecord e) := h.stopAt

end

section
variable {s : State} (h : s.memOk)
include h

theorem State.memOk.withCmdRecord {a e} {k : Job → List Byte → Res} (hk : ∀ {j r}, j.memOk → Res.memOk (k j r)) :
    Res.memOk (s.withCmdRecord a e k) := by
  have hread : ((s.cmdJob a e).readBytes 0 (.a e.cmd.recOff) 64).memOk := Job.memOk.readBytes ⟨h, h⟩
  unfold State.withCmdRecord
  split
  case h_1 heq =>
    rw [heq] at hread
    exact hk hread
  case h_2 heq =>
    rw [heq] at hread
    exact hread.stopAt
  case h_3 => exact Res.memOk_fault

/-! ### Retirement and fault actions -/

theorem State.memOk.ringFilled {d n c} : (s.ringFilled d n c).memOk := h.foldl fun hu => hu.endedBy

theorem State.memOk.doTodo {c a t} : (s.doTodo c a t).memOk := by
  unfold State.doTodo
  split
  · exact h.writePlace
  · exact h.setTag
  · exact h
  · exact h.meter
  · exact h.modHome.ringFilled.eventAt

theorem State.memOk.drain {c a id n} : (s.drain c a id n).memOk := by
  unfold State.drain
  split
  · exact h
  · exact h.ite (h.foldl fun hu => hu.doTodo).modCtx

theorem State.memOk.roomBy {c a e} : (s.roomBy c a e).memOk := h.ite h.modCtx

theorem State.memOk.dropEntry {c a e} : (s.dropEntry c a e).memOk := h.roomBy.modCtx

theorem State.memOk.retireEntry {c a e} : (s.retireEntry c a e).memOk := by
  have hd : (if e.started && !e.complete && goesOn a then s.drain c a e.id e.todo.length else s).memOk := h.drain.ite h
  unfold State.retireEntry
  dsimp only
  refine hd.ite ?_
  split
  · exact hd.dropEntry.modCtx.endToken
  · exact hd.dropEntry.modCtx

theorem State.memOk.execEngineCommandRetire {a k} : Res.memOk (execEngineCommandRetire a k s) := by
  unfold Machine.execEngineCommandRetire
  split
  · exact h.retireEntry.next.ite h.next
  · exact h.next

theorem State.memOk.execCxCommandEnd {k} : Res.memOk (execCxCommandEnd k s) := by
  unfold Machine.execCxCommandEnd
  split
  · exact h.retireEntry.next.ite h.next
  · exact h.next

theorem State.memOk.execMarkerRetire {a} : Res.memOk (execMarkerRetire a s) := by
  unfold Machine.execMarkerRetire
  split
  · split
    · exact h.next.ite (h.dropEntry.modCtx.endedBy.latchEvent.next.ite h.dropEntry.modCtx.next)
    · exact h.next
  · exact h.next

theorem State.memOk.tagRange {c inW tag off n} : (s.tagRange c inW tag off n).memOk := by
  induction n with
  | zero => exact h
  | succ n ih =>
    unfold State.tagRange
    dsimp only
    split
    · exact ih.setTag
    · exact ih

theorem State.memOk.execTagWrite : Res.memOk (execTagWrite s) := by
  refine h.startEntry fun hu => ?_
  split
  · exact hu.tagRange.dropEntry.next
  · exact hu.next

theorem State.memOk.withAction {a n} {k : State → Res} (hk : ∀ {u : State}, u.memOk → Res.memOk (k u)) : Res.memOk (s.withAction a n k) :=
  h.next.ite (hk h)

theorem State.memOk.clearAction {a} : (s.clearAction a).memOk := h

theorem State.memOk.execFaultActionRestart {a} : Res.memOk (execFaultActionRestart a s) := h.withAction fun hu => hu.clearAction.next

theorem State.memOk.freeSlots {c a} : (s.freeSlots c a).memOk := by
  unfold State.freeSlots
  split
  · exact h.foldl fun hu => hu.ringReturn
  · exact h

theorem State.memOk.execFaultActionDiscard {a} : Res.memOk (execFaultActionDiscard a s) := by
  refine h.withAction fun hu => ?_
  dsimp only
  split
  · exact hu.clearAction.next
  · exact hu.clearAction.upd.freeSlots.upd.next

theorem State.memOk.execFaultActionFreeze {a} : Res.memOk (execFaultActionFreeze a s) :=
  h.withAction fun hu => hu.clearAction.freezeCore.next

end

end Sys2Proof.Machine
end

section
/-! SUPPORT. Every step keeps the canonical form of memory: what the copy and gather engines move, and the start of a run. -/
namespace Sys2Proof.Machine

theorem State.memOk.execCorrectedError {s : State} (h : s.memOk) {sram line a} : Res.memOk (execCorrectedError sram line a s) :=
  h.corrected.next

/-- The state of a pair that an operation answers. -/
theorem State.memOk.of_fst {α : Type} {r : State × α} {t : State} {a : α} (hr : r.1.memOk) (h : r = (t, a)) : t.memOk := by
  rw [h] at hr
  exact hr

/-! ### Moves of the copy engine -/

/-- Where a move ended, its job with memories in canonical form. -/
def Moved.memOk : Moved → Prop
  | .done j | .stop _ _ _ j => j.memOk
  | .hole => True

theorem Got.memOk.of_ok {α : Type} {r : Got α} {v : α} {j : Job} (hr : r.memOk) (h : r = .ok v j) : j.memOk := by
  rw [h] at hr
  exact hr

theorem Got.memOk.of_stop {α : Type} {r : Got α} {f : EFault} {j : Job} (hr : r.memOk) (h : r = .stop f j) : j.memOk := by
  rw [h] at hr
  exact hr

theorem Moved.memOk.andThen {r : Moved} {k : Job → Moved} (hr : r.memOk) (hk : ∀ {j : Job}, j.memOk → (k j).memOk) :
    (match (generalizing := false) r with
      | .done j => k j
      | o => o).memOk := by
  cases r
  case done j => exact hk hr
  all_goals exact hr

/-- Ends a command as its move ended. -/
theorem Moved.memOk.res {r : Moved} {done : Job → Res} {stop : EFault → Nat → Nat → Job → Res} (hr : r.memOk)
    (hdone : ∀ {j : Job}, j.memOk → Res.memOk (done j)) (hstop : ∀ {f row k} {j : Job}, j.memOk → Res.memOk (stop f row k j)) :
    Res.memOk (match (generalizing := false) r with
      | .done j => done j
      | .stop f row k j => stop f row k j
      | .hole => .fault .noSuchMemory) := by
  cases r
  case done j => exact hdone hr
  case stop f row k j => exact hstop hr
  case hole => exact Res.memOk_fault

theorem Moved.memOk.ite {p : Prop} [Decidable p] {r q : Moved} (hr : r.memOk) (hq : q.memOk) : (if p then r else q).memOk := by
  split
  · exact hr
  · exact hq

/-- A chunk read, written and tagged. -/
theorem Got.memOk.putChunk {r : Got (List Byte × Option Nat)} {d : RPlace} {n : Nat} (hr : r.memOk) :
    (r.bind fun v j => (j.writeChunk d v.1).bind fun p j =>
      .ok () (match v.2 with
        | some tag => j.tagChunk p n tag
        | none => j) : Got Unit).memOk := by
  refine hr.bind fun {v j} hj => hj.writeChunk.bind fun {p j} hj => ?_
  cases v.2
  · exact hj
  · exact hj.tagChunk

theorem Job.memOk.moveRow {m r fuel} : ∀ {j : Job} {k}, j.memOk → (j.moveRow m r fuel k).memOk := by
  induction fuel with
  | zero => exact fun h => h
  | succ fuel ih =>
    intro j k h
    unfold Job.moveRow
    refine Moved.memOk.ite h ?_
    dsimp only
    split
    · split
      case h_1 heq => exact ih (h.gotOk.putChunk.of_ok heq)
      case h_2 heq => exact h.gotOk.putChunk.of_stop heq
      case h_3 => trivial
    · have hc := fun i p n => h.readChunk (first := i) (p := p) (n := n)
      split
      case h_1 heq => exact ih (((hc ..).bind fun hj => hj.gotOk).putChunk.of_ok heq)
      case h_2 heq => exact ((hc ..).bind fun hj => hj.gotOk).putChunk.of_stop heq
      case h_3 => trivial

theorem Job.memOk.moveRows {m fuel} : ∀ {j : Job} {r k}, j.memOk → (j.moveRows m fuel r k).memOk := by
  induction fuel with
  | zero => exact fun h => h
  | succ fuel ih => exact fun h => Moved.memOk.ite h (h.moveRow.andThen ih)

theorem Job.memOk.move {j : Job} (h : j.memOk) {e m} : Res.memOk (j.move e m) :=
  h.moveRows.res (fun hj => hj.finish) fun hj => hj.stopKeep

theorem Job.memOk.moveSlot {src dst len fuel} : ∀ {j : Job} {k}, j.memOk → (j.moveSlot src dst len fuel k).memOk := by
  induction fuel with
  | zero => exact fun h => h
  | succ fuel ih =>
    intro j k h
    unfold Job.moveSlot
    refine Moved.memOk.ite h ?_
    dsimp only
    split
    case h_1 heq => exact ih (h.readChunk.of_ok heq).put.tagChunk
    case h_2 heq => exact h.readChunk.of_stop heq
    case h_3 => trivial

section
variable {s : State} (h : s.memOk)
include h

theorem State.memOk.startCopy {want} {k : Entry → Job → List Byte → Res} (hk : ∀ {e j r}, j.memOk → Res.memOk (k e j r)) :
    Res.memOk (s.startCopy want k) :=
  h.startEntry fun hu => (hu.withCmdRecord hk).ite hu.next

theorem State.memOk.execCxCopyStart : Res.memOk (execCxCopyStart s) := h.startCopy fun hj => hj.badRecord.ite hj.move

theorem State.memOk.execCxPeerStart : Res.memOk (execCxPeerStart s) := h.startCopy fun hj => hj.badRecord.ite hj.move

theorem State.memOk.execCxFillStart : Res.memOk (execCxFillStart s) := h.startCopy fun hj => hj.badRecord.ite hj.move

theorem State.memOk.execCxRingStart : Res.memOk (execCxRingStart s) := by
  refine h.startCopy fun hj => hj.badRecord.ite (hj.stopAt.ite (hj.stopAt.ite (hj.1.noteWaitAt.next.ite ?_)))
  exact (Job.memOk.ite hj (hj.inState hj.2.modHome)).moveSlot.res (fun hj => hj.note.finish) fun hj => hj.stopKeep

theorem State.memOk.holdCopy {c} : (s.holdCopy c).memOk := by
  unfold State.holdCopy
  dsimp only
  split
  · exact h
  · exact h.ite (h.modCtx.ite ((h.modHome.modCtx.ite h).ite h))

omit h in
theorem State.memOk.preload {c hi fuel} : ∀ {s : State} {left va}, s.memOk → (s.preload c hi fuel left va).memOk := by
  induction fuel with
  | zero => exact fun h => h
  | succ fuel ih =>
    intro s left va h
    refine h.ite ?_
    split
    case h_1 heq => exact ih (h.loadPage.of_fst heq)
    case h_2 heq => exact ih (h.loadPage.of_fst heq)

theorem State.memOk.execCxPretrStart : Res.memOk (execCxPretrStart s) :=
  h.startEntry fun hu => hu.withCmdRecord fun hj => hj.badRecord.ite (hj.inState hj.2.preload).finish

theorem State.memOk.execCxFlushStart : Res.memOk (execCxFlushStart s) :=
  h.startEntry fun hu => hu.withCmdRecord fun hj => hj.badRecord.ite hj.finish

end

/-! ### The gather engine -/

/-- Where an index of GX leads, its job with memories in canonical form. -/
def Gx.memOk : Gx → Prop
  | .next j | .stop _ _ j => j.memOk
  | .hole => True

theorem Got.memOk.gx {α : Type} {r : Got α} {i : Nat} {k : α → Job → Gx} (hr : r.memOk) (hk : ∀ {v j}, j.memOk → (k v j).memOk) :
    (r.gx i k).memOk := by
  cases r
  case ok v j => exact hk hr
  all_goals exact hr

theorem Gx.memOk.ite {p : Prop} [Decidable p] {r q : Gx} (hr : r.memOk) (hq : q.memOk) : (if p then r else q).memOk := by
  split
  · exact hr
  · exact hq

theorem Gx.memOk.of_next {r : Gx} {j : Job} (hr : r.memOk) (h : r = .next j) : j.memOk := by
  rw [h] at hr
  exact hr

theorem Job.memOk.gxNext {j : Job} (h : j.memOk) : (Gx.next j).memOk := h

theorem Job.memOk.gxStop {j : Job} (h : j.memOk) {f p} : (Gx.stop f p j).memOk := h

theorem Job.memOk.gxIndex {j : Job} (h : j.memOk) {g i} {k : Nat → Job → Gx} (hk : ∀ {v j}, j.memOk → (k v j).memOk) :
    (j.gxIndex g i k).memOk :=
  h.readBytes.gx fun hj => hj.gxStop.ite (hk hj)

theorem gxLoop_memOk {step : Job → Nat → Gx} (hstep : ∀ {j i}, j.memOk → (step j i).memOk) {n fuel} :
    ∀ {i j}, j.memOk → (gxLoop step n fuel i j).1.memOk := by
  induction fuel with
  | zero => exact fun h => h
  | succ fuel ih =>
    intro i j h
    unfold gxLoop
    split
    · exact h
    · have hs := hstep (i := i) h
      split
      case h_1 heq => exact ih (by rw [heq] at hs; exact hs)
      case h_2 => exact hs

theorem Job.memOk.gxRun {j : Job} (h : j.memOk) {e g low} {step : Job → Nat → Gx} (hstep : ∀ {j i}, j.memOk → (step j i).memOk) :
    Res.memOk (j.gxRun e g low step) := by
  have hl := gxLoop_memOk (step := step) hstep (n := g.nidx) (fuel := g.nidx + 1) (i := e.prog) h
  unfold Job.gxRun
  split
  case h_1 heq => rw [heq] at hl; exact hl.finish
  case h_2 heq => rw [heq] at hl; exact hl.stopKeep
  case h_3 => exact Res.memOk_fault

theorem State.memOk.startGx {s : State} (h : s.memOk) {f} {k : Job → Entry → GxRec → Res} (hk : ∀ {j e g}, j.memOk → Res.memOk (k j e g)) :
    Res.memOk (s.startGx f k) :=
  h.startEntry fun hu => hu.withCmdRecord fun hj => hj.badRecord.ite (hj.finish.ite (hk hj))

theorem State.memOk.execGxGatherStart {s : State} (h : s.memOk) : Res.memOk (execGxGatherStart s) :=
  h.startGx fun hj => hj.gxRun fun hj => hj.gxIndex fun hj => hj.readBytes.gx fun hj => hj.writeBytes.gx Job.memOk.gxNext

section

theorem Job.memOk.rawTagged {dst gs} : ∀ {j : Job}, j.memOk → (j.rawTagged dst gs).memOk := by
  induction gs with
  | nil => exact fun h => h
  | cons g gs ih => exact fun h => h.tagAt.bind fun hj => (ih hj).ite hj.gotStop

theorem Job.memOk.readRaw {j : Job} (h : j.memOk) {first dst n w} : (j.readRaw first dst n w).memOk := by
  induction w with
  | zero => exact h
  | succ w ih => exact ih.bind fun hj => hj.readBytes.bind fun hj => hj.gotOk

theorem Job.memOk.writeRaw {dst es} : ∀ {j : Job} {n}, j.memOk → (j.writeRaw dst n es).memOk := by
  induction es with
  | nil => exact fun h => h
  | cons e es ih => exact fun h => h.writeBytes.bind ih

variable {j : Job} (h : j.memOk)
include h

/-- Goes on once the destination granules have been found to hold CSA-raw elements. -/
theorem Job.memOk.afterTagged {dst gs} {p : EFault → Nat} {k : Job → Gx} (hk : ∀ {j : Job}, j.memOk → (k j).memOk) :
    (match j.rawTagged dst gs with
      | .stop f j => Gx.stop f (p f) j
      | .hole => .hole
      | .ok _ j => k j).memOk := by
  have ht := h.rawTagged (dst := dst) (gs := gs)
  generalize j.rawTagged dst gs = r at ht ⊢
  cases r
  case ok v j => exact hk ht
  all_goals exact ht

theorem Job.memOk.addRow {i g n vs} : (j.addRow i g n vs).memOk :=
  h.afterTagged fun hj => hj.readRaw.gx fun hj => hj.writeRaw.gx fun hj => hj.inState hj.2.meter

theorem Job.memOk.tagPlace {p} : (j.tagPlace p).memOk := by
  unfold Job.tagPlace
  split
  · exact h.tagAt
  · split <;> exact h
  · exact h
  · split
    case h_1 heq => exact h.inState (h.2.translate_eq heq)
    case h_2 heq => exact h.inState (h.2.translate_eq heq)
    case h_3 heq => exact h.inState (h.2.translate_eq heq)
    case h_4 => trivial

theorem Job.memOk.withWidth {i g} {k : Nat → Job → Gx} (hk : ∀ {w j}, j.memOk → (k w j).memOk) : (j.withWidth i g k).memOk := by
  refine h.tagPlace.gx fun hj => ?_
  split
  · exact hk hj
  · exact hj

theorem Job.memOk.tableRow {i g w r} {k : List Val → Job → Gx} (hk : ∀ {vs j}, j.memOk → (k vs j).memOk) :
    (j.tableRow i g w r k).memOk := by
  refine (Job.memOk.read h).gx fun hj => ?_
  split
  · exact hj
  · exact (hk hj).ite hj.gxStop

theorem Job.memOk.clearBags {g w} : (j.clearBags g w).memOk := h.afterTagged fun hj => hj.writeRaw.gx Job.memOk.gxNext

theorem Job.memOk.scaddStep {g i} : (scaddStep g j i).memOk :=
  h.withWidth fun hj => hj.gxIndex fun hj => hj.tableRow fun hj => hj.addRow

theorem Job.memOk.bagStep {g i} : (bagStep g j i).memOk := by
  refine h.withWidth fun hj => ?_
  have hadd : ∀ {w : Nat} {j : Job}, j.memOk →
      (j.gxIndex g i fun x j => j.tableRow i g w x fun vs j => j.addRow i g (i / g.bag * w) vs).memOk :=
    fun hj => hj.gxIndex fun hj => hj.tableRow fun hj => hj.addRow
  refine Gx.memOk.ite ?_ (hadd hj)
  split
  case h_1 heq => exact hadd (hj.clearBags.of_next heq)
  case h_2 => exact hj.clearBags

theorem Job.memOk.countStep {g i} : (countStep g j i).memOk :=
  h.gxIndex fun hj => hj.readBytes.gx fun hj => Gx.memOk.ite (hj.inState hj.2.modCtx) (hj.writeBytes.gx Job.memOk.gxNext)

end

section
variable {s : State} (h : s.memOk)
include h

theorem State.memOk.execGxBagStart : Res.memOk (execGxBagStart s) := h.startGx fun hj => hj.stopAt.ite (hj.gxRun fun hj => hj.bagStep)

theorem State.memOk.execGxScaddStart : Res.memOk (execGxScaddStart s) := h.startGx fun hj => hj.stopAt.ite (hj.gxRun fun hj => hj.scaddStep)

theorem State.memOk.execGxCountStart : Res.memOk (execGxCountStart s) := h.startGx fun hj => hj.stopAt.ite (hj.gxRun fun hj => hj.countStep)

/-! ### The start of a run -/

/-- What fetching a block leaves. -/
def Block.memOk : Block → Prop
  | .ok _ s | .stop _ _ s => s.memOk
  | .hole => True

omit h in
theorem State.memOk.fetchBlock {c a code n} : ∀ {s : State} {k acc}, s.memOk → (s.fetchBlock c a code n k acc).memOk := by
  induction n with
  | zero => exact fun h => h
  | succ n ih =>
    intro s k acc h
    have hf := h.fetchCode (c := c) (a := a) (user := true) (va := code + 2 * k) (n := 2)
    unfold State.fetchBlock
    dsimp only
    generalize s.fetchCode c a true (code + 2 * k) 2 = r at hf ⊢
    cases r
    case ok bs u => exact ih hf
    all_goals exact hf

theorem State.memOk.runStop {c a e f k} : Res.memOk (s.runStop c a e f k) := h.engineFault.next

theorem State.memOk.startRun {c a e code r} {k : State → List (BitVec 16) → BlockHdr → Nat → State}
    (hk : ∀ {u : State} {body hdr n}, u.memOk → (k u body hdr n).memOk) : Res.memOk (s.startRun c a e code r k) := by
  unfold State.startRun
  dsimp only
  refine h.runStop.ite ?_
  have h1 := h.fetchBlock (c := c) (a := a) (code := code) (n := 2) (k := 0) (acc := [])
  generalize s.fetchBlock c a code 2 0 [] = b at h1 ⊢
  cases b
  case hole => exact Res.memOk_fault
  case stop => exact State.memOk.runStop h1
  case ok hh u =>
    dsimp only
    split
    · exact State.memOk.runStop h1
    · next hdr _ =>
      have h2 := State.memOk.fetchBlock (c := c) (a := a) (code := code) (n := hdr.length) (k := 2) (acc := []) (s := u) h1
      generalize u.fetchBlock c a code hdr.length 2 [] = b at h2 ⊢
      cases b
      case hole => exact Res.memOk_fault
      case stop => exact State.memOk.runStop h2
      case ok body v => exact (State.memOk.runStop h2).ite (Res.memOk.ite (State.memOk.next h2) (hk (State.memOk.modCtx h2)).next)

end

end Sys2Proof.Machine
end

section
/-! SUPPORT. Every step keeps the canonical form of memory: MX. -/
namespace Sys2Proof.Machine

section
variable {s : State} (h : s.memOk)
include h

/-! ### Words and their faults -/

theorem State.memOk.mxNext {m} : (s.mxNext m).memOk := by
  unfold State.mxNext
  dsimp only
  split <;> exact h.endWait.upd

theorem State.memOk.mxDone {m} : Res.memOk (s.mxDone m) := h.mxNext.next

theorem State.memOk.mxWait {flag num setter} : Res.memOk (s.mxWait flag num setter) := h.noteWait.next

theorem State.memOk.mxFault {m f own} : Res.memOk (s.mxFault m f own) := h.upd.engineFault.next

theorem State.memOk.withSram {m} {k : State → MxAt → Res} (hk : ∀ {u : State} {m}, u.memOk → Res.memOk (k u m)) :
    Res.memOk (s.withSram m k) :=
  (hk h).ite (h.sramErrors.mxFault.ite (hk h))

theorem State.memOk.withMx {k : State → MxAt → Res} (hk : ∀ {u : State} {m}, u.memOk → Res.memOk (k u m)) :
    Res.memOk (s.withMx k) := by
  unfold State.withMx
  split
  · refine h.next.ite ?_
    split
    · exact h.withSram hk
    · exact h.next
  · exact h.startEntry fun hu => hu.withSram hk

theorem State.memOk.mxIllegal : Res.memOk s.mxIllegal := h.withMx fun hu => hu.mxFault

theorem State.memOk.withSlot {m mask n} {k : Res} (hk : Res.memOk k) : Res.memOk (s.withSlot m mask n k) := by
  unfold State.withSlot
  split
  · exact hk.ite h.mxFault
  · exact hk

theorem State.memOk.withAcc {t valid} {k : AccTile → Res} (hk : ∀ {a}, Res.memOk (k a)) : Res.memOk (s.withAcc t valid k) :=
  h.mxWait.ite (h.mxWait.ite hk)

theorem State.memOk.withStillAcc {t} {k : AccTile → Res} (hk : ∀ {a}, Res.memOk (k a)) : Res.memOk (s.withStillAcc t k) := by
  unfold State.withStillAcc
  split
  · exact h.mxWait
  · exact hk

theorem State.memOk.withWindow {m write inW a ranges} {k : Res} (hk : Res.memOk k) : Res.memOk (s.withWindow m write inW a ranges k) := by
  unfold State.withWindow
  split
  · exact hk
  · refine h.mxFault.ite ?_
    split
    · exact h.mxFault
    · exact hk

/-! ### Slots and fills -/

theorem State.memOk.execMxClaim {sl} : Res.memOk (execMxClaim sl s) :=
  h.withMx fun hu => hu.withSlot (hu.upd.mxDone.ite hu.mxFault)

theorem State.memOk.mxFree {n} : Res.memOk (s.mxFree n) := h.withMx fun hu => hu.withSlot (hu.mxFault.ite hu.upd.mxDone)

theorem State.memOk.execMxRelease {sl} : Res.memOk (execMxRelease sl s) := h.mxFree

theorem State.memOk.execMxReleaseShort {sl} : Res.memOk (execMxReleaseShort sl s) := h.mxFree

theorem State.memOk.logBuffer {inW f} : (s.logBuffer inW f).memOk := h.sramErrors.ite h

theorem State.memOk.fillFrom {m n inW a t out} {atEnd : State → State} (hend : ∀ {u : State}, u.memOk → (atEnd u).memOk) :
    Res.memOk (s.fillFrom m n inW a t out atEnd) := by
  unfold State.fillFrom
  dsimp only
  split
  · exact h.mxFault
  · split
    · exact h.mxFault
    · refine h.mxFault.ite (h.mxFault.ite ?_)
      split
      · exact h.logBuffer.upd.meter.mxFault
      · exact (hend h.mend.upd.meter).mxDone

theorem State.memOk.execMxFill {sl w t g p} : Res.memOk (execMxFill sl w t g p s) :=
  h.withMx fun hu => hu.withSlot (hu.mxFault.ite (hu.fillFrom id))

theorem State.memOk.execMxFillRing {sl t k} : Res.memOk (execMxFillRing sl t k s) :=
  h.withMx fun hu => hu.mxFault.ite (hu.withSlot (hu.mxFault.ite (hu.mxFault.ite (hu.noteRing.next.ite
    ((hu.upd.ite hu).fillFrom fun hv => hv.ringReturn)))))

/-! ### The array and the tiles -/

theorem State.memOk.arrayRun {cls units ra cb} : (s.arrayRun cls units ra cb).memOk := h.meter.meter.upd

theorem State.memOk.execMxMma {c a b n d e ks l} : Res.memOk (execMxMma c a b n d e ks l s) :=
  h.withMx fun hu => hu.withSlot (hu.withSlot (hu.mxFault.ite (hu.mxFault.ite (hu.mxFault.ite (hu.mxWait.ite
    (hu.withAcc hu.arrayRun.upd.mxDone))))))

theorem State.memOk.execMxTanch {c mode a} : Res.memOk (execMxTanch c mode a s) :=
  h.withMx fun hu => hu.withStillAcc hu.upd.mxDone

theorem State.memOk.execMxTinit {c} : Res.memOk (execMxTinit c s) := h.withMx fun hu => hu.withAcc hu.mend.upd.meter.mxDone

theorem State.memOk.execMxTcfg {c r k} : Res.memOk (execMxTcfg c r k s) := 
  h.withMx fun hu => hu.withStillAcc ((hu.upd.ite hu).upd.ite (hu.upd.ite hu)).mxDone

theorem State.memOk.resolved {c m fl rows} : (s.resolved c m fl rows).memOk := h.upd.meter

theorem State.memOk.execMxResolveMfile {c f m n t} : Res.memOk (execMxResolveMfile c f m n t s) :=
  h.withMx fun hu => hu.withAcc (hu.mxWait.ite hu.mend.upd.resolved.mxDone)

theorem State.memOk.putBytes {p n cells} : (s.putBytes p n cells).memOk := by
  unfold State.putBytes
  split
  · exact h.mend.modCore
  · exact h.mend.modCore
  · exact h

theorem State.memOk.tagSpan {p n tag} : (s.tagSpan p n tag).memOk := by
  unfold State.tagSpan
  split
  · exact h.foldl fun hu => hu.setTag
  · exact h.foldl fun hu => hu.setTag
  · exact h

omit h in
theorem State.memOk.resolveOut {a len tag bad row fuel} :
    ∀ {s : State} {i}, s.memOk → (s.resolveOut a len tag bad row fuel i).1.memOk := by
  induction fuel with
  | zero => exact fun h => h
  | succ fuel ih =>
    intro s i h
    unfold State.resolveOut
    split
    · exact h
    · exact h
    · exact ih h.putBytes.tagSpan

theorem State.memOk.execMxResolveAbuf {c f m n g p} : Res.memOk (execMxResolveAbuf c f m n g p s) := by
  refine h.withMx fun hu => hu.withAcc (hu.mxFault.ite ?_)
  dsimp only
  split
  case h_1 heq => exact (hu.resolveOut.of_fst heq).upd.meter.mxFault
  case h_2 heq => exact (hu.resolveOut.of_fst heq).resolved.mxDone

theorem State.memOk.execMxResolveSelf {c m n} : Res.memOk (execMxResolveSelf c m n s) :=
  h.withMx fun hu => hu.withAcc hu.upd.resolved.mxDone

theorem State.memOk.compared {p v rows} : (s.compared p v rows).memOk := h.upd.meter

theorem State.memOk.execMxTcmp {a b r p x y} : Res.memOk (execMxTcmp a b r p x y s) :=
  h.withMx fun hu => hu.withAcc (hu.withAcc hu.compared.mxDone)

theorem State.memOk.execMxTcmpThreshold {a r p g st} : Res.memOk (execMxTcmpThreshold a r p g st s) := by
  refine h.withMx fun hu => hu.withAcc ?_
  dsimp only
  split
  · exact hu.mxFault
  · split
    · exact hu.mxFault
    · exact hu.mxFault.ite (hu.mxFault.ite (hu.withWindow (hu.logBuffer.mxFault.ite hu.compared.mxDone)))

omit h in
theorem State.memOk.spillLoop {out a t cols total fuel} :
    ∀ {s : State} {g}, s.memOk → (s.spillLoop out a t cols total fuel g).1.memOk := by
  induction fuel with
  | zero => exact fun h => h
  | succ fuel ih =>
    intro s g h
    unfold State.spillLoop
    split
    · exact h
    · exact h
    · exact ih h.putBytes.setTag

theorem State.memOk.execMxSpill {c g st} : Res.memOk (execMxSpill c g st s) := by
  refine h.withMx fun hu => hu.withAcc (hu.mxFault.ite ?_)
  split
  case h_1 heq => exact (hu.spillLoop.of_fst heq).meter.mxFault
  case h_2 heq => exact (hu.spillLoop.of_fst heq).meter.mxDone

theorem State.memOk.execMxReload {c g st} : Res.memOk (execMxReload c g st s) := by
  refine h.withMx fun hu => hu.withAcc (hu.mxFault.ite ?_)
  split
  · exact hu.logBuffer.upd.meter.mxFault
  · exact hu.mend.upd.meter.mxDone

/-! ### Runs, bindings, marks and gates -/

theorem State.memOk.execMxRunStart : Res.memOk (execMxRunStart s) := by
  refine h.next.ite (h.startEntry fun hu => ?_)
  split
  · exact hu.startRun fun hv => hv.upd
  · exact hu.next

theorem State.memOk.mxBindStart : Res.memOk s.mxBindStart := h.next.ite (h.startEntry fun hu => hu.upd.next)

theorem State.memOk.execMxNop : Res.memOk (execMxNop s) := h.withMx fun hu => hu.mxDone

theorem State.memOk.execMxMark {n} : Res.memOk (execMxMark n s) :=
  h.withMx fun hu => hu.next.ite (hu.sootRecord.ite hu).mxDone

theorem State.memOk.execMxGate {mask} : Res.memOk (execMxGate mask s) := h.withMx fun hu => hu.upd.mxDone

theorem State.memOk.execSubarrayIdleGate {q} : Res.memOk (execSubarrayIdleGate q s) := h.upd.next.ite h.next

end

end Sys2Proof.Machine
end

section
/-! SUPPORT. Every step keeps the canonical form of memory: the collective port, and the command processor. -/
namespace Sys2Proof.Machine

section
variable {s : State} (h : s.memOk)
include h

/-! ### Collectives -/

theorem State.memOk.clFault {c e f progress} : (s.clFault c e f progress).memOk := h.modCtx.engineFault

theorem State.memOk.clWait {c e} : Res.memOk (s.clWait c e) := h.noteWaitAt.next

theorem State.memOk.startCl {f} : Res.memOk (s.startCl f) := by
  refine h.startEntry fun hu => hu.withCmdRecord fun hj => hj.badRecord.ite (hj.stopAt.ite ?_)
  dsimp only
  split
  · exact hj.stopAt
  · exact hj.2.modCtx.next

theorem State.memOk.execClAllredStart : Res.memOk (execClAllredStart s) := h.startCl

theorem State.memOk.execClRedscStart : Res.memOk (execClRedscStart s) := h.startCl

theorem State.memOk.execClAllgatStart : Res.memOk (execClAllgatStart s) := h.startCl

theorem State.memOk.execClBcastStart : Res.memOk (execClBcastStart s) := h.startCl

theorem State.memOk.execClBarrierStart : Res.memOk (execClBarrierStart s) := by
  refine h.startEntry fun hu => ?_
  split
  · split
    · exact hu.clFault.next
    · exact hu.clWait.ite hu.upd.next
  · exact hu.next

theorem State.memOk.clMeter {c q p g} : (s.clMeter c q p g).memOk := h.meter.meter.ite h.meter

theorem State.memOk.clEnd {c e} : (s.clEnd c e).memOk := h.modCtx.endWait

theorem State.memOk.clComplete {cores} : (s.clComplete cores).memOk := by
  unfold State.clComplete
  dsimp only
  split
  · exact h
  · refine State.memOk.foldl ?_ fun hu => hu.clEnd
    split
    · exact h.foldl fun hu => hu.putBytes.clMeter
    · exact h

theorem State.memOk.clMismatch {cores} : (s.clMismatch cores).memOk := by
  refine h.foldl fun hu => ?_
  split
  · exact hu
  · exact hu.clFault

theorem State.memOk.clReads {d} : (s.clReads d).1.memOk := by
  unfold State.clReads
  split
  · exact h
  · split
    · dsimp only
      split
      · exact h.sramErrors.clFault
      · exact h
    · exact h

theorem State.memOk.clMeet {cores} : (s.clMeet cores).memOk :=
  State.memOk.ite (State.memOk.foldl_fst (r := (s, false)) h fun hr => hr.clReads) h.clComplete

theorem State.memOk.execCollectiveCompletion : Res.memOk (execCollectiveCompletion s) := by
  unfold Machine.execCollectiveCompletion
  dsimp only
  split
  · exact h.next
  · refine h.next.ite ?_
    split
    · exact h.clFault.next
    · exact h.clWait
    · exact h.clWait.ite (h.clMeet.next.ite h.clMismatch.next)

/-! ### Grate's accesses -/

omit h in
theorem State.memOk.grateRead {p fuel} : ∀ {s t : State} {va n bs}, s.memOk → s.grateRead p va fuel n = some (bs, t) → t.memOk := by
  induction fuel with
  | zero =>
    intro s t va n bs h hr
    cases hr
    exact h
  | succ fuel ih =>
    intro s t va n bs h hr
    rw [State.grateRead] at hr
    split at hr
    · cases hr
      exact h
    · dsimp only at hr
      split at hr
      case h_1 heq =>
        obtain ⟨r, hn, hr⟩ := Option.map_eq_some_iff.mp hr
        cases hr
        exact ih (State.memOk.readErrors (h.translate_eq heq)).meterUncore hn
      case h_2 => cases hr

omit h in
theorem State.memOk.grateWrite {p fuel} : ∀ {s t : State} {va bs}, s.memOk → s.grateWrite p va fuel bs = some t → t.memOk := by
  induction fuel with
  | zero =>
    intro s t va bs h hr
    cases hr
    exact h
  | succ fuel ih =>
    intro s t va bs h hr
    rw [State.grateWrite] at hr
    split at hr
    · cases hr
      exact h
    · dsimp only at hr
      split at hr
      case h_1 heq => exact ih (h.translate_eq heq).atomicWrite.meterUncore hr
      case h_2 => cases hr

/-! ### Packets -/

theorem State.memOk.pin {key} : (s.pin key).memOk := h

theorem State.memOk.unpin {key} : (s.unpin key).memOk := h

theorem State.memOk.invalidate {all khash} : (s.invalidate all khash).memOk := h

theorem State.memOk.modQueue {p q f} : (s.modQueue p q f).memOk := h

theorem State.memOk.refusePart {p} : (s.refusePart p).memOk := h

theorem State.memOk.atWindow {p} {t : State} (ht : t.memOk) : Res.memOk (s.atWindow p t) := h.atHost (h.refusePart.ite ht)

theorem State.memOk.passPacket {p q st} : (s.passPacket p q st).memOk := h

theorem State.memOk.stopQueue {p q st code op} : Res.memOk (s.stopQueue p q st code op) := h.modQueue.raiseMsix.next

theorem State.memOk.withPacketIn {p q ty} {k : State → Stream → List Nat → Res} {sts : List Stream}
    (hk : ∀ {u : State} {st d}, u.memOk → Res.memOk (k u st d)) : Res.memOk (s.withPacketIn p q ty k sts) := by
  induction sts with
  | nil => exact h.next
  | cons st rest ih =>
    unfold State.withPacketIn
    dsimp only
    refine ih.ite ?_
    split
    · exact ih
    · split
      · exact h.stopQueue
      · next heq => exact ih.ite ((h.grateRead heq).stopQueue.ite (ih.ite (hk (h.grateRead heq))))

theorem State.memOk.withPacket {p q ty} {k : State → Stream → List Nat → Res} (hk : ∀ {u : State} {st d}, u.memOk → Res.memOk (k u st d)) :
    Res.memOk (s.withPacket p q ty k) :=
  h.next.ite (h.withPacketIn hk)

theorem State.memOk.execPacketNop {p q} : Res.memOk (execPacketNop p q s) := h.withPacket fun hu => hu.stopQueue.ite hu.passPacket.next

theorem State.memOk.execPacketSignal {p q} : Res.memOk (execPacketSignal p q s) := by
  refine h.withPacket fun hu => hu.stopQueue.ite ?_
  split
  · exact hu.stopQueue
  · next heq => exact ((hu.grateWrite heq).raiseMsix.ite (hu.grateWrite heq)).passPacket.next

theorem State.memOk.execPacketInval {p q} : Res.memOk (execPacketInval p q s) :=
  h.withPacket fun hu => hu.stopQueue.ite hu.invalidate.passPacket.next

theorem State.memOk.execPacketPred {p q} : Res.memOk (execPacketPred p q s) := by
  refine h.withPacket fun hu => hu.stopQueue.ite ?_
  split
  · exact hu.stopQueue
  · next heq => exact (hu.grateRead heq).stopQueue.ite (hu.grateRead heq).modQueue.next

theorem State.memOk.eventLaunch {l k setter} : (s.eventLaunch l k setter).memOk := by
  refine h.foldl fun hu => ?_
  split
  · exact hu.eventAt
  · exact hu

omit h in
theorem State.memOk.feedWrite {l rs} : ∀ {s t : State} {n}, s.memOk → s.feedWrite l n rs = some t → t.memOk := by
  induction rs with
  | nil =>
    intro s t n h hr
    cases hr
    exact h
  | cons r rs ih =>
    intro s t n h hr
    obtain ⟨u, hu, hr⟩ := Option.bind_eq_some_iff.mp hr
    exact ih (h.grateWrite hu) hr

theorem State.memOk.feedIn {id l recs} {t : State} (ht : s.feedIn id l recs = some t) : t.memOk := by
  obtain ⟨u, hu, rfl⟩ := Option.map_eq_some_iff.mp ht
  exact (h.feedWrite hu).modLaunch.eventLaunch

theorem State.memOk.execPacketFeed {p q} : Res.memOk (execPacketFeed p q s) := by
  refine h.withPacket fun hu => hu.stopQueue.ite ?_
  dsimp only
  split
  · exact hu.stopQueue
  · refine hu.stopQueue.ite ?_
    split
    · exact hu.stopQueue
    · next heq =>
      have hv := hu.grateRead heq
      refine Res.memOk.ite ?_ hv.modQueue.next
      split
      case h_1 heq => exact (hv.feedIn heq).passPacket.next
      case h_2 => exact hv.stopQueue

theorem State.memOk.execFeedAppend {p q} : Res.memOk (execFeedAppend p q s) := by
  refine h.next.ite ?_
  split
  · exact h.next
  · split
    · exact h.stopQueue
    · refine Res.memOk.ite ?_ h.next
      dsimp only
      split
      case h_1 heq => exact (h.feedIn heq).modQueue.passPacket.next
      case h_2 => exact h.stopQueue

omit h in
theorem State.memOk.nodeHeaders {p base n} : ∀ {s t : State} {hs}, s.memOk → s.nodeHeaders p base n = some (hs, t) → t.memOk := by
  induction n with
  | zero =>
    intro s t hs h hr
    cases hr
    exact h
  | succ n ih =>
    intro s t hs h hr
    obtain ⟨r, hn, hr⟩ := Option.bind_eq_some_iff.mp hr
    obtain ⟨g, hg, heq⟩ := Option.map_eq_some_iff.mp hr
    cases heq
    exact (ih h hn).grateRead hg

theorem State.memOk.execPacketGraph {p q} : Res.memOk (execPacketGraph p q s) := by
  refine h.withPacket fun hu => hu.stopQueue.ite ?_
  split
  · exact hu.stopQueue
  · next heq => exact (hu.nodeHeaders heq).stopQueue.ite (hu.nodeHeaders heq).modQueue.next

theorem State.memOk.execPacketLoop {p q} : Res.memOk (execPacketLoop p q s) := h.withPacket fun hu => hu.stopQueue.ite hu.modQueue.next

theorem State.memOk.execLoopIteration {p q} : Res.memOk (execLoopIteration p q s) := by
  refine h.next.ite ?_
  split
  · exact h.next
  · exact h.modQueue.next

theorem State.memOk.execPacketBreak {p q} : Res.memOk (execPacketBreak p q s) := by
  refine h.withPacket fun hu => ?_
  split
  · exact hu.stopQueue.ite hu.modQueue.next
  · exact hu.stopQueue

/-! ### Launches -/

omit h in
theorem State.memOk.readTcbs {p base n} : ∀ {s t : State} {ts}, s.memOk → s.readTcbs p base n = some (ts, t) → t.memOk := by
  induction n with
  | zero =>
    intro s t ts h hr
    cases hr
    exact h
  | succ n ih =>
    intro s t ts h hr
    obtain ⟨r, hn, hr⟩ := Option.bind_eq_some_iff.mp hr
    obtain ⟨g, hg, heq⟩ := Option.map_eq_some_iff.mp hr
    cases heq
    exact (ih h hn).grateRead hg

theorem State.memOk.armTcb {p tcb} : (s.armTcb p tcb).memOk := by
  have ht := h.tcbUpd (p := p) (tcb := tcb) (i := 0) (f := fun v => putBits (putBits (putBits v 47 45 0) 42 42 0) 38 34 0)
  exact (ht.tcbUpd.tcbUpd.tcbUpd.ite h).tcbUpd.ite (ht.tcbUpd.tcbUpd.tcbUpd.ite h)

theorem State.memOk.readyCheck {t} : (s.readyCheck t).memOk := by
  unfold State.readyCheck
  split
  · exact h
  · exact State.memOk.ite h.modTeam h

theorem State.memOk.launchArm {p q d us k} : (s.launchArm p q d us k).1.memOk := by
  unfold State.launchArm
  dsimp only
  exact State.memOk.foldl ((h.foldl fun hu => hu.armTcb).same rfl rfl) fun hu => hu.readyCheck

theorem State.memOk.launchCode {id b} : (s.launchCode id b).memOk := by
  unfold State.launchCode
  dsimp only
  split
  · exact h.modLaunch.pin
  · exact h.modLaunch

theorem State.memOk.launchDrop {p id} : (s.launchDrop p id).memOk := State.memOk.same (h.foldl fun hu => hu.tcbUpd) rfl rfl

theorem State.memOk.readBody {p va k k'} {t : State} (ht : s.readBody p va k = some (k', t)) : t.memOk := by
  unfold State.readBody at ht
  split at ht
  · cases ht
    exact h
  · obtain ⟨r, hr, heq⟩ := Option.map_eq_some_iff.mp ht
    cases heq
    exact h.grateRead hr

theorem State.memOk.execPacketLaunch {p q} : Res.memOk (execPacketLaunch p q s) := by
  refine h.withPacket fun hu => hu.stopQueue.ite ?_
  dsimp only
  split
  · exact hu.stopQueue
  · exact hu.stopQueue
  next heq _ =>
  have hv := hu.grateRead heq
  split
  · exact hv.stopQueue
  next heq =>
  replace hv := hv.grateRead heq
  split
  · exact hv.stopQueue
  next heq =>
  replace hv := hv.readTcbs heq
  refine hv.stopQueue.ite (hv.stopQueue.ite (hv.stopQueue.ite ?_))
  split
  · exact hv.stopQueue
  next heq =>
  replace hv := hv.readBody heq
  split
  · exact hv.launchArm.modQueue.passPacket.next
  · exact hv.launchArm.launchCode.modQueue.passPacket.next
  · exact hv.launchArm.modQueue.passPacket.next

/-! ### Builds -/

theorem State.memOk.resolveBuilds : s.resolveBuilds.memOk := by
  refine h.foldl fun hu => hu.foldl fun hu => hu.foldl fun hu => ?_
  split
  · exact hu.launchCode.modQueue
  · exact hu

theorem State.memOk.cacheWrite {at' bs} : (s.cacheWrite at' bs).memOk := h.hwWrite.meterUncore

theorem State.memOk.buildRefused {p q w code op} : Res.memOk (s.buildRefused p q w code op) := by
  unfold State.buildRefused
  dsimp only
  split
  case h_1 heq => exact (h.launchDrop.modQueue.stopQueue _ heq).modQueue.next
  case h_2 => exact h.launchDrop.modQueue.stopQueue

theorem State.memOk.buildEnd {p q picks w} {r : Res} (hr : s.buildEnd p q picks w = some r) : Res.memOk r := by
  obtain ⟨l, -, hr⟩ := Option.bind_eq_some_iff.mp hr
  dsimp only at hr
  split at hr
  · cases hr
    exact h.buildRefused
  · split at hr
    · cases hr
      exact h.buildRefused
    · split at hr
      · cases hr
        refine State.memOk.next (State.memOk.resolveBuilds (State.memOk.cacheWrite ?_))
        exact h.same rfl rfl
      · split at hr
        · cases hr
        · split at hr
          · cases hr
            exact h.buildRefused
          · next heq =>
            cases hr
            exact (h.grateWrite heq).launchCode.modQueue.next

theorem State.memOk.buildFirst {p q picks ws} : Res.memOk (s.buildFirst p q picks ws) := by
  induction ws with
  | nil => exact h.next
  | cons w ws ih =>
    unfold State.buildFirst
    split
    case h_1 heq => exact h.buildEnd heq
    case h_2 => exact ih

theorem State.memOk.execPreheaterBuildComplete {p q picks} : Res.memOk (execPreheaterBuildComplete p q picks s) := h.next.ite h.buildFirst

theorem State.memOk.execQueueTailWrite {p q v} : Res.memOk (execQueueTailWrite p q v s) := h.atWindow h

theorem State.memOk.execQueueSkip {p q} : Res.memOk (execQueueSkip p q s) := h.atWindow h

theorem State.memOk.execQueueEnable {p q v} : Res.memOk (execQueueEnable p q v s) := h.atWindow h

end

end Sys2Proof.Machine
end

section
/-! SUPPORT. Every step keeps the canonical form of memory: teams, their images, and what ends a segment or a task. -/
namespace Sys2Proof.Machine

section
variable {s : State} (h : s.memOk)
include h

/-! ### Images and cores -/

theorem State.memOk.tcbSet {p tcb i hi lo x} : (s.tcbSet p tcb i hi lo x).memOk := h.tcbUpd

theorem State.memOk.setTcbState {p tcb x} : (s.setTcbState p tcb x).memOk := h.tcbSet

theorem State.memOk.spillOut {c p tcb o n} : (s.spillOut c p tcb o n).1.memOk := by
  unfold State.spillOut
  dsimp only
  split
  · exact h
  · split
    · exact h
    · split
      · exact h
      · exact h.hwWrite.withFree.meterUncore

theorem State.memOk.saveImage {t i c b x} : (s.saveImage t i c b x).1.memOk := (h.ite h.mend).spillOut

theorem State.memOk.dropImage {t i} : (s.dropImage t i).memOk := State.memOk.same (h.foldl fun hu => hu.modCore) rfl rfl

theorem State.memOk.install {c e t i x} : (s.install c e t i x).memOk := h

theorem State.memOk.vacate {c f} : (s.vacate c f).memOk := h

theorem State.memOk.bringBack {c e g x} : (s.bringBack c e g x).memOk := h.dropImage.install.ite h.dropImage.install.tcbSet

theorem State.memOk.imageError {c g} : (s.imageError c g).1.memOk := by
  unfold State.imageError
  dsimp only
  refine State.memOk.meterUncore (State.memOk.foldl_fst ?_ fun hr => ?_)
  · split
    · exact h.sramErrors
    · exact h
  · exact hr.lineError

theorem State.memOk.loadAlternate {c} : (s.loadAlternate c).memOk := by
  unfold State.loadAlternate
  split
  · refine h.ite ?_
    split
    case h_1 heq => exact (h.imageError.of_fst heq).freezeTeam
    case h_2 heq => exact (h.imageError.of_fst heq).bringBack
  · exact h

theorem State.memOk.stayOn {c} : (s.stayOn c).memOk := h

theorem State.memOk.exchange {c} : (s.exchange c).memOk := by
  unfold State.exchange
  split
  · dsimp only
    split
    case h_1 heq => exact (h.imageError.of_fst heq).stayOn.freezeTeam
    case h_2 heq =>
      have hu := (h.imageError.of_fst heq)
      exact hu.dropImage.saveImage.tcbUpd.bringBack.modTeam.freezeTeam.ite hu.dropImage.saveImage.tcbUpd.bringBack
  · exact h

theorem State.memOk.restamp {t st} : (s.restamp t st).memOk := h.modTeam

theorem State.memOk.freeEntry {m} : (s.freeEntry m).memOk := h

theorem State.memOk.lookTcbs {x} : (s.lookTcbs x).memOk := h.foldl fun hu => hu.tcbLook

theorem State.memOk.releaseCore {t f m} : (s.releaseCore t f m).memOk := h.freeEntry.vacate.loadAlternate.ite h.freeEntry

theorem State.memOk.killMember {x t m} : (s.killMember x t m).memOk := by
  unfold State.killMember
  refine State.memOk.tcbSet (State.memOk.tcbUpd ?_)
  have hd : (match s.memberHome t m with
      | some k => (s.leave (s.homeCtx k)).1
      | none => s).memOk := by
    split
    · exact h.leave
    · exact h
  exact hd.dropImage.releaseCore.ite hd.dropImage

theorem State.memOk.killTeam {t} : (s.killTeam t).memOk := by
  unfold State.killTeam
  split
  · exact h
  · exact (h.foldl fun hu => hu.killMember).restamp.modTeam

theorem State.memOk.saveMember {x t frz m} : (s.saveMember x t frz m).memOk := by
  unfold State.saveMember
  dsimp only
  split
  · exact h.leaveCore.saveImage.releaseCore.tcbUpd.tcbUpd
  · split
    · exact h
    · split
      · exact h
      · exact h.leave.modImage.releaseCore.tcbUpd.tcbUpd

theorem State.memOk.markFrozen {t x} : (s.markFrozen t x).memOk := h.foldl fun hu => hu.setFrz

theorem State.memOk.saveTeam {t frz} : (s.saveTeam t frz).memOk := by
  unfold State.saveTeam
  split
  · exact h
  · have hs := fun {l : List (Nat × Nat)} {k : List (Member × Nat)} {x st} {f : Team → Team} =>
      State.memOk.modTeam (t := t) (f := f) (State.memOk.restamp (t := t) (st := st) (State.memOk.foldl (l := k)
        (h.foldl (l := l) fun {u a} hu => hu.tcbSet (p := a.1) (tcb := a.2) (i := 3) (hi := 47) (lo := 32) (x := 0))
        fun {u m} hu => hu.saveMember (x := x) (t := t) (frz := frz) (m := m)))
    exact hs.markFrozen.modTeam.notify.ite hs

theorem State.memOk.haltMember {t m} : (s.haltMember t m).memOk := h.modCore.ite h

theorem State.memOk.beginSave {t} : (s.beginSave t).memOk := by
  unfold State.beginSave
  split
  · exact h
  · exact (h.foldl fun hu => hu.haltMember).modTeam

theorem State.memOk.drainEnds {t} : (s.drainEnds t).memOk := by
  unfold State.drainEnds
  split
  · exact h.beginSave.ite h
  · exact h

theorem State.memOk.beginDrain {t} : (s.beginDrain t).memOk := by
  unfold State.beginDrain
  split
  · exact h
  · exact (h.foldl fun hu => hu.modCore.ite hu).modTeam.drainEnds

theorem State.memOk.loadMembers {x} : (s.loadMembers x).memOk := h.foldl fun hu => hu.loadAlternate

theorem State.memOk.lapseDrain {t} : (s.lapseDrain t).memOk := by
  unfold State.lapseDrain
  split
  · exact h
  · exact h.ite (h.foldl fun hu => hu.modCore.ite hu).modTeam.loadMembers

theorem State.memOk.memberDrained {c t i} : (s.memberDrained c t i).memOk := h.modCore.modTeam.drainEnds

theorem State.memOk.finishSwitch {c} : (s.finishSwitch c).memOk := by
  refine State.memOk.ite ?_ h
  split
  · exact h.memberDrained
  · exact h.exchange.ite h.stayOn

/-! ### Segments and tasks -/

theorem State.memOk.atSegmentEnd {c} : (s.atSegmentEnd c).memOk := by
  unfold State.atSegmentEnd
  dsimp only
  split
  · exact h.memberDrained
  · exact h.modCore.finishSwitch.ite (h.modCore.ite h)

theorem State.memOk.execSkSegend : Res.memOk (execSkSegend s) := by
  unfold Machine.execSkSegend
  dsimp only
  split
  · exact h.trapFree
  · exact (h.upd.retireAt.tcbSet.takeTrapFree.ite h.upd.retireAt.tcbSet).atSegmentEnd.next

theorem State.memOk.execSkSegendTask : Res.memOk (execSkSegendTask s) := by
  unfold Machine.execSkSegendTask
  dsimp only
  split
  · exact h.retireAt.modCore.next
  · exact (h.retireAt.modCore.setTcbState.lapseDrain.ite h.retireAt.modCore.setTcbState.drainEnds).next

theorem State.memOk.execInterruptTake : Res.memOk (execInterruptTake s) := by
  refine h.next.ite ?_
  split
  · exact h.endWait.upd.next
  · split
    · exact h.next
    · exact h.endWait.upd.next
    · exact h.endWait.modCore.next
    · exact h.endWait.upd.next

theorem State.memOk.execQueueLowEntry : Res.memOk (execQueueLowEntry s) := h.next.ite h.upd.next

theorem State.memOk.execLateSegmentTrap : Res.memOk (execLateSegmentTrap s) := h.next.ite h.endWait.upd.takeTrapFree.next

theorem State.memOk.execWatchdogFreeze : Res.memOk (execWatchdogFreeze s) := by
  unfold Machine.execWatchdogFreeze
  split
  · exact h.next
  · exact h.next.ite h.saveTeam.notify.next

omit h in
theorem State.memOk.succs {t p fuel} : ∀ {s : State} {block n first}, s.memOk → (s.succs t p fuel block n first).2.memOk := by
  induction fuel with
  | zero => exact fun h => h
  | succ fuel ih =>
    intro s block n first h
    rw [State.succs]
    dsimp only
    split
    · exact ih h.tcbLookFor
    · exact h.tcbLookFor

theorem State.memOk.decrement {p succ} : (s.decrement p succ).memOk := by
  unfold State.decrement
  dsimp only
  refine (h.tcbLook.ite h.tcbLook.notify).ite (h.tcbSet.ite ?_)
  split
  · exact h.tcbSet.setTcbState.readyCheck.ite h.tcbSet
  · exact h.tcbSet

theorem State.memOk.leaveWords {c} : (s.leaveWords c).memOk := by
  unfold State.leaveWords
  split
  · exact h
  · exact h.modCore

theorem State.memOk.dropWords {l} : (s.dropWords l).memOk := h.foldl fun hu => hu.modCore

theorem State.memOk.endLaunch {id} : (s.endLaunch id).memOk := by
  unfold State.endLaunch
  split
  · exact h
  · dsimp only
    split
    · exact h.dropWords.withTeams.unpin.modQueue
    · exact h.dropWords.withTeams.modQueue

theorem State.memOk.memberRetired {t i} : (s.memberRetired t i).memOk := by
  unfold State.memberRetired
  dsimp only
  split
  · exact h.modTeam
  · exact h.modTeam.drainEnds.ite (h.modTeam.modTeam.endLaunch.ite h.modTeam.modTeam)

theorem State.memOk.execTaskRetirement : Res.memOk (execTaskRetirement s) := by
  refine h.next.ite ?_
  split
  · exact h.vacate.next
  · refine h.succs.next.ite ?_
    exact (h.succs.upd.leaveCore.tcbUpd.foldl fun hu => hu.decrement).setTcbState.leaveWords.vacate.loadAlternate.memberRetired.next

/-! ### Frozen teams -/

theorem State.memOk.thawMember {p t m} : (s.thawMember p t m).memOk := h.setFrz.modCore.ite h.setFrz

theorem State.memOk.execFreezeResume {p tcb} : Res.memOk (execFreezeResume p tcb s) := by
  refine h.next.ite (h.refusePart.next.ite ?_)
  dsimp only
  split
  · exact h.modPart.next
  · refine h.modPart.next.ite (h.modPart.modPart.next.ite (Res.memOk.ite ?_ ?_))
    · exact (h.modPart.foldl fun hu => hu.thawMember).modTeam.loadMembers.next
    · exact (h.modPart.foldl fun hu => hu.setFrz).restamp.next

theorem State.memOk.execFreezeKill {p tcb} : Res.memOk (execFreezeKill p tcb s) := by
  refine h.next.ite (h.refusePart.next.ite ?_)
  dsimp only
  split
  · exact h.modPart.next
  · exact h.modPart.killTeam.next.ite h.modPart.next

end

end Sys2Proof.Machine
end

section
/-! SUPPORT. Every step keeps the canonical form of memory: placements, saves and resumes, the energy contract, and FX. -/
namespace Sys2Proof.Machine

section
variable {s : State} (h : s.memOk)
include h

/-! ### Orders, placements and pre-emptions -/

theorem State.memOk.modLink {k f} : (s.modLink k f).memOk := h

theorem State.memOk.execPlacementOrder {team} : Res.memOk (execPlacementOrder team s) := by
  unfold Machine.execPlacementOrder
  split
  · exact h.next
  · refine h.next.ite ?_
    split
    · exact h.next
    · exact h.next.ite h.modLink.modTeam.next

theorem State.memOk.takeOrders {k} : (s.takeOrders k).memOk := h.ite (h.foldl fun hu => hu.modTeam).modLink

theorem State.memOk.lookWaiting {k} : (s.lookWaiting k).memOk := h.foldl fun hu => hu.tcbLook

theorem State.memOk.writeBack {c} : (s.writeBack c).memOk := by
  unfold State.writeBack
  split
  · exact h
  · dsimp only
    split
    · exact h.modCore.modCore
    · exact h.modCore.modImage
    · exact h.modCore

theorem State.memOk.forward {c e} : (s.forward c e).memOk := (h.ite h.writeBack).modCore

theorem State.memOk.freezeSaved {t x kind dw2 lost} : (s.freezeSaved t x kind dw2 lost).memOk :=
  (h.foldl fun hu => (hu.freeEntry.ite hu).setFrz).restamp.modTeam.notify

theorem State.memOk.spillImage {t i} : (s.spillImage t i).memOk := by
  unfold State.spillImage
  split
  · exact h
  · split
    · have hf := fun {n : Nat} {f : Image → Image} {l : List FwdEnt} {c} =>
        (h.modImage (k := n) (f := f)).foldl (l := l) fun {u e} hu => hu.forward (c := c) (e := e)
      exact hf.spillOut.tcbSet.modImage.freezeSaved.ite hf.spillOut.tcbSet
    · exact h

theorem State.memOk.flushTeam {t} : (s.flushTeam t).memOk := h.foldl fun hu => (hu.foldl fun hv => hv.writeBack).ite hu

theorem State.memOk.placeMember {t x tmap m c} : (s.placeMember t x tmap m c).memOk := by
  unfold State.placeMember
  split
  · have hf := fun {l : List Image} {f : Core → Core} =>
      State.memOk.modCore (c := c) (f := f) (h.foldl (l := l) fun {u g} hu => hu.spillImage (t := g.team) (i := g.member))
    exact (hf.setTcbState.ite hf).modTeam
  · exact h

theorem State.memOk.execPlacement {team chosen} : Res.memOk (execPlacement team chosen s) := by
  unfold Machine.execPlacement
  split
  · refine h.next.ite ?_
    dsimp only
    split
    · exact h.takeOrders.next
    · refine h.takeOrders.next.ite (h.takeOrders.lookWaiting.lookTcbs.next.ite ?_)
      exact (State.memOk.foldl h.takeOrders.lookWaiting.lookTcbs fun hu => hu.placeMember.ite hu).modTeam.restamp.next
  · exact h.next

theorem State.memOk.preempt {token t} : (State.preempt token s t).memOk := by
  unfold State.preempt
  split
  · exact h
  · refine h.lookTcbs.ite ?_
    split
    · exact h.lookTcbs.killTeam
    · exact h.lookTcbs.beginDrain
    · exact h.lookTcbs.beginSave

theorem State.memOk.execPreemptionDecision {newcomer} : Res.memOk (execPreemptionDecision newcomer s) := by
  unfold Machine.execPreemptionDecision
  split
  · exact h.next
  · refine h.next.ite ?_
    dsimp only
    split
    · exact h.takeOrders.next
    · refine h.takeOrders.next.ite ?_
      split
      · exact h.takeOrders.next
      · exact h.takeOrders.tcbLook.next.ite (State.memOk.foldl h.takeOrders.tcbLook fun hu => hu.preempt).next

/-! ### Saves and resumes -/

theorem State.memOk.execSaveComplete {team} : Res.memOk (execSaveComplete team s) := by
  unfold Machine.execSaveComplete
  split
  · exact h.saveTeam.next.ite h.next
  · exact h.next

theorem State.memOk.putDown {c b g} : (s.putDown c b g).memOk := h

theorem State.memOk.refill {c b g} : (s.refill c b g).memOk := h.foldl fun hu => hu.forward

theorem State.memOk.restoreMember {t x f lifted m} : (s.restoreMember t x f lifted m).memOk := by
  unfold State.restoreMember
  split
  · exact h
  · exact (h.putDown.ite h.refill).dropImage.withImages.tcbSet

theorem State.memOk.teamErrors {t x} : (s.teamErrors t x).1.memOk := State.memOk.foldl_fst (r := (s, false)) h fun hr => hr.imageError

theorem State.memOk.execResume {team} : Res.memOk (execResume team s) := by
  unfold Machine.execResume
  split
  · exact h.next
  · refine h.next.ite ?_
    split
    case h_1 heq => exact (h.flushTeam.teamErrors.of_fst heq).freezeSaved.next
    case h_2 heq => exact ((h.flushTeam.teamErrors.of_fst heq).foldl fun hu => hu.restoreMember).modTeam.next

/-! ### The energy contract -/

theorem State.memOk.applyCommit : s.applyCommit.memOk := by
  unfold State.applyCommit
  split
  · exact h
  · dsimp only
    split
    · exact State.memOk.withDamper (h.foldl fun hu => hu.modIsland)
    · exact h.withDamper

theorem State.memOk.contractWrite {v} : (s.contractWrite v).memOk := h

theorem State.memOk.execContractCommit {v} : Res.memOk (execContractCommit v s) := h.atHost h.contractWrite

theorem State.memOk.execBreachClear : Res.memOk (execBreachClear s) := h.atHost h.withDamper

theorem State.memOk.settleAll : s.settleAll.memOk := by
  refine State.memOk.foldl (h.foldl fun hu => hu.settleTask.modCtx.ite hu) fun hu => ?_
  split
  · exact hu.settleTask.modImage
  · exact hu

theorem State.memOk.warnThrottle {i p} : (s.warnThrottle i p).memOk := h.modCore.ite h

theorem State.memOk.islandStep {i} : (s.islandStep i).memOk :=
  (h.modIsland.latchEvent.ite h.modIsland).warnThrottle.ite (h.modIsland.latchEvent.ite h.modIsland)

theorem State.memOk.noteBreach : s.noteBreach.memOk := State.memOk.ite h.withDamper.raiseMsix h

theorem State.memOk.bringIn {t m y} : (s.bringIn t m y).memOk := h.dropImage.install.ite h.dropImage.saveImage.tcbUpd

theorem State.memOk.admitMember {t x m e} : (s.admitMember t x m e).memOk := h.modIsland.tcbUpd.tcbSet.bringIn

theorem State.memOk.spendWait {x token} : (s.spendWait x token).memOk := h.foldl fun hu => (hu.tcbUpd.ite hu).tcbSet

theorem State.memOk.admitTeam {t} : (s.admitTeam t).memOk := by
  unfold State.admitTeam
  split
  · exact h
  · refine h.lookTcbs.ite (h.lookTcbs.ite ?_)
    exact State.memOk.same (State.memOk.modTeam (State.memOk.foldl h.lookTcbs.spendWait fun hu => hu.admitMember)) rfl rfl

theorem State.memOk.lookAdmissible : s.lookAdmissible.memOk := by
  refine h.foldl fun hu => ?_
  split
  · exact hu.tcbLook
  · exact hu

theorem State.memOk.countWaits : s.countWaits.memOk := by
  refine h.foldl fun hu => ?_
  split
  case h_6 => exact hu
  all_goals exact (hu.foldl fun hv => hv.tcbUpd).ite hu

theorem State.memOk.admitAll : s.admitAll.memOk := (h.lookAdmissible.foldl fun hu => hu.admitTeam).countWaits

theorem State.memOk.exportDeques : s.exportDeques.memOk := by
  refine h.foldl fun hu => ?_
  dsimp only
  split
  · exact hu.ite hu.modCtx.modCtx.latchEvent
  · exact hu

theorem State.memOk.startZone {z} : (s.startZone z).memOk :=
  State.memOk.foldl_fst (r := (s, _)) h fun hr => by
    split
    · exact hr
    · dsimp only
      split <;> exact hr

theorem State.memOk.digestRecords : s.digestRecords.memOk := h.ite (h.foldl fun hu => hu.sootRecord.ite hu)

theorem State.memOk.execIntervalStep : Res.memOk (execIntervalStep s) := by
  have hi := fun {l : List Nat} => (h.applyCommit.settleAll.foldl (l := l) fun {u i} hu => hu.islandStep (i := i)).admitAll.exportDeques
  exact (hi.foldl fun hu => hu.startZone).withDamper.noteBreach.digestRecords.next

/-! ### FX -/

theorem State.memOk.execFxCfgStart : Res.memOk (execFxCfgStart s) :=
  h.startEntry fun hu => hu.withCmdRecord fun hj => (hj.inState hj.2.upd).finish.ite hj.badRecord

end

section
variable {j : Job} (h : j.memOk)
include h

theorem Job.memOk.fxRow {p e v} : (j.fxRow p e v).memOk := by
  refine (Job.memOk.read h).bind fun hj => ?_
  split
  · exact hj
  · exact hj

omit h in
theorem Job.memOk.fxRows {p es} : ∀ {j : Job} {e}, j.memOk → (j.fxRows p e es).memOk := by
  induction es with
  | nil => exact fun h => h
  | cons a es ih =>
    intro j e h
    unfold Job.fxRows
    refine Got.memOk.ite h ((?_ : Got.memOk _).bind fun hj => (ih hj).bind fun hj => hj)
    split
    · exact h.fxRow
    · exact h.fxRow
    · exact h.fxRow.bind fun hj => hj.fxRow.bind fun hj => hj

theorem Job.memOk.fxWeights {p} : (j.fxWeights p).memOk := Got.memOk.ite (h.inState h.2.sramErrors) (h.inState h.2.sramErrors)

omit h in
theorem Job.memOk.fxReadable {p e ds} : ∀ {j : Job}, j.memOk → (j.fxReadable p e ds).memOk := by
  induction ds with
  | nil => exact fun h => h
  | cons d ds ih => exact fun h => h.readRaw.bind ih

omit h in
theorem Job.memOk.fxCommit {p e ds} : ∀ {j : Job}, j.memOk → (j.fxCommit p e ds).memOk := by
  induction ds with
  | nil => exact fun h => h
  | cons d ds ih => exact fun h => h.readRaw.bind fun hj => hj.writeRaw.bind fun hj => ih (hj.inState hj.2.meter)

theorem Job.memOk.fxBatch {p e m} : (j.fxBatch p e m).memOk :=
  h.readBytes.bind fun hj => hj.fxRows.bind fun hj => hj.fxWeights.bind fun hj => hj.fxReadable.bind fun _ =>
    hj.fxCommit.bind fun hj => hj.inState hj.2.arrayRun.meter

omit h in
theorem State.memOk.fxTile {s : State} (h : s.memOk) {p es} : (s.fxTile p es).memOk := h

/-- How a pass goes on, its job with memories in canonical form. -/
def FxEnd.memOk : FxEnd → Prop
  | .done j | .stop _ _ j => j.memOk
  | .hole => True

omit h in
theorem Job.memOk.fxLoop {p fuel} : ∀ {j : Job} {e}, j.memOk → (j.fxLoop p fuel e).memOk := by
  induction fuel with
  | zero => exact fun h => h
  | succ fuel ih =>
    intro j e h
    unfold Job.fxLoop
    split
    · exact h
    · dsimp only
      split
      case h_1 heq => exact ih ((h.fxBatch.of_ok heq).inState (h.fxBatch.of_ok heq).2.fxTile)
      case h_2 heq => exact h.fxBatch.of_stop heq
      case h_3 => trivial

theorem Job.memOk.fxClear {p} : (j.fxClear p).memOk := h.gotOk.ite h.writeRaw

theorem Job.memOk.fxFinish {e p} : Res.memOk (j.fxFinish e p) := (h.inState h.2.upd).finish

/-- Goes on as the batches of a pass ended. -/
theorem Job.memOk.afterFxLoop {p fuel n e} {left : Nat → Job → List Rng × List Rng} :
    Res.memOk (match j.fxLoop p fuel n with
      | .done j => j.fxFinish e p
      | .stop f e0 j => j.stopKeep e f (fxProgress f e0) e0 (left e0 j)
      | .hole => .fault .noSuchMemory) := by
  have hl := h.fxLoop (p := p) (fuel := fuel) (e := n)
  generalize j.fxLoop p fuel n = r at hl ⊢
  cases r
  case done j => exact Job.memOk.fxFinish hl
  case stop f e0 j => exact Job.memOk.stopKeep hl
  case hole => exact Res.memOk_fault

end

theorem State.memOk.execFxPassStart {s : State} (h : s.memOk) : Res.memOk (execFxPassStart s) := by
  refine h.startEntry fun hu => hu.withCmdRecord fun {j r} hj => hj.badRecord.ite ?_
  dsimp only
  split
  · exact hj.stopAt
  · refine hu.next.ite (hu.noteWaitAt.next.ite ?_)
    have hp := fun {p : FxPass} {e : Entry} {f gs} =>
      (Job.memOk.rawTagged (dst := p.out) (gs := gs) (hj.inState (hj.2.upd (f := f)))).bind
        (k := fun _ j => if e.prog = 0 then j.fxClear p else .ok () j) fun hj => hj.fxClear.ite hj.gotOk
    split
    case h_1 heq => exact (hp.of_stop heq).stopKeep
    case h_2 => exact Res.memOk_fault
    case h_3 heq => exact (hp.of_ok heq).afterFxLoop

end Sys2Proof.Machine
end

section
/-! SUPPORT. Every step keeps the canonical form of memory: power, links, trusted interfaces, firmware, services and Soot. -/
namespace Sys2Proof.Machine

section
variable {s : State} (h : s.memOk)
include h

/-! ### Power -/

theorem State.memOk.execIslandOn {i} : Res.memOk (execIslandOn i s) := h.atHost h.modIsland

theorem State.memOk.refusePower {i} : (s.refusePower i).memOk := h

theorem State.memOk.stopIsland {i cmd st} : (s.stopIsland i cmd st).memOk := h

theorem State.memOk.execIslandOff {i} : Res.memOk (execIslandOff i s) :=
  ((h.atHost h.refusePower).ite (h.atHost h.stopIsland.modCore)).ite ((h.atHost h.refusePower).ite (h.atHost h.stopIsland))

theorem State.memOk.execIslandRetainedOff {i} : Res.memOk (execIslandRetainedOff i s) :=
  (h.atHost h.refusePower).ite (h.atHost h.stopIsland)

theorem State.memOk.execIslandRampComplete {i} : Res.memOk (execIslandRampComplete i s) := h.modIsland.next

theorem State.memOk.execDroop {i} : Res.memOk (execDroop i s) := h.modIsland.next

theorem State.memOk.execDroopStretchEnd {i} : Res.memOk (execDroopStretchEnd i s) := h.modIsland.next

theorem State.memOk.execOverCurrent {i} : Res.memOk (execOverCurrent i s) := h.modIsland.next

theorem State.memOk.execOverCurrentEnd {i} : Res.memOk (execOverCurrentEnd i s) := h.modIsland.next

theorem State.memOk.execRegulatorPhaseFailure {i phase} : Res.memOk (execRegulatorPhaseFailure i phase s) := by
  refine State.memOk.next (State.memOk.raiseMsix ?_)
  split
  · exact h.modIsland.notify
  · exact h.modIsland

theorem State.memOk.darkTeam {c t} : (s.darkTeam c t).memOk := by
  unfold State.darkTeam
  split
  · exact h
  · have hl := fun {x} => h.lookTcbs (x := x)
    dsimp only
    split
    · exact hl
    · exact hl
    · exact hl
    · exact hl.modTeam
    · exact hl.modTeam
    · exact (hl.foldl fun hu => hu.freeEntry.setTcbState).restamp
    · exact hl.killTeam.ite hl.freezeTeam.modTeam
    · exact hl.killTeam.ite hl.freezeTeam.modTeam
    · exact State.memOk.ite (hl.foldl fun hu => hu.freeEntry).restamp (hl.killTeam.ite hl.freezeSaved)
    · exact hl.killTeam.ite hl.freezeSaved
    · exact hl.killTeam.ite hl.freezeSaved

theorem State.memOk.execRegulatorFailure {i} : Res.memOk (execRegulatorFailure i s) :=
  h.modIsland.next.ite ((h.modIsland.foldl fun hu => hu.writeBack).modCore.foldl fun hu => hu.darkTeam).next

/-! ### Links -/

theorem State.memOk.outside {q sc write inHost pa bytes} : (s.outside q sc write inHost pa bytes).memOk :=
  State.memOk.ite (State.memOk_addWrites h ..) (h.same rfl rfl)

theorem State.memOk.execHostAccess {write path stream pa bytes} : Res.memOk (execHostAccess write path stream pa bytes s) :=
  h.outside.next.ite (h.next.ite (Res.memOk_fault.ite (h.next.ite (h.outside.next.ite (State.memOk.next (h.same rfl rfl))))))

theorem State.memOk.execPeerAccess {write pa bytes} : Res.memOk (execPeerAccess write pa bytes s) :=
  h.outside.next.ite (h.next.ite (Res.memOk_fault.ite h.outside.next))

theorem State.memOk.execHostPortDown : Res.memOk (execHostPortDown s) := State.memOk.next (h.same rfl rfl)

theorem State.memOk.modPort {n f} : (s.modPort n f).memOk := h

theorem State.memOk.execChimneyFlit {port tx crcFails head body} : Res.memOk (execChimneyFlit port tx crcFails head body s) := h.modPort.next

theorem State.memOk.stopFabric {c} : (s.stopFabric c).memOk := by
  unfold State.stopFabric
  split
  · exact h
  · exact h.clFault

theorem State.memOk.stopFabricSaved {k} : (s.stopFabricSaved k).memOk := by
  unfold State.stopFabricSaved
  split
  · exact h
  · split
    · exact h
    · exact h.faultRec.modImage

theorem State.memOk.portChanged : s.portChanged.memOk :=
  h.raiseMsix.ite ((h.raiseMsix.foldl fun hu => hu.stopFabric).foldl fun hu => hu.stopFabricSaved)

theorem State.memOk.execChimneyPortDown {port} : Res.memOk (execChimneyPortDown port s) := h.next.ite h.modPort.portChanged.next

theorem State.memOk.enumerate : s.enumerate.memOk := State.memOk.ite (h.same rfl rfl) h

theorem State.memOk.execChimneyPortUp {port ok lanes} : Res.memOk (execChimneyPortUp port ok lanes s) :=
  h.next.ite h.modPort.portChanged.enumerate.next

theorem State.memOk.chctlWrite {n v} : (s.chctlWrite n v).memOk := h.ite (h.modPort.portChanged.ite h.modPort)

theorem State.memOk.execChimneyModeWrite {port v} : Res.memOk (execChimneyModeWrite port v s) := h.atHost h.chctlWrite

theorem State.memOk.execDigclr {port} : Res.memOk (execDigclr port s) := h.atHost h.modPort

/-! ### Sessions and trusted interfaces -/

theorem State.memOk.modTdi {n f} : (s.modTdi n f).memOk := h

theorem State.memOk.execKeyExchange {tdi period} : Res.memOk (execKeyExchange tdi period s) := h.next.ite h.modTdi.next

theorem State.memOk.execHeartbeat {tdi} : Res.memOk (execHeartbeat tdi s) := h.modTdi.next

theorem State.memOk.execLockInterface {tdi} : Res.memOk (execLockInterface tdi s) := by
  unfold Machine.execLockInterface
  split
  · exact h.modTdi.next.ite h.next
  · exact h.next

theorem State.memOk.execStartInterface {tdi} : Res.memOk (execStartInterface tdi s) := h.modTdi.next

theorem State.memOk.execMeasurementReportRequest {tdi} : Res.memOk (execMeasurementReportRequest tdi s) := by
  unfold Machine.execMeasurementReportRequest
  split
  · exact h.modTdi.next
  · exact h.next

theorem State.memOk.logPoisoned {p tcb x} : (s.logPoisoned p tcb x).memOk := by
  refine h.foldl fun hu => ?_
  split
  · exact hu.uncorrectable
  · exact hu

theorem State.memOk.poisonEngine {p c a} : (s.poisonEngine p c a).memOk := by
  unfold State.poisonEngine
  split
  · exact h
  · exact h.uncorrectable.modCtx.engineFault

theorem State.memOk.poisonReads {p c} : (s.poisonReads p c).memOk := h.logPoisoned.modCtx.foldl fun hu => hu.poisonEngine

theorem State.memOk.dropHostWrites {p cores images} : (s.dropHostWrites p cores images).memOk :=
  State.memOk.foldl (State.memOk.foldl (h.same rfl rfl) fun hu => hu.modCtx) fun hu => hu.modImage

/-- The notification that goes where the queue's address lies outside the window. -/
theorem State.memOk.notifyOutside {p n} : (if (s.part p).outside (s.part p).nqAddr then s.notify p 6 0 n 0 else s).memOk :=
  h.notify.ite h

theorem State.memOk.interfaceFails {n p} : (s.interfaceFails n p).memOk := by
  unfold State.interfaceFails
  dsimp only
  refine State.memOk.modTdi (State.memOk.notifyOutside (State.memOk.modPart ?_))
  refine State.memOk.foldl (State.memOk.dropHostWrites (State.memOk.foldl ?_ fun hu => ?_)) fun hu => hu.freezeQuiet
  · exact h.foldl fun hu => hu.poisonReads
  split
  · exact hu.logPoisoned.modImage
  · exact hu

theorem State.memOk.execInterfaceError {tdi} : Res.memOk (execInterfaceError tdi s) := by
  unfold Machine.execInterfaceError
  split
  · exact h.next
  · exact h.next.ite h.interfaceFails.next

theorem State.memOk.execSessionExpiry {tdi} : Res.memOk (execSessionExpiry tdi s) := by
  unfold Machine.execSessionExpiry
  dsimp only
  split
  · exact h.next
  · exact h.next.ite h.interfaceFails.next

/-- Zeroed bytes leave the list of memory. -/
theorem State.memOk.zeroMemory {a n} : (s.zeroMemory a n).memOk := ⟨Memory.wf_filter _ h.1, h.2⟩

theorem State.memOk.zeroSpill {x} : (s.zeroSpill x).memOk := h.foldl fun hu => hu.zeroMemory

theorem State.memOk.zeroPart {p} : (s.zeroPart p).memOk := by
  refine State.memOk.foldl (State.memOk.withStores (State.memOk.foldl (State.memOk.withBad (State.memOk.foldl
    (h.foldl fun hu => hu.zeroSpill) fun hu => hu.modCore)) fun hu => hu.zeroMemory)) fun hu => ?_
  split
  case h_5 => exact hu.modTeam
  all_goals exact hu

theorem State.memOk.execStopInterface {tdi} : Res.memOk (execStopInterface tdi s) := by
  unfold Machine.execStopInterface
  split
  · exact h.next
  · exact h.next.ite (h.foldl fun hu => hu.freezeQuiet).zeroPart.modPart.modTdi.next

/-! ### Firmware -/

theorem State.memOk.rebooted : s.rebooted.memOk := h

theorem State.memOk.bringUp {i} : (s.bringUp i).memOk := State.memOk.ite (h.same rfl rfl) (State.memOk.enumerate h)

theorem State.memOk.execResetRelease {image} : Res.memOk (execResetRelease image s) :=
  h.next.ite (h.bringUp.next.ite (State.memOk.next (h.same rfl rfl)))

theorem State.memOk.haltAll : s.haltAll.memOk := h

theorem State.memOk.recoveryGo : s.recoveryGo.memOk := h.ite (State.memOk.same h.haltAll rfl rfl)

theorem State.memOk.execRecoveryGo {image} : Res.memOk (execRecoveryGo image s) :=
  h.next.ite (h.recoveryGo.rebooted.bringUp.next.ite h.recoveryGo.withFwFree.raiseMsix.next)

theorem State.memOk.fuseCommit : s.fuseCommit.memOk := by
  unfold State.fuseCommit
  split <;> exact h.same rfl rfl

theorem State.memOk.execFwcommit : Res.memOk (execFwcommit s) := h.fuseCommit.next

/-! ### Services -/

theorem State.memOk.assignHandle {k part} : (s.assignHandle k part).memOk := h

theorem State.memOk.serviceViolates {r} : (s.serviceViolates r).memOk := by
  unfold State.serviceViolates
  split
  · exact h.freezeTeam.ite h
  · exact h

omit h in
theorem State.memOk.serviceWrite {r fuel} : ∀ {s : State} {va bs}, s.memOk → (s.serviceWrite r va fuel bs).memOk := by
  induction fuel with
  | zero => exact fun h => h
  | succ fuel ih =>
    intro s va bs h
    unfold State.serviceWrite
    refine h.ite ?_
    dsimp only
    split
    case h_1 heq => exact ih (State.memOk.atomicWrite (h.translate_eq heq)).meterUncore
    case h_2 heq => exact State.memOk.serviceViolates (h.translate_eq heq)
    case h_3 heq => exact h.translate_eq heq

omit h in
theorem State.memOk.payloadRead {r fuel} : ∀ {s : State} {va n}, s.memOk → (s.payloadRead r va fuel n).2.memOk := by
  induction fuel with
  | zero => exact fun h => h
  | succ fuel ih =>
    intro s va n h
    unfold State.payloadRead
    split
    · exact h
    · dsimp only
      split
      case h_1 heq => exact ih (State.memOk.readErrors (h.translate_eq heq)).meterUncore
      case h_2 heq => exact State.memOk.serviceViolates (h.translate_eq heq)
      case h_3 heq => exact h.translate_eq heq

theorem State.memOk.readPayload {k} : (s.readPayload k).memOk := by
  unfold State.readPayload
  split
  · exact h
  · exact State.memOk.ite h (State.memOk.same h.payloadRead rfl rfl)

theorem State.memOk.eventMember {t m} : (s.eventMember t m).memOk := by
  unfold State.eventMember
  split
  · split
    · exact h.eventAt
    · exact h
  · exact h

theorem State.memOk.answer {r err value data} : (s.answer r err value data).memOk := (h.serviceWrite.ite h).serviceWrite.eventMember

theorem State.memOk.execServiceCompletion {k err value data} : Res.memOk (execServiceCompletion k err value data s) := by
  unfold Machine.execServiceCompletion
  split
  · exact h.next
  · refine h.withRequests.next.ite (h.withRequests.answer.next.ite (h.withRequests.answer.next.ite ?_))
    exact h.readPayload.withSent.answer.next

theorem State.memOk.execLentPageReturn {part page} : Res.memOk (execLentPageReturn part page s) := by
  unfold Machine.execLentPageReturn
  split
  · exact h.next
  · exact h.next.ite h.withLent.eventMember.next

/-! ### Soot and the error block -/

theorem State.memOk.headsOf {kind c launch x} : (s.headsOf kind c launch x).memOk := h.foldl fun hu => hu.sootRecord

theorem State.memOk.headRecords {kind c} : (s.headRecords kind c).memOk := h.ite h.headsOf

theorem State.memOk.openWaits {c} : (s.openWaits c).memOk := by
  refine h.ite (State.memOk.foldl (h.foldl fun {u w} hu => ?_) fun hu => hu.sootRecord)
  cases agentCoded w.agent
  · exact hu
  · exact hu.endWait

theorem State.memOk.stopCore {c} : (s.stopCore c).memOk := h.modCore.openWaits.headRecords

theorem State.memOk.stopImage {t x m} : (s.stopImage t x m).memOk := by
  unfold State.stopImage
  split
  · exact h
  · exact h.withImages.headsOf.ite h.withImages

theorem State.memOk.stopTeam {t} : (s.stopTeam t).memOk := by
  unfold State.stopTeam
  split
  · exact h
  · exact h.ite (h.foldl fun hu => hu.stopCore.ite hu.stopImage)

theorem State.memOk.sootStopAll : s.sootStopAll.memOk := h.foldl fun hu => hu.stopTeam

theorem State.memOk.execSootStop : Res.memOk (execSootStop s) := h.atHost h.sootStopAll

theorem State.memOk.execSampleRecord : Res.memOk (execSampleRecord s) :=
  h.next.ite (h.withSoot.foldl fun hu => hu.headRecords.ite hu).next

theorem State.memOk.execBreakpointStop {k} : Res.memOk (execBreakpointStop k s) := by
  unfold Machine.execBreakpointStop
  split
  · exact h.next
  · refine h.next.ite ?_
    dsimp only
    split
    · exact (h.sootRecord.ite h).stopTeam.next
    · exact (h.sootRecord.ite h).stopCore.next

theorem State.memOk.latinjWrite {k v} : (s.latinjWrite k v).memOk := h.withSoot

theorem State.memOk.execLatencyInjectArm {k v} : Res.memOk (execLatencyInjectArm k v s) := h.next.ite (h.atHost h.latinjWrite)

theorem State.memOk.errcfgWrite {v} : (s.errcfgWrite v).memOk := h

theorem State.memOk.execErrcfgWrite {v} : Res.memOk (execErrcfgWrite v s) := h.atHost h.errcfgWrite

theorem State.memOk.injWrite {k v} : (s.injWrite k v).memOk := h

theorem State.memOk.execErrorInjectArm {k v} : Res.memOk (execErrorInjectArm k v s) := h.next.ite (h.atHost h.injWrite)

end

end Sys2Proof.Machine
end

section
/-! SUPPORT. Every step keeps the canonical form of memory: VX, and what the host writes. -/
namespace Sys2Proof.Machine

section
variable {s : State} (h : s.memOk)
include h

/-! ### Landings and cycles -/

theorem State.memOk.loadErrors {f} : (s.loadErrors f).memOk := h.sramErrors.ite h

theorem State.memOk.landOne {c what} : (s.landOne c what).memOk := by
  unfold State.landOne
  cases what
  case store => exact h.mend.modCore
  all_goals exact h.modCtx

theorem State.memOk.vxAdvance {c} : (s.vxAdvance c).memOk := h.modCtx.foldl fun hu => hu.landOne

theorem State.memOk.vxFault {a f} : Res.memOk (s.vxFault a f) := h.upd.engineFault.next

theorem State.memOk.ringUse {u} : (s.ringUse u).memOk := by
  unfold State.ringUse
  split
  · exact h
  · exact (h.upd.ite h).ringReturn.ite (h.upd.ite h)

theorem State.memOk.vxNext {a} : (s.vxNext a).memOk := h

theorem State.memOk.vxEnd {a v ring trig tiles} : (s.vxEnd a v ring trig tiles).memOk := by
  unfold State.vxEnd
  refine State.memOk.endWait (State.memOk.vxAdvance (State.memOk.vxNext ?_))
  exact h.upd.upd.ringUse.meter.meter.foldl fun hu => hu.meter

theorem State.memOk.vxMoves {a on} : Res.memOk (s.vxMoves a on) := by
  unfold State.vxMoves
  dsimp only
  split
  · exact h.loadErrors.vxFault
  · exact h.noteRing.next
  · exact h.vxEnd.next

theorem State.memOk.vxCycle {a} : Res.memOk (s.vxCycle a) := by
  refine h.vxFault.ite ?_
  split
  · exact h.noteWait.next
  · exact h.sramErrors.vxFault.ite h.vxMoves

theorem State.memOk.withVx {k : VxAt → Res} (hk : ∀ {a}, Res.memOk (k a)) : Res.memOk (s.withVx k) := by
  refine h.next.ite ?_
  split
  · exact h.next
  · split
    · exact hk
    · exact h.next

theorem State.memOk.vxMove {halves e d sr dir g i op} : Res.memOk (s.vxMove halves e d sr dir g i op) :=
  h.withVx (h.vxCycle.ite (h.vxFault.ite h.upd.next))

theorem State.memOk.vxBad {sub} : Res.memOk (s.vxBad sub) := h.withVx h.vxFault

theorem State.memOk.rfclCycle {n} : (s.rfclCycle n).memOk := h.upd.meter.meter

theorem State.memOk.execVxRfcl {r g i n} : Res.memOk (execVxRfcl r g i n s) :=
  h.withVx (h.vxFault.ite (h.rfclCycle.ite h.meter.meter).vxNext.vxAdvance.endWait.next)

theorem State.memOk.vxRfclStart : Res.memOk s.vxRfclStart := by
  refine h.startEntry fun hu => ?_
  split
  · exact hu.rfclCycle.upd.vxAdvance.next
  · exact hu.next

theorem State.memOk.execVxRunStart : Res.memOk (execVxRunStart s) := by
  refine h.next.ite (h.startEntry fun hu => ?_)
  split
  · exact hu.startRun fun hv => hv.upd
  · exact hu.next

theorem State.memOk.vxIdle : Res.memOk s.vxIdle := h.next.ite h.vxAdvance.next

/-! ### The windows of partitions and cores -/

theorem State.memOk.configWrite {p v} : (s.configWrite p v).memOk :=
  h.refusePart.ite ((h.modPart.foldl fun hu => hu.beginDrain).ite h.modPart)

theorem State.memOk.heldWrite {p old new f} : (s.heldWrite p old new f).memOk := h.refusePart.ite h.modPart

theorem State.memOk.partWrite {p off v} : (s.partWrite p off v).memOk := by
  refine h.refusePart.ite ?_
  split
  · exact h.configWrite
  · exact h.heldWrite
  · exact h.modPart
  · exact h.heldWrite
  · exact h.heldWrite
  · exact h

theorem State.memOk.execPartitionConfigWrite {p off v} : Res.memOk (execPartitionConfigWrite p off v s) := h.next.ite (h.atHost h.partWrite)

theorem State.memOk.tlbinvWrite {p v} : (s.tlbinvWrite p v).memOk := State.memOk.ite h h

theorem State.memOk.execTlbInvalidate {p v} : Res.memOk (execTlbInvalidate p v s) := h.next.ite (h.atWindow h.tlbinvWrite)

theorem State.memOk.fzctlWrite {p v} : Res.memOk (s.fzctlWrite p v) := by
  unfold State.fzctlWrite
  split
  · exact h.execFreezeResume
  · exact h.execFreezeKill
  · exact h.modPart.next

theorem State.memOk.queueWrite {p q off v} : (s.queueWrite p q off v).memOk := by
  unfold State.queueWrite
  split
  · exact h.modQueue
  · exact h.modQueue
  · exact h.modQueue
  · exact h

theorem State.memOk.partWindow {p off v} : Res.memOk (s.partWindow p off v) := by
  refine h.refusePart.next.ite ?_
  split
  · exact h.modPart.next
  · exact h.modPart.next
  · exact h.fzctlWrite
  · exact h.tlbinvWrite.next
  · exact h.queueWrite.next.ite h.partWrite.next

theorem State.memOk.coreWerr {c} : (s.coreWerr c).memOk := h

theorem State.memOk.letIn {c} : (s.letIn c).memOk := h

theorem State.memOk.corectlWrite {c v} : (s.corectlWrite c v).memOk :=
  h.modCore.ite (h.modCore.letIn.loadAlternate.ite (h.modCore.letIn.modCore.ite h.modCore.letIn))

theorem State.memOk.execHaltRequest {c v} : Res.memOk (execHaltRequest c v s) := h.next.ite (h.atHost h.corectlWrite)

theorem State.memOk.execShadowBankRead {c} : Res.memOk (execShadowBankRead c s) :=
  h.next.ite ((h.atHost h.withHostRead).ite (h.atHost h.withHostReadFree.modCore))

theorem State.memOk.coreWindow {c off v} : (s.coreWindow c off v).memOk := by
  refine h.corectlWrite.ite (State.memOk.ite (h.coreWerr.ite ?_) ((h.modCore.ite h.coreWerr).ite h))
  split
  · exact h.modCore
  · exact h.coreWerr

theorem State.memOk.ttWrite {c off v} : (s.ttWrite c off v).memOk := h.modCore.ite (h.ite (h.modCore.ite h.modCore))

theorem State.memOk.execTimetableEntryWrite {c off v} : Res.memOk (execTimetableEntryWrite c off v s) := h.next.ite (h.atHost h.ttWrite)

/-! ### The other windows of BAR 0 -/

theorem State.memOk.damperWindow {off v} : (s.damperWindow off v).memOk := h.contractWrite.ite (h.withDamper.ite (h.modIsland.ite h))

theorem State.memOk.asCore {c} {f : State → State} (hf : ∀ {u : State}, u.memOk → (f u).memOk) : (s.asCore c f).memOk :=
  (hf h.withCur).withCur

theorem State.memOk.faultWindow {off v} : (s.faultWindow off v).memOk := (h.asCore fun hu => hu.writeAction).ite h

theorem State.memOk.errWindow {off v} : (s.errWindow off v).memOk := h.errcfgWrite.ite (h.withErr.ite (h.injWrite.ite h))

theorem State.memOk.sootWindow {off v} : (s.sootWindow off v).memOk :=
  (h.withSoot.sootStopAll.ite h.withSoot).ite ((h.ite h.withSoot).ite (h.withSoot.ite (h.ite (h.withSoot.ite (h.withSoot.ite
    ((h.latinjWrite.ite h.withSoot).ite h))))))

theorem State.memOk.recoveryWindow {off v} : (s.recoveryWindow off v).memOk := by
  unfold State.recoveryWindow
  split
  · exact h.withFw
  · exact h.recoveryGo.ite h
  · exact h.fuseCommit
  · exact h

theorem State.memOk.powerWindow {off v} : Res.memOk (s.powerWindow off v) := by
  refine h.withDamper.next.ite (Res.memOk.ite ?_ h.next)
  dsimp only
  split
  · exact h.modIsland.execIslandOff
  · exact h.modIsland.execIslandOn
  · exact h.modIsland.execIslandRetainedOff
  · exact h.modIsland.refusePower.next

theorem State.memOk.barWrite {off v} : Res.memOk (s.barWrite off v) :=
  h.recoveryWindow.next.ite (h.next.ite (h.partWindow.ite (h.damperWindow.next.ite (h.ttWrite.next.ite (h.faultWindow.next.ite
    (h.errWindow.next.ite (h.sootWindow.next.ite (h.chctlWrite.next.ite (h.powerWindow.ite (h.coreWindow.next.ite h.next))))))))))

theorem State.memOk.execRegisterWrite {off v} : Res.memOk (execRegisterWrite off v s) := h.barWrite

end

end Sys2Proof.Machine
end

section
/-! SUPPORT. Every step keeps the canonical form of memory: the instructions, and the turns of a step. -/
namespace Sys2Proof.Machine

section
variable {s : State} (h : s.memOk)
include h

/-- An instruction keeps the canonical form of memory: those of one form by its lemma, each other by its own. -/
theorem State.memOk.exec {i : Instr} : Res.memOk (exec i s) := by
  cases i
  case vxRun | mxRun => exact h.pushRun
  case mxMmaInline | mxClaimInline | mxReleaseInline | mxTinitInline => exact h.pushMx
  case cxCopy | cxCopy2 | cxPeer | cxFill | cxRing | cxPretr | cxFlush => exact h.pushCx
  case gxGather | gxBag | gxScadd | gxCount | fxPass | fxCfg | clAllred | clRedsc | clAllgat | clBcast => exact h.pushRec
  case skBuffmtA | skBuffmtW => exact h.pushTag
  case abAmoadd | abAmoswap | abAmoxor | abAmoor | abAmoand | abAmomin | abAmomax | abAmominu | abAmomaxu => exact h.abAmo
  case abLoad | wbLoad => exact h.loadTyped
  case abStore | wbStore => exact h.storeTyped
  case skClLoad | rv64Load => exact h.withRegs h.issueLoad
  case skCsStore | rv64Store => exact h.withRegs h.issueStore
  case vxMoveShort | vxMoveLong | vxNop | vaAdd | vaSub | vaMul | vaMin | vaMax | vaAbs | vaNeg | vaCmpeq | vaCmplt | vaCmple
      | vaMov | vaAnd | vaOr | vaXor | vaAndn | vaShl | vaShr | vaSra | vaRotl | vaPopc | vaClz | vfFma | vfFms | vfNfma |
      vfNfms | vsExp2 | vsLog2 | vsRecip | vsRsqrt | vsSqrt | vsTanh | vsSigmoid | vsSilu | vsGelu | vsSin | vsCos | vcCvt |
      vcPack | vcWvcc | vcWphase | ldVec | ldGather | ldBcast | ldRing | ldRaw | stVec | stScatter | stScalar | swPush |
      swPushn | swDrain | lrdSum | lrdMax | lrdMin => exact h.vxMove
  case vxResultLand | vxClusterWake => exact h.vxIdle
  case mxPushw => exact h.execMxPushw
  case cxCancel => exact h.execCxCancel
  case cxWait => exact h.execCxWait
  case cxTest => exact h.execCxTest
  case clBarrier => exact h.execClBarrier
  case ringTake => exact h.execRingTake
  case ringGive => exact h.execRingGive
  case ringStat => exact h.execRingStat
  case skFence => exact h.fence.finish
  case skMark => exact h.execSkMark
  case skRdvwait => exact h.execSkRdvwait
  case skRdvtest => exact h.execSkRdvtest
  case skWfe => exact h.execSkWfe
  case skSev => exact h.execSkSev
  case skSend => exact h.execSkSend
  case skRecv => exact h.execSkRecv
  case dqPush => exact h.execDqPush
  case dqPop => exact h.execDqPop
  case dqSteal => exact h.execDqSteal
  case dqExport => exact h.upd.finish
  case feedPop => exact h.execFeedPop
  case skBudget => exact h.execSkBudget
  case skSvc => exact h.execSkSvc
  case skLend => exact h.execSkLend
  case skShape => exact h.execSkShape
  case skView => exact h.execSkView
  case skTgeom => exact h.execSkTgeom
  case skRfcl => exact h.execSkRfcl
  case ringCfg => exact h.execRingCfg
  case skVariant => exact h.execSkVariant
  case fence fm pred succ rs1 rd => exact h.execFence (fm := fm) (rs1 := rs1) (rd := rd)
  case amo => exact h.execAmo
  case lr dbl aq rl rd rs1 => exact h.execLr (rl := rl)
  case sc => exact h.execSc
  case sfenceVma => exact h.execSfenceVma
  case csrWrite => exact h.execCsrWrite
  case yeventWrite => exact h.execYeventWrite
  case ywmWrite => exact h.execYwmWrite
  case ymxstAccess => exact h.execYmxstAccess
  case ydxstAccess => exact h.execYdxstAccess
  case pendingRegisterWrite => exact h.performEntry.next
  case trapEntry => exact h.trap
  case vxRfcl r g x n => exact h.execVxRfcl (r := r) (i := x)
  case mxMma => exact h.execMxMma
  case mxFill => exact h.execMxFill
  case mxFillRing => exact h.execMxFillRing
  case mxClaim => exact h.execMxClaim
  case mxRelease => exact h.execMxRelease
  case mxReleaseShort => exact h.execMxReleaseShort
  case mxTanch => exact h.execMxTanch
  case mxTinit => exact h.execMxTinit
  case mxTcfg => exact h.execMxTcfg
  case mxResolveMfile => exact h.execMxResolveMfile
  case mxResolveAbuf => exact h.execMxResolveAbuf
  case mxResolveSelf c m n => exact h.execMxResolveSelf (n := n)
  case mxTcmp a b r p x y => exact h.execMxTcmp (x := x) (y := y)
  case mxTcmpThreshold => exact h.execMxTcmpThreshold
  case mxSpill => exact h.execMxSpill
  case mxReload => exact h.execMxReload
  case mxMark => exact h.execMxMark
  case mxGate => exact h.execMxGate
  case subarrayIdleGate => exact h.execSubarrayIdleGate
  case cxCommandEnd => exact h.execCxCommandEnd
  case engineCommandRetire => exact h.execEngineCommandRetire
  case markerRetire => exact h.execMarkerRetire
  case faultActionRestart => exact h.execFaultActionRestart
  case faultActionDiscard => exact h.execFaultActionDiscard
  case faultActionFreeze => exact h.execFaultActionFreeze
  case correctedError => exact h.execCorrectedError
  case placement => exact h.execPlacement
  case preemptionDecision => exact h.execPreemptionDecision
  case saveComplete => exact h.execSaveComplete
  case resume => exact h.execResume
  case islandRampComplete => exact h.execIslandRampComplete
  case droop => exact h.execDroop
  case droopStretchEnd => exact h.execDroopStretchEnd
  case overCurrent => exact h.execOverCurrent
  case regulatorPhaseFailure => exact h.execRegulatorPhaseFailure
  case regulatorFailure => exact h.execRegulatorFailure
  case serviceCompletion => exact h.execServiceCompletion
  case lentPageReturn => exact h.execLentPageReturn
  case hostAccess => exact h.execHostAccess
  case peerAccess => exact h.execPeerAccess
  case chimneyFlit => exact h.execChimneyFlit
  case chimneyPortDown => exact h.execChimneyPortDown
  case interfaceError => exact h.execInterfaceError
  case sessionExpiry => exact h.execSessionExpiry
  case stopInterface => exact h.execStopInterface
  case startInterface => exact h.execStartInterface
  case resetRelease => exact h.execResetRelease
  case queueTailWrite => exact h.execQueueTailWrite
  case queueEnable => exact h.execQueueEnable
  case queueSkip => exact h.execQueueSkip
  case packetNop => exact h.execPacketNop
  case packetLaunch => exact h.execPacketLaunch
  case packetFeed => exact h.execPacketFeed
  case feedAppend => exact h.execFeedAppend
  case packetPred => exact h.execPacketPred
  case packetGraph => exact h.execPacketGraph
  case packetSignal => exact h.execPacketSignal
  case packetInval => exact h.execPacketInval
  case packetLoop => exact h.execPacketLoop
  case loopIteration => exact h.execLoopIteration
  case packetBreak => exact h.execPacketBreak
  case placementOrder => exact h.execPlacementOrder
  case partitionConfigWrite => exact h.execPartitionConfigWrite
  case tlbInvalidate => exact h.execTlbInvalidate
  case freezeResume => exact h.execFreezeResume
  case freezeKill => exact h.execFreezeKill
  case haltRequest => exact h.execHaltRequest
  case shadowBankRead => exact h.execShadowBankRead
  case timetableEntryWrite => exact h.execTimetableEntryWrite
  case registerWrite => exact h.execRegisterWrite
  case contractCommit => exact h.execContractCommit
  case islandOn => exact h.execIslandOn
  case islandOff => exact h.execIslandOff
  case islandRetainedOff => exact h.execIslandRetainedOff
  case errcfgWrite => exact h.execErrcfgWrite
  case errorInjectArm => exact h.execErrorInjectArm
  case recoveryGo => exact h.execRecoveryGo
  case chimneyModeWrite => exact h.execChimneyModeWrite
  case digclr => exact h.execDigclr
  case breakpointStop => exact h.execBreakpointStop
  case latencyInjectArm => exact h.execLatencyInjectArm
  case overCurrentEnd => exact h.execOverCurrentEnd
  case chimneyPortUp => exact h.execChimneyPortUp
  case lockInterface => exact h.execLockInterface
  case keyExchange => exact h.execKeyExchange
  case heartbeat => exact h.execHeartbeat
  case measurementReportRequest => exact h.execMeasurementReportRequest
  case preheaterBuildComplete => exact h.execPreheaterBuildComplete
  case rv64Base => exact h.execRv64Base
  case tagWrite => exact h.execTagWrite
  case skSegend => exact h.execSkSegend
  case skSegendTask => exact h.execSkSegendTask
  case fenceI => exact h.next.ite h.finish
  case wfi => exact h.finish
  case sret => exact h.execSret
  case interruptTake => exact h.execInterruptTake
  case queueLowEntry => exact h.execQueueLowEntry
  case lateSegmentTrap => exact h.execLateSegmentTrap
  case watchdogFreeze => exact h.execWatchdogFreeze
  case vxRunStart => exact h.execVxRunStart
  case mxNop => exact h.execMxNop
  case mxRunStart => exact h.execMxRunStart
  case cxCopyStart => exact h.execCxCopyStart
  case cxPeerStart => exact h.execCxPeerStart
  case cxFillStart => exact h.execCxFillStart
  case cxRingStart => exact h.execCxRingStart
  case cxPretrStart => exact h.execCxPretrStart
  case cxFlushStart => exact h.execCxFlushStart
  case gxGatherStart => exact h.execGxGatherStart
  case gxBagStart => exact h.execGxBagStart
  case gxScaddStart => exact h.execGxScaddStart
  case gxCountStart => exact h.execGxCountStart
  case fxCfgStart => exact h.execFxCfgStart
  case fxPassStart => exact h.execFxPassStart
  case clAllredStart => exact h.execClAllredStart
  case clRedscStart => exact h.execClRedscStart
  case clAllgatStart => exact h.execClAllgatStart
  case clBcastStart => exact h.execClBcastStart
  case clBarrierStart => exact h.execClBarrierStart
  case collectiveCompletion => exact h.execCollectiveCompletion
  case taskRetirement => exact h.execTaskRetirement
  case intervalStep => exact h.execIntervalStep
  case breachClear => exact h.execBreachClear
  case fwcommit => exact h.execFwcommit
  case sootStop => exact h.execSootStop
  case sampleRecord => exact h.execSampleRecord
  case hostPortDown => exact h.execHostPortDown

/-! ### The Stoker's turn -/

theorem State.memOk.fetchAt {o n} : (s.fetchAt o n).memOk := by
  unfold State.fetchAt
  dsimp only
  split
  · split
    · split
      · exact h.readErrors
      · exact h.readErrors
    · trivial
  · exact h.fetchCode

omit h in
theorem Fetch.memOk.stop {r : Fetch} (hr : r.memOk) {o} : Res.memOk (fetchStop o r) := by
  cases r
  case hole => exact Res.memOk_fault
  case ok => exact State.memOk.next hr
  case violation => exact State.memOk.violate hr
  all_goals exact State.memOk.trap hr

theorem State.memOk.runBytes {bs} : Res.memOk (s.runBytes bs) := by
  unfold State.runBytes
  split
  · exact h.modCore.exec
  · exact h.illegal

theorem State.memOk.fetchExec : Res.memOk s.fetchExec := by
  have h1 := h.fetchAt (o := 0) (n := 2)
  unfold State.fetchExec
  generalize s.fetchAt 0 2 = r at h1 ⊢
  cases r
  case ok bs u =>
    refine (State.memOk.runBytes h1).ite ?_
    have h2 := State.memOk.fetchAt (s := u) h1 (o := 2) (n := 2)
    generalize u.fetchAt 2 2 = r at h2 ⊢
    cases r
    case ok => exact State.memOk.runBytes h2
    all_goals exact h2.stop
  all_goals exact h1.stop

theorem State.memOk.stokerTurn : Res.memOk s.stokerTurn := by
  refine h.next.ite (h.finishSwitch.next.ite (h.next.ite ?_))
  split
  · exact h.fetchExec.ite h.exec
  · exact h.exec
  · exact h.fetchExec

/-! ### The engines' turns -/

theorem State.memOk.refetch {a entry code n k put} : Res.memOk (s.refetch a entry code n k put) := by
  unfold State.refetch
  dsimp only
  split
  · exact h.next
  · refine h.next.ite ?_
    have hf := h.fetchBlock (c := s.cur) (a := a) (code := code) (n := n) (k := 2) (acc := [])
    generalize s.fetchBlock s.cur a code n 2 [] = r at hf ⊢
    cases r
    case ok => exact State.memOk.next (State.memOk.upd hf)
    case stop => exact State.memOk.next (State.memOk.engineFault hf)
    case hole => exact Res.memOk_fault

omit h in
/-- Goes on where an instruction answers a next state. -/
theorem Res.memOk.andThen {r : Res} {k : State → Res} (hr : Res.memOk r) (hk : ∀ {t : State}, t.memOk → Res.memOk (k t)) :
    Res.memOk (match (generalizing := false) r with
      | .next t => k t
      | r => r) := by
  cases r
  case next t => exact hk (hr t rfl)
  all_goals exact hr

theorem State.memOk.vxTurn : Res.memOk s.vxTurn := by
  refine h.next.ite ?_
  split
  · refine h.refetch.ite ?_
    split
    · exact h.exec
    · exact h.vxBad
    · exact h.vxBad
  · split
    · dsimp only
      split
      · exact h.vxRfclStart
      · exact h.exec.ite (h.exec.ite (h.exec.andThen fun ht => ht.exec))
    · exact h.exec

theorem State.memOk.mxTurn : Res.memOk s.mxTurn := by
  refine h.next.ite ?_
  split
  · refine h.refetch.ite ?_
    split
    · exact h.exec
    · exact h.mxIllegal
  · split
    · split
      · exact h.exec
      · exact h.mxBindStart
      · split
        · exact h.exec
        · exact h.mxIllegal
      · exact h.next
    · exact h.next

theorem State.memOk.eventTurn {i} : Res.memOk (s.eventTurn i) := by
  unfold State.eventTurn
  split
  · exact h.next
  · exact h.exec

theorem State.memOk.elapse {c ec} : (s.elapse c ec).memOk := h.ite h.modCore

omit h in
/-- The starts of a group one after another. -/
theorem Res.memOk.foldl_exec {l : List Instr} {r : Res} (hr : Res.memOk r) :
    Res.memOk (l.foldl (fun (r : Res) i => match r with
      | .next s => Machine.exec i s
      | r => r) r) := by
  induction l generalizing r with
  | nil => exact hr
  | cons i l ih => exact ih (hr.andThen fun ht => ht.exec)

theorem State.memOk.groupTurn {id} : Res.memOk (s.groupTurn id) := by
  refine h.next.ite (Res.memOk.andThen (Res.memOk.foldl_exec h.upd.next) fun ht => ?_)
  exact h.next.ite ht.upd.next

theorem State.memOk.run {t} : Res.memOk (s.run t) := by
  cases t
  case stoker => exact h.withCur.stokerTurn
  case vx => exact h.withCur.vxTurn
  case mx => exact h.withCur.mxTurn
  case event => exact h.withCur.eventTurn
  case group => exact h.withCur.groupTurn
  case perform => exact h.performEntry.next
  case widen => exact h.widen.next
  case elapse => exact h.elapse.next
  case drain => exact (h.drain.ite h).next
  case begin => exact h.holdCopy.next
  case payload => exact h.readPayload.next
  case sramError => exact (h.ite h.withBad).next
  case handle => exact h.assignHandle.next
  case writeBack => exact h.writeBack.next
  case tick | evict | hdm => exact State.memOk.next (h.same rfl rfl)

/-- The turn that the plan names, or the Stoker's. -/
theorem State.memOk.turn : Res.memOk s.turn := by
  unfold State.turn
  split
  · next rest _ => exact State.memOk.run (s := { s with plan := rest }) h
  · exact h.stokerTurn

end

/-- Settles O55: each operation of a step keeps the form, as memory changes by settled writes and by zeroing alone. -/
theorem stepKeepsMemory : Obligations.StepKeepsMemory := fun _ _ h ht => h.turn _ ht

end Sys2Proof.Machine
end
